-- ==== Sys2Proof/Word.lean ====
section
/-!
DEFINITION. The word types of the W768: 64-bit scalars and syllables, 1,024-bit vectors,
128-bit predicates and bytes (R19, R93).
-/
namespace Sys2Proof

/-- A scalar register, a syllable or a system register (R19, R93). -/
abbrev Word := BitVec 64
/-- A vector register, a latch or one tile row of 128 bytes (R19, R111). -/
abbrev Vec := BitVec 1024
/-- A predicate register: one bit for each byte lane (R19). -/
abbrev Pred := BitVec 128
/-- A byte of storage. -/
abbrev Byte := BitVec 8

end Sys2Proof
end

