-- ==== Sys2Proof/Syntax.lean ====
section
/-!
DEFINITION. The syntax of Gracon: one constructor of `Instr` for each row of spec/opcode_table.json.
The first 139 are the operations of the opcode map (R102), each with the fields of its format
(R97); the last 62 are the device's events, which have no encoding (95_what_each_step_holds.md).
-/
namespace Sys2Proof

/-- The eight slots of a bundle, in the order of R93. -/
inductive Slot
  | s0 | s1 | v0 | v1 | v2 | m | t | x
  deriving DecidableEq, Repr

/-- The number of a slot, as TRAPINFO.SLOT and STEPn number it (R108, R144). -/
def Slot.num : Slot → Nat
  | .s0 => 0 | .s1 => 1 | .v0 => 2 | .v1 => 3 | .v2 => 4 | .m => 5 | .t => 6 | .x => 7

/-- The slots in the order of R93. -/
def Slot.all : List Slot := [.s0, .s1, .v0, .v1, .v2, .m, .t, .x]

/-- The opcode classes of R102. -/
inductive Cls
  | s | v | m | t | x
  deriving DecidableEq, Repr

/-- The class of a slot (R102). -/
def Slot.cls : Slot → Cls
  | .s0 => .s | .s1 => .s | .v0 => .v | .v1 => .v | .v2 => .v | .m => .m | .t => .t | .x => .x

/-- An 8-bit source selector (R98). -/
inductive Sel
  | reg (n : BitVec 6)
  | latch (n : BitVec 4)
  | bc
  | ext (v : Word)
  | imm (n : BitVec 7)
  deriving DecidableEq, Repr

/-- The element types of R101. -/
inductive Ty
  | i8 | i16 | i32 | i64 | n8 | n16 | n32 | n64
  | f32 | bf16 | f16 | e4m3 | e5m2 | e2m1 | e3m5
  deriving DecidableEq, Repr

/-- The rounding codes of R80. -/
inductive Rc
  | dyn | rne | rtz | rup | rdn | sr
  deriving DecidableEq, Repr

/-- The conditions of CMP and VCMP (R128, R157). -/
inductive Cond
  | eq | ne | lt | le | ltn | len
  deriving DecidableEq, Repr

/-- The scopes of barriers and fences (R220). -/
inductive Scope
  | core | quad | clus | stack | pkg | pod
  deriving DecidableEq, Repr

/-- A vector destination: with `ws` only the latch is written (R97, R111). -/
structure VDst where
  ws : Bool
  r  : BitVec 6
  deriving DecidableEq, Repr

/-- The byte offset of an FM operand: 20 bits signed, or the extension (R97). -/
inductive Off
  | short (o : BitVec 20)
  | ext (v : Word)
  deriving DecidableEq, Repr

/-- The byte offset of VLDX and VSTX: 14 bits signed, or the extension (R171). -/
inductive OffX
  | short (o : BitVec 14)
  | ext (v : Word)
  deriving DecidableEq, Repr

/-- An MMA operand: a ring or a tile (R180). -/
inductive MOp
  | ring (n : BitVec 4)
  | tile (n : BitVec 4)
  deriving DecidableEq, Repr

/-- The destination of XCOPY, XGATHER, XEXPAND and KVGET: an address or a ring (R204). -/
inductive XDst
  | addr (a : Sel)
  | ring (n : BitVec 4)
  deriving DecidableEq, Repr

/-- The two forms of WATCH (R224). -/
inductive WatchOf
  | mem (c : BitVec 2) (a : Sel)
  | chan (ch : BitVec 4)
  deriving DecidableEq, Repr

/-- The matrix formats of R180, in MOD order. -/
inductive MFmt
  | bf16 | f16 | e4m3 | e5m2 | i8 | fp4
  deriving DecidableEq, Repr

/-- One row of spec/opcode_table.json each. `g` is the guard (R8); a pair `p` names the predicates
2p and 2p + 1 (R99). -/
inductive Instr
  -- S class (R126 to R133)
  | nop
  | add (g : BitVec 4) (d : BitVec 6) (a b : Sel)
  | sub (g : BitVec 4) (d : BitVec 6) (a b : Sel)
  | mul (g : BitVec 4) (d : BitVec 6) (a b : Sel)
  | mulh (g : BitVec 4) (u : Bool) (d : BitVec 6) (a b : Sel)
  | div (g : BitVec 4) (u : Bool) (d : BitVec 6) (a b : Sel)
  | rem (g : BitVec 4) (u : Bool) (d : BitVec 6) (a b : Sel)
  | and (g : BitVec 4) (d : BitVec 6) (a b : Sel)
  | or (g : BitVec 4) (d : BitVec 6) (a b : Sel)
  | xor (g : BitVec 4) (d : BitVec 6) (a b : Sel)
  | shl (g : BitVec 4) (d : BitVec 6) (a b : Sel)
  | shr (g : BitVec 4) (arith : Bool) (d : BitVec 6) (a b : Sel)
  | rot (g : BitVec 4) (d : BitVec 6) (a b : Sel)
  | min (g : BitVec 4) (u : Bool) (d : BitVec 6) (a b : Sel)
  | max (g : BitVec 4) (u : Bool) (d : BitVec 6) (a b : Sel)
  | clz (g : BitVec 4) (d : BitVec 6) (a : Sel)
  | popc (g : BitVec 4) (d : BitVec 6) (a : Sel)
  | sel (g : BitVec 4) (d : BitVec 6) (c : BitVec 4) (a b : Sel)
  | cmp (g : BitVec 4) (c : Cond) (p : BitVec 3) (a b : Sel)
  | li (g : BitVec 4) (d : BitVec 6) (a : Sel)
  | lea (g : BitVec 4) (d : BitVec 6) (a b : Sel) (sh : BitVec 6)
  | ld (g : BitVec 4) (sz : BitVec 2) (acq : Bool) (d base : BitVec 6) (arr : BitVec 12) (off : Off)
  | st (g : BitVec 4) (sz : BitVec 2) (rel : Bool) (d base : BitVec 6) (off : Off)
  | mfs (g : BitVec 4) (d : BitVec 6) (n : BitVec 16)
  | mts (g : BitVec 4) (n : BitVec 16) (a : Sel)
  -- S1 only (R137 to R149)
  | br (g : BitVec 4) (d : BitVec 6) (disp : BitVec 32)
  | bri (g : BitVec 4) (d a : BitVec 6)
  | call (g : BitVec 4) (disp : BitVec 32)
  | calli (g : BitVec 4) (a : BitVec 6)
  | ret (g : BitVec 4) (a : BitVec 6)
  | handback (g : BitVec 4)
  | tailend (g : BitVec 4)
  | jointail (g : BitVec 4) (p : BitVec 3)
  | loop (g : BitVec 4) (d : BitVec 6) (disp : BitVec 32)
  | trap (g : BitVec 4) (a : Sel)
  | eret (g : BitVec 4)
  | halt (g : BitVec 4)
  | fuse (g : BitVec 4) (n : BitVec 6)
  | decouple (g : BitVec 4)
  | rejoin (g : BitVec 4)
  -- S0 only (R218 to R226)
  | rent (g : BitVec 4) (tier kind : BitVec 2) (ls rlt : Bool) (spread : BitVec 2) (d : BitVec 6)
      (p : BitVec 3) (a b c : Sel)
  | renew (g : BitVec 4) (d : BitVec 6) (p : BitVec 3) (a b : Sel)
  | prepay (g : BitVec 4) (d : BitVec 6) (p : BitVec 3) (a b c : Sel)
  | sublet (g : BitVec 4) (l : Bool) (gr : BitVec 6) (d : BitVec 6) (p : BitVec 3) (a b c : Sel)
  | vacate (g : BitVec 4) (subs : Bool) (d : BitVec 6) (a : Sel)
  | handover (g : BitVec 4) (d : BitVec 6) (p : BitVec 3) (a b : Sel)
  | lease (g : BitVec 4) (d : BitVec 6) (a : Sel)
  | barinit (g : BitVec 4) (sc : Scope) (p : BitVec 3) (a b c : Sel)
  | barbase (g : BitVec 4) (sc : Scope) (a b : Sel)
  | arrive (g : BitVec 4) (sc : Scope) (a : Sel)
  | wait (g : BitVec 4) (sc : Scope) (p : BitVec 3) (a : Sel)
  | watch (g : BitVec 4) (p : BitVec 3) (w : WatchOf) (b : Sel)
  | fence (g : BitVec 4) (sc : Scope) (kinds : BitVec 3) (dir : BitVec 2)
  -- V class (R152 to R171)
  | vadd (g : BitVec 4) (t : Ty) (rc : Rc) (sat : Bool) (d : VDst) (a b : Sel)
  | vsub (g : BitVec 4) (t : Ty) (rc : Rc) (sat : Bool) (d : VDst) (a b : Sel)
  | vmul (g : BitVec 4) (t : Ty) (rc : Rc) (sat : Bool) (d : VDst) (a b : Sel)
  | vfma (g : BitVec 4) (t : Ty) (rc : Rc) (np nc : Bool) (d : VDst) (a b c : Sel)
  | vmin (g : BitVec 4) (t : Ty) (d : VDst) (a b : Sel)
  | vmax (g : BitVec 4) (t : Ty) (d : VDst) (a b : Sel)
  | vabs (g : BitVec 4) (t : Ty) (sat : Bool) (d : VDst) (a : Sel)
  | vand (g : BitVec 4) (t : Ty) (d : VDst) (a b : Sel)
  | vor (g : BitVec 4) (t : Ty) (d : VDst) (a b : Sel)
  | vxor (g : BitVec 4) (t : Ty) (d : VDst) (a b : Sel)
  | vshl (g : BitVec 4) (t : Ty) (d : VDst) (a b : Sel)
  | vshr (g : BitVec 4) (t : Ty) (d : VDst) (a b : Sel)
  | vcmp (g : BitVec 4) (t : Ty) (c : Cond) (p : BitVec 3) (a b : Sel)
  | vsel (g : BitVec 4) (t : Ty) (d : VDst) (c : BitVec 4) (a b : Sel)
  | vmov (g : BitVec 4) (t : Ty) (d : VDst) (a : Sel)
  | vcvt (g : BitVec 4) (t u : Ty) (rc : Rc) (ns : Bool) (d : VDst) (a : Sel)
  | vblkmax (g : BitVec 4) (t : Ty) (d : VDst) (a : Sel)
  | vscale (g : BitVec 4) (u : Ty) (d : VDst) (a b : Sel)
  | vquant (g : BitVec 4) (t u : Ty) (rc : Rc) (ns : Bool) (d : VDst) (a b : Sel)
  | vrsqe (g : BitVec 4) (d : VDst) (a : Sel)
  | vrcpe (g : BitVec 4) (d : VDst) (a : Sel)
  | vexp2 (g : BitVec 4) (rc : Rc) (d : VDst) (a : Sel)
  | vlog2 (g : BitVec 4) (rc : Rc) (d : VDst) (a : Sel)
  | vredsum (g : BitVec 4) (t : Ty) (rc : Rc) (w : Bool) (d : VDst) (a : Sel)
  | vredmax (g : BitVec 4) (t : Ty) (d : VDst) (a : Sel)
  | vperm (g : BitVec 4) (t : Ty) (d : VDst) (a b : Sel)
  | vrot (g : BitVec 4) (t : Ty) (d : VDst) (a b : Sel)
  | vidx (g : BitVec 4) (t : Ty) (d : VDst)
  | vtopk (g : BitVec 4) (t : Ty) (k : BitVec 7) (init : Bool) (d : BitVec 6) (c : BitVec 4) (a b : Sel)
  | vdot4 (g : BitVec 4) (t : Ty) (rc : Rc) (d : VDst) (a b c : Sel)
  | vmulh (g : BitVec 4) (t : Ty) (d : VDst) (a b : Sel)
  | vclamp (g : BitVec 4) (t : Ty) (d : VDst) (a b c : Sel)
  | vrnd (g : BitVec 4) (t : Ty) (rc : Rc) (d : VDst) (a : Sel)
  | vclass (g : BitVec 4) (t : Ty) (d : VDst) (a : Sel)
  | vpack (g : BitVec 4) (t : Ty) (sat : Bool) (d : VDst) (a b : Sel)
  | vunpack (g : BitVec 4) (t : Ty) (hi : Bool) (d : VDst) (a : Sel)
  | pand (g : BitVec 4) (na nb : Bool) (d a b : BitVec 4)
  | por (g : BitVec 4) (na nb : Bool) (d a b : BitVec 4)
  | pxor (g : BitVec 4) (na nb : Bool) (d a b : BitVec 4)
  | pcnt (g : BitVec 4) (t : Ty) (d : BitVec 6) (a : BitVec 4)
  | vld (g : BitVec 4) (acq : Bool) (d base : BitVec 6) (arr : BitVec 12) (off : Off)
  | vldx (g : BitVec 4) (t : Ty) (d base : BitVec 6) (arr : BitVec 12) (xv : BitVec 6) (off : OffX)
  | vst (g : BitVec 4) (rel : Bool) (d : Sel) (base : BitVec 6) (off : Off)
  | vstx (g : BitVec 4) (t : Ty) (d : Sel) (base : BitVec 6) (xv : BitVec 6) (off : OffX)
  -- T class (R190)
  | tld (g : BitVec 4) (d : BitVec 3) (a : BitVec 6) (b : Sel)
  | tst (g : BitVec 4) (d : BitVec 3) (a : BitVec 6) (b : Sel)
  | trd (g : BitVec 4) (t : BitVec 3) (d : BitVec 6) (b : Sel)
  | twr (g : BitVec 4) (d : BitVec 3) (a : BitVec 6) (b : Sel)
  | ttr (g : BitVec 4) (t : Ty) (d s : BitVec 3)
  | tmask (g : BitVec 4) (t : Ty) (mode : BitVec 2) (d : BitVec 3) (a b c : Sel)
  | trmax (g : BitVec 4) (t : Ty) (s : BitVec 3) (d : BitVec 6)
  | trsum (g : BitVec 4) (t : Ty) (rc : Rc) (s : BitVec 3) (d : BitVec 6)
  | texp (g : BitVec 4) (t : Ty) (rc : Rc) (d s : BitVec 3) (b : BitVec 6)
  | trscl (g : BitVec 4) (t : Ty) (rc : Rc) (d s : BitVec 3) (b : BitVec 6)
  | tcvt (g : BitVec 4) (t u : Ty) (rc : Rc) (ns : Bool) (d s : BitVec 3)
  | twait (g : BitVec 4) (tm : BitVec 8) (am : BitVec 16)
  | tzero (g : BitVec 4) (d : BitVec 3)
  -- M class (R178 to R188)
  | mma (g : BitVec 4) (f : MFmt) (acc : BitVec 4) (a b : MOp) (m8 n16 : BitVec 8) (k16 : BitVec 12)
      (pa pb z : Bool)
  | mmag (g : BitVec 4) (f : MFmt) (acc : BitVec 4) (a b : MOp) (m8 n16 : BitVec 8) (k16 : BitVec 12)
      (pa pb z : Bool)
  | accdef (g : BitVec 4) (i32 : Bool) (n : BitVec 4) (a b c : Sel)
  | accz (g : BitVec 4) (n : BitVec 4)
  | accld (g : BitVec 4) (t : Ty) (n : BitVec 4) (a b : Sel)
  | accmv (g : BitVec 4) (t : Ty) (dir : Bool) (rc : Rc) (ns : Bool) (n : BitVec 4) (d : BitVec 3) (a b : Sel)
  | accst (g : BitVec 4) (t : Ty) (rc : Rc) (ns : Bool) (n : BitVec 4) (a b : Sel)
  | accscl (g : BitVec 4) (n : BitVec 4) (a : BitVec 6) (b : Sel)
  | accbias (g : BitVec 4) (n : BitVec 4) (a : BitVec 6) (b : Sel)
  | ringset (g : BitVec 4) (r : BitVec 4) (a b c : Sel)
  | ringq (g : BitVec 4) (r : BitVec 4) (d : BitVec 6)
  -- X class (R205, R217)
  | xcopy (g : BitVec 4) (esz : BitVec 2) (ch : BitVec 4) (pace : BitVec 12) (d : XDst) (b c : Sel)
      (desc : Option Word)
  | xgather (g : BitVec 4) (esz : BitVec 2) (ch : BitVec 4) (pace : BitVec 12) (d : XDst) (b : Sel)
      (vi : BitVec 6) (n1 : BitVec 5)
  | xscatter (g : BitVec 4) (esz : BitVec 2) (ch : BitVec 4) (pace : BitVec 12) (a b : Sel)
      (vi : BitVec 6) (n1 : BitVec 5)
  | xacc (g : BitVec 4) (op : BitVec 5) (esz : BitVec 2) (ch : BitVec 4) (pace : BitVec 12) (a b c : Sel)
  | xfetch (g : BitVec 4) (op : BitVec 5) (esz : BitVec 2) (ch : BitVec 4) (a b c : Sel)
  | xcas (g : BitVec 4) (esz : BitVec 2) (ch : BitVec 4) (a b c : Sel) (res : Word)
  | xfill (g : BitVec 4) (esz : BitVec 2) (ch : BitVec 4) (pace : BitVec 12) (a b c : Sel)
  | xexpand (g : BitVec 4) (esz : BitVec 2) (ch : BitVec 4) (pace : BitVec 12) (d : XDst) (b c : Sel)
  | xsignal (g : BitVec 4) (op : BitVec 5) (ch : BitVec 4) (a b : Sel)
  | xorder (g : BitVec 4) (esz : BitVec 2) (ch : BitVec 4) (b : Sel)
  | kvalloc (g : BitVec 4) (ch : BitVec 4) (a b : Sel)
  | kvfree (g : BitVec 4) (ch : BitVec 4) (a : Sel)
  | kvshare (g : BitVec 4) (ch : BitVec 4) (a b : Sel)
  | kvappend (g : BitVec 4) (adv : Bool) (ch : BitVec 4) (a b c : Sel)
  | kvcommit (g : BitVec 4) (reject : Bool) (ch : BitVec 4) (a b : Sel)
  | kvget (g : BitVec 4) (ch : BitVec 4) (pace : BitVec 12) (d : XDst) (b c : Sel)
  | kvsum (g : BitVec 4) (ch : BitVec 4) (a b c : Sel)
  | xcoll (g : BitVec 4) (op : BitVec 5) (kind : BitVec 2) (esz : BitVec 2) (ch : BitVec 4) (a b c : Sel)
      (desc : Word)
  -- events of a core and its engines
  | resultLanding (core slot : Nat)
  | timedLoadLanding (core slot : Nat)
  | queuedOpStart (core slot op : Nat)
  | queuedOpComplete (core slot op : Nat)
  | commandStart (core ch : Nat)
  | commandElement (core ch : Nat)
  | commandCompletion (core ch : Nat)
  | collectiveForm (fn group : Nat)
  -- events of the rent clock
  | prepayRenewal (region : Nat)
  | leaseExpiry (region : Nat) (sublet : Option Nat)
  | rentLowEvent (region : Nat)
  | rentLowTrap (core slot : Nat)
  | scrubComplete (granule : Nat)
  | watchTimeout (core slot : Nat)
  -- events of translation
  | prgResponse (fn group code : Nat)
  | invalidationComplete (fn : Nat) (s1 : Bool)
  -- events of launches and scheduling
  | doorbell (fn queue : Nat) (wptr : BitVec 32)
  | launchEntryRead (fn queue : Nat)
  | placement
  | priorityPreemption (fn queue : Nat)
  | preemptedResume (launch : Nat)
  | launchRetire (launch : Nat)
  | coalDelayExpiry (fn : Nat)
  | turnEnd (part : Nat)
  | safePointSwitch (core slot : Nat)
  | fullSave (core slot : Nat)
  | turnBegin (part : Nat)
  | quadScrubComplete (quad : Nat)
  | escalationResume (core slot : Nat)
  | escalationStop (core slot : Nat)
  -- events of the stack, heat, power and errors
  | heatBoardUpdate
  | powerAlarmRaise
  | powerAlarmClear
  | tokenRefill
  | patrol (unit : Nat) (wrongSymbols : Nat)
  -- writes of management registers (R289) and the management window
  | qpartWrite (v : Word)
  | fctlWrite (v : Word)
  | lqWrite (v : Word)
  | invWrite (v : Word)
  | prictlWrite (v : Word)
  | tbktWrite (v : Word)
  | lmapWrite (v : Word)
  | mwdataAccess (write : Option Word)
  -- the host's side
  | s1invWrite (fn : Nat) (v : Word)
  | setlayer (fn : Nat)
  | getlayer (fn : Nat)
  | getwindow (fn : Nat)
  | registerWindowWrite (fn offset size : Nat) (v : Word)
  | functionLevelReset (fn : Nat)
  | packageReset
  | configurationRequest (fn : Nat)
  | getVersion
  | getCapabilities
  | negotiateAlgorithms (offered : List Byte)
  | getDigests
  | getCertificate (slot offset length : Nat)
  | challenge (nonce : List Byte)
  | getMeasurements (index : Nat)
  | vendorDefinedRequest
  -- the pod links and migration
  | receiveFlit (port : Nat) (bytes : List Byte)
  | nak (port seq : Nat)
  | finalRound (fn : Nat)
  deriving DecidableEq, Repr

end Sys2Proof
end

