-- ==== Sys2Proof/WellFormed.lean ====
section
/-!
DEFINITION. Which instructions the spec admits: the constraints on operand values that
chapters 05 to 10 turn into ILLEGAL by the syllable alone (R97 to R103, R151, R181, R204).
-/
namespace Sys2Proof

/-- Width in bits of an element type (R72, R74). -/
def Ty.width : Ty → Nat
  | .i8 | .n8 | .e4m3 | .e5m2 | .e3m5 => 8
  | .i16 | .n16 | .bf16 | .f16 => 16
  | .i32 | .n32 | .f32 => 32
  | .i64 | .n64 => 64
  | .e2m1 => 4

/-- The signed integer types (R72). -/
def Ty.isSigned : Ty → Bool
  | .i8 | .i16 | .i32 | .i64 => true
  | _ => false

/-- INT of R152. -/
def Ty.isInt : Ty → Bool
  | .i8 | .i16 | .i32 | .i64 | .n8 | .n16 | .n32 | .n64 => true
  | _ => false

/-- FP of R152. -/
def Ty.isFp : Ty → Bool
  | .f32 | .bf16 | .f16 => true
  | _ => false

/-- F8 of R152. -/
def Ty.isF8 : Ty → Bool
  | .e4m3 | .e5m2 => true
  | _ => false

/-- The types a stochastic rounding may deliver and `.nosat` may name (R80, R159). -/
def Ty.isNarrow : Ty → Bool
  | .e4m3 | .e5m2 | .e2m1 => true
  | _ => false

/-- The codes 0x0 to 0xC of R101. -/
def Ty.isMove (t : Ty) : Bool := t.isInt || t.isFp || t.isF8

/-- Why a well-shaped instruction is not one the spec admits. -/
inductive Ill
  /-- A latch selector outside the V class, or a latch above b11 (R98). -/
  | latch
  /-- Two selectors of one syllable read different extensions (R98). -/
  | extension
  /-- A predicate pair that names p0 and p1 (R99). -/
  | pair
  /-- A type the form does not list (R101, R152). -/
  | type
  /-- A rounding code the form does not take (R80, R151). -/
  | rounding
  /-- `.sat`, `.nosat`, `.w` where it is not valid (R153, R159, R165, R186). -/
  | option
  /-- A displacement that is not a multiple of 8 (R97). -/
  | displacement
  /-- LOOP with s0 (R139). -/
  | loopCount
  /-- A gang size that is not 2, 4, 8, 16 or 32 (R142). -/
  | gangSize
  /-- A tier, kind or spread RENT does not have (R218). -/
  | rentField
  /-- FENCE with no page kind or with direction 3 (R226). -/
  | fenceField
  /-- VTOPK with k out of range or an odd destination (R166). -/
  | topk
  /-- TMASK mode 3 (R193). -/
  | maskMode
  /-- A matrix shape or operand that R181 refuses by the syllable. -/
  | matrix
  /-- An operation number, element size or pace R204 to R216 refuse. -/
  | command
  /-- A data selector of VST or VSTX that is no register and no latch (R170). -/
  | dataSelector
  /-- XCOPY with a descriptor and a C that is not s0 (R206). -/
  | count
  deriving DecidableEq, Repr

/-- The value sources of an instruction, in the order A, B, C (R98). -/
def Instr.srcs : Instr → List Sel
  | .add _ _ a b | .sub _ _ a b | .mul _ _ a b | .and _ _ a b | .or _ _ a b | .xor _ _ a b
  | .shl _ _ a b | .rot _ _ a b => [a, b]
  | .mulh _ _ _ a b | .div _ _ _ a b | .rem _ _ _ a b | .shr _ _ _ a b | .min _ _ _ a b
  | .max _ _ _ a b => [a, b]
  | .clz _ _ a | .popc _ _ a | .li _ _ a | .mts _ _ a | .trap _ a => [a]
  | .sel _ _ _ a b | .cmp _ _ _ a b | .lea _ _ a b _ => [a, b]
  | .rent _ _ _ _ _ _ _ _ a b c => [a, b, c]
  | .renew _ _ _ a b | .handover _ _ _ a b => [a, b]
  | .prepay _ _ _ a b c | .barinit _ _ _ a b c => [a, b, c]
  | .sublet _ _ _ _ _ a b c => [a, b, c]
  | .vacate _ _ _ a | .lease _ _ a | .arrive _ _ a | .wait _ _ _ a => [a]
  | .barbase _ _ a b => [a, b]
  | .watch _ _ (.mem _ a) b => [a, b]
  | .watch _ _ (.chan _) b => [b]
  | .vadd _ _ _ _ _ a b | .vsub _ _ _ _ _ a b | .vmul _ _ _ _ _ a b => [a, b]
  | .vfma _ _ _ _ _ _ a b c => [a, b, c]
  | .vmin _ _ _ a b | .vmax _ _ _ a b | .vand _ _ _ a b | .vor _ _ _ a b | .vxor _ _ _ a b
  | .vshl _ _ _ a b | .vshr _ _ _ a b | .vcmp _ _ _ _ a b | .vsel _ _ _ _ a b => [a, b]
  | .vabs _ _ _ _ a | .vmov _ _ _ a | .vcvt _ _ _ _ _ _ a | .vblkmax _ _ _ a => [a]
  | .vscale _ _ _ a b | .vquant _ _ _ _ _ _ a b => [a, b]
  | .vrsqe _ _ a | .vrcpe _ _ a | .vexp2 _ _ _ a | .vlog2 _ _ _ a => [a]
  | .vredsum _ _ _ _ _ a | .vredmax _ _ _ a => [a]
  | .vperm _ _ _ a b | .vrot _ _ _ a b | .vtopk _ _ _ _ _ _ a b => [a, b]
  | .vdot4 _ _ _ _ a b c | .vclamp _ _ _ a b c => [a, b, c]
  | .vmulh _ _ _ a b | .vpack _ _ _ _ a b => [a, b]
  | .vrnd _ _ _ _ a | .vclass _ _ _ a | .vunpack _ _ _ _ a => [a]
  | .vst _ _ d _ _ | .vstx _ _ d _ _ _ => [d]
  | .tld _ _ _ b | .tst _ _ _ b | .trd _ _ _ b | .twr _ _ _ b => [b]
  | .tmask _ _ _ _ a b c => [a, b, c]
  | .accdef _ _ _ a b c | .ringset _ _ a b c => [a, b, c]
  | .accld _ _ _ a b | .accmv _ _ _ _ _ _ _ a b | .accst _ _ _ _ _ a b => [a, b]
  | .accscl _ _ _ b | .accbias _ _ _ b => [b]
  | .xcopy _ _ _ _ (.addr a) b c _ | .xexpand _ _ _ _ (.addr a) b c | .kvget _ _ _ (.addr a) b c =>
      [a, b, c]
  | .xcopy _ _ _ _ (.ring _) b c _ | .xexpand _ _ _ _ (.ring _) b c | .kvget _ _ _ (.ring _) b c =>
      [b, c]
  | .xgather _ _ _ _ (.addr a) b _ _ => [a, b]
  | .xgather _ _ _ _ (.ring _) b _ _ => [b]
  | .xscatter _ _ _ _ a b _ _ => [a, b]
  | .xacc _ _ _ _ _ a b c | .xfetch _ _ _ _ a b c | .xcas _ _ _ a b c _
  | .xfill _ _ _ _ a b c => [a, b, c]
  | .xsignal _ _ _ a b => [a, b]
  | .xorder _ _ _ b => [b]
  | .kvalloc _ _ a b | .kvshare _ _ a b | .kvcommit _ _ _ a b => [a, b]
  | .kvfree _ _ a => [a]
  | .kvappend _ _ _ a b c | .kvsum _ _ a b c => [a, b, c]
  | .xcoll _ _ _ _ _ a b c _ => [a, b, c]
  | _ => []

/-- The extension a selector reads, if it reads one (R98). -/
def Sel.extVal? : Sel → Option Word
  | .ext v => some v
  | _ => none

/-- Every value an instruction takes from its extension syllable (R97, R98, R205). -/
def Instr.exts (i : Instr) : List Word :=
  (match i with
    | .ld _ _ _ _ _ _ (.ext v) | .st _ _ _ _ _ (.ext v) | .vld _ _ _ _ _ (.ext v)
    | .vst _ _ _ _ (.ext v) => [v]
    | .vldx _ _ _ _ _ _ (.ext v) | .vstx _ _ _ _ _ (.ext v) => [v]
    | .xcopy _ _ _ _ _ _ _ (some v) | .xcas _ _ _ _ _ _ v | .xcoll _ _ _ _ _ _ _ _ v => [v]
    | _ => []) ++ i.srcs.filterMap Sel.extVal?

/-- The extension syllable of an instruction, if it has one. -/
def Instr.ext? (i : Instr) : Option Word := i.exts.head?

/-- The guard field of an instruction; an event and NOP have p0 (R8). -/
def Instr.guard : Instr → BitVec 4
  | .add g .. | .sub g .. | .mul g .. | .mulh g .. | .div g .. | .rem g .. | .and g .. | .or g ..
  | .xor g .. | .shl g .. | .shr g .. | .rot g .. | .min g .. | .max g .. | .clz g .. | .popc g ..
  | .sel g .. | .cmp g .. | .li g .. | .lea g .. | .ld g .. | .st g .. | .mfs g .. | .mts g .. => g
  | .br g .. | .bri g .. | .call g .. | .calli g .. | .ret g .. | .handback g | .tailend g
  | .jointail g .. | .loop g .. | .trap g .. | .eret g | .halt g | .fuse g .. | .decouple g
  | .rejoin g => g
  | .rent g .. | .renew g .. | .prepay g .. | .sublet g .. | .vacate g .. | .handover g ..
  | .lease g .. | .barinit g .. | .barbase g .. | .arrive g .. | .wait g .. | .watch g ..
  | .fence g .. => g
  | .vadd g .. | .vsub g .. | .vmul g .. | .vfma g .. | .vmin g .. | .vmax g .. | .vabs g ..
  | .vand g .. | .vor g .. | .vxor g .. | .vshl g .. | .vshr g .. | .vcmp g .. | .vsel g ..
  | .vmov g .. | .vcvt g .. | .vblkmax g .. | .vscale g .. | .vquant g .. | .vrsqe g ..
  | .vrcpe g .. | .vexp2 g .. | .vlog2 g .. | .vredsum g .. | .vredmax g .. | .vperm g ..
  | .vrot g .. | .vidx g .. | .vtopk g .. | .vdot4 g .. | .vmulh g .. | .vclamp g .. | .vrnd g ..
  | .vclass g .. | .vpack g .. | .vunpack g .. | .pand g .. | .por g .. | .pxor g .. | .pcnt g ..
  | .vld g .. | .vldx g .. | .vst g .. | .vstx g .. => g
  | .tld g .. | .tst g .. | .trd g .. | .twr g .. | .ttr g .. | .tmask g .. | .trmax g ..
  | .trsum g .. | .texp g .. | .trscl g .. | .tcvt g .. | .twait g .. | .tzero g .. => g
  | .mma g .. | .mmag g .. | .accdef g .. | .accz g .. | .accld g .. | .accmv g .. | .accst g ..
  | .accscl g .. | .accbias g .. | .ringset g .. | .ringq g .. => g
  | .xcopy g .. | .xgather g .. | .xscatter g .. | .xacc g .. | .xfetch g .. | .xcas g ..
  | .xfill g .. | .xexpand g .. | .xsignal g .. | .xorder g .. | .kvalloc g .. | .kvfree g ..
  | .kvshare g .. | .kvappend g .. | .kvcommit g .. | .kvget g .. | .kvsum g .. | .xcoll g .. => g
  | _ => 0

/-- The slots an instruction may stand in: by class (R102) and by S0-only and S1-only (R103). An
event stands in none. -/
def Instr.slotOk (i : Instr) (s : Slot) : Bool :=
  match i with
  | .nop => true
  | .add .. | .sub .. | .mul .. | .mulh .. | .div .. | .rem .. | .and .. | .or .. | .xor .. | .shl ..
  | .shr .. | .rot .. | .min .. | .max .. | .clz .. | .popc .. | .sel .. | .cmp .. | .li .. | .lea ..
  | .ld .. | .st .. | .mfs .. | .mts .. => s == .s0 || s == .s1
  | .br .. | .bri .. | .call .. | .calli .. | .ret .. | .handback .. | .tailend .. | .jointail ..
  | .loop .. | .trap .. | .eret .. | .halt .. | .fuse .. | .decouple .. | .rejoin .. => s == .s1
  | .rent .. | .renew .. | .prepay .. | .sublet .. | .vacate .. | .handover .. | .lease ..
  | .barinit .. | .barbase .. | .arrive .. | .wait .. | .watch .. | .fence .. => s == .s0
  | .vadd .. | .vsub .. | .vmul .. | .vfma .. | .vmin .. | .vmax .. | .vabs .. | .vand .. | .vor ..
  | .vxor .. | .vshl .. | .vshr .. | .vcmp .. | .vsel .. | .vmov .. | .vcvt .. | .vblkmax ..
  | .vscale .. | .vquant .. | .vrsqe .. | .vrcpe .. | .vexp2 .. | .vlog2 .. | .vredsum ..
  | .vredmax .. | .vperm .. | .vrot .. | .vidx .. | .vtopk .. | .vdot4 .. | .vmulh .. | .vclamp ..
  | .vrnd .. | .vclass .. | .vpack .. | .vunpack .. | .pand .. | .por .. | .pxor .. | .pcnt ..
  | .vld .. | .vldx .. | .vst .. | .vstx .. => s.cls == .v
  | .tld .. | .tst .. | .trd .. | .twr .. | .ttr .. | .tmask .. | .trmax .. | .trsum .. | .texp ..
  | .trscl .. | .tcvt .. | .twait .. | .tzero .. => s == .t
  | .mma .. | .mmag .. | .accdef .. | .accz .. | .accld .. | .accmv .. | .accst .. | .accscl ..
  | .accbias .. | .ringset .. | .ringq .. => s == .m
  | .xcopy .. | .xgather .. | .xscatter .. | .xacc .. | .xfetch .. | .xcas .. | .xfill ..
  | .xexpand .. | .xsignal .. | .xorder .. | .kvalloc .. | .kvfree .. | .kvshare .. | .kvappend ..
  | .kvcommit .. | .kvget .. | .kvsum .. | .xcoll .. => s == .x
  | _ => false

/-- The one-shot operations: every S1-only and every S0-only opcode (R107). -/
def Instr.oneShot (i : Instr) : Bool := i.slotOk .s0 != i.slotOk .s1

/-- The element size of an ESZ field in bytes (R204). -/
def eszBytes (z : BitVec 2) : Nat := 2 ^ z.toNat

/-- An event of the device, which no bundle encodes. -/
def Instr.isEvent (i : Instr) : Bool := i != .nop && Slot.all.all (fun s => !i.slotOk s)

/-- Whether a rounding code suits a floating-point operation that delivers type `t` (R80, R151). -/
def rcOk (t : Ty) (rc : Rc) : Bool := rc != .sr || t.isNarrow

/-- Whether a rounding code suits a form of type `t` (R151). -/
def rcOkT (t : Ty) (rc : Rc) : Bool := if t.isInt then rc == .dyn else rcOk t rc

/-- Whether a rounding code suits a conversion from `u` to `t` (R151). -/
def rcOkCvt (t u : Ty) (rc : Rc) : Bool := if t.isInt && u.isInt then rc == .dyn else rcOk t rc

/-- A pace that is zero or at least one element (R204). -/
def paceOk (esz : BitVec 2) (pace : BitVec 12) : Bool := pace == 0 || eszBytes esz ≤ pace.toNat

/-- Bytes of an element of a matrix format, doubled so that e2m1 has 1 (R180). -/
def MFmt.eb2 : MFmt → Nat
  | .bf16 => 4
  | .f16 => 4
  | .e4m3 => 2
  | .e5m2 => 2
  | .i8 => 2
  | .fp4 => 1

/-- The K unit of a matrix format (R180). -/
def MFmt.kUnit : MFmt → Nat
  | .bf16 => 16
  | .f16 => 16
  | .e4m3 => 32
  | .e5m2 => 32
  | .i8 => 32
  | .fp4 => 64

/-- Whether a matrix operand suits `rows` rows of `k` elements with `pop` (R181). -/
def MOp.ok (o : MOp) (f : MFmt) (rows k : Nat) (pop : Bool) : Bool :=
  match o with
  | .ring _ => true
  | .tile n => n.toNat < 8 && !pop && f != .fp4 && rows ≤ 32 && k * f.eb2 ≤ 256

/-- The syllable's own conditions on MMA and MMAG (R181). -/
def mmaOk (f : MFmt) (a b : MOp) (m8 n16 : BitVec 8) (k16 : BitVec 12) (pa pb : Bool) : Bool :=
  1 ≤ m8.toNat && m8.toNat ≤ 32 && 1 ≤ n16.toNat && n16.toNat ≤ 16 && k16 != 0
    && 16 * k16.toNat % f.kUnit == 0
    && a.ok f (8 * m8.toNat) (16 * k16.toNat) pa && b.ok f (16 * n16.toNat) (16 * k16.toNat) pb

/-- The element size XACC's operation needs, if it needs one (R212). -/
def xaccEsz (op : BitVec 5) : Option (BitVec 2) :=
  if op == 2 then some 1 else if op.toNat ≤ 6 then some 2 else none

/-- The checks a constructor's own fields must pass. -/
def Instr.checkFields : Instr → Option Ill
  | .cmp _ _ p _ _ | .jointail _ p | .renew _ _ p _ _
  | .prepay _ _ p _ _ _ | .sublet _ _ _ _ p _ _ _ | .handover _ _ p _ _ | .barinit _ _ p _ _ _
  | .wait _ _ p _ | .watch _ p _ _ => if p == 0 then some .pair else none
  | .rent _ t k _ _ sp _ p _ _ _ =>
      if p == 0 then some .pair
      else if t == 3 || k == 3 || sp == 3 || (sp != 0 && t != 2) then some .rentField else none
  | .br _ _ disp | .call _ disp => if disp.toNat % 8 == 0 then none else some .displacement
  | .loop _ d disp =>
      if d == 0 then some .loopCount else if disp.toNat % 8 == 0 then none else some .displacement
  | .fuse _ n => if n == 2 || n == 4 || n == 8 || n == 16 || n == 32 then none else some .gangSize
  | .fence _ _ kinds dir => if kinds == 0 || dir == 3 then some .fenceField else none
  | .vadd _ t rc sat _ _ _ | .vsub _ t rc sat _ _ _ | .vmul _ t rc sat _ _ _ =>
      if !(t.isInt || t.isFp) then some .type else if !rcOkT t rc then some .rounding
      else if sat && !t.isInt then some .option else none
  | .vfma _ t rc _ _ _ _ _ _ | .vrnd _ t rc _ _ =>
      if !t.isFp then some .type else if !rcOk t rc then some .rounding else none
  | .vmin _ t _ _ _ | .vmax _ t _ _ _ | .vredmax _ t _ _ | .vclamp _ t _ _ _ _ =>
      if t.isInt || t.isFp then none else some .type
  | .vabs _ t sat _ _ =>
      if !(t.isInt || t.isFp) then some .type else if sat && !t.isSigned then some .option else none
  | .vand _ t _ _ _ | .vor _ t _ _ _ | .vxor _ t _ _ _ | .vshl _ t _ _ _ | .vshr _ t _ _ _
  | .vidx _ t _ | .vmulh _ t _ _ _ => if t.isInt then none else some .type
  | .vcmp _ t _ p _ _ => if !t.isMove then some .type else if p == 0 then some .pair else none
  | .vsel _ t _ _ _ _ | .vmov _ t _ _ | .vperm _ t _ _ _ | .vrot _ t _ _ _ | .pcnt _ t _ _ =>
      if t.isMove then none else some .type
  | .vcvt _ t u rc ns _ _ | .tcvt _ t u rc ns _ _ =>
      if t == .e3m5 || u == .e3m5 || t == u then some .type
      else if !rcOkCvt t u rc then some .rounding
      else if ns && !t.isNarrow then some .option else none
  | .vblkmax _ t _ _ | .vclass _ t _ _ | .tmask _ t 0 _ _ _ _ | .tmask _ t 1 _ _ _ _
  | .tmask _ t 2 _ _ _ _ | .trmax _ t _ _ => if t.isFp then none else some .type
  | .tmask _ _ _ _ _ _ _ => some .maskMode
  | .vscale _ u _ _ _ => if u.isFp then none else some .type
  | .vquant _ t u _ _ _ _ _ => if t.isNarrow && u.isFp then none else some .type
  | .vexp2 _ rc _ _ | .vlog2 _ rc _ _ => if rcOk .f32 rc then none else some .rounding
  | .vredsum _ t rc w _ _ =>
      if !(t.isInt || t.isFp) then some .type else if !rcOkT t rc then some .rounding
      else if w && (t == .i64 || t == .n64 || t == .f32) then some .option else none
  | .vtopk _ t k _ d _ _ _ =>
      if !(t == .f32 || t == .bf16) then some .type
      else if k == 0 || 1024 / t.width < k.toNat || d.toNat % 2 == 1 then some .topk else none
  | .vdot4 _ t rc _ _ _ _ =>
      if !(t == .i8 || t == .n8 || t.isF8 || t == .bf16 || t == .f16) then some .type
      else if !(if t.isInt then rc == .dyn else rcOk .f32 rc) then some .rounding else none
  | .vpack _ t _ _ _ _ => if t.isInt && t.width ≤ 32 then none else some .type
  | .vunpack _ t _ _ _ => if t.isInt && 16 ≤ t.width then none else some .type
  | .vldx _ t _ _ _ _ _ =>
      if t == .f32 || t.isInt && 32 ≤ t.width then none else some .type
  | .vstx _ t d _ _ _ =>
      if !(t == .f32 || t.isInt && 32 ≤ t.width) then some .type
      else match d with
        | .reg _ | .latch _ => none
        | _ => some .dataSelector
  | .vst _ _ d _ _ =>
      match d with
      | .reg _ | .latch _ => none
      | _ => some .dataSelector
  | .ttr _ t _ _ => if 8 ≤ t.width && t.width ≤ 32 then none else some .type
  | .trsum _ t rc _ _ => if !t.isFp then some .type else if rcOk .f32 rc then none else some .rounding
  | .texp _ t rc _ _ _ | .trscl _ t rc _ _ _ =>
      if !t.isFp then some .type else if rcOk t rc then none else some .rounding
  | .mma _ f _ a b m8 n16 k16 pa pb _ | .mmag _ f _ a b m8 n16 k16 pa pb _ =>
      if mmaOk f a b m8 n16 k16 pa pb then none else some .matrix
  | .accld _ t _ _ _ => if t == .f32 || t == .i32 then none else some .type
  | .accst _ t rc ns _ _ _ =>
      if !(t.isFp || t.isF8 || t == .i32 || t == .i8) then some .type
      else if rc == .sr && !t.isF8 then some .rounding
      else if ns && !t.isF8 then some .option else none
  | .accmv _ t dir rc ns _ _ _ _ =>
      if !(t.isFp || t.isF8 || t == .i32 || t == .i8) then some .type
      else if rc == .sr && (dir || !t.isF8) then some .rounding
      else if ns && (dir || !t.isF8) then some .option else none
  | .xcopy g z ch pc d b c desc =>
      if !paceOk z pc then some .command
      else if desc.isSome && c != .reg 0 then some .count
      else if (Instr.xcopy g z ch pc d b c none).exts.any (fun v => some v != desc) then some .extension
      else none
  | .xgather _ z _ pc _ _ _ _ | .xscatter _ z _ pc _ _ _ _ =>
      if z.toNat < 2 || !paceOk z pc then some .command else none
  | .xacc _ op z _ pc _ _ _ =>
      if 9 < op.toNat || !paceOk z pc || (xaccEsz op).any (· != z) then some .command else none
  | .xfetch _ op z _ _ _ _ => if 8 < op.toNat || z.toNat < 2 then some .command else none
  | .xcas _ z _ _ _ _ _ => if z.toNat < 2 then some .command else none
  | .xfill _ z _ pc _ _ _ => if paceOk z pc then none else some .command
  | .xexpand _ z _ pc _ _ _ => if 1 < z.toNat || !paceOk z pc then some .command else none
  | .xsignal _ op _ _ _ => if 2 < op.toNat then some .command else none
  -- XORDER takes no element size: both 0 and the 3 of an unsuffixed command are accepted (R205, log 110, DESIGN CHOICE).
  | .xorder _ z _ _ => if z == 0 || z == 3 then none else some .command
  | .kvget _ _ pc _ _ _ => if pc == 0 || 128 ≤ pc.toNat then none else some .command
  | .xcoll _ op _ z _ _ _ _ _ =>
      if 4 < op.toNat || z != (if op == 1 then 1 else 2) then some .command else none
  | _ => none

/-- The checks on the selectors and the extension of any instruction (R98). -/
def Instr.checkSrcs (i : Instr) : Option Ill :=
  if i.srcs.any (fun s => match s with
      | .latch n => !(i.slotOk .v0) || 11 < n.toNat
      | _ => false) then some .latch
  else if i.exts.any (fun v => some v != i.ext?) then some .extension
  else none

/-- The first reason an instruction is not one the spec admits, if there is one. -/
def Instr.check (i : Instr) : Option Ill :=
  match i.checkFields with
  | some e => some e
  | none => i.checkSrcs

/-- A well-formed instruction: one that some syllable encodes, or an event. -/
abbrev Instr.wf (i : Instr) : Prop := i.check = none

end Sys2Proof
end

