-- ==== Sys2Proof/Decode.lean ====
section
/-!
DEFINITION. The decoder of syllables and headers (R93 to R103), total on any bits and rejecting by
name, and after it the encoder, written from the same tables.
-/
namespace Sys2Proof

/-- Why a syllable is no instruction; every reason raises ILLEGAL (R103). -/
inductive DecodeErr
  /-- A header where a slot syllable is due. -/
  | headerInSlot
  /-- A slot syllable where a header is due. -/
  | headerExpected
  /-- A header that breaks R95. -/
  | header
  /-- An opcode the class does not have. -/
  | opcode
  /-- An S1-only opcode in S0, or an S0-only opcode in S1. -/
  | slot
  /-- A MOD value the operation does not list. -/
  | mod
  /-- A reserved selector, or an immediate where a register is due. -/
  | selector
  /-- A latch outside the V class or in a field that is no value source. -/
  | latch
  /-- A selector 0x7F with XT clear, or XCAS and XCOLL with XT clear. -/
  | extMissing
  /-- XT set on an operation that takes no extension. -/
  | extNotTaken
  /-- The broadcast port with BPS = 0b00. -/
  | broadcast
  /-- A register number outside R99. -/
  | register
  /-- A field the operation does not use that is not zero. -/
  | unused
  /-- REP above 0 with a one-shot operation (R95). -/
  | rep
  /-- An operand value the spec does not admit. -/
  | ill (e : Ill)
  deriving DecidableEq, Repr

/-- The answer of a decoding step. -/
abbrev Dec (α : Type) := Except DecodeErr α

/-- Go on if `b` holds, else reject with `e`. -/
def need (b : Bool) (e : DecodeErr) : Dec Unit := if b then .ok () else .error e

/-- Reject with `e` where there is nothing. -/
def get {α : Type} (o : Option α) (e : DecodeErr) : Dec α :=
  match o with
  | some x => .ok x
  | none => .error e

/-! ## Syllables and formats (R96, R97) -/

/-- The fields every slot syllable has (R96). -/
structure Syl where
  h    : BitVec 1
  xt   : BitVec 1
  op   : BitVec 6
  g    : BitVec 4
  mod  : BitVec 4
  rest : BitVec 48
  deriving DecidableEq, Repr

/-- Split a slot syllable (R96). -/
def Syl.unpack (w : Word) : Syl :=
  { h := w.extractLsb' 63 1, xt := w.extractLsb' 62 1, op := w.extractLsb' 56 6
    g := w.extractLsb' 52 4, mod := w.extractLsb' 48 4, rest := w.extractLsb' 0 48 }

/-- Join a slot syllable (R96). -/
def Syl.pack (s : Syl) : Word := s.h ++ s.xt ++ s.op ++ s.g ++ s.mod ++ s.rest

/-- F3 and FT (R97). -/
structure F3 where
  d   : BitVec 8 := 0
  a   : BitVec 8 := 0
  b   : BitVec 8 := 0
  c   : BitVec 8 := 0
  aux : BitVec 16 := 0
  deriving DecidableEq, Repr

/-- Split the operands of F3 and FT. -/
def F3.unpack (r : BitVec 48) : F3 :=
  { d := r.extractLsb' 40 8, a := r.extractLsb' 32 8, b := r.extractLsb' 24 8
    c := r.extractLsb' 16 8, aux := r.extractLsb' 0 16 }

/-- Join the operands of F3 and FT. -/
def F3.pack (f : F3) : BitVec 48 := f.d ++ f.a ++ f.b ++ f.c ++ f.aux

/-- FM (R97). -/
structure FM where
  d    : BitVec 8 := 0
  base : BitVec 8 := 0
  arr  : BitVec 12 := 0
  off  : BitVec 20 := 0
  deriving DecidableEq, Repr

/-- Split the operands of FM. -/
def FM.unpack (r : BitVec 48) : FM :=
  { d := r.extractLsb' 40 8, base := r.extractLsb' 32 8, arr := r.extractLsb' 20 12
    off := r.extractLsb' 0 20 }

/-- Join the operands of FM. -/
def FM.pack (f : FM) : BitVec 48 := f.d ++ f.base ++ f.arr ++ f.off

/-- FB (R97). -/
structure FB where
  d    : BitVec 8 := 0
  a    : BitVec 8 := 0
  disp : BitVec 32 := 0
  deriving DecidableEq, Repr

/-- Split the operands of FB. -/
def FB.unpack (r : BitVec 48) : FB :=
  { d := r.extractLsb' 40 8, a := r.extractLsb' 32 8, disp := r.extractLsb' 0 32 }

/-- Join the operands of FB. -/
def FB.pack (f : FB) : BitVec 48 := f.d ++ f.a ++ f.disp

/-- FMX (R97). -/
structure FMX where
  acc   : BitVec 4
  a     : BitVec 4
  b     : BitVec 4
  m8    : BitVec 8
  n16   : BitVec 8
  k16   : BitVec 12
  flags : BitVec 8
  deriving DecidableEq, Repr

/-- Split the operands of FMX. -/
def FMX.unpack (r : BitVec 48) : FMX :=
  { acc := r.extractLsb' 44 4, a := r.extractLsb' 40 4, b := r.extractLsb' 36 4
    m8 := r.extractLsb' 28 8, n16 := r.extractLsb' 20 8, k16 := r.extractLsb' 8 12
    flags := r.extractLsb' 0 8 }

/-- Join the operands of FMX. -/
def FMX.pack (f : FMX) : BitVec 48 := f.acc ++ f.a ++ f.b ++ f.m8 ++ f.n16 ++ f.k16 ++ f.flags

/-- FXC with the AUX sub-fields of R204. -/
structure FXC where
  ch   : BitVec 4
  a    : BitVec 8 := 0
  b    : BitVec 8 := 0
  c    : BitVec 8 := 0
  pace : BitVec 12 := 0
  ops  : BitVec 5 := 0
  esz  : BitVec 3 := 0
  deriving DecidableEq, Repr

/-- Split the operands of FXC. -/
def FXC.unpack (r : BitVec 48) : FXC :=
  { ch := r.extractLsb' 44 4, a := r.extractLsb' 36 8, b := r.extractLsb' 28 8
    c := r.extractLsb' 20 8, pace := r.extractLsb' 8 12, ops := r.extractLsb' 3 5
    esz := r.extractLsb' 0 3 }

/-- Join the operands of FXC. -/
def FXC.pack (f : FXC) : BitVec 48 := f.ch ++ f.a ++ f.b ++ f.c ++ f.pace ++ f.ops ++ f.esz

/-! ## Fields (R98, R99, R101) -/

/-- A value source; `x` is the extension, if the syllable has one (R98). -/
def selOf (x : Option Word) (f : BitVec 8) : Dec Sel :=
  if f.toNat < 0x40 then .ok (.reg (f.extractLsb' 0 6))
  else if f.toNat < 0x4C then .ok (.latch (f.extractLsb' 0 4))
  else if f == 0x4C then .ok .bc
  else if f.toNat < 0x7F then .error .selector
  else if f == 0x7F then get (x.map .ext) .extMissing
  else .ok (.imm (f.extractLsb' 0 7))

/-- A scalar or vector register in an 8-bit field (R99). -/
def regOf (f : BitVec 8) : Dec (BitVec 6) :=
  if f.toNat < 0x40 then .ok (f.extractLsb' 0 6) else .error .register

/-- A predicate in an 8-bit field (R99). -/
def predOf (f : BitVec 8) : Dec (BitVec 4) :=
  if f.toNat < 0x10 then .ok (f.extractLsb' 0 4) else .error .register

/-- A predicate pair in an 8-bit field (R99). -/
def pairOf (f : BitVec 8) : Dec (BitVec 3) :=
  if f.toNat < 0x10 && f.toNat % 2 == 0 then .ok (f.extractLsb' 1 3) else .error .register

/-- A tile in an 8-bit field (R99). -/
def tileOf (f : BitVec 8) : Dec (BitVec 3) :=
  if f.toNat < 0x08 then .ok (f.extractLsb' 0 3) else .error .register

/-- The destination of an operation whose result enters a latch (R97). -/
def vdstOf (f : BitVec 8) : Dec VDst :=
  if f.extractLsb' 6 1 == 0 then .ok { ws := f.extractLsb' 7 1 == 1, r := f.extractLsb' 0 6 }
  else .error .unused

/-- A type code (R101). -/
def Ty.ofCode (m : BitVec 4) : Option Ty :=
  match m.toNat with
  | 0 => some .i8
  | 1 => some .i16
  | 2 => some .i32
  | 3 => some .i64
  | 4 => some .n8
  | 5 => some .n16
  | 6 => some .n32
  | 7 => some .n64
  | 8 => some .f32
  | 9 => some .bf16
  | 10 => some .f16
  | 11 => some .e4m3
  | 12 => some .e5m2
  | 13 => some .e2m1
  | 14 => some .e3m5
  | _ => none

/-- The code of a type (R101). -/
def Ty.code : Ty → BitVec 4
  | .i8 => 0
  | .i16 => 1
  | .i32 => 2
  | .i64 => 3
  | .n8 => 4
  | .n16 => 5
  | .n32 => 6
  | .n64 => 7
  | .f32 => 8
  | .bf16 => 9
  | .f16 => 10
  | .e4m3 => 11
  | .e5m2 => 12
  | .e2m1 => 13
  | .e3m5 => 14

/-- A type in MOD or STYPE (R101, R151). -/
def tyOf (m : BitVec 4) : Dec Ty := get (Ty.ofCode m) .mod

/-- A rounding code (R80). -/
def rcOf (r : BitVec 3) : Dec Rc :=
  match r.toNat with
  | 0 => .ok .dyn
  | 1 => .ok .rne
  | 2 => .ok .rtz
  | 3 => .ok .rup
  | 4 => .ok .rdn
  | 5 => .ok .sr
  | _ => .error (.ill .rounding)

/-- The code of a rounding (R80). -/
def Rc.code : Rc → BitVec 3
  | .dyn => 0
  | .rne => 1
  | .rtz => 2
  | .rup => 3
  | .rdn => 4
  | .sr => 5

/-- A comparison condition (R128, R157). -/
def condOf (c : Nat) : Dec Cond :=
  match c with
  | 0 => .ok .eq
  | 1 => .ok .ne
  | 2 => .ok .lt
  | 3 => .ok .le
  | 4 => .ok .ltn
  | 5 => .ok .len
  | _ => .error .mod

/-- The code of a condition (R128, R157). -/
def Cond.code : Cond → Nat
  | .eq => 0
  | .ne => 1
  | .lt => 2
  | .le => 3
  | .ltn => 4
  | .len => 5

/-- A scope (R220). -/
def scopeOf (m : BitVec 4) : Dec Scope :=
  match m.toNat with
  | 0 => .ok .core
  | 1 => .ok .quad
  | 2 => .ok .clus
  | 3 => .ok .stack
  | 4 => .ok .pkg
  | 5 => .ok .pod
  | _ => .error .mod

/-- The code of a scope (R220). -/
def Scope.code : Scope → BitVec 4
  | .core => 0
  | .quad => 1
  | .clus => 2
  | .stack => 3
  | .pkg => 4
  | .pod => 5

/-- A matrix format (R180). -/
def mfmtOf (m : BitVec 4) : Dec MFmt :=
  match m.toNat with
  | 0 => .ok .bf16
  | 1 => .ok .f16
  | 2 => .ok .e4m3
  | 3 => .ok .e5m2
  | 4 => .ok .i8
  | 5 => .ok .fp4
  | _ => .error .mod

/-- The code of a matrix format (R180). -/
def MFmt.code : MFmt → BitVec 4
  | .bf16 => 0
  | .f16 => 1
  | .e4m3 => 2
  | .e5m2 => 3
  | .i8 => 4
  | .fp4 => 5

/-- A two-valued MOD (R126, R127, R170). -/
def flagOf (m : BitVec 4) : Dec Bool := if m.toNat < 2 then .ok (m == 1) else .error .mod

/-- One bit as a Bool. -/
def bit {n : Nat} (w : BitVec n) (i : Nat) : Bool := w.getLsbD i

/-- A Bool as one bit. -/
def ofBit (b : Bool) : BitVec 1 := if b then 1 else 0

/-- Reject a field that must be zero and is not (R97). -/
def zero {n : Nat} (f : BitVec n) : Dec Unit := need (f == 0) .unused

/-- The offset of FM (R97). -/
def offOf (x : Option Word) (o : BitVec 20) : Dec Off :=
  match x with
  | some v => if o == 0 then .ok (.ext v) else .error .unused
  | none => .ok (.short o)

/-- The offset of VLDX and VSTX (R171). -/
def offXOf (x : Option Word) (o : BitVec 14) : Dec OffX :=
  match x with
  | some v => if o == 0 then .ok (.ext v) else .error .unused
  | none => .ok (.short o)

/-- The destination of a command that may name a ring (R204). -/
def xdstOf (x : Option Word) (ring : Bool) (f : BitVec 8) : Dec XDst :=
  if ring then
    if f.toNat < 0x10 then .ok (.ring (f.extractLsb' 0 4)) else .error .register
  else (selOf x f).map .addr

/-! ## The classes (R102) -/

/-- A two-source scalar form (R126). -/
def dec2 (x : Option Word) (m : BitVec 4) (f : F3) (k : BitVec 6 → Sel → Sel → Instr) : Dec Instr := do
  need (m == 0) .mod
  let d ← regOf f.d
  let a ← selOf x f.a
  let b ← selOf x f.b
  zero f.c
  zero f.aux
  return k d a b

/-- A two-source scalar form with a signed and an unsigned variant (R126, R127). -/
def dec2s (x : Option Word) (m : BitVec 4) (f : F3) (k : Bool → BitVec 6 → Sel → Sel → Instr) :
    Dec Instr := do
  let u ← flagOf m
  let d ← regOf f.d
  let a ← selOf x f.a
  let b ← selOf x f.b
  zero f.c
  zero f.aux
  return k u d a b

/-- A one-source scalar form (R126, R130). -/
def dec1 (x : Option Word) (m : BitVec 4) (f : F3) (k : BitVec 6 → Sel → Instr) : Dec Instr := do
  need (m == 0) .mod
  let d ← regOf f.d
  let a ← selOf x f.a
  zero f.b
  zero f.c
  zero f.aux
  return k d a

/-- A form with every operand field zero (R140, R141, R148). -/
def dec0 (m : BitVec 4) (r : BitVec 48) (i : Instr) : Dec Instr := do
  need (m == 0) .mod
  zero r
  return i

/-- The general S class, 0x00 to 0x18 (R126 to R133). -/
def decS (op : Nat) (g m : BitVec 4) (x : Option Word) (r : BitVec 48) : Dec Instr :=
  let f := F3.unpack r
  match op with
  | 0x01 => dec2 x m f (.add g)
  | 0x02 => dec2 x m f (.sub g)
  | 0x03 => dec2 x m f (.mul g)
  | 0x04 => dec2s x m f (.mulh g)
  | 0x05 => dec2s x m f (.div g)
  | 0x06 => dec2s x m f (.rem g)
  | 0x07 => dec2 x m f (.and g)
  | 0x08 => dec2 x m f (.or g)
  | 0x09 => dec2 x m f (.xor g)
  | 0x0A => dec2 x m f (.shl g)
  | 0x0B => dec2s x m f (.shr g)
  | 0x0C => dec2 x m f (.rot g)
  | 0x0D => dec2s x m f (.min g)
  | 0x0E => dec2s x m f (.max g)
  | 0x0F => dec1 x m f (.clz g)
  | 0x10 => dec1 x m f (.popc g)
  | 0x11 => do
      need (m == 0) .mod
      let d ← regOf f.d
      let c ← predOf f.c
      let a ← selOf x f.a
      let b ← selOf x f.b
      zero f.aux
      return .sel g d c a b
  | 0x12 => do
      let c ← condOf m.toNat
      let p ← pairOf f.d
      let a ← selOf x f.a
      let b ← selOf x f.b
      zero f.c
      zero f.aux
      return .cmp g c p a b
  | 0x13 => dec1 x m f (.li g)
  | 0x14 => do
      need (m == 0) .mod
      let d ← regOf f.d
      let a ← selOf x f.a
      let b ← selOf x f.b
      zero f.c
      zero (f.aux.extractLsb' 6 10)
      return .lea g d a b (f.aux.extractLsb' 0 6)
  | 0x15 => do
      let f := FM.unpack r
      need (!bit m 3) .mod
      let d ← regOf f.d
      let b ← regOf f.base
      let o ← offOf x f.off
      return .ld g (m.extractLsb' 0 2) (bit m 2) d b f.arr o
  | 0x16 => do
      let f := FM.unpack r
      need (!bit m 3) .mod
      let d ← regOf f.d
      let b ← regOf f.base
      zero f.arr
      let o ← offOf x f.off
      return .st g (m.extractLsb' 0 2) (bit m 2) d b o
  | 0x17 => do
      need (m == 0) .mod
      let d ← regOf f.d
      zero f.a
      zero f.b
      zero f.c
      return .mfs g d f.aux
  | 0x18 => do
      need (m == 0) .mod
      zero f.d
      let a ← selOf x f.a
      zero f.b
      zero f.c
      return .mts g f.aux a
  | _ => .error .opcode

/-- The S1-only forms, 0x20 to 0x2E (R137 to R149). -/
def decS1 (op : Nat) (g m : BitVec 4) (x : Option Word) (r : BitVec 48) : Dec Instr :=
  let f := F3.unpack r
  let fb := FB.unpack r
  match op with
  | 0x20 => do
      need (m == 0) .mod
      let d ← regOf fb.d
      zero fb.a
      return .br g d fb.disp
  | 0x21 => do
      need (m == 0) .mod
      let d ← regOf f.d
      let a ← regOf f.a
      zero f.b
      zero f.c
      zero f.aux
      return .bri g d a
  | 0x22 => do
      need (m == 0) .mod
      need (fb.d == 0x3E) .register
      zero fb.a
      return .call g fb.disp
  | 0x23 => do
      need (m == 0) .mod
      need (f.d == 0x3E) .register
      let a ← regOf f.a
      zero f.b
      zero f.c
      zero f.aux
      return .calli g a
  | 0x24 => do
      need (m == 0) .mod
      zero f.d
      let a ← regOf f.a
      zero f.b
      zero f.c
      zero f.aux
      return .ret g a
  | 0x25 => dec0 m r (.handback g)
  | 0x26 => dec0 m r (.tailend g)
  | 0x27 => do
      need (m == 0) .mod
      let p ← pairOf f.d
      zero f.a
      zero f.b
      zero f.c
      zero f.aux
      return .jointail g p
  | 0x28 => do
      need (m == 0) .mod
      let d ← regOf fb.d
      zero fb.a
      return .loop g d fb.disp
  | 0x29 => do
      need (m == 0) .mod
      zero f.d
      let a ← selOf x f.a
      zero f.b
      zero f.c
      zero f.aux
      return .trap g a
  | 0x2A => dec0 m r (.eret g)
  | 0x2B => dec0 m r (.halt g)
  | 0x2C => do
      need (m == 0) .mod
      zero f.d
      zero f.a
      zero f.b
      zero f.c
      zero (f.aux.extractLsb' 6 10)
      return .fuse g (f.aux.extractLsb' 0 6)
  | 0x2D => dec0 m r (.decouple g)
  | 0x2E => dec0 m r (.rejoin g)
  | _ => .error .opcode

/-- The pair of a rent form, AUX<3:0> (R218). -/
def auxPair (aux : BitVec 16) : Dec (BitVec 3) :=
  if bit aux 0 then .error .register else .ok (aux.extractLsb' 1 3)

/-- The S0-only forms, 0x30 to 0x3C (R218 to R226). -/
def decS0 (op : Nat) (g m : BitVec 4) (x : Option Word) (r : BitVec 48) : Dec Instr :=
  let f := F3.unpack r
  match op with
  | 0x30 => do
      let d ← regOf f.d
      let p ← auxPair f.aux
      let a ← selOf x f.a
      let b ← selOf x f.b
      let c ← selOf x f.c
      zero (f.aux.extractLsb' 8 8)
      return .rent g (m.extractLsb' 0 2) (m.extractLsb' 2 2) (bit f.aux 4) (bit f.aux 5)
        (f.aux.extractLsb' 6 2) d p a b c
  | 0x31 => do
      need (m == 0) .mod
      let d ← regOf f.d
      let p ← auxPair f.aux
      let a ← selOf x f.a
      let b ← selOf x f.b
      zero f.c
      zero (f.aux.extractLsb' 4 12)
      return .renew g d p a b
  | 0x32 => do
      need (m == 0) .mod
      let d ← regOf f.d
      let p ← auxPair f.aux
      let a ← selOf x f.a
      let b ← selOf x f.b
      let c ← selOf x f.c
      zero (f.aux.extractLsb' 4 12)
      return .prepay g d p a b c
  | 0x33 => do
      need (m == 0) .mod
      let d ← regOf f.d
      let p ← auxPair f.aux
      let a ← selOf x f.a
      let b ← selOf x f.b
      let c ← selOf x f.c
      zero (f.aux.extractLsb' 5 1)
      zero (f.aux.extractLsb' 12 4)
      return .sublet g (bit f.aux 4) (f.aux.extractLsb' 6 6) d p a b c
  | 0x34 => do
      let s ← flagOf m
      let d ← regOf f.d
      let a ← selOf x f.a
      zero f.b
      zero f.c
      zero f.aux
      return .vacate g s d a
  | 0x35 => do
      need (m == 0) .mod
      let d ← regOf f.d
      let p ← auxPair f.aux
      let a ← selOf x f.a
      let b ← selOf x f.b
      zero f.c
      zero (f.aux.extractLsb' 4 12)
      return .handover g d p a b
  | 0x36 => dec1 x m f (.lease g)
  | 0x37 => do
      let sc ← scopeOf m
      let p ← pairOf f.d
      let a ← selOf x f.a
      let b ← selOf x f.b
      let c ← selOf x f.c
      zero f.aux
      return .barinit g sc p a b c
  | 0x38 => do
      let sc ← scopeOf m
      zero f.d
      let a ← selOf x f.a
      zero f.b
      zero f.c
      zero f.aux
      return .arrive g sc a
  | 0x39 => do
      let sc ← scopeOf m
      let p ← pairOf f.d
      let a ← selOf x f.a
      zero f.b
      zero f.c
      zero f.aux
      return .wait g sc p a
  | 0x3A => do
      let sc ← scopeOf m
      zero f.d
      let a ← selOf x f.a
      let b ← selOf x f.b
      zero f.c
      zero f.aux
      return .barbase g sc a b
  | 0x3B => do
      let p ← pairOf f.d
      zero f.c
      zero f.aux
      if m == 8 then
        let ch ← predOf f.a
        let b ← selOf x f.b
        return .watch g p (.chan ch) b
      else
        need (m.toNat < 4) .mod
        let a ← selOf x f.a
        let b ← selOf x f.b
        return .watch g p (.mem (m.extractLsb' 0 2) a) b
  | 0x3C => do
      let sc ← scopeOf m
      zero f.d
      zero f.a
      zero f.b
      zero f.c
      zero (f.aux.extractLsb' 5 11)
      return .fence g sc (f.aux.extractLsb' 0 3) (f.aux.extractLsb' 3 2)
  | _ => .error .opcode

/-- Reject a V-class AUX with a bit outside `mask` set (R151). -/
def auxOnly (aux mask : BitVec 16) : Dec Unit := zero (aux &&& ~~~mask)

/-- A V form with one source, a type and no AUX. -/
def decV1 (x : Option Word) (m : BitVec 4) (f : F3) (k : Ty → VDst → Sel → Instr) : Dec Instr := do
  let t ← tyOf m
  let d ← vdstOf f.d
  let a ← selOf x f.a
  zero f.b
  zero f.c
  zero f.aux
  return k t d a

/-- A V form with two sources, a type and no AUX. -/
def decV2 (x : Option Word) (m : BitVec 4) (f : F3) (k : Ty → VDst → Sel → Sel → Instr) :
    Dec Instr := do
  let t ← tyOf m
  let d ← vdstOf f.d
  let a ← selOf x f.a
  let b ← selOf x f.b
  zero f.c
  zero f.aux
  return k t d a b

/-- VADD, VSUB and VMUL: RC and S (R152). -/
def decVArith (x : Option Word) (m : BitVec 4) (f : F3)
    (k : Ty → Rc → Bool → VDst → Sel → Sel → Instr) : Dec Instr := do
  let t ← tyOf m
  let d ← vdstOf f.d
  let a ← selOf x f.a
  let b ← selOf x f.b
  zero f.c
  auxOnly f.aux 0x000F
  let rc ← rcOf (f.aux.extractLsb' 0 3)
  return k t rc (bit f.aux 3) d a b

/-- A seed or elementary function on f32 (R163, R164). -/
def decF32 (x : Option Word) (m : BitVec 4) (f : F3) (auxMask : BitVec 16)
    (k : Rc → VDst → Sel → Instr) : Dec Instr := do
  need (m == 8) .mod
  let d ← vdstOf f.d
  let a ← selOf x f.a
  zero f.b
  zero f.c
  auxOnly f.aux auxMask
  let rc ← rcOf (f.aux.extractLsb' 0 3)
  return k rc d a

/-- PAND, POR and PXOR (R168). -/
def decP (m : BitVec 4) (f : F3) (k : Bool → Bool → BitVec 4 → BitVec 4 → BitVec 4 → Instr) :
    Dec Instr := do
  need (m == 0) .mod
  let d ← predOf f.d
  let a ← predOf f.a
  let b ← predOf f.b
  zero f.c
  zero (f.aux.extractLsb' 2 14)
  return k (bit f.aux 0) (bit f.aux 1) d a b

/-- The V class (R152 to R171). -/
def decV (op : Nat) (g m : BitVec 4) (x : Option Word) (r : BitVec 48) : Dec Instr :=
  let f := F3.unpack r
  match op with
  | 0x01 => decVArith x m f (.vadd g)
  | 0x02 => decVArith x m f (.vsub g)
  | 0x03 => decVArith x m f (.vmul g)
  | 0x04 => do
      let t ← tyOf m
      let d ← vdstOf f.d
      let a ← selOf x f.a
      let b ← selOf x f.b
      let c ← selOf x f.c
      auxOnly f.aux 0x0037
      let rc ← rcOf (f.aux.extractLsb' 0 3)
      return .vfma g t rc (bit f.aux 4) (bit f.aux 5) d a b c
  | 0x05 => decV2 x m f (.vmin g)
  | 0x06 => decV2 x m f (.vmax g)
  | 0x07 => do
      let t ← tyOf m
      let d ← vdstOf f.d
      let a ← selOf x f.a
      zero f.b
      zero f.c
      auxOnly f.aux 0x0008
      return .vabs g t (bit f.aux 3) d a
  | 0x08 => decV2 x m f (.vand g)
  | 0x09 => decV2 x m f (.vor g)
  | 0x0A => decV2 x m f (.vxor g)
  | 0x0B => decV2 x m f (.vshl g)
  | 0x0C => decV2 x m f (.vshr g)
  | 0x0D => do
      let t ← tyOf m
      let p ← pairOf f.d
      let a ← selOf x f.a
      let b ← selOf x f.b
      zero f.c
      auxOnly f.aux 0x0007
      let c ← condOf (f.aux.extractLsb' 0 3).toNat
      return .vcmp g t c p a b
  | 0x0E => do
      let t ← tyOf m
      let d ← vdstOf f.d
      let a ← selOf x f.a
      let b ← selOf x f.b
      let c ← predOf f.c
      zero f.aux
      return .vsel g t d c a b
  | 0x0F => decV1 x m f (.vmov g)
  | 0x10 => do
      let t ← tyOf m
      let d ← vdstOf f.d
      let a ← selOf x f.a
      zero f.b
      zero f.c
      auxOnly f.aux 0x0F0F
      let u ← tyOf (f.aux.extractLsb' 8 4)
      let rc ← rcOf (f.aux.extractLsb' 0 3)
      return .vcvt g t u rc (bit f.aux 3) d a
  | 0x11 => decV1 x m f (.vblkmax g)
  | 0x12 => do
      need (m == 14) .mod
      let d ← vdstOf f.d
      let a ← selOf x f.a
      let b ← selOf x f.b
      zero f.c
      auxOnly f.aux 0x0F00
      let u ← tyOf (f.aux.extractLsb' 8 4)
      return .vscale g u d a b
  | 0x13 => do
      let t ← tyOf m
      let d ← vdstOf f.d
      let a ← selOf x f.a
      let b ← selOf x f.b
      zero f.c
      auxOnly f.aux 0x0F0F
      let u ← tyOf (f.aux.extractLsb' 8 4)
      let rc ← rcOf (f.aux.extractLsb' 0 3)
      return .vquant g t u rc (bit f.aux 3) d a b
  | 0x14 => decF32 x m f 0 (fun _ => .vrsqe g)
  | 0x15 => decF32 x m f 0 (fun _ => .vrcpe g)
  | 0x16 => decF32 x m f 0x0007 (.vexp2 g)
  | 0x17 => decF32 x m f 0x0007 (.vlog2 g)
  | 0x18 => do
      let t ← tyOf m
      let d ← vdstOf f.d
      let a ← selOf x f.a
      zero f.b
      zero f.c
      auxOnly f.aux 0x0017
      let rc ← rcOf (f.aux.extractLsb' 0 3)
      return .vredsum g t rc (bit f.aux 4) d a
  | 0x19 => decV1 x m f (.vredmax g)
  | 0x1A => decV2 x m f (.vperm g)
  | 0x1B => decV2 x m f (.vrot g)
  | 0x1C => do
      let t ← tyOf m
      let d ← vdstOf f.d
      zero f.a
      zero f.b
      zero f.c
      zero f.aux
      return .vidx g t d
  | 0x1D => do
      let t ← tyOf m
      let d ← regOf f.d
      let a ← selOf x f.a
      let b ← selOf x f.b
      let c ← predOf f.c
      auxOnly f.aux 0x00FF
      return .vtopk g t (f.aux.extractLsb' 0 7) (bit f.aux 7) d c a b
  | 0x1E => do
      let t ← tyOf m
      let d ← vdstOf f.d
      let a ← selOf x f.a
      let b ← selOf x f.b
      let c ← selOf x f.c
      auxOnly f.aux 0x0007
      let rc ← rcOf (f.aux.extractLsb' 0 3)
      return .vdot4 g t rc d a b c
  | 0x1F => decV2 x m f (.vmulh g)
  | 0x20 => do
      let t ← tyOf m
      let d ← vdstOf f.d
      let a ← selOf x f.a
      let b ← selOf x f.b
      let c ← selOf x f.c
      zero f.aux
      return .vclamp g t d a b c
  | 0x21 => do
      let t ← tyOf m
      let d ← vdstOf f.d
      let a ← selOf x f.a
      zero f.b
      zero f.c
      auxOnly f.aux 0x0007
      let rc ← rcOf (f.aux.extractLsb' 0 3)
      return .vrnd g t rc d a
  | 0x22 => decV1 x m f (.vclass g)
  | 0x23 => do
      let t ← tyOf m
      let d ← vdstOf f.d
      let a ← selOf x f.a
      let b ← selOf x f.b
      zero f.c
      auxOnly f.aux 0x0008
      return .vpack g t (bit f.aux 3) d a b
  | 0x24 => do
      let t ← tyOf m
      let d ← vdstOf f.d
      let a ← selOf x f.a
      zero f.b
      zero f.c
      auxOnly f.aux 0x1000
      return .vunpack g t (bit f.aux 12) d a
  | 0x25 => decP m f (.pand g)
  | 0x26 => decP m f (.por g)
  | 0x27 => decP m f (.pxor g)
  | 0x28 => do
      let t ← tyOf m
      let d ← regOf f.d
      let a ← predOf f.a
      zero f.b
      zero f.c
      zero f.aux
      return .pcnt g t d a
  | 0x29 => do
      let f := FM.unpack r
      let acq ← flagOf m
      let d ← regOf f.d
      let b ← regOf f.base
      let o ← offOf x f.off
      return .vld g acq d b f.arr o
  | 0x2A => do
      let f := FM.unpack r
      let rel ← flagOf m
      let d ← selOf none f.d
      let b ← regOf f.base
      zero f.arr
      let o ← offOf x f.off
      return .vst g rel d b o
  | 0x2B => do
      let f := FM.unpack r
      let t ← tyOf m
      let d ← regOf f.d
      let b ← regOf f.base
      let o ← offXOf x (f.off.extractLsb' 0 14)
      return .vldx g t d b f.arr (f.off.extractLsb' 14 6) o
  | 0x2C => do
      let f := FM.unpack r
      let t ← tyOf m
      let d ← selOf none f.d
      let b ← regOf f.base
      zero f.arr
      let o ← offXOf x (f.off.extractLsb' 0 14)
      return .vstx g t d b (f.off.extractLsb' 14 6) o
  | _ => .error .opcode

/-- The T class (R190). -/
def decT (op : Nat) (g m : BitVec 4) (x : Option Word) (r : BitVec 48) : Dec Instr :=
  let f := F3.unpack r
  match op with
  | 0x01 => do
      need (m == 0) .mod
      let d ← tileOf f.d
      let a ← regOf f.a
      let b ← selOf x f.b
      zero f.c
      zero f.aux
      return .tld g d a b
  | 0x02 => do
      need (m == 0) .mod
      let d ← tileOf f.d
      let a ← regOf f.a
      let b ← selOf x f.b
      zero f.c
      zero f.aux
      return .tst g d a b
  | 0x03 => do
      need (m == 0) .mod
      let d ← tileOf f.d
      let a ← regOf f.a
      let b ← selOf x f.b
      zero f.c
      zero f.aux
      return .trd g d a b
  | 0x04 => do
      need (m == 0) .mod
      let d ← tileOf f.d
      let a ← regOf f.a
      let b ← selOf x f.b
      zero f.c
      zero f.aux
      return .twr g d a b
  | 0x05 => do
      let t ← tyOf m
      let d ← tileOf f.d
      let a ← tileOf f.a
      zero f.b
      zero f.c
      zero f.aux
      return .ttr g t d a
  | 0x06 => do
      let t ← tyOf m
      let d ← tileOf f.d
      let a ← selOf x f.a
      let b ← selOf x f.b
      let c ← selOf x f.c
      zero (f.aux.extractLsb' 2 14)
      return .tmask g t (f.aux.extractLsb' 0 2) d a b c
  | 0x07 => do
      let t ← tyOf m
      let s ← tileOf f.d
      let d ← regOf f.a
      zero f.b
      zero f.c
      zero f.aux
      return .trmax g t s d
  | 0x08 => do
      let t ← tyOf m
      let s ← tileOf f.d
      let d ← regOf f.a
      zero f.b
      zero f.c
      auxOnly f.aux 0x0007
      let rc ← rcOf (f.aux.extractLsb' 0 3)
      return .trsum g t rc s d
  | 0x09 => do
      let t ← tyOf m
      let d ← tileOf f.d
      let a ← tileOf f.a
      let b ← regOf f.b
      zero f.c
      auxOnly f.aux 0x0007
      let rc ← rcOf (f.aux.extractLsb' 0 3)
      return .texp g t rc d a b
  | 0x0A => do
      let t ← tyOf m
      let d ← tileOf f.d
      let a ← tileOf f.a
      let b ← regOf f.b
      zero f.c
      auxOnly f.aux 0x0007
      let rc ← rcOf (f.aux.extractLsb' 0 3)
      return .trscl g t rc d a b
  | 0x0B => do
      let t ← tyOf m
      let d ← tileOf f.d
      let a ← tileOf f.a
      zero f.b
      zero f.c
      auxOnly f.aux 0x0F0F
      let u ← tyOf (f.aux.extractLsb' 8 4)
      let rc ← rcOf (f.aux.extractLsb' 0 3)
      return .tcvt g t u rc (bit f.aux 3) d a
  | 0x0C => do
      need (m == 0) .mod
      zero f.a
      zero f.b
      zero f.c
      return .twait g f.d f.aux
  | 0x0D => do
      need (m == 0) .mod
      let d ← tileOf f.d
      zero f.a
      zero f.b
      zero f.c
      zero f.aux
      return .tzero g d
  | _ => .error .opcode

/-- An MMA operand: the field and its tile flag (R180). -/
def mopOf (tile : Bool) (n : BitVec 4) : MOp := if tile then .tile n else .ring n

/-- The M class (R174 to R188). -/
def decM (op : Nat) (g m : BitVec 4) (x : Option Word) (r : BitVec 48) : Dec Instr :=
  let f := F3.unpack r
  let q := FMX.unpack r
  match op with
  | 0x01 => do
      let t ← mfmtOf m
      zero (q.flags.extractLsb' 5 3)
      return .mma g t q.acc (mopOf (bit q.flags 3) q.a) (mopOf (bit q.flags 4) q.b) q.m8 q.n16 q.k16
        (bit q.flags 0) (bit q.flags 1) (bit q.flags 2)
  | 0x02 => do
      let t ← mfmtOf m
      need (q.flags.extractLsb' 5 3 == 1) .unused
      return .mmag g t q.acc (mopOf (bit q.flags 3) q.a) (mopOf (bit q.flags 4) q.b) q.m8 q.n16
        q.k16 (bit q.flags 0) (bit q.flags 1) (bit q.flags 2)
  | 0x03 => do
      need (m == 0) .mod
      zero f.d
      let a ← selOf x f.a
      let b ← selOf x f.b
      let c ← selOf x f.c
      auxOnly f.aux 0x001F
      return .accdef g (bit f.aux 4) (f.aux.extractLsb' 0 4) a b c
  | 0x04 => do
      need (m == 0) .mod
      zero f.d
      zero f.a
      zero f.b
      zero f.c
      auxOnly f.aux 0x000F
      return .accz g (f.aux.extractLsb' 0 4)
  | 0x05 => do
      let t ← tyOf m
      zero f.d
      let a ← selOf x f.a
      let b ← selOf x f.b
      zero f.c
      auxOnly f.aux 0x000F
      return .accld g t (f.aux.extractLsb' 0 4) a b
  | 0x06 => do
      let t ← tyOf m
      let d ← tileOf f.d
      let a ← selOf x f.a
      let b ← selOf x f.b
      zero f.c
      auxOnly f.aux 0x01FF
      let rc ← rcOf (f.aux.extractLsb' 5 3)
      return .accmv g t (bit f.aux 4) rc (bit f.aux 8) (f.aux.extractLsb' 0 4) d a b
  | 0x07 => do
      let t ← tyOf m
      zero f.d
      let a ← selOf x f.a
      let b ← selOf x f.b
      zero f.c
      auxOnly f.aux 0x01EF
      let rc ← rcOf (f.aux.extractLsb' 5 3)
      return .accst g t rc (bit f.aux 8) (f.aux.extractLsb' 0 4) a b
  | 0x08 => do
      need (m == 0) .mod
      zero f.d
      let a ← regOf f.a
      let b ← selOf x f.b
      zero f.c
      auxOnly f.aux 0x000F
      return .accscl g (f.aux.extractLsb' 0 4) a b
  | 0x09 => do
      need (m == 0) .mod
      zero f.d
      let a ← regOf f.a
      let b ← selOf x f.b
      zero f.c
      auxOnly f.aux 0x000F
      return .accbias g (f.aux.extractLsb' 0 4) a b
  | 0x0A => do
      need (m == 0) .mod
      zero f.d
      let a ← selOf x f.a
      let b ← selOf x f.b
      let c ← selOf x f.c
      auxOnly f.aux 0x000F
      return .ringset g (f.aux.extractLsb' 0 4) a b c
  | 0x0B => do
      need (m == 0) .mod
      let d ← regOf f.d
      zero f.a
      zero f.b
      zero f.c
      auxOnly f.aux 0x000F
      return .ringq g (f.aux.extractLsb' 0 4) d
  | _ => .error .opcode

/-- The element size of a command, 0 to 3 (R204). -/
def eszOf (e : BitVec 3) : Dec (BitVec 2) :=
  if bit e 2 then .error (.ill .command) else .ok (e.extractLsb' 0 2)

/-- The X class (R204 to R217). -/
def decX (op : Nat) (g m : BitVec 4) (x : Option Word) (r : BitVec 48) : Dec Instr :=
  let f := FXC.unpack r
  match op with
  | 0x01 => do
      let ring ← flagOf m
      zero f.ops
      let z ← eszOf f.esz
      let d ← xdstOf x ring f.a
      let b ← selOf x f.b
      let c ← selOf x f.c
      return .xcopy g z f.ch f.pace d b c x
  | 0x02 => do
      let ring ← flagOf m
      let z ← eszOf f.esz
      let d ← xdstOf x ring f.a
      let b ← selOf x f.b
      let vi ← regOf f.c
      return .xgather g z f.ch f.pace d b vi f.ops
  | 0x03 => do
      need (m == 0) .mod
      let z ← eszOf f.esz
      let a ← selOf x f.a
      let b ← selOf x f.b
      let vi ← regOf f.c
      return .xscatter g z f.ch f.pace a b vi f.ops
  | 0x04 => do
      need (m == 0) .mod
      let z ← eszOf f.esz
      let a ← selOf x f.a
      let b ← selOf x f.b
      let c ← selOf x f.c
      return .xacc g f.ops z f.ch f.pace a b c
  | 0x05 => do
      need (m == 0) .mod
      zero f.pace
      let z ← eszOf f.esz
      let a ← selOf x f.a
      let b ← selOf x f.b
      let c ← selOf x f.c
      return .xfetch g f.ops z f.ch a b c
  | 0x06 => do
      need (m == 0) .mod
      zero f.pace
      zero f.ops
      let z ← eszOf f.esz
      let a ← selOf x f.a
      let b ← selOf x f.b
      let c ← selOf x f.c
      let v ← get x .extMissing
      return .xcas g z f.ch a b c v
  | 0x07 => do
      need (m == 0) .mod
      zero f.ops
      let z ← eszOf f.esz
      let a ← selOf x f.a
      let b ← selOf x f.b
      let c ← selOf x f.c
      return .xfill g z f.ch f.pace a b c
  | 0x08 => do
      let ring ← flagOf m
      zero f.ops
      let z ← eszOf f.esz
      let d ← xdstOf x ring f.a
      let b ← selOf x f.b
      let c ← selOf x f.c
      return .xexpand g z f.ch f.pace d b c
  | 0x09 => do
      need (m == 0) .mod
      zero f.pace
      need (f.esz == 3) (.ill .command)
      let a ← selOf x f.a
      let b ← selOf x f.b
      zero f.c
      return .xsignal g f.ops f.ch a b
  | 0x0A => do
      need (m == 0) .mod
      zero f.pace
      zero f.ops
      let z ← eszOf f.esz
      zero f.a
      let b ← selOf x f.b
      zero f.c
      return .xorder g z f.ch b
  | 0x0B => do
      need (m == 0) .mod
      zero f.pace
      zero f.ops
      zero f.esz
      let a ← selOf x f.a
      let b ← selOf x f.b
      zero f.c
      return .kvalloc g f.ch a b
  | 0x0C => do
      need (m == 0) .mod
      zero f.pace
      zero f.ops
      zero f.esz
      let a ← selOf x f.a
      zero f.b
      zero f.c
      return .kvfree g f.ch a
  | 0x0D => do
      need (m == 0) .mod
      zero f.pace
      zero f.ops
      zero f.esz
      let a ← selOf x f.a
      let b ← selOf x f.b
      zero f.c
      return .kvshare g f.ch a b
  | 0x0E => do
      need (m == 0 || m == 2) .mod
      zero f.pace
      zero f.ops
      zero f.esz
      let a ← selOf x f.a
      let b ← selOf x f.b
      let c ← selOf x f.c
      return .kvappend g (bit m 1) f.ch a b c
  | 0x0F => do
      need (m == 0 || m == 4) .mod
      zero f.pace
      zero f.ops
      zero f.esz
      let a ← selOf x f.a
      let b ← selOf x f.b
      zero f.c
      return .kvcommit g (bit m 2) f.ch a b
  | 0x10 => do
      let ring ← flagOf m
      zero f.ops
      zero f.esz
      let d ← xdstOf x ring f.a
      let b ← selOf x f.b
      let c ← selOf x f.c
      return .kvget g f.ch f.pace d b c
  | 0x11 => do
      need (m == 0) .mod
      zero f.pace
      zero f.ops
      zero f.esz
      let a ← selOf x f.a
      let b ← selOf x f.b
      let c ← selOf x f.c
      return .kvsum g f.ch a b c
  | 0x12 => do
      need (m.toNat < 4) .mod
      zero f.pace
      let z ← eszOf f.esz
      let a ← selOf x f.a
      let b ← selOf x f.b
      let c ← selOf x f.c
      let v ← get x .extMissing
      return .xcoll g f.ops (m.extractLsb' 0 2) z f.ch a b c v
  | _ => .error .opcode

/-- The fields of a slot syllable, by its class and opcode, before the checks of `Instr.check`. -/
def decFields (sl : Slot) (y : Syl) (x : Option Word) : Dec Instr :=
  if y.op == 0 then
    if y.g == 0 && y.mod == 0 && y.rest == 0 then .ok .nop else .error .unused
  else
    match sl.cls with
    | .s =>
        if y.op.toNat < 0x20 then decS y.op.toNat y.g y.mod x y.rest
        else if y.op.toNat < 0x30 then decS1 y.op.toNat y.g y.mod x y.rest
        else decS0 y.op.toNat y.g y.mod x y.rest
    | .v => decV y.op.toNat y.g y.mod x y.rest
    | .m => decM y.op.toNat y.g y.mod x y.rest
    | .t => decT y.op.toNat y.g y.mod x y.rest
    | .x => decX y.op.toNat y.g y.mod x y.rest

/-- The checks of a decoded instruction: its slot (R103), its extension (R98) and its operands. -/
def decChecks (sl : Slot) (x : Option Word) (i : Instr) : Dec Instr := do
  need (i.slotOk sl) .slot
  need (x == i.ext? || i.exts != []) .extNotTaken
  match i.check with
  | some e => .error (.ill e)
  | none => .ok i

/-- THE DECODER of one slot syllable `w` in slot `sl`, followed in memory by `next` (R96 to R103).
The answer says whether `next` is its extension. -/
def decodeSlot (sl : Slot) (w next : Word) : Dec Instr := do
  let y := Syl.unpack w
  need (y.h == 0) .headerInSlot
  let x := if y.xt == 1 then some next else none
  let i ← decFields sl y x
  decChecks sl x i

/-- Whether a slot syllable is followed by an extension (R93). -/
def hasExt (w : Word) : Bool := w.extractLsb' 62 1 == 1

/-! ## Headers (R94, R95) -/

/-- The source of the broadcast port (R94). -/
inductive Bps
  | none
  | reg (n : BitVec 6)
  | imm (v : BitVec 16)
  | f32 (v : BitVec 16)
  deriving DecidableEq, Repr

/-- A header syllable (R94). `skew` is 1 to 16. -/
structure Header where
  present : BitVec 8
  rep     : BitVec 8
  bps     : Bps
  sp      : Bool
  vj      : Bool
  pin     : Bool
  skew    : Nat
  deriving DecidableEq, Repr

/-- Whether the header names the slot as present (R94). -/
def Header.has (h : Header) (s : Slot) : Bool := bit h.present (7 - s.num)

/-- Whether a syllable is a header (R94). -/
def isHeader (w : Word) : Bool := bit w 63

/-- The broadcast source of a header, with the agreement of R95. -/
def bpsOf (w : Word) : Dec Bps :=
  let breg : BitVec 6 := w.extractLsb' 39 6
  let bimm : BitVec 16 := w.extractLsb' 23 16
  match (w.extractLsb' 45 2).toNat with
  | 0 => if breg == 0 && bimm == 0 then .ok .none else .error .header
  | 1 => if bimm == 0 then .ok (.reg breg) else .error .header
  | 2 => if breg == 0 then .ok (.imm bimm) else .error .header
  | _ => if breg == 0 then .ok (.f32 bimm) else .error .header

/-- Decode a header (R94, R95). -/
def decodeHeader (w : Word) : Dec Header := do
  need (isHeader w) .headerExpected
  need (w.extractLsb' 0 16 == 0) .header
  let b ← bpsOf w
  let k := (w.extractLsb' 16 4).toNat
  return { present := w.extractLsb' 55 8, rep := w.extractLsb' 47 8, bps := b
           sp := bit w 22, vj := bit w 21, pin := bit w 20, skew := if k == 0 then 16 else k }

/-! ## The bits of one instruction alone (log 11) -/

/-- The `n`-th 64-bit word of a bundle given as one number, its first word lowest. -/
def wordAt (w n : Nat) : Word := BitVec.ofNat 64 (w / 2 ^ (64 * n))

/-- The slot of a header that names exactly one slot. -/
def Header.only (h : Header) : Option Slot :=
  match Slot.all.filter h.has with
  | [s] => some s
  | _ => none

/-- The instruction the decoder reads from a bundle of one present slot, numbered with bit 0 the
least significant bit of its header (log 11). -/
def decodeTableWord (nbits w : Nat) : Option Instr :=
  let w := w % 2 ^ nbits
  match decodeHeader (wordAt w 0) with
  | .error _ => none
  | .ok h =>
      match h.only with
      | none => none
      | some s =>
          match decodeSlot s (wordAt w 1) (wordAt w 2) with
          | .error _ => none
          | .ok i => if i.srcs.contains .bc && h.bps == .none then none else some i

/-! ## The encoder -/

/-- The code of a selector (R98). -/
def Sel.code : Sel → BitVec 8
  | .reg n => 0#2 ++ n
  | .latch n => 4#4 ++ n
  | .bc => 0x4C
  | .ext _ => 0x7F
  | .imm n => 1#1 ++ n

/-- A register field. -/
def rcode (r : BitVec 6) : BitVec 8 := 0#2 ++ r
/-- A predicate, ring or channel in an 8-bit field. -/
def pcode (p : BitVec 4) : BitVec 8 := 0#4 ++ p
/-- A pair in an 8-bit field. -/
def pairCode (p : BitVec 3) : BitVec 8 := 0#4 ++ p ++ 0#1
/-- A tile in an 8-bit field. -/
def tcode (t : BitVec 3) : BitVec 8 := 0#5 ++ t
/-- A destination whose result enters a latch. -/
def VDst.code (d : VDst) : BitVec 8 := ofBit d.ws ++ 0#1 ++ d.r
/-- The offset field of FM. -/
def Off.code : Off → BitVec 20
  | .short o => o
  | .ext _ => 0
/-- The offset field of VLDX and VSTX. -/
def OffX.code : OffX → BitVec 14
  | .short o => o
  | .ext _ => 0
/-- The destination field of a command that may name a ring. -/
def XDst.code : XDst → BitVec 8
  | .addr a => a.code
  | .ring n => pcode n
/-- MOD<0> RING (R204). -/
def XDst.modBit : XDst → BitVec 4
  | .addr _ => 0
  | .ring _ => 1
/-- A two-valued MOD. -/
def mod1 (b : Bool) : BitVec 4 := if b then 1 else 0
/-- The V-class AUX of R151: HI, STYPE, NC, NP or W, S, RC. -/
def vaux (hi : Bool) (u : BitVec 4) (nc np s : Bool) (rc : BitVec 3) : BitVec 16 :=
  0#3 ++ ofBit hi ++ u ++ 0#2 ++ ofBit nc ++ ofBit np ++ ofBit s ++ rc
/-- The M-class AUX of R178: NS, RC, DIR or TY, NUM. -/
def maux (ns : Bool) (rc : BitVec 3) (dir : Bool) (n : BitVec 4) : BitVec 16 :=
  0#7 ++ ofBit ns ++ rc ++ ofBit dir ++ n
/-- The AUX of a rent form: the grantee or the spread, two option bits, the pair (R218). -/
def raux (hi : BitVec 10) (b5 b4 : Bool) (p : BitVec 3) : BitVec 16 :=
  hi ++ ofBit b5 ++ ofBit b4 ++ p ++ 0#1
/-- The number of an MMA operand. -/
def MOp.num : MOp → BitVec 4
  | .ring n => n
  | .tile n => n
/-- The tile flag of an MMA operand. -/
def MOp.isTile : MOp → Bool
  | .ring _ => false
  | .tile _ => true
/-- The operands of MMA and MMAG. -/
def encFMX (acc : BitVec 4) (a b : MOp) (m8 n16 : BitVec 8) (k16 : BitVec 12) (pa pb z gang : Bool) :
    BitVec 48 :=
  FMX.pack { acc, a := a.num, b := b.num, m8, n16, k16
             flags := 0#2 ++ ofBit gang ++ ofBit b.isTile ++ ofBit a.isTile ++ ofBit z ++ ofBit pb
               ++ ofBit pa }
/-- A 2-bit element size as ESZ. -/
def zcode (z : BitVec 2) : BitVec 3 := 0#1 ++ z

/-- Opcode, MOD and operands of an instruction that some slot takes. -/
def Instr.fields : Instr → Option (BitVec 6 × BitVec 4 × BitVec 48)
  | .nop => some (0, 0, 0)
  | .add _ d a b => some (0x01, 0, F3.pack { d := rcode d, a := a.code, b := b.code })
  | .sub _ d a b => some (0x02, 0, F3.pack { d := rcode d, a := a.code, b := b.code })
  | .mul _ d a b => some (0x03, 0, F3.pack { d := rcode d, a := a.code, b := b.code })
  | .mulh _ u d a b => some (0x04, mod1 u, F3.pack { d := rcode d, a := a.code, b := b.code })
  | .div _ u d a b => some (0x05, mod1 u, F3.pack { d := rcode d, a := a.code, b := b.code })
  | .rem _ u d a b => some (0x06, mod1 u, F3.pack { d := rcode d, a := a.code, b := b.code })
  | .and _ d a b => some (0x07, 0, F3.pack { d := rcode d, a := a.code, b := b.code })
  | .or _ d a b => some (0x08, 0, F3.pack { d := rcode d, a := a.code, b := b.code })
  | .xor _ d a b => some (0x09, 0, F3.pack { d := rcode d, a := a.code, b := b.code })
  | .shl _ d a b => some (0x0A, 0, F3.pack { d := rcode d, a := a.code, b := b.code })
  | .shr _ u d a b => some (0x0B, mod1 u, F3.pack { d := rcode d, a := a.code, b := b.code })
  | .rot _ d a b => some (0x0C, 0, F3.pack { d := rcode d, a := a.code, b := b.code })
  | .min _ u d a b => some (0x0D, mod1 u, F3.pack { d := rcode d, a := a.code, b := b.code })
  | .max _ u d a b => some (0x0E, mod1 u, F3.pack { d := rcode d, a := a.code, b := b.code })
  | .clz _ d a => some (0x0F, 0, F3.pack { d := rcode d, a := a.code })
  | .popc _ d a => some (0x10, 0, F3.pack { d := rcode d, a := a.code })
  | .sel _ d c a b => some (0x11, 0, F3.pack { d := rcode d, a := a.code, b := b.code, c := pcode c })
  | .cmp _ c p a b =>
      some (0x12, BitVec.ofNat 4 c.code, F3.pack { d := pairCode p, a := a.code, b := b.code })
  | .li _ d a => some (0x13, 0, F3.pack { d := rcode d, a := a.code })
  | .lea _ d a b sh =>
      some (0x14, 0, F3.pack { d := rcode d, a := a.code, b := b.code, aux := 0#10 ++ sh })
  | .ld _ sz acq d b arr o =>
      some (0x15, 0#1 ++ ofBit acq ++ sz, FM.pack { d := rcode d, base := rcode b, arr, off := o.code })
  | .st _ sz rel d b o =>
      some (0x16, 0#1 ++ ofBit rel ++ sz, FM.pack { d := rcode d, base := rcode b, off := o.code })
  | .mfs _ d n => some (0x17, 0, F3.pack { d := rcode d, aux := n })
  | .mts _ n a => some (0x18, 0, F3.pack { a := a.code, aux := n })
  | .br _ d disp => some (0x20, 0, FB.pack { d := rcode d, disp })
  | .bri _ d a => some (0x21, 0, F3.pack { d := rcode d, a := rcode a })
  | .call _ disp => some (0x22, 0, FB.pack { d := 0x3E, disp })
  | .calli _ a => some (0x23, 0, F3.pack { d := 0x3E, a := rcode a })
  | .ret _ a => some (0x24, 0, F3.pack { a := rcode a })
  | .handback _ => some (0x25, 0, 0)
  | .tailend _ => some (0x26, 0, 0)
  | .jointail _ p => some (0x27, 0, F3.pack { d := pairCode p })
  | .loop _ d disp => some (0x28, 0, FB.pack { d := rcode d, disp })
  | .trap _ a => some (0x29, 0, F3.pack { a := a.code })
  | .eret _ => some (0x2A, 0, 0)
  | .halt _ => some (0x2B, 0, 0)
  | .fuse _ n => some (0x2C, 0, F3.pack { aux := 0#10 ++ n })
  | .decouple _ => some (0x2D, 0, 0)
  | .rejoin _ => some (0x2E, 0, 0)
  | .rent _ tier kind ls rlt sp d p a b c =>
      some (0x30, kind ++ tier, F3.pack { d := rcode d, a := a.code, b := b.code, c := c.code
                                          aux := raux (0#8 ++ sp) rlt ls p })
  | .renew _ d p a b =>
      some (0x31, 0, F3.pack { d := rcode d, a := a.code, b := b.code, aux := raux 0 false false p })
  | .prepay _ d p a b c =>
      some (0x32, 0, F3.pack { d := rcode d, a := a.code, b := b.code, c := c.code
                               aux := raux 0 false false p })
  | .sublet _ l gr d p a b c =>
      some (0x33, 0, F3.pack { d := rcode d, a := a.code, b := b.code, c := c.code
                               aux := raux (0#4 ++ gr) false l p })
  | .vacate _ s d a => some (0x34, mod1 s, F3.pack { d := rcode d, a := a.code })
  | .handover _ d p a b =>
      some (0x35, 0, F3.pack { d := rcode d, a := a.code, b := b.code, aux := raux 0 false false p })
  | .lease _ d a => some (0x36, 0, F3.pack { d := rcode d, a := a.code })
  | .barinit _ sc p a b c =>
      some (0x37, sc.code, F3.pack { d := pairCode p, a := a.code, b := b.code, c := c.code })
  | .arrive _ sc a => some (0x38, sc.code, F3.pack { a := a.code })
  | .wait _ sc p a => some (0x39, sc.code, F3.pack { d := pairCode p, a := a.code })
  | .barbase _ sc a b => some (0x3A, sc.code, F3.pack { a := a.code, b := b.code })
  | .watch _ p (.mem c a) b =>
      some (0x3B, 0#2 ++ c, F3.pack { d := pairCode p, a := a.code, b := b.code })
  | .watch _ p (.chan ch) b =>
      some (0x3B, 8, F3.pack { d := pairCode p, a := pcode ch, b := b.code })
  | .fence _ sc kinds dir => some (0x3C, sc.code, F3.pack { aux := 0#11 ++ dir ++ kinds })
  | .vadd _ t rc s d a b =>
      some (0x01, t.code, F3.pack { d := d.code, a := a.code, b := b.code
                                    aux := vaux false 0 false false s rc.code })
  | .vsub _ t rc s d a b =>
      some (0x02, t.code, F3.pack { d := d.code, a := a.code, b := b.code
                                    aux := vaux false 0 false false s rc.code })
  | .vmul _ t rc s d a b =>
      some (0x03, t.code, F3.pack { d := d.code, a := a.code, b := b.code
                                    aux := vaux false 0 false false s rc.code })
  | .vfma _ t rc np nc d a b c =>
      some (0x04, t.code, F3.pack { d := d.code, a := a.code, b := b.code, c := c.code
                                    aux := vaux false 0 nc np false rc.code })
  | .vmin _ t d a b => some (0x05, t.code, F3.pack { d := d.code, a := a.code, b := b.code })
  | .vmax _ t d a b => some (0x06, t.code, F3.pack { d := d.code, a := a.code, b := b.code })
  | .vabs _ t s d a =>
      some (0x07, t.code, F3.pack { d := d.code, a := a.code, aux := vaux false 0 false false s 0 })
  | .vand _ t d a b => some (0x08, t.code, F3.pack { d := d.code, a := a.code, b := b.code })
  | .vor _ t d a b => some (0x09, t.code, F3.pack { d := d.code, a := a.code, b := b.code })
  | .vxor _ t d a b => some (0x0A, t.code, F3.pack { d := d.code, a := a.code, b := b.code })
  | .vshl _ t d a b => some (0x0B, t.code, F3.pack { d := d.code, a := a.code, b := b.code })
  | .vshr _ t d a b => some (0x0C, t.code, F3.pack { d := d.code, a := a.code, b := b.code })
  | .vcmp _ t c p a b =>
      some (0x0D, t.code, F3.pack { d := pairCode p, a := a.code, b := b.code
                                    aux := BitVec.ofNat 16 c.code })
  | .vsel _ t d c a b =>
      some (0x0E, t.code, F3.pack { d := d.code, a := a.code, b := b.code, c := pcode c })
  | .vmov _ t d a => some (0x0F, t.code, F3.pack { d := d.code, a := a.code })
  | .vcvt _ t u rc ns d a =>
      some (0x10, t.code, F3.pack { d := d.code, a := a.code
                                    aux := vaux false u.code false false ns rc.code })
  | .vblkmax _ t d a => some (0x11, t.code, F3.pack { d := d.code, a := a.code })
  | .vscale _ u d a b =>
      some (0x12, 14, F3.pack { d := d.code, a := a.code, b := b.code
                                aux := vaux false u.code false false false 0 })
  | .vquant _ t u rc ns d a b =>
      some (0x13, t.code, F3.pack { d := d.code, a := a.code, b := b.code
                                    aux := vaux false u.code false false ns rc.code })
  | .vrsqe _ d a => some (0x14, 8, F3.pack { d := d.code, a := a.code })
  | .vrcpe _ d a => some (0x15, 8, F3.pack { d := d.code, a := a.code })
  | .vexp2 _ rc d a =>
      some (0x16, 8, F3.pack { d := d.code, a := a.code, aux := vaux false 0 false false false rc.code })
  | .vlog2 _ rc d a =>
      some (0x17, 8, F3.pack { d := d.code, a := a.code, aux := vaux false 0 false false false rc.code })
  | .vredsum _ t rc w d a =>
      some (0x18, t.code, F3.pack { d := d.code, a := a.code, aux := vaux false 0 false w false rc.code })
  | .vredmax _ t d a => some (0x19, t.code, F3.pack { d := d.code, a := a.code })
  | .vperm _ t d a b => some (0x1A, t.code, F3.pack { d := d.code, a := a.code, b := b.code })
  | .vrot _ t d a b => some (0x1B, t.code, F3.pack { d := d.code, a := a.code, b := b.code })
  | .vidx _ t d => some (0x1C, t.code, F3.pack { d := d.code })
  | .vtopk _ t k init d c a b =>
      some (0x1D, t.code, F3.pack { d := rcode d, a := a.code, b := b.code, c := pcode c
                                    aux := 0#8 ++ ofBit init ++ k })
  | .vdot4 _ t rc d a b c =>
      some (0x1E, t.code, F3.pack { d := d.code, a := a.code, b := b.code, c := c.code
                                    aux := vaux false 0 false false false rc.code })
  | .vmulh _ t d a b => some (0x1F, t.code, F3.pack { d := d.code, a := a.code, b := b.code })
  | .vclamp _ t d a b c =>
      some (0x20, t.code, F3.pack { d := d.code, a := a.code, b := b.code, c := c.code })
  | .vrnd _ t rc d a =>
      some (0x21, t.code, F3.pack { d := d.code, a := a.code
                                    aux := vaux false 0 false false false rc.code })
  | .vclass _ t d a => some (0x22, t.code, F3.pack { d := d.code, a := a.code })
  | .vpack _ t s d a b =>
      some (0x23, t.code, F3.pack { d := d.code, a := a.code, b := b.code
                                    aux := vaux false 0 false false s 0 })
  | .vunpack _ t hi d a =>
      some (0x24, t.code, F3.pack { d := d.code, a := a.code, aux := vaux hi 0 false false false 0 })
  | .pand _ na nb d a b =>
      some (0x25, 0, F3.pack { d := pcode d, a := pcode a, b := pcode b
                               aux := 0#14 ++ ofBit nb ++ ofBit na })
  | .por _ na nb d a b =>
      some (0x26, 0, F3.pack { d := pcode d, a := pcode a, b := pcode b
                               aux := 0#14 ++ ofBit nb ++ ofBit na })
  | .pxor _ na nb d a b =>
      some (0x27, 0, F3.pack { d := pcode d, a := pcode a, b := pcode b
                               aux := 0#14 ++ ofBit nb ++ ofBit na })
  | .pcnt _ t d a => some (0x28, t.code, F3.pack { d := rcode d, a := pcode a })
  | .vld _ acq d b arr o =>
      some (0x29, mod1 acq, FM.pack { d := rcode d, base := rcode b, arr, off := o.code })
  | .vst _ rel d b o =>
      some (0x2A, mod1 rel, FM.pack { d := d.code, base := rcode b, off := o.code })
  | .vldx _ t d b arr xv o =>
      some (0x2B, t.code, FM.pack { d := rcode d, base := rcode b, arr, off := xv ++ o.code })
  | .vstx _ t d b xv o =>
      some (0x2C, t.code, FM.pack { d := d.code, base := rcode b, off := xv ++ o.code })
  | .tld _ d a b => some (0x01, 0, F3.pack { d := tcode d, a := rcode a, b := b.code })
  | .tst _ d a b => some (0x02, 0, F3.pack { d := tcode d, a := rcode a, b := b.code })
  | .trd _ t d b => some (0x03, 0, F3.pack { d := tcode t, a := rcode d, b := b.code })
  | .twr _ d a b => some (0x04, 0, F3.pack { d := tcode d, a := rcode a, b := b.code })
  | .ttr _ t d s => some (0x05, t.code, F3.pack { d := tcode d, a := tcode s })
  | .tmask _ t mode d a b c =>
      some (0x06, t.code, F3.pack { d := tcode d, a := a.code, b := b.code, c := c.code
                                    aux := 0#14 ++ mode })
  | .trmax _ t s d => some (0x07, t.code, F3.pack { d := tcode s, a := rcode d })
  | .trsum _ t rc s d =>
      some (0x08, t.code, F3.pack { d := tcode s, a := rcode d
                                    aux := vaux false 0 false false false rc.code })
  | .texp _ t rc d s b =>
      some (0x09, t.code, F3.pack { d := tcode d, a := tcode s, b := rcode b
                                    aux := vaux false 0 false false false rc.code })
  | .trscl _ t rc d s b =>
      some (0x0A, t.code, F3.pack { d := tcode d, a := tcode s, b := rcode b
                                    aux := vaux false 0 false false false rc.code })
  | .tcvt _ t u rc ns d s =>
      some (0x0B, t.code, F3.pack { d := tcode d, a := tcode s
                                    aux := vaux false u.code false false ns rc.code })
  | .twait _ tm am => some (0x0C, 0, F3.pack { d := tm, aux := am })
  | .tzero _ d => some (0x0D, 0, F3.pack { d := tcode d })
  | .mma _ f acc a b m8 n16 k16 pa pb z =>
      some (0x01, f.code, encFMX acc a b m8 n16 k16 pa pb z false)
  | .mmag _ f acc a b m8 n16 k16 pa pb z =>
      some (0x02, f.code, encFMX acc a b m8 n16 k16 pa pb z true)
  | .accdef _ i n a b c =>
      some (0x03, 0, F3.pack { a := a.code, b := b.code, c := c.code, aux := maux false 0 i n })
  | .accz _ n => some (0x04, 0, F3.pack { aux := maux false 0 false n })
  | .accld _ t n a b =>
      some (0x05, t.code, F3.pack { a := a.code, b := b.code, aux := maux false 0 false n })
  | .accmv _ t dir rc ns n d a b =>
      some (0x06, t.code, F3.pack { d := tcode d, a := a.code, b := b.code
                                    aux := maux ns rc.code dir n })
  | .accst _ t rc ns n a b =>
      some (0x07, t.code, F3.pack { a := a.code, b := b.code, aux := maux ns rc.code false n })
  | .accscl _ n a b => some (0x08, 0, F3.pack { a := rcode a, b := b.code, aux := maux false 0 false n })
  | .accbias _ n a b => some (0x09, 0, F3.pack { a := rcode a, b := b.code, aux := maux false 0 false n })
  | .ringset _ r a b c =>
      some (0x0A, 0, F3.pack { a := a.code, b := b.code, c := c.code, aux := maux false 0 false r })
  | .ringq _ r d => some (0x0B, 0, F3.pack { d := rcode d, aux := maux false 0 false r })
  | .xcopy _ z ch pace d b c _ =>
      some (0x01, d.modBit, FXC.pack { ch, a := d.code, b := b.code, c := c.code, pace, esz := zcode z })
  | .xgather _ z ch pace d b vi n1 =>
      some (0x02, d.modBit, FXC.pack { ch, a := d.code, b := b.code, c := rcode vi, pace, ops := n1
                                       esz := zcode z })
  | .xscatter _ z ch pace a b vi n1 =>
      some (0x03, 0, FXC.pack { ch, a := a.code, b := b.code, c := rcode vi, pace, ops := n1
                                esz := zcode z })
  | .xacc _ op z ch pace a b c =>
      some (0x04, 0, FXC.pack { ch, a := a.code, b := b.code, c := c.code, pace, ops := op
                                esz := zcode z })
  | .xfetch _ op z ch a b c =>
      some (0x05, 0, FXC.pack { ch, a := a.code, b := b.code, c := c.code, ops := op, esz := zcode z })
  | .xcas _ z ch a b c _ =>
      some (0x06, 0, FXC.pack { ch, a := a.code, b := b.code, c := c.code, esz := zcode z })
  | .xfill _ z ch pace a b c =>
      some (0x07, 0, FXC.pack { ch, a := a.code, b := b.code, c := c.code, pace, esz := zcode z })
  | .xexpand _ z ch pace d b c =>
      some (0x08, d.modBit, FXC.pack { ch, a := d.code, b := b.code, c := c.code, pace, esz := zcode z })
  | .xsignal _ op ch a b =>
      some (0x09, 0, FXC.pack { ch, a := a.code, b := b.code, ops := op, esz := 3 })
  | .xorder _ z ch b => some (0x0A, 0, FXC.pack { ch, b := b.code, esz := zcode z })
  | .kvalloc _ ch a b => some (0x0B, 0, FXC.pack { ch, a := a.code, b := b.code })
  | .kvfree _ ch a => some (0x0C, 0, FXC.pack { ch, a := a.code })
  | .kvshare _ ch a b => some (0x0D, 0, FXC.pack { ch, a := a.code, b := b.code })
  | .kvappend _ adv ch a b c =>
      some (0x0E, if adv then 2 else 0, FXC.pack { ch, a := a.code, b := b.code, c := c.code })
  | .kvcommit _ rej ch a b =>
      some (0x0F, if rej then 4 else 0, FXC.pack { ch, a := a.code, b := b.code })
  | .kvget _ ch pace d b c =>
      some (0x10, d.modBit, FXC.pack { ch, a := d.code, b := b.code, c := c.code, pace })
  | .kvsum _ ch a b c => some (0x11, 0, FXC.pack { ch, a := a.code, b := b.code, c := c.code })
  | .xcoll _ op kind z ch a b c _ =>
      some (0x12, 0#2 ++ kind, FXC.pack { ch, a := a.code, b := b.code, c := c.code, ops := op
                                          esz := zcode z })
  | _ => none

/-- THE ENCODER: the slot syllable of an instruction and its extension; an event has none. -/
def encode (i : Instr) : List Word :=
  match i.fields with
  | none => []
  | some (op, m, r) =>
      Syl.pack { h := 0, xt := ofBit i.ext?.isSome, op, g := i.guard, mod := m, rest := r }
        :: i.ext?.toList

/-- A header that names one slot, with the broadcast port reading s0 (R94). -/
def headerFor (s : Slot) : Word :=
  1#1 ++ BitVec.ofNat 8 (2 ^ (7 - s.num)) ++ 0#8 ++ 1#2 ++ 0#45

/-- A bundle of the one instruction `i` in slot `s`, as one number (log 11). -/
def bundleBits (s : Slot) (i : Instr) : Nat :=
  (headerFor s :: encode i).foldr (fun w acc => w.toNat + 2 ^ 64 * acc) 0

end Sys2Proof
end

