-- ==== Sys2Proof/Config.lean ====
section
/-!
DEFINITION. What an implementation fixes and the spec leaves open, as constants with no body, and the
fixed figures of the package (R2, R17, R46, R47).
-/
namespace Sys2Proof.Config

/-- A FREE VALUE: the n-th value drawn where the spec leaves a value open (log 7, log 12). -/
opaque freeValue : Nat → BitVec 64

/-- SHA3-256, which R350 names and the spec does not define (log 9). -/
opaque sha3_256 : List Byte → BitVec 256
/-- ML-DSA-44 verification of a signature over a digest with a public key (R350, log 9). -/
opaque mlDsa44Verify : (publicKey signature : List Byte) → (digest : BitVec 256) → Bool
/-- ML-DSA-44 signature by the device identity key over a transcript (R351, log 9). -/
opaque mlDsa44Sign : (message : List Byte) → List Byte
/-- The CRC-64 of a Jorier flit's bytes 0 to 239 (R344, log 9). -/
opaque flitCrc64 : List Byte → BitVec 64
/-- The FEC parity of a Jorier flit's bytes 0 to 247 (R344, log 9). -/
opaque flitParity : List Byte → BitVec 64
/-- The forward error correction of a received Jorier flit (R344, log 9). -/
opaque flitCorrect : List Byte → List Byte
/-- The bodies of SPDM replies whose layout SPDM 1.3 gives and the spec does not (R351, log 9). -/
opaque spdmBody : Nat → List Byte → List Byte
/-- The result of VEXP2, VLOG2 or TEXP where the model's fixed working precision does not settle the
rounding; no f32 input is known to reach it (log 8). -/
opaque powerUnresolved : Int → Nat → Int

/-- A word of a block-store table (R233): an 8-byte entry of a function's stage 1 by its name, or the first or the second
half of an entry of its block table by its number; `other` is no word of one. -/
inductive KvWord
  | other
  | stage1 (fn key : Nat)
  | block (fn gbn : Nat) (second : Bool)
  deriving DecidableEq, Repr, Inhabited

/-- What a device-physical address of 8 bytes holds of the block-store tables, which lie in storage that Hitik reserves
(R233, log 101). -/
opaque kvWordAt : Nat → KvWord
/-- The address of a word of the block-store tables (R233, log 101). -/
opaque kvAddrOf : KvWord → Nat

/-- What one package asks of another in a flit (R235, R236, R241, R344, R346). -/
inductive PodOp
  /-- Nothing that this package answers. -/
  | nothing
  /-- A read of so many bytes, and a write. -/
  | read (a n : Nat)
  | write (a : Nat) (bytes : List (BitVec 8))
  /-- XACC, XFETCH and XCAS: operation, element bytes, address and operands (R212, R213). -/
  | xacc (op es a v : Nat)
  | xfetch (op es a v : Nat)
  | xcas (es a old new : Nat)
  /-- Bytes of a block here (R234). -/
  | bytes (gbn off n : Nat)
  /-- KVSHARE of a name here; a reference more or fewer to a block here, and so many ticks more of its lease (R217, R235,
  R236). -/
  | share (name : Nat)
  | raise (gbn : Nat)
  | lower (gbn : Nat)
  | renew (gbn ticks : Nat)
  /-- A member of a collective: GROUP, RANK, NMEMB, kind, operation, and its source (R216). -/
  | member (group rank nmemb kind op : Nat) (src : List (BitVec 8))
  deriving DecidableEq, Repr, Inhabited

/-- A question of a pod tenant, by its identifier (R346). -/
structure PodAsk where
  tenant : Nat
  op     : PodOp
  deriving DecidableEq, Repr, Inhabited

/-- What the payload of a data or a reduction flit asks, which the spec gives no layout (R344, log 19). -/
opaque podAsk : List (BitVec 8) → PodAsk
/-- The payload of the flit that answers a status and bytes (R344, log 19). -/
opaque podAnswer : Nat → List (BitVec 8) → List (BitVec 8)

/-- Where Hitik's own storage begins, which holds the body of the image that booted; a Hitik context starts there
(R290, R349, log 99). -/
opaque hitikBase : Nat

/-- Core cycles in a tick (R46). -/
abbrev cyclesPerTick : Nat := 3300
/-- Compute cores of the package (R17). -/
abbrev cores : Nat := 768
/-- The Hitik management cores, numbered after the compute cores (R290). -/
abbrev hitikCores : Nat := 16
/-- The granule of a tier (R47). -/
def granule (tier : Nat) : Nat := if tier = 2 then 65536 else 4096
/-- Bytes of one core's store of a tier (R47). -/
def tierSize (tier : Nat) : Nat :=
  if tier = 0 then 262144 else if tier = 1 then 8388608 else 1073741824
/-- The device-physical base of core `k`'s store of a tier (R296). -/
def tierBase (tier k : Nat) : Nat :=
  if tier = 0 then 0xC200000000 + k * 262144
  else if tier = 1 then 0xC000000000 + k * 8388608
  else k * 1073741824

end Sys2Proof.Config
end

