-- ==== Sys2Proof/Machine/Table.lean ====
section
/-!
DEFINITION. Sparse tables keyed by a number, and memory as a list of cells in one canonical form:
addresses strictly rising and no listed byte equal to the zero an unlisted address reads as (R66).
-/
namespace Sys2Proof.Machine

/-- A table from numbers to values; the entry nearest the head counts. -/
abbrev Tbl (α : Type) := List (Nat × α)

/-- The entry at `k`, or `d` where there is none. -/
def Tbl.getD {α : Type} (t : Tbl α) (k : Nat) (d : α) : α :=
  match t with
  | [] => d
  | (j, x) :: r => if j = k then x else Tbl.getD r k d

/-- The entry at `k`, if there is one. -/
def Tbl.find {α : Type} (t : Tbl α) (k : Nat) : Option α :=
  match t with
  | [] => none
  | (j, x) :: r => if j = k then some x else Tbl.find r k

/-- The table without entry `k`. -/
def Tbl.erase {α : Type} (t : Tbl α) (k : Nat) : Tbl α :=
  match t with
  | [] => []
  | (j, x) :: r => if j = k then Tbl.erase r k else (j, x) :: Tbl.erase r k

/-- Insert before the first greater key. -/
def Tbl.insert {α : Type} (t : Tbl α) (k : Nat) (v : α) : Tbl α :=
  match t with
  | [] => [(k, v)]
  | (j, x) :: r => if k < j then (k, v) :: (j, x) :: r else (j, x) :: Tbl.insert r k v

/-- The table with `v` at `k`. -/
def Tbl.set {α : Type} (t : Tbl α) (k : Nat) (v : α) : Tbl α := Tbl.insert (Tbl.erase t k) k v

/-- The table with the entry at `k` (or `d`) changed by `f`. -/
def Tbl.upd {α : Type} (t : Tbl α) (k : Nat) (d : α) (f : α → α) : Tbl α :=
  Tbl.set t k (f (Tbl.getD t k d))

/-- Bytes by address. -/
abbrev Memory := List Host.Cell

/-- The byte an address holds; an unlisted address reads zero (R66, R349). -/
def Memory.read (m : Memory) (a : Nat) : Byte :=
  match m with
  | [] => 0
  | (b, x) :: r => if b = a then x else if a < b then 0 else Memory.read r a

/-- Write one byte, keeping the canonical form. -/
def Memory.write (m : Memory) (a : Nat) (x : Byte) : Memory :=
  match m with
  | [] => if x = 0 then [] else [(a, x)]
  | (b, y) :: r =>
      if a < b then (if x = 0 then (b, y) :: r else (a, x) :: (b, y) :: r)
      else if a = b then (if x = 0 then r else (a, x) :: r)
      else (b, y) :: Memory.write r a x

/-- Clear the bytes of `[lo, hi)` (a scrub, R66). -/
def Memory.clear (m : Memory) (lo hi : Nat) : Memory :=
  m.filter (fun c => c.1 < lo || hi ≤ c.1)

/-- `n` bytes from `a`, lowest first. -/
def Memory.bytes (m : Memory) (a n : Nat) : List Byte :=
  (List.range n).map (fun i => Memory.read m (a + i))

/-- Write a list of bytes from `a` up. -/
def Memory.writeBytes (m : Memory) (a : Nat) (bs : List Byte) : Memory :=
  match bs with
  | [] => m
  | b :: r => Memory.writeBytes (Memory.write m a b) (a + 1) r

/-- Every address above `lo`, rising, and no zero byte. -/
def Memory.wfFrom (lo : Nat) (m : Memory) : Bool :=
  match m with
  | [] => true
  | (a, x) :: r => lo ≤ a && x != 0 && Memory.wfFrom (a + 1) r

/-- The canonical form of memory. -/
def Memory.wf (m : Memory) : Bool := Memory.wfFrom 0 m

/-- A little-endian number from bytes. -/
def ofBytes (bs : List Byte) : Nat := bs.foldr (fun b acc => b.toNat + 256 * acc) 0

/-- The `n` low bytes of a number, lowest first. -/
def toBytes (n v : Nat) : List Byte := (List.range n).map (fun i => BitVec.ofNat 8 (v / 256 ^ i))

/-- The first `n` ordinals of a list of flags that are set. -/
def firstIdx (p : Nat → Bool) (n : Nat) : Option Nat := (List.range n).find? p

/-- Replace element `i` of a list. -/
def setAt {α : Type} (l : List α) (i : Nat) (x : α) : List α :=
  match l, i with
  | [], _ => []
  | _ :: r, 0 => x :: r
  | y :: r, i + 1 => y :: setAt r i x

end Sys2Proof.Machine
end

