-- ==== Sys2Proof/Machine/State.lean ====
section
/-!
DEFINITION. The state of a W768 package as the spec gives it, as plain data: contexts, cores, rented
storage, launches, functions, management registers, the host's and the pod's side, and the model's own
fields (log 1, 2, 5, 7); the reasons a step can stop; and the state after reset (R349).
-/
namespace Sys2Proof.Machine

/-! ## A context (R19 to R21) -/

/-- The binding of an accumulator name (R179). `removed`: taken away by an expiry (R63). -/
structure AccBind where
  base    : Nat
  rows    : Nat
  cols    : Nat
  i32     : Bool
  /-- Device-physical address of the first element. -/
  dpa     : Nat := 0
  removed : Bool := false
  deriving DecidableEq, Repr

/-- The register bank of a context, one field for each file of R19, with the registers that follow it. -/
structure Bank where
  /-- s1 to s63. -/
  s : Tbl Word := []
  /-- Physical vector registers. -/
  v : Tbl Vec := []
  /-- Physical predicate registers 2 to 15. -/
  p : Tbl Pred := []
  /-- Row `r` of tile `t` at key 32 t + r. -/
  t : Tbl Vec := []
  /-- The binding of each accumulator name by the most recently issued ACCDEF; `none` is unbound. An
  operation carries the one it issued under, which has started when the operation does (R117, R179). -/
  acc : Tbl (Option AccBind) := []
  rbase : Word := 0
  fpflags : Word := 0
  /-- STEP0 to STEP7 (R108). -/
  step : Tbl Word := []
  /-- Barrier base and depth by scope number (R222). -/
  bar : Tbl (Nat × Nat) := []
  /-- Arrival generations by 256 * scope + effective number (R223). -/
  arrGen : Tbl Nat := []
  watchto : Word := 0
  mstat : Word := 0
  deriving DecidableEq, Repr

/-- The trap registers of a context slot (R144). -/
structure TrapRegs where
  vec   : Word := 0
  isIn  : Bool := false
  cause : Nat := 0
  pc    : Word := 0
  info  : Word := 0
  addr  : Word := 0
  /-- TRAPPC was written by MTS since trap entry (R148). -/
  pcWritten : Bool := false
  deriving DecidableEq, Repr

/-- A sticky operation and its step count (R107). `addr` is the address of its syllable. -/
structure Sticky where
  i    : Instr
  k    : Nat
  addr : Word
  deriving DecidableEq, Repr

/-- What a result does when it lands (R12, R105). -/
inductive Land
  | s (r : Nat) (v mask : Word)
  | v (r : Nat) (v : Vec) (mask : Pred)
  | p (r : Nat) (v mask : Pred)
  | latch (k : Nat) (v : Vec)
  | mts (n : Nat) (v : Word)
  | rotate
  | flags (f : Word)
  | barBase (sc base depth : Nat)
  | barBind (sc inst launch n cell count : Nat)
  | barUnbind (sc inst launch n : Nat)
  | sublet (region base len until_ grantee : Nat) (toLaunch : Bool)
  /-- The landing of an acquire load (R245). -/
  | acquire
  deriving DecidableEq, Repr

/-- Units that wait for tokens at a core's controller: the core, the function, and how many tokens the function had asked
it for with them (R342). -/
abbrev Ticket := Nat × Nat × Nat

/-- A result in flight: the issue cycle it is due in, and whether it is a timed load, with the
poisoned unit it read, if it read one (R112, R122). -/
structure Flight where
  due    : Nat
  /-- The issue cycle and the slot it was issued in, which order the results of one bundle (R105). -/
  at_    : Nat := 0
  slot   : Nat := 0
  lands  : List Land
  load   : Bool := false
  /-- It was issued by a doubles partner, whose bundle counts as the later one (R105). -/
  partner : Bool := false
  poison : Option Nat := none
  /-- The units whose tokens late data waits for (R114, R342). -/
  arrive : List Ticket := []
  deriving DecidableEq, Repr

/-- A snapshot or hold bank: dues relative to the trap cycle, latches, sticky state, the repetition,
and SRSTATE (R123, R146, R303). -/
structure Saved where
  flight  : List Flight
  latches : Tbl Vec
  sticky  : Tbl Sticky
  rep     : Nat
  pc      : Word
  srstate : Word
  deriving DecidableEq, Repr

/-- An 8-byte-unit write set of a queued operation, computed when it starts and applied when it
completes (R182). -/
inductive QWrite
  /-- A row of a tile: the bytes whose bit is set. -/
  | tileRow (t r : Nat) (v : Vec) (mask : Pred)
  /-- A device-physical write: the virtual address of its first byte, and its guest-physical one. -/
  | mem (cell dpa : Nat) (gpa : Option Nat) (bytes : List Byte)
  /-- The pop of a ring slot, of the ring's geometry of that number (R176). -/
  | pop (r gen : Nat)
  /-- The end of a gang member's read of a ring slot of a core (R185). -/
  | readDone (core r key : Nat)
  | flags (f : Word)
  /-- So many bytes, which are written already (R299). -/
  | done (n : Nat)
  deriving DecidableEq, Repr

/-- A queued T or M operation (R116, R117): the operation, its staged operands, its place in the issue
order and what it has done so far. -/
structure QOp where
  id      : Nat
  i       : Instr
  /-- The number of the context that issued it (R38). -/
  inst    : Nat := 0
  /-- Staged scalar operands A, B and C. -/
  a       : Word := 0
  b       : Word := 0
  c       : Word := 0
  /-- Staged vector operand. -/
  vec     : Vec := 0
  /-- Draws of stochastic rounding, oldest first (R82). -/
  draws   : List (BitVec 16) := []
  /-- The binding the issue found (R179). -/
  bind_   : Option AccBind := none
  /-- FPFLAGS.RM at issue, for the dynamic rounding mode. -/
  rm      : Nat := 0
  /-- BANKFMT at issue of the cores whose rings supply operands A and B (R183). -/
  fmts    : Tbl Word := []
  fmtsB   : Tbl Word := []
  /-- Tags it clears: t0 to t7 as 0 to 7, acc0 to acc15 as 8 to 23 (R117, R189). -/
  dsts    : List Nat := []
  srcs    : List Nat := []
  /-- The issue number of the context at its staging (R118). -/
  issue   : Nat := 0
  /-- Its place in the issue order of its core, which the members of a gang share, and the gang it was
  issued in, as (first core, size) (R185, R197). -/
  gid     : Nat := 0
  gang    : Option (Nat × Nat) := none
  started : Bool := false
  /-- What its completion applies. -/
  writes  : List QWrite := []
  /-- The page request it waits for, the bytes before the faulting byte in its own order, that byte's address, and
  whether the access that missed writes there (R304). -/
  page    : Option (Nat × Nat × Nat × Bool) := none
  /-- Bytes that it has accessed in its own order, and their writes (R304). -/
  done    : Nat := 0
  first   : List QWrite := []
  /-- The fences among the held effects numbered below it come before it (R247). -/
  fence   : Nat := 0
  /-- The units whose tokens its accesses wait for (R342). -/
  due     : List Ticket := []
  deriving DecidableEq, Repr

/-- An effect that waits until earlier ACCST and TST writes of its context are complete (R189). -/
inductive HeldEff
  /-- A store: device-physical pieces with their bytes, and the guest-physical address of each; whether it is an
  SO access (R244), and the issue key of the first view join that came after it (R249). -/
  | store (pieces : List (Nat × List Byte × Option Nat)) (so : Bool) (joined : Option Nat)
  /-- An arrival: scope, member set, launch, effective number (R223). -/
  | arrive (sc inst launch n : Nat)
  /-- The ordering point of a fence: the page kinds it names as bits, and whether it orders loads too (R247). -/
  | fence (kinds : Nat) (full : Bool)
  /-- The hand-over of a region to the launch a word names, behind the accesses of HANDOVER's own bundle (R246): the
  address it named the region by, and the scalar and the predicates its result goes to. -/
  | handover (region : Nat) (w a : Word) (d pos neg : Nat)
  deriving DecidableEq, Repr

/-- A held effect: its number, the queued operations it waits for, and what it does. -/
structure Held where
  seq   : Nat
  /-- The number of the context that issued it (R38). -/
  inst  : Nat := 0
  after : List Nat
  eff   : HeldEff
  deriving DecidableEq, Repr

/-- What a context waits for (R27, R44). -/
inductive Wait
  /-- A barrier: scope, member set, launch, number and reference generation; `res` once it is over:
  true for a phase change, false for broken (R223). -/
  | barrier (sc inst launch n gen : Nat) (res : Option Bool)
  /-- A memory watch: condition, address, value, the tick it issued in, and its result once it is over:
  false for broken or timed out (R224). -/
  | watch (cond addr : Nat) (val : Word) (t0 : Nat) (res : Option Bool)
  /-- A channel watch (R224). -/
  | chan (ch : Nat) (val : Word) (t0 : Nat) (res : Option Bool)
  /-- The end of every tail it spawned (R40). -/
  | tails
  /-- The end of every hold that starts below an address (R40). -/
  | holds (below : Word)
  /-- FUSE of a group of n, or REJOIN; `res` once the group is complete (R33, R35). -/
  | fuse (n : Nat) (res : Bool)
  | rejoin (res : Bool)
  /-- A HANDOVER of a region to the launch a word names (R61, R281). -/
  | handover (region : Nat) (w : Word)
  /-- A pending hand-over of a range (R62). -/
  | pending (base : Nat)
  /-- Page requests still to be answered, each with whether the access that waits for it writes (R303). -/
  | pages (reqs : List (Nat × Bool))
  /-- An escalation, until Hitik resumes or stops the context (R308). -/
  | escalated
  /-- Queued operations of its core, by slot and number: memory writes of the bundle of a HANDBACK or a TAILEND, which
  count as before it (R246, R252, log 102). -/
  | writes (ops : List (Nat × Nat))
  deriving DecidableEq, Repr

/-- The four states of a context slot (R27). -/
inductive CtxState
  | empty | running | ready | waiting
  deriving DecidableEq, Repr

/-- A hold entry: the tail's slot and the byte range of its frame (R37). -/
structure Hold where
  slot  : Nat
  start : Word
  stop  : Word
  deriving DecidableEq, Repr

/-- What a landing of this cycle changed, kept for a trap of this cycle (R123, R146). -/
structure Undo where
  cycle   : Nat
  bank    : Bank
  trap    : TrapRegs
  landed  : List Flight
  tfault  : Bool
  deriving DecidableEq, Repr

/-- What the contexts of a core share as it was before the landings of an issue cycle, and the lands of that cycle that
changed it, each with its slot, in their order (R104, R105, R123). -/
structure LandNote where
  cycle   : Nat
  latches : Tbl Vec
  freeze  : Word
  exclcnt : Word
  bankfmt : Tbl Word
  entered : List (Nat × Land) := []
  deriving DecidableEq, Repr

/-- The saved caller view of a deferred tail (R36, R38), with the results of the bundle of HANDBACK that are
still to land in it. -/
structure CallerView where
  bank   : Bank
  trap   : TrapRegs
  flight : List Flight
  inst   : Nat
  rentLow : List Nat
  escNext : Option (Bool × Word) := none
  deriving DecidableEq, Repr

/-- What makes a context a tail (R36 to R39). -/
structure Tail where
  depth    : Nat
  spawner  : Nat
  deferred : Bool
  view     : Option CallerView
  deriving DecidableEq, Repr

/-- How a context is switched out (R267). -/
inductive SwitchKind
  | none | safePoint | full
  deriving DecidableEq, Repr

/-- One context slot of a core. -/
structure Ctx where
  state   : CtxState := .empty
  /-- What it waits for, or waited for until its bundle issues again. -/
  wait    : Option Wait := none
  launch  : Nat := 0
  lindex  : Nat := 0
  /-- 0 for a context that a placement started; a number of its own for a tail (R36, R58). -/
  inst    : Nat := 0
  bank    : Bank := {}
  pc      : Word := 0
  trap    : TrapRegs := {}
  sticky  : Tbl Sticky := []
  flight  : List Flight := []
  queue   : List QOp := []
  snap    : Option Saved := none
  hold    : Option Saved := none
  /-- The repetition to issue next (R109). -/
  rep     : Nat := 0
  /-- The first issue cycle of the core in which its next bundle may issue: bubbles (R106). -/
  notBefore : Nat := 0
  /-- Issues made, for SKEW (R118). -/
  issues  : Nat := 0
  /-- Queued operations staged, which numbers them. -/
  staged  : Nat := 0
  /-- Release effects held back, oldest first, with every later store behind them (R189). -/
  held    : List Held := []
  heldSeq : Nat := 0
  tail    : Option Tail := none
  holds   : List Hold := []
  tfault  : Bool := false
  /-- The issue cycle from which TAILS shows it (R39). -/
  tfaultFrom : Nat := 0
  /-- Its next fetch is at the target of a taken branch, of ERET or of a resume, where what is no header
  raises TARGET (R103, R143). -/
  target  : Bool := false
  /-- Bases of regions whose rent-low trap is due (R58). -/
  rentLow : List Nat := []
  /-- The next repetition issues without being compared (R313). -/
  bpSkip  : Bool := false
  /-- Guest-physical pages whose request was answered Invalid Request (R301). -/
  badPages : List Nat := []
  /-- Escalate before the next bundle: with XLATE for a queued operation's Invalid Request (R301), or, where the bit is
  set, with POISON (R309, R331); and what TRAPADDR would hold. -/
  escNext : Option (Bool × Word) := none
  /-- The number and the bank of a context that ended in this slot, for what its last bundle left queued (R117). -/
  left    : Option (Nat × Bank) := none
  /-- The context has escalated (R288). -/
  escd    : Bool := false
  /-- The switch under way, and whether the context is switched out (R267, R268). -/
  switch  : SwitchKind := .none
  out     : Bool := false
  /-- Issue cycles since the turn end, and those of them in which it ran (R267, R289). -/
  sinceTurn : Nat := 0
  ranTurn : Nat := 0
  /-- It tried its next bundle last and blocked, and stayed Ready (R28). -/
  blocked : Bool := false
  /-- A POISON landing held for the next bundle (R146): the unit and the slot of the load (R122). -/
  poisonDue : Option (Nat × Nat) := none
  /-- Queued operations of its core, by slot and number, that its joins of tails wait for: memory writes of the bundle
  of a TAILEND, which count as before it (R40, R246). -/
  joins   : List (Nat × Nat) := []
  /-- Regions handed over to its launch of which it has made no access yet (R61, R245). -/
  fresh   : List Nat := []
  undo    : Option Undo := none
  deriving DecidableEq, Repr

/-! ## A core -/

/-- Whose a write to a scratchpad is, for the core that has it: its own, one of a copy channel of its own, or another
party's (R249). What a context of the core has acquired counts as its own. -/
inductive XFrom
  | own
  | cmd (ch : Nat)
  | other
  deriving DecidableEq, Repr

/-- A write to an aligned 8-byte unit of a scratchpad: what the unit holds after it, its view (true is swizzled), whose
it is, and whether a view join came after it (R68, R249). -/
structure XWrite where
  val    : Word
  swz    : Bool
  from_  : XFrom
  joined : Bool
  deriving DecidableEq, Repr

/-- The writes to a unit of a scratchpad that not every read of its core need see, oldest first, what the unit held
before them, and how many of them a context slot has seen in a view (R68, R243). -/
structure XView where
  unit   : Nat
  base   : Word
  writes : List XWrite
  seen   : List (Nat × Bool × Nat) := []
  deriving DecidableEq, Repr

/-- An outcome code of R202. -/
abbrev Status := Nat

/-- An element of a command that was set aside: its number, the page request it waits for, the place in a contiguous
copy it stands at (nibbles of the source, bytes of the destination), and how many elements it holds (R70, R305). -/
structure Defer where
  e    : Nat
  req  : Nat
  /-- The access that missed writes. -/
  write : Bool := false
  spos : Nat := 0
  dpos : Nat := 0
  n    : Nat := 1
  deriving DecidableEq, Repr

/-- What an element sent to other packages: the flits, as (port, SEQ), and whether it was set aside because the target
missed stage 2 (R345, R346). -/
structure Far where
  e    : Nat
  sent : List (Nat × Nat)
  miss : Bool := false
  /-- What the target answered, once the flits are acknowledged. -/
  st   : Option Status := none
  deriving DecidableEq, Repr

/-- The progress of a running command. -/
structure Prog where
  started  : Bool := false
  /-- The next element: those before it are applied or set aside. -/
  e        : Nat := 0
  /-- Elements of the command. -/
  total    : Nat := 0
  /-- Elements set aside for a page request (R305). -/
  deferred : List Defer := []
  /-- Those of them whose request was answered, in the order in which they go on (R316). -/
  released : List Nat := []
  /-- Bytes delivered in tick `tick` (R208). -/
  tick     : Nat := 0
  bytes    : Nat := 0
  /-- Ring slots the command has completed (R209). -/
  filled   : Nat := 0
  /-- The pattern descriptor's bytes, once read (R206). -/
  desc     : List Byte := []
  /-- Flags raised so far. -/
  flags    : Word := 0
  /-- The end decided before the last element: status and count. -/
  stop     : Option (Status × Nat) := none
  /-- KVTLEN at the start of a KVAPPEND (R231); the block a KVGET has translated (R239). -/
  p0       : Nat := 0
  /-- A collective that was reduced at the endpoints (R216). -/
  ep       : Bool := false
  /-- The page request the read of a descriptor waits for, once one was sent (R305). -/
  page     : Option Nat := none
  /-- How far a contiguous copy has come: nibbles of its source, bytes of its destination (R70). -/
  spos     : Nat := 0
  dpos     : Nat := 0
  /-- The 2:4 metadata of groups whose elements are not all applied (R210). -/
  metas    : Tbl Nat := []
  /-- The local blocks of names the command has translated, by block or element (R239). -/
  blks     : Tbl Nat := []
  /-- The tier 2 units of the last element, whose tokens are taken, and those of them that wait (R342). -/
  paid     : List Nat := []
  due      : List Ticket := []
  /-- The element that holds the command until a group index of page requests is free (R315). -/
  wants    : Option Nat := none
  /-- The flits of elements with a part on another package (R346). -/
  far      : List Far := []
  deriving DecidableEq, Repr

/-- A queued or running X command: the operation, its staged operands and its issuer (R198). -/
structure Cmd where
  serial : Nat
  i      : Instr
  a      : Word
  b      : Word
  c      : Word
  x      : Word
  vec    : Vec := 0
  slot   : Nat
  launch : Nat
  lindex : Nat
  /-- The number of the context that issued it (R38). -/
  inst   : Nat := 0
  /-- BANKFMT at issue, by core (R71). -/
  fmts   : Tbl (Tbl Word) := []
  /-- Source bytes of a contiguous copy, which a conversion may make more or fewer than C (R70). -/
  srcLen : Nat := 0
  /-- Its place in the issue order of its core (R197, R209). -/
  gid    : Nat := 0
  /-- The SLOTB checked at issue (R204). -/
  slotb  : Option Nat := none
  /-- Commands that must complete first, as (channel, serial) (R215). -/
  after  : List (Nat × Nat) := []
  /-- XSIGNAL: queued operations, and held effects by number, that come before it (R189, R214). -/
  relOps : List Nat := []
  relHeld : Nat := 0
  /-- Ranges whose lease ended before the command's pattern was read (R63). -/
  dead   : List (Nat × Nat) := []
  prog   : Prog := {}
  deriving DecidableEq, Repr

/-- A copy channel (R197, R201, R203). -/
structure Chan where
  queue  : List Cmd := []
  wpos   : Word := 0
  lcount : Nat := 0
  lstat  : Status := 0
  ep     : Bool := false
  done   : Nat := 0
  /-- Commands issued, which numbers them. -/
  issued : Nat := 0
  /-- What XORDER makes later commands wait for. -/
  after  : List (Nat × Nat) := []
  deriving DecidableEq, Repr

/-- A function's bucket at a core's controller: its tokens, a negative number counting the units that wait, and the tokens
asked for so far (R342). -/
structure Bucket where
  tokens : Int := 0
  asked  : Nat := 0
  deriving DecidableEq, Repr

/-- A ring (R173). -/
structure Ring where
  set   : Bool := false
  base  : Nat := 0
  /-- Device-physical address of the first byte. -/
  dpa   : Nat := 0
  /-- Geometries so far: a pop of an earlier one changes nothing. -/
  gen   : Nat := 0
  slotb : Nat := 0
  slots : Nat := 0
  head  : Nat := 0
  tail  : Nat := 0
  full  : Nat := 0
  inuse : Nat := 0
  /-- Removed by an expiry (R63). -/
  removed : Bool := false
  /-- Reads of a slot by members of a gang: twice the issue number, plus one for operand B; slot; reads
  not yet over; and whether the owner pops it (R185). -/
  reads : List (Nat × Nat × Nat × Bool) := []
  /-- Slots that commands have filled and that TAIL and FULL do not count yet. -/
  owed  : Nat := 0
  /-- The core cycles after the last pop and the last fill: each side moves at most once a cycle (R176). -/
  popAt  : Nat := 0
  fillAt : Nat := 0
  deriving DecidableEq, Repr

/-- One core (R17 to R45): shared units, and four context slots. -/
structure CoreSt where
  ctx      : Tbl Ctx := []
  latches  : Tbl Vec := []
  /-- Issue cycles so far (R104). -/
  ic       : Nat := 0
  /-- The last slot that ran (R28). -/
  last     : Nat := 3
  freeze   : Word := 0
  exclcnt  : Word := 0
  bankfmt  : Tbl Word := []
  chan     : Tbl Chan := []
  ring     : Tbl Ring := []
  bpAddr   : Tbl Word := []
  bpCtl    : Tbl Word := []
  swstat   : Word := 0
  hot      : Bool := false
  excluded : Bool := false
  /-- The DRAM repair map of its channel, (row, spare row) (R349). -/
  repair   : List (Nat × Nat) := []
  /-- Layer readings L0 to L3 in °C (R318). -/
  temps    : List Nat := [0, 0, 0, 0]
  /-- Layers the governor throttles for heat (R322). -/
  heat     : BitVec 4 := 0
  /-- LMAP of the core: FUSED, THR, FORCE (R323). -/
  fused    : BitVec 4 := 0
  thr      : BitVec 4 := 0
  force    : BitVec 4 := 0
  /-- Weights issued in the last 63 cycles, as (cycle, weight) (R324). -/
  window   : List (Nat × Nat) := []
  /-- First core and size of the gang this core is fused into (R33). -/
  gang     : Option (Nat × Nat) := none
  /-- The gang of the last DECOUPLE (R35). -/
  lastGang : Option (Nat × Nat) := none
  /-- Units of the scratchpad written in one view and not joined (R68). -/
  xview    : List XView := []
  launch   : Option Nat := none
  /-- Each function's bucket at this core's controller (R342). -/
  tokens   : Tbl Bucket := []
  /-- A management core that an escalating trap stopped (R290). -/
  stopped  : Bool := false
  /-- This core cycle is a freeze cycle of the core (R104). -/
  frozen   : Bool := false
  /-- The Running context issued or was cancelled in this core cycle: its active slots as a mask and
  whether its header uses the broadcast port (R30). -/
  ran      : Option (Nat × Bool) := none
  /-- The Running context blocked and stayed Ready in this core cycle (R28, R31). -/
  retry    : Bool := false
  /-- The freeze cycles left of the table walks that the Running bundle makes, once they began (R303). -/
  walk     : Option Nat := none
  /-- A channel of the core moved data in this core cycle (R319). -/
  moved    : Bool := false
  /-- The landings of this issue cycle in what its contexts share. -/
  note     : Option LandNote := none
  deriving DecidableEq, Repr

/-- The key in the table of cores of a core's part of a launch that is switched out or pre-empted: its
contexts, channels, rings and bank formats, saved (R268, R277). -/
def parkKey (launch core : Nat) : Nat := 1024 * (launch + 1) + core

/-! ## Rented storage (R46 to R67) -/

/-- A sublet (R59). -/
structure Sublet where
  base     : Nat
  len      : Nat
  until_   : Nat
  /-- A LINDEX of the owner launch, or a launch. -/
  grantee  : Nat
  toLaunch : Bool
  /-- SUBLET's result has landed: the rights are granted (R254). -/
  granted  : Bool := false
  deriving DecidableEq, Repr

/-- A prepay order: margin, step and what is left of the ceiling (R57). -/
structure Prepay where
  margin  : Nat
  step    : Nat
  ceiling : Nat
  deriving DecidableEq, Repr

/-- A rented region (R51). The sync, shared and in-transfer attributes are computed. -/
structure Region where
  id     : Nat
  fn     : Nat
  owner  : Nat
  /-- The renting context, which stays the renter when the region is handed over: its LINDEX and its launch (R58). -/
  renter : Nat
  renterLaunch : Nat
  /-- The core and slot of the renter, and its number, to raise its rent-low trap. -/
  renterAt : Nat × Nat
  renterInst : Nat := 0
  launchScope : Bool
  base   : Nat
  len    : Nat
  tier   : Nat
  home   : Nat
  kind   : Nat
  until_ : Nat
  rltrap : Bool
  rlow   : Bool := false
  prepay : Option Prepay := none
  subs   : List Sublet := []
  /-- Device-physical pieces, (address, length), in ascending virtual order (R296). -/
  pieces : List (Nat × Nat)
  /-- Handed over and mapped by no launch until the successor is placed (R281). -/
  unmapped : Bool := false
  /-- It came by HANDOVER (R61). -/
  handed  : Bool := false
  /-- The first address of the contiguous guest-physical range that a tier 2 entry of a virtual function maps to (R292,
  log 70). -/
  gpa     : Option Nat := none
  deriving DecidableEq, Repr

/-- A lease that has ended, and who held it: an access by a former holder raises EXPIRED (R63). -/
structure Ended where
  launch : Nat
  /-- A single LINDEX, or every context of the launch. -/
  lindex : Option Nat
  base   : Nat
  len    : Nat
  deriving DecidableEq, Repr

/-- A pending range entry of a successor (R62). -/
structure Pending where
  launch : Nat
  /-- The launch that is to hand the region over. -/
  pred   : Nat
  region : Nat
  base   : Nat
  len    : Nat
  failed : Bool := false
  deriving DecidableEq, Repr

/-- A bound barrier cell (R220, R221). -/
structure Barrier where
  sc     : Nat
  inst   : Nat
  launch : Nat
  n      : Nat
  cell   : Nat
  /-- The device-physical address of the cell. -/
  dpa    : Nat
  region : Nat
  /-- Removed by an expiry or a vacate: later use raises EXPIRED (R63, R223). -/
  broken : Bool := false
  deriving DecidableEq, Repr

/-! ## Launches and functions -/

/-- How far a launch has come (R271 to R288). -/
inductive LState
  | read | placed | preempted | retired
  deriving DecidableEq, Repr

/-- A `.region` directive of an image (R285). -/
structure RegDir where
  tier  : Nat
  rlt   : Bool
  bytes : Nat
  ticks : Nat
  data  : List Byte
  deriving DecidableEq, Repr

/-- A relocation of an image: WHERE, KIND, INDEX and ADDEND (R285). -/
structure Reloc where
  at_    : Nat
  kind   : Nat
  index  : Nat
  addend : Word
  deriving DecidableEq, Repr

/-- What the loader keeps of an image from its check to its placement (R284 to R287). -/
structure LImage where
  entry  : Nat := 0
  text   : List Word := []
  regs   : List RegDir := []
  relocs : List Reloc := []
  deriving DecidableEq, Repr

/-- A region a launch had for a directive: its identifier, tier, base and length (R279, R287). -/
structure DirReg where
  id   : Nat
  tier : Nat
  base : Nat
  len  : Nat
  deriving DecidableEq, Repr

/-- A launch: its record, its image's declarations and what placement gave it. -/
structure Launch where
  id     : Nat
  fn     : Nat
  queue  : Nat := 0
  serial : Nat := 0
  state  : LState := .placed
  gangs  : Nat := 1
  cpg    : Nat := 1
  cpc    : Nat := 1
  prio   : Nat := 0
  qb     : Bool := false
  request : Nat := 0
  purse  : Nat := 0
  argptr : Word := 0
  compl  : Word := 0
  image  : Word := 0
  /-- Predecessor serials and masks (R279). -/
  deps   : List (Nat × Nat) := []
  /-- The image as it was checked. -/
  img    : LImage := {}
  /-- The region of each directive, in order, from placement on (R279, R287). -/
  regions : List DirReg := []
  occCh  : List Nat := []
  occRing : List Nat := []
  /-- Cores in gang and rank order (R25). -/
  cores  : List Nat := []
  /-- The code copy: virtual base, length and device-physical base (R286). -/
  code   : Nat × Nat × Nat := (0, 0, 0)
  /-- Safe points: offset, SLIVE, VLIVE, PLIVE, TLIVE (R285). -/
  safe   : List (Nat × Nat × Nat × Nat × Nat) := []
  esc    : Nat := 0
  /-- Placement number, for R277. -/
  order  : Nat := 0
  /-- Stopped by a function level reset: no record is written (R341). -/
  silent : Bool := false
  /-- The launch that pre-empted it, whose cores its own are from then on (R277). -/
  by_ : Option Nat := none
  deriving DecidableEq, Repr

/-- A launch queue (R271, R289, R335). -/
structure Queue where
  ldepth : Nat := 0
  en     : Bool := false
  stop   : Bool := false
  ovr    : Bool := false
  read   : BitVec 32 := 0
  wptr   : BitVec 32 := 0
  qbase  : Word := 0
  /-- The page request that the loader's check of the next entry waits for, and the pages a response has refused it
  (R282, R301). -/
  page    : Option Nat := none
  refused : List Nat := []
  deriving DecidableEq, Repr

/-- An outstanding page request (R300): its number, which a wait names, its group index, page and write permission,
and whether it was already retried after a Success. -/
structure PageReq where
  id    : Nat
  group : Nat
  page  : Nat
  write : Bool
  again : Bool := false
  deriving DecidableEq, Repr

/-- A cached translation: stage, page address, page size, and the leaf's output and rights (R299). -/
structure TlbEntry where
  stage1 : Bool
  page   : Nat
  size   : Nat
  out    : Nat
  rd     : Bool
  wr     : Bool
  kind   : Nat
  deriving DecidableEq, Repr

/-- A block-table entry (R233). -/
structure Block where
  paddr  : Nat
  fmt    : Nat
  dirty  : Bool := false
  poison : Bool := false
  paid   : Nat
  ref    : Nat
  deriving DecidableEq, Repr

/-- A stage-1 entry of the block store, present (R233). -/
structure KvEntry where
  dead : Bool := false
  tier : Nat := 2
  pkg  : Nat
  gbn  : Nat
  deriving DecidableEq, Repr

/-- A tenant's block store on the package (R227 to R241). -/
structure Store where
  /-- Layer descriptors, 128 bits each (R228). -/
  layers : Tbl (BitVec 128) := []
  /-- Stage 1 by name bits 51:0. -/
  stage1 : Tbl KvEntry := []
  /-- The block table by GBN. -/
  blocks : Tbl Block := []
  /-- KVCLEN and KVTLEN by sequence (R230). -/
  seqs   : Tbl (Nat × Nat) := []
  deriving DecidableEq, Repr

/-- An MSI-X table entry (R334). -/
structure MsixEntry where
  addr : Word := 0
  data : BitVec 32 := 0
  mask : Bool := false
  deriving DecidableEq, Repr

/-- One function: 0 the physical function, 1 to 48 virtual functions. -/
structure Fn where
  part   : Nat := 0
  en     : Bool := false
  pre    : Bool := false
  order  : Nat := 0
  turn   : Nat := 0
  queues : Tbl Queue := []
  s1root : Word := 0
  s2root : Word := 0
  /-- PRICTL (R302). -/
  priEn  : Bool := false
  priStop : Bool := false
  priAlloc : Nat := 0
  reqs   : List PageReq := []
  /-- Responses that came while the tenant was switched out, as (group, code), oldest first (R306). -/
  answers : List (Nat × Nat) := []
  /-- Page requests made, which numbers them. -/
  asked  : Nat := 0
  /-- INV and S1INV: the last value written and BUSY (R299, R336). -/
  inv    : Word := 0
  invBusy : Bool := false
  s1inv  : Word := 0
  s1invBusy : Bool := false
  dirty  : Word := 0
  window : Word := 0
  causeR : BitVec 4 := 0
  coal   : Word := 0
  /-- P and F of R339. -/
  coalP  : Nat := 0
  coalF  : Nat := 0
  mreq   : Word := 0
  mreqBusy : Bool := false
  msix   : Tbl MsixEntry := []
  pba    : BitVec 4 := 0
  tlb    : List TlbEntry := []
  /-- The tenant's whole allowance, and what is left of it (R49, R275). -/
  allowAll : Nat := 0
  allowance : Nat := 0
  /-- Shares of tier 0 and tier 1 granules of each core, as (first, count); none is the whole store. -/
  share0 : Option (Nat × Nat) := none
  share1 : Option (Nat × Nat) := none
  podId  : Nat := 0
  store  : Store := {}
  /-- TBKT by quad: (BURST, RATE) (R343). -/
  tbkt   : Tbl (Nat × Nat) := []
  rctxCount : Nat := 0
  rctxInuse : Nat := 0
  deriving DecidableEq, Repr

/-- A quad (R289, R326). -/
structure Quad where
  part  : Nat := 0
  valid : Bool := false
  scrub : Bool := false
  limit : Nat := 0
  fnar  : Bool := false
  anar  : Bool := true
  deriving DecidableEq, Repr

/-- A partition's turn: the tenant in its turn, when it began, how long it is, and a switch to a tenant under way
(R265). -/
structure Turn where
  fn    : Nat
  began : Nat
  /-- Its length in ticks, as FCTL gave it when it began (R352). -/
  len   : Nat := 0
  next  : Option Nat := none
  deriving DecidableEq, Repr

/-- A member of a collective on another package: its rank, its kind, operation and bytes, and its source (R216, R344). -/
structure FarMember where
  rank : Nat
  key  : Nat × Nat × Nat
  src  : List Byte
  deriving DecidableEq, Repr

/-- A collective whose members are arriving or running (R216, R348). Members: rank, core, channel. -/
structure Coll where
  fn      : Nat
  group   : Nat
  nmemb   : Nat
  /-- SCOPE and the instance of it that the members lie in. -/
  scope   : Nat × Nat := (0, 0)
  members : List (Nat × Nat × Nat)
  /-- Its members on other packages. -/
  far     : List FarMember := []
  /-- The form is chosen; and the members' sources are read too. -/
  decided : Bool := false
  formed  : Bool := false
  inFabric : Bool := false
  /-- The members' source bytes by rank, once formed, and the elements of them that were poisoned, as
  (rank, element). -/
  data    : List (List Byte) := []
  bad     : List (Nat × Nat) := []
  /-- The page request the forming waits for. -/
  page    : Option Nat := none
  deriving DecidableEq, Repr

/-- A record of Hitik's event queue (R307). -/
structure HEvent where
  type   : Nat
  fn     : Nat
  ctxid  : Nat
  serial : Nat
  cause  : Nat
  inCause : Nat
  resume : Word
  addr   : Word
  deriving DecidableEq, Repr

/-- What a boot slot holds: its bytes, which R350 lays out, and whether it reads without error. -/
structure Image where
  bytes    : List Byte
  readable : Bool
  deriving DecidableEq, Repr

/-- What the fuses, the boot slots, training and self-test hold (R349, R350). -/
structure Fuses where
  readable : Bool := true
  keyA     : BitVec 256 := 0
  keyB     : BitVec 256 := 0
  revoked  : BitVec 2 := 0
  fsvn     : Nat := 0
  /-- Fused layers by core. -/
  layers   : Tbl (BitVec 4) := []
  untrained : List Nat := []
  failed   : List Nat := []
  /-- DRAM repair maps by core: (row, spare row). -/
  repairs  : Tbl (List (Nat × Nat)) := []
  slotA    : Option Image := none
  slotB    : Option Image := none
  /-- The boot ROM's bytes and the device certificate chain (R351). -/
  rom      : List Byte := []
  chain    : List Byte := []
  deriving DecidableEq, Repr

/-- BOOTSTAT (R354) and what bring-up found. -/
structure Boot where
  stage : Nat := 1
  slot  : Nat := 0
  failA : Nat := 15
  failB : Nat := 15
  excl  : Nat := 0
  fsvn  : Nat := 0
  svn   : Nat := 0
  halted : Bool := false
  /-- The boot ROM runs on Hitik management core 0 (R349). -/
  rom    : Bool := false
  /-- Measurements 1 to 4, fixed at stage 8 (R351). -/
  meas  : List (BitVec 256) := []
  deriving DecidableEq, Repr

/-- One Jorier port: the next SEQ expected, the next to send, and what may be replayed (R344). -/
structure Port where
  expect : Nat := 0
  next   : Nat := 0
  sent   : List (Nat × List Byte) := []
  out    : List (List Byte) := []
  deriving DecidableEq, Repr

/-- An access of another package to a function here that has arrived: where it came from and on which lane, what it asks,
and the page request it waits for, with whether the access that missed writes (R346). -/
structure PodWait where
  port : Nat
  src  : Nat
  vl   : Nat
  ask  : Config.PodAsk
  req  : Option (Nat × Bool) := none
  /-- The page it waits for was refused. -/
  bad  : Bool := false
  /-- Its tokens are taken, and the units that wait for them (R342). -/
  paid : Bool := false
  due  : List Ticket := []
  deriving DecidableEq, Repr

/-! ## The bundle being issued -/

/-- A bundle's operation in progress: whose it is, where it stands, and what the bundle has gathered. -/
structure Issue where
  core  : Nat := 0
  ctx   : Nat := 0
  slot  : Slot := .s0
  /-- The step count of the slot (R108). -/
  k     : Nat := 0
  /-- Address of the bundle's header, of the operation's syllable and of the next bundle. -/
  hdr   : Word := 0
  syl   : Word := 0
  next  : Word := 0
  /-- The broadcast port: the source code of R94 and its 64 bits (R100). -/
  bps   : Nat := 0
  bval  : Word := 0
  rep   : Nat := 0
  partner : Bool := false
  /-- In a gang, the first member whose TRAP was taken, with its TCODE (R34, R149). -/
  soft  : Option (Nat × Word) := none
  /-- The bundle's faults and blocks have been looked for and there is none (R121). -/
  checked : Bool := false
  deriving DecidableEq, Repr

/-- The phases of one core cycle; each passes over every core in ascending order. -/
inductive Phase
  | engines | land | share | run | partner
  deriving DecidableEq, Repr

/-- Whose move is next (log 2). -/
structure Move where
  core  : Nat := 0
  phase : Phase := .engines
  deriving DecidableEq, Repr

/-- An error that comes from outside (R328, R329, R331): a symbol of a unit goes wrong; the next write to a unit
arrives uncorrectable; or a word of a context's registers, latches or banks is wrong, correctable or not. -/
inductive Upset
  | symbol (unit sym : Nat)
  | write (unit : Nat)
  | word (core slot : Nat) (bad : Bool)
  deriving DecidableEq, Repr

/-! ## The package -/

/-- The state of the package. -/
structure State where
  /-- Core cycles since reset (R136). -/
  cycle   : Nat := 0
  mem     : Memory := []
  /-- Host memory the device reads and writes (log 14). -/
  hostMem : Memory := []
  /-- Poisoned 64-byte units, by device-physical unit address (R309). -/
  poison  : List Nat := []
  /-- Units with one wrong 16-bit symbol, and which it is; memory holds what a read delivers (R328, R330). -/
  wrong   : Tbl Nat := []
  /-- Units whose next write arrives uncorrectable (R329). -/
  badWrites : List Nat := []
  cores   : Tbl CoreSt := []
  fns     : Tbl Fn := []
  quads   : Tbl Quad := []
  turns   : Tbl Turn := []
  launches : List Launch := []
  regions : List Region := []
  ended   : List Ended := []
  pendings : List Pending := []
  barriers : List Barrier := []
  colls   : List Coll := []
  /-- Granules whose scrub runs (R66). -/
  scrubs  : List Nat := []
  /-- Identifiers given out. -/
  nextId  : Nat := 1
  /-- The next virtual base of a tier 2 region (log 5). -/
  nextVa  : Nat := 0x600000000000
  /-- The (function, queue) the dispatcher served last (R274). -/
  served  : Nat × Nat := (48, 15)
  -- management registers
  sel     : Word := 0
  heatLow : Nat := 85
  heatHigh : Nat := 95
  lLow    : Nat := 100
  lHigh   : Nat := 105
  refund  : Nat := 256
  rates   : Nat × Nat × Nat := (64, 8, 1)
  rlowm   : Nat := 0
  patrolR : Word := 0
  errUe   : Nat := 0
  errCe   : Nat := 0
  errAddr : Nat := 0
  errValid : Bool := false
  /-- The unit that patrol reads next in each tier (R332). -/
  patrolAt : Tbl Nat := []
  mwsel   : Word := 0
  boot    : Boot := {}
  fuses   : Fuses := {}
  /-- The power alarm; the limit Hitik sets; the power monitor's reading of this tick, and those of the last 100
  ticks, in watts (R325). -/
  alarm   : Bool := false
  /-- Narrow mode on an alarm is in force: it follows the alarm at the first tick after (R325). -/
  alarmInForce : Bool := false
  powerLimit : Nat := 3600
  power   : Nat := 0
  powers  : List Nat := []
  /-- Consecutive ticks below the limit. -/
  below   : Nat := 0
  /-- What reached Hitik (R307). -/
  hevents : List HEvent := []
  /-- Names of poisoned blocks that Hitik has reported to the drivers: function and name (R310). -/
  kvReports : List (Nat × Nat) := []
  /-- Messages the device sent: MSI-X (function, vector), PRI requests, SPDM replies. -/
  msixSent : List (Nat × Nat) := []
  priSent : List (Nat × PageReq) := []
  spdm    : List (List Byte) := []
  /-- Window reads answered and configuration requests answered (R334, R349). -/
  cfgSent : List (Nat × Bool) := []
  ports   : Tbl Port := []
  /-- This package's number, and the packages Hitik has set a route to (R345). -/
  pkg     : Nat := 0
  routes  : List Nat := []
  /-- Accesses of other packages that wait for a page here, oldest first (R346). -/
  asks    : List PodWait := []
  /-- Management registers whose MTS has landed in this cycle, with the values, in order: they take effect from the next
  (R352). -/
  policy  : List (Nat × Word) := []
  -- the model's own fields
  /-- Free values drawn (log 7). -/
  free    : Nat := 0
  /-- Choices an implementation makes, still to be used (log 5). -/
  oracle  : List Nat := []
  /-- Events due now, in the order in which they happen (log 1). -/
  agenda  : List Instr := []
  turn    : Move := {}
  /-- Cycles in which no engine moves; empty: engines move in every cycle (log 2). -/
  lag     : List Bool := []
  /-- Freeze cycles that each table walk of a bundle takes, in order; empty: none (R303, log 80). -/
  walks   : List Nat := []
  /-- The errors to come, each with its core cycle (R328, log 61). -/
  upsets  : List (Nat × Upset) := []
  issue   : Issue := {}
  deriving DecidableEq, Repr

/-- Why a step stops in a state the machine does not leave. -/
inductive Fault
  /-- Raised by `step` when bring-up has halted the package at stage 2 or 4 (R349) and nothing from outside is due. Safe:
  the package does nothing more by itself until it is reset. -/
  | bootHalted (stage : Nat)
  deriving DecidableEq, Repr

/-- Why an instruction has no next state. -/
inductive Refusal
  /-- Raised by an arm of `exec` whose instruction has no meaning yet. Safe: nothing follows from it. -/
  | notModelled (mnemonic : String)
  deriving DecidableEq, Repr

/-- The package right after reset (R349, R354): every field at the value the spec gives, and at the
value log 6 names where the spec gives none. -/
def State.reset : State := {}

end Sys2Proof.Machine
end

