-- ==== Sys2Proof/Machine/Ops.lean ====
section
/-!
DEFINITION. The named operations over registers, contexts, memory and translation, and TAKING A TRAP
(R146, R147) and returning from one (R148) as one shared operation each.
-/
namespace Sys2Proof.Machine

/-! ## Causes (R143, R122) -/

/-- The trap causes. -/
inductive Cause
  | illegal | target | latch | expired | region | xlate | poison | tailnest | gang | soft | brk
  | occupancy
  deriving DecidableEq, Repr

/-- The code of a cause (R143). -/
def Cause.code : Cause → Nat
  | .illegal => 1
  | .target => 2
  | .latch => 3
  | .expired => 4
  | .region => 5
  | .xlate => 6
  | .poison => 7
  | .tailnest => 8
  | .gang => 9
  | .soft => 10
  | .brk => 11
  | .occupancy => 12

/-- The order in which one bundle's faults are reported (R122). -/
def Cause.rank : Cause → Nat
  | .target => 1
  | .brk => 2
  | .illegal => 3
  | .latch => 4
  | .gang | .tailnest => 5
  | .xlate | .region | .expired => 6
  | .occupancy => 7
  | .poison => 8
  | .soft => 9

/-- A fault of one operation: its cause, what TRAPADDR holds and the detecting slot (R144, R145). -/
structure Flt where
  cause : Cause
  addr  : Word := 0
  slot  : Nat := 0
  tcode : Nat := 0
  rl    : Bool := false
  /-- A report to Hitik that goes with it: type, function and table unit (R307). -/
  report : Option (Nat × Nat × Nat) := none
  /-- A poisoned unit that was read, which is counted (R330). -/
  ue     : Option Nat := none
  deriving DecidableEq, Repr

/-! ## Reaching the parts of the state -/

/-- Core `k`. -/
def State.core (s : State) (k : Nat) : CoreSt := Tbl.getD s.cores k {}
/-- Replace core `k`. -/
def State.setCore (s : State) (k : Nat) (c : CoreSt) : State := { s with cores := Tbl.set s.cores k c }
/-- Change core `k`. -/
def State.updCore (s : State) (k : Nat) (f : CoreSt → CoreSt) : State := s.setCore k (f (s.core k))
/-- Slot `j` of a core. -/
def CoreSt.slot (c : CoreSt) (j : Nat) : Ctx := Tbl.getD c.ctx j {}
/-- Replace slot `j` of a core. -/
def CoreSt.setSlot (c : CoreSt) (j : Nat) (x : Ctx) : CoreSt := { c with ctx := Tbl.set c.ctx j x }
/-- The context in slot `j` of core `k`. -/
def State.ctx (s : State) (k j : Nat) : Ctx := (s.core k).slot j
/-- Replace a context. -/
def State.setCtx (s : State) (k j : Nat) (x : Ctx) : State := s.updCore k (fun c => c.setSlot j x)
/-- Change a context. -/
def State.updCtx (s : State) (k j : Nat) (f : Ctx → Ctx) : State := s.setCtx k j (f (s.ctx k j))
/-- The issuing context. -/
def State.me (s : State) : Ctx := s.ctx s.issue.core s.issue.ctx
/-- The issuing core. -/
def State.myCore (s : State) : CoreSt := s.core s.issue.core
/-- Change the issuing context. -/
def State.updMe (s : State) (f : Ctx → Ctx) : State := s.updCtx s.issue.core s.issue.ctx f
/-- Change the issuing core. -/
def State.updMyCore (s : State) (f : CoreSt → CoreSt) : State := s.updCore s.issue.core f
/-- Function `f`. -/
def State.fn (s : State) (f : Nat) : Fn := Tbl.getD s.fns f {}
/-- Change function `f`. -/
def State.updFn (s : State) (f : Nat) (g : Fn → Fn) : State := { s with fns := Tbl.set s.fns f (g (s.fn f)) }
/-- Quad `q`. -/
def State.quad (s : State) (q : Nat) : Quad := Tbl.getD s.quads q {}
/-- Change quad `q`. -/
def State.updQuad (s : State) (q : Nat) (g : Quad → Quad) : State :=
  { s with quads := Tbl.set s.quads q (g (s.quad q)) }
/-- A launch by identifier. -/
def State.launch? (s : State) (l : Nat) : Option Launch := s.launches.find? (fun x => x.id == l)
/-- Change a launch. -/
def State.updLaunch (s : State) (l : Nat) (g : Launch → Launch) : State :=
  { s with launches := s.launches.map (fun x => if x.id == l then g x else x) }
/-- The function of a launch; a number that is no function for a context of none, as a Hitik context is one. -/
def State.fnOf (s : State) (l : Nat) : Nat := ((s.launch? l).map (·.fn)).getD 64
/-- A region by identifier. -/
def State.region? (s : State) (r : Nat) : Option Region := s.regions.find? (fun x => x.id == r)
/-- Change a region. -/
def State.updRegion (s : State) (r : Nat) (g : Region → Region) : State :=
  { s with regions := s.regions.map (fun x => if x.id == r then g x else x) }
/-- The tick (R46). -/
def State.now (s : State) : Nat := s.cycle / Config.cyclesPerTick
/-- A management core (R290). -/
def isHitik (k : Nat) : Bool := Config.cores ≤ k && k < Config.cores + 16
/-- Whether a key of the table of cores is a saved part of a launch. -/
def isParked (k : Nat) : Bool := 1024 ≤ k
/-- The core a key of the table stands for. -/
def realCore (k : Nat) : Nat := if k < 1024 then k else k % 1024
/-- The cluster of a core (R17). -/
def clusterOf (k : Nat) : Nat := k / 48
/-- The quad of a core (R17). -/
def quadOf (k : Nat) : Nat := k / 4
/-- Put events before the others that are due. -/
def State.push (s : State) (es : List Instr) : State := { s with agenda := es ++ s.agenda }
/-- Put events after the others that are due. -/
def State.later (s : State) (es : List Instr) : State := { s with agenda := s.agenda ++ es }

/-! ## Registers (R19, R110) -/

/-- Bits `lo` to `lo + n - 1` of a word, as a number. -/
def field {w : Nat} (x : BitVec w) (lo n : Nat) : Nat := x.toNat / 2 ^ lo % 2 ^ n
/-- The word with bits `lo` to `lo + n - 1` replaced. -/
def setField (x : Word) (lo n v : Nat) : Word :=
  x - BitVec.ofNat 64 (field x lo n * 2 ^ lo) + BitVec.ofNat 64 (v % 2 ^ n * 2 ^ lo)

/-- A scalar register; s0 reads zero (R19). -/
def Bank.getS (b : Bank) (n : Nat) : Word := if n = 0 then 0 else Tbl.getD b.s n 0
/-- Write a scalar register; a write of s0 is discarded (R19, R105). -/
def Bank.setS (b : Bank) (n : Nat) (x : Word) : Bank := if n = 0 then b else { b with s := Tbl.set b.s n x }
/-- The physical register of a vector name (R110). -/
def vphys (rbase : Word) (n : Nat) : Nat := if n < 32 then n else 32 + (n - 32 + field rbase 0 5) % 32
/-- The physical register of a predicate name (R110). -/
def pphys (rbase : Word) (n : Nat) : Nat := if n < 8 then n else 8 + (n - 8 + 2 * field rbase 8 2) % 8
/-- A physical vector register. -/
def Bank.physV (b : Bank) (n : Nat) : Vec := Tbl.getD b.v n 0
/-- A physical predicate; p0 reads all ones and p1 all zeros (R19). -/
def Bank.physP (b : Bank) (n : Nat) : Pred :=
  if n = 0 then BitVec.allOnes 128 else if n = 1 then 0 else Tbl.getD b.p n 0
/-- A vector register by name. -/
def Bank.getV (b : Bank) (n : Nat) : Vec := b.physV (vphys b.rbase n)
/-- A predicate by name. -/
def Bank.getP (b : Bank) (n : Nat) : Pred := b.physP (pphys b.rbase n)
/-- Write a physical predicate; writes of p0 and p1 are discarded (R19, R105). -/
def Bank.setP (b : Bank) (n : Nat) (x : Pred) : Bank :=
  if n = 0 ∨ n = 1 then b else { b with p := Tbl.set b.p n x }
/-- Row `r` of tile `t`. -/
def Bank.row (b : Bank) (t r : Nat) : Vec := Tbl.getD b.t (32 * t + r) 0

/-- The bank that an operation of the context numbered `n` works on: that of the context in the slot, of the caller
whose view a deferred tail keeps (R38), or of one that has ended there. -/
def Ctx.bankOf (x : Ctx) (n : Nat) : Bank :=
  if x.inst = n then x.bank
  else match (x.tail.bind (·.view)).filter (fun v => v.inst == n) with
    | some v => v.bank
    | none => ((x.left.filter (fun p => p.1 == n)).map (·.2)).getD {}
/-- Change it. -/
def Ctx.updBankOf (x : Ctx) (n : Nat) (f : Bank → Bank) : Ctx :=
  if x.inst = n then { x with bank := f x.bank }
  else { x with
    tail := x.tail.map (fun t => { t with view := t.view.map (fun v =>
      if v.inst = n then { v with bank := f v.bank } else v) })
    left := x.left.map (fun p => if p.1 = n then (p.1, f p.2) else p) }

/-- Bit `j` of the number becomes byte `j`, all ones or zero, for `n` bits. -/
def spreadNat (m : Nat) : Nat → Nat
  | 0 => 0
  | n + 1 => spreadNat m n + (if m.testBit n then 255 * 256 ^ n else 0)
/-- A predicate as a byte mask. -/
def spread (m : Pred) : Vec :=
  if m = BitVec.allOnes 128 then BitVec.allOnes 1024 else BitVec.ofNat 1024 (spreadNat m.toNat 128)
/-- The bytes of `new` where the mask bit is set, and those of `old` elsewhere (R8). -/
def mergeV (old new : Vec) (m : Pred) : Vec := (old &&& ~~~spread m) ||| (new &&& spread m)

/-! ## Results in flight (R12, R104, R105) -/

/-- Put a flight after every flight but those of a later slot of the same bundle (R105). -/
def addFlight (l : List Flight) (f : Flight) : List Flight :=
  match l with
  | [] => [f]
  | x :: r => if x.at_ = f.at_ ∧ f.slot < x.slot then f :: x :: r else x :: addFlight r f

/-- Put a flight of the issuing operation in flight. -/
def State.fly (s : State) (f : Flight) : State :=
  let f := { f with at_ := s.myCore.ic, slot := s.issue.slot.num, partner := s.issue.partner }
  s.updMe (fun x => { x with flight := addFlight x.flight f })

/-- A result of the issuing context, landing `lat` issue cycles from now. -/
def State.land (s : State) (lat : Nat) (ls : List Land) : State :=
  s.fly { due := s.myCore.ic + lat, lands := ls }

/-- A result of V slot `k` enters its latches (R111). A missing entry is an invalid latch. -/
def pushLatch (t : Tbl Vec) (k : Nat) (v : Vec) : Tbl Vec :=
  let mv (t : Tbl Vec) (dst from_ : Nat) : Tbl Vec :=
    match Tbl.find t from_ with
    | some x => Tbl.set t dst x
    | none => Tbl.erase t dst
  let t := mv t (4 * k + 3) (4 * k + 2)
  let t := mv t (4 * k + 2) (4 * k + 1)
  let t := mv t (4 * k + 1) (4 * k)
  Tbl.set t (4 * k) v

/-! ## Traps -/

/-- CTXID bits 11:0: CLUS, CORE, SLOT (R22). -/
def ctxidLow (k j : Nat) : Nat := clusterOf k * 256 + k % 48 * 4 + j

/-- The flights of a context relative to issue cycle `f` (R123). -/
def relFlight (f : Nat) (l : List Flight) : List Flight := l.map (fun x => { x with due := x.due - f })
/-- The flights of a bank, from issue cycle `f` (R123). -/
def absFlight (f : Nat) (l : List Flight) : List Flight := l.map (fun x => { x with due := x.due + f })

/-- The lands that change the landing context or its core only. The others land once it is known that
neither a freeze nor a trap of their cycle keeps them back (R104, R123, log 77). -/
def Land.isLocal : Land → Bool
  | .barBind .. | .barUnbind .. | .sublet .. | .acquire => false
  | .mts n _ => decide (n < 0x800)
  | _ => true

/-- Whether a land enters a latch. -/
def Land.isLatch : Land → Bool
  | .latch .. => true
  | _ => false

/-- A word from values at bit positions. -/
def put (l : List (Nat × Nat)) : Word := BitVec.ofNat 64 (l.foldl (fun a x => a + x.2 * 2 ^ x.1) 0)

/-- The bank `u` from before some landings, with what engines have written since as it is in `now`. -/
def Bank.before (u now : Bank) : Bank :=
  { u with t := now.t, acc := now.acc, arrGen := now.arrGen, mstat := now.mstat }

/-- A register of saturating counters, given as (first bit, width), that goes back to `old` from a written value,
with what was counted since. -/
def backTo (parts : List (Nat × Nat)) (old wrote now : Word) : Word :=
  put (parts.map (fun p =>
    (p.1, min (2 ^ p.2 - 1) (field old p.1 p.2 + (field now p.1 p.2 - field wrote p.1 p.2)))))

/-- Whether a land changes what the contexts of a core share: a latch, FREEZE, EXCLCNT or BANKFMT. -/
def Land.onCore : Land → Bool
  | .latch .. => true
  | .mts n _ => n == 0x008 || n == 0x014 || (decide (0x030 ≤ n) && decide (n < 0x050))
  | _ => false

/-- Note the lands of a slot in an issue cycle that change what the contexts of the core share. -/
def CoreSt.noteLands (c : CoreSt) (j : Nat) (ls : List Land) : CoreSt :=
  let new : LandNote := { cycle := c.ic, latches := c.latches, freeze := c.freeze, exclcnt := c.exclcnt
                          bankfmt := c.bankfmt }
  let n := (c.note.filter (fun n => n.cycle == c.ic)).getD new
  { c with note := some { n with entered := n.entered ++ (ls.filter Land.onCore).map (fun l => (j, l)) } }

/-- The latches after some of the lands of a cycle, entered in their order (R111). -/
def LandNote.latchesAfter (n : LandNote) (ls : List (Nat × Land)) : Tbl Vec :=
  ls.foldl (fun t p => match p.2 with
    | .latch k v => pushLatch t k v
    | _ => t) n.latches

/-- A register of the core after some of the lands of a cycle. -/
def mtsAfter (n : Nat) (old : Word) (ls : List (Nat × Land)) : Word :=
  ls.foldl (fun w p => match p.2 with
    | .mts m v => if m = n then v else w
    | _ => w) old

/-- What the contexts of a core share without the landings of slot `j` in issue cycle `f`: those of the other slots stay, in
their order, and so does what was counted since. A doubles partner leaves the latches as they are (R30, R105, R123). -/
def CoreSt.withoutLands (c : CoreSt) (j f : Nat) (partner : Bool) : CoreSt :=
  match c.note.filter (fun n => n.cycle == f) with
  | none => c
  | some n =>
      let kept := n.entered.filter (fun p => p.1 != j || (partner && p.2.isLatch))
      let back (parts : List (Nat × Nat)) (m : Nat) (old now : Word) : Word :=
        if n.entered.any (fun p => p.1 == j && (match p.2 with
          | .mts r _ => r == m
          | _ => false)) then backTo parts (mtsAfter m old kept) (mtsAfter m old n.entered) now else now
      { c with
        latches := if partner then c.latches else n.latchesAfter kept
        freeze := back [(0, 16), (16, 16), (32, 16), (48, 16)] 0x008 n.freeze c.freeze
        exclcnt := back [(0, 32), (32, 16)] 0x014 n.exclcnt c.exclcnt
        bankfmt := (List.range 32).foldl (fun t i =>
          if n.entered.any (fun p => p.1 == j && (match p.2 with
            | .mts r _ => r == 0x030 + i
            | _ => false)) then Tbl.set t i (mtsAfter (0x030 + i) (Tbl.getD n.bankfmt i 0) kept) else t) c.bankfmt
        note := some { n with entered := kept } }

/-- The context as it was before the landings of issue cycle `f`, which go back into flight (R123). A
doubles partner leaves the core's latches as they are. -/
def undoLandings (s : State) (k j f : Nat) (partner : Bool) : State :=
  let c := s.core k
  let x := c.slot j
  match x.undo with
  | none => s
  | some u =>
      if u.cycle ≠ f then s
      else
        s.setCore k ((c.withoutLands j f partner).setSlot j
          { x with bank := u.bank.before x.bank, trap := u.trap, tfault := u.tfault || x.tfault, undo := none
                   poisonDue := if u.landed.any (fun f => f.poison.isSome) then none else x.poisonDue
                   flight := u.landed.map (fun f =>
                     { f with lands := f.lands.filter (fun l => !(partner && l.isLatch)) })
                     ++ x.flight })

/-- The bank a trap, a page wait or a full save keeps: everything in flight relative to `f` (R123). -/
def saveBank (s : State) (k j f : Nat) (partner : Bool) (pc : Word) (rep : Nat) : Saved :=
  let c := s.core k
  let x := c.slot j
  { flight := relFlight f x.flight, latches := if partner then [] else c.latches
    sticky := x.sticky, rep := rep, pc := pc, srstate := BitVec.ofNat 64 (field x.bank.fpflags 32 32) }

/-- TRAPINFO (R144). -/
def trapInfo (flt : Flt) (rep grank : Nat) (other : Bool) : Word :=
  BitVec.ofNat 64 (flt.tcode % 2 ^ 32 * 2 ^ 32 + (if flt.rl then 2 ^ 17 else 0) + grank % 32 * 4096
    + (if other then 2048 else 0) + flt.slot * 256 + rep % 256)

/-- A record for Hitik (R307). -/
def State.hevent (s : State) (e : HEvent) : State := { s with hevents := s.hevents ++ [e] }

/-- ESCALATE (R147, R307, R308): the context waits for Hitik with its state in the hold bank; on a
management core the core stops (R290). `f` is the trap cycle and `pc` the resume point. -/
def escalate (s : State) (k j f : Nat) (partner : Bool) (flt : Flt) (pc : Word) (rep : Nat) : State :=
  let x := s.ctx k j
  if isHitik k then s.updCore k (fun c => { c with stopped := true })
  else
    let b := saveBank s k j f partner pc rep
    let s := s.setCtx k j { x with state := .waiting, wait := some .escalated, hold := some b, pc := pc, rep := rep
                                   flight := [], undo := none, badPages := [], blocked := false
                                   bpSkip := flt.cause = .brk
                                   escd := true }
    let s := if x.escd then s else s.updLaunch x.launch (fun l => { l with esc := l.esc + 1 })
    let s := if partner then s else s.updCore k (fun c => { c with latches := [] })
    s.hevent { type := 1, fn := s.fnOf x.launch, ctxid := ctxidLow k j
               serial := ((s.launch? x.launch).map (·.serial)).getD 0, cause := flt.cause.code
               inCause := if x.trap.isIn then x.trap.cause else 0, resume := pc, addr := flt.addr }

/-- TRAP ENTRY (R146) of the context in slot `j` of core `k`. `f` is the trap cycle, `pc` the resume
point and `rep` the repetition; the handler's first bundle issues in f + 3. TRAPPC has no bits 2:0: those of a TARGET
whose address is not 8-aligned show in TRAPADDR alone (R144, R145; log 82, DESIGN CHOICE). A TAILS of the spawner
shows TFAULT from the cycle after `f` (R39). -/
def enterTrap (s : State) (k j f : Nat) (partner : Bool) (flt : Flt) (pc : Word) (rep : Nat)
    (grank : Nat := 0) (other : Bool := false) : State :=
  let s := undoLandings s k j f partner
  let x := s.ctx k j
  if x.trap.isIn || x.trap.vec = 0 then escalate s k j f partner flt pc rep
  else
    let b := saveBank s k j f partner pc rep
    let t : TrapRegs :=
      { x.trap with isIn := true, cause := flt.cause.code, pc := pc &&& ~~~7
                    info := trapInfo flt rep grank other, addr := flt.addr, pcWritten := false }
    let s := s.setCtx k j { x with snap := some b, trap := t, sticky := [], flight := [], rep := 0
                                   pc := x.trap.vec, notBefore := f + 3, wait := none, undo := none, badPages := []
                                   blocked := false, target := false }
    let s := if partner then s else s.updCore k (fun c => { c with latches := [] })
    match x.tail with
    | some tl =>
        if flt.cause = .soft ∨ flt.cause = .brk then s
        else s.updCtx k tl.spawner (fun y => { y with tfault := true, tfaultFrom := if y.tfault then y.tfaultFrom else f + 1 })
    | none => s

/-- REPLAY of a bank from issue cycle `f` (R123, R303, R308). -/
def replay (s : State) (k j f : Nat) (b : Saved) (latches : Bool) : State :=
  let s := s.updCtx k j (fun x => { x with flight := x.flight ++ absFlight f b.flight })
  if latches then s.updCore k (fun c => { c with
    latches := b.latches
    note := c.note.map (fun n => { n with
      latches := b.latches, entered := n.entered.filter (fun p => !p.2.isLatch) }) }) else s

/-- RETURN FROM A TRAP (R148), once its drain is over: the issuing context goes back to TRAPPC, with
its snapshot replayed from `f'`, three issue cycles on. -/
def returnFromTrap (s : State) (k j : Nat) : State :=
  let c := s.core k
  let x := c.slot j
  match x.snap with
  | none => s
  | some b =>
      let st := if x.trap.pcWritten then [] else b.sticky
      let rp := if x.trap.pcWritten then 0 else b.rep
      let fp := setField x.bank.fpflags 32 32 b.srstate.toNat
      let s := s.setCtx k j { x with snap := none, trap := { x.trap with isIn := false }, pc := x.trap.pc
                                     sticky := st, rep := rp, notBefore := c.ic + 3, target := true, bpSkip := !x.trap.pcWritten && x.trap.cause == 11
                                     bank := { x.bank with fpflags := fp } }
      replay s k j (c.ic + 3) b (!s.issue.partner)

/-! ## Device-physical memory (R296, R309) -/

/-- The tier and the core of a device-physical address. -/
def dpaHome (a : Nat) : Option (Nat × Nat) :=
  if a < 0xC000000000 then some (2, a / 1073741824)
  else if a < 0xC180000000 then some (1, (a - 0xC000000000) / 8388608)
  else if 0xC200000000 ≤ a && a < 0xC20C000000 then some (0, (a - 0xC200000000) / 262144)
  else none

/-- Whether a device-physical byte lies in a poisoned unit. -/
def State.poisoned (s : State) (a : Nat) : Bool := s.poison.contains (a / 64 * 64)
/-- The first poisoned unit of `n` bytes from `a`. -/
def State.poisonIn (s : State) (a n : Nat) : Option Nat :=
  if s.poison.isEmpty then none
  else s.poison.find? (fun u => u + 64 > a && u < a + n)

/-- Count an uncorrectable error in memory (R330, R332). -/
def State.countUe (s : State) (u : Nat) : State :=
  { s with errUe := min (s.errUe + 1) 0xFFFFF, errAddr := u, errValid := true }
/-- Count a corrected error (R330, R331). -/
def State.countCe (s : State) : State := { s with errCe := min (s.errCe + 1) 0xFFFFF }

/-- Make units poisoned (R202, R329). -/
def State.addPoison (s : State) (us : List Nat) : State :=
  { s with poison := s.poison ++ us.filter (fun u => !s.poison.contains u) }

/-- A unit's wrong symbol is put right and counted (R330). -/
def State.correct (s : State) (u : Nat) : State :=
  if (Tbl.find s.wrong u).isSome then { s.countCe with wrong := Tbl.erase s.wrong u } else s

/-- A unit is read and checked: a wrong symbol is put right, a poisoned unit counted (R330). -/
def State.checkUnit (s : State) (u : Nat) : State := if s.poisoned u then s.countUe u else s.correct u

/-- The 64-byte units of `n` bytes from `a`, each as (address, length): rights are uniform within one. -/
def unitsOf (a n : Nat) : List (Nat × Nat) :=
  if n = 0 then []
  else
    let u0 := a / 64
    let u1 := (a + n - 1) / 64
    (List.range (u1 - u0 + 1)).map (fun i =>
      let lo := max a ((u0 + i) * 64)
      let hi := min (a + n) ((u0 + i + 1) * 64)
      (lo, hi - lo))

/-- `n` bytes are read from a device-physical address: every unit of them is checked (R328, R330). -/
def State.checkRead (s : State) (a n : Nat) : State :=
  if s.poison.isEmpty && s.wrong.isEmpty then s
  else (unitsOf a n).foldl (fun s u => s.checkUnit (u.1 / 64 * 64)) s

/-- Put bytes into the array; a write that covers a whole unit clears its poison (R309). -/
def State.putBytes (s : State) (a : Nat) (bs : List Byte) : State :=
  let n := bs.length
  { s with mem := Memory.writeBytes s.mem a bs
           poison := s.poison.filter (fun u => !(a ≤ u && u + 64 ≤ a + n)) }

/-- A write within one unit: one that arrives uncorrectable is dropped, poisons the unit and is counted; a wrong symbol
of the stored unit is put right before the merge (R329). -/
def State.writeUnit (s : State) (a : Nat) (bs : List Byte) : State :=
  let u := a / 64 * 64
  if s.badWrites.contains u then
    (({ s with badWrites := s.badWrites.erase u, wrong := Tbl.erase s.wrong u } : State).addPoison [u]).countUe u
  else
    let s := if bs.length < 64 then s.correct u else s
    ({ s with wrong := Tbl.erase s.wrong u } : State).putBytes a bs

/-- Write device-physical bytes (R309, R329). -/
def State.writeDpa (s : State) (a : Nat) (bs : List Byte) : State :=
  if s.wrong.isEmpty && s.badWrites.isEmpty then s.putBytes a bs
  else (unitsOf a bs.length).foldl (fun s u => s.writeUnit u.1 ((bs.drop (u.1 - a)).take u.2)) s

/-- `n` bytes from `a` are scrubbed: they read zero in both views and hold no error (R66, R243). -/
def State.scrub (s : State) (a n : Nat) : State :=
  let kept (u : Nat) : Bool := !(a ≤ u && u < a + n)
  let s := match dpaHome a with
    | some (1, h) => s.updCore h (fun c => { c with xview := c.xview.filter (fun e => kept e.unit) })
    | _ => s
  { s with mem := Memory.clear s.mem a (a + n), poison := s.poison.filter kept
           wrong := s.wrong.filter (fun p => kept p.1), badWrites := s.badWrites.filter kept }

/-- The cores of a partition, ascending (R296). -/
def State.partCores (s : State) (p : Nat) : List Nat :=
  (List.range 192).flatMap (fun q =>
    let d := s.quad q
    if d.valid && d.part == p then [4 * q, 4 * q + 1, 4 * q + 2, 4 * q + 3] else [])

/-- The device-physical address of a partition offset (R296). -/
def State.partDpa (s : State) (p o : Nat) : Option Nat :=
  (s.partCores p)[o / 1073741824]?.map (fun k => k * 1073741824 + o % 1073741824)

/-- The partition offset of a device-physical tier 2 address, if its core is in the partition. -/
def State.dpaPart (s : State) (p a : Nat) : Option Nat :=
  (s.partCores p).idxOf? (a / 1073741824) |>.map (fun i => i * 1073741824 + a % 1073741824)

/-- Whether a tier 2 address lies in a function's window (R296, R356). -/
def State.inWindow (s : State) (f a : Nat) : Bool :=
  let d := s.fn f
  let lo := field d.window 0 24 * 65536
  let hi := lo + field d.window 24 24 * 65536
  match s.dpaPart d.part a with
  | some o => lo ≤ o && o < hi
  | none => false

/-! ## Page tables (R293 to R298) -/

/-- A table entry (R293). -/
structure Pte where
  addr : Nat
  wr : Bool
  rd : Bool
  kind : Nat
  size : Nat
  leaf : Bool
  v : Bool
  reserved : Bool
  deriving DecidableEq, Repr

/-- Split a table entry (R293). -/
def pteOf (e : Nat) : Pte :=
  let w := BitVec.ofNat 64 e
  { addr := field w 12 36 * 4096, wr := bit w 8, rd := bit w 7, kind := field w 5 2, size := field w 2 3
    leaf := bit w 1, v := bit w 0, reserved := field w 48 16 != 0 || field w 9 3 != 0 }

/-- Page size of a size code (R294). -/
def pageSize (c : Nat) : Nat :=
  match c with
  | 0 => 4096
  | 1 => 16384
  | 2 => 65536
  | 3 => 262144
  | 4 => 2097152
  | 5 => 33554432
  | 6 => 268435456
  | _ => 1073741824

/-- The level a leaf of a size code stands at (R294). -/
def sizeLevel (c : Nat) : Nat := if c < 4 then 0 else if c < 7 then 1 else 2

/-- Whether a valid entry is malformed at a level (R294). -/
def Pte.malformed (e : Pte) (lvl : Nat) (stage1 : Bool) : Bool :=
  e.reserved || (e.kind != 0 && !(stage1 && e.leaf)) || (stage1 && e.leaf && e.kind == 3)
    || (e.leaf && lvl == 3) || (!e.leaf && lvl == 0)
    || (e.leaf && (sizeLevel e.size != lvl || e.addr % pageSize e.size != 0))

/-- What a walk finds. -/
inductive WalkR
  | leaf (e : TlbEntry)
  | none
  | malformed (unit : Nat)
  | poison (unit : Nat)
  /-- A table of stage 1 misses stage 2, at a guest-physical address. -/
  | miss (gpa : Nat)
  /-- A table of stage 1 meets a bad stage-2 entry. -/
  | s2bad (unit : Nat)
  deriving DecidableEq, Repr

/-- What translating a table's address gives. -/
inductive TableAt
  | dpa (a : Nat)
  | miss (gpa : Nat)
  | s2bad (unit : Nat)
  | outside (unit : Nat)
  deriving DecidableEq, Repr

/-- Walk the levels of one stage; `tr` finds each table, and a leaf must pass `ok`, else it is malformed (R293, R295 to
R297). -/
def walkLevels (s : State) (tr : Nat → TableAt) (ok : TlbEntry → Bool) (stage1 : Bool) (a g : Nat) : List Nat → WalkR
  | [] => .none
  | lvl :: rest =>
      match tr g with
      | .miss p => .miss p
      | .s2bad u => .s2bad u
      | .outside u => .malformed u
      | .dpa t =>
          let ea := t + 8 * (a / 2 ^ (12 + 9 * lvl) % 512)
          if s.poisoned ea then .poison (ea / 64 * 64)
          else
            let e := pteOf (ofBytes (Memory.bytes s.mem ea 8))
            if !e.v then .none
            else if e.malformed lvl stage1 then .malformed (ea / 64 * 64)
            else if e.leaf then
              let n := pageSize e.size
              let l : TlbEntry :=
                { stage1, page := a / n * n, size := n, out := e.addr, rd := e.rd, wr := e.wr, kind := e.kind }
              if ok l then .leaf l else .malformed (ea / 64 * 64)
            else walkLevels s tr ok stage1 a e.addr rest

/-- A cached leaf of a stage (R299, R314). -/
def Fn.cached (d : Fn) (stage1 : Bool) (a : Nat) : Option TlbEntry :=
  d.tlb.find? (fun e => e.stage1 == stage1 && e.page ≤ a && a < e.page + e.size)

/-- Whether the whole page of a leaf lies in a function's window (R295, R296). -/
def State.leafInside (s : State) (f : Nat) (e : TlbEntry) : Bool :=
  s.inWindow f e.out && s.inWindow f (e.out + e.size - 1)

/-- Stage 2 of a function at a guest-physical address; a leaf outside the window is malformed (R295). -/
def walk2 (s : State) (f gpa : Nat) : WalkR :=
  let d := s.fn f
  match d.cached false gpa with
  | some e => .leaf e
  | none =>
      walkLevels s (fun g => .dpa g) (s.leafInside f) false gpa (field d.s2root 12 36 * 4096) [3, 2, 1, 0]

/-- Where a guest-physical address lies: device-physical for the physical function (R295). -/
def gpaAt (s : State) (f gpa : Nat) (write : Bool) : TableAt :=
  if f = 0 then (if s.inWindow 0 gpa then .dpa gpa else .outside (gpa / 64 * 64))
  else
    match walk2 s f gpa with
    | .leaf e =>
        if (if write then e.wr else e.rd) then .dpa (e.out + (gpa - e.page)) else .miss gpa
    | .malformed u => .s2bad u
    | .poison u => .s2bad u
    | _ => .miss gpa

/-- Stage 1 of a function at a virtual address (R292, R297); a leaf of the physical function maps inside its window, else
it is malformed (R295). -/
def walk1 (s : State) (f va : Nat) : WalkR :=
  let d := s.fn f
  match d.cached true va with
  | some e => .leaf e
  | none =>
      if !bit d.s1root 0 then .none
      else walkLevels s (fun g => gpaAt s f g false) (fun e => f != 0 || s.leafInside 0 e) true va
        (field d.s1root 12 36 * 4096) [3, 2, 1, 0]

/-! ## Address rights (R52, R62, R63, R292) -/

/-- The tables a walk of one stage reads, each by its address and the device-physical address of the entry read, in its
order (R297). -/
def walkTables (s : State) (tr : Nat → TableAt) (stage1 : Bool) (a g : Nat) : List Nat → List (Nat × Nat)
  | [] => []
  | lvl :: rest =>
      match tr g with
      | .dpa t =>
          let ea := t + 8 * (a / 2 ^ (12 + 9 * lvl) % 512)
          let e := pteOf (ofBytes (Memory.bytes s.mem ea 8))
          (g, ea) :: (if s.poisoned ea || !e.v || e.leaf || e.malformed lvl stage1 then []
            else walkTables s tr stage1 a e.addr rest)
      | _ => []

/-- The entries stage 2 of a function reads for a guest-physical address. -/
def walk2Reads (s : State) (f gpa : Nat) : List Nat :=
  let d := s.fn f
  if f = 0 || (d.cached false gpa).isSome then []
  else (walkTables s (fun g => .dpa g) false gpa (field d.s2root 12 36 * 4096) [3, 2, 1, 0]).map (·.2)

/-- The tables stage 1 of a function reads for a virtual address. -/
def walk1Tables (s : State) (f va : Nat) : List (Nat × Nat) :=
  let d := s.fn f
  if (d.cached true va).isSome || !bit d.s1root 0 then []
  else walkTables s (fun g => gpaAt s f g false) true va (field d.s1root 12 36 * 4096) [3, 2, 1, 0]

/-- The entries that a walk read are checked: a wrong symbol is put right (R330). -/
def checkEntries (s : State) (l : List Nat) : State :=
  if s.wrong.isEmpty then s else l.foldl (fun s a => s.correct (a / 64 * 64)) s

/-- Who makes an access. -/
structure Who where
  launch : Nat
  lindex : Nat
  deriving DecidableEq, Repr

/-- Where a byte lies: device-physical address, tier, home, page kind, and the region it is rented in. -/
structure Hit where
  dpa    : Nat
  tier   : Nat
  home   : Nat
  kind   : Nat
  region : Option Nat := none
  code   : Bool := false
  gpa    : Option Nat := none
  deriving DecidableEq, Repr

/-- What a virtual byte address gives. -/
inductive Xl
  | hit (h : Hit)
  | bad (c : Cause)
  | pend (base : Nat)
  /-- Stage 2 is missed at a guest-physical address: by the access, or by the read of a table of stage 1, which writes
  nothing (R300). -/
  | miss (fn gpa : Nat) (write : Bool)
  | s2bad (fn unit : Nat)
  | tblPoison (fn unit : Nat)
  deriving DecidableEq, Repr

/-- The device-physical byte at an offset of a list of pieces. -/
def pieceAt : List (Nat × Nat) → Nat → Option Nat
  | [], _ => none
  | (a, n) :: r, o => if o < n then some (a + o) else pieceAt r (o - n)

/-- Whether `a` lies in `[b, b + n)`. -/
def within (a b n : Nat) : Bool := b ≤ a && a < b + n

/-- The part of a region that holds the byte at `va`. A tier 2 entry of a virtual function maps to a contiguous
guest-physical range (R292), whose stage 2 is the device's own map of the region's granules: it never misses (R297,
log 70). -/
def Region.hit (r : Region) (va : Nat) : Xl :=
  match pieceAt r.pieces (va - r.base) with
  | none => .bad .xlate
  | some a =>
      match dpaHome a with
      | none => .bad .xlate
      | some (t, k) => .hit { dpa := a, tier := t, home := k, kind := r.kind, region := some r.id
                              gpa := r.gpa.map (· + (va - r.base)) }

/-- Whether the context holds the region itself (R51, R52). -/
def Region.heldBy (r : Region) (w : Who) : Bool :=
  r.owner == w.launch && !r.unmapped && (r.launchScope || r.renter == w.lindex)

/-- The sublet of a region through which the context holds the byte at `va` (R59). -/
def Region.subFor (r : Region) (w : Who) (va : Nat) : Option Sublet :=
  r.subs.find? (fun u => u.granted && within va u.base u.len &&
    (if u.toLaunch then u.grantee == w.launch else r.owner == w.launch && u.grantee == w.lindex))

/-- The table-mapped byte at `va` (R292, R297, R298). -/
def tableByte (s : State) (f va : Nat) (write : Bool) : Xl :=
  match walk1 s f va with
  | .none => .bad .xlate
  | .malformed _ => .bad .xlate
  | .poison u => .tblPoison f u
  | .miss g => .miss f g false
  | .s2bad u => .s2bad f u
  | .leaf e =>
      if !(if write then e.wr else e.rd) then .bad .region
      else
        let g := e.out + (va - e.page)
        match gpaAt s f g write with
        | .dpa a =>
            match dpaHome a with
            | some (t, k) => .hit { dpa := a, tier := t, home := k, kind := e.kind, gpa := some g }
            | none => .bad .xlate
        | .miss p => .miss f p write
        | .s2bad u => .s2bad f u
        | .outside _ => .bad .xlate

/-- The byte at `va` where the range entries of the launch's address space map it, or say that it is gone (R52, R62, R63,
R292). -/
def entryByte (s : State) (w : Who) (va : Nat) (write : Bool) : Option Xl :=
  match s.regions.find? (fun r => within va r.base r.len && (r.heldBy w || (r.subFor w va).isSome)) with
  | some r => some (r.hit va)
  | none =>
      match s.pendings.find? (fun p => p.launch == w.launch && within va p.base p.len) with
      | some p => some (if p.failed then .bad .expired else .pend p.base)
      | none =>
          if s.ended.any (fun e => e.launch == w.launch && within va e.base e.len
              && (match e.lindex with
                  | none => true
                  | some i => i == w.lindex)) then some (.bad .expired)
          else if s.regions.any (fun r => r.owner == w.launch && !r.unmapped && within va r.base r.len)
          then some (.bad .region)
          else
            match s.launch? w.launch with
            | none => some (.bad .xlate)
            | some l =>
                let (cb, cl, cd) := l.code
                if within va cb cl then
                  some (if write then .bad .region
                    else .hit { dpa := cd + (va - cb), tier := 2, home := cd / 1073741824, kind := 1, code := true })
                else none

/-- The byte at virtual address `va` for an access by `w` (R52, R62, R63, R292). -/
def xlate (s : State) (w : Who) (va : Nat) (write : Bool) : Xl :=
  if va ≥ 2 ^ 48 then .bad .xlate else (entryByte s w va write).getD (tableByte s (s.fnOf w.launch) va write)

/-- Whether an access to a virtual address walks the tables: no range entry and no cached leaf of stage 1 answers it (R292,
R303). -/
def walksFor (s : State) (w : Who) (va : Nat) : Bool :=
  let d := s.fn (s.fnOf w.launch)
  decide (va < 2 ^ 48) && (entryByte s w va false).isNone && (d.cached true va).isNone && bit d.s1root 0

/-- A Hitik access to device-physical memory (R290, R296). -/
def xlateHitik (a : Nat) : Xl :=
  match dpaHome a with
  | some (t, k) => .hit { dpa := a, tier := t, home := k, kind := 0 }
  | none => .bad .xlate

/-- Who the context in slot `j` of core `k` is. -/
def State.who (s : State) (k j : Nat) : Who :=
  let x := s.ctx k j
  { launch := x.launch, lindex := x.lindex }

/-- Whether a live barrier cell holds the device-physical byte (R220). -/
def State.boundCell (s : State) (a : Nat) : Bool :=
  s.barriers.any (fun b => !b.broken && within a b.dpa 8)

/-! ## Ranges of bytes -/

/-- The kind of access whose rights are checked. -/
inductive Acc
  /-- An S or V access: no tier 0, no scratchpad of another cluster (R47, R112). -/
  | bundle
  /-- TLD, TST and RINGSET: tier 1 of the issuing core only (R174, R191). -/
  | tile
  /-- ACCLD and ACCST: no tier 0, no scratchpad of another cluster (R112, R186). -/
  | acc
  /-- A command (R112). -/
  | cmd
  deriving DecidableEq, Repr

/-- The rights of one byte for an access of core `k` (R47, R112, R191, R220). -/
def byteRights (s : State) (k : Nat) (w : Who) (p : Acc) (va : Nat) (write : Bool) : Xl :=
  let x := if isHitik k then xlateHitik va else xlate s w va write
  match x with
  | .hit h =>
      let ok :=
        isHitik k ||
        (match p with
         | .bundle | .acc => h.tier == 2 || (h.tier == 1 && clusterOf h.home == clusterOf k)
         | .tile => h.tier == 1 && h.home == k && h.region.isSome
         | .cmd => true)
      if !ok then .bad .region
      else if write && s.boundCell h.dpa && !isHitik k then .bad .region else .hit h
  | y => y

/-- Every part of a range that is not allowed, lowest address first, with what it gives. Bound cells
are looked for byte by byte, every other right by 64-byte unit. -/
def nonHits (s : State) (k : Nat) (w : Who) (p : Acc) (write : Bool) (a n : Nat) : List (Nat × Xl) :=
  let us := if s.barriers.isEmpty || !write then unitsOf a n else (List.range n).map (fun i => (a + i, 1))
  us.filterMap (fun u =>
    match byteRights s k w p u.1 write with
    | .hit _ => none
    | x => some (u.1, x))

/-- The device-physical address of a byte, where the access is allowed. -/
def dpaOf (s : State) (k : Nat) (w : Who) (p : Acc) (write : Bool) (a : Nat) : Option Hit :=
  match byteRights s k w p a write with
  | .hit h => some h
  | _ => none

/-- The byte at a virtual address; zero where the access is not allowed, which a checked access is. -/
def readVa (s : State) (k : Nat) (w : Who) (p : Acc) (a : Nat) : Byte :=
  match dpaOf s k w p false a with
  | some h => Memory.read s.mem h.dpa
  | none => 0

/-- The range's segments in device-physical memory, each (virtual, device-physical, length). -/
def segsOf (s : State) (k : Nat) (w : Who) (p : Acc) (write : Bool) (a n : Nat) :
    List (Nat × Hit × Nat) :=
  (unitsOf a n).filterMap (fun u => (dpaOf s k w p write u.1).map (fun h => (u.1, h, u.2)))

/-- The bytes of a checked range. -/
def readRange (s : State) (k : Nat) (w : Who) (p : Acc) (a n : Nat) : List Byte :=
  (segsOf s k w p false a n).flatMap (fun g => Memory.bytes s.mem g.2.1.dpa g.2.2)

/-- The first poisoned unit of a checked range. -/
def poisonRange (s : State) (k : Nat) (w : Who) (p : Acc) (a n : Nat) : Option Nat :=
  if s.poison.isEmpty then none
  else (segsOf s k w p false a n).findSome? (fun g => (s.poisonIn g.2.1.dpa g.2.2).map (fun _ => g.1 / 64 * 64))

/-- The leaves an access caches: that of stage 1, and those of stage 2 for the page and for each table of stage 1 that
the walk read (R299, R314). -/
def leavesOf (s : State) (f va : Nat) : List TlbEntry :=
  match walk1 s f va with
  | .leaf e =>
      e :: (if f = 0 then [] else
        ((walk1Tables s f va).map (·.1) ++ [e.out + (va - e.page)]).filterMap (fun g => match walk2 s f g with
          | .leaf e2 => some e2
          | _ => none))
  | _ => []

/-- Cache the leaves of a byte that function `f`'s tables map (R314). -/
def fillFn (s : State) (f : Nat) (h : Hit) (va : Nat) : State :=
  if h.gpa.isNone || h.region.isSome then s
  else
    let s := checkEntries s ((walk1Tables s f va).flatMap (fun t => walk2Reads s f t.1 ++ [t.2])
      ++ walk2Reads s f (h.gpa.getD 0))
    let new := (leavesOf s f va).filter (fun e => !(s.fn f).tlb.contains e)
    s.updFn f (fun d => { d with tlb := d.tlb ++ new })

/-- Cache the leaves of a table-mapped byte of a context's or a command's access (R314). -/
def fillTlb (s : State) (w : Who) (h : Hit) (va : Nat) : State := fillFn s (s.fnOf w.launch) h va

/-! ## Tokens (R342) and dirty tracking (R311) -/

/-- The bucket of a function at core `k`'s controller (R342). -/
def State.bucket (s : State) (f k : Nat) : Bucket :=
  Tbl.getD (s.core k).tokens f { tokens := ((Tbl.getD (s.fn f).tbkt (quadOf k) (0xFFFF, 0)).1 : Int) }

/-- RATE of a function's buckets in the quad of core `k`; 0 is off (R342). -/
def State.tokenRate (s : State) (f k : Nat) : Nat := (Tbl.getD (s.fn f).tbkt (quadOf k) (0xFFFF, 0)).2

/-- Take `n` tokens of a function at core `k`'s controller; what is not there is waited for (R342). -/
def takeTokens (s : State) (f k n : Nat) : State × List Ticket :=
  if s.tokenRate f k = 0 then (s, [])
  else
    let b := s.bucket f k
    let b := { tokens := b.tokens - n, asked := b.asked + n }
    (s.updCore k (fun c => { c with tokens := Tbl.set c.tokens f b }), if b.tokens < 0 then [(k, f, b.asked)] else [])

/-- Whether units that waited have their tokens: waiting units of a tenant are served in arrival order (R342). -/
def State.tokensThere (s : State) (t : Ticket) : Bool :=
  let b := s.bucket t.2.1 t.1
  s.tokenRate t.2.1 t.1 == 0 || decide ((t.2.2 : Int) ≤ b.asked + min b.tokens 0)

/-- Take the tokens of every tier 2 unit of some segments. -/
def takeAll (s : State) (f : Nat) (segs : List (Nat × Hit × Nat)) : State × List Ticket :=
  segs.foldl (fun acc g =>
    if g.2.1.tier = 2 then
      let r := takeTokens acc.1 f g.2.1.home 1
      (r.1, acc.2 ++ r.2)
    else acc) (s, [])

/-- Set the dirty bit of a tier 2 write of a function: a write of one byte (R311, R329). -/
def markDirty (s : State) (f : Nat) (h : Hit) : State :=
  let d := s.fn f
  if !bit d.dirty 0 || h.tier ≠ 2 then s
  else
    let g :=
      if f = 0 then s.dpaPart d.part h.dpa
      else match h.gpa with
        | some g => some g
        | none => s.dpaPart d.part h.dpa
    match g with
    | none => s
    | some g =>
        let a := field d.dirty 3 45 * 8 + g / 2 ^ 19
        let b := Memory.read s.mem a
        s.writeDpa a [b ||| BitVec.ofNat 8 (2 ^ (g / 65536 % 8))]

/-! ## Interrupts (R338) -/

/-- An entry of a function's MSI-X table. -/
def Fn.vector (d : Fn) (v : Nat) : MsixEntry := Tbl.getD d.msix v {}

/-- A vector sends its message, or its pending bit is set while it is masked (R338). -/
def sendVector (s : State) (f v : Nat) : State :=
  if ((s.fn f).vector v).mask then s.updFn f (fun d => { d with pba := d.pba ||| BitVec.ofNat 4 (2 ^ v) })
  else { s with msixSent := s.msixSent ++ [(f, v)] }

/-- CAUSE bit `b` is raised: its vector sends when it goes from 0 to 1; vector 0 follows COAL (R338). -/
def raiseCause (s : State) (f b : Nat) : State :=
  let was := (s.fn f).causeR.getLsbD b
  let s := s.updFn f (fun d => { d with causeR := d.causeR ||| BitVec.ofNat 4 (2 ^ b) })
  if was || b == 0 then s else sendVector s f b

/-- CAUSE.OVR (R338). -/
def causeOvr : Nat := 1
/-- CAUSE.ERR. -/
def causeErr : Nat := 2
/-- CAUSE.MBOX. -/
def causeMbox : Nat := 3

/-! ## Free values and choices (log 5, log 7) -/

/-- The next free value. -/
def State.drawFree (s : State) : State × Word := ({ s with free := s.free + 1 }, Config.freeValue s.free)

/-- The next choice an implementation makes, or `d`. -/
def State.choose (s : State) (d : Nat) : State × Nat :=
  match s.oracle with
  | [] => (s, d)
  | x :: r => ({ s with oracle := r }, x)

end Sys2Proof.Machine
end

