-- ==== Sys2Proof/Machine/Flags.lean ====
section
/-!
DEFINITION. FPFLAGS: the sticky flags, the rounding modes and the generator of stochastic rounding
(R80, R82, R83).
-/
namespace Sys2Proof.Machine

/-- Raised flags, as FPFLAGS bits 5:0 (R83). -/
abbrev Flags := Nat
/-- Invalid. -/
def fNV : Flags := 1
/-- Division by zero. -/
def fDZ : Flags := 2
/-- Overflow. -/
def fOF : Flags := 4
/-- Underflow. -/
def fUF : Flags := 8
/-- Inexact. -/
def fNX : Flags := 16
/-- Integer division by zero. -/
def fIDZ : Flags := 32

/-- A rounding, with the draw of a stochastic one (R80, R82). -/
inductive Mode
  | rne | rtz | rup | rdn
  | sr (draw : Nat)
  deriving DecidableEq, Repr

/-- FPFLAGS.RM (R83). -/
def rmOf (fpflags : Word) : Nat := field fpflags 8 3

/-- The mode of a rounding code, with RM for the dynamic one (R80). -/
def rcMode (rc : Rc) (rm draw : Nat) : Mode :=
  match rc with
  | .rne => .rne
  | .rtz => .rtz
  | .rup => .rup
  | .rdn => .rdn
  | .sr => .sr draw
  | .dyn =>
      match rm with
      | 0 => .rne
      | 1 => .rtz
      | 2 => .rup
      | _ => .rdn

/-- One step of the generator (R82). -/
def srNext (x : BitVec 32) : BitVec 32 :=
  let x := if x = 0 then 0x9E3779B9 else x
  let x := x ^^^ (x <<< 13)
  let x := x ^^^ (x >>> 17)
  x ^^^ (x <<< 5)

/-- `n` draws, oldest first, and the state they leave (R82). -/
def srDraws (x : BitVec 32) : Nat → List (BitVec 16) × BitVec 32
  | 0 => ([], x)
  | n + 1 =>
      let y := srNext x
      let r := srDraws y n
      (y.extractLsb' 16 16 :: r.1, r.2)

/-- OR raised flags into FPFLAGS (R83). -/
def orFlags (fpflags : Word) (f : Flags) : Word := fpflags ||| BitVec.ofNat 64 (f % 64)

/-- Whether a value may be written to FPFLAGS (R83). -/
def fpflagsOk (v : Word) : Bool := field v 6 2 == 0 && field v 11 21 == 0 && field v 8 3 < 4

/-- Take `n` draws of the issuing context (R82). SRSTATE moves on at the issue: an MTS of FPFLAGS that lands later, in its
own bundle or before, wins over it (log 100, DESIGN CHOICE). -/
def State.draws (s : State) (rc : Rc) (n : Nat) : State × List (BitVec 16) :=
  if rc ≠ .sr then (s, [])
  else
    let x := s.me
    let (l, st) := srDraws (BitVec.ofNat 32 (field x.bank.fpflags 32 32)) n
    (s.updMe (fun x => { x with bank := { x.bank with
      fpflags := setField x.bank.fpflags 32 32 st.toNat } }), l)

/-- The draw of element `i`, as a number. -/
def drawAt (l : List (BitVec 16)) (i : Nat) : Nat := ((l[i]?).map (·.toNat)).getD 0

end Sys2Proof.Machine
end

