-- ==== Sys2Proof/Machine/Float.lean ====
section
/-!
DEFINITION. Number formats (R72 to R79), exact values, one rounding (R80, R81), and the floating-point
operations the instructions are made of (R84, R85, R89, R154, R164).
-/
namespace Sys2Proof.Machine

/-- An exact floating-point value: NaN (signalling or not), an infinity, or (-1)^neg * m * 2^e. -/
inductive FV
  | nan (signalling : Bool)
  | inf (neg : Bool)
  | fin (neg : Bool) (m : Nat) (e : Int)
  deriving DecidableEq, Repr

/-- A format of R74: mantissa bits, exponent bits, bias, largest finite code, and whether it has a sign. -/
structure Fmt where
  m     : Nat
  eb    : Nat
  bias  : Nat
  top   : Nat
  sign  : Bool := true
  deriving DecidableEq, Repr

/-- The format of a floating-point type (R74). -/
def fmtOf : Ty → Fmt
  | .f32 => { m := 23, eb := 8, bias := 127, top := 0x7F7FFFFF }
  | .f16 => { m := 10, eb := 5, bias := 15, top := 0x7BFF }
  | .bf16 => { m := 7, eb := 8, bias := 127, top := 0x7F7F }
  | .e4m3 => { m := 3, eb := 4, bias := 7, top := 0x7E }
  | .e5m2 => { m := 2, eb := 5, bias := 15, top := 0x7B }
  | .e2m1 => { m := 1, eb := 2, bias := 1, top := 0x7 }
  | .e3m5 => { m := 5, eb := 3, bias := 3, top := 0xFF, sign := false }
  | _ => { m := 23, eb := 8, bias := 127, top := 0x7F7FFFFF }

/-- Whether a type is a floating-point type. -/
def isFloat (t : Ty) : Bool := !t.isInt

/-- The canonical NaN (R78); e2m1 and e3m5 have none. -/
def canonNaN : Ty → Nat
  | .f32 => 0x7FC00000
  | .f16 => 0x7E00
  | .bf16 => 0x7FC0
  | .e4m3 => 0x7F
  | .e5m2 => 0x7E
  | _ => 0

/-- The value of a code (R74 to R76). -/
def decodeF (t : Ty) (code : Nat) : FV :=
  let f := fmtOf t
  let mant := code % 2 ^ f.m
  let ex := code / 2 ^ f.m % 2 ^ f.eb
  let neg := f.sign && code / 2 ^ (f.m + f.eb) % 2 == 1
  let isIeee := t == .f32 || t == .f16 || t == .bf16 || t == .e5m2
  if isIeee && ex == 2 ^ f.eb - 1 then
    (if mant = 0 then .inf neg else .nan (mant < 2 ^ (f.m - 1)))
  else if t == .e4m3 && ex == 15 && mant == 7 then .nan false
  else if ex = 0 then .fin neg mant (1 - (f.bias : Int) - f.m)
  else .fin neg (2 ^ f.m + mant) ((ex : Int) - f.bias - f.m)

/-- The sign bit of a format. -/
def signBit (t : Ty) (neg : Bool) : Nat := if neg && (fmtOf t).sign then 2 ^ ((fmtOf t).m + (fmtOf t).eb) else 0

/-- The code of an infinity, where the type has one. -/
def infCode (t : Ty) (neg : Bool) : Nat := signBit t neg + (fmtOf t).top + 1

/-- 2^e as a fraction. -/
def pow2q (e : Int) : Nat × Nat := if 0 ≤ e then (2 ^ e.toNat, 1) else (1, 2 ^ (-e).toNat)

/-- floor(log2(n / d * 2^e)) for n, d > 0. -/
def ilog2 (n d : Nat) (e : Int) : Int :=
  let g : Int := (Nat.log2 n : Int) - Nat.log2 d
  let (a, b) := pow2q g
  (if a * d ≤ n * b then g else g - 1) + e

/-- Whether to round the magnitude up: quotient `k`, remainder `r` of divisor `d`. -/
def roundsUp (md : Mode) (neg : Bool) (k r d : Nat) : Bool :=
  if r = 0 then false
  else
    match md with
    | .rne => 2 * r > d || (2 * r == d && k % 2 == 1)
    | .rtz => false
    | .rup => !neg
    | .rdn => neg
    | .sr w => r * 65536 / d + w ≥ 65536

/-- Round n / d * 2^e to a multiple of 2^q: the multiple, and whether it is inexact. -/
def roundAt (md : Mode) (neg : Bool) (n d : Nat) (e q : Int) : Nat × Bool :=
  let (a, b) := pow2q (e - q)
  let num := n * a
  let den := d * b
  let k := num / den
  let r := num % den
  (if roundsUp md neg k r den then k + 1 else k, r != 0)

/-- What an overflow delivers (R81). -/
def overflowTo (t : Ty) (md : Mode) (nosat neg : Bool) : Nat :=
  let top := signBit t neg + (fmtOf t).top
  match t with
  | .f32 | .f16 | .bf16 =>
      match md with
      | .rne => infCode t neg
      | .rup => if neg then top else infCode t neg
      | .rdn => if neg then infCode t neg else top
      | _ => top
  | .e4m3 => if nosat then canonNaN t else top
  | .e5m2 => if nosat then infCode t neg else top
  | _ => top

/-- Round (-1)^neg * n / d * 2^e once to a floating-point type: the code and the flags (R80, R81). -/
def roundQ (t : Ty) (md : Mode) (nosat neg : Bool) (n d : Nat) (e : Int) : Nat × Flags :=
  let f := fmtOf t
  if n = 0 then (signBit t neg, 0)
  else
    let emin : Int := 1 - f.bias
    let ex := ilog2 n d e
    let q := max ex emin - f.m
    let (k, inexact) := roundAt md neg n d e q
    let code := if q = emin - f.m then k else ((q + f.m + f.bias).toNat) * 2 ^ f.m + k - 2 ^ f.m
    if code > f.top then (overflowTo t md nosat neg, fOF ||| fNX)
    else
      let tiny :=
        if ex ≥ emin then false
        else
          let (ku, _) := roundAt md neg n d e (ex - f.m)
          -- below the smallest normal in the unbounded range
          let (a, b) := pow2q (ex - f.m - emin)
          ku * a < b
      (signBit t neg + code, if inexact then (if tiny then fNX ||| fUF else fNX) else 0)

/-- Round an exact value once (R78, R80, R81). -/
def roundF (t : Ty) (md : Mode) (nosat : Bool) (v : FV) : Nat × Flags :=
  match v with
  | .nan _ => (canonNaN t, 0)
  | .fin neg m e => roundQ t md nosat neg m 1 e
  | .inf neg =>
      match t with
      | .e4m3 => (if nosat then canonNaN t else signBit t neg + (fmtOf t).top, fOF ||| fNX)
      | .e5m2 => if nosat then (infCode t neg, 0) else (signBit t neg + (fmtOf t).top, fOF ||| fNX)
      | .e2m1 => (signBit t neg + (fmtOf t).top, fOF ||| fNX)
      | _ => (infCode t neg, 0)

/-- NV for a signalling NaN among the inputs (R78). -/
def nvOf (vs : List FV) : Flags := if vs.contains (.nan true) then fNV else 0
/-- Whether a value is a NaN. -/
def FV.isNaN : FV → Bool
  | .nan _ => true
  | _ => false
/-- Whether a value is an infinity. -/
def FV.isInf : FV → Bool
  | .inf _ => true
  | _ => false
/-- Whether a value is a zero. -/
def FV.isZero : FV → Bool
  | .fin _ m _ => m == 0
  | _ => false
/-- The sign of a value. -/
def FV.neg : FV → Bool
  | .nan _ => false
  | .inf n => n
  | .fin n _ _ => n
/-- The value with the other sign. -/
def FV.negate : FV → FV
  | .nan q => .nan q
  | .inf n => .inf (!n)
  | .fin n m e => .fin (!n) m e
/-- The magnitude. -/
def FV.abs : FV → FV
  | .nan q => .nan q
  | .inf _ => .inf false
  | .fin _ m e => .fin false m e

/-- The value as an integer multiple of 2^e. -/
def FV.scaled (v : FV) (e : Int) : Int :=
  match v with
  | .fin n m x => let k : Int := (m * 2 ^ (x - e).toNat : Nat); if n then -k else k
  | _ => 0
/-- The exponent of a finite value. -/
def FV.exp : FV → Int
  | .fin _ _ e => e
  | _ => 0

/-- An integer multiple of 2^e as a value; `negZero` is the sign of a zero. -/
def ofScaled (k : Int) (e : Int) (negZero : Bool) : FV :=
  if k = 0 then .fin negZero 0 e else .fin (k < 0) k.natAbs e

/-- The product, with NV for inf * 0 (R79). -/
def mulF (a b : FV) : FV × Flags :=
  match a, b with
  | .nan _, _ => (.nan false, 0)
  | _, .nan _ => (.nan false, 0)
  | .inf n, y => if y.isZero then (.nan false, fNV) else (.inf (n != y.neg), 0)
  | x, .inf n => if x.isZero then (.nan false, fNV) else (.inf (n != x.neg), 0)
  | .fin n m e, .fin n' m' e' => (.fin (n != n') (m * m') (e + e'), 0)

/-- The exact sum of several values in a mode, with NV for infinities of both signs (R79). -/
def sumF (vs : List FV) (md : Mode) : FV × Flags :=
  if vs.any FV.isNaN then (.nan false, 0)
  else if vs.contains (.inf false) && vs.contains (.inf true) then (.nan false, fNV)
  else
    match vs.find? FV.isInf with
    | some v => (v, 0)
    | none =>
        let e := vs.foldl (fun acc v => min acc v.exp) ((vs.head?.map FV.exp).getD 0)
        let k := vs.foldl (fun acc v => acc + v.scaled e) 0
        let negZero :=
          if vs.all (fun v => v.isZero && v.neg) then true
          else if vs.all (fun v => v.isZero && !v.neg) then false
          else md == .rdn
        (ofScaled k e negZero, 0)

/-- Compare two values that are not NaN: less, equal or greater, with -0 equal to +0. -/
def cmpF (a b : FV) : Ordering :=
  match a, b with
  | .inf n, .inf n' => if n == n' then .eq else if n then .lt else .gt
  | .inf n, _ => if n then .lt else .gt
  | _, .inf n => if n then .gt else .lt
  | x, y =>
      let e := min x.exp y.exp
      compare (x.scaled e) (y.scaled e)

/-- Less in the order of R79, where -0 is less than +0. -/
def ltF (a b : FV) : Bool :=
  match cmpF a b with
  | .lt => true
  | .eq => a.neg && !b.neg
  | .gt => false

/-- The smaller or the larger code (R79). -/
def minMaxF (t : Ty) (isMax : Bool) (a b : Nat) : Nat × Flags :=
  let x := decodeF t a
  let y := decodeF t b
  if x.isNaN || y.isNaN then (canonNaN t, nvOf [x, y])
  else if isMax then (if ltF x y then b else a, 0) else (if ltF y x then b else a, 0)

/-- a + b on codes of a type, rounded once. -/
def addC (t : Ty) (md : Mode) (a b : Nat) : Nat × Flags :=
  let x := decodeF t a
  let y := decodeF t b
  let (v, f) := sumF [x, y] md
  let (c, g) := roundF t md false v
  (c, nvOf [x, y] ||| f ||| g)

/-- a * b on codes of a type, rounded once. -/
def mulC (t : Ty) (md : Mode) (a b : Nat) : Nat × Flags :=
  let x := decodeF t a
  let y := decodeF t b
  let (v, f) := mulF x y
  let (c, g) := roundF t md false v
  (c, nvOf [x, y] ||| f ||| g)

/-- The code with its sign flipped; a NaN stays one. -/
def negC (t : Ty) (a : Nat) : Nat :=
  let h := signBit t true
  if h = 0 then a else if a / h % 2 = 1 then a - h else a + h

/-- (-1)^np * a * b + (-1)^nc * c, rounded once (R154). -/
def fmaC (t : Ty) (md : Mode) (np nc : Bool) (a b c : Nat) : Nat × Flags :=
  let x := decodeF t a
  let y := decodeF t b
  let z := decodeF t c
  let (p, f) := mulF x y
  if p.isNaN then (canonNaN t, nvOf [x, y, z] ||| f)
  else
    let (v, g) := sumF [if np then p.negate else p, if nc then z.negate else z] md
    let (r, h) := roundF t md false v
    (r, nvOf [x, y, z] ||| f ||| g ||| h)

/-- The exact value of an integer. -/
def ofInt (k : Int) : FV := ofScaled k 0 false

/-- Round a value to an integer in a mode: the integer, and whether it differs. -/
def toIntegral (md : Mode) (v : FV) : Int × Bool :=
  match v with
  | .fin n m e =>
      let (k, x) := roundAt md n m 1 e 0
      (if n then -(k : Int) else k, x)
  | _ => (0, false)

/-- The range of an integer type. -/
def intRange (t : Ty) : Int × Int :=
  if t.isSigned then (-(2 ^ (t.width - 1)), 2 ^ (t.width - 1) - 1) else (0, 2 ^ t.width - 1)

/-- The integer a code stands for (R72). -/
def intOf (t : Ty) (code : Nat) : Int :=
  if t.isSigned && code ≥ 2 ^ (t.width - 1) then (code : Int) - 2 ^ t.width else code

/-- The code of an integer, modulo 2^w. -/
def codeOf (t : Ty) (k : Int) : Nat := (k % 2 ^ t.width).toNat

/-- Clamp to the range of a type. -/
def clampInt (t : Ty) (k : Int) : Int := max (intRange t).1 (min (intRange t).2 k)

/-- CONVERT one code from type `u` to type `t` (R73, R78, R80, R81). -/
def convert (t u : Ty) (md : Mode) (nosat : Bool) (code : Nat) : Nat × Flags :=
  if u.isInt then
    if t.isInt then (codeOf t (clampInt t (intOf u code)), 0)
    else roundF t md nosat (ofInt (intOf u code))
  else
    let v := decodeF u code
    if t.isInt then
      match v with
      | .nan _ => (0, fNV)
      | .inf n => (codeOf t (if n then (intRange t).1 else (intRange t).2), fNV)
      | .fin .. =>
          let (k, x) := toIntegral md v
          if k < (intRange t).1 || k > (intRange t).2 then (codeOf t (clampInt t k), fNV)
          else (codeOf t k, if x then fNX else 0)
    else
      match v with
      | .nan q => (canonNaN t, if q || t == .e2m1 then fNV else 0)
      | _ => roundF t md nosat v

/-! ## Seeds (R84, R85) -/

/-- The integer square root below 2^n, by bits. -/
def isqrt (x : Nat) : Nat → Nat
  | 0 => 0
  | n + 1 => go n 0
where
  /-- Try bit `n` and the bits below it. -/
  go : Nat → Nat → Nat
    | 0, acc => if (acc + 1) * (acc + 1) ≤ x then acc + 1 else acc
    | n + 1, acc =>
        let y := acc + 2 ^ (n + 1)
        go n (if y * y ≤ x then y else acc)

/-- RoundRNE of a ratio a / b to an integer. -/
def rneDiv (a b : Nat) : Nat := (roundAt .rne false a b 0 0).1

/-- RoundRNE of sqrt(a / b) to an integer below 2^n. -/
def rneSqrt (a b n : Nat) : Nat :=
  let k := isqrt (a / b) n
  let l := 4 * a
  let r := (2 * k + 1) * (2 * k + 1) * b
  if l > r || (l == r && k % 2 == 1) then k + 1 else k

/-- The seed of a finite positive value m * 2^e (R84). Fractions are over 2^24: y0 and m there. -/
def seedPos (rsq : Bool) (m : Nat) (e : Int) : Nat × Flags :=
  let l := Nat.log2 m
  let ex : Int := l + e
  -- y0 = y / 2^23, exact for an f32 input
  let y := m * 2 ^ (23 - l)
  let t := y / 2 ^ 16 % 128
  let mid := 256 + 2 * t + 1          -- m = mid / 256
  if rsq then
    let odd := ex % 2 ≠ 0
    -- u = U / 2^23, c = C / 256
    let u := if odd then 2 * y else y
    let c := if odd then 2 * mid else mid
    let k : Int := if odd then -((ex - 1) / 2) else -(ex / 2)
    -- 2 z = (3 c - u) / (c sqrt c); squared, times 4096^2
    let a := 3 * c * 2 ^ 15 - u       -- (3 c - u) * 2^23
    let num := 4096 * 4096 * (a * a) * 256 ^ 3
    let den := c ^ 3 * 2 ^ 46
    let n := rneSqrt num den 14
    let r := roundQ .f32 .rne false false n 1 (k - 13)
    (r.1, 0)
  else
    let c := mid
    let k : Int := -ex
    let a := 2 * c * 2 ^ 15 - y       -- (2 c - u) * 2^23
    let n := rneDiv (2 * 4096 * a * 65536) (c * c * 2 ^ 23)
    let r := roundQ .f32 .rne false false n 1 (k - 13)
    (r.1, r.2 &&& (fUF ||| fOF))

/-- VRSQE and VRCPE of one f32 code (R84, R85). -/
def seed (rsq : Bool) (code : Nat) : Nat × Flags :=
  match decodeF .f32 code with
  | .nan q => (canonNaN .f32, if q then fNV else 0)
  | .inf n => if n then (if rsq then (canonNaN .f32, fNV) else (signBit .f32 true, 0)) else (0, 0)
  | .fin n m e =>
      if m = 0 then (infCode .f32 n, fDZ)
      else if n then
        (if rsq then (canonNaN .f32, fNV)
         else
           let r := seedPos false m e
           (signBit .f32 true + r.1, r.2))
      else seedPos rsq m e

/-! ## Powers and logarithms (R164, R195; log 8) -/

/-- Working precision in bits. -/
def wp : Nat := 320
/-- floor(ln 2 * 2^320). -/
def ln2Fix : Nat := 0xb17217f7d1cf79abc9e3b39803f2f6af40f343267298b62d8a0d175b8baafa2be7b876206debac98
/-- floor(2^320 / ln 2). -/
def invLn2Fix : Nat := 0x171547652b82fe1777d0ffda0d23a7d11d6aef551bad2b4b1164a2cd9a342648fbc3887eeaa2ed9ac

/-- The terms of exp(x) from x^i / i! on, in fixed point, each rounded down. -/
def expSeries (x : Nat) (term : Nat) (i : Nat) : Nat → Nat
  | 0 => 0
  | n + 1 => term + expSeries x (term * x / 2 ^ wp / (i + 1)) (i + 1) n

/-- Bounds of 2^f * 2^320 for f = `f` / 2^320 in [0, 1). -/
def exp2Fix (f : Nat) : Nat × Nat :=
  let x := f * ln2Fix / 2 ^ wp
  let r := expSeries x (2 ^ wp) 0 90
  (r, r + 512)

/-- Round an interval lo..hi * 2^e to a type; the answer of both ends, or the unresolved constant. -/
def roundBoth (t : Ty) (md : Mode) (neg : Bool) (lo hi : Nat) (e : Int) (key : Int) : Nat × Flags :=
  let a := roundQ t md false neg lo 1 e
  let b := roundQ t md false neg hi 1 e
  if a = b then a
  else ((Config.powerUnresolved key a.1).toNat % 2 ^ t.width, fNX)

/-- 2^v rounded once to a type, for a finite v (R164). -/
def pow2F (t : Ty) (md : Mode) (v : FV) : Nat × Flags :=
  match v with
  | .fin _ _ e =>
      let k := v.scaled (min e 0)
      let sc : Nat := 2 ^ (-(min e 0)).toNat
      let ip := k / (sc : Int)
      let fr := (k - ip * sc).toNat
      let ip := max (-4000) (min 4000 ip)
      if fr = 0 then roundQ t md false false 1 1 ip
      else
        let (lo, hi) := exp2Fix (fr * 2 ^ wp / sc)
        roundBoth t md false lo hi (ip - wp) k
  | _ => (0, 0)

/-- The series of atanh: t^(2i+1) / (2i+1), in fixed point. -/
def atanhSeries (t2 : Nat) (pw : Nat) (i : Nat) : Nat → Nat
  | 0 => 0
  | n + 1 => pw / (2 * i + 1) + atanhSeries t2 (pw * t2 / 2 ^ wp) (i + 1) n

/-- log2 of a finite positive m * 2^e, rounded once to f32 (R164). -/
def log2F (md : Mode) (m : Nat) (e : Int) : Nat × Flags :=
  let l := Nat.log2 m
  let ex : Int := l + e
  if m = 2 ^ l then roundF .f32 md false (ofInt ex)
  else
    -- y = m / 2^l; t = (m - 2^l) / (m + 2^l)
    let t := (m - 2 ^ l) * 2 ^ wp / (m + 2 ^ l)
    let s := 2 * atanhSeries (t * t / 2 ^ wp) t 0 110
    let lg : Int := (s * invLn2Fix / 2 ^ wp : Nat)
    let lo := ex * 2 ^ wp + lg - 4
    let hi := ex * 2 ^ wp + lg + 1024
    if lo ≥ 0 then roundBoth .f32 md false lo.toNat hi.toNat (-(wp : Int)) ex
    else roundBoth .f32 md true (-hi).toNat (-lo).toNat (-(wp : Int)) ex

/-- VEXP2 of one f32 code (R164). -/
def exp2C (md : Mode) (code : Nat) : Nat × Flags :=
  match decodeF .f32 code with
  | .nan q => (canonNaN .f32, if q then fNV else 0)
  | .inf n => (if n then 0 else infCode .f32 false, 0)
  | v => if v.isZero then (0x3F800000, 0) else pow2F .f32 md v

/-- VLOG2 of one f32 code (R164). -/
def log2C (md : Mode) (code : Nat) : Nat × Flags :=
  match decodeF .f32 code with
  | .nan q => (canonNaN .f32, if q then fNV else 0)
  | .inf n => if n then (canonNaN .f32, fNV) else (infCode .f32 false, 0)
  | .fin n m e =>
      if m = 0 then (infCode .f32 true, fDZ)
      else if n then (canonNaN .f32, fNV) else log2F md m e

/-! ## The reduction tree (R86) -/

/-- One level of the tree. -/
def pairUp (op : Nat → Nat → Nat × Flags) : List Nat → List Nat × Flags
  | x :: y :: r =>
      let (z, f) := op x y
      let (zs, g) := pairUp op r
      (z :: zs, f ||| g)
  | l => (l, 0)

/-- The tree over 2^n elements (R86). -/
def treeReduce (op : Nat → Nat → Nat × Flags) : Nat → List Nat → Nat × Flags
  | 0, l => (l.headD 0, 0)
  | n + 1, l =>
      let (l', f) := pairUp op l
      let (r, g) := treeReduce op n l'
      (r, f ||| g)

/-! ## The folded accumulation (R87 to R90) -/

/-- Truncate toward zero a multiple `k` of 2^e to a multiple of 2^w. -/
def truncTo (k : Int) (e w : Int) : Int × Int :=
  if w ≤ e then (k, e)
  else
    let d : Int := 2 ^ (w - e).toNat
    ((k.natAbs / d.toNat : Nat) * (if k < 0 then -1 else 1), w)

/-- The partials of one step, layer by layer: the sum so far as a multiple of 2^e (R89). -/
def stepPartial (w : Int) : List (List FV) → Int → Int → Int × Int
  | [], k, e => (k, e)
  | g :: r, k, e =>
      let e' := g.foldl (fun acc v => min acc v.exp) e
      let k' := g.foldl (fun acc v => acc + v.scaled e') (k * 2 ^ (e - e').toNat)
      let (k'', e'') := truncTo k' e' w
      stepPartial w r k'' e''

/-- Split a list into groups of `g`, at most `n` of them. -/
def chunk {α : Type} (g : Nat) : Nat → List α → List (List α)
  | 0, _ => []
  | n + 1, l => if l.isEmpty then [] else l.take g :: chunk g n (l.drop g)

/-- One step of R89 on the terms of its layers. `bad` says that a product was inf * 0. -/
def accStep (acc : Nat) (groups : List (List FV)) (bad : Bool) : Nat :=
  let ts := groups.flatten
  if bad || ts.any FV.isNaN || (ts.contains (.inf false) && ts.contains (.inf true)) then canonNaN .f32
  else
    match ts.find? FV.isInf with
    | some v => (addC .f32 .rne acc (infCode .f32 v.neg)).1
    | none =>
        let nz := ts.filter (fun v => !v.isZero)
        match nz with
        | [] => acc
        | v :: _ =>
            let ex (v : FV) : Int :=
              match v with
              | .fin _ m e => (Nat.log2 m : Int) + e
              | _ => 0
            let e := nz.foldl (fun m v => max m (ex v)) (ex v)
            let (k, q) := stepPartial (e - 41) groups 0 (e - 41)
            if k = 0 then acc
            else
              let (r, _) := sumF [decodeF .f32 acc, ofScaled k q false] .rne
              (roundF .f32 .rne false r).1

/-- Accumulate the terms of one output element in steps of D groups of `g` (R89). Each term carries
whether it is an inf * 0 product. -/
def accumulate (d g acc : Nat) (terms : List (FV × Bool)) : Nat → Nat
  | 0 => acc
  | n + 1 =>
      if terms.isEmpty then acc
      else
        let now := terms.take (d * g)
        accumulate d g (accStep acc (chunk g d (now.map (·.1))) (now.any (·.2))) (terms.drop (d * g)) n

end Sys2Proof.Machine
end

