-- ==== Sys2Proof/Machine/Operands.lean ====
section
/-!
DEFINITION. The operand forms: what a source selector supplies to a scalar, an engine or an element of
a type (R98, R100), effective addresses with their steps (R108), the elements of a vector (R72, R76),
guards (R8, R150), and the result of a V slot with its latch (R111, R150).
-/
namespace Sys2Proof.Machine

/-! ## Elements of a vector (R72, R76) -/

/-- The `n` elements of width `w` bits of a number, lowest first. -/
def elemsOf (w n v : Nat) : List Nat := (List.range n).map (fun i => v / 2 ^ (w * i) % 2 ^ w)
/-- Every element of width `w` of a vector. -/
def elems (w : Nat) (v : Vec) : List Nat := elemsOf w (1024 / w) v.toNat
/-- Element `i` of width `w` of a vector. -/
def elem (w i : Nat) (v : Vec) : Nat := v.toNat / 2 ^ (w * i) % 2 ^ w
/-- Elements of width `w`, lowest first, as one number. -/
def packElems (w : Nat) : List Nat → Nat
  | [] => 0
  | x :: r => x % 2 ^ w + 2 ^ w * packElems w r
/-- A vector from its elements; elements past the list are zero. -/
def ofElems (w : Nat) (l : List Nat) : Vec := BitVec.ofNat 1024 (packElems w l)
/-- The same element everywhere. -/
def splat (w x : Nat) : Vec := ofElems w (List.replicate (1024 / w) x)
/-- The bytes of a vector. -/
def vecBytes (v : Vec) : List Byte := (elems 8 v).map (BitVec.ofNat 8)
/-- A vector from bytes. -/
def ofVecBytes (l : List Byte) : Vec := ofElems 8 (l.map (·.toNat))

/-! ## Sources (R98, R100) -/

/-- The value a short or broadcast integer supplies to an element of type `t` (R100). -/
def immElem (t : Ty) (x : Word) : Nat :=
  if t.isInt then x.toNat % 2 ^ t.width else (convert t .i64 .rne false x.toNat).1

/-- The value the broadcast port supplies to an element of type `t` (R100). -/
def bcElem (t : Ty) (bps : Nat) (x : Word) : Nat :=
  if bps = 1 then x.toNat % 2 ^ t.width
  else if bps = 2 then immElem t x
  else if t.isInt || t == .f32 then x.toNat % 2 ^ t.width
  else (convert t .f32 .rne false (x.toNat % 2 ^ 32)).1

/-- The 64-bit value of a scalar or engine source, read at issue (R100). -/
def State.src (s : State) (x : Sel) : Word :=
  match x with
  | .reg n => s.me.bank.getS n.toNat
  | .latch _ => 0
  | .bc => s.issue.bval
  | .ext v => v
  | .imm n => n.signExtend 64

/-- The vector a V-class source of element type `t` supplies (R100, R110, R111). -/
def State.vsrc (s : State) (t : Ty) (x : Sel) : Vec :=
  match x with
  | .reg n => s.me.bank.getV n.toNat
  | .latch n => Tbl.getD s.myCore.latches n.toNat 0
  | .bc => splat t.width (bcElem t s.issue.bps s.issue.bval)
  | .ext v => splat t.width (v.toNat % 2 ^ t.width)
  | .imm n => splat t.width (immElem t (n.signExtend 64))

/-- The data of VST and VSTX (R170). -/
def State.vdata (s : State) (x : Sel) : Vec := s.vsrc .n8 x

/-! ## Addresses (R108) -/

/-- The step an address of this slot moves by: k times STEPn (R108). -/
def State.stepped (s : State) : Word :=
  BitVec.ofNat 64 s.issue.k * Tbl.getD s.me.bank.step s.issue.slot.num 0

/-- The byte offset of an FM operand (R97). -/
def offVal : Off → Word
  | .short o => o.signExtend 64
  | .ext v => v

/-- The byte offset of VLDX and VSTX (R171). -/
def offXVal : OffX → Word
  | .short o => o.signExtend 64
  | .ext v => v

/-- The effective address of an FM operand, modulo 2^64 (R108). -/
def State.ea (s : State) (base : BitVec 6) (off : Word) : Word :=
  s.me.bank.getS base.toNat + off + s.stepped

/-! ## Guards (R8, R124, R150) -/

/-- A predicate by its 4-bit name. -/
def State.pred (s : State) (p : BitVec 4) : Pred := s.me.bank.getP p.toNat
/-- The two physical predicates of a pair (R99, R110). -/
def State.pair (s : State) (p : BitVec 3) : Nat × Nat :=
  let b := s.me.bank.rbase
  (pphys b (2 * p.toNat), pphys b (2 * p.toNat + 1))
/-- A pair set to a condition and its complement (R128). -/
def State.pairLands (s : State) (p : BitVec 3) (c : Bool) : List Land :=
  let q := s.pair p
  let ones := BitVec.allOnes 128
  [.p q.1 (if c then ones else 0) ones, .p q.2 (if c then 0 else ones) ones]

/-- An instruction of the V class. -/
def isVop (i : Instr) : Bool := i != .nop && i.slotOk .v0
/-- The control operations whose register effects every member of a gang performs (R34). -/
def isGangControl (i : Instr) : Bool :=
  match i with
  | .br .. | .bri .. | .call .. | .calli .. | .ret .. | .loop .. => true
  | _ => false
/-- The bank whose predicate guards an operation: the issuing context's own, but in a gang rank 0's for a branch, LOOP,
CALL or RET, whose direction every member follows (R34). -/
def State.guardBank (s : State) (i : Instr) : Bank :=
  match s.myCore.gang with
  | some (first, _) => if isGangControl i then (s.ctx first 0).bank else s.me.bank
  | none => s.me.bank
/-- Whether the guard lets an operation act: bit 0, except in the V class (R8, R150). -/
def State.guardOn (s : State) (i : Instr) : Bool := isVop i || ((s.guardBank i).getP i.guard.toNat).getLsbD 0

/-- Whether element `i` of width `w` is active under a guard (R150). -/
def active (g : Pred) (w i : Nat) : Bool := g.getLsbD (i * w / 8)

/-! ## Scalar results -/

/-- A scalar result at a latency (R12). -/
def State.landS (s : State) (lat : Nat) (d : BitVec 6) (v : Word) : State :=
  s.land lat [.s d.toNat v (BitVec.allOnes 64)]

/-! ## V-class results (R111, R150) -/

/-- The lands of a vector result: the guarded bytes of its register, its latch, and its flags. -/
def State.vlands (s : State) (g : BitVec 4) (d : VDst) (v : Vec) (f : Flags) : List Land :=
  let m := s.pred g
  (if d.ws then [] else [.v (vphys s.me.bank.rbase d.r.toNat) v m])
    ++ (if s.issue.partner then [] else [.latch (s.issue.slot.num - 2) v])
    ++ (if f = 0 then [] else [.flags (BitVec.ofNat 64 f)])

/-- A vector result at a latency. -/
def State.landV (s : State) (lat : Nat) (g : BitVec 4) (d : VDst) (r : Vec × Flags) : State :=
  s.land lat (s.vlands g d r.1 r.2)

/-- The flags of the active results (R150). -/
def activeFlags (g : Pred) (w : Nat) : Nat → List (Nat × Flags) → Flags
  | _, [] => 0
  | i, x :: r => (if active g w i then x.2 else 0) ||| activeFlags g w (i + 1) r

/-- A vector from element results of width `wd`, active by elements of width `wg` of the source. -/
def gather (g : Pred) (wd wg : Nat) (l : List (Nat × Flags)) : Vec × Flags :=
  (ofElems wd (l.map (·.1)), activeFlags g wg 0 l)

/-- Apply a function of one element. -/
def mapE1 (g : Pred) (w : Nat) (f : Nat → Nat × Flags) (a : Vec) : Vec × Flags :=
  gather g w w ((elems w a).map f)
/-- Apply a function of two elements. -/
def mapE2 (g : Pred) (w : Nat) (f : Nat → Nat → Nat × Flags) (a b : Vec) : Vec × Flags :=
  gather g w w (List.zipWith f (elems w a) (elems w b))
/-- Apply a function of three elements. -/
def mapE3 (g : Pred) (w : Nat) (f : Nat → Nat → Nat → Nat × Flags) (a b c : Vec) : Vec × Flags :=
  gather g w w (List.zipWith (fun x (y : Nat × Nat) => f x y.1 y.2) (elems w a)
    (List.zip (elems w b) (elems w c)))

/-- A predicate from one Bool per element of width `w` (R157). -/
def predOfElems (w : Nat) (l : List Bool) : Pred :=
  let n := max 1 (w / 8)
  BitVec.ofNat 128 (packElems n (l.map (fun b => if b then 2 ^ n - 1 else 0)))

end Sys2Proof.Machine
end

