-- ==== Sys2Proof/Machine/SysReg.lean ====
section
/-!
DEFINITION. The system registers: what MFS reads, what MTS may write and what its landing does, for the
user registers (R134) and the management registers (R355), and the management window (R291).
-/
namespace Sys2Proof.Machine

/-- 1 for true. -/
def b2n (b : Bool) : Nat := if b then 1 else 0

/-! ## What the user registers report -/

/-- The tails on a core, as (slot, tail) (R41). -/
def CoreSt.tails (c : CoreSt) : List (Nat × Tail) :=
  [0, 1, 2, 3].filterMap (fun j =>
    let x := c.slot j
    if x.state == .empty then none else x.tail.map (fun t => (j, t)))

/-- The slots of live tails that the context in slot `j` spawned (R41). -/
def CoreSt.tailsOf (c : CoreSt) (j : Nat) : List Nat :=
  if (c.slot j).tail.isSome then []
  else (c.tails.filter (fun t => t.1 != j && t.2.spawner == j)).map (·.1)

/-- The rank of a core in its gang, and the gang's size (R22). -/
def CoreSt.rank (c : CoreSt) (k : Nat) : Nat × Nat :=
  match c.gang with
  | some (first, n) => (k - first, n)
  | none => (0, 1)

/-- CTXID (R22). -/
def ctxid (s : State) (k j : Nat) : Word :=
  let c := s.core k
  let x := c.slot j
  let (r, n) := c.rank k
  let d := match x.tail with
    | some t => t.deferred
    | none => false
  put [(32, x.lindex), (23, b2n d), (22, b2n x.tail.isSome), (17, n - 1), (12, r), (0, ctxidLow k j)]

/-- SHAPE (R23). -/
def shapeWord (l : Launch) : Word :=
  put [(26, l.prio), (25, b2n l.qb), (22, l.cpc), (16, l.cpg), (0, l.gangs)]

/-- Whether narrow mode is in force on a core (R325). -/
def State.narrow (s : State) (k : Nat) : Bool :=
  let q := s.quad (quadOf k)
  q.fnar || (q.anar && s.alarmInForce)

/-- GOV (R326). -/
def govWord (s : State) (k : Nat) : Word :=
  put [(2, b2n s.alarm), (1, b2n (s.narrow k)), (0, b2n ((s.quad (quadOf k)).limit != 0))]

/-- The queued operations of the context that is in the slot now, and not of one whose view a deferred tail keeps or
that has ended (R38, R117). -/
def Ctx.mine (x : Ctx) : List QOp := x.queue.filter (fun o => o.inst == x.inst)
/-- Unstarted queued T and M operations (R119). -/
def Ctx.pend (x : Ctx) : Nat := (x.mine.filter (fun o => !o.started)).length
/-- Whether the tag of a register is set: t0 to t7 are 0 to 7 and acc0 to acc15 are 8 to 23 (R117). -/
def Ctx.tag (x : Ctx) (n : Nat) : Bool := !x.mine.any (fun o => o.dsts.contains n)
/-- The ready tags of `n` registers from `from_`, as a number. -/
def Ctx.tagBits (x : Ctx) (from_ n : Nat) : Nat :=
  (List.range n).foldl (fun a i => if x.tag (from_ + i) then a + 2 ^ i else a) 0
/-- TAGS (R119). -/
def tagsWord (x : Ctx) : Word := put [(32, x.pend), (8, x.tagBits 8 16), (0, x.tagBits 0 8)]
/-- The d of R118. -/
def Ctx.skew (x : Ctx) : Nat :=
  match x.mine.find? (fun o => !o.started) with
  | some o => x.issues - o.issue - 1
  | none => 0

/-- FRAMEHOLD (R41). -/
def frameHold (x : Ctx) : Word :=
  x.holds.foldl (fun a h => if h.start.ult a then h.start else a) (BitVec.allOnes 64)

/-- One bit for each listed slot. -/
def slotBits (l : List Nat) : Nat := l.foldl (fun a j => a + 2 ^ j) 0

/-- TAILS (R41). NTAIL has two bits: with deferred tails a core may hold four tails, which it shows as 3 (log 88, DESIGN
CHOICE). -/
def tailsWord (c : CoreSt) (j : Nat) : Word :=
  let x := c.slot j
  let d := match x.tail with
    | some t => min 15 t.depth
    | none => 0
  put [(16, d), (12, b2n (x.tfault && decide (x.tfaultFrom ≤ c.ic))), (8, slotBits (c.tailsOf j)), (4, min 3 c.tails.length)
      , (0, slotBits (c.tails.map (·.1)))]

/-- CHSTAT of a channel (R203). -/
def chstat (h : Chan) : Word :=
  put [(32, h.lcount % 2 ^ 32), (24, h.lstat), (23, b2n h.ep), (8, h.queue.length), (0, h.done % 256)]

/-- A channel of a core. -/
def CoreSt.chn (c : CoreSt) (n : Nat) : Chan := Tbl.getD c.chan n {}
/-- A ring of a core. -/
def CoreSt.rng (c : CoreSt) (n : Nat) : Ring := Tbl.getD c.ring n {}

/-- TRAPCAUSE (R144). -/
def causeWord (t : TrapRegs) : Word := put [(8, b2n t.isIn), (0, t.cause)]

/-- The user register `n` as the context in slot `j` of core `k` reads it; none is ILLEGAL (R133,
R134). -/
def mfsUser (s : State) (k j n : Nat) : Option Word :=
  let c := s.core k
  let x := c.slot j
  let l := (s.launch? x.launch).getD { id := 0, fn := 0 }
  if n = 0x000 then some (ctxid s k j)
  else if n = 0x001 then some (put [(32, l.fn), (0, l.serial)])
  else if n = 0x002 then some (put [(0, s.now % 2 ^ 48)])
  else if n = 0x003 then some (BitVec.ofNat 64 s.cycle)
  else if n = 0x004 then some (BitVec.ofNat 64 l.purse)
  else if n = 0x005 then some x.bank.mstat
  else if n = 0x006 then some x.bank.fpflags
  else if n = 0x007 then some x.bank.rbase
  else if n = 0x008 then some c.freeze
  else if n = 0x009 then some (govWord s k)
  else if n = 0x00A then some (tagsWord x)
  else if n = 0x00B then some (put [(0, min 16 x.skew)])
  else if n = 0x00C then some x.trap.vec
  else if n = 0x00D then some (causeWord x.trap)
  else if n = 0x00E then some x.trap.pc
  else if n = 0x00F then some x.trap.info
  else if n = 0x010 then some x.trap.addr
  else if n = 0x011 then some (frameHold x)
  else if n = 0x012 then some (tailsWord c j)
  else if n = 0x013 then some x.bank.watchto
  else if n = 0x014 then some c.exclcnt
  else if 0x020 ≤ n ∧ n < 0x030 then some (c.chn (n - 0x020)).wpos
  else if 0x030 ≤ n ∧ n < 0x050 then some (Tbl.getD c.bankfmt (n - 0x030) 0)
  else if 0x050 ≤ n ∧ n < 0x060 then some (chstat (c.chn (n - 0x050)))
  else if n = 0x060 then some l.argptr
  else if n = 0x061 then some (shapeWord l)
  else if 0x062 ≤ n ∧ n < 0x06A then some (Tbl.getD x.bank.step (n - 0x062) 0)
  else none

/-- The user registers a Hitik context has (R290). -/
def hitikUser (n : Nat) : Bool :=
  [0x002, 0x003, 0x006, 0x00C, 0x00D, 0x00E, 0x00F, 0x010, 0x013].contains n

/-! ## Which values the user registers take (R69, R83, R110, R144, R225, R320) -/

/-- Whether BANKFMT takes a value (R69). -/
def bankfmtOk (v : Word) : Bool :=
  field v 20 44 == 0 && field v 5 3 == 0 && field v 0 4 ≤ 8 && (bit v 4 == (field v 0 4 == 6))

/-- Whether an MTS of a user register is allowed; false is ILLEGAL (R133). -/
def mtsUserOk (n : Nat) (v : Word) : Bool :=
  if n = 0x006 then fpflagsOk v
  else if n = 0x007 then field v 32 32 == 0 && field v 10 6 == 0 && field v 5 3 == 0
  else if n = 0x008 then true
  else if n = 0x00C ∨ n = 0x00E then field v 0 3 == 0
  else if n = 0x012 then true
  else if n = 0x013 then field v 32 32 == 0
  else if n = 0x014 then field v 48 16 == 0
  else if 0x030 ≤ n ∧ n < 0x050 then bankfmtOk v
  else 0x062 ≤ n && n < 0x06A

/-- What the landing of an MTS of a user register does (R133). -/
def mtsUser (s : State) (k j n : Nat) (v : Word) : State :=
  let bank (f : Bank → Bank) : State := s.updCtx k j (fun x => { x with bank := f x.bank })
  if n = 0x006 then bank (fun b => { b with fpflags := v })
  else if n = 0x007 then bank (fun b => { b with rbase := v })
  else if n = 0x008 then s.updCore k (fun c => { c with freeze := v })
  else if n = 0x00C then s.updCtx k j (fun x => { x with trap := { x.trap with vec := v } })
  else if n = 0x00E then
    s.updCtx k j (fun x => { x with trap := { x.trap with pc := v, pcWritten := x.trap.isIn } })
  else if n = 0x012 then
    if bit v 12 then s.updCtx k j (fun x => { x with tfault := false }) else s
  else if n = 0x013 then bank (fun b => { b with watchto := v })
  else if n = 0x014 then s.updCore k (fun c => { c with exclcnt := v })
  else if 0x030 ≤ n ∧ n < 0x050 then
    s.updCore k (fun c => { c with bankfmt := Tbl.set c.bankfmt (n - 0x030) v })
  else if 0x062 ≤ n ∧ n < 0x06A then bank (fun b => { b with step := Tbl.set b.step (n - 0x062) v })
  else s

/-! ## The management registers (R355) -/

/-- SEL.QUAD. -/
def State.selQuad (s : State) : Nat := field s.sel 0 8
/-- SEL.FUNC. -/
def State.selFunc (s : State) : Nat := field s.sel 8 6
/-- SEL.QUEUE. -/
def State.selQueue (s : State) : Nat := field s.sel 16 4
/-- The four cores of a quad. -/
def quadCores (q : Nat) : List Nat := [4 * q, 4 * q + 1, 4 * q + 2, 4 * q + 3]

/-- The core and slot MWSEL.TARGET names; none if out of range (R291). -/
def State.target (s : State) : Option (Nat × Nat) :=
  let c := field s.mwsel 2 6
  if c < 48 then some (48 * field s.mwsel 8 4 + c, field s.mwsel 0 2) else none

/-- Whether a launch has a context, tail or command on a core (R289). -/
def CoreSt.busy (c : CoreSt) : Bool :=
  c.launch.isSome || [0, 1, 2, 3].any (fun j => (c.slot j).state != .empty)
    || (List.range 16).any (fun n => !(c.chn n).queue.isEmpty)

/-- QPART.BUSY (R289). -/
def State.quadBusy (s : State) (q : Nat) : Bool :=
  s.cores.any (fun c => (quadCores q).contains (realCore c.1) && c.2.busy)

/-- Whether a function has a placed launch (R289). -/
def State.hasPlaced (s : State) (f : Nat) : Bool :=
  s.launches.any (fun l => l.fn == f && (l.state == .placed || l.state == .preempted))

/-- The LQ word of a queue (R289). -/
def lqWord (q : Queue) : Word :=
  put [(32, q.read.toNat), (7, b2n q.ovr), (6, b2n q.stop), (5, b2n q.en), (0, q.ldepth)]

/-- The queue `q` of a function. -/
def Fn.q (d : Fn) (q : Nat) : Queue := Tbl.getD d.queues q {}

/-- FCTL (R289). -/
def fctlWord (d : Fn) : Word :=
  put [(16, d.turn), (8, d.order), (7, b2n d.pre), (6, b2n d.en), (0, d.part)]

/-- PRICTL (R302). -/
def prictlWord (d : Fn) : Word :=
  put [(20, b2n d.priEn), (19, b2n d.priStop), (9, d.reqs.length), (0, d.priAlloc)]

/-- INV or S1INV with BUSY (R299, R336). -/
def invWord (v : Word) (busy : Bool) : Word := v ||| put [(63, b2n busy)]

/-- One core's part of LMAP (R323). -/
def lmapPart (c : CoreSt) : Nat := c.force.toNat * 256 + c.thr.toNat * 16 + c.fused.toNat

/-- BOOTSTAT (R354). -/
def bootWord (b : Boot) : Word :=
  put [(40, b.svn), (32, b.fsvn), (22, b.excl), (16, b.failA), (12, b.failB), (8, b.slot), (0, b.stage)]

/-- The 64-bit word `w` of a vector. -/
def vecWord (v : Vec) (w : Nat) : Word := v.extractLsb' (64 * w) 64
/-- A vector with word `w` replaced. -/
def setVecWord (v : Vec) (w : Nat) (x : Word) : Vec :=
  let m : Vec := (BitVec.ofNat 1024 (2 ^ 64 - 1)) <<< (64 * w)
  (v &&& ~~~m) ||| ((x.setWidth 1024) <<< (64 * w))

/-- The state code of MWDATA item 0x1401 (R291). -/
def stateCode : CtxState → Nat
  | .empty => 0
  | .running => 1
  | .ready => 2
  | .waiting => 3

/-- A context stopped by an escalation (R291). -/
def Ctx.stopped (x : Ctx) : Bool := x.wait == some .escalated

/-- A read of MWDATA; none is ILLEGAL (R291). -/
def mwRead (s : State) : Option Word :=
  match s.target with
  | none => none
  | some (k, j) =>
      let x := s.ctx k j
      let it := field s.mwsel 16 16
      let w := field s.mwsel 32 16
      if it < 0x6A then (if w = 0 then mfsUser s k j it else none)
      else if 0x1000 ≤ it ∧ it < 0x1040 then (if w = 0 then some (x.bank.getS (it - 0x1000)) else none)
      else if 0x1100 ≤ it ∧ it < 0x1140 then
        (if w < 16 then some (vecWord (x.bank.physV (it - 0x1100)) w) else none)
      else if 0x1200 ≤ it ∧ it < 0x1210 then
        (if w < 2 then some ((x.bank.physP (it - 0x1200)).extractLsb' (64 * w) 64) else none)
      else if 0x1300 ≤ it ∧ it < 0x1308 then
        (if w < 512 then some (vecWord (x.bank.row (it - 0x1300) (w / 16)) (w % 16)) else none)
      else if it = 0x1400 then (if w = 0 then some x.pc else none)
      else if it = 0x1401 then
        (if w = 0 then some (put [(2, b2n x.stopped), (0, stateCode x.state)]) else none)
      else none

/-- Whether a write of MWDATA is allowed (R291). -/
def mwWriteOk (s : State) (v : Word) : Bool :=
  match s.target with
  | none => false
  | some (k, j) =>
      let it := field s.mwsel 16 16
      (s.ctx k j).stopped && (mwRead s).isSome && it != 0x1401 && (it ≥ 0x1000 || mtsUserOk it v)

/-- A write of MWDATA (R291). -/
def mwWrite (s : State) (v : Word) : State :=
  match s.target with
  | none => s
  | some (k, j) =>
      let it := field s.mwsel 16 16
      let w := field s.mwsel 32 16
      let bank (f : Bank → Bank) : State := s.updCtx k j (fun x => { x with bank := f x.bank })
      if it < 0x6A then mtsUser s k j it v
      else if it < 0x1100 then bank (fun b => b.setS (it - 0x1000) v)
      else if it < 0x1200 then
        bank (fun b => { b with v := Tbl.set b.v (it - 0x1100) (setVecWord (b.physV (it - 0x1100)) w v) })
      else if it < 0x1300 then
        bank (fun b =>
          let p := b.physP (it - 0x1200)
          b.setP (it - 0x1200)
            (if w = 0 then p.extractLsb' 64 64 ++ v else v ++ p.extractLsb' 0 64))
      else if it < 0x1400 then
        bank (fun b =>
          let key := 32 * (it - 0x1300) + w / 16
          { b with t := Tbl.set b.t key (setVecWord (Tbl.getD b.t key 0) (w % 16) v) })
      else s.updCtx k j (fun x => { x with pc := v, rep := 0, bpSkip := false })

/-- The management register `n` as a Hitik context reads it; none is ILLEGAL (R289, R355). -/
def mfsMgmt (s : State) (n : Nat) : Option Word :=
  let q := s.quad s.selQuad
  let d := s.fn s.selFunc
  if n = 0x800 then some s.sel
  else if n = 0x801 then
    some (put [(8, b2n (s.quadBusy s.selQuad)), (7, b2n q.scrub), (6, b2n q.valid), (0, q.part)])
  else if n = 0x802 then some (fctlWord d)
  else if n = 0x803 then some (put [(8, s.heatLow), (0, s.heatHigh)])
  else if n = 0x804 then some (lqWord (d.q s.selQueue))
  else if n = 0x805 then s.target.map (fun t => (s.core t.1).swstat)
  else if n = 0x806 then some d.s2root
  else if n = 0x807 then some (prictlWord d)
  else if n = 0x808 then some (invWord d.inv d.invBusy)
  else if n = 0x809 then some d.dirty
  else if n = 0x80A then some d.window
  else if 0x810 ≤ n ∧ n < 0x820 then
    s.target.map (fun t =>
      if n % 2 = 0 then Tbl.getD (s.core t.1).bpAddr ((n - 0x810) / 2) 0
      else Tbl.getD (s.core t.1).bpCtl ((n - 0x810) / 2) 0)
  else if n = 0x820 then
    some (put ((quadCores s.selQuad).zipIdx.map (fun p => (16 * p.2, lmapPart (s.core p.1)))))
  else if n = 0x821 then some (put [(17, b2n q.anar), (16, b2n q.fnar), (0, q.limit)])
  else if n = 0x822 then some (put [(8, s.lLow), (0, s.lHigh)])
  else if n = 0x823 then some (put [(20, s.errUe), (0, s.errCe)])
  else if n = 0x824 then
    let t := Tbl.getD d.tbkt s.selQuad (0xFFFF, 0)
    some (put [(16, t.1), (0, t.2)])
  else if n = 0x825 then some (put [(16, d.rctxInuse), (0, d.rctxCount)])
  else if n = 0x826 then
    some (put [(48, s.refund), (32, s.rates.2.2), (16, s.rates.2.1), (0, s.rates.1)])
  else if n = 0x827 then some (put [(0, s.rlowm)])
  else if n = 0x828 then some s.patrolR
  else if n = 0x829 then
    some (put [(63, b2n s.errValid), (6, s.errAddr / 64 % 2 ^ 34)])
  else if n = 0x830 then some (bootWord s.boot)
  else if n = 0x831 then some s.mwsel
  else if n = 0x832 then mwRead s
  else none

/-- Whether two windows of one partition overlap; an empty one overlaps nothing (R356). -/
def windowsOverlap (v w : Word) : Bool :=
  field v 24 24 != 0 && field w 24 24 != 0
    && field v 0 24 < field w 0 24 + field w 24 24 && field w 0 24 < field v 0 24 + field v 24 24

/-- Whether INV or S1INV takes a value (R299, R336). -/
def invOk (v : Word) : Bool :=
  field v 51 10 == 0 && field v 0 12 == 0
    && (bit v 62 || field v 12 36 * 4096 % pageSize (field v 48 3) == 0)

/-- Whether FCTL of function `f` takes a value (R289, R302, R356). -/
def fctlOk (s : State) (f : Nat) (v : Word) : Bool :=
  let d := s.fn f
  field v 48 16 == 0 && field v 8 8 ≤ 47 && field v 0 6 ≤ 47
    && !(bit v 6 && field v 16 32 == 0)
    && !(field v 0 6 != d.part && s.hasPlaced f)
    && !(bit v 6 && (bit d.s2root 0 == (f == 0)))
    && !(bit v 6 && field d.window 24 24 == 0)

/-- Whether WINDOW of function `f` takes a value (R356). -/
def windowOk (s : State) (f : Nat) (v : Word) : Bool :=
  let d := s.fn f
  field v 48 16 == 0 && !d.en
    && field v 0 24 + field v 24 24 ≤ 16384 * (s.partCores d.part).length
    && (List.range 49).all (fun g =>
      let e := s.fn g
      g == f || !e.en || e.part != d.part || !windowsOverlap v e.window)

/-- Whether TBKT takes a value (R343). -/
def tbktOk (v : Word) : Bool :=
  field v 32 32 == 0 && field v 16 16 != 0 && (field v 0 16 == 0 || field v 0 16 ≤ field v 16 16)

/-- Whether PRICTL of a function takes a value (R302). -/
def prictlOk (d : Fn) (v : Word) : Bool :=
  field v 21 43 == 0 && !bit v 18 && 1 ≤ field v 0 9 && field v 0 9 ≤ 256
    && (d.reqs.isEmpty || field v 0 9 == d.priAlloc)

/-- Whether LQ takes a value (R289). -/
def lqOk (q : Queue) (v : Word) : Bool :=
  let n := field v 0 5
  field v 8 24 == 0 && 4 ≤ n && n ≤ 16 && (n == q.ldepth || !q.en)

/-- Whether QPART of quad `qn` takes a value (R289). -/
def qpartOk (s : State) (qn : Nat) (v : Word) : Bool :=
  let q := s.quad qn
  field v 9 55 == 0 && field v 0 6 ≤ 47
    && !((bit v 6 != q.valid || field v 0 6 != q.part) && s.quadBusy qn)

/-- Whether LMAP takes a value (R323). -/
def lmapOk (v : Word) : Bool := [0, 1, 2, 3].all (fun i => field v (16 * i + 12) 4 == 0)

/-- Whether RENTPOL takes a value (R353). -/
def rentpolOk (v : Word) : Bool :=
  field v 57 7 == 0 && field v 48 9 ≤ 256
    && [0, 16, 32].all (fun i => 1 ≤ field v i 16 && field v i 16 ≤ 4096)

/-- Whether an MTS of a management register is allowed; false is ILLEGAL (R289, R352, R355). -/
def mtsMgmtOk (s : State) (n : Nat) (v : Word) : Bool :=
  let d := s.fn s.selFunc
  if n = 0x800 then
    field v 20 44 == 0 && field v 14 2 == 0 && field v 8 6 ≤ 48 && field v 0 8 ≤ 191
  else if n = 0x801 then qpartOk s s.selQuad v
  else if n = 0x802 then fctlOk s s.selFunc v
  else if n = 0x803 then field v 16 48 == 0 && field v 8 8 < field v 0 8
  else if n = 0x804 then lqOk (d.q s.selQueue) v
  else if n = 0x805 then s.target.isSome
  else if n = 0x806 then
    field v 48 16 == 0 && field v 1 11 == 0 && (v == d.s2root || !s.hasPlaced s.selFunc)
  else if n = 0x807 then prictlOk d v
  else if n = 0x808 then !d.invBusy && invOk v
  else if n = 0x809 then field v 48 16 == 0 && field v 1 2 == 0
  else if n = 0x80A then windowOk s s.selFunc v
  else if 0x810 ≤ n ∧ n < 0x820 then
    s.target.isSome && (if n % 2 = 0 then field v 0 3 == 0 else field v 23 41 == 0 && !bit v 1)
  else if n = 0x820 then lmapOk v
  else if n = 0x821 then field v 18 46 == 0 && (field v 0 16 == 0 || 25 ≤ field v 0 16)
  else if n = 0x822 then field v 16 48 == 0 && field v 8 8 < field v 0 8
  else if n = 0x823 then field v 40 24 == 0
  else if n = 0x824 then tbktOk v
  else if n = 0x825 then
    field v 25 39 == 0 && field v 9 7 == 0 && field v 0 9 ≤ 256
      && field v 0 9 + ((List.range 49).filter (· != s.selFunc)).foldl
          (fun a f => a + (s.fn f).rctxCount) 0 ≤ 256
  else if n = 0x826 then rentpolOk v
  else if n = 0x827 then field v 17 47 == 0 && field v 0 17 ≤ 65536
  else if n = 0x828 then field v 48 16 == 0
  else if n = 0x829 then true
  else if n = 0x831 then field v 48 16 == 0 && field v 12 4 == 0
  else if n = 0x832 then mwWriteOk s v
  else false

/-! ## Writes of management registers -/

/-- A write of QPART: a change of a quad's partition starts its scrub (R264, R289). -/
def writeQpart (s : State) (v : Word) : State :=
  let q := s.quad s.selQuad
  let change := bit v 6 != q.valid || field v 0 6 != q.part
  s.updQuad s.selQuad (fun q => { q with part := field v 0 6, valid := bit v 6, scrub := q.scrub || change })

/-- A write of FCTL (R263, R289). -/
def writeFctl (s : State) (v : Word) : State :=
  s.updFn s.selFunc (fun d => { d with
    part := field v 0 6, en := bit v 6, pre := bit v 7, order := field v 8 8, turn := field v 16 32 })

/-- A write of LQ: clearing OVR clears STOP (R272, R289), and a doorbell received while EN was 0 is acted on before any
that comes later (R335). -/
def writeLq (s : State) (v : Word) : State :=
  let f := s.selFunc
  let n := s.selQueue
  let q := (s.fn f).q n
  let t := s.updFn f (fun d => { d with queues := Tbl.upd d.queues n {} (fun q =>
    { q with ldepth := field v 0 5, en := bit v 5, ovr := q.ovr && !bit v 7, stop := q.stop && !bit v 7 }) })
  if bit v 5 && !q.en then t.push [.doorbell f n q.wptr] else t

/-- A write of INV starts an invalidation (R299). -/
def writeInv (s : State) (v : Word) : State :=
  (s.updFn s.selFunc (fun d => { d with inv := v &&& ~~~(put [(63, 1)]), invBusy := true })).later
    [.invalidationComplete s.selFunc false]

/-- A write of PRICTL (R302). -/
def writePrictl (s : State) (v : Word) : State :=
  s.updFn s.selFunc (fun d => { d with
    priEn := bit v 20, priStop := d.priStop && !bit v 19, priAlloc := field v 0 9 })

/-- A write of TBKT fills the bucket at each core of the quad, and the units that wait there are the first to be served
(R342, R343). -/
def writeTbkt (s : State) (v : Word) : State :=
  let f := s.selFunc
  let waits (k : Nat) : Int := if s.tokenRate f k = 0 ∨ field v 0 16 = 0 then 0 else min (s.bucket f k).tokens 0
  let old := s
  let s := s.updFn f (fun d => { d with tbkt := Tbl.set d.tbkt s.selQuad (field v 16 16, field v 0 16) })
  (quadCores s.selQuad).foldl (fun s k =>
    s.updCore k (fun c => { c with tokens := Tbl.set c.tokens f { old.bucket f k with
      tokens := (field v 16 16 : Int) + waits k } })) s

/-- A write of LMAP: FORCE of the quad's cores (R323). -/
def writeLmap (s : State) (v : Word) : State :=
  (quadCores s.selQuad).zipIdx.foldl (fun s p =>
    s.updCore p.1 (fun c => { c with force := BitVec.ofNat 4 (field v (16 * p.2 + 8) 4) })) s

/-- A write of WINDOW: storage that leaves the window is scrubbed (R296, R356). -/
def writeWindow (s : State) (v : Word) : State :=
  let f := s.selFunc
  let t := s.updFn f (fun d => { d with window := v })
  let gone (a : Nat) : Bool := s.inWindow f a && !t.inWindow f a
  if field (s.fn f).window 24 24 = 0 then t
  else { t with mem := s.mem.filter (fun c => !gone c.1), poison := s.poison.filter (fun u => !gone u)
                wrong := s.wrong.filter (fun p => !gone p.1), badWrites := s.badWrites.filter (fun u => !gone u) }

/-- The landing of an MTS of a management register (R289). A value that has become forbidden since
its issue changes nothing. -/
def mtsMgmt (s : State) (n : Nat) (v : Word) : State :=
  if !mtsMgmtOk s n v then s
  else if n = 0x800 then { s with sel := v }
  else if n = 0x801 then writeQpart s v
  else if n = 0x802 then writeFctl s v
  else if n = 0x803 then { s with heatLow := field v 8 8, heatHigh := field v 0 8 }
  else if n = 0x804 then writeLq s v
  else if n = 0x805 then
    match s.target with
    | some (k, _) => s.updCore k (fun c => { c with swstat := setField v 16 16 (field c.swstat 16 16) })
    | none => s
  else if n = 0x806 then s.updFn s.selFunc (fun d => { d with s2root := v })
  else if n = 0x807 then writePrictl s v
  else if n = 0x808 then writeInv s v
  else if n = 0x809 then s.updFn s.selFunc (fun d => { d with dirty := v })
  else if n = 0x80A then writeWindow s v
  else if 0x810 ≤ n ∧ n < 0x820 then
    match s.target with
    | some (k, _) =>
        s.updCore k (fun c =>
          if n % 2 = 0 then { c with bpAddr := Tbl.set c.bpAddr ((n - 0x810) / 2) v }
          else { c with bpCtl := Tbl.set c.bpCtl ((n - 0x810) / 2) v })
    | none => s
  else if n = 0x820 then writeLmap s v
  else if n = 0x821 then
    s.updQuad s.selQuad (fun q => { q with limit := field v 0 16, fnar := bit v 16, anar := bit v 17 })
  else if n = 0x822 then { s with lLow := field v 8 8, lHigh := field v 0 8 }
  else if n = 0x823 then
    { s with errUe := if field v 20 20 = 0xFFFFF then 0 else s.errUe
             errCe := if field v 0 20 = 0xFFFFF then 0 else s.errCe }
  else if n = 0x824 then writeTbkt s v
  else if n = 0x825 then s.updFn s.selFunc (fun d => { d with rctxCount := field v 0 9 })
  else if n = 0x826 then
    { s with refund := field v 48 9, rates := (field v 0 16, field v 16 16, field v 32 16) }
  else if n = 0x827 then { s with rlowm := field v 0 17 }
  else if n = 0x828 then { s with patrolR := v }
  else if n = 0x829 then (if bit v 63 then { s with errValid := false } else s)
  else if n = 0x831 then { s with mwsel := v }
  else if n = 0x832 then mwWrite s v
  else s

/-- The writes of management registers that have landed in this cycle take effect (R352). -/
def State.withPolicy (s : State) : State := s.policy.foldl (fun s p => mtsMgmt s p.1 p.2) { s with policy := [] }

/-! ## MFS and MTS of the issuing context (R133, R290) -/

/-- What MFS of register `n` reads; none is ILLEGAL. A management register reads as the writes that have landed leave it. -/
def sysRead (s : State) (k j n : Nat) : Option Word :=
  if isHitik k then
    (if n < 0x800 then (if hitikUser n then mfsUser s k j n else none) else mfsMgmt s.withPolicy n)
  else if n < 0x800 then mfsUser s k j n else none

/-- Whether MTS of register `n` with a value is allowed; false is ILLEGAL. -/
def sysWriteOk (s : State) (k n : Nat) (v : Word) : Bool :=
  if isHitik k then
    (if n < 0x800 then hitikUser n && mtsUserOk n v else mtsMgmtOk s.withPolicy n v)
  else n < 0x800 && mtsUserOk n v

/-- What the landing of MTS does: a management register's value takes effect from the next cycle (R352). -/
def sysWrite (s : State) (k j n : Nat) (v : Word) : State :=
  if 0x800 ≤ n then { s with policy := s.policy ++ [(n, v)] } else mtsUser s k j n v

end Sys2Proof.Machine
end

