-- ==== Sys2Proof/Machine/BlockTable.lean ====
section
/-!
DEFINITION. The tables of the block store (R233): the entries of stage 1 and of the block table as words, how Hitik
reaches them with its loads and stores (R290), and the poison of their units (R307).
-/
namespace Sys2Proof.Machine

/-- The block store of a function. -/
def State.store (s : State) (f : Nat) : Store := (s.fn f).store
/-- Change a block store. -/
def State.updStore (s : State) (f : Nat) (g : Store → Store) : State :=
  s.updFn f (fun d => { d with store := g d.store })

/-- A block-table entry. -/
def State.block? (s : State) (f g : Nat) : Option Block := Tbl.find (s.store f).blocks g

/-- The entry of a name, present or dead (R233). -/
def State.kvEntry (s : State) (f key : Nat) : Option KvEntry := Tbl.find (s.store f).stage1 key

/-- The 8 bytes of a stage-1 entry: V, DEAD, TIER, PKG, GBN (R233). -/
def KvEntry.word (e : KvEntry) : Word :=
  put [(63, 1), (62, b2n e.dead), (60, e.tier % 4), (50, e.pkg % 1024), (0, e.gbn % 2 ^ 32)]

/-- The stage-1 entry that 8 bytes hold, if it is present (R233). -/
def KvEntry.ofWord (w : Word) : Option KvEntry :=
  if !bit w 63 then none
  else some { dead := bit w 62, tier := field w 60 2, pkg := field w 50 10, gbn := field w 0 32 }

/-- The 16 bytes of a block-table entry: PADDR with FMT, DIRTY and POISON; PAIDUNTIL and REFCNT (R233). -/
def Block.words (b : Block) : Word × Word :=
  (put [(16, b.paddr / 65536), (0, b.fmt % 16), (4, b2n b.dirty), (5, b2n b.poison)],
   put [(0, b.paid % 2 ^ 48), (48, b.ref % 65536)])

/-- The block-table entry that 16 bytes hold (R233). -/
def Block.ofWords (w : Word × Word) : Block :=
  { paddr := field w.1 16 48 * 65536, fmt := field w.1 0 4, dirty := bit w.1 4, poison := bit w.1 5
    paid := field w.2 0 48, ref := field w.2 48 16 }

/-- What a word of the block-store tables holds (R233). -/
def State.kvWord (s : State) (w : Config.KvWord) : Word :=
  match w with
  | .other => 0
  | .stage1 f key => ((s.kvEntry f key).map KvEntry.word).getD 0
  | .block f g second => ((s.block? f g).map (fun b => if second then b.words.2 else b.words.1)).getD 0

/-- Hitik writes a word of the tables: an entry comes, changes or goes (R233, R290). -/
def State.setKvWord (s : State) (w : Config.KvWord) (v : Word) : State :=
  match w with
  | .other => s
  | .stage1 f key => s.updStore f (fun t => { t with
      stage1 := match KvEntry.ofWord v with
        | some e => Tbl.set t.stage1 key e
        | none => Tbl.erase t.stage1 key })
  | .block f g second =>
      let old := ((s.block? f g).map Block.words).getD (0, 0)
      let new := if second then (old.1, v) else (v, old.2)
      s.updStore f (fun t => { t with
        blocks := if new = (0, 0) then Tbl.erase t.blocks g else Tbl.set t.blocks g (Block.ofWords new) })

/-- A unit of the tables that the translation of a name reads and that is poisoned: that of its stage-1 entry, or of the
entry of its block here (R233, R307). -/
def State.badTable (s : State) (f key : Nat) : Option Nat :=
  if s.poison.isEmpty then none
  else
    let blk := match (s.kvEntry f key).filter (fun e => !e.dead && e.pkg == s.pkg) with
      | some e => [Config.kvAddrOf (.block f e.gbn false)]
      | none => []
    ((Config.kvAddrOf (.stage1 f key) :: blk).map (fun a => a / 64 * 64)).find? s.poisoned

/-- Bytes at a device-physical address, those of the block-store tables as the tables hold them (R233, log 101). -/
def State.overTables (s : State) (a : Nat) (bs : List Byte) : List Byte :=
  bs.zipIdx.map (fun x =>
    match Config.kvWordAt ((a + x.2) / 8 * 8) with
    | .other => x.1
    | w => BitVec.ofNat 8 (field (s.kvWord w) ((a + x.2) % 8 * 8) 8))

/-- A byte of a block-store table is written (R233, log 101). -/
def State.setTableByte (s : State) (a : Nat) (b : Byte) : State :=
  match Config.kvWordAt (a / 8 * 8) with
  | .other => s
  | w => s.setKvWord w (setField (s.kvWord w) (a % 8 * 8) 8 b.toNat)

/-- The bytes that Hitik writes at a device-physical address go into the block-store tables, where those lie there. -/
def State.intoTables (s : State) (a : Nat) (bs : List Byte) : State :=
  bs.zipIdx.foldl (fun s x => s.setTableByte (a + x.2) x.1) s

end Sys2Proof.Machine
end

