-- ==== Sys2Proof/Machine/Access.lean ====
section
/-!
DEFINITION. Memory accesses of a core: the two views of a scratchpad (R68), loads and stores through the
translation with their side effects (tokens R342, dirty bits R311, cached leaves R314, uncorrectable
units R330), the landing minimum of a timed load (R112), and page requests (R300).
-/
namespace Sys2Proof.Machine

/-! ## Views (R68, R249) -/

/-- The linear address a swizzled device-physical scratchpad address names (R68). -/
def swizzle (a : Nat) : Nat := a - a / 128 % 32 * 128 + (a / 128 % 32 ^^^ a / 4096 % 32) * 128

/-- Whether core `k`'s own scratchpad holds the address. -/
def ownPad (k a : Nat) : Bool := within a (Config.tierBase 1 k) 8388608

/-- The 8-byte word at a unit. -/
def State.unitWord (s : State) (u : Nat) : Word := BitVec.ofNat 64 (ofBytes (Memory.bytes s.mem u 8))

/-- The writes of a unit that every read of its core must see from now on are forgotten: those up to the last one that
a view join came after (R249). -/
def XView.prune (e : XView) : XView :=
  let n := e.writes.zipIdx.foldl (fun m w => if w.1.joined then w.2 + 1 else m) 0
  if n = 0 then e
  else { e with base := ((e.writes[n - 1]?).map (·.val)).getD e.base, writes := e.writes.drop n
                seen := e.seen.map (fun p => (p.1, p.2.1, p.2.2 - n)) }

/-- Units of a core with something to remember. -/
def keepViews (l : List XView) : List XView := (l.map XView.prune).filter (fun e => !e.writes.isEmpty)

/-- Note a write to a unit of a core's scratchpad, which held `old` before (R68, R249). -/
def noteUnit (s : State) (h u : Nat) (old : Word) (w : XWrite) : State :=
  s.updCore h (fun c =>
    if w.joined then { c with xview := c.xview.filter (fun e => e.unit != u) }
    else if c.xview.any (fun e => e.unit == u) then
      { c with xview := c.xview.map (fun e => if e.unit == u then { e with writes := e.writes ++ [w] } else e) }
    else { c with xview := { unit := u, base := old, writes := [w] } :: c.xview })

/-- The aligned 8-byte units of `n` bytes from `a`. -/
def units8 (a n : Nat) : List Nat :=
  if n = 0 then [] else (List.range ((a + n - 1) / 8 - a / 8 + 1)).map (fun i => (a / 8 + i) * 8)

/-- The core whose scratchpad holds a device-physical address. -/
def padOf (a : Nat) : Option Nat :=
  match dpaHome a with
  | some (1, h) => some h
  | _ => none

/-- Write device-physical bytes from core `k` in a view: a bundle or an engine of it writes, or its channel `ch`
(R249). -/
def writePad (s : State) (k a : Nat) (swz : Bool) (bs : List Byte) (ch : Option Nat := none) (joined : Bool := false) :
    State :=
  match padOf a with
  | none => s.writeDpa a bs
  | some h =>
      let from_ : XFrom := if h ≠ k then .other else match ch with
        | some n => .cmd n
        | none => .own
      let us := units8 a bs.length
      let t := s.writeDpa a bs
      us.foldl (fun t u => noteUnit t h u (s.unitWord u)
        { val := t.unitWord u, swz := swz, from_ := from_, joined := joined }) t

/-- How many writes of a unit a read of slot `j` in a view must see at least: those up to the last one in that view, and
what the slot has seen in it (R243). -/
def XView.least (e : XView) (j : Nat) (swz : Bool) : Nat :=
  let n := e.writes.zipIdx.foldl (fun m w => if w.1.swz == swz then w.2 + 1 else m) 0
  e.seen.foldl (fun m p => if p.1 == j && p.2.1 == swz then max m p.2.2 else m) n

/-- What a unit holds after its first `n` writes. -/
def XView.at_ (e : XView) (n : Nat) : Word :=
  if n = 0 then e.base else ((e.writes[n - 1]?).map (·.val)).getD e.base

/-- Slot `j` has seen `n` writes of a unit in a view. -/
def XView.see (e : XView) (j : Nat) (swz : Bool) (n : Nat) : XView :=
  { e with seen := (j, swz, n) :: e.seen.filter (fun p => !(p.1 == j && p.2.1 == swz)) }

/-- What slot `j` of core `k` reads at a unit in a view: where writes of the other view are not joined, one of the
values the unit may have for it, as a free value chooses, and later reads see no older one (R68, R243, log 7). -/
def readUnit (s : State) (k j u : Nat) (swz : Bool) : State × List Byte :=
  match (s.core k).xview.find? (fun e => e.unit == u) with
  | none => (s, Memory.bytes s.mem u 8)
  | some e =>
      let n := e.writes.length
      let m := e.least j swz
      if n ≤ m then (s, Memory.bytes s.mem u 8)
      else
        let (s, f) := s.drawFree
        let i := f.toNat % (n - m + 1)
        let seen := if i < n - m then n - 1 - i else n
        let s := s.updCore k (fun c => { c with xview := c.xview.map (fun y =>
          if y.unit == u then y.see j swz seen else y) })
        (s, if seen < n then toBytes 8 (e.at_ seen).toNat else Memory.bytes s.mem u 8)

/-- Read device-physical bytes for slot `j` of core `k` in a view. -/
def readPad (s : State) (k j a n : Nat) (swz : Bool) : State × List Byte :=
  if !ownPad k a || (s.core k).xview.isEmpty then (s, Memory.bytes s.mem a n)
  else
    let (s, l) := (units8 a n).foldl (fun (acc : State × List Byte) u =>
      let r := readUnit acc.1 k j u swz
      (r.1, acc.2 ++ r.2)) (s, [])
    (s, (l.drop (a % 8)).take n)

/-- A view join on a core, in the bundle of an issue key: its own writes so far, those it holds back with them, are the
same in both views from now on (R68, R249). -/
def joinCore (key : Nat) (c : CoreSt) : CoreSt :=
  { c with
    xview := keepViews (c.xview.map (fun e => { e with writes := e.writes.map (fun w =>
      if w.from_ == .own then { w with joined := true } else w) }))
    ctx := c.ctx.map (fun x => (x.1, { x.2 with held := x.2.held.map (fun h => match h.eff with
      | .store ps so j => { h with eff := .store ps so (some (j.getD key)) }
      | _ => h) })) }

/-- A context of core `k` has acquired what other parties and the core's channels wrote: a view join counts it as the
core's own (R245, R249, log 84). -/
def State.acquired (s : State) (k : Nat) : State :=
  s.updCore k (fun c => { c with xview := c.xview.map (fun e =>
    { e with writes := e.writes.map (fun w => { w with from_ := .own }) }) })

/-- A context of core `k` has acquired what a channel of the core wrote (R201, R245). -/
def State.acquiredChan (s : State) (k ch : Nat) : State :=
  s.updCore k (fun c => { c with xview := c.xview.map (fun e => { e with writes := e.writes.map (fun w =>
    if w.from_ == .cmd ch then { w with from_ := .own } else w) }) })

/-! ## Memory ranges of an operation (R52, R186, R191) -/

/-- A range of bytes an operation names. -/
structure Rng where
  p : Acc
  write : Bool
  a : Nat
  n : Nat
  deriving DecidableEq, Repr

/-- Row addresses `a + r * stride` modulo 2^64, for `n` rows. -/
def rowsAt (a stride : Word) (n : Nat) : List Nat :=
  (List.range n).map (fun r => (a + BitVec.ofNat 64 r * stride).toNat)

/-- The ranges of an operation, given its staged operands and its binding. -/
def qRanges (i : Instr) (a b : Word) (bind : Option AccBind) : List Rng :=
  match i with
  | .tld .. => (rowsAt a b 32).map (fun x => { p := .tile, write := false, a := x, n := 128 })
  | .tst .. => (rowsAt a b 32).map (fun x => { p := .tile, write := true, a := x, n := 128 })
  | .accld .. =>
      match bind with
      | none => []
      | some n => (rowsAt a b n.rows).map (fun x => { p := .acc, write := false, a := x, n := 4 * n.cols })
  | .accst _ t .. =>
      match bind with
      | none => []
      | some n => (rowsAt a b n.rows).map (fun x =>
          { p := .acc, write := true, a := x, n := t.width / 8 * n.cols })
  | _ => []

/-- The ranges of a queued operation. -/
def QOp.ranges (o : QOp) : List Rng := qRanges o.i o.a o.b o.bind_

/-- Whether an operation of the context in slot `j` of core `k` makes SO accesses of one kind, reads or writes (R244). -/
def QOp.so (s : State) (k j : Nat) (o : QOp) (write : Bool) : Bool :=
  o.ranges.any (fun r => r.write == write && (segsOf s k (s.who k j) r.p r.write r.a r.n).any (fun g => g.2.1.kind == 0))

/-! ## Loads and stores through the translation -/

/-- The context in slot `j` of core `k` accesses a region: its first access to one that was handed over to its launch is
an acquire (R61, R245). -/
def firstTouch (s : State) (k j : Nat) (h : Hit) : State :=
  match h.region with
  | none => s
  | some r =>
      if (s.ctx k j).fresh.contains r then
        (s.acquired k).updCtx k j (fun x => { x with fresh := x.fresh.filter (· != r) })
      else s

/-- The same for the regions of some segments. -/
def touchAll (s : State) (k j : Nat) (segs : List (Nat × Hit × Nat)) : State :=
  if (s.ctx k j).fresh.isEmpty then s else segs.foldl (fun s g => firstTouch s k j g.2.1) s

/-- Cache the leaves of every table-mapped unit of some segments (R314). -/
def fillAll (s : State) (w : Who) (segs : List (Nat × Hit × Nat)) : State :=
  segs.foldl (fun s g => fillTlb s w g.2.1 g.1) s

/-- Bytes at `a` with those a store piece writes put over them. -/
def overPiece (a : Nat) (bs : List Byte) (p : Nat × List Byte × Option Nat) : List Byte :=
  bs.zipIdx.map (fun x =>
    if within (a + x.2) p.1 p.2.1.length then (p.2.1[a + x.2 - p.1]?).getD x.1 else x.1)

/-- Bytes at a device-physical address as a context sees them: its own held stores lie over them
(R172, R189). -/
def overHeld (hs : List Held) (a : Nat) (bs : List Byte) : List Byte :=
  hs.foldl (fun bs h =>
    match h.eff with
    | .store ps _ _ => ps.foldl (overPiece a) bs
    | _ => bs) bs

/-- The effects of the context that is in the slot now that are held back (R189). -/
def Ctx.myHeld (x : Ctx) (inst : Nat) : List Held := x.held.filter (fun h => h.inst == inst)

/-- Bytes of the virtual range `[a, a + n)` that lie in a poisoned unit, as a mask over them. -/
def poisonMask (s : State) (a : Nat) (segs : List (Nat × Hit × Nat)) : Nat :=
  if s.poison.isEmpty then 0
  else segs.foldl (fun m g => if s.poisoned g.2.1.dpa then m ||| (2 ^ g.2.2 - 1) * 2 ^ (g.1 - a) else m) 0

/-- Read a checked range in the linear view for the context in slot `j`, with the side effects of the
access: the state, the bytes, the units its data waits for, the virtual address of the first poisoned
unit, every unit being checked (R330), and which of the bytes are poisoned. -/
def loadVa (s : State) (k j : Nat) (w : Who) (p : Acc) (a n : Nat) :
    State × List Byte × List Ticket × Option Nat × Nat :=
  let segs := segsOf s k w p false a n
  let po := if s.poison.isEmpty then none
    else segs.findSome? (fun g => (s.poisonIn g.2.1.dpa g.2.2).map (fun _ => g.1 / 64 * 64))
  let s := touchAll (if isHitik k then s else fillAll s w segs) k j segs
  let (s, arr) := if isHitik k then (s, []) else takeAll s (s.fnOf w.launch) segs
  let hs := (s.ctx k j).myHeld (s.ctx k j).inst
  let (s, bs) := segs.foldl (fun (acc : State × List Byte) g =>
    let r := readPad (acc.1.checkRead g.2.1.dpa g.2.2) k j g.2.1.dpa g.2.2 false
    let l := overHeld hs g.2.1.dpa r.2
    (r.1, acc.2 ++ (if isHitik k then s.overTables g.2.1.dpa l else l))) (s, [])
  (s, bs, arr, po, poisonMask s a segs)

/-- Apply one piece of a store of core `k` for function `f`; `joined`: a view join came after the store (R249). -/
def applyPiece (k f : Nat) (joined : Bool) (s : State) (p : Nat × List Byte × Option Nat) : State :=
  let s := writePad s k p.1 false p.2.1 none joined
  match dpaHome p.1 with
  | some (t, h) =>
      if isHitik k then s.intoTables p.1 p.2.1 else markDirty s f { dpa := p.1, tier := t, home := h, kind := 0, gpa := p.2.2 }
  | none => s

/-- The queued operations whose memory writes are not complete; those of the bundle being issued count as before a
release of it (R189, R246). -/
def Ctx.pendingStores (x : Ctx) : List Nat :=
  x.mine.filterMap (fun o => match o.i with
    | .accst .. | .tst .. => some o.id
    | _ => none)

/-- The queued operations of earlier bundles whose SO writes come before an SO store of this one (R242, R244). -/
def State.pendingSo (s : State) (k j : Nat) : List Nat :=
  let x := s.ctx k j
  (x.mine.filter (fun o => decide (o.issue < x.issues) && o.so s k j true)).map (·.id)

/-- Hold an effect of a context back. -/
def holdEff (s : State) (k j : Nat) (after : List Nat) (e : HeldEff) : State :=
  s.updCtx k j (fun x => { x with
    held := x.held ++ [{ seq := x.heldSeq, inst := x.inst, after := after, eff := e }], heldSeq := x.heldSeq + 1 })

/-- Whether two lists of store pieces meet in an aligned 8-byte unit. -/
def piecesMeet (a b : List (Nat × List Byte × Option Nat)) : Bool :=
  a.any (fun x => b.any (fun y =>
    decide (x.1 / 8 ≤ (y.1 + y.2.1.length - 1) / 8) && decide (y.1 / 8 ≤ (x.1 + x.2.1.length - 1) / 8)))

/-- Whether a store that is no release waits behind a held effect: a store to the same unit (R172, R243), an SO store
where it is one itself (R244), and a fence that names a page kind of it (R247). -/
def HeldEff.before (e : HeldEff) (ps : List (Nat × List Byte × Option Nat)) (kinds : List Nat) : Bool :=
  match e with
  | .store qs so _ => piecesMeet qs ps || (so && kinds.contains 0)
  | .arrive .. | .handover .. => false
  | .fence ks _ => kinds.any ks.testBit

/-- Write bytes to checked ranges in the linear view, with the side effects of the access. A release is held back while
earlier ACCST and TST writes run and behind everything that is held back (R189); another store only where something
held back comes before it, and an SO store behind the SO writes of earlier queued operations (R244). -/
def storeVa (s : State) (k j : Nat) (w : Who) (p : Acc) (rel : Bool) (a : Nat) (bs : List Byte) : State :=
  let segs := segsOf s k w p true a bs.length
  let s := touchAll (if isHitik k then s else fillAll s w segs) k j segs
  let s := if isHitik k then s else (takeAll s (s.fnOf w.launch) segs).1
  let ps := segs.map (fun g => (g.2.1.dpa, (bs.drop (g.1 - a)).take g.2.2, g.2.1.gpa))
  let x := s.ctx k j
  let kinds := segs.map (fun g => g.2.1.kind)
  let pend := if rel then x.pendingStores else if kinds.contains 0 then s.pendingSo k j else []
  let hs := x.myHeld x.inst
  if pend.isEmpty && (if rel then hs.isEmpty else !hs.any (fun h => h.eff.before ps kinds)) then
    ps.foldl (applyPiece k (s.fnOf w.launch) false) s
  else holdEff s k j pend (.store ps (kinds.contains 0) none)

/-- The landing minimum of one byte (R112). -/
def minOf (k : Nat) (h : Hit) : Nat :=
  if h.tier = 1 then (if h.home = k then 6 else 24) else 760

/-- The landing minimum of a range (R112). -/
def rangeMin (s : State) (k : Nat) (w : Who) (p : Acc) (a n : Nat) : Nat :=
  (segsOf s k w p false a n).foldl (fun m g => max m (minOf k g.2.1)) 6

/-- The runs of set bits of a mask of `n` bits, as (offset, length), lowest first. -/
def runsFrom (m : Pred) : Nat → Nat → List (Nat × Nat)
  | 0, _ => []
  | f + 1, i =>
      if m.getLsbD i then
        match runsFrom m f (i + 1) with
        | (o, n) :: r => if o = i + 1 then (i, n + 1) :: r else (i, 1) :: (o, n) :: r
        | [] => [(i, 1)]
      else runsFrom m f (i + 1)

/-- The guarded runs of 128 bytes. -/
def runs (m : Pred) : List (Nat × Nat) :=
  if m = BitVec.allOnes 128 then [(0, 128)] else runsFrom m 128 0

/-! ## Page requests (R300) -/

/-- The first number below `n` that a list does not hold. -/
def firstFree (n : Nat) (l : List Nat) : Option Nat := (List.range n).find? (fun i => !l.contains i)

/-- What an access waits for when every group index is in use: the number of no request. -/
def noRequest : Nat := 0

/-- Whether a wait for a page request is over: it was answered, or, where none could be sent, a group index is free
(R300, R301). -/
def State.answered (s : State) (f n : Nat) : Bool :=
  let d := s.fn f
  if n = noRequest then decide (d.reqs.length < d.priAlloc) else !d.reqs.any (fun r => r.id == n)

/-- Join or send the page request of a guest-physical page: the state and the request's number (R300). A cached leaf
of stage 2 that does not allow the access is taken out first (R314). -/
def requestPage (s : State) (f gpa : Nat) (write : Bool) : State × Nat :=
  let s := s.updFn f (fun d => { d with tlb := d.tlb.filter (fun e => e.stage1 || !within gpa e.page e.size) })
  let s := checkEntries s (walk2Reads s f gpa)
  let d := s.fn f
  let page := gpa / 4096
  match d.reqs.find? (fun r => r.page == page && (r.write || !write)) with
  | some r => (s, r.id)
  | none =>
      match firstFree d.priAlloc (d.reqs.map (·.group)) with
      | none => (s, noRequest)
      | some g =>
          let r : PageReq := { id := d.asked + 1, group := g, page := page, write := write }
          ({ s.updFn f (fun d => { d with reqs := d.reqs ++ [r], asked := d.asked + 1 }) with
              priSent := s.priSent ++ [(f, r)] }, r.id)

/-- Whether a stage-2 miss of a function is handled as Invalid Request at once (R301, R302). -/
def State.noPages (s : State) (f : Nat) : Bool := !(s.fn f).priEn || (s.fn f).priStop

end Sys2Proof.Machine
end

