-- ==== Sys2Proof/Machine/Check.lean ====
section
/-!
DEFINITION. What is looked for before an operation takes effect: stalls, faults, page waits and blocks
(R28, R104, R121, R122, R303), what each of them does, and `issueOp`, the frame of every meaning.
-/
namespace Sys2Proof.Machine

/-- Why a bundle does not issue in this cycle although it neither faults nor blocks. -/
inductive Stall
  /-- A landing-entry drain (R113). -/
  | landing
  /-- The drain of ERET or of an SP bundle (R120, R148). -/
  | safe
  /-- A freeze until ready tags are set (R116). -/
  | tags
  /-- A freeze of a load until earlier stores that it must not pass are visible (R244, R247, log 85). -/
  | order
  deriving DecidableEq, Repr

/-- What stands against the issue of an operation. -/
structure Chk where
  stall : Option Stall := none
  fault : Option Flt := none
  /-- Stage-2 misses: function, guest-physical address, and whether it writes. -/
  pages : List (Nat × Nat × Bool) := []
  /-- A block, with what the context waits for; a block with nothing to wait for stays Ready. -/
  block : Option (Option Wait) := none
  deriving DecidableEq, Repr

/-- The fault that is reported of two (R122). -/
def worse (a b : Option Flt) : Option Flt :=
  match a, b with
  | none, y => y
  | x, none => x
  | some x, some y =>
      if y.cause.rank < x.cause.rank ∨ (y.cause.rank = x.cause.rank ∧ y.slot < x.slot) then some y
      else some x

/-- The stall of two that counts: the one whose field of FREEZE is further left, and a freeze before a drain (R115). -/
def worseStall (a b : Option Stall) : Option Stall :=
  match a, b with
  | some .tags, _ => some .tags
  | _, some .tags => some .tags
  | some .safe, _ => some .safe
  | _, some .safe => some .safe
  | some .order, _ => some .order
  | _, some .order => some .order
  | none, y => y
  | some .landing, _ => some .landing

/-- Everything that stands against two operations. -/
def Chk.and (a b : Chk) : Chk :=
  { stall := worseStall a.stall b.stall, fault := worse a.fault b.fault, pages := a.pages ++ b.pages
    block := a.block <|> b.block }

/-- A fault of the issuing operation. -/
def State.flt (s : State) (c : Cause) (addr : Word) : Flt :=
  { cause := c, addr := addr, slot := s.issue.slot.num }
/-- An ILLEGAL of the issuing operation (R145). -/
def State.illegal (s : State) : Flt := s.flt .illegal s.issue.syl
/-- A fault if a condition holds. -/
def faultIf (c : Bool) (f : Flt) : Chk := if c then { fault := some f } else {}
/-- A block that stays Ready, if a condition holds. -/
def blockIf (c : Bool) : Chk := if c then { block := some none } else {}

/-- The lowest-numbered invalid latch an instruction reads, in the order of its sources (R31). -/
def State.badLatch (s : State) (i : Instr) : Option Nat :=
  i.srcs.findSome? (fun x => match x with
    | .latch n => if (Tbl.find s.myCore.latches n.toNat).isNone then some n.toNat else none
    | _ => none)

/-- The S0-only forms a Hitik context has, and every operation of other slots (R290). -/
def hitikHas (i : Instr) : Bool :=
  match i with
  | .fence .. => true
  | .watch _ _ (.mem ..) _ => true
  | _ => i.slotOk .s1

/-- Whether a Hitik context issues an operation in a slot: S0 and S1 are all the slots it has (R290). -/
def hitikIssues (sl : Slot) (i : Instr) : Bool := (sl == .s0 || sl == .s1) && hitikHas i

/-- What stands against any operation: a broadcast with no port (R98), a latch that is not valid (R31),
a form a Hitik context has not (R290). -/
def baseChk (i : Instr) (s : State) : Chk :=
  if i.srcs.contains .bc && s.issue.bps == 0 then { fault := some s.illegal }
  else if isHitik s.issue.core && !hitikIssues s.issue.slot i then { fault := some s.illegal }
  else match s.badLatch i with
    | some n => { fault := some (s.flt .latch (BitVec.ofNat 64 n)) }
    | none => {}

/-! ## Memory ranges (R52, R298, R303) -/

/-- The fault a part of a range that is not allowed raises, if it raises one at issue. -/
def partFault (s : State) (r : Rng) (x : Nat × Xl) : Option Flt :=
  let at_ : Word := BitVec.ofNat 64 x.1
  match x.2 with
  | .hit _ => none
  | .pend _ => none
  | .bad c => some (s.flt c at_)
  | .tblPoison f u =>
      if r.p == .cmd then none
      else some { s.flt .poison (BitVec.ofNat 64 r.a) with report := some (3, f, u) }
  | .s2bad f u =>
      if r.p == .bundle then some { s.flt .xlate at_ with report := some (2, f, u) } else none
  | .miss f g _ =>
      if r.p == .bundle && (s.noPages f || s.me.badPages.contains (g / 4096)) then
        some (s.flt .xlate at_)
      else none

/-- The first fault of a list of parts, lowest address first, of the first cause (R122, R145). -/
def firstFault : List Flt → Option Flt
  | [] => none
  | f :: r =>
      match firstFault r with
      | none => some f
      | some g => if g.cause.rank < f.cause.rank then some g else some f

/-- The hand-over some part of a range waits for (R62). -/
def pendingOf : List (Nat × Xl) → Option Nat
  | [] => none
  | (_, .pend b) :: _ => some b
  | _ :: r => pendingOf r

/-- The lowest stage-2 miss of a range. -/
def missOf : List (Nat × Xl) → Option (Nat × Nat × Bool)
  | [] => none
  | (_, .miss f g w) :: _ => some (f, g, w)
  | _ :: r => missOf r

/-- The parts of a range that are not allowed to the context in slot `j` of core `k`. A byte in a page whose
request was answered Invalid Request is not looked at again (R301). -/
def rngParts (s : State) (k j : Nat) (r : Rng) : List (Nat × Xl) :=
  let w := s.who k j
  let bad := (s.ctx k j).badPages
  if bad.isEmpty then nonHits s k w r.p r.write r.a r.n
  else (unitsOf r.a r.n).filterMap (fun u =>
    match byteRights s k w r.p u.1 r.write with
    | .hit h => if h.gpa.any (fun g => bad.contains (g / 4096)) then some (u.1, .bad .xlate) else none
    | x => some (u.1, x))

/-- Whether a load must not pass something that is held back: an SO load an SO store (R244), a load a full fence that
names its page kind (R247). It waits as for late data (R114, log 85). -/
def orderStall (s : State) (r : Rng) : Option Stall :=
  let hs := s.me.myHeld s.me.inst
  if r.write || hs.isEmpty || r.p != .bundle then none
  else
    let kinds := (segsOf s s.issue.core (s.who s.issue.core s.issue.ctx) r.p false r.a r.n).map (fun g => g.2.1.kind)
    if hs.any (fun h => match h.eff with
      | .store _ so _ => so && kinds.contains 0
      | .fence ks full => full && kinds.any ks.testBit
      | .arrive .. | .handover .. => false) then some .order else none

/-- What stands against an access of a range by the issuing context. -/
def rngChk (s : State) (r : Rng) : Chk :=
  let l := rngParts s s.issue.core s.issue.ctx r
  { stall := orderStall s r
    fault := firstFault (l.filterMap (partFault s r))
    pages := if r.p == .bundle then (match missOf l with
      | some (f, g, w) => if s.noPages f then [] else [(f, g, w)]
      | none => []) else []
    block := (pendingOf l).map (fun b => some (.pending b)) }

/-- The fault of the lowest address among several of one operation, by cause first. -/
def lowest (a b : Option Flt) : Option Flt :=
  match a, b with
  | none, y => y
  | x, none => x
  | some x, some y =>
      if y.cause.rank < x.cause.rank ∨ (y.cause.rank = x.cause.rank ∧ y.addr.ult x.addr) then some y
      else some x

/-- What stands against several ranges of one operation. -/
def rngsChk (s : State) : List Rng → Chk
  | [] => {}
  | r :: l =>
      let a := rngChk s r
      let b := rngsChk s l
      { a.and b with fault := lowest a.fault b.fault }

/-! ## What a stall, a fault, a page wait and a block do -/

/-- A counter of FREEZE goes up by one, saturating (R115). -/
def State.countFreeze (s : State) (k lo : Nat) : State :=
  s.updCore k (fun c => { c with freeze := setField c.freeze lo 16 (min 0xFFFF (field c.freeze lo 16 + 1)) })

/-- The members of the gang core `k` is in, or core `k` alone (R33). -/
def State.gangOf (s : State) (k : Nat) : List Nat :=
  match (s.core k).gang with
  | some (first, n) => (List.range n).map (first + ·)
  | none => [k]

/-- The members of a context's gang, as (core, slot): a gang runs in slot 0 of its cores (R33). -/
def State.gangSlots (s : State) (k j : Nat) : List (Nat × Nat) :=
  if j = 0 then (s.gangOf k).map (fun m => (m, 0)) else [(k, j)]

/-- What has landed on a core in this issue cycle goes back into flight. -/
def takeBack (s : State) (k : Nat) : State :=
  [3, 2, 1, 0].foldl (fun s j => undoLandings s k j (s.core k).ic false) s

/-- This core cycle is a freeze cycle of the gang of core `k`, for the members in `why`, each with the field of its
cause (R104, R114, R34). A core with an event on another member counts it in GANGF, the leftmost (R115). No result
lands in it: what has landed lands again with the issue. -/
def State.freezeFor (s : State) (k : Nat) (why : List (Nat × Nat)) : State :=
  (s.gangOf k).foldl (fun s m =>
    let lo := if why.any (fun w => w.1 != m) then 48 else ((why.head?).map (·.2)).getD 48
    ((takeBack s m).countFreeze m lo).updCore m (fun c => { c with frozen := true })) s

/-- A freeze cycle that one core has the cause of. -/
def State.freeze (s : State) (k lo : Nat) : State := s.freezeFor k [(k, lo)]

/-- The report of an event to Hitik (R307, R330). -/
def State.report (s : State) (r : Option (Nat × Nat × Nat)) : State :=
  match r with
  | none => s
  | some (t, f, u) =>
      let s := if s.poisoned u then s.countUe u else s
      s.hevent { type := t, fn := f, ctxid := 0, serial := 0, cause := 0, inCause := 0, resume := 0
                 addr := BitVec.ofNat 64 u }

/-- A trap of the context in slot `j` of core `k`; in a gang, of every member (R34, R146). `late`: in the
first cycle after the bundle, not in its own. -/
def State.trap (s : State) (k j : Nat) (late partner : Bool) (f : Flt) (pc : Word) (rep : Nat) : State :=
  let s := match f.ue with
    | some u => s.countUe u
    | none => s
  let s := s.report f.report
  let off := if late then 1 else 0
  match (s.core k).gang with
  | none => enterTrap s k j ((s.core k).ic + off) partner f pc rep
  | some (first, _) =>
      (s.gangOf k).foldl (fun s m =>
        enterTrap s m 0 ((s.core m).ic + off) false { f with addr := if m = k then f.addr else 0 } pc rep
          (k - first) (m != k)) s

/-- A fault of the issuing bundle cancels it (R121). -/
def State.raise (s : State) (f : Flt) : State :=
  s.trap s.issue.core s.issue.ctx false s.issue.partner f s.issue.hdr s.issue.rep

/-- The issuing context blocks (R28, R31). -/
def State.blockMe (s : State) (w : Option Wait) : State :=
  let s := s.updMe (fun x => { x with
    state := if w.isSome then .waiting else .ready
    blocked := w.isNone
    wait := match w with
      | some y => some y
      | none => x.wait })
  if s.issue.partner then s
  else s.updMyCore (fun c => if w.isSome then { c with latches := [] } else { c with retry := true })

/-- Send the page requests of some misses: the state, and the requests with whether each access writes. -/
def requestAll (s : State) (ps : List (Nat × Nat × Bool)) : State × List (Nat × Bool) :=
  ps.foldl (fun acc p =>
    let r := requestPage acc.1 p.1 p.2.1 p.2.2
    (r.1, acc.2 ++ [(r.2, p.2.2)])) (s, [])

/-- A page wait (R303): the bundle is cancelled and the context's landings go into the hold bank; every
other member of a gang keeps its own and stays Ready. -/
def State.pageWait (s : State) (ps : List (Nat × Nat × Bool)) : State :=
  let k := s.issue.core
  let p := s.issue.partner
  let (s, gs) := requestAll s ps
  (s.gangOf k).foldl (fun s m =>
    let j := if m = k then s.issue.ctx else 0
    let s := undoLandings s m j (s.core m).ic p
    let b := saveBank s m j (s.core m).ic p s.issue.hdr s.issue.rep
    let s := s.updCtx m j (fun x => { x with
      state := if m = k then .waiting else .ready
      wait := if m = k then some (.pages gs) else x.wait
      hold := some b, flight := [], undo := none, blocked := false })
    if p then s else s.updCore m (fun c => { c with latches := [] })) s

/-- What a stall does in its cycle: a drain cycle or a freeze cycle (R104, R115). -/
def State.stall (s : State) (t : Stall) : State :=
  match t with
  | .landing => s.countFreeze s.issue.core 0
  | .safe => s.countFreeze s.issue.core 16
  | .tags => s.freeze s.issue.core 16
  | .order => s.freeze s.issue.core 0

/-- Issue with `go` if nothing stands against it. -/
def settle (c : Chk) (go : State → State) (s : State) : State :=
  match c.stall with
  | some t => s.stall t
  | none =>
      match c.fault with
      | some f => s.raise f
      | none =>
          if !c.pages.isEmpty then s.pageWait c.pages
          else match c.block with
            | some w => s.blockMe w
            | none => go s

/-- Everything that stands against one operation: with a clear guard only `baseChk` (R124). -/
def opChk (i : Instr) (c : State → Chk) (s : State) : Chk :=
  (baseChk i s).and (if s.guardOn i then c s else {})

/-- THE FRAME OF EVERY MEANING. Within a bundle whose checks are over, the effect if the guard lets it
act; on its own, the checks first. -/
def issueOp (i : Instr) (c : State → Chk) (eff : State → State) (s : State) :
    Host.Outcome State Fault Refusal :=
  let go (s : State) : State := if s.guardOn i then eff s else s
  .next (if s.issue.checked then go s else settle (opChk i c s) go s)

/-- No check of its own. -/
def noChk : State → Chk := fun _ => {}

end Sys2Proof.Machine
end

