-- ==== Sys2Proof/Machine/Scalar.lean ====
section
/-!
DEFINITION. The S class: integer operations (R126 to R130), scalar loads and stores (R131, R132), and
MFS and MTS (R133).
-/
namespace Sys2Proof.Machine

/-! ## Shared forms -/

/-- A result of two scalar sources at a latency. -/
def scalar2 (i : Instr) (lat : Nat) (d : BitVec 6) (a b : Sel) (f : Word → Word → Word) (s : State) :
    Host.Outcome State Fault Refusal :=
  issueOp i noChk (fun s => s.landS lat d (f (s.src a) (s.src b))) s

/-- A result of one scalar source at a latency. -/
def scalar1 (i : Instr) (lat : Nat) (d : BitVec 6) (a : Sel) (f : Word → Word) (s : State) :
    Host.Outcome State Fault Refusal :=
  issueOp i noChk (fun s => s.landS lat d (f (s.src a))) s

/-- The shift count b<5:0> (R126). -/
def shiftCount (b : Word) : Nat := field b 0 6

/-- Bits 127:64 of a product, signed or unsigned (R126). -/
def mulHigh (u : Bool) (a b : Word) : Word :=
  if u then BitVec.ofNat 64 (a.toNat * b.toNat / 2 ^ 64)
  else BitVec.ofInt 64 (a.toInt * b.toInt / 2 ^ 64)

/-- The quotient of DIV, all ones for a divisor of zero (R127). -/
def quotient (u : Bool) (a b : Word) : Word :=
  if b = 0 then BitVec.allOnes 64
  else if u then BitVec.ofNat 64 (a.toNat / b.toNat)
  else BitVec.ofInt 64 (Int.tdiv a.toInt b.toInt)

/-- The remainder of REM, all ones for a divisor of zero (R127). -/
def remainder (u : Bool) (a b : Word) : Word :=
  if b = 0 then BitVec.allOnes 64
  else if u then BitVec.ofNat 64 (a.toNat % b.toNat)
  else BitVec.ofInt 64 (Int.tmod a.toInt b.toInt)

/-- The smaller of two words. -/
def minW (u : Bool) (a b : Word) : Word := if (if u then b.ult a else b.slt a) then b else a
/-- The larger of two words. -/
def maxW (u : Bool) (a b : Word) : Word := if (if u then a.ult b else a.slt b) then b else a

/-- Set bits of a word. -/
def popcount (a : Word) : Nat := (List.range 64).foldl (fun n i => if a.getLsbD i then n + 1 else n) 0

/-- Leading zero bits of a word (R126). -/
def leadingZeros (a : Word) : Nat := if a = 0 then 64 else 63 - a.toNat.log2

/-- A division result with IDZ for a divisor of zero, both at latency 20 (R127). -/
def divide (i : Instr) (d : BitVec 6) (a b : Sel) (f : Word → Word → Word) (s : State) :
    Host.Outcome State Fault Refusal :=
  issueOp i noChk (fun s =>
    let y := s.src b
    s.land 20 (.s d.toNat (f (s.src a) y) (BitVec.allOnes 64) ::
      (if y = 0 then [.flags (BitVec.ofNat 64 fIDZ)] else []))) s

/-- The condition of CMP (R128). -/
def condHolds (c : Cond) (a b : Word) : Bool :=
  match c with
  | .eq => a == b
  | .ne => a != b
  | .lt => a.slt b
  | .le => a.sle b
  | .ltn => a.ult b
  | .len => a.ule b

/-! ## Integer operations (R126 to R130) -/

/-- NOP (R126). -/
def execNop (s : State) : Host.Outcome State Fault Refusal := issueOp .nop noChk id s
/-- ADD (R126). -/
def execAdd (g : BitVec 4) (d : BitVec 6) (a b : Sel) (s : State) : Host.Outcome State Fault Refusal :=
  scalar2 (.add g d a b) 1 d a b (· + ·) s
/-- SUB (R126). -/
def execSub (g : BitVec 4) (d : BitVec 6) (a b : Sel) (s : State) : Host.Outcome State Fault Refusal :=
  scalar2 (.sub g d a b) 1 d a b (· - ·) s
/-- MUL (R126). -/
def execMul (g : BitVec 4) (d : BitVec 6) (a b : Sel) (s : State) : Host.Outcome State Fault Refusal :=
  scalar2 (.mul g d a b) 3 d a b (· * ·) s
/-- MULH (R126). -/
def execMulh (g : BitVec 4) (u : Bool) (d : BitVec 6) (a b : Sel) (s : State) :
    Host.Outcome State Fault Refusal :=
  scalar2 (.mulh g u d a b) 4 d a b (mulHigh u) s
/-- DIV (R127). -/
def execDiv (g : BitVec 4) (u : Bool) (d : BitVec 6) (a b : Sel) (s : State) :
    Host.Outcome State Fault Refusal :=
  divide (.div g u d a b) d a b (quotient u) s
/-- REM (R127). -/
def execRem (g : BitVec 4) (u : Bool) (d : BitVec 6) (a b : Sel) (s : State) :
    Host.Outcome State Fault Refusal :=
  divide (.rem g u d a b) d a b (remainder u) s
/-- AND (R126). -/
def execAnd (g : BitVec 4) (d : BitVec 6) (a b : Sel) (s : State) : Host.Outcome State Fault Refusal :=
  scalar2 (.and g d a b) 1 d a b (· &&& ·) s
/-- OR (R126). -/
def execOr (g : BitVec 4) (d : BitVec 6) (a b : Sel) (s : State) : Host.Outcome State Fault Refusal :=
  scalar2 (.or g d a b) 1 d a b (· ||| ·) s
/-- XOR (R126). -/
def execXor (g : BitVec 4) (d : BitVec 6) (a b : Sel) (s : State) : Host.Outcome State Fault Refusal :=
  scalar2 (.xor g d a b) 1 d a b (· ^^^ ·) s
/-- SHL (R126). -/
def execShl (g : BitVec 4) (d : BitVec 6) (a b : Sel) (s : State) : Host.Outcome State Fault Refusal :=
  scalar2 (.shl g d a b) 1 d a b (fun x y => x <<< shiftCount y) s
/-- SHR (R126). -/
def execShr (g : BitVec 4) (arith : Bool) (d : BitVec 6) (a b : Sel) (s : State) :
    Host.Outcome State Fault Refusal :=
  scalar2 (.shr g arith d a b) 1 d a b
    (fun x y => if arith then x.sshiftRight (shiftCount y) else x >>> shiftCount y) s
/-- ROT (R126). -/
def execRot (g : BitVec 4) (d : BitVec 6) (a b : Sel) (s : State) : Host.Outcome State Fault Refusal :=
  scalar2 (.rot g d a b) 1 d a b (fun x y => x.rotateLeft (shiftCount y)) s
/-- MIN (R126). -/
def execMin (g : BitVec 4) (u : Bool) (d : BitVec 6) (a b : Sel) (s : State) :
    Host.Outcome State Fault Refusal :=
  scalar2 (.min g u d a b) 1 d a b (minW u) s
/-- MAX (R126). -/
def execMax (g : BitVec 4) (u : Bool) (d : BitVec 6) (a b : Sel) (s : State) :
    Host.Outcome State Fault Refusal :=
  scalar2 (.max g u d a b) 1 d a b (maxW u) s
/-- CLZ (R126). -/
def execClz (g : BitVec 4) (d : BitVec 6) (a : Sel) (s : State) : Host.Outcome State Fault Refusal :=
  scalar1 (.clz g d a) 1 d a (fun x => BitVec.ofNat 64 (leadingZeros x)) s
/-- POPC (R126). -/
def execPopc (g : BitVec 4) (d : BitVec 6) (a : Sel) (s : State) : Host.Outcome State Fault Refusal :=
  scalar1 (.popc g d a) 1 d a (fun x => BitVec.ofNat 64 (popcount x)) s
/-- SEL (R129). -/
def execSel (g : BitVec 4) (d : BitVec 6) (c : BitVec 4) (a b : Sel) (s : State) :
    Host.Outcome State Fault Refusal :=
  issueOp (.sel g d c a b) noChk
    (fun s => s.landS 1 d (if (s.pred c).getLsbD 0 then s.src a else s.src b)) s
/-- CMP (R128). -/
def execCmp (g : BitVec 4) (c : Cond) (p : BitVec 3) (a b : Sel) (s : State) :
    Host.Outcome State Fault Refusal :=
  issueOp (.cmp g c p a b) noChk
    (fun s => s.land 1 (s.pairLands p (condHolds c (s.src a) (s.src b)))) s
/-- LI (R130). -/
def execLi (g : BitVec 4) (d : BitVec 6) (a : Sel) (s : State) : Host.Outcome State Fault Refusal :=
  scalar1 (.li g d a) 1 d a id s
/-- LEA (R130). -/
def execLea (g : BitVec 4) (d : BitVec 6) (a b : Sel) (sh : BitVec 6) (s : State) :
    Host.Outcome State Fault Refusal :=
  scalar2 (.lea g d a b sh) 1 d a b (fun x y => x + (y <<< sh.toNat)) s

/-! ## Loads and stores (R131, R132) -/

/-- Landing entries in use (R113). -/
def Ctx.entries (x : Ctx) : Nat := (x.flight.filter (fun f => f.load)).length
/-- A load waits while its context has no landing entry free (R113). -/
def loadChk (s : State) : Chk := if 16 ≤ s.me.entries then { stall := some .landing } else {}

/-- The size of an access in bytes (R131). -/
def accSize (sz : BitVec 2) : Nat := 2 ^ sz.toNat

/-- Put a timed load in flight: its landing cycle is the larger of ARRIVAL and the minimum (R112). A
poisoned load delivers a free value and raises POISON at its landing (R122, R331). -/
def State.flyLoad (s : State) (arrival least : Nat) (arr : List Ticket) (po : Option Nat) (l : Word → List Land) : State :=
  let (s, v) := if po.isSome then s.drawFree else (s, 0)
  s.fly { due := s.myCore.ic + max arrival least, lands := l v, load := true, poison := po, arrive := arr }

/-- What stands against LD. -/
def ldChk (sz : BitVec 2) (base : BitVec 6) (off : Off) (s : State) : Chk :=
  (loadChk s).and (rngChk s
    { p := .bundle, write := false, a := (s.ea base (offVal off)).toNat, n := accSize sz })

/-- What stands against ST. -/
def stChk (sz : BitVec 2) (base : BitVec 6) (off : Off) (s : State) : Chk :=
  rngChk s { p := .bundle, write := true, a := (s.ea base (offVal off)).toNat, n := accSize sz }

/-- A loaded word with the poisoned bytes, whose bits are set, taken from a free value (R122, R131). -/
def badBytes (w free : Word) (bad : Nat) : Word :=
  if bad = 0 then w
  else
    let m : Word := BitVec.ofNat 64 (spreadNat bad 8)
    (w &&& ~~~m) ||| (free &&& m)

/-- What the landing of an acquire load does beside its result (R245). -/
def acquireLand (acq : Bool) : List Land := if acq then [.acquire] else []

/-- LD (R131): zero-extended, timed; also an acquire at its landing with `acq` (R245): memory is strongly ordered (log
3), so it acts on the views of a scratchpad alone (R249). -/
def execLd (g : BitVec 4) (sz : BitVec 2) (acq : Bool) (d base : BitVec 6) (arr : BitVec 12) (off : Off)
    (s : State) : Host.Outcome State Fault Refusal :=
  issueOp (.ld g sz acq d base arr off) (ldChk sz base off)
    (fun s =>
      let k := s.issue.core
      let w := s.who k s.issue.ctx
      let a := (s.ea base (offVal off)).toNat
      let least := rangeMin s k w .bundle a (accSize sz)
      let (t, bs, late, po, bad) := loadVa s k s.issue.ctx w .bundle a (accSize sz)
      t.flyLoad arr.toNat least late po (fun v =>
        .s d.toNat (badBytes (BitVec.ofNat 64 (ofBytes bs)) v bad) (BitVec.allOnes 64) :: acquireLand acq)) s

/-- ST (R131), a release with `rel` (R189, R245). -/
def execSt (g : BitVec 4) (sz : BitVec 2) (rel : Bool) (d base : BitVec 6) (off : Off) (s : State) :
    Host.Outcome State Fault Refusal :=
  issueOp (.st g sz rel d base off) (stChk sz base off)
    (fun s =>
      let k := s.issue.core
      storeVa s k s.issue.ctx (s.who k s.issue.ctx) .bundle rel (s.ea base (offVal off)).toNat
        (toBytes (accSize sz) (s.me.bank.getS d.toNat).toNat)) s

/-! ## System registers (R133) -/

/-- What stands against MFS: a register that is not there, or that is not this context's (R133, R134). -/
def mfsChk (n : BitVec 16) (s : State) : Chk :=
  faultIf (sysRead s s.issue.core s.issue.ctx n.toNat).isNone s.illegal

/-- What stands against MTS: the same, a read-only register, or a value it does not take (R133, R134). -/
def mtsChk (n : BitVec 16) (a : Sel) (s : State) : Chk :=
  faultIf (!sysWriteOk s s.issue.core n.toNat (s.src a)) s.illegal

/-- MFS (R133). -/
def execMfs (g : BitVec 4) (d : BitVec 6) (n : BitVec 16) (s : State) : Host.Outcome State Fault Refusal :=
  issueOp (.mfs g d n) (mfsChk n)
    (fun s => s.landS 1 d ((sysRead s s.issue.core s.issue.ctx n.toNat).getD 0)) s

/-- MTS (R133). -/
def execMts (g : BitVec 4) (n : BitVec 16) (a : Sel) (s : State) : Host.Outcome State Fault Refusal :=
  issueOp (.mts g n a) (mtsChk n a)
    (fun s => s.land 1 [.mts n.toNat (s.src a)]) s

end Sys2Proof.Machine
end

