-- ==== Sys2Proof/Machine/Control.lean ====
section
/-!
DEFINITION. Fetching, and the S1-only forms: branches (R137 to R139), tails (R36 to R40, R140), HALT
(R141), gang control (R33 to R35, R142), TRAP (R149) and ERET (R148).
-/
namespace Sys2Proof.Machine

/-! ## Fetching a syllable (R93, log 13) -/

/-- What fetching a syllable gives. -/
inductive Fetched
  | word (w : Word)
  /-- A fault of the address. -/
  | fault (f : Flt)
  | page (fn gpa : Nat)
  | pend (base : Nat)
  deriving DecidableEq, Repr

/-- The eight bytes of a syllable, little-endian. -/
def fetch (s : State) (k j : Nat) (a : Word) : Fetched :=
  let w := s.who k j
  let r : Rng := { p := .bundle, write := false, a := a.toNat, n := 8 }
  let l := rngParts s k j r
  match firstFault (l.filterMap (partFault s r)) with
  | some f => .fault f
  | none =>
      match missOf l with
      | some (f, g, _) => .page f g
      | none =>
          match pendingOf l with
          | some b => .pend b
          | none =>
              match poisonRange s k w .bundle a.toNat 8 with
              | some u => .fault { s.flt .poison (BitVec.ofNat 64 u) with
                  ue := (dpaOf s k w .bundle false (max u a.toNat)).map (fun h => h.dpa / 64 * 64) }
              | none => .word (BitVec.ofNat 64 (ofBytes (readRange s k w .bundle a.toNat 8)))

/-- Whether a branch to an address raises TARGET: it is not 8-aligned, or no header is there (R103). An
address whose translation is still awaited is looked at when it is fetched (`headerChk`). A target whose own fetch
faults holds no header that could be read: it raises TARGET, and not the cause of the fetch (log 83, DESIGN CHOICE). -/
def badTarget (s : State) (k j : Nat) (t : Word) : Bool :=
  if field t 0 3 ≠ 0 then true
  else match fetch s k j t with
    | .word w => !isHeader w
    | .fault _ => true
    | _ => false

/-! ## Taken branches -/

/-- Whether the issuing core drives its stream: it is in no gang or is rank 0 (R34). -/
def State.isLead (s : State) : Bool :=
  match s.myCore.gang with
  | some (first, _) => first == s.issue.core
  | none => true

/-- A taken branch to `t` whose target issues `n` issue cycles on (R106, R107), with TARGET after the
bundle (R122, R138). -/
def State.branchTo (s : State) (t : Word) (n : Nat := 3) : State :=
  if !s.isLead then s
  else
    let k := s.issue.core
    let j := s.issue.ctx
    let s := (s.gangSlots k j).foldl (fun s m => s.updCtx m.1 m.2 (fun x => { x with
      pc := t, notBefore := (s.core m.1).ic + n, sticky := [], rep := 0, target := true })) s
    if badTarget s k j t then s.trap k j true s.issue.partner (s.flt .target t) t 0 else s

/-- The link at latency 1 (R138). -/
def State.link (s : State) (d : BitVec 6) : State := s.landS 1 d s.issue.next

/-- The target of an FB branch: the bundle's header plus the displacement (R137). -/
def State.fbTarget (s : State) (disp : BitVec 32) : Word := s.issue.hdr + disp.signExtend 64

/-- BR (R137, R138). -/
def execBr (g : BitVec 4) (d : BitVec 6) (disp : BitVec 32) (s : State) :
    Host.Outcome State Fault Refusal :=
  issueOp (.br g d disp) noChk (fun s => (s.link d).branchTo (s.fbTarget disp)) s
/-- BRI (R137, R138). -/
def execBri (g : BitVec 4) (d a : BitVec 6) (s : State) : Host.Outcome State Fault Refusal :=
  issueOp (.bri g d a) noChk (fun s => (s.link d).branchTo (s.me.bank.getS a.toNat)) s

/-- What stands against a CALL: a held frame below s63 (R40), or the deepest call of a tail (R39). -/
def callChk (s : State) : Chk :=
  let x := s.me
  let sp := x.bank.getS 63
  if x.holds.any (fun h => h.start.ult sp) then { block := some (some (.holds sp)) }
  else faultIf (x.tail.any (fun t => t.depth == 65535)) (s.flt .tailnest 0)

/-- The call depth of a tail goes up (R39). -/
def State.deeper (s : State) : State :=
  s.updMe (fun x => { x with tail := x.tail.map (fun t => { t with depth := t.depth + 1 }) })

/-- CALL (R137, R138). -/
def execCall (g : BitVec 4) (disp : BitVec 32) (s : State) : Host.Outcome State Fault Refusal :=
  issueOp (.call g disp) callChk (fun s => (s.deeper.link 62).branchTo (s.fbTarget disp)) s
/-- CALLI (R137, R138). -/
def execCalli (g : BitVec 4) (a : BitVec 6) (s : State) : Host.Outcome State Fault Refusal :=
  issueOp (.calli g a) callChk (fun s => (s.deeper.link 62).branchTo (s.me.bank.getS a.toNat)) s

/-- What stands against RET: depth 0 of a tail (R39). -/
def retChk (s : State) : Chk := faultIf (s.me.tail.any (fun t => t.depth == 0)) (s.flt .tailnest 0)

/-- RET (R137, R138): in a tail the depth goes down, and depth 0 raises TAILNEST (R39). -/
def execRet (g : BitVec 4) (a : BitVec 6) (s : State) : Host.Outcome State Fault Refusal :=
  issueOp (.ret g a) retChk
    (fun s =>
      let t := s.me.bank.getS a.toNat
      (s.updMe (fun x => { x with tail := x.tail.map (fun t => { t with depth := t.depth - 1 }) })).branchTo
        t) s

/-- Whether the taken LOOP to `t` has no bubble: the target is pinned and the bundle ends at most 64
syllables after it (R15, R106). -/
def State.pinned (s : State) (t : Word) : Bool :=
  match fetch s s.issue.core s.issue.ctx t with
  | .word w => bit w 20 && t.toNat ≤ s.issue.next.toNat && s.issue.next.toNat - t.toNat ≤ 512
  | _ => false

/-- LOOP (R139). -/
def execLoop (g : BitVec 4) (d : BitVec 6) (disp : BitVec 32) (s : State) :
    Host.Outcome State Fault Refusal :=
  issueOp (.loop g d disp) noChk
    (fun s =>
      let c := s.me.bank.getS d.toNat - 1
      let t := s.fbTarget disp
      let u := s.land 1 [.s d.toNat c (BitVec.allOnes 64), .rotate]
      if c = 0 then u else u.branchTo t (if s.pinned t then 1 else 3)) s

/-! ## Ends of contexts -/

/-- Whether a launch still has a context on some core (R26). -/
def State.alive (s : State) (l : Nat) : Bool :=
  s.cores.any (fun c => [0, 1, 2, 3].any (fun j =>
    let x := c.2.slot j
    x.state != .empty && x.launch == l))

/-- A context ends: its slot becomes Empty, and its launch retires when it was the last (R26, R27). What the
bundle that ends it has issued runs on. -/
def State.endCtx (s : State) (k j : Nat) : State :=
  let x := s.ctx k j
  let s := s.setCtx k j
    { launch := x.launch, lindex := x.lindex, inst := x.inst, bank := x.bank, trap := x.trap, pc := x.pc, flight := x.flight
      queue := x.queue, issues := x.issues, staged := x.staged, held := x.held, heldSeq := x.heldSeq
      tfault := x.tfault, tfaultFrom := x.tfaultFrom }
  let s := if x.state == .running then s.updCore k (fun c => { c with latches := [] }) else s
  if isHitik k || s.alive x.launch then s else s.later [.launchRetire x.launch]

/-- Whether an X command of the context in slot `j` is queued or running (R140, R141). -/
def CoreSt.hasCmd (c : CoreSt) (j : Nat) : Bool :=
  (List.range 16).any (fun n => (c.chn n).queue.any (fun q => q.slot == j && q.inst == (c.slot j).inst))

/-- Results in flight, held effects, queued operations or commands of the issuing context. -/
def State.unfinished (s : State) : Bool :=
  let x := s.me
  !x.flight.isEmpty || !x.mine.isEmpty || !(x.myHeld x.inst).isEmpty || s.myCore.hasCmd s.issue.ctx

/-- Whether queued operations of a core, by slot and number, are complete. -/
def CoreSt.opsOver (c : CoreSt) (ops : List (Nat × Nat)) : Bool :=
  ops.all (fun g => !(c.slot g.1).queue.any (fun o => o.id == g.2))

/-- Whether every tail that the context in slot `j` of core `k` spawned has ended, with the writes of the bundle of its
TAILEND (R40, R246). -/
def State.tailsOver (s : State) (k j : Nat) : Bool :=
  let c := s.core k
  (c.tailsOf j).isEmpty && c.opsOver (c.slot j).joins

/-- The same of the issuing context. -/
def State.tailsDone (s : State) : Bool := s.tailsOver s.issue.core s.issue.ctx
/-- GANG in a gang (R35). -/
def State.inGang (s : State) : Chk := faultIf s.myCore.gang.isSome (s.flt .gang 0)
/-- ILLEGAL in a handler (R140, R142). -/
def State.inHandler (s : State) : Chk := faultIf s.me.trap.isIn s.illegal
/-- A wait for the tails of the issuing context. -/
def State.joinTails (s : State) : Chk := if s.tailsDone then {} else { block := some (some .tails) }

/-- What stands against HALT (R35, R39, R40, R141). -/
def haltChk (s : State) : Chk :=
  ((s.inGang.and (faultIf s.me.tail.isSome (s.flt .tailnest 0))).and s.joinTails).and (blockIf s.unfinished)

/-- HALT (R141). -/
def execHalt (g : BitVec 4) (s : State) : Host.Outcome State Fault Refusal :=
  issueOp (.halt g) haltChk
    (fun s => s.endCtx s.issue.core s.issue.ctx) s

/-! ## Tails (R36 to R40, R140) -/

/-- The lowest Empty slot of a core. -/
def CoreSt.emptySlot (c : CoreSt) : Option Nat := [0, 1, 2, 3].find? (fun j => (c.slot j).state == .empty)

/-- Whether a land changes a register of the context's own view, and not one that it shares (R19, R21). -/
def Land.isOwn : Land → Bool
  | .s .. | .v .. | .p .. | .rotate | .flags _ | .barBase .. => true
  | .mts n _ => [0x006, 0x007, 0x00C, 0x00E, 0x013].contains n || (0x062 ≤ n && n < 0x06A)
  | _ => false

/-- The flights as they land in a second view. -/
def ownFlight (l : List Flight) : List Flight := l.map (fun f => { f with lands := f.lands.filter Land.isOwn })
/-- The flights as they land where their view is gone. -/
def sharedFlight (l : List Flight) : List Flight :=
  l.map (fun f => { f with lands := f.lands.filter (fun x => !x.isOwn) })

/-- A flight put before the first one that is due later. -/
def insertDue (f : Flight) : List Flight → List Flight
  | [] => [f]
  | g :: l => if f.due < g.due then f :: g :: l else g :: insertDue f l

/-- Flights in the order in which they land. -/
def byDue (l : List Flight) : List Flight := l.foldl (fun acc f => insertDue f acc) []

/-- The memory writes of the issuing context's queued operations: behind the checks of HANDBACK and TAILEND those of its own
bundle alone, by slot and number (R246). -/
def State.ownWrites (s : State) : List (Nat × Nat) := s.me.pendingStores.map (fun i => (s.issue.ctx, i))

/-- A context goes on when some queued operations are complete: HANDBACK and TAILEND release their own bundle's writes
(R246, R252; log 102, DESIGN CHOICE). -/
def Ctx.behind (x : Ctx) (ops : List (Nat × Nat)) : Ctx :=
  if ops.isEmpty then x else { x with state := .waiting, wait := some (.writes ops) }

/-- The effect of HANDBACK on the deferred path: the caller's view is saved and the context goes on as
a tail (R36, R38). -/
def deferTail (s : State) : State :=
  let i := s.issue.ctx
  let v : CallerView := {
    bank := s.me.bank, trap := s.me.trap, flight := byDue (ownFlight s.me.flight), inst := s.me.inst
    rentLow := s.me.rentLow, escNext := s.me.escNext }
  ({ s with nextId := s.nextId + 1 } : State).updMe (fun x => ({ x with
    inst := s.nextId, rentLow := [], escNext := none
    tail := some { depth := 0, spawner := i, deferred := true, view := some v }
    trap := { vec := x.trap.vec }, pc := s.issue.next, sticky := [] } : Ctx).behind s.ownWrites)

/-- The effect of HANDBACK when slot `j` takes the tail (R36, R37). What HANDBACK's own bundle has in flight lands in
both views (log 63, DESIGN CHOICE); what a context that ended in the slot left queued there runs on. -/
def cloneTail (s : State) (j : Nat) : State :=
  let i := s.issue.ctx
  let x := s.me
  let y := s.ctx s.issue.core j
  let copy : Ctx := {
    state := .ready, launch := x.launch, lindex := x.lindex, inst := s.nextId, bank := x.bank, pc := s.issue.next
    trap := { vec := x.trap.vec }, notBefore := s.myCore.ic + 1
    tail := some { depth := 0, spawner := i, deferred := false, view := none }
    flight := sharedFlight y.flight ++ ownFlight x.flight
    queue := y.queue, held := y.held, issues := y.issues, staged := y.staged, heldSeq := y.heldSeq, fresh := x.fresh
    left := some (y.inst, y.bank) }
  let ops := s.ownWrites
  let s := ({ s with nextId := s.nextId + 1 } : State).setCtx s.issue.core j (copy.behind ops)
  let s := s.updMe (fun x => x.behind ops)
  let sp := x.bank.getS 63
  let fp := x.bank.getS 61
  let s := if sp.ult fp then
      s.updMe (fun x => { x with holds := x.holds ++ [{ slot := j, start := sp, stop := fp }] })
    else s
  s.branchTo (x.bank.getS 62)

/-- What stands against HANDBACK (R35, R36, R39, R40, R140). -/
def handbackChk (s : State) : Chk :=
  (((s.inHandler.and s.inGang).and (faultIf s.me.tail.isSome (s.flt .tailnest 0))).and s.joinTails).and
    (blockIf (!s.me.flight.isEmpty || s.me.mine.any (fun o => o.dsts.any (· < 24))))

/-- HANDBACK (R36, R140). -/
def execHandback (g : BitVec 4) (s : State) : Host.Outcome State Fault Refusal :=
  issueOp (.handback g) handbackChk
    (fun s =>
      let s := s.updMyCore (fun c => { c with latches := [] })
      let s := s.updMe (fun x => { x with sticky := [] })
      match s.myCore.emptySlot with
      | none => deferTail s
      | some j => if s.myCore.tails.length = 3 then deferTail s else cloneTail s j) s

/-- The end of a deferred tail: the caller's view is back, what was to land in it lands, and it resumes at its
s62 (R38). The latches of the core stay as the tail left them, unless the caller waits for the tail's last writes
(log 103, DESIGN CHOICE). -/
def resumeCaller (s : State) (v : CallerView) : State :=
  let ops := s.ownWrites
  let s := if ops.isEmpty || s.issue.partner then s else s.updMyCore (fun c => { c with latches := [] })
  (s.updMe (fun x => ({ x with
    tail := none, inst := v.inst, rentLow := v.rentLow, escNext := v.escNext, bank := v.bank, trap := v.trap
    flight := v.flight ++ sharedFlight x.flight } : Ctx).behind ops)).branchTo (v.bank.getS 62)

/-- What stands against TAILEND (R35, R39, R140). -/
def tailendChk (s : State) : Chk :=
  (s.inGang.and (faultIf s.me.tail.isNone (s.flt .tailnest 0))).and (blockIf s.unfinished)

/-- TAILEND (R39, R140). -/
def execTailend (g : BitVec 4) (s : State) : Host.Outcome State Fault Refusal :=
  issueOp (.tailend g) tailendChk
    (fun s =>
      match s.me.tail with
      | none => s
      | some t =>
          match t.view with
          | some v => resumeCaller s v
          | none =>
              let k := s.issue.core
              let j := s.issue.ctx
              let ops := s.ownWrites
              (s.updCtx k t.spawner (fun x => { x with
                holds := x.holds.filter (fun h => h.slot != j), joins := x.joins ++ ops })).endCtx k j) s

/-- What stands against JOINTAIL (R35, R40, R140). -/
def jointailChk (s : State) : Chk := (s.inHandler.and s.inGang).and s.joinTails

/-- JOINTAIL (R40, R140), an acquire of what the tails wrote (R245). TFAULT is one bit of a context slot: in a deferred
tail JOINTAIL and TAILS read and clear the one of its caller (log 86, DESIGN CHOICE). -/
def execJointail (g : BitVec 4) (p : BitVec 3) (s : State) : Host.Outcome State Fault Refusal :=
  issueOp (.jointail g p) jointailChk
    (fun s => ((s.land 1 (s.pairLands p (!s.me.tfault))).updMe (fun x => { x with
      tfault := false, wait := none, joins := [] })).acquired
      s.issue.core) s

/-! ## Gang control (R33 to R35, R142) -/

/-- What stands against FUSE (R33, R142): it blocks until its group is complete. -/
def fuseChk (n : BitVec 6) (s : State) : Chk :=
  let l := (s.launch? s.me.launch).getD { id := 0, fn := 0 }
  let bad := l.cpg < n.toNat || 1 < l.cpc || !s.myCore.tails.isEmpty || s.myCore.gang.isSome || s.issue.ctx != 0
  (s.inHandler.and (faultIf bad (s.flt .gang 0))).and
    (if s.me.wait == some (.fuse n.toNat true) then {} else { block := some (some (.fuse n.toNat false)) })

/-- FUSE (R33, R142). -/
def execFuse (g : BitVec 4) (n : BitVec 6) (s : State) : Host.Outcome State Fault Refusal :=
  issueOp (.fuse g n) (fuseChk n)
    (fun s =>
      let c := s.issue.core
      let s := s.updMe (fun x => { x with sticky := [], wait := none })
      s.updMyCore (fun x => { x with gang := some (c - c % 48 % n.toNat, n.toNat), latches := [] })) s

/-- Leave the gang: the core's part of DECOUPLE (R35). -/
def leaveGang (s : State) (k : Nat) (pc : Word) : State :=
  let s := s.updCtx k 0 (fun x => { x with sticky := [], pc := pc })
  s.updCore k (fun c => { c with gang := none, lastGang := c.gang, latches := [] })

/-- What stands against DECOUPLE (R35, R142). -/
def decoupleChk (s : State) : Chk := s.inHandler.and (faultIf s.myCore.gang.isNone (s.flt .gang 0))

/-- DECOUPLE (R35, R142): the gang ends when every member's guard takes part; rank 0 does it. -/
def execDecouple (g : BitVec 4) (s : State) : Host.Outcome State Fault Refusal :=
  issueOp (.decouple g) decoupleChk
    (fun s =>
      let ms := s.gangOf s.issue.core
      if s.isLead && ms.all (fun m => ((s.ctx m 0).bank.getP g.toNat).getLsbD 0) then
        ms.foldl (fun s m => leaveGang s m s.issue.next) s
      else s) s

/-- What stands against REJOIN (R35, R142): it blocks until its group is complete. A tail on the core does not stand
against it, and one that a context of another slot than 0 issues waits for ever, since only slot 0 is of a group (log
87, DESIGN CHOICE). -/
def rejoinChk (s : State) : Chk :=
  (s.inHandler.and (faultIf s.myCore.lastGang.isNone (s.flt .gang 0))).and
    (if s.me.wait == some (.rejoin true) then {} else { block := some (some (.rejoin false)) })

/-- A core is in a gang again: no context of another slot than 0 runs on it from here on (R34, R35). -/
def joinGang (c : CoreSt) : CoreSt :=
  { c with gang := c.lastGang, lastGang := none, latches := [], last := 0
           ctx := c.ctx.map (fun p => if p.1 ≠ 0 ∧ p.2.state = .running then (p.1, { p.2 with state := .ready }) else p) }

/-- REJOIN (R35, R142). -/
def execRejoin (g : BitVec 4) (s : State) : Host.Outcome State Fault Refusal :=
  issueOp (.rejoin g) rejoinChk
    (fun s => (s.updMe (fun x => { x with sticky := [], wait := none })).updMyCore joinGang) s

/-! ## TRAP and ERET -/

/-- The SOFT trap of a TRAP: after its bundle, with the next bundle as the resume point (R122, R149). -/
def State.softTrap (s : State) (k j : Nat) (tcode : Word) : State :=
  s.trap k j true s.issue.partner
    { cause := .soft, addr := 0, slot := Slot.s1.num, tcode := field tcode 0 32 } s.issue.next 0

/-- TRAP (R149). In a gang the first member whose guard is set is noted, and rank 0 ends the bundle. -/
def execTrap (g : BitVec 4) (a : Sel) (s : State) : Host.Outcome State Fault Refusal :=
  issueOp (.trap g a) noChk
    (fun s =>
      if s.isLead then s.softTrap s.issue.core s.issue.ctx (s.src a)
      else if s.issue.soft.isSome then s
      else { s with issue := { s.issue with soft := some (s.issue.core, s.src a) } }) s

/-- What stands against ERET: no trap to return from, and its drain (R148). -/
def eretChk (s : State) : Chk :=
  if !s.me.trap.isIn then { fault := some s.illegal }
  else if !s.me.flight.isEmpty || !s.me.mine.isEmpty then { stall := some .safe } else {}

/-- ERET (R148). -/
def execEret (g : BitVec 4) (s : State) : Host.Outcome State Fault Refusal :=
  issueOp (.eret g) eretChk
    (fun s =>
      let k := s.issue.core
      let j := s.issue.ctx
      let s := returnFromTrap s k j
      let t := (s.ctx k j).pc
      if s.isLead && badTarget s k j t then s.trap k j true s.issue.partner (s.flt .target t) t 0 else s) s

end Sys2Proof.Machine
end

