-- ==== Sys2Proof/Machine/Fetch.lean ====
section
/-!
DEFINITION. Fetching a bundle: its header, its present slots and what stands against it (R93 to R95, R103, R122).
-/
namespace Sys2Proof.Machine

/-! ## Fetching a bundle (R93 to R95, R103) -/

/-- A bundle as it stands in memory: its header, its present slots with the address of each syllable, and the
address of the next bundle. -/
structure Bundle where
  hdr  : Header
  ops  : List (Slot × Instr × Word)
  next : Word
  deriving DecidableEq, Repr

/-- What fetching a bundle gives: the bundle, or what stands against it, with the part that was decoded before
where its header is valid (R122: of several faults the first slot's is reported). -/
inductive Got
  | bundle (b : Bundle)
  | stop (c : Chk) (part : Option Bundle)
  deriving DecidableEq, Repr

/-- ILLEGAL for a syllable at an address in a slot (R103, R145). -/
def illegalAt (a : Word) (sl : Slot) : Flt := { cause := .illegal, addr := a, slot := sl.num }

/-- Fetch a syllable and go on with it; what stops the fetch stops the bundle. -/
def withSyl (s : State) (k j : Nat) (a : Word) (sl : Slot) (part : Option Bundle) (go : Word → Got) : Got :=
  match fetch s k j a with
  | .word w => go w
  | .fault f => .stop { fault := some { f with slot := sl.num } } part
  | .page f g => .stop { pages := [(f, g, false)] } part
  | .pend b => .stop { block := some (some (.pending b)) } part

/-- Fetch and decode the present slots of a header in order, from an address on. -/
def fetchSlots (s : State) (k j : Nat) (h : Header) (acc : List (Slot × Instr × Word)) :
    List Slot → Word → Got
  | [], a => .bundle { hdr := h, ops := acc.reverse, next := a }
  | sl :: r, a =>
      let part : Option Bundle := some { hdr := h, ops := acc.reverse, next := a }
      if !h.has sl then fetchSlots s k j h acc r a
      else withSyl s k j a sl part (fun w =>
        if isHeader w then .stop { fault := some (illegalAt a sl) } part
        else if hasExt w then
          withSyl s k j (a + 8) sl part (fun v =>
            match decodeSlot sl w v with
            | .ok i => fetchSlots s k j h ((sl, i, a) :: acc) r (a + 16)
            | .error _ => .stop { fault := some (illegalAt a sl) } part)
        else
          match decodeSlot sl w 0 with
          | .ok i => fetchSlots s k j h ((sl, i, a) :: acc) r (a + 8)
          | .error _ => .stop { fault := some (illegalAt a sl) } part)

/-- The bundle at an address; more than one issue of a one-shot operation is ILLEGAL (R95). -/
def fetchBundle (s : State) (k j : Nat) (pc : Word) : Got :=
  withSyl s k j pc .s0 none (fun w =>
    match decodeHeader w with
    | .error _ => .stop { fault := some (illegalAt pc .s0) } none
    | .ok h =>
        match fetchSlots s k j h [] Slot.all (pc + 8) with
        | .bundle b =>
            if h.rep ≠ 0 ∧ b.ops.any (fun o => o.2.1.oneShot) then .stop { fault := some (illegalAt pc .s0) } (some b)
            else .bundle b
        | g => g)

/-- The bytes of a bundle at an address that its fetch reads. -/
def fetchedBytes (s : State) (k j : Nat) (pc : Word) (g : Got) : Nat :=
  match g with
  | .bundle b => (b.next - pc).toNat
  | .stop _ none => 8
  | .stop _ (some b) => (b.next - pc).toNat + (match fetch s k j b.next with
      | .word w => if !isHeader w && hasExt w then 16 else 8
      | _ => 8)

/-- A bundle is fetched: every unit that the fetch reads is checked, and a wrong symbol put right and counted (R330); an
uncorrectable one is counted with its trap. -/
def checkFetch (s : State) (k j : Nat) (pc : Word) (g : Got) : State :=
  if s.wrong.isEmpty then s
  else (unitsOf pc.toNat (fetchedBytes s k j pc g)).foldl (fun t u =>
    match dpaOf s k (s.who k j) .bundle false u.1 with
    | some h => t.correct (h.dpa / 64 * 64)
    | none => t) s

end Sys2Proof.Machine
end

