-- ==== Sys2Proof/Machine/Ranges.lean ====
section
/-!
DEFINITION. The bytes that queued T and M operations (R186, R191) and X commands (R199, R205) name, and
the layer descriptors on which the lengths of block-store commands depend (R228, R229).
-/
namespace Sys2Proof.Machine

/-! ## Layers (R228, R229) -/

/-- A valid layer descriptor (R228). -/
structure Layer where
  fmt    : Nat
  heads  : Nat
  hdim   : Nat
  tpb    : Nat
  dticks : Nat
  deriving DecidableEq, Repr

/-- Bytes of a key or value element (R229). -/
def Layer.eb (l : Layer) : Nat := if l.fmt ≤ 3 then 2 else 1
/-- Bytes per token (R229). -/
def Layer.bpt (l : Layer) : Nat := 2 * l.heads * l.hdim * l.eb
/-- Offset of the values (R229). -/
def Layer.voff (l : Layer) : Nat := l.heads * l.tpb * l.hdim * l.eb
/-- Offset of the summary (R229). -/
def Layer.soff (l : Layer) : Nat := 2 * l.voff
/-- Bytes of a block's summary (R229). -/
def Layer.sumBytes (l : Layer) : Nat := l.heads * l.hdim * 4
/-- Offset of the header (R229). -/
def Layer.hoff (l : Layer) : Nat := l.soff + l.sumBytes

/-- The layer a descriptor gives, if it is valid (R228). -/
def layerOf (d : BitVec 128) : Option Layer :=
  let l : Layer := { fmt := field d 0 8, heads := field d 8 8 + 1, hdim := 32 * field d 16 8
                     tpb := field d 32 16, dticks := field d 64 64 }
  if 2 ≤ l.fmt && l.fmt ≤ 5 && l.heads ≤ 64 && 32 ≤ l.hdim && l.hdim ≤ 256 && field d 24 8 == 0
      && l.tpb % 16 == 0 && 16 ≤ l.tpb && l.tpb ≤ 4096 && field d 48 8 == 1 && field d 56 8 == 0
      && 1 ≤ l.dticks && l.dticks ≤ 2 ^ 40 && l.hoff + 64 ≤ 65536 then some l else none

/-- The layer descriptor of a function. -/
def State.layer (s : State) (f n : Nat) : Option Layer :=
  layerOf (Tbl.getD (s.fn f).store.layers n 0)

/-- SEQ, LAYER and BLK of a block name (R217). -/
def nameSeq (w : Word) : Nat := field w 0 20
/-- LAYER of a block name. -/
def nameLayer (w : Word) : Nat := field w 20 8
/-- BLK of a block name. -/
def nameBlk (w : Word) : Nat := field w 28 24

/-! ## Queued operations -/

/-- The element an operation's memory accesses go by, in bytes (R63). -/
def qElem : Instr → Nat
  | .accld .. => 4
  | .accst _ t .. => t.width / 8
  | _ => 1

/-- The columns of the grid of a gang of `n` members (R185). -/
def gridCols (n : Nat) : Nat := min n 4

/-- The core whose ring supplies operand A or B (R176, R185). -/
def ringCore (mmag : Bool) (k : Nat) (gang : Option (Nat × Nat)) (isB : Bool) : Nat :=
  match mmag, gang with
  | true, some (first, n) =>
      let r := k - first
      let gc := gridCols n
      first + (if isB then r % gc else r / gc * gc)
  | _, _ => k

/-- The bytes of a ring's slots (R173). -/
def Ring.span (g : Ring) : List (Nat × Nat) := if g.set then [(g.base, g.slotb * g.slots)] else []

/-- The bytes of the ring that an operand of a matrix operation of core `k` names. -/
def mopSpan (s : State) (k : Nat) (mmag : Bool) (gang : Option (Nat × Nat)) (isB : Bool) (x : MOp) : List (Nat × Nat) :=
  match x with
  | .tile _ => []
  | .ring r => (Tbl.getD (s.core (ringCore mmag k gang isB)).ring r.toNat {}).span

/-- Everything a queued operation of core `k` names, as (address, bytes): memory, an accumulator, a ring (R51). -/
def QOp.spans (s : State) (k : Nat) (o : QOp) : List (Nat × Nat) :=
  o.ranges.map (fun r => (r.a, r.n))
    ++ (match o.bind_ with
      | some b => if b.removed then [] else [(b.base, 4 * b.rows * b.cols)]
      | none => [])
    ++ (match o.i with
      | .mma _ _ _ a b .. => mopSpan s k false o.gang false a ++ mopSpan s k false o.gang true b
      | .mmag _ _ _ a b .. => mopSpan s k true o.gang false a ++ mopSpan s k true o.gang true b
      | .ringset .. => [(o.a.toNat, o.b.toNat * o.c.toNat)]
      | _ => [])

/-! ## Commands -/

/-- A pod address (R346). -/
def isPod (a : Nat) : Bool := 2 ^ 63 ≤ a && a / 2 ^ 58 % 32 == 0

/-- The element size of a command in bytes (R204, R217). -/
def esOf : Instr → Nat
  | .xcopy _ z .. | .xgather _ z .. | .xscatter _ z .. | .xacc _ _ z .. | .xfetch _ _ z .. | .xcas _ z ..
  | .xfill _ z .. | .xexpand _ z .. | .xcoll _ _ _ z .. => eszBytes z
  | .kvget .. => 128
  | _ => 8

/-- The ring a command's destination names (R204). -/
def ringDst : Instr → Option Nat
  | .xcopy _ _ _ _ (.ring r) .. | .xgather _ _ _ _ (.ring r) .. | .xexpand _ _ _ _ (.ring r) ..
  | .kvget _ _ _ (.ring r) .. => some r.toNat
  | _ => none

/-- The staged operands of a command. -/
structure XArgs where
  a : Word
  b : Word
  c : Word
  /-- The extension: a pattern, a result address or a collective descriptor. -/
  x : Word
  vec : Vec
  /-- Source bytes of a contiguous copy. -/
  src : Nat := 0
  deriving DecidableEq, Repr

/-- The operands of a queued command. -/
def Cmd.args (c : Cmd) : XArgs := { a := c.a, b := c.b, c := c.c, x := c.x, vec := c.vec, src := c.srcLen }

/-- Element `e` of an index vector as a byte offset (R211). -/
def idxOff (v : Vec) (e es : Nat) : Word :=
  BitVec.ofInt 64 ((BitVec.ofNat 32 (elem 32 e v)).toInt * es)

/-- A command's range. -/
def xrng (write : Bool) (a n : Nat) : Rng := { p := .cmd, write := write, a := a, n := n }

/-- Bytes a KVGET copies (R217). -/
def kvgetLen (c : Word) : Nat := if c = 0 then 65536 else c.toNat

/-! ## Bank formats (R69 to R71) -/

/-- The element type of a BANKFMT code (R69). -/
def fmtTy : Nat → Option Ty
  | 1 => some .f32
  | 2 => some .bf16
  | 3 => some .f16
  | 4 => some .e4m3
  | 5 => some .e5m2
  | 6 => some .e2m1
  | 7 => some .i8
  | 8 => some .i32
  | _ => none

/-- The format of the bank that holds a byte, by the formats of each core; none for a raw bank, another tier, or a scale
plane (R69 to R71). -/
def bankTy (fmts : Tbl (Tbl Word)) (h : Hit) : Option Ty :=
  if h.tier ≠ 1 then none
  else
    let off := h.dpa % 262144
    let f := Tbl.getD (Tbl.getD fmts h.home []) (h.dpa / 262144 % 32) 0
    if bit f 4 && field f 8 12 * 64 ≤ off then none else fmtTy (field f 0 4)

/-- The types a copy converts between, destination first, at a source and a destination byte (R70). -/
def convTypes (fmts : Tbl (Tbl Word)) (src dst : Hit) : Option (Ty × Ty) :=
  match bankTy fmts src, bankTy fmts dst with
  | some u, some t => if u = t then none else some (t, u)
  | _, _ => none

/-- BANKFMT of every core that has a bank which is not raw (R71). -/
def State.allFmts (s : State) : Tbl (Tbl Word) :=
  s.cores.filterMap (fun c => if c.2.bankfmt.isEmpty then none else some (c.1, c.2.bankfmt))

/-- The source elements of a conversion from a nibble on, each with the type of the bank that holds its first byte (R71).
Of a block that crosses into a raw bank or a scale plane, the elements there keep the type before them (log 104, DESIGN
CHOICE). -/
def srcElems (ty : Nat → Option Ty) (u : Ty) (x : Nat) : Nat → List (Nat × Ty)
  | 0 => []
  | n + 1 =>
      let v := (ty (x / 2)).getD u
      (x, v) :: srcElems ty v (x + v.width / 4) n

/-- The nibble behind some source elements that begin at `x`. -/
def elemsEnd (x : Nat) (l : List (Nat × Ty)) : Nat := ((l.getLast?).map (fun e => e.1 + e.2.width / 4)).getD x

/-- What an element of a patterned copy converts from nibble `x` into its `es` bytes at device-physical byte `dd`: the
destination bytes before its first whole block, and its source elements. It is taken as a contiguous copy of `es` bytes
is: whole destination elements and whole aligned blocks only (log 104, DESIGN CHOICE). -/
def patConv (ty : Nat → Option Ty) (t u : Ty) (x dd es : Nat) : Nat × List (Nat × Ty) :=
  if t = .e2m1 then
    let lead := min es ((4 - dd % 4) % 4)
    (lead, srcElems ty u (x + 2 * lead * (u.width / 4)) ((es - lead) / 4 * 8))
  else (0, srcElems ty u x (es * 8 / t.width))

/-- One stretch of a contiguous copy: how many nibbles of the source and bytes of the destination lie in it, where
`left` bytes are still to be written, the source stands at a nibble and the destination at a device-physical byte; `ty`
gives the type of the bank of a source byte (R70, R71). -/
def copyStretch (ty : Nat → Option Ty) (types : Option (Ty × Ty)) (sn dd left : Nat) : Nat × Nat :=
  match types with
  | none =>
      let n := min left (min (64 - sn / 2 % 64) (64 - dd % 64))
      (2 * n, n)
  | some (t, u) =>
      let u4 := u.width / 4
      let skip (n : Nat) : Nat × Nat := (n * 8 / t.width * u4, n)
      if t = .e2m1 ∧ dd % 4 ≠ 0 then skip (min left (4 - dd % 4))
      else
        let one := if t = .e2m1 then 8 else 1
        let fit := (128 - sn % 128) / u4
        if left < one * t.width / 8 then skip left
        else if fit < one then (elemsEnd sn (srcElems ty u sn one) - sn, one * t.width / 8)
        else
          let n := max one (min (min ((64 - dd % 64) * 8 / t.width) fit) (left * 8 / t.width) / one * one)
          (n * u4, n * t.width / 8)

/-- The source nibbles of a contiguous copy from a place in it: `types` at a source nibble and a byte of the delivery,
`dd` the device-physical address of such a byte. -/
def copyNibbles (ty : Nat → Option Ty) (types : Nat → Nat → Option (Ty × Ty)) (dd : Nat → Nat) (sn0 c : Nat) :
    Nat → Nat → Nat → Nat
  | 0, sp, _ => sp
  | fuel + 1, sp, dp =>
      if c ≤ dp then sp
      else
        let x := copyStretch ty (types (sn0 + sp) dp) (sn0 + sp) (dd dp) (c - dp)
        copyNibbles ty types dd sn0 c fuel (sp + x.1) (dp + x.2)

/-- Where byte `o` of the delivery of a copy of core `k` goes, as things stand at its issue. -/
def copyDst (s : State) (k : Nat) (w : Who) (ring : Option Nat) (a : Word) (o : Nat) : Option Hit :=
  match ring with
  | some r =>
      let g := Tbl.getD (s.core k).ring r {}
      if g.set then some { dpa := g.dpa + (g.tail * g.slotb + o) % (g.slotb * g.slots), tier := 1, home := k, kind := 0 }
      else none
  | none => dpaOf s k w .cmd true (a + BitVec.ofNat 64 o).toNat

/-- The type of the bank of a source byte of a copy of core `k` (R71). -/
def State.srcTy (s : State) (k : Nat) (w : Who) (fmts : Tbl (Tbl Word)) (a : Nat) : Option Ty :=
  (dpaOf s k w .cmd false a).bind (bankTy fmts)

/-- The source bytes of a contiguous copy of core `k` (R70). -/
def copySource (s : State) (k : Nat) (w : Who) (ring : Option Nat) (a b : Word) (c : Nat) : Nat :=
  let fmts := s.allFmts
  if fmts.isEmpty then c
  else
    let types (sn dp : Nat) : Option (Ty × Ty) :=
      match dpaOf s k w .cmd false (sn / 2), copyDst s k w ring a dp with
      | some x, some y => convTypes fmts x y
      | _, _ => none
    let dd (dp : Nat) : Nat := ((copyDst s k w ring a dp).map (·.dpa)).getD (a.toNat + dp)
    (copyNibbles (s.srcTy k w fmts) types dd (2 * b.toNat) c c 0 0 + 1) / 2

/-- The contiguous ranges a command names (R199), without a ring destination. -/
def xWhole (s : State) (f : Nat) (i : Instr) (g : XArgs) : List Rng :=
  let es := esOf i
  let n := g.c.toNat
  match i with
  | .xcopy _ _ _ _ d _ _ none =>
      xrng false g.b.toNat g.src :: (match d with
        | .addr _ => [xrng true g.a.toNat n]
        | .ring _ => [])
  | .xcopy _ _ _ _ _ _ _ (some _) => [xrng false g.x.toNat 128]
  | .xgather _ _ _ _ (.addr _) _ _ n1 => [xrng true g.a.toNat ((n1.toNat + 1) * es)]
  | .xgather _ _ _ _ (.ring _) .. => []
  | .xscatter _ _ _ _ _ _ _ n1 => [xrng false g.b.toNat ((n1.toNat + 1) * es)]
  | .xacc .. => xrng false g.b.toNat n :: both g.a.toNat n
  | .xfetch .. => both g.a.toNat es ++ [xrng true n es]
  | .xcas .. => both g.a.toNat es ++ [xrng true g.x.toNat es]
  | .xfill .. => [xrng true g.a.toNat n]
  | .xexpand _ _ _ _ d _ _ =>
      xrng false g.b.toNat (n / 2 + n / (4 * es)) :: (match d with
        | .addr _ => [xrng true g.a.toNat n]
        | .ring _ => [])
  | .xsignal _ op .. => if op = 1 then both g.a.toNat 8 else [xrng true g.a.toNat 8]
  | .kvappend .. =>
      match s.layer f (nameLayer g.b) with
      | some l => [xrng false g.a.toNat (n * l.bpt)]
      | none => []
  | .kvget _ _ _ (.addr _) _ _ => [xrng true g.a.toNat (kvgetLen g.c)]
  | .kvget _ _ _ (.ring _) _ _ => []
  | .kvsum .. =>
      match s.layer f (nameLayer g.b) with
      | some l => [xrng true g.a.toNat (n * l.sumBytes)]
      | none => []
  | .xcoll _ _ kind .. =>
      [xrng false g.x.toNat 64, xrng false g.b.toNat n] ++
        (if kind = 0 ∨ kind = 3 then [xrng true g.a.toNat n] else [])
  | _ => []
where
  /-- A range that is read and written: an old value that is read needs the right to read it (R199, R298). -/
  both (a n : Nat) : List Rng := [xrng false a n, xrng true a n]

/-- The first elements of the ranges a command produces as it goes (R199). -/
def xFirst (i : Instr) (g : XArgs) : List Rng :=
  let es := esOf i
  match i with
  | .xcopy _ _ _ _ d _ _ (some _) =>
      xrng false g.b.toNat es :: (match d with
        | .addr _ => [xrng true g.a.toNat es]
        | .ring _ => [])
  | .xgather .. => [xrng false (g.b + idxOff g.vec 0 es).toNat es]
  | .xscatter .. => [xrng true (g.a + idxOff g.vec 0 es).toNat es]
  | .xcoll _ _ kind .. => if kind = 0 ∨ kind = 3 then [] else [xrng true g.a.toNat es]
  | _ => []

/-- Every range that is looked at when a command issues (R199); pod addresses are not (R346). -/
def xChecked (s : State) (f : Nat) (i : Instr) (g : XArgs) : List Rng :=
  (xWhole s f i g ++ xFirst i g).filter (fun r => !isPod r.a || (hasDesc i && r.a == g.x.toNat))
where
  /-- A command whose extension is the address of a descriptor. -/
  hasDesc : Instr → Bool
    | .xcopy _ _ _ _ _ _ _ (some _) | .xcoll .. => true
    | _ => false

/-! ## Patterns (R206, R207) -/

/-- A pattern descriptor (R206). -/
structure Pattern where
  cnt  : List Nat
  sstr : List Int
  dstr : List Int
  sw   : Option (Nat × Nat)
  dw   : Option (Nat × Nat)
  deriving DecidableEq, Repr

/-- The little-endian number of `n` bytes at an offset. -/
def numAt (d : List Byte) (o n : Nat) : Nat := ofBytes ((d.drop o).take n)
/-- The signed 64-bit number at an offset. -/
def intAt (d : List Byte) (o : Nat) : Int := (BitVec.ofNat 64 (numAt d o 8)).toInt

/-- The pattern a descriptor gives, if it is well formed (R206). -/
def patternOf (d : List Byte) (es : Nat) : Option Pattern :=
  let cnt := [0, 4, 8, 12].map (fun o => numAt d o 4)
  let fl := numAt d 0x60 8
  let win (base len : Nat) : Bool := len != 0 && len % es == 0 && base % es == 0
  let p : Pattern :=
    { cnt := cnt, sstr := [0x10, 0x18, 0x20].map (intAt d), dstr := [0x28, 0x30, 0x38].map (intAt d)
      sw := if fl % 2 = 1 then some (numAt d 0x40 8, numAt d 0x48 8) else none
      dw := if fl / 2 % 2 = 1 then some (numAt d 0x50 8, numAt d 0x58 8) else none }
  let ok := cnt.all (fun c => 1 ≤ c && c ≤ 2 ^ 24) && cnt.foldl (· * ·) 1 ≤ 2 ^ 32 && fl < 4
    && (d.drop 0x68).all (· == 0) && p.sw.all (fun w => win w.1 w.2) && p.dw.all (fun w => win w.1 w.2)
  if ok then some p else none

/-- Elements of a pattern. -/
def Pattern.total (p : Pattern) : Nat := p.cnt.foldl (· * ·) 1

/-- The address of element `e` on one side of a pattern (R207). -/
def patAddr (cnt : List Nat) (str : List Int) (w : Option (Nat × Nat)) (base : Word) (es e : Nat) : Nat :=
  let c (k : Nat) : Nat := (cnt[k]?).getD 1
  let i0 := e % c 0
  let i1 := e / c 0 % c 1
  let i2 := e / (c 0 * c 1) % c 2
  let i3 := e / (c 0 * c 1 * c 2)
  let st (k : Nat) : Int := (str[k]?).getD 0
  let a := base + BitVec.ofInt 64 ((i0 * es : Nat) + i1 * st 0 + i2 * st 1 + i3 * st 2)
  match w with
  | none => a.toNat
  | some (b, n) =>
      (BitVec.ofNat 64 (b + (((a.toNat : Int) - b) % n).toNat)).toNat

/-- The source address of an element of a copy, a gather or an expansion. -/
def patSrc (p : Pattern) (g : XArgs) (es e : Nat) : Nat := patAddr p.cnt p.sstr p.sw g.b es e
/-- The destination address of an element of a patterned copy. -/
def patDst (p : Pattern) (g : XArgs) (es e : Nat) : Nat := patAddr p.cnt p.dstr p.dw g.a es e

/-- Who a command acts for (R198). -/
def Cmd.who (c : Cmd) : Who := { launch := c.launch, lindex := c.lindex }

/-- The source bytes of element `e` of a patterned copy of core `k`, which a conversion may make more or fewer than the
element's (R70). -/
def Cmd.patBytes (s : State) (k : Nat) (c : Cmd) (p : Pattern) (e : Nat) : Nat :=
  let es := esOf c.i
  let sa := patSrc p c.args es e
  let dst : Option Hit := match ringDst c.i with
    | some r => copyDst s k c.who (some r) 0 (e * es)
    | none => dpaOf s k c.who .cmd true (patDst p c.args es e)
  match dpaOf s k c.who .cmd false sa, dst with
  | some x, some y =>
      match convTypes c.fmts x y with
      | some (t, u) =>
          let l := (patConv (s.srcTy k c.who c.fmts) t u (2 * sa) y.dpa es).2
          (elemsEnd (2 * sa) l + 1) / 2 - sa
      | none => es
  | _, _ => es

/-- The ranges of the elements of a running command of core `k` that its operands alone do not give. -/
def Cmd.elemRanges (s : State) (k : Nat) (c : Cmd) : List (Nat × Nat) :=
  let g := c.args
  let es := esOf c.i
  match c.i with
  | .xcopy _ _ _ _ d _ _ (some _) =>
      match patternOf c.prog.desc es with
      | none => []
      | some p => (List.range p.total).flatMap (fun e =>
          (patSrc p g es e, c.patBytes s k p e) :: (match d with
            | .addr _ => [(patDst p g es e, es)]
            | .ring _ => []))
  | .xgather _ _ _ _ _ _ _ n1 =>
      (List.range (n1.toNat + 1)).map (fun e => ((g.b + idxOff g.vec e es).toNat, es))
  | .xscatter _ _ _ _ _ _ _ n1 =>
      (List.range (n1.toNat + 1)).map (fun e => ((g.a + idxOff g.vec e es).toNat, es))
  | .xcoll .. => if c.prog.desc.isEmpty then [] else [(g.a.toNat, c.prog.total * es)]
  | _ => []

/-- Whether `n` bytes from `a` meet `m` bytes from `b`. -/
def meets (a n b m : Nat) : Bool := a < b + m && b < a + n && n != 0 && m != 0

/-- Whether a command of core `k` names memory of a range. -/
def Cmd.touchesMem (s : State) (k : Nat) (c : Cmd) (b n : Nat) : Bool :=
  (xChecked s (s.fnOf c.launch) c.i c.args).any (fun r => meets r.a r.n b n)
    || (c.elemRanges s k).any (fun r => meets r.1 r.2 b n)

/-- Whether the ring a command of core `k` fills lies in a range. -/
def Cmd.touchesRing (s : State) (k : Nat) (c : Cmd) (b n : Nat) : Bool :=
  ((ringDst c.i).map (fun r => (Tbl.getD (s.core k).ring r {}).span)).any (fun l => l.any (fun r => meets r.1 r.2 b n))

/-- Whether a command of core `k` touches a range. -/
def Cmd.touches (s : State) (k : Nat) (c : Cmd) (b n : Nat) : Bool := c.touchesMem s k b n || c.touchesRing s k b n

/-- Whether a queued operation reads or writes a range of memory. -/
def QOp.touches (o : QOp) (b n : Nat) : Bool := o.ranges.any (fun r => meets r.a r.n b n)

/-- Every context slot of the package that is not Empty, as (core, slot). -/
def State.slots (s : State) : List (Nat × Nat) :=
  s.cores.flatMap (fun c => ([0, 1, 2, 3].filter (fun j => (c.2.slot j).state != .empty)).map (fun j => (c.1, j)))

/-- Whether a launch has a range of a region in its address space: as owner, or by a sublet (R59). -/
def Region.seenBy (r : Region) (l : Nat) : Bool :=
  r.owner == l || r.subs.any (fun u => u.toLaunch && u.grantee == l)

/-- The in-transfer count of a range of a region (R51). -/
def State.inTransfer (s : State) (r : Region) : Nat :=
  s.cores.foldl (fun n c =>
    let cmds := (List.range 16).flatMap (fun ch => (c.2.chn ch).queue)
    let ops := [0, 1, 2, 3].flatMap (fun j =>
      let x := c.2.slot j
      if r.seenBy x.launch then
        x.queue.filter (fun o => (o.spans s c.1).any (fun a => meets a.1 a.2 r.base r.len) && isMclass o.i) else [])
    n + (cmds.filter (fun q => r.seenBy q.launch && q.touches s c.1 r.base r.len)).length + ops.length) 0
where
  /-- An operation of the M class. -/
  isMclass (i : Instr) : Bool := i != .nop && i.slotOk .m

/-- Whether a T operation that reads or writes memory of a region is queued or running. -/
def State.tileTouches (s : State) (r : Region) : Bool :=
  s.slots.any (fun p =>
    let x := s.ctx p.1 p.2
    r.seenBy x.launch && x.queue.any (fun o => o.i.slotOk .t && o.touches r.base r.len))

end Sys2Proof.Machine
end

