-- ==== Sys2Proof/Machine/Flit.lean ====
section
/-!
DEFINITION. Jorier flits (R344): their layout, the ports, and what a command sends to another package (R345). What a data
flit carries the spec does not give: its payload is free (log 19).
-/
namespace Sys2Proof.Machine

/-- The header fields of a flit (R344). -/
structure FlitHead where
  dst  : Nat
  src  : Nat
  vl   : Nat
  type : Nat
  seq  : Nat
  deriving DecidableEq, Repr

/-- The header of a flit. -/
def flitHead (d : List Byte) : FlitHead :=
  let w := BitVec.ofNat 64 (numAt d 0 8)
  { dst := field w 0 10, src := field w 10 10, vl := field w 20 4, type := field w 24 4, seq := field w 28 12 }

/-- A flit with a header and a payload of 232 bytes (R344). -/
def mkFlit (h : FlitHead) (payload : List Byte) : List Byte :=
  let b := toBytes 8 (put [(28, h.seq), (24, h.type), (20, h.vl), (10, h.src), (0, h.dst)]).toNat ++ payload
  let b := b ++ toBytes 8 (Config.flitCrc64 b).toNat
  b ++ toBytes 8 (Config.flitParity b).toNat

/-- An empty payload. -/
def noPayload : List Byte := List.replicate 232 0

/-- Port `p`. -/
def State.port (s : State) (p : Nat) : Port := Tbl.getD s.ports p {}
/-- Change a port. -/
def State.updPort (s : State) (p : Nat) (g : Port → Port) : State := { s with ports := Tbl.upd s.ports p {} g }

/-- Whether a corrected flit's CRC holds (R344). -/
def crcOk (d : List Byte) : Bool := numAt d 240 8 == (Config.flitCrc64 (d.take 240)).toNat

/-- `n` words of free bytes. -/
def freeWords (s : State) : Nat → State × List Byte
  | 0 => (s, [])
  | n + 1 =>
      let r := s.drawFree
      let q := freeWords r.1 n
      (q.1, toBytes 8 r.2.toNat ++ q.2)

/-- A flit with a payload leaves by a port, with the port's next SEQ; it stays there until it is acknowledged (R344). -/
def sendOn (s : State) (port type vl pkg : Nat) (payload : List Byte) : State :=
  s.updPort port (fun p =>
    let f := mkFlit { dst := pkg, src := s.pkg, vl := vl, type := type, seq := p.next } payload
    { p with next := (p.next + 1) % 4096, sent := p.sent ++ [(p.next, f)], out := p.out ++ [f] })

/-- A flit of a type to another package on a virtual lane: the state, and its port and SEQ (R344, R345). The port on the
route is a choice, and the payload is free (log 19). -/
def sendFlit (s : State) (type vl pkg : Nat) : State × (Nat × Nat) :=
  let r := s.choose 0
  let q := freeWords r.1 29
  (sendOn q.1 (r.2 % 16) type vl pkg q.2, (r.2 % 16, (q.1.port (r.2 % 16)).next))

/-- A flit to each of some packages that are not this one. -/
def sendFlits (s : State) (type vl : Nat) (pkgs : List Nat) : State × List (Nat × Nat) :=
  (pkgs.filter (· != s.pkg)).foldl (fun acc p =>
    let r := sendFlit acc.1 type vl p
    (r.1, acc.2 ++ [r.2])) (s, [])

/-- Whether a flit is still to be acknowledged. -/
def State.unacked (s : State) (f : Nat × Nat) : Bool := (s.port f.1).sent.any (fun x => x.1 == f.2)

/-- A fence, a release or an acquire of scope `.pod` travels to every package that has a route (R345); on which lane the
spec does not say: on lane 0 (log 19, DESIGN CHOICE). -/
def podFlits (sc : Scope) (s : State) : State := if sc = .pod then (sendFlits s 1 0 s.routes).1 else s

end Sys2Proof.Machine
end

