-- ==== Sys2Proof/Machine/Sync.lean ====
section
/-!
DEFINITION. Barriers (R220 to R223, R250), watches (R224, R225) and fences (R226).
-/
namespace Sys2Proof.Machine

/-! ## Scopes and numbers (R17) -/

/-- Barrier numbers of a scope, by its code (R17). -/
def barrierCount (sc : Nat) : Nat :=
  match sc with
  | 0 => 16
  | 1 => 32
  | 2 => 64
  | 3 => 64
  | 4 => 128
  | _ => 256

/-- The instance of a scope a core lies in (R17, R220). -/
def scopeInst (sc k : Nat) : Nat :=
  match sc with
  | 0 => k
  | 1 => k / 4
  | 2 => k / 48
  | 3 => k / 192
  | _ => 0

/-- BBOFF of the issuing context (R110). -/
def Bank.bboff (b : Bank) : Nat := field b.rbase 16 16

/-- The effective number of `n` at a scope (R222). -/
def effNum (b : Bank) (sc n : Nat) : Nat :=
  let (base, depth) := Tbl.getD b.bar sc (0, 0)
  if depth = 0 then n else base + (n + b.bboff) % depth

/-- The binding, broken or not, of an effective number as core `k` names it. -/
def State.barrier? (s : State) (l sc k n : Nat) : Option Barrier :=
  s.barriers.find? (fun b => b.sc == sc && b.inst == scopeInst sc k && b.launch == l && b.n == n)

/-- Whether two bindings are of one number. -/
def Barrier.same (b c : Barrier) : Bool :=
  b.sc == c.sc && b.inst == c.inst && b.launch == c.launch && b.n == c.n

/-! ## Cells (R220) -/

/-- EXP of a cell's word. -/
def cellExp (w : Word) : Nat := field w 0 16
/-- ARR of a cell's word. -/
def cellArr (w : Word) : Nat := field w 16 16
/-- GEN of a cell's word. -/
def cellGen (w : Word) : Nat := field w 32 32

/-- The word of a cell after one arrival: ARR goes up, and at EXP the phase changes (R223). -/
def cellArrive (w : Word) : Word :=
  if cellArr w + 1 = cellExp w then put [(32, (cellGen w + 1) % 2 ^ 32), (0, cellExp w)]
  else setField w 16 16 (cellArr w + 1)

/-- The key of an arrival generation: 256 times the scope plus the effective number. -/
def genKey (sc n : Nat) : Nat := 256 * sc + n

/-- The unbroken binding of an effective number of a member set. -/
def State.liveBarrier? (s : State) (sc inst l n : Nat) : Option Barrier :=
  (s.barriers.find? (fun b => b.sc == sc && b.inst == inst && b.launch == l && b.n == n)).filter (fun b => !b.broken)

/-- The context numbered `who` in slot `j` of core `k` holds the generation of a cell as its arrival's (R222, R223). -/
def noteArrival (s : State) (k j who sc inst l n : Nat) : State :=
  match s.liveBarrier? sc inst l n with
  | none => s
  | some b => s.updCtx k j (fun x => x.updBankOf who (fun y =>
      { y with arrGen := Tbl.set y.arrGen (genKey sc n) (cellGen (s.unitWord b.dpa)) }))

/-- Count an arrival of the context numbered `who` in slot `j` of core `k` into its cell (R223). A binding that is gone
or broken counts nothing (R64). -/
def countArrival (s : State) (k j who sc inst l n : Nat) : State :=
  match s.liveBarrier? sc inst l n with
  | none => s
  | some b => (noteArrival s k j who sc inst l n).writeDpa b.dpa (toBytes 8 (cellArrive (s.unitWord b.dpa)).toNat)

/-- Release every waiter of a binding with the broken half (R221, R223). -/
def breakWaiters (s : State) (b : Barrier) : State :=
  s.slots.foldl (fun s p => s.updCtx p.1 p.2 (fun x =>
    match x.wait with
    | some (.barrier sc inst l n g none) =>
        if b.same { b with sc := sc, inst := inst, launch := l, n := n } then
          { x with wait := some (.barrier sc inst l n g (some false)), state := .ready }
        else x
    | _ => x)) s

/-- What stands against a number at a scope: one outside the range is ILLEGAL (R17). -/
def numChk (s : State) (sc n : Nat) : Chk := faultIf (barrierCount sc ≤ n) s.illegal

/-- What stands against an ARRIVE or a WAIT: a number out of range, or one that is not bound (R223). -/
def boundChk (s : State) (sc n : Nat) : Chk :=
  if barrierCount sc ≤ n then { fault := some s.illegal }
  else match s.barrier? s.me.launch sc s.issue.core n with
    | none => { fault := some (s.flt .region 0) }
    | some b => faultIf b.broken (s.flt .expired 0)

/-! ## BARINIT and BARBASE -/

/-- What stands against BARINIT (R221): a number out of range, and, when it would bind, a cell that is
not held. -/
def barinitChk (sc : Scope) (a b c : Sel) (s : State) : Chk :=
  let n := (s.src a).toNat
  let at_ := s.src b
  let bound := ((s.barrier? s.me.launch sc.code.toNat s.issue.core n).map (fun x => !x.broken)).getD false
  if barrierCount sc.code.toNat ≤ n then { fault := some s.illegal }
  else if s.src c = 0 || bound || field at_ 0 3 ≠ 0 then {}
  else match xlate s (s.who s.issue.core s.issue.ctx) at_.toNat true with
    | .hit _ => {}
    | .pend p => { block := some (some (.pending p)) }
    | .bad .expired => { fault := some (s.flt .expired at_) }
    | _ => { fault := some (s.flt .region at_) }

/-- BARINIT (R221): the binding and the pair at latency 2 (R250). -/
def execBarinit (g : BitVec 4) (sc : Scope) (p : BitVec 3) (a b c : Sel) (s : State) :
    Host.Outcome State Fault Refusal :=
  issueOp (.barinit g sc p a b c) (barinitChk sc a b c)
    (fun s =>
      let k := s.issue.core
      let n := (s.src a).toNat
      let at_ := (s.src b).toNat
      let count := (s.src c).toNat
      let l := s.me.launch
      let inst := scopeInst sc.code.toNat k
      let bound := ((s.barrier? l sc.code.toNat k n).map (fun x => !x.broken)).getD false
      let tier1 := match xlate s (s.who k s.issue.ctx) at_ true with
        | .hit h => h.tier == 1 && h.region.isSome
        | _ => false
      if count = 0 then
        if bound then s.land 2 (.barUnbind sc.code.toNat inst l n :: s.pairLands p true)
        else s.land 2 (s.pairLands p false)
      else if bound || 65535 < count || at_ % 8 ≠ 0 || !tier1 then s.land 2 (s.pairLands p false)
      else s.land 2 (.barBind sc.code.toNat inst l n at_ count :: s.pairLands p true)) s

/-- A binding takes effect (R221, R250): the cell is written; a lease that has ended meanwhile gives no
binding. -/
def bindCell (s : State) (k j sc inst l n cell count : Nat) : State :=
  match xlate s (s.who k j) cell true with
  | .hit h =>
      match h.region with
      | none => s
      | some r =>
          let b : Barrier := { sc := sc, inst := inst, launch := l, n := n, cell := cell, dpa := h.dpa, region := r }
          let s := { s with barriers := s.barriers.filter (fun (x : Barrier) => !x.same b) ++ [b] }
          s.writeDpa h.dpa (toBytes 8 count)
  | _ => s

/-- A binding is taken away (R221). -/
def unbindCell (s : State) (sc inst l n : Nat) : State :=
  match s.barriers.find? (fun b => b.sc == sc && b.inst == inst && b.launch == l && b.n == n) with
  | none => s
  | some b => breakWaiters { s with barriers := s.barriers.filter (fun (x : Barrier) => !x.same b) } b

/-- What stands against BARBASE: a rotation past the scope's numbers (R222). -/
def barbaseChk (sc : Scope) (a b : Sel) (s : State) : Chk :=
  faultIf (barrierCount sc.code.toNat < (s.src a).toNat + (s.src b).toNat) s.illegal

/-- BARBASE (R222), from latency 2. -/
def execBarbase (g : BitVec 4) (sc : Scope) (a b : Sel) (s : State) : Host.Outcome State Fault Refusal :=
  issueOp (.barbase g sc a b) (barbaseChk sc a b)
    (fun s => s.land 2 [.barBase sc.code.toNat (s.src a).toNat (s.src b).toNat]) s

/-! ## ARRIVE and WAIT -/

/-- The effective number an ARRIVE or a WAIT names (R222). -/
def State.barNum (s : State) (sc : Scope) (a : Sel) : Nat := effNum s.me.bank sc.code.toNat (s.src a).toNat

/-- What stands against ARRIVE (R223). -/
def arriveChk (sc : Scope) (a : Sel) (s : State) : Chk := boundChk s sc.code.toNat (s.barNum sc a)

/-- ARRIVE (R223): the arrival is counted at once, or held behind earlier ACCST and TST writes (R189). -/
def execArrive (g : BitVec 4) (sc : Scope) (a : Sel) (s : State) : Host.Outcome State Fault Refusal :=
  issueOp (.arrive g sc a) (arriveChk sc a)
    (fun s =>
      let s := podFlits sc s
      let k := s.issue.core
      let j := s.issue.ctx
      let n := s.barNum sc a
      let x := s.me
      let inst := scopeInst sc.code.toNat k
      if x.pendingStores.isEmpty && (x.myHeld x.inst).isEmpty then countArrival s k j x.inst sc.code.toNat inst x.launch n
      else holdEff s k j x.pendingStores (.arrive sc.code.toNat inst x.launch n)) s

/-- Whether an arrival of the context on a number is still held back. -/
def Ctx.arriving (x : Ctx) (sc n : Nat) : Bool :=
  (x.myHeld x.inst).any (fun h => match h.eff with
    | .arrive c _ _ m => c == sc && m == n
    | _ => false)

/-- Whether a WAIT with reference generation `g` may complete: the cell's GEN differs (R223). -/
def genMoved (s : State) (x : Ctx) (sc inst l n g : Nat) : Bool :=
  let ref_ := Tbl.getD x.bank.arrGen (genKey sc n) g
  match s.barriers.find? (fun b => b.sc == sc && b.inst == inst && b.launch == l && b.n == n) with
  | none => false
  | some b => !b.broken && !x.arriving sc n && cellGen (s.unitWord b.dpa) != ref_

/-- The result a WAIT or WATCH that was woken left for its bundle's reissue. -/
def Ctx.waitRes (x : Ctx) : Option Bool :=
  match x.wait with
  | some (.barrier _ _ _ _ _ r) => r
  | some (.watch _ _ _ _ r) => r
  | some (.chan _ _ _ r) => r
  | _ => none

/-- What stands against WAIT (R223). -/
def waitChk (sc : Scope) (a : Sel) (s : State) : Chk :=
  if s.me.waitRes.isSome then {}
  else
    let k := s.issue.core
    let l := s.me.launch
    let n := s.barNum sc a
    let inst := scopeInst sc.code.toNat k
    let c := boundChk s sc.code.toNat n
    match s.barrier? l sc.code.toNat k n with
    | none => c
    | some b =>
        let gen := cellGen (s.unitWord b.dpa)
        if c.fault.isSome || genMoved s s.me sc.code.toNat inst l n gen then c
        else { block := some (some (.barrier sc.code.toNat inst l n gen none)) }

/-- WAIT (R223): the pair lands one cycle after completion; with pP set it is an acquire (R245). -/
def execWait (g : BitVec 4) (sc : Scope) (p : BitVec 3) (a : Sel) (s : State) :
    Host.Outcome State Fault Refusal :=
  issueOp (.wait g sc p a) (waitChk sc a)
    (fun s =>
      let s := podFlits sc s
      let n := s.barNum sc a
      let ok := s.me.waitRes.getD true
      let t := if ok then s.acquired s.issue.core else s
      (t.land 1 (s.pairLands p ok)).updMe (fun x => { x with
        wait := none, bank := { x.bank with arrGen := Tbl.erase x.bank.arrGen (genKey sc.code.toNat n) } })) s

/-! ## WATCH -/

/-- The condition of a watch (R224). -/
def watchHolds (c : Nat) (x v : Word) : Bool :=
  match c with
  | 0 => x == v
  | 1 => x != v
  | 2 => v.ule x
  | _ => x.ult v

/-- The eight bytes a memory watch of the context in slot `j` of core `k` looks at. -/
def watchWord (s : State) (k j a : Nat) : Word :=
  BitVec.ofNat 64 (ofBytes (overHeldAt s k j a))
where
  /-- The bytes at `a` with the context's own held stores over them (R172, R189). -/
  overHeldAt (s : State) (k j a : Nat) : List Byte :=
    match dpaOf s k (s.who k j) .bundle false a with
    | some h => overHeld ((s.ctx k j).myHeld (s.ctx k j).inst) h.dpa (Memory.bytes s.mem h.dpa 8)
    | none => []

/-- What stands against a WATCH (R224, R309). -/
def watchChk (w : WatchOf) (b : Sel) (s : State) : Chk :=
  let k := s.issue.core
  let j := s.issue.ctx
  if s.me.waitRes.isSome then {}
  else match w with
    | .mem c a =>
        let at_ := s.src a
        if field at_ 0 3 ≠ 0 then { fault := some (s.flt .region at_) }
        else
          let r := rngChk s { p := .bundle, write := false, a := at_.toNat, n := 8 }
          let r := { r with fault := r.fault.map (fun f => if f.cause = .xlate then { f with cause := .region } else f) }
          if r.fault.isSome || !r.pages.isEmpty || r.block.isSome then r
          else match poisonRange s k (s.who k j) .bundle at_.toNat 8 with
            | some u => { fault := some { s.flt .poison (BitVec.ofNat 64 u) with
                ue := (dpaOf s k (s.who k j) .bundle false at_.toNat).map (fun h => h.dpa / 64 * 64) } }
            | none =>
                if watchHolds c.toNat (watchWord s k j at_.toNat) (s.src b) then {}
                else { block := some (some (.watch c.toNat at_.toNat (s.src b) s.now none)) }
    | .chan ch =>
        if (s.src b).ule (s.myCore.chn ch.toNat).wpos then {}
        else { block := some (some (.chan ch.toNat (s.src b) s.now none)) }

/-- What a satisfied WATCH acquires: in memory form everything, in channel form its channel's writes (R201, R245). -/
def watchAcquires (w : WatchOf) (s : State) : State :=
  match w with
  | .mem .. => s.acquired s.issue.core
  | .chan ch => s.acquiredChan s.issue.core ch.toNat

/-- WATCH (R224): the pair lands one cycle after completion; a satisfied one is an acquire (R245). -/
def execWatch (g : BitVec 4) (p : BitVec 3) (w : WatchOf) (b : Sel) (s : State) :
    Host.Outcome State Fault Refusal :=
  issueOp (.watch g p w b) (watchChk w b)
    (fun s =>
      let ok := s.me.waitRes.getD true
      let t := if ok then watchAcquires w s else s
      (t.land 1 (s.pairLands p ok)).updMe (fun x => { x with wait := none })) s

/-- Whether the condition of a waiting watch holds (R224). -/
def watchNow (s : State) (k j : Nat) (w : Wait) : Bool :=
  match w with
  | .watch c a v _ _ => watchHolds c (watchWord s k j a) v
  | .chan ch v _ _ => v.ule ((s.core k).chn ch).wpos
  | _ => false

/-- A watch ends with a result; another wait is left alone. -/
def Wait.ended (w : Wait) (r : Bool) : Wait :=
  match w with
  | .watch c a v t none => .watch c a v t (some r)
  | .chan ch v t none => .chan ch v t (some r)
  | w => w

/-- Whether a wait is a watch that is not over, with the tick it issued in. -/
def Wait.watchSince (w : Wait) : Option Nat :=
  match w with
  | .watch _ _ _ t none => some t
  | .chan _ _ t none => some t
  | _ => none

/-- A watch of the context in slot `j` of core `k` wakes: true if its condition holds, else false for
broken or timed out (R224). -/
def wakeWatch (s : State) (k j : Nat) : State :=
  let x := s.ctx k j
  match x.wait with
  | some w =>
      if w.watchSince.isSome then
        s.setCtx k j { x with wait := some (w.ended (watchNow s k j w)), state := .ready }
      else s
  | none => s

/-- Whether the watch of a context has timed out (R224, R225). -/
def Ctx.timedOut (x : Ctx) (now : Nat) : Bool :=
  let to_ := field x.bank.watchto 0 32
  match x.wait with
  | some w => (w.watchSince.map (fun t => to_ != 0 && t + to_ ≤ now)).getD false
  | none => false

/-- WATCH_TIMEOUT (R224, R225, R44): a watch whose time is over ends with its broken half. -/
def execWatchTimeout (core slot : Nat) (s : State) : Host.Outcome State Fault Refusal :=
  .next (if (s.ctx core slot).timedOut s.now then wakeWatch s core slot else s)

/-! ## FENCE -/

/-- Whether a queued operation that is still to read memory, a ring with it, reads a page kind of some (R242). -/
def QOp.loads (s : State) (k j : Nat) (kinds : BitVec 3) (o : QOp) : Bool :=
  let kindAt (a n : Nat) : Bool := (segsOf s k (s.who k j) .tile false a n).any (fun g => kinds.getLsbD g.2.1.kind)
  (match o.i with
    | .accld .. | .tld .. | .mma .. | .mmag .. => true
    | _ => false) && !(o.started && o.page.isNone) && (o.spans s k).any (fun r => kindAt r.1 (min r.2 1))

/-- The queued operations of the issuing context whose accesses a fence of some page kinds orders (R189, R242, R247):
`dir` is 0 for a full fence, 1 for `.acq`, which orders loads only, and 2 for `.rel`. -/
def State.fenced (s : State) (kinds : BitVec 3) (dir : BitVec 2) : List Nat :=
  (if dir = 1 then [] else s.me.pendingStores)
    ++ (s.me.mine.filter (fun o => o.loads s s.issue.core s.issue.ctx kinds)).map (·.id)

/-- FENCE (R226, R247). Stores are visible at once (log 3), but for those of ACCST and TST and what is held behind them:
a fence holds later accesses of its context of the kinds it names back behind those and behind what queued operations
have not read yet (R189, R242, R247). An acquire or full fence is an acquire (R245). -/
def execFence (g : BitVec 4) (sc : Scope) (kinds : BitVec 3) (dir : BitVec 2) (s : State) :
    Host.Outcome State Fault Refusal :=
  issueOp (.fence g sc kinds dir) noChk
    (fun s =>
      let s := podFlits sc s
      let x := s.me
      let t := if dir = 2 then s else s.acquired s.issue.core
      let after := s.fenced kinds dir
      if after.isEmpty ∧ (dir = 1 ∨ (x.myHeld x.inst).isEmpty) then t
      else holdEff t s.issue.core s.issue.ctx after (.fence kinds.toNat (dir != 2))) s

end Sys2Proof.Machine
end

