-- ==== Sys2Proof/Machine/Queue.lean ====
section
/-!
DEFINITION. The queues behind the bundle stream: staging and completing T and M operations and their
tags (R116, R117), effects held behind ACCST and TST writes (R189), and the completion of channel
commands (R202, R203).
-/
namespace Sys2Proof.Machine

/-! ## T and M operations -/

/-- A context's queue is full when 16 operations are unstarted (R116). -/
def queueChk (s : State) : Chk := blockIf (16 ≤ s.me.pend)

/-- Whether a held effect is the ordering point of a fence; with `full`, of a full one. -/
def Held.isFence (h : Held) (full : Bool) : Bool :=
  match h.eff with
  | .fence _ f => f || !full
  | _ => false

/-- Whether a fence of the context numbered `inst` that comes before what was issued with `seq` held effects ahead of it
is still held back (R247). -/
def Ctx.behindFence (x : Ctx) (inst seq : Nat) (full : Bool) : Bool :=
  (x.myHeld inst).any (fun h => decide (h.seq < seq) && h.isFence full)

/-- The issuing context. -/
def State.whoMe (s : State) : Who := s.who s.issue.core s.issue.ctx

/-- The place of the issuing bundle in the issue order of its core: a doubles partner counts as later
(R105, R197). -/
def State.issueKey (s : State) : Nat := 2 * s.cycle + (if s.issue.partner then 1 else 0)

/-- Stage a queued operation of the issuing context (R116, R117). -/
def State.stage (s : State) (o : QOp) : State :=
  let x := s.me
  let o := { o with id := x.staged, inst := x.inst, fence := x.heldSeq, issue := x.issues, gid := s.issueKey, gang := s.myCore.gang
                    rm := rmOf x.bank.fpflags }
  s.updMe (fun x => { x with queue := x.queue ++ [o], staged := x.staged + 1 })

/-- Tag number of a tile (R117). -/
def tileTag (t : Nat) : Nat := t % 8
/-- Tag number of an accumulator (R117). -/
def accTag (n : Nat) : Nat := 8 + n

/-- A timed T or M operation freezes the core until the tags of its sources are set (R116). -/
def tagChk (l : List Nat) (s : State) : Chk := if l.all s.me.tag then {} else { stall := some .tags }

/-- Whether two lists share a number. -/
def overlaps (a b : List Nat) : Bool := a.any b.contains

/-- Whether a range of one operation meets a range of another, one of them written. -/
def rangesMeet (write : Bool) (a b : List Rng) : Bool :=
  a.any (fun x => x.write == write && b.any (fun y => meets x.a x.n y.a y.n))

/-- Whether older operation `p` holds `o` back (R117): it has not started, it writes a source of `o`, or
it reads or writes a destination; memory counts among both. -/
def QOp.holdsBack (p o : QOp) : Bool :=
  p.inst == o.inst && decide (p.issue < o.issue) &&
    (!p.started || overlaps p.dsts (o.srcs ++ o.dsts) || overlaps p.srcs o.dsts
      || rangesMeet true p.ranges o.ranges || rangesMeet true o.ranges p.ranges)

/-- Whether the other operation `p` of the bundle of `o` holds back the writes of `o` (R105, log 78): it has not
read a source that `o` writes, or `o` is the later slot's and both write one destination. -/
def QOp.holdsWrites (p o : QOp) : Bool :=
  p.inst == o.inst && p.issue == o.issue && p.id != o.id &&
    (((!p.started || p.page.isSome) && (overlaps p.srcs o.dsts || rangesMeet true o.ranges p.ranges))
      || (decide (p.id < o.id)
          && (overlaps p.dsts o.dsts || rangesMeet true (o.ranges.filter (·.write)) (p.ranges.filter (·.write)))))

/-- Whether an SO store that came before an operation of a context is still held back (R244). -/
def Ctx.heldSo (x : Ctx) (o : QOp) : Bool :=
  (x.myHeld o.inst).any (fun h => decide (h.seq < o.fence) && (match h.eff with
    | .store _ so _ => so
    | _ => false))

/-- Whether an operation of an earlier bundle has SO writes that are not complete (R242, R244). -/
def State.earlierSo (s : State) (k j : Nat) (o : QOp) : Bool :=
  (s.ctx k j).queue.any (fun p => p.inst == o.inst && decide (p.issue < o.issue) && p.so s k j true)

/-- Whether the writes of an operation of a context may be made: its tokens are there, and its writes to memory are
behind no fence (R247) and, where they are SO, no earlier SO write (R244). -/
def State.mayWrite (s : State) (k j : Nat) (o : QOp) : Bool :=
  let x := s.ctx k j
  o.due.all s.tokensThere && !x.queue.any (fun p => p.holdsWrites o)
    && !((o.ranges.any (·.write)) && x.behindFence o.inst o.fence false)
    && !(o.so s k j true && (s.earlierSo k j o || x.heldSo o))

/-- Whether an operation of a context may complete: it runs, with every page it needs, and its writes may be made. -/
def State.mayComplete (s : State) (k j : Nat) (o : QOp) : Bool := o.started && o.page.isNone && s.mayWrite k j o

/-- Whether R117 lets an operation of a context start; its reads of memory wait for a full fence (R247), and SO reads for
the SO writes before them (R244). -/
def State.mayStart (s : State) (k j : Nat) (o : QOp) : Bool :=
  let x := s.ctx k j
  !o.started && !x.queue.any (fun p => p.holdsBack o)
    && !((o.ranges.any (fun r => !r.write)) && x.behindFence o.inst o.fence true)
    && !(o.so s k j false && (s.earlierSo k j o || x.heldSo o))

/-- Advance a ring past a slot that is popped, one whose region was lost, too (R63, R176). -/
def Ring.popped (r : Ring) : Ring :=
  if r.slots = 0 then { r with inuse := r.inuse - 1 }
  else { r with inuse := r.inuse - 1, full := r.full - 1, head := (r.head + 1) % r.slots }

/-- Change ring `r` of core `k`. -/
def State.updRing (s : State) (k r : Nat) (f : Ring → Ring) : State :=
  s.updCore k (fun c => { c with ring := Tbl.upd c.ring r {} f })

/-- One read of a slot by a gang member is over; with the last one the slot is popped. Where the ring is operand A and
operand B of one issue, that is the last of both (R185). -/
def Ring.readOver (r : Ring) (key : Nat) : Ring :=
  match r.reads.find? (fun x => x.1 == key) with
  | none => r
  | some (_, slot, left, pop) =>
      let rest := r.reads.filter (fun x => x.1 != key)
      let other (x : Nat × Nat × Nat × Bool) : Bool := x.1 / 2 == key / 2 && x.2.1 == slot
      if 1 < left then { r with reads := (key, slot, left - 1, pop) :: rest }
      else if !pop then { r with reads := rest }
      else if rest.any other then
        { r with reads := rest.map (fun x => if other x then (x.1, x.2.1, x.2.2.1, true) else x) }
      else { r with reads := rest }.popped

/-- OR flags into a context's FPFLAGS (R83). -/
def State.raiseFlags (s : State) (k j : Nat) (f : Word) : State :=
  s.updCtx k j (fun x => { x with bank := { x.bank with fpflags := orFlags x.bank.fpflags f.toNat } })

/-- An MTS of FPFLAGS that lands in the cycle in which flags are raised has them ORed into it (R83, R105). -/
def Land.orInto (f : Word) (l : Land) : Land :=
  match l with
  | .mts n x => if n = 0x006 then .mts n (orFlags x f.toNat) else l
  | _ => l

/-- OR flags of an engine into the FPFLAGS of the context numbered `inst` and into an MTS of it that is due (R83), one whose
landing a freeze holds back among them (log 107, DESIGN CHOICE); a trap of the same cycle does not take them back (log 77). -/
def State.engineFlags (s : State) (k j inst : Nat) (f : Word) : State :=
  let up (b : Bank) : Bank := { b with fpflags := orFlags b.fpflags f.toNat }
  let ic := (s.core k).ic
  s.updCtx k j (fun x => if x.inst ≠ inst then x.updBankOf inst up else { x with
    bank := up x.bank, undo := x.undo.map (fun u => { u with bank := up u.bank })
    flight := x.flight.map (fun y => if y.due ≤ ic then { y with lands := y.lands.map (Land.orInto f) } else y) })

/-- Apply one write of an operation of the context numbered `inst` in slot `j` of core `k`; `swz` tells the view
(R68). -/
def applyQ (k j inst : Nat) (swz : Bool) (s : State) (w : QWrite) : State :=
  match w with
  | .tileRow t r v m => s.updCtx k j (fun x => x.updBankOf inst (fun b =>
      { b with t := Tbl.set b.t (32 * t + r) (mergeV (b.row t r) v m) }))
  | .mem _ a g bs =>
      let s := writePad s k a swz bs
      match dpaHome a with
      | some (t, h) => markDirty s (s.fnOf (s.ctx k j).launch) { dpa := a, tier := t, home := h, kind := 0, gpa := g }
      | none => s
  | .pop r n => s.updRing k r (fun g => if g.gen = n then { g.popped with popAt := s.cycle + 1 } else g)
  | .readDone c r key => s.updRing c r (fun g =>
      let g' := g.readOver key
      if g'.head = g.head ∧ g'.inuse = g.inuse then g' else { g' with popAt := s.cycle + 1 })
  | .flags f => s.engineFlags k j inst f
  | .done _ => s

/-- Whether an operation writes through the swizzled view (R68). -/
def swizzled (i : Instr) : Bool :=
  match i with
  | .tst .. => true
  | _ => false

/-! ## Held effects (R189) -/

/-- The slots of a core whose tails start behind operations of slot `j` (R37, R246). -/
def CoreSt.tailsBehind (c : CoreSt) (j : Nat) : List Nat :=
  [0, 1, 2, 3].filter (fun m => (c.slot m).tail.isSome && (match (c.slot m).wait with
    | some (.writes ops) => ops.any (fun g => g.1 == j)
    | _ => false))

/-- Apply a held effect of the context numbered `n`. An arrival of the bundle of a HANDBACK is one of the tail as well,
which copied what the callee held (R37). A hand-over is applied by itself. -/
def applyHeld (s : State) (k j n : Nat) (e : HeldEff) : State :=
  match e with
  | .store ps _ joined => ps.foldl (applyPiece k (s.fnOf (s.ctx k j).launch) joined.isSome) s
  | .arrive sc inst l m =>
      countArrival (((s.core k).tailsBehind j).foldl (fun t i => noteArrival t k i (s.ctx k i).inst sc inst l m) s)
        k j n sc inst l m
  | .fence _ full => if full then s.acquired k else s
  | .handover .. => s

/-- Whether a held effect is a hand-over. -/
def Held.isHandover (h : Held) : Bool :=
  match h.eff with
  | .handover .. => true
  | _ => false

/-- Whether a held effect may be applied: nothing it waits for is left, and it is the oldest of its context. -/
def Ctx.isFree (x : Ctx) (h : Held) : Bool :=
  !h.isHandover && !h.after.any (fun i => x.queue.any (fun o => o.id == i))
    && !x.held.any (fun g => g.inst == h.inst && decide (g.seq < h.seq))

/-- Apply the held effects of a slot whose turn has come, oldest first. -/
def drainHeld (k j : Nat) : Nat → State → State
  | 0, s => s
  | f + 1, s =>
      match (s.ctx k j).held.find? (s.ctx k j).isFree with
      | none => s
      | some h =>
          drainHeld k j f (applyHeld (s.updCtx k j (fun x => { x with held := x.held.filter (fun g => g.seq != h.seq) }))
            k j h.inst h.eff)

/-- Every held effect of a context that may be applied is. -/
def State.drain (s : State) (k j : Nat) : State := drainHeld k j (s.ctx k j).held.length s

/-- An operation leaves its context's queue with its writes applied: its tags are set again when no other
writer is pending (R117), and effects held behind it go on (R189). -/
def State.finishOp (s : State) (k j : Nat) (o : QOp) : State :=
  let s := o.writes.foldl (applyQ k j o.inst (swizzled o.i)) s
  (s.updCtx k j (fun x => { x with queue := x.queue.filter (fun p => p.id != o.id) })).drain k j

/-! ## Commands -/

/-- Change channel `n` of core `k`. -/
def State.updChan (s : State) (k n : Nat) (f : Chan → Chan) : State :=
  s.updCore k (fun c => { c with chan := Tbl.upd c.chan n {} f })

/-- The head command of a channel, if it has been issued. -/
def State.headCmd (s : State) (k n : Nat) : Option Cmd := ((s.core k).chn n).queue.head?

/-- Change a command of a channel. -/
def State.updCmd (s : State) (k n serial : Nat) (f : Cmd → Cmd) : State :=
  s.updChan k n (fun h => { h with queue := h.queue.map (fun c => if c.serial == serial then f c else c) })

/-- Channel watches that wait for channel `n` break when a command of it ends with another status than OK
(R224). -/
def breakChanWatches (s : State) (k n : Nat) : State :=
  [0, 1, 2, 3].foldl (fun s j =>
    match (s.ctx k j).wait with
    | some (.chan c _ _ none) => if c = n then wakeWatch s k j else s
    | _ => s) s

/-- The members of a collective without core `k`, channel `n`; a collective whose last member has gone
gives its reduction context back (R347, R348). -/
def leaveColl (s : State) (k n : Nat) : State :=
  let out (c : Coll) : Coll := { c with members := c.members.filter (fun m => !(m.2.1 == k && m.2.2 == n)) }
  let last := s.colls.filter (fun c => !c.members.isEmpty && (out c).members.isEmpty && c.inFabric)
  let s := { s with colls := s.colls.filterMap (fun c =>
    if c.members.isEmpty || !(out c).members.isEmpty then some (out c) else none) }
  last.foldl (fun s c => s.updFn c.fn (fun d => { d with rctxInuse := d.rctxInuse - 1 })) s

/-- A command completes (R202, R203): its channel reports it, its flags are raised (R83), and a status
other than OK breaks the watches of its channel. -/
def State.endCmd (s : State) (k n : Nat) (c : Cmd) (st : Status) (count : Nat) : State :=
  let s := s.updChan k n (fun h => { h with
    queue := h.queue.filter (fun q => q.serial != c.serial), lcount := count, lstat := st, ep := c.prog.ep
    done := h.done + 1 })
  let s := if (s.ctx k c.slot).state == .empty then s else s.engineFlags k c.slot c.inst c.prog.flags
  let s := match c.i with
    | .xcoll .. => leaveColl s k n
    | _ => s
  if st = 0 then s else breakChanWatches s k n

/-- Statuses of R202. -/
def stTrunc : Status := 1
/-- RIGHTS. -/
def stRights : Status := 2
/-- NOMAP. -/
def stNomap : Status := 3
/-- POISON. -/
def stPoison : Status := 4
/-- DESC. -/
def stDesc : Status := 5
/-- ALIGN. -/
def stAlign : Status := 6
/-- PURSE. -/
def stPurse : Status := 7
/-- NOSPACE. -/
def stNospace : Status := 8
/-- KVNAME. -/
def stKvname : Status := 9
/-- KVLEN. -/
def stKvlen : Status := 10
/-- RING. -/
def stRing : Status := 11

/-- The length of the longest prefix of elements that were all applied (R306). -/
def Prog.prefixLen (p : Prog) : Nat := p.deferred.foldl (fun m d => min m d.e) p.e

end Sys2Proof.Machine
end

