-- ==== Sys2Proof/Machine/Vector.lean ====
section
/-!
DEFINITION. The V class: vector arithmetic, conversion, reduction, selection and permutation, predicate
operations, and vector loads and stores (R150 to R172, R16).
-/
namespace Sys2Proof.Machine

/-! ## Shared forms -/

/-- The rounding mode of a form that draws nothing (R80). -/
def State.mode (s : State) (rc : Rc) : Mode := rcMode rc (rmOf s.me.bank.fpflags) 0

/-- A result element by element of one source. -/
def vec1 (i : Instr) (lat : Nat) (g : BitVec 4) (t : Ty) (d : VDst) (a : Sel)
    (f : State → Nat → Nat × Flags) (s : State) : Host.Outcome State Fault Refusal :=
  issueOp i noChk (fun s => s.landV lat g d (mapE1 (s.pred g) t.width (f s) (s.vsrc t a))) s

/-- A result element by element of two sources. -/
def vec2 (i : Instr) (lat : Nat) (g : BitVec 4) (t : Ty) (d : VDst) (a b : Sel)
    (f : State → Nat → Nat → Nat × Flags) (s : State) : Host.Outcome State Fault Refusal :=
  issueOp i noChk (fun s =>
    s.landV lat g d (mapE2 (s.pred g) t.width (f s) (s.vsrc t a) (s.vsrc t b))) s

/-- A result element by element of three sources. -/
def vec3 (i : Instr) (lat : Nat) (g : BitVec 4) (t : Ty) (d : VDst) (a b c : Sel)
    (f : State → Nat → Nat → Nat → Nat × Flags) (s : State) : Host.Outcome State Fault Refusal :=
  issueOp i noChk (fun s => s.landV lat g d
    (mapE3 (s.pred g) t.width (f s) (s.vsrc t a) (s.vsrc t b) (s.vsrc t c))) s

/-- A result of whole vectors, without flags. -/
def vecBits (i : Instr) (lat : Nat) (g : BitVec 4) (d : VDst) (f : State → Vec) (s : State) :
    Host.Outcome State Fault Refusal :=
  issueOp i noChk (fun s => s.landV lat g d (f s, 0)) s

/-- An integer operation: exact, then wrapped, or clamped with `.sat` (R153). -/
def intOp2 (t : Ty) (sat : Bool) (f : Int → Int → Int) (a b : Nat) : Nat × Flags :=
  let x := f (intOf t a) (intOf t b)
  (codeOf t (if sat then clampInt t x else x), 0)

/-! ## Arithmetic (R153 to R156) -/

/-- One element of VADD. -/
def vaddE (t : Ty) (rc : Rc) (sat : Bool) (s : State) (a b : Nat) : Nat × Flags :=
  if t.isInt then intOp2 t sat (· + ·) a b else addC t (s.mode rc) a b
/-- VADD (R153, R154). -/
def execVadd (g : BitVec 4) (t : Ty) (rc : Rc) (sat : Bool) (d : VDst) (a b : Sel) (s : State) :
    Host.Outcome State Fault Refusal :=
  vec2 (.vadd g t rc sat d a b) 2 g t d a b (vaddE t rc sat) s

/-- One element of VSUB. -/
def vsubE (t : Ty) (rc : Rc) (sat : Bool) (s : State) (a b : Nat) : Nat × Flags :=
  if t.isInt then intOp2 t sat (· - ·) a b else addC t (s.mode rc) a (negC t b)
/-- VSUB (R153, R154). -/
def execVsub (g : BitVec 4) (t : Ty) (rc : Rc) (sat : Bool) (d : VDst) (a b : Sel) (s : State) :
    Host.Outcome State Fault Refusal :=
  vec2 (.vsub g t rc sat d a b) 2 g t d a b (vsubE t rc sat) s

/-- One element of VMUL. -/
def vmulE (t : Ty) (rc : Rc) (sat : Bool) (s : State) (a b : Nat) : Nat × Flags :=
  if t.isInt then intOp2 t sat (· * ·) a b else mulC t (s.mode rc) a b
/-- VMUL (R153, R154). -/
def execVmul (g : BitVec 4) (t : Ty) (rc : Rc) (sat : Bool) (d : VDst) (a b : Sel) (s : State) :
    Host.Outcome State Fault Refusal :=
  vec2 (.vmul g t rc sat d a b) 4 g t d a b (vmulE t rc sat) s

/-- VFMA (R154). -/
def execVfma (g : BitVec 4) (t : Ty) (rc : Rc) (np nc : Bool) (d : VDst) (a b c : Sel) (s : State) :
    Host.Outcome State Fault Refusal :=
  vec3 (.vfma g t rc np nc d a b c) 4 g t d a b c (fun s => fmaC t (s.mode rc) np nc) s

/-- One element of VMIN or VMAX (R79, R153). -/
def minMaxE (t : Ty) (isMax : Bool) (a b : Nat) : Nat × Flags :=
  if t.isInt then intOp2 t false (fun x y => if isMax then max x y else min x y) a b else minMaxF t isMax a b
/-- VMIN (R153, R154). -/
def execVmin (g : BitVec 4) (t : Ty) (d : VDst) (a b : Sel) (s : State) : Host.Outcome State Fault Refusal :=
  vec2 (.vmin g t d a b) 2 g t d a b (fun _ => minMaxE t false) s
/-- VMAX (R153, R154). -/
def execVmax (g : BitVec 4) (t : Ty) (d : VDst) (a b : Sel) (s : State) : Host.Outcome State Fault Refusal :=
  vec2 (.vmax g t d a b) 2 g t d a b (fun _ => minMaxE t true) s

/-- One element of VABS (R78, R153, R154). -/
def vabsE (t : Ty) (sat : Bool) (a : Nat) : Nat × Flags :=
  if t.isInt then intOp2 t sat (fun x _ => x.natAbs) a 0
  else
    let x := decodeF t a
    if x.isNaN then (canonNaN t, nvOf [x]) else (if x.neg then negC t a else a, 0)
/-- VABS (R153, R154). -/
def execVabs (g : BitVec 4) (t : Ty) (sat : Bool) (d : VDst) (a : Sel) (s : State) :
    Host.Outcome State Fault Refusal :=
  vec1 (.vabs g t sat d a) 2 g t d a (fun _ => vabsE t sat) s

/-- VAND (R155). -/
def execVand (g : BitVec 4) (t : Ty) (d : VDst) (a b : Sel) (s : State) : Host.Outcome State Fault Refusal :=
  vecBits (.vand g t d a b) 2 g d (fun s => s.vsrc t a &&& s.vsrc t b) s
/-- VOR (R155). -/
def execVor (g : BitVec 4) (t : Ty) (d : VDst) (a b : Sel) (s : State) : Host.Outcome State Fault Refusal :=
  vecBits (.vor g t d a b) 2 g d (fun s => s.vsrc t a ||| s.vsrc t b) s
/-- VXOR (R155). -/
def execVxor (g : BitVec 4) (t : Ty) (d : VDst) (a b : Sel) (s : State) : Host.Outcome State Fault Refusal :=
  vecBits (.vxor g t d a b) 2 g d (fun s => s.vsrc t a ^^^ s.vsrc t b) s

/-- One element of VSHL: zeros come in, and a count of w or more gives 0 (R155). -/
def vshlE (t : Ty) (a n : Nat) : Nat × Flags := (if t.width ≤ n then 0 else a * 2 ^ n % 2 ^ t.width, 0)
/-- VSHL (R155). -/
def execVshl (g : BitVec 4) (t : Ty) (d : VDst) (a b : Sel) (s : State) : Host.Outcome State Fault Refusal :=
  vec2 (.vshl g t d a b) 2 g t d a b (fun _ => vshlE t) s

/-- One element of VSHR: logical on n types, arithmetic on i types (R155). -/
def vshrE (t : Ty) (a n : Nat) : Nat × Flags := (codeOf t (intOf t a / 2 ^ min n t.width), 0)
/-- VSHR (R155). -/
def execVshr (g : BitVec 4) (t : Ty) (d : VDst) (a b : Sel) (s : State) : Host.Outcome State Fault Refusal :=
  vec2 (.vshr g t d a b) 2 g t d a b (fun _ => vshrE t) s

/-- The result type of VDOT4 (R156). -/
def dotType (t : Ty) : Ty := if t = .i8 then .i32 else if t = .n8 then .n32 else .f32

/-- Consecutive groups of four. -/
def fours : List Nat → List (List Nat)
  | a :: b :: c :: d :: r => [a, b, c, d] :: fours r
  | _ => []

/-- One output of VDOT4: the exact dot product of four elements added to `c`, rounded once (R156). -/
def dotE (t : Ty) (md : Mode) (c : Nat) (a b : List Nat) : Nat × Flags :=
  if t.isInt then
    let k := (List.zipWith (fun x y => intOf t x * intOf t y) a b).foldl (· + ·) (intOf (dotType t) c)
    (codeOf (dotType t) k, 0)
  else
    let x := decodeF .f32 c
    let ps := List.zipWith (fun u v => mulF (decodeF t u) (decodeF t v)) a b
    let (v, f) := sumF (x :: ps.map (·.1)) md
    if v.isNaN then (canonNaN .f32, fNV)
    else
      let (r, h) := roundF .f32 md false v
      (r, f ||| h)

/-- VDOT4 (R156). -/
def execVdot4 (g : BitVec 4) (t : Ty) (rc : Rc) (d : VDst) (a b c : Sel) (s : State) :
    Host.Outcome State Fault Refusal :=
  issueOp (.vdot4 g t rc d a b c) noChk (fun s =>
    let md := s.mode rc
    let xs := fours (elems t.width (s.vsrc t a))
    let ys := fours (elems t.width (s.vsrc t b))
    let cs := elems 32 (s.vsrc (dotType t) c)
    s.landV 4 g d (gather (s.pred g) 32 32
      (List.zipWith (fun z (p : List Nat × List Nat) => dotE t md z p.1 p.2) cs (xs.zip ys)))) s

/-- VMULH (R153). -/
def execVmulh (g : BitVec 4) (t : Ty) (d : VDst) (a b : Sel) (s : State) : Host.Outcome State Fault Refusal :=
  vec2 (.vmulh g t d a b) 4 g t d a b (fun _ => intOp2 t false (fun x y => x * y / 2 ^ t.width)) s

/-- One element of VCLAMP (R153, R154). -/
def vclampE (t : Ty) (a b c : Nat) : Nat × Flags :=
  let x := minMaxE t true a b
  let y := minMaxE t false x.1 c
  (y.1, x.2 ||| y.2)
/-- VCLAMP (R153, R154). -/
def execVclamp (g : BitVec 4) (t : Ty) (d : VDst) (a b c : Sel) (s : State) :
    Host.Outcome State Fault Refusal :=
  vec3 (.vclamp g t d a b c) 2 g t d a b c (fun _ => vclampE t) s

/-! ## Compare, select and move (R157, R158) -/

/-- The condition of VCMP on two elements, with NV for a signalling NaN (R157). -/
def vcmpE (t : Ty) (c : Cond) (a b : Nat) : Bool × Flags :=
  if t.isInt then
    let x := intOf t a
    let y := intOf t b
    (match c with
      | .eq => a == b
      | .ne => a != b
      | .lt => x < y
      | .le => x ≤ y
      | .ltn => a < b
      | .len => a ≤ b, 0)
  else
    let x := decodeF t a
    let y := decodeF t b
    let un := x.isNaN || y.isNaN
    (match c with
      | .eq => !un && cmpF x y == .eq
      | .ne => un || cmpF x y != .eq
      | .lt => !un && cmpF x y == .lt
      | .le => !un && cmpF x y != .gt
      | .ltn => un || cmpF x y == .lt
      | .len => un || cmpF x y != .gt, nvOf [x, y])

/-- VCMP (R157). -/
def execVcmp (g : BitVec 4) (t : Ty) (c : Cond) (p : BitVec 3) (a b : Sel) (s : State) :
    Host.Outcome State Fault Refusal :=
  issueOp (.vcmp g t c p a b) noChk (fun s =>
    let m := s.pred g
    let l := List.zipWith (vcmpE t c) (elems t.width (s.vsrc t a)) (elems t.width (s.vsrc t b))
    let v := predOfElems t.width (l.map (·.1))
    let f := activeFlags m t.width 0 (l.map (fun x => (0, x.2)))
    let q := s.pair p
    s.land 2 ([.p q.1 v m, .p q.2 (~~~v) m] ++ (if f = 0 then [] else [.flags (BitVec.ofNat 64 f)]))) s

/-- VSEL (R158). -/
def execVsel (g : BitVec 4) (t : Ty) (d : VDst) (c : BitVec 4) (a b : Sel) (s : State) :
    Host.Outcome State Fault Refusal :=
  vecBits (.vsel g t d c a b) 2 g d (fun s => mergeV (s.vsrc t b) (s.vsrc t a) (s.pred c)) s
/-- VMOV (R158). -/
def execVmov (g : BitVec 4) (t : Ty) (d : VDst) (a : Sel) (s : State) : Host.Outcome State Fault Refusal :=
  vecBits (.vmov g t d a) 2 g d (fun s => s.vsrc t a) s
/-- VIDX (R158). -/
def execVidx (g : BitVec 4) (t : Ty) (d : VDst) (s : State) : Host.Outcome State Fault Refusal :=
  vecBits (.vidx g t d) 2 g d (fun _ => ofElems t.width (List.range (1024 / t.width))) s

/-! ## Conversions (R159 to R161) -/

/-- Convert elements of type `u`, with the draws of a stochastic rounding (R82, R159); between a type and itself
the bits are stored as they are (R78, R186). -/
def convAll (t u : Ty) (rc : Rc) (rm : Nat) (ns : Bool) (draws : List (BitVec 16)) (l : List Nat) :
    List (Nat × Flags) :=
  if t = u then l.map (fun a => (a, 0))
  else l.zipIdx.map (fun x => convert t u (rcMode rc rm (drawAt draws x.2)) ns x.1)

/-- The elements VCVT converts (R159). -/
def cvtCount (t u : Ty) : Nat := 1024 / max t.width u.width

/-- VCVT (R159). -/
def execVcvt (g : BitVec 4) (t u : Ty) (rc : Rc) (ns : Bool) (d : VDst) (a : Sel) (s : State) :
    Host.Outcome State Fault Refusal :=
  issueOp (.vcvt g t u rc ns d a) noChk (fun s =>
    let n := cvtCount t u
    let l := (elems u.width (s.vsrc u a)).take n
    let rm := rmOf s.me.bank.fpflags
    let (s', dr) := s.draws rc n
    s'.landV 3 g d (gather (s.pred g) t.width u.width (convAll t u rc rm ns dr l))) s

/-- One element of VRND (R160). -/
def vrndE (t : Ty) (md : Mode) (a : Nat) : Nat × Flags :=
  let x := decodeF t a
  match x with
  | .nan _ => (canonNaN t, nvOf [x])
  | .inf _ => (a, 0)
  | .fin n .. =>
      let (k, diff) := toIntegral md x
      ((roundF t .rtz false (.fin n k.natAbs 0)).1, if diff then fNX else 0)
/-- VRND (R160). -/
def execVrnd (g : BitVec 4) (t : Ty) (rc : Rc) (d : VDst) (a : Sel) (s : State) :
    Host.Outcome State Fault Refusal :=
  vec1 (.vrnd g t rc d a) 3 g t d a (fun s => vrndE t (s.mode rc)) s

/-- The class mask of one element (R160). -/
def vclassE (t : Ty) (a : Nat) : Nat × Flags :=
  let f := fmtOf t
  let man := a % 2 ^ f.m
  let ex := a / 2 ^ f.m % 2 ^ f.eb
  let neg := a / 2 ^ (f.m + f.eb) % 2 == 1
  let top := 2 ^ f.eb - 1
  let bit : Nat :=
    if ex = top ∧ man ≠ 0 then (if man < 2 ^ (f.m - 1) then 8 else 9)
    else if ex = top then (if neg then 0 else 7)
    else if ex = 0 ∧ man = 0 then (if neg then 3 else 4)
    else if ex = 0 then (if neg then 2 else 5)
    else (if neg then 1 else 6)
  (2 ^ bit, 0)
/-- VCLASS (R160). -/
def execVclass (g : BitVec 4) (t : Ty) (d : VDst) (a : Sel) (s : State) : Host.Outcome State Fault Refusal :=
  vec1 (.vclass g t d a) 2 g t d a (fun _ => vclassE t) s

/-- The integer type of twice the width (R161). -/
def widerTy : Ty → Ty
  | .i8 => .i16
  | .i16 => .i32
  | .n8 => .n16
  | .n16 => .n32
  | .n32 => .n64
  | _ => .i64
/-- The integer type of half the width (R161). -/
def narrowerTy : Ty → Ty
  | .i64 => .i32
  | .i32 => .i16
  | .n64 => .n32
  | .n32 => .n16
  | .n16 => .n8
  | _ => .i8

/-- VPACK (R161). -/
def execVpack (g : BitVec 4) (t : Ty) (sat : Bool) (d : VDst) (a b : Sel) (s : State) :
    Host.Outcome State Fault Refusal :=
  vecBits (.vpack g t sat d a b) 3 g d (fun s =>
    let u := widerTy t
    let l := elems u.width (s.vsrc u a) ++ elems u.width (s.vsrc u b)
    ofElems t.width (l.map (fun x => if sat then codeOf t (clampInt t (intOf u x)) else x % 2 ^ t.width))) s

/-- VUNPACK (R161). -/
def execVunpack (g : BitVec 4) (t : Ty) (hi : Bool) (d : VDst) (a : Sel) (s : State) :
    Host.Outcome State Fault Refusal :=
  vecBits (.vunpack g t hi d a) 3 g d (fun s =>
    let u := narrowerTy t
    let n := 1024 / t.width
    let l := ((elems u.width (s.vsrc u a)).drop (if hi then n else 0)).take n
    ofElems t.width (l.map (fun x => codeOf t (intOf u x)))) s

/-! ## Block scales (R16, R162) -/

/-- The maximum magnitude of a block's active elements (R162). -/
def blkMax (t : Ty) (l : List Nat) : Nat × Flags :=
  let xs := l.map (decodeF t)
  if xs.any FV.isNaN then (canonNaN t, nvOf xs)
  else (l.foldl (fun m c => (minMaxF t true m (vabsE t false c).1).1) 0, 0)

/-- VBLKMAX (R162). -/
def execVblkmax (g : BitVec 4) (t : Ty) (d : VDst) (a : Sel) (s : State) : Host.Outcome State Fault Refusal :=
  issueOp (.vblkmax g t d a) noChk (fun s =>
    let m := s.pred g
    let l := (elems t.width (s.vsrc t a)).zipIdx
    let r := (chunk 8 128 l).map (fun b => blkMax t ((b.filter (fun x => active m t.width x.2)).map (·.1)))
    let v := ofElems t.width (r.flatMap (fun x => List.replicate 8 x.1))
    s.landV 2 g d (v, r.foldl (fun f x => f ||| x.2) 0)) s

/-- The smallest e3m5 code whose value is at least a / b for finite a and finite positive b (R16). -/
def e3m5AtLeast (a b : FV) : Option Nat :=
  (List.range 256).find? (fun c => cmpF (mulF (decodeF .e3m5 c) b).1 a != .lt)

/-- The code of one block of VSCALE (R16, R162). -/
def scaleE (u : Ty) (a b : Nat) : Nat × Flags :=
  let x := decodeF u a
  let y := decodeF u b
  if x.isNaN || y.isNaN || y.isZero || y.neg || (x.isInf && y.isInf) then (0xFF, fNV)
  else if y.isInf then (0, 0)
  else if x.isInf then (0xFF, fOF)
  else match e3m5AtLeast x y with
    | some c => (c, 0)
    | none => (0xFF, fOF)

/-- Every eighth element. -/
def eighths (l : List Nat) : List Nat := (l.zipIdx.filter (fun x => x.2 % 8 == 0)).map (·.1)

/-- VSCALE (R16, R162). -/
def execVscale (g : BitVec 4) (u : Ty) (d : VDst) (a b : Sel) (s : State) : Host.Outcome State Fault Refusal :=
  issueOp (.vscale g u d a b) noChk (fun s =>
    s.landV 3 g d (gather (s.pred g) 8 (8 * u.width)
      (List.zipWith (scaleE u) (eighths (elems u.width (s.vsrc u a))) (eighths (elems u.width (s.vsrc u b)))))) s

/-- One element of VQUANT: the exact quotient by its block's scale, converted once (R16, R162). -/
def quantE (t u : Ty) (md : Mode) (ns : Bool) (scale a : Nat) : Nat × Flags :=
  if scale = 0 then (0, 0)
  else match decodeF u a, decodeF .e3m5 scale with
    | .nan q, _ => (canonNaN t, if q || t == .e2m1 then fNV else 0)
    | .fin n m e, .fin _ k x => roundQ t md ns n m k (e - x)
    | v, _ => roundF t md ns v

/-- VQUANT (R16, R162). -/
def execVquant (g : BitVec 4) (t u : Ty) (rc : Rc) (ns : Bool) (d : VDst) (a b : Sel) (s : State) :
    Host.Outcome State Fault Refusal :=
  issueOp (.vquant g t u rc ns d a b) noChk (fun s =>
    let n := 1024 / u.width
    let sc := s.vsrc .n8 b
    let rm := rmOf s.me.bank.fpflags
    let (s', dr) := s.draws rc n
    s'.landV 4 g d (gather (s.pred g) t.width u.width
      ((elems u.width (s.vsrc u a)).zipIdx.map (fun x =>
        quantE t u (rcMode rc rm (drawAt dr x.2)) ns (elem 8 (x.2 / 8) sc) x.1)))) s

/-! ## Seeds and elementary functions (R163, R164) -/

/-- VRSQE (R84, R85, R163). -/
def execVrsqe (g : BitVec 4) (d : VDst) (a : Sel) (s : State) : Host.Outcome State Fault Refusal :=
  vec1 (.vrsqe g d a) 3 g .f32 d a (fun _ => seed true) s
/-- VRCPE (R84, R85, R163). -/
def execVrcpe (g : BitVec 4) (d : VDst) (a : Sel) (s : State) : Host.Outcome State Fault Refusal :=
  vec1 (.vrcpe g d a) 3 g .f32 d a (fun _ => seed false) s
/-- VEXP2 (R164). -/
def execVexp2 (g : BitVec 4) (rc : Rc) (d : VDst) (a : Sel) (s : State) : Host.Outcome State Fault Refusal :=
  vec1 (.vexp2 g rc d a) 6 g .f32 d a (fun s => exp2C (s.mode rc)) s
/-- VLOG2 (R164). -/
def execVlog2 (g : BitVec 4) (rc : Rc) (d : VDst) (a : Sel) (s : State) : Host.Outcome State Fault Refusal :=
  vec1 (.vlog2 g rc d a) 6 g .f32 d a (fun s => log2C (s.mode rc)) s

/-! ## Reductions (R86, R165) and top-k (R166) -/

/-- The result type of VREDSUM (R165). -/
def sumType (t : Ty) (w : Bool) : Ty :=
  if !w then t else if !t.isInt then .f32 else if t.isSigned then .i64 else .n64

/-- An element as it enters the sum: extended or converted exactly (R165). -/
def sumIn (t r : Ty) (a : Nat) : Nat × Flags :=
  if t = r then (a, 0)
  else if t.isInt then (codeOf r (intOf t a), 0)
  else convert r t .rne false a

/-- The identity of a sum (R86). -/
def sumId (r : Ty) : Nat := if r.isInt then 0 else signBit r true

/-- The sum of a vector's active elements in the tree of R86 (R165). -/
def redSum (t : Ty) (w : Bool) (md : Mode) (g : Pred) (a : Vec) : Nat × Flags :=
  let r := sumType t w
  let l := (elems t.width a).zipIdx.map (fun x =>
    if active g t.width x.2 then sumIn t r x.1 else (sumId r, 0))
  let f := l.foldl (fun f x => f ||| x.2) 0
  let op := if r.isInt then intOp2 r false (· + ·) else addC r md
  let z := treeReduce op (Nat.log2 (1024 / t.width)) (l.map (·.1))
  (z.1, f ||| z.2)

/-- VREDSUM (R165). -/
def execVredsum (g : BitVec 4) (t : Ty) (rc : Rc) (w : Bool) (d : VDst) (a : Sel) (s : State) :
    Host.Outcome State Fault Refusal :=
  issueOp (.vredsum g t rc w d a) noChk (fun s =>
    let r := redSum t w (s.mode rc) (s.pred g) (s.vsrc t a)
    s.landV 8 g d (ofElems (sumType t w).width [r.1], r.2)) s

/-- The identity of a maximum (R86). -/
def maxId (t : Ty) : Nat := if t.isInt then codeOf t (intRange t).1 else infCode t true

/-- The maximum of a vector's active elements in the tree of R86 (R165). -/
def redMax (t : Ty) (g : Pred) (a : Vec) : Nat × Flags :=
  let l := (elems t.width a).zipIdx.map (fun x => if active g t.width x.2 then x.1 else maxId t)
  treeReduce (minMaxE t true) (Nat.log2 (1024 / t.width)) l

/-- VREDMAX (R165). -/
def execVredmax (g : BitVec 4) (t : Ty) (d : VDst) (a : Sel) (s : State) : Host.Outcome State Fault Refusal :=
  issueOp (.vredmax g t d a) noChk (fun s =>
    let r := redMax t (s.pred g) (s.vsrc t a)
    s.landV 6 g d (ofElems t.width [r.1], r.2)) s

/-- A candidate of VTOPK: value code, index, and 0 for an old entry, 1 for a new one. -/
abbrev Cand := Nat × Nat × Nat

/-- Less in the rank of VTOPK, where every NaN ranks equal and below -inf (R166). -/
def rankLt (t : Ty) (a b : Nat) : Bool :=
  let x := decodeF t a
  let y := decodeF t b
  if y.isNaN then false else if x.isNaN then true else cmpF x y == .lt

/-- The order of VTOPK (R166). -/
def before (t : Ty) (p q : Cand) : Bool :=
  rankLt t q.1 p.1 || (!rankLt t p.1 q.1 && (p.2.1 < q.2.1 || (p.2.1 == q.2.1 && p.2.2 < q.2.2)))

/-- Insert a candidate behind those that come before it; of two that neither comes before the other the order stays
(log 108, DESIGN CHOICE). -/
def insertCand (t : Ty) (c : Cand) : List Cand → List Cand
  | [] => [c]
  | x :: r => if before t c x then c :: x :: r else x :: insertCand t c r

/-- The list VTOPK leaves: values and indexes (R166). -/
def topk (t : Ty) (k : Nat) (init : Bool) (oldV oldX a b : Vec) (m : Pred) : Vec × Vec :=
  let w := t.width
  let n := 1024 / w
  let ones := 2 ^ w - 1
  let old : List Cand := if init then [] else
    (((elems w oldV).zip (elems w oldX)).take k).filterMap (fun x =>
      if x.2 = ones then none else some (x.1, x.2, 0))
  let new : List Cand := ((elems w a).zip (elems w b)).zipIdx.filterMap (fun x =>
    if active m w x.2 && x.1.2 != ones then some (x.1.1, x.1.2, 1) else none)
  let l := ((old ++ new).foldl (fun acc c => insertCand t c acc) []).take k
  let pad := n - l.length
  (ofElems w (l.map (·.1) ++ List.replicate pad (infCode t true))
  , ofElems w (l.map (·.2.1) ++ List.replicate pad ones))

/-- VTOPK (R166): only the value register enters the latches. -/
def execVtopk (g : BitVec 4) (t : Ty) (k : BitVec 7) (init : Bool) (d : BitVec 6) (c : BitVec 4) (a b : Sel)
    (s : State) : Host.Outcome State Fault Refusal :=
  issueOp (.vtopk g t k init d c a b) noChk (fun s =>
    let bk := s.me.bank
    let x := d + 1
    let idx : Ty := if t = .f32 then .n32 else .n16
    let r := topk t k.toNat init (bk.getV d.toNat) (bk.getV x.toNat) (s.vsrc t a) (s.vsrc idx b) (s.pred c)
    s.land 12 (s.vlands g ⟨false, d⟩ r.1 0 ++ [.v (vphys bk.rbase x.toNat) r.2 (s.pred g)])) s

/-! ## Permutations (R167) -/

/-- VPERM (R167). -/
def execVperm (g : BitVec 4) (t : Ty) (d : VDst) (a b : Sel) (s : State) : Host.Outcome State Fault Refusal :=
  vecBits (.vperm g t d a b) 3 g d (fun s =>
    let l := elems t.width (s.vsrc t a)
    let sel : Ty := if t.width = 8 then .n8 else if t.width = 16 then .n16 else if t.width = 32 then .n32 else .n64
    ofElems t.width ((elems t.width (s.vsrc sel b)).map (fun j => (l[j]?).getD 0))) s

/-- VROT (R167). -/
def execVrot (g : BitVec 4) (t : Ty) (d : VDst) (a b : Sel) (s : State) : Host.Outcome State Fault Refusal :=
  vecBits (.vrot g t d a b) 3 g d (fun s =>
    let n := 1024 / t.width
    let l := elems t.width (s.vsrc t a)
    let sel : Ty := if t.width = 8 then .n8 else if t.width = 16 then .n16 else if t.width = 32 then .n32 else .n64
    let r := elem t.width 0 (s.vsrc sel b) % n
    ofElems t.width (l.drop r ++ l.take r)) s

/-! ## Predicate operations (R168, R169) -/

/-- A predicate source, complemented or not. -/
def State.predSrc (s : State) (p : BitVec 4) (n : Bool) : Pred := if n then ~~~s.pred p else s.pred p

/-- A predicate result of two predicates (R168). -/
def pred2 (i : Instr) (g d : BitVec 4) (f : State → Pred) (s : State) : Host.Outcome State Fault Refusal :=
  issueOp i noChk (fun s => s.land 1 [.p (pphys s.me.bank.rbase d.toNat) (f s) (s.pred g)]) s

/-- PAND (R168). -/
def execPand (g : BitVec 4) (na nb : Bool) (d a b : BitVec 4) (s : State) : Host.Outcome State Fault Refusal :=
  pred2 (.pand g na nb d a b) g d (fun s => s.predSrc a na &&& s.predSrc b nb) s
/-- POR (R168). -/
def execPor (g : BitVec 4) (na nb : Bool) (d a b : BitVec 4) (s : State) : Host.Outcome State Fault Refusal :=
  pred2 (.por g na nb d a b) g d (fun s => s.predSrc a na ||| s.predSrc b nb) s
/-- PXOR (R168). -/
def execPxor (g : BitVec 4) (na nb : Bool) (d a b : BitVec 4) (s : State) : Host.Outcome State Fault Refusal :=
  pred2 (.pxor g na nb d a b) g d (fun s => s.predSrc a na ^^^ s.predSrc b nb) s

/-- Elements of width `w` whose lowest-byte bit is set (R169). -/
def countElems (w : Nat) (p : Pred) : Nat := ((List.range (1024 / w)).filter (active p w)).length

/-- PCNT (R169). -/
def execPcnt (g : BitVec 4) (t : Ty) (d : BitVec 6) (a : BitVec 4) (s : State) :
    Host.Outcome State Fault Refusal :=
  issueOp (.pcnt g t d a) noChk (fun s =>
    let mask : Word := (spread (s.pred g)).extractLsb' 0 64
    s.land 3 [.s d.toNat (BitVec.ofNat 64 (countElems t.width (s.pred a))) mask]) s

/-! ## Loads and stores (R170 to R172) -/

/-- The guarded runs of a VLD or a VST, as (address, offset, length) (R170). -/
def State.vruns (s : State) (g : BitVec 4) (base : BitVec 6) (off : Off) : List (Nat × Nat × Nat) :=
  let a := s.ea base (offVal off)
  (runs (s.pred g)).map (fun r => ((a + BitVec.ofNat 64 r.1).toNat, r.1, r.2))

/-- What stands against the runs. -/
def runsChk (s : State) (write : Bool) (l : List (Nat × Nat × Nat)) : Chk :=
  rngsChk s (l.map (fun r => { p := .bundle, write := write, a := r.1, n := r.2.2 }))

/-- Read several runs of the issuing context into a vector: the state, the vector, the units its data
waits for, the poisoned unit, the poisoned bytes, and the landing minimum (R112). -/
def loadRuns (s : State) (l : List (Nat × Nat × Nat)) : State × Vec × List Ticket × Option Nat × Pred × Nat :=
  let k := s.issue.core
  let w := s.who k s.issue.ctx
  l.foldl (fun acc r =>
    let least := rangeMin acc.1 k w .bundle r.1 r.2.2
    let (t, bs, late, po, bad) := loadVa acc.1 k s.issue.ctx w .bundle r.1 r.2.2
    (t, acc.2.1 ||| (BitVec.ofNat 1024 (ofBytes bs) <<< (8 * r.2.1)), acc.2.2.1 ++ late
      , acc.2.2.2.1 <|> po, acc.2.2.2.2.1 ||| (BitVec.ofNat 128 bad <<< r.2.1), max acc.2.2.2.2.2 least))
    (s, 0, [], none, 0, 6)

/-- Put a vector load in flight: bytes of a poisoned unit land as a free value, every other byte as memory holds it
(R122, R170). -/
def State.flyVec (s : State) (acq : Bool) (l : List (Nat × Nat × Nat)) (arr : BitVec 12) (extra : Nat) (d : BitVec 6)
    (mask : Pred) : State :=
  let p := vphys s.me.bank.rbase d.toNat
  let (t, v, late, po, bad, least) := loadRuns s l
  t.flyLoad arr.toNat (least + extra) late po (fun f =>
    .v p (if po.isSome then mergeV v (ofElems 64 (List.replicate 16 f.toNat)) bad else v) mask :: acquireLand acq)

/-- What stands against VLD. -/
def vldChk (g : BitVec 4) (base : BitVec 6) (off : Off) (s : State) : Chk :=
  (loadChk s).and (runsChk s false (s.vruns g base off))

/-- VLD (R170), also an acquire at its landing with `acq` (R245, R249). -/
def execVld (g : BitVec 4) (acq : Bool) (d base : BitVec 6) (arr : BitVec 12) (off : Off) (s : State) :
    Host.Outcome State Fault Refusal :=
  issueOp (.vld g acq d base arr off) (vldChk g base off)
    (fun s => s.flyVec acq (s.vruns g base off) arr 0 d (s.pred g)) s

/-- The active elements of VLDX or VSTX, as (element, address) (R171). -/
def State.vxElems (s : State) (g : BitVec 4) (t : Ty) (base xv : BitVec 6) (off : OffX) : List (Nat × Nat) :=
  let a := s.ea base (offXVal off)
  let x := s.me.bank.getV xv.toNat
  let b := t.width / 8
  (List.range (1024 / t.width)).filterMap (fun e =>
    if active (s.pred g) t.width e then
      some (e, (a + BitVec.ofInt 64 ((BitVec.ofNat 32 (elem 32 e x)).toInt * b)).toNat)
    else none)

/-- The runs of the active elements. -/
def elemRuns (t : Ty) (l : List (Nat × Nat)) : List (Nat × Nat × Nat) :=
  l.map (fun x => (x.2, x.1 * (t.width / 8), t.width / 8))

/-- The bytes of the active elements. -/
def elemMask (t : Ty) (l : List (Nat × Nat)) : Pred :=
  l.foldl (fun m x => m ||| (BitVec.ofNat 128 (2 ^ (t.width / 8) - 1) <<< (x.1 * (t.width / 8)))) 0

/-- What stands against VLDX. -/
def vldxChk (g : BitVec 4) (t : Ty) (base xv : BitVec 6) (off : OffX) (s : State) : Chk :=
  (loadChk s).and (runsChk s false (elemRuns t (s.vxElems g t base xv off)))

/-- VLDX (R171). The bytes of an inactive element keep their old values, those whose own guard bits are set among them
(log 109, DESIGN CHOICE). -/
def execVldx (g : BitVec 4) (t : Ty) (d base : BitVec 6) (arr : BitVec 12) (xv : BitVec 6) (off : OffX)
    (s : State) : Host.Outcome State Fault Refusal :=
  issueOp (.vldx g t d base arr xv off) (vldxChk g t base xv off)
    (fun s =>
      let l := s.vxElems g t base xv off
      s.flyVec false (elemRuns t l) arr 2 d (s.pred g &&& elemMask t l)) s

/-- Store the bytes of a vector that lie in each run, in order. -/
def storeRuns (s : State) (rel : Bool) (v : Vec) (l : List (Nat × Nat × Nat)) : State :=
  let bs := vecBytes v
  let k := s.issue.core
  l.foldl (fun s r => storeVa s k s.issue.ctx (s.who k s.issue.ctx) .bundle rel r.1 ((bs.drop r.2.1).take r.2.2)) s

/-- What stands against VST. -/
def vstChk (g : BitVec 4) (base : BitVec 6) (off : Off) (s : State) : Chk := runsChk s true (s.vruns g base off)

/-- What stands against VSTX. -/
def vstxChk (g : BitVec 4) (t : Ty) (base xv : BitVec 6) (off : OffX) (s : State) : Chk :=
  runsChk s true (elemRuns t (s.vxElems g t base xv off))

/-- VST (R170), a release with `rel` (R189, R245). -/
def execVst (g : BitVec 4) (rel : Bool) (d : Sel) (base : BitVec 6) (off : Off) (s : State) :
    Host.Outcome State Fault Refusal :=
  issueOp (.vst g rel d base off) (vstChk g base off)
    (fun s => storeRuns s rel (s.vdata d) (s.vruns g base off)) s

/-- The guarded runs of the active elements of VSTX, element by element (R171). -/
def guardedRuns (g : Pred) (t : Ty) (l : List (Nat × Nat)) : List (Nat × Nat × Nat) :=
  let b := t.width / 8
  l.flatMap (fun x =>
    (runsFrom ((g >>> (x.1 * b)) &&& BitVec.ofNat 128 (2 ^ b - 1)) b 0).map (fun r =>
      ((x.2 + r.1) % 2 ^ 64, x.1 * b + r.1, r.2)))

/-- VSTX (R171): where elements overlap, the later one stands. -/
def execVstx (g : BitVec 4) (t : Ty) (d : Sel) (base : BitVec 6) (xv : BitVec 6) (off : OffX) (s : State) :
    Host.Outcome State Fault Refusal :=
  issueOp (.vstx g t d base xv off) (vstxChk g t base xv off)
    (fun s => storeRuns s false (s.vdata d) (guardedRuns (s.pred g) t (s.vxElems g t base xv off))) s

end Sys2Proof.Machine
end

