-- ==== Sys2Proof/Machine/Tile.lean ====
section
/-!
DEFINITION. The T class at issue (R190 to R196): staging a queued operation, the timed forms, and TWAIT;
and what each queued form computes on tile rows, for its start on the engine.
-/
namespace Sys2Proof.Machine

/-! ## Rows -/

/-- The 32 rows of a tile. -/
def Bank.rows (b : Bank) (t : Nat) : List Vec := (List.range 32).map (b.row t)

/-- Element `r` of a vector of f32 (R195). -/
def lane (v : Vec) (r : Nat) : Nat := elem 32 r v

/-- Rows written to a tile. -/
def rowWrites (t : Nat) (l : List Vec) : List QWrite := l.zipIdx.map (fun x => .tileRow t x.2 x.1 (BitVec.allOnes 128))

/-- Transpose each 32 x 32 block of elements of width `w` (R192). -/
def transpose (w : Nat) (rows : List Vec) : List Vec :=
  let es := rows.map (elems w)
  (List.range 32).map (fun r =>
    ofElems w ((List.range (1024 / w)).map (fun x =>
      ((es[x % 32]?).bind (fun l => l[x / 32 * 32 + r]?)).getD 0)))

/-- Whether TMASK masks an element (R193). -/
def masked (mode : Nat) (qpos kpos w : Int) : Bool :=
  match mode with
  | 0 => kpos > qpos
  | 1 => kpos > qpos || kpos ≤ qpos - w
  | _ => (kpos - qpos).natAbs ≥ w

/-- A row after TMASK (R193). -/
def maskRow (t : Ty) (mode : Nat) (q0 k0 w : Int) (r : Nat) (v : Vec) : Vec :=
  ofElems t.width ((elems t.width v).zipIdx.map (fun x =>
    if masked mode (q0 + r) (k0 + x.2) w then infCode t true else x.1))

/-- One element of TEXP: 2^(x - m), rounded once (R195). -/
def texpE (t : Ty) (md : Mode) (m x : Nat) : Nat × Flags :=
  let a := decodeF t x
  let b := decodeF .f32 m
  if a == .inf true && !b.isNaN then (0, 0)
  else if a.isNaN || b.isNaN then (canonNaN t, nvOf [a, b])
  else match a, b with
    | .inf _, .inf n => if n then (infCode t false, 0) else (canonNaN t, fNV)
    | .inf _, _ => (infCode t false, 0)
    | _, .inf n => (if n then infCode t false else 0, 0)
    | _, _ => pow2F t md (sumF [a, b.negate] .rne).1

/-- One element of TRSCL: x * m, rounded once (R195). -/
def trsclE (t : Ty) (md : Mode) (m x : Nat) : Nat × Flags :=
  let a := decodeF t x
  let b := decodeF .f32 m
  let (v, f) := mulF a b
  let (c, g) := roundF t md false v
  (c, nvOf [a, b] ||| f ||| g)

/-- Every element of a row through a function, with the flags. -/
def rowMap (t : Ty) (f : Nat → Nat × Flags) (v : Vec) : Vec × Flags :=
  let l := (elems t.width v).map f
  (ofElems t.width (l.map (·.1)), l.foldl (fun a x => a ||| x.2) 0)

/-- Several rows through functions of the row number. -/
def rowsMap (f : Nat → Vec → Vec × Flags) (l : List Vec) : List Vec × Flags :=
  let r := l.zipIdx.map (fun x => f x.2 x.1)
  (r.map (·.1), r.foldl (fun a x => a ||| x.2) 0)

/-- One row of TCVT: VCVT of the row (R159, R195). -/
def tcvtRow (t u : Ty) (rc : Rc) (rm : Nat) (ns : Bool) (draws : List (BitVec 16)) (r : Nat) (v : Vec) :
    Vec × Flags :=
  let n := cvtCount t u
  let l := convAll t u rc rm ns (draws.drop (r * n)) ((elems u.width v).take n)
  (ofElems t.width (l.map (·.1)), l.foldl (fun a x => a ||| x.2) 0)

/-- A row reduced to f32 (R194). -/
def rowReduce (t : Ty) (op : Nat → Nat → Nat × Flags) (v : Vec) : Nat × Flags :=
  let l := (elems t.width v).map (sumIn t .f32)
  let z := treeReduce op (Nat.log2 (1024 / t.width)) (l.map (·.1))
  (z.1, l.foldl (fun a x => a ||| x.2) 0 ||| z.2)

/-- TRMAX or TRSUM of a tile: one f32 for each row (R194). -/
def tileReduce (t : Ty) (op : Nat → Nat → Nat × Flags) (rows : List Vec) : Vec × Flags :=
  let l := rows.map (rowReduce t op)
  (ofElems 32 (l.map (·.1)), l.foldl (fun a x => a ||| x.2) 0)

/-! ## Issue -/

/-- What stands against TLD and TST: a full queue, and the rights of every row (R191). -/
def tmemChk (i : Instr) (a : BitVec 6) (b : Sel) (s : State) : Chk :=
  (rngsChk s (qRanges i (s.ea a 0) (s.src b) none)).and (queueChk s)

/-- TLD (R191). -/
def execTld (g : BitVec 4) (d : BitVec 3) (a : BitVec 6) (b : Sel) (s : State) :
    Host.Outcome State Fault Refusal :=
  issueOp (.tld g d a b) (tmemChk (.tld g d a b) a b)
    (fun s => s.stage { id := 0, i := .tld g d a b, a := s.ea a 0, b := s.src b, dsts := [tileTag d.toNat] }) s

/-- TST (R191): it clears the tag of its source (R189). -/
def execTst (g : BitVec 4) (d : BitVec 3) (a : BitVec 6) (b : Sel) (s : State) :
    Host.Outcome State Fault Refusal :=
  issueOp (.tst g d a b) (tmemChk (.tst g d a b) a b)
    (fun s => s.stage { id := 0, i := .tst g d a b, a := s.ea a 0, b := s.src b
                        dsts := [tileTag d.toNat], srcs := [tileTag d.toNat] }) s

/-- TRD (R192): timed, 3. -/
def execTrd (g : BitVec 4) (t : BitVec 3) (d : BitVec 6) (b : Sel) (s : State) :
    Host.Outcome State Fault Refusal :=
  issueOp (.trd g t d b) (tagChk [tileTag t.toNat])
    (fun s => s.land 3 [.v (vphys s.me.bank.rbase d.toNat) (s.me.bank.row t.toNat ((s.src b).toNat % 32))
      (BitVec.allOnes 128)]) s

/-- TWR (R192). -/
def execTwr (g : BitVec 4) (d : BitVec 3) (a : BitVec 6) (b : Sel) (s : State) :
    Host.Outcome State Fault Refusal :=
  issueOp (.twr g d a b) queueChk
    (fun s => s.stage { id := 0, i := .twr g d a b, b := s.src b, vec := s.me.bank.getV a.toNat
                        dsts := [tileTag d.toNat] }) s

/-- TTR (R192). -/
def execTtr (g : BitVec 4) (t : Ty) (d src : BitVec 3) (s : State) : Host.Outcome State Fault Refusal :=
  issueOp (.ttr g t d src) queueChk
    (fun s => s.stage { id := 0, i := .ttr g t d src, dsts := [tileTag d.toNat], srcs := [tileTag src.toNat] }) s

/-- TMASK (R193). -/
def execTmask (g : BitVec 4) (t : Ty) (mode : BitVec 2) (d : BitVec 3) (a b c : Sel) (s : State) :
    Host.Outcome State Fault Refusal :=
  issueOp (.tmask g t mode d a b c) queueChk
    (fun s => s.stage { id := 0, i := .tmask g t mode d a b c, a := s.src a, b := s.src b, c := s.src c
                        dsts := [tileTag d.toNat], srcs := [tileTag d.toNat] }) s

/-- A timed reduction of a tile into a vector register (R194). -/
def State.landTile (s : State) (lat : Nat) (d : BitVec 6) (r : Vec × Flags) : State :=
  s.land lat (.v (vphys s.me.bank.rbase d.toNat) r.1 (BitVec.allOnes 128) ::
    (if r.2 = 0 then [] else [.flags (BitVec.ofNat 64 r.2)]))

/-- TRMAX (R194): timed, 4. -/
def execTrmax (g : BitVec 4) (t : Ty) (src : BitVec 3) (d : BitVec 6) (s : State) :
    Host.Outcome State Fault Refusal :=
  issueOp (.trmax g t src d) (tagChk [tileTag src.toNat])
    (fun s => s.landTile 4 d (tileReduce t (minMaxF .f32 true) (s.me.bank.rows src.toNat))) s

/-- TRSUM (R194): timed, 6. -/
def execTrsum (g : BitVec 4) (t : Ty) (rc : Rc) (src : BitVec 3) (d : BitVec 6) (s : State) :
    Host.Outcome State Fault Refusal :=
  issueOp (.trsum g t rc src d) (tagChk [tileTag src.toNat])
    (fun s => s.landTile 6 d (tileReduce t (addC .f32 (s.mode rc)) (s.me.bank.rows src.toNat))) s

/-- TEXP (R195). -/
def execTexp (g : BitVec 4) (t : Ty) (rc : Rc) (d src : BitVec 3) (b : BitVec 6) (s : State) :
    Host.Outcome State Fault Refusal :=
  issueOp (.texp g t rc d src b) queueChk
    (fun s => s.stage { id := 0, i := .texp g t rc d src b, vec := s.me.bank.getV b.toNat
                        dsts := [tileTag d.toNat], srcs := [tileTag src.toNat] }) s

/-- TRSCL (R195). -/
def execTrscl (g : BitVec 4) (t : Ty) (rc : Rc) (d src : BitVec 3) (b : BitVec 6) (s : State) :
    Host.Outcome State Fault Refusal :=
  issueOp (.trscl g t rc d src b) queueChk
    (fun s => s.stage { id := 0, i := .trscl g t rc d src b, vec := s.me.bank.getV b.toNat
                        dsts := [tileTag d.toNat], srcs := [tileTag src.toNat] }) s

/-- TCVT (R195): the draws of a stochastic rounding are taken at issue (R82). -/
def execTcvt (g : BitVec 4) (t u : Ty) (rc : Rc) (ns : Bool) (d src : BitVec 3) (s : State) :
    Host.Outcome State Fault Refusal :=
  issueOp (.tcvt g t u rc ns d src) queueChk
    (fun s =>
      let (s', dr) := s.draws rc (32 * cvtCount t u)
      s'.stage { id := 0, i := .tcvt g t u rc ns d src, draws := dr
                 dsts := [tileTag d.toNat], srcs := [tileTag src.toNat] }) s

/-- The tags TWAIT's masks name (R196). -/
def maskTags (tm : BitVec 8) (am : BitVec 16) : List Nat :=
  (List.range 8).filter (fun k => tm.getLsbD k) ++ ((List.range 16).filter (fun k => am.getLsbD k)).map accTag

/-- TWAIT (R196). -/
def execTwait (g : BitVec 4) (tm : BitVec 8) (am : BitVec 16) (s : State) :
    Host.Outcome State Fault Refusal :=
  issueOp (.twait g tm am) (tagChk (maskTags tm am)) id s

/-- TZERO (R192). -/
def execTzero (g : BitVec 4) (d : BitVec 3) (s : State) : Host.Outcome State Fault Refusal :=
  issueOp (.tzero g d) queueChk
    (fun s => s.stage { id := 0, i := .tzero g d, dsts := [tileTag d.toNat] }) s

/-! ## What the queued forms that touch no memory compute -/

/-- The writes and the flags of a queued T operation other than TLD and TST, from the tiles as they stand
when it starts (R192, R193, R195). -/
def tileWrites (b : Bank) (o : QOp) : List QWrite :=
  let fl (f : Flags) : List QWrite := if f = 0 then [] else [.flags (BitVec.ofNat 64 f)]
  match o.i with
  | .twr _ d .. => [.tileRow d.toNat (o.b.toNat % 32) o.vec (BitVec.allOnes 128)]
  | .tzero _ d => rowWrites d.toNat (List.replicate 32 0)
  | .ttr _ t d src => rowWrites d.toNat (transpose t.width (b.rows src.toNat))
  | .tmask _ t m d .. =>
      rowWrites d.toNat ((b.rows d.toNat).zipIdx.map (fun x =>
        maskRow t m.toNat o.a.toInt o.b.toInt o.c.toInt x.2 x.1))
  | .texp _ t rc d src _ =>
      let r := rowsMap (fun r v => rowMap t (texpE t (rcMode rc o.rm 0) (lane o.vec r)) v) (b.rows src.toNat)
      rowWrites d.toNat r.1 ++ fl r.2
  | .trscl _ t rc d src _ =>
      let r := rowsMap (fun r v => rowMap t (trsclE t (rcMode rc o.rm 0) (lane o.vec r)) v) (b.rows src.toNat)
      rowWrites d.toNat r.1 ++ fl r.2
  | .tcvt _ t u rc ns d src =>
      let r := rowsMap (tcvtRow t u rc o.rm ns o.draws) (b.rows src.toNat)
      rowWrites d.toNat r.1 ++ fl r.2
  | _ => []

end Sys2Proof.Machine
end

