-- ==== Sys2Proof/Machine/Matrix.lean ====
section
/-!
DEFINITION. The M class at issue (R173 to R189): what is looked for, and the staging of each operation.
What the operations compute when they start on the engine is in Sys2Proof/Machine/Engine.lean.
-/
namespace Sys2Proof.Machine

/-! ## Shared forms -/

/-- The element type of a matrix format (R180). -/
def mfmtTy : MFmt → Ty
  | .bf16 => .bf16
  | .f16 => .f16
  | .e4m3 => .e4m3
  | .e5m2 => .e5m2
  | .i8 => .i8
  | .fp4 => .e2m1

/-- Ring number as a source or destination of a queued operation. -/
def ringTag (r : Nat) : Nat := 24 + r

/-- The operand of a form as a source number: a tile or a ring (R117). -/
def mopTag : MOp → Nat
  | .tile t => tileTag t.toNat
  | .ring r => ringTag r.toNat

/-- The binding an operation is checked against (R179). -/
def State.binding (s : State) (n : Nat) : Option AccBind := (Tbl.find s.me.bank.acc n).join

/-- What stands against an operation that names an accumulator: `ok` is what the form asks of the
binding (R179, R181). -/
def bindChk (n : BitVec 4) (ok : AccBind → Bool) (s : State) : Chk :=
  match s.binding n.toNat with
  | none => { fault := some s.illegal }
  | some b =>
      if b.removed then { fault := some (s.flt .expired (BitVec.ofNat 64 b.base)) }
      else faultIf (!ok b) s.illegal

/-- What stands against an array that must lie in one region of a tier of this core, held by the context
(R174, R179). -/
def oneRegionChk (s : State) (tier a n : Nat) : Chk :=
  let k := s.issue.core
  let w := s.whoMe
  let home := match byteRights s k w .cmd a false with
    | .hit h => h.region
    | _ => none
  let bad (u : Nat × Nat) : Option Flt :=
    match byteRights s k w .cmd u.1 false with
    | .hit h => if h.tier == tier && h.home == k && h.region.isSome && h.region == home then none
                else some (s.flt .region (BitVec.ofNat 64 u.1))
    | .bad c => some (s.flt c (BitVec.ofNat 64 u.1))
    | .pend _ => none
    | _ => some (s.flt .region (BitVec.ofNat 64 u.1))
  { fault := (unitsOf a n).findSome? bad
    block := (unitsOf a n).findSome? (fun u => match byteRights s k w .cmd u.1 false with
      | .pend b => some (some (.pending b))
      | _ => none) }

/-- The device-physical address of a byte the issuing context holds. -/
def State.dpaHere (s : State) (a : Nat) : Nat :=
  match byteRights s s.issue.core s.whoMe .cmd a false with
  | .hit h => h.dpa
  | _ => 0

/-! ## Rings (R174, R176, R177) -/

/-- What stands against RINGSET (R174). -/
def ringsetChk (a b c : Sel) (s : State) : Chk :=
  let base := (s.src a).toNat
  let sb := (s.src b).toNat
  let n := (s.src c).toNat
  if sb % 128 ≠ 0 ∨ sb < 128 ∨ 262144 < sb ∨ n < 1 ∨ 256 < n ∨ base % 128 ≠ 0 then { fault := some s.illegal }
  else (oneRegionChk s 1 base (sb * n)).and (queueChk s)

/-- RINGSET (R174). -/
def execRingset (g : BitVec 4) (r : BitVec 4) (a b c : Sel) (s : State) : Host.Outcome State Fault Refusal :=
  issueOp (.ringset g r a b c) (ringsetChk a b c)
    (fun s => s.stage { id := 0, i := .ringset g r a b c, a := s.src a, b := s.src b, c := s.src c
                        dsts := [ringTag r.toNat] }) s

/-- The ring word (R177). -/
def ringWord (r : Ring) : Word :=
  put [(63, b2n r.set), (48, r.slots), (40, r.tail), (32, r.head), (16, r.inuse), (0, r.full)]

/-- RINGQ (R177): timed, 2. -/
def execRingq (g : BitVec 4) (r : BitVec 4) (d : BitVec 6) (s : State) : Host.Outcome State Fault Refusal :=
  issueOp (.ringq g r d) noChk (fun s => s.landS 2 d (ringWord (s.myCore.rng r.toNat))) s

/-- The latest RINGSET of ring `r` among the unstarted operations of a queue, as its slot bytes. -/
def pendingRing (q : List QOp) (r : Nat) : Option Nat :=
  (q.reverse.find? (fun o => !o.started && o.dsts.contains (ringTag r))).map (fun o => o.b.toNat)

/-! ## Matrix multiply (R180 to R185) -/

/-- Bytes of a slot that an operand of `rows` rows of K elements uses (R175). -/
def slotUsed (f : MFmt) (rows k : Nat) : Nat :=
  rows * k * (mfmtTy f).width / 8 + (if f = .fp4 then 8 else 0)

/-- What stands against a ring operand of `rows` rows of K (R181), on the core that supplies it. -/
def ringOpChk (s : State) (mmag isB : Bool) (f : MFmt) (x : MOp) (rows k : Nat) : Chk :=
  match x with
  | .tile _ => {}
  | .ring r =>
      let own := ringCore mmag s.issue.core s.myCore.gang isB
      let g := (s.core own).rng r.toNat
      let q := (s.ctx own (if own = s.issue.core then s.issue.ctx else 0)).mine
      match pendingRing q r.toNat with
      | some sb => faultIf (decide (sb < slotUsed f rows k)) s.illegal
      | none =>
          if g.set then faultIf (decide (g.slotb < slotUsed f rows k)) s.illegal
          else if g.removed then { fault := some (s.flt .expired (BitVec.ofNat 64 g.base)) }
          else { fault := some s.illegal }

/-- M, N and K of a matrix operation (R180). -/
def mDim (m8 : BitVec 8) : Nat := 8 * m8.toNat
/-- N. -/
def nDim (n16 : BitVec 8) : Nat := 16 * n16.toNat
/-- K. -/
def kDim (k16 : BitVec 12) : Nat := 16 * k16.toNat

/-- What stands against MMA and MMAG (R181). -/
def mmaChk (mmag : Bool) (f : MFmt) (acc : BitVec 4) (a b : MOp) (m8 n16 : BitVec 8) (k16 : BitVec 12)
    (s : State) : Chk :=
  let gang := faultIf (mmag && s.myCore.gang.isNone) (s.flt .gang 0)
  let bind := bindChk acc (fun x => x.i32 == (f == .i8) && mDim m8 ≤ x.rows && nDim n16 ≤ x.cols) s
  let ops := if mmag && s.myCore.gang.isNone then {}
    else (ringOpChk s mmag false f a (mDim m8) (kDim k16)).and (ringOpChk s mmag true f b (nDim n16) (kDim k16))
  ((gang.and bind).and ops).and (queueChk s)

/-- The sources of a matrix operation on this core: a ring of another member is none of them. -/
def State.mmaSrcs (s : State) (mmag : Bool) (acc : BitVec 4) (a b : MOp) : List Nat :=
  let own (isB : Bool) (x : MOp) : List Nat :=
    match x with
    | .tile _ => [mopTag x]
    | .ring _ => if ringCore mmag s.issue.core s.myCore.gang isB = s.issue.core then [mopTag x] else []
  accTag acc.toNat :: (own false a ++ own true b)

/-- MMA (R180 to R184). -/
def execMma (g : BitVec 4) (f : MFmt) (acc : BitVec 4) (a b : MOp) (m8 n16 : BitVec 8) (k16 : BitVec 12)
    (pa pb z : Bool) (s : State) : Host.Outcome State Fault Refusal :=
  issueOp (.mma g f acc a b m8 n16 k16 pa pb z) (mmaChk false f acc a b m8 n16 k16)
    (fun s => s.stage { id := 0, i := .mma g f acc a b m8 n16 k16 pa pb z, bind_ := s.binding acc.toNat
                        fmts := s.myCore.bankfmt, fmtsB := s.myCore.bankfmt
                        dsts := [accTag acc.toNat], srcs := s.mmaSrcs false acc a b }) s

/-- MMAG (R180 to R185). -/
def execMmag (g : BitVec 4) (f : MFmt) (acc : BitVec 4) (a b : MOp) (m8 n16 : BitVec 8) (k16 : BitVec 12)
    (pa pb z : Bool) (s : State) : Host.Outcome State Fault Refusal :=
  issueOp (.mmag g f acc a b m8 n16 k16 pa pb z) (mmaChk true f acc a b m8 n16 k16)
    (fun s => s.stage { id := 0, i := .mmag g f acc a b m8 n16 k16 pa pb z, bind_ := s.binding acc.toNat
                        fmts := (s.core (ringCore true s.issue.core s.myCore.gang false)).bankfmt
                        fmtsB := (s.core (ringCore true s.issue.core s.myCore.gang true)).bankfmt
                        dsts := [accTag acc.toNat], srcs := s.mmaSrcs true acc a b }) s

/-! ## Accumulators (R179, R186 to R188) -/

/-- What stands against ACCDEF (R179). -/
def accdefChk (a b c : Sel) (s : State) : Chk :=
  let base := (s.src a).toNat
  let rows := (s.src b).toNat
  let cols := (s.src c).toNat
  if base = 0 ∧ rows = 0 ∧ cols = 0 then queueChk s
  else if rows % 8 ≠ 0 ∨ rows < 8 ∨ 256 < rows ∨ cols % 16 ≠ 0 ∨ cols < 16 ∨ 256 < cols then
    { fault := some s.illegal }
  else if base % 4 ≠ 0 then { fault := some (s.flt .region (BitVec.ofNat 64 base)) }
  else (oneRegionChk s 0 base (4 * rows * cols)).and (queueChk s)

/-- The binding ACCDEF makes; none unbinds (R179). -/
def accdefBind (i32 : Bool) (a b c : Sel) (s : State) : Option AccBind :=
  let base := (s.src a).toNat
  let rows := (s.src b).toNat
  let cols := (s.src c).toNat
  if base = 0 ∧ rows = 0 ∧ cols = 0 then none
  else some { base := base, rows := rows, cols := cols, i32 := i32, dpa := s.dpaHere base }

/-- ACCDEF (R179). -/
def execAccdef (g : BitVec 4) (i32 : Bool) (n : BitVec 4) (a b c : Sel) (s : State) :
    Host.Outcome State Fault Refusal :=
  issueOp (.accdef g i32 n a b c) (accdefChk a b c)
    (fun s =>
      let d := accdefBind i32 a b c s
      (s.stage { id := 0, i := .accdef g i32 n a b c, bind_ := d, dsts := [accTag n.toNat] }).updMe (fun x =>
        { x with bank := { x.bank with acc := Tbl.set x.bank.acc n.toNat d } })) s

/-- What stands against a form on a whole binding that touches no memory. -/
def accChk (n : BitVec 4) (ok : AccBind → Bool) (s : State) : Chk := (bindChk n ok s).and (queueChk s)

/-- ACCZ (R186). -/
def execAccz (g : BitVec 4) (n : BitVec 4) (s : State) : Host.Outcome State Fault Refusal :=
  issueOp (.accz g n) (accChk n (fun _ => true))
    (fun s => s.stage { id := 0, i := .accz g n, bind_ := s.binding n.toNat, dsts := [accTag n.toNat] }) s

/-- Whether ACCLD takes a type for a binding: the binding's own (R186). -/
def accldOk (t : Ty) (b : AccBind) : Bool := t == (if b.i32 then .i32 else .f32)

/-- Whether ACCST takes a memory type for a binding (R186). -/
def accstOk (t : Ty) (b : AccBind) : Bool :=
  if b.i32 then t == .i32 || t == .i8
  else t == .f32 || t == .bf16 || t == .f16 || t == .e4m3 || t == .e5m2

/-- What stands against ACCLD and ACCST: the binding, then the rights of the whole range (R186, R117). -/
def accMemChk (i : Instr) (n : BitVec 4) (ok : AccBind → Bool) (a b : Sel) (s : State) : Chk :=
  (accChk n ok s).and
    (if (bindChk n ok s).fault.isSome then {}
     else rngsChk s (qRanges i (s.src a) (s.src b) (s.binding n.toNat)))

/-- ACCLD (R186). -/
def execAccld (g : BitVec 4) (t : Ty) (n : BitVec 4) (a b : Sel) (s : State) :
    Host.Outcome State Fault Refusal :=
  issueOp (.accld g t n a b) (accMemChk (.accld g t n a b) n (accldOk t) a b)
    (fun s => s.stage { id := 0, i := .accld g t n a b, a := s.src a, b := s.src b
                        bind_ := s.binding n.toNat, dsts := [accTag n.toNat] }) s

/-- ACCST (R186): the draws of a stochastic rounding are taken at issue (R82), and the tag of its source is
cleared (R189). -/
def execAccst (g : BitVec 4) (t : Ty) (rc : Rc) (ns : Bool) (n : BitVec 4) (a b : Sel) (s : State) :
    Host.Outcome State Fault Refusal :=
  issueOp (.accst g t rc ns n a b) (accMemChk (.accst g t rc ns n a b) n (accstOk t) a b)
    (fun s =>
      let d := s.binding n.toNat
      let (s', dr) := s.draws rc ((d.map (fun x => x.rows * x.cols)).getD 0)
      s'.stage { id := 0, i := .accst g t rc ns n a b, a := s.src a, b := s.src b, bind_ := d, draws := dr
                 dsts := [accTag n.toNat], srcs := [accTag n.toNat] }) s

/-- Columns of the block ACCMV moves (R187). -/
def accmvCols (t : Ty) : Nat := 1024 / t.width

/-- ACCMV (R187). -/
def execAccmv (g : BitVec 4) (t : Ty) (dir : Bool) (rc : Rc) (ns : Bool) (n : BitVec 4) (d : BitVec 3)
    (a b : Sel) (s : State) : Host.Outcome State Fault Refusal :=
  issueOp (.accmv g t dir rc ns n d a b) (accChk n (accstOk t))
    (fun s =>
      let x := s.binding n.toNat
      let (s', dr) := if dir then (s, []) else s.draws rc (32 * accmvCols t)
      s'.stage { id := 0, i := .accmv g t dir rc ns n d a b, a := s.src a, b := s.src b, bind_ := x
                 draws := dr
                 dsts := if dir then [accTag n.toNat] else [tileTag d.toNat]
                 srcs := if dir then [tileTag d.toNat, accTag n.toNat] else [accTag n.toNat] }) s

/-- ACCSCL (R188). -/
def execAccscl (g : BitVec 4) (n : BitVec 4) (a : BitVec 6) (b : Sel) (s : State) :
    Host.Outcome State Fault Refusal :=
  issueOp (.accscl g n a b) (accChk n (fun x => !x.i32))
    (fun s => s.stage { id := 0, i := .accscl g n a b, b := s.src b, vec := s.me.bank.getV a.toNat
                        bind_ := s.binding n.toNat, dsts := [accTag n.toNat], srcs := [accTag n.toNat] }) s

/-- ACCBIAS (R188). -/
def execAccbias (g : BitVec 4) (n : BitVec 4) (a : BitVec 6) (b : Sel) (s : State) :
    Host.Outcome State Fault Refusal :=
  issueOp (.accbias g n a b) (accChk n (fun _ => true))
    (fun s => s.stage { id := 0, i := .accbias g n a b, b := s.src b, vec := s.me.bank.getV a.toNat
                        bind_ := s.binding n.toNat, dsts := [accTag n.toNat], srcs := [accTag n.toNat] }) s

end Sys2Proof.Machine
end

