-- ==== Sys2Proof/Machine/Rent.lean ====
section
/-!
DEFINITION. Rented storage: charges (R48, R49), where a RENT finds granules (R51, R55), the end of a
lease (R63, R64, R66, R251, R255), the rent forms (R218, R219), and the events of the rent clock (R57,
R58, R63, R66).
-/
namespace Sys2Proof.Machine

/-! ## Charges -/

/-- The rate of a tier (R47). -/
def State.rate (s : State) (tier : Nat) : Nat :=
  if tier = 0 then s.rates.1 else if tier = 1 then s.rates.2.1 else s.rates.2.2

/-- `n` rounded up to a multiple of `g`. -/
def roundUp (n g : Nat) : Nat := (n + g - 1) / g * g

/-- A charge (R48). -/
def State.charge (s : State) (tier bytes ticks : Nat) : Nat :=
  roundUp bytes (Config.granule tier) * ticks * s.rate tier

/-- The balance of a launch's purse (R49). -/
def State.purse (s : State) (l : Nat) : Nat := ((s.launch? l).map (·.purse)).getD 0

/-- Whether a launch's purse can pay a charge (R48, R49). -/
def State.canPay (s : State) (l c : Nat) : Bool := c < 2 ^ 64 && c ≤ s.purse l

/-- Draw a charge from a purse (R49). -/
def State.pay (s : State) (l c : Nat) : State := s.updLaunch l (fun x => { x with purse := x.purse - c })

/-! ## Free granules (R51, R55, R266) -/

/-- Device-physical ranges of tier 2 that a function's window holds on core `k` (R296). -/
def windowOn (s : State) (f k : Nat) : List (Nat × Nat) :=
  let d := s.fn f
  let lo := field d.window 0 24 * 65536
  let hi := lo + field d.window 24 24 * 65536
  match (s.partCores d.part).idxOf? k with
  | none => []
  | some i =>
      let a := max lo (i * 1073741824)
      let b := min hi ((i + 1) * 1073741824)
      if a < b then [(k * 1073741824 + (a - i * 1073741824), b - a)] else []

/-- The ranges of the stores of a tier that are rented or hold code: regions, code copies (R286) and block-store
blocks (R227). -/
def State.rentedIn (s : State) (tier : Nat) : List (Nat × Nat) :=
  (s.regions.filter (fun r => r.tier == tier)).flatMap (·.pieces)
    ++ (if tier = 2 then
      s.launches.filterMap (fun l => if l.state == .placed ∨ l.state == .preempted then
          some (l.code.2.2, roundUp l.code.2.1 65536) else none)
        ++ s.fns.flatMap (fun d => d.2.store.blocks.map (fun b => (b.2.paddr, 65536)))
      else [])

/-- The ranges of core `k`'s store of a tier that are in use: those, and windows (R296). -/
def State.usedOn (s : State) (tier k : Nat) : List (Nat × Nat) :=
  let all := s.rentedIn tier ++ (if tier = 2 then s.fns.flatMap (fun d => windowOn s d.1 k) else [])
  all.filter (fun p => meets p.1 p.2 (Config.tierBase tier k) (Config.tierSize tier))

/-- The part of core `k`'s store of a tier that a function may rent from (R266). -/
def State.shareOf (s : State) (f tier k : Nat) : Nat × Nat :=
  let d := s.fn f
  let lo := Config.tierBase tier k
  let sh := if tier = 0 then d.share0 else if tier = 1 then d.share1 else none
  match sh with
  | some (first, n) => (lo + first * 4096, n * 4096)
  | none => (lo, Config.tierSize tier)

/-- Whether `n` bytes at `a` are free within a range. -/
def fits (used : List (Nat × Nat)) (lo size a n : Nat) : Bool :=
  lo ≤ a && a + n ≤ lo + size && !used.any (fun p => meets p.1 p.2 a n)

/-- The lowest start of a free run of `n` bytes, aligned to `g`. -/
def lowestRun (used : List (Nat × Nat)) (lo size g n : Nat) : Option Nat :=
  let starts := lo :: used.map (fun p => lo + roundUp (p.1 + p.2 - lo) g)
  starts.foldl (fun best a =>
    if fits used lo size a n then
      match best with
      | some b => some (min a b)
      | none => some a
    else best) none

/-- A run of `n` bytes for function `f` in core `k`'s store of a tier: the one an implementation chooses,
by default the lowest (log 5). -/
def State.findRun (s : State) (f tier k n : Nat) : State × Option Nat :=
  let (lo, size) := s.shareOf f tier k
  let used := s.usedOn tier k
  let g := Config.granule tier
  match lowestRun used lo size g n with
  | none => (s, none)
  | some d =>
      let (s, a) := s.choose d
      (s, some (if a % g = 0 && fits used lo size a n then a else d))

/-- Runs for a region of `n` granules interleaved over cores: granule i on core i mod the number (R51). -/
def State.findRuns (s : State) (f tier n : Nat) (cores : List Nat) : State × Option (List Nat) :=
  let m := cores.length
  cores.zipIdx.foldl (fun acc c =>
    match acc.2 with
    | none => acc
    | some l =>
        let mine := (n + m - 1 - c.2) / m
        if mine = 0 then (acc.1, some (l ++ [0]))
        else
          let r := acc.1.findRun f tier c.1 (mine * Config.granule tier)
          (r.1, r.2.map (fun a => l ++ [a]))) (s, if m = 0 then none else some [])

/-- The pieces of a region from its runs (R51). -/
def piecesOf (tier n : Nat) (runs : List Nat) : List (Nat × Nat) :=
  let g := Config.granule tier
  match runs with
  | [a] => [(a, n * g)]
  | _ => (List.range n).map (fun i => ((runs[i % runs.length]?).getD 0 + i / runs.length * g, g))

/-! ## Range entries (R51, 00_scope) -/

/-- Range entries of an address space in use; a pending one is removed when its hand-over fails (R62). -/
def State.entriesOf (s : State) (l : Nat) : Nat :=
  (s.regions.filter (fun r => r.owner == l && !r.unmapped)).length
    + (s.pendings.filter (fun p => p.launch == l && !p.failed)).length
    + (s.regions.flatMap (fun r => r.subs.filter (fun u => u.toLaunch && u.grantee == l))).length + 1

/-- Whether a range overlaps one that the address space of a launch has. -/
def State.rangeTaken (s : State) (l b n : Nat) : Bool :=
  s.regions.any (fun r => (r.owner == l && !r.unmapped && meets r.base r.len b n)
      || r.subs.any (fun u => u.toLaunch && u.grantee == l && meets u.base u.len b n))
    || s.pendings.any (fun p => p.launch == l && !p.failed && meets p.base p.len b n)
    || (s.launch? l).any (fun x => meets x.code.1 x.code.2.1 b n)

/-- The virtual base of a new region: the one an implementation chooses (log 5). A tier 1 base modulo
8 MiB is its offset in the home scratchpad (R51). -/
def State.newBase (s : State) (l tier n dpa : Nat) : State × Nat :=
  if tier < 2 then
    let d := 0x400000000000 + dpa
    let (s, b) := s.choose d
    let ok := b % 4096 == 0 && b + n ≤ 2 ^ 48 && !s.rangeTaken l b n && (tier == 0 || b % 8388608 == d % 8388608)
    (s, if ok then b else d)
  else
    let d := s.nextVa
    let (s, b) := s.choose d
    let ok := b % 65536 == 0 && b + n ≤ 2 ^ 48 && !s.rangeTaken l b n
    ({ s with nextVa := s.nextVa + n }, if ok then b else d)

/-- The size of a function's window: guest-physical addresses from there up name none of its memory (R296). -/
def State.guestTop (s : State) (f : Nat) : Nat := field (s.fn f).window 24 24 * 65536

/-- The contiguous guest-physical range of a new tier 2 region of a virtual function: above its window, where no address
of function memory lies, and above its other regions (R292, log 70, DESIGN CHOICE). -/
def State.newGpa (s : State) (f tier : Nat) : Option Nat :=
  if f = 0 ∨ tier ≠ 2 then none
  else some ((s.regions.filter (fun r => r.fn == f)).foldl (fun m r => max m (r.gpa.getD 0 + r.len)) (s.guestTop f))

/-! ## The end of a lease (R63) -/

/-- Fold over every core of the package that is in use. -/
def State.eachCore (s : State) (f : State → Nat → State) : State := (s.cores.map (·.1)).foldl f s

/-- The commands that name memory of a range end TRUNC, running ones with the prefix they have delivered and
queued ones with count 0; a pattern not yet read remembers the range (R63, R255, R306). A command of whose ranges only
the ring lies there ends RING: at once where it runs, at its start where it is queued (R202, R209, log 105, DESIGN
CHOICE). -/
def truncCmds (s : State) (r : Region) (b n : Nat) : State :=
  s.eachCore (fun s k => (List.range 16).foldl (fun s ch =>
    (((s.core k).chn ch).queue).foldl (fun s c =>
      if !r.seenBy c.launch then s
      else if c.touchesMem s k b n then s.endCmd k ch c stTrunc (if c.prog.started then c.prog.prefixLen else 0)
      else if c.touchesRing s k b n then (if c.prog.started then s.endCmd k ch c stRing c.prog.prefixLen else s)
      else match c.i with
        | .xcopy _ _ _ _ _ _ _ (some _) | .xcoll .. =>
            if c.prog.desc.isEmpty then s.updCmd k ch c.serial (fun c => { c with dead := (b, n) :: c.dead })
            else s
        | _ => s) s) s)

/-- The first byte of a row that a mask names, and how many it names. -/
def rowBytes (k : Pred) : Nat × Nat :=
  (((List.range 128).find? (fun i => k.getLsbD i)).getD 128, ((List.range 128).filter (fun i => k.getLsbD i)).length)

/-- The first `m` bytes of an operation's writes, in order (R63). Flags are none of them: an ACCST that stops there
raises none (log 89, DESIGN CHOICE). -/
def cutWrites : List QWrite → Nat → List QWrite
  | [], _ => []
  | .tileRow t r v k :: l, m =>
      let (i, n) := rowBytes k
      .tileRow t r v (k &&& BitVec.ofNat 128 (2 ^ min (i + m) 128 - 1)) :: cutWrites l (m - n)
  | .mem c a g bs :: l, m => .mem c a g (bs.take m) :: cutWrites l (m - bs.length)
  | .done n :: l, m => cutWrites l (m - n)
  | _ :: l, m => cutWrites l m

/-- The bytes an operation's writes hold. -/
def writeBytes (l : List QWrite) : Nat :=
  l.foldl (fun n w => match w with
    | .tileRow _ _ _ k => n + (rowBytes k).2
    | .mem _ _ _ bs => n + bs.length
    | .done k => n + k
    | _ => n) 0

/-- A binding inside a range is removed (R63). -/
def AccBind.lost (a : AccBind) (b n : Nat) : AccBind :=
  if meets a.base (4 * a.rows * a.cols) b n then { a with removed := true } else a

/-- What the end of a lease does to one queued operation: a memory operation that touches the range stops
at an element a free value chooses (log 12); a write to a binding in the range is discarded, and the ready tag of
its accumulator is set. An operation that has not started keeps its tags until it retires (R181). -/
def truncOp (k j b n : Nat) (s : State) (o : QOp) : State :=
  let lostBind := o.bind_.any (fun a => (a.lost b n).removed)
  let isStore := match o.i with
    | .accst .. => true
    | _ => false
  if o.touches b n || (lostBind && isStore && o.started) then
    if o.started then
      let (s, f) := s.drawFree
      let e := qElem o.i
      let m := f.toNat % (writeBytes (o.first ++ o.writes) / e + 1) * e
      s.finishOp k j { o with writes := cutWrites (o.first ++ o.writes) m }
    else s.finishOp k j o
  else
    let o' := { o with
      bind_ := o.bind_.map (fun a => a.lost b n)
      dsts := if lostBind && o.started then o.dsts.filter (fun t => t < 8 || 24 ≤ t) else o.dsts
      writes := o.writes.filter (fun w => match w with
        | .mem c _ _ _ => !within c b n
        | _ => true) }
    s.updCtx k j (fun x => { x with queue := x.queue.map (fun p => if p.id == o.id then o' else p) })

/-- The bindings of a bank inside a range are removed (R63). -/
def Bank.loseAcc (x : Bank) (b n : Nat) : Bank :=
  { x with acc := x.acc.map (fun a => (a.1, a.2.map (fun y => y.lost b n))) }

/-- And those of a caller's saved view (R38). -/
def Tail.loseAcc (t : Tail) (b n : Nat) : Tail :=
  { t with view := t.view.map (fun v => { v with bank := v.bank.loseAcc b n }) }

/-- The queued operations, accumulator names and rings of every context that has the range (R63). -/
def truncOps (s : State) (r : Region) (b n : Nat) : State :=
  let s := s.slots.foldl (fun s p =>
    let x := s.ctx p.1 p.2
    if !r.seenBy x.launch then s
    else
      let s := x.queue.foldl (truncOp p.1 p.2 b n) s
      if r.tier ≠ 0 then s
      else s.updCtx p.1 p.2 (fun x => { x with bank := x.bank.loseAcc b n, tail := x.tail.map (fun t => t.loseAcc b n) })) s
  if r.tier ≠ 1 then s
  else s.eachCore (fun s k => s.updCore k (fun c =>
    if c.launch.any r.seenBy then
      { c with ring := c.ring.map (fun g =>
          (g.1, if g.2.set && meets g.2.base (g.2.slotb * g.2.slots) b n then
              { g.2 with set := false, removed := true, owed := 0 } else g.2)) }
    else c))

/-- Barrier cells of a region in a range break (R63). -/
def breakCells (s : State) (r : Region) (b n : Nat) : State :=
  let hit := s.barriers.filter (fun x => x.region == r.id && !x.broken && within x.cell b n)
  let s := hit.foldl breakWaiters s
  { s with barriers := s.barriers.map (fun x =>
      if x.region == r.id && within x.cell b n then { x with broken := true } else x) }

/-- Watches on a range wake broken (R63, R224). -/
def breakWatches (s : State) (sees : Nat → Bool) (b n : Nat) : State :=
  s.slots.foldl (fun s p => s.updCtx p.1 p.2 (fun x =>
    match x.wait with
    | some (.watch c a v t none) =>
        if sees x.launch && within a b n then { x with wait := some (.watch c a v t (some false)), state := .ready }
        else x
    | _ => x)) s

/-- The parts of a region's pieces that hold the bytes `[b, b + n)`. -/
def Region.dpas (r : Region) (b n : Nat) : List (Nat × Nat) :=
  (r.pieces.foldl (fun (acc : Nat × List (Nat × Nat)) p =>
    let lo := max b acc.1
    let hi := min (b + n) (acc.1 + p.2)
    (acc.1 + p.2, if lo < hi then acc.2 ++ [(p.1 + (lo - acc.1), hi - lo)] else acc.2)) (r.base, [])).2

/-- Held stores into a device-physical range: dropped with a top-level lease, applied at once with a
sublet (R63, R251). -/
def settleHeld (s : State) (ds : List (Nat × Nat)) (keep : Bool) : State :=
  let inside (p : Nat × List Byte × Option Nat) : Bool := ds.any (fun d => within p.1 d.1 d.2)
  s.slots.foldl (fun s k =>
    let x := s.ctx k.1 k.2
    let now := x.held.flatMap (fun h => match h.eff with
      | .store ps _ j => (ps.filter inside).map (fun p => (j.isSome, p))
      | _ => [])
    let s := if keep then now.foldl (fun s p => applyPiece k.1 (s.fnOf x.launch) p.1 s p.2) s else s
    if now.isEmpty then s
    else s.updCtx k.1 k.2 (fun x => { x with held := x.held.map (fun h => match h.eff with
      | .store ps so j => { h with eff := .store (ps.filter (fun p => !inside p)) so j }
      | _ => h) })) s

/-- What the end of a lease does together on the whole range it covers (R63, R64, R255). -/
def endRange (s : State) (r : Region) (b n : Nat) : State :=
  let s := truncCmds s r b n
  let s := truncOps s r b n
  let s := breakCells s r b n
  breakWatches s r.seenBy b n

/-- Who loses a sublet's rights. -/
def endedSub (r : Region) (u : Sublet) : Ended :=
  { launch := if u.toLaunch then u.grantee else r.owner, lindex := if u.toLaunch then none else some u.grantee
    base := u.base, len := u.len }

/-- The end of one sublet (R63): contents are kept. -/
def endSublet (s : State) (r : Region) (u : Sublet) : State :=
  let s := settleHeld (endRange s r u.base u.len) (r.dpas u.base u.len) true
  let s := s.updRegion r.id (fun x => { x with subs := x.subs.erase u })
  if u.granted then { s with ended := s.ended ++ [endedSub r u] } else s

/-- Who loses the region itself. -/
def endedOwn (r : Region) : Ended :=
  { launch := r.owner, lindex := if r.launchScope then none else some r.renter, base := r.base, len := r.len }

/-- The granules of a list of pieces. -/
def granulesOf (tier : Nat) (ps : List (Nat × Nat)) : List Nat :=
  let g := Config.granule tier
  ps.flatMap (fun p => (List.range (p.2 / g)).map (fun i => p.1 + i * g))

/-- A granule range is scrubbed: it reads zero from now on, and the scrub runs on (R66). -/
def scrubPieces (s : State) (tier : Nat) (ps : List (Nat × Nat)) : State :=
  ps.foldl (fun s p => s.scrub p.1 p.2)
    { s with scrubs := s.scrubs.filter (fun a => !(granulesOf tier ps).contains a) ++ granulesOf tier ps }

/-- The end of a top-level lease (R63, R66), with every sublet of it. -/
def endRegion (s : State) (r : Region) : State :=
  let s := settleHeld (endRange s r r.base r.len) r.pieces false
  let s := scrubPieces s r.tier r.pieces
  { s with
    regions := s.regions.filter (fun x => x.id != r.id)
    ended := s.ended ++ (if r.unmapped then [] else [endedOwn r]) ++ (r.subs.filter (·.granted)).map (endedSub r) }

/-! ## The rent forms (R218, R219) -/

/-- The lease through which the issuing context may act on a region as one of its owners' holders, or
what it raises otherwise (R56, R59, R63). -/
inductive OwnAt
  | own (r : Region)
  | fault (c : Cause)
  | pend (base : Nat)
  deriving DecidableEq, Repr

/-- Whether a holder of a lease that has ended covers an address. -/
def State.formerHolder (s : State) (w : Who) (a : Nat) : Bool :=
  s.ended.any (fun e => e.launch == w.launch && within a e.base e.len
    && (match e.lindex with
        | none => true
        | some i => i == w.lindex))

/-- Find the region an address names for RENEW, PREPAY, SUBLET and HANDOVER. -/
def State.ownAt (s : State) (w : Who) (a : Nat) : OwnAt :=
  match s.regions.find? (fun r => within a r.base r.len && r.heldBy w) with
  | some r => .own r
  | none =>
      if s.regions.any (fun r => (r.subFor w a).isSome) then .fault .region
      else match s.pendings.find? (fun p => p.launch == w.launch && within a p.base p.len) with
        | some p => if p.failed then .fault .expired else .pend p.base
        | none =>
            if s.formerHolder w a then .fault .expired
            else if s.regions.any (fun r => r.owner == w.launch && !r.unmapped && within a r.base r.len) then
              .fault .region
            else .fault .xlate

/-- What stands against a rent form that names a region by an address. -/
def ownChk (a : Sel) (s : State) : Chk :=
  match s.ownAt s.whoMe (s.src a).toNat with
  | .own _ => {}
  | .fault c => { fault := some (s.flt c (s.src a)) }
  | .pend b => { block := some (some (.pending b)) }

/-- The result of a rent form (R218): the value and pP, or the status and pP + 1, at latency 4. -/
def State.landRent (s : State) (lat : Nat) (d : BitVec 6) (p : BitVec 3) (st : Status) (v : Nat) : State :=
  s.land lat (.s d.toNat (BitVec.ofNat 64 (if st = 0 then v else st)) (BitVec.allOnes 64)
    :: s.pairLands p (st == 0))

/-- The last tick a lease may be paid until (R51). -/
def lastTick : Nat := 2 ^ 48 - 1

/-- The cores a tier 2 region is spread over: one, its quad, or its cluster, within the partition (R51). -/
def State.spreadOver (s : State) (f home spread : Nat) : List Nat :=
  let mine := s.partCores (s.fn f).part
  if spread = 0 then (if mine.contains home then [home] else [])
  else mine.filter (fun k => if spread = 1 then quadOf k == quadOf home else clusterOf k == clusterOf home)

/-- The home core a RENT names: none is outside the cluster (R219). -/
def rentHome (k tier : Nat) (c : Word) : Option Nat :=
  if c = BitVec.allOnes 64 then some k
  else if c.toNat < 48 then
    let h := k - k % 48 + c.toNat
    if tier = 0 ∧ h ≠ k then none else some h
  else none

/-- The largest region of each tier is the store it lies in; a longer request finds no run. -/
def maxGranules (tier : Nat) : Nat := 48 * (Config.tierSize tier / Config.granule tier)

/-- RENT's attempt to place a region: the state and its runs. -/
def rentRuns (s : State) (f tier n home spread : Nat) : State × Option (List Nat) :=
  if maxGranules tier < n then (s, none)
  else if tier = 2 then s.findRuns f 2 n (s.spreadOver f home spread)
  else if (s.partCores (s.fn f).part).contains home then s.findRuns f tier n [home] else (s, none)

/-- RENT's effect without its result: the state, the status and the base (R55, R219). -/
def rentEffect (s : State) (tier kind : Nat) (ls rlt : Bool) (spread bytes ticks : Nat) (c : Word) :
    State × Status × Nat :=
  let k := s.issue.core
  let l := s.me.launch
  let f := s.fnOf l
  match rentHome k tier c with
  | none => (s, 4, 0)
  | some home =>
      if bytes = 0 ∨ ticks = 0 ∨ 2 ^ 40 < ticks ∨ lastTick < s.now + ticks then (s, 4, 0)
      else if 64 ≤ s.entriesOf l then (s, 3, 0)
      else
        let cost := s.charge tier bytes ticks
        if !s.canPay l cost then (s, 1, 0)
        else
          let g := Config.granule tier
          let n := (bytes + g - 1) / g
          match rentRuns s f tier n home spread with
          | (_, none) => (s, 2, 0)
          | (s, some runs) =>
              let (s, base) := s.newBase l tier (n * g) (runs.headD 0)
              let r : Region :=
                { id := s.nextId, fn := f, owner := l, renter := s.me.lindex, renterLaunch := l
                  renterAt := (k, s.issue.ctx), renterInst := s.me.inst, launchScope := ls, base := base, len := n * g, tier := tier, home := home, kind := kind
                  until_ := s.now + ticks, rltrap := rlt, pieces := piecesOf tier n runs, gpa := s.newGpa f tier }
              (({ s with
                  regions := s.regions ++ [r], nextId := s.nextId + 1
                  ended := s.ended.filter (fun e => !(e.launch == l && meets e.base e.len base (n * g))) }).pay
                l cost, 0, base)

/-- RENT (R55, R218, R219). -/
def execRent (g : BitVec 4) (tier kind : BitVec 2) (ls rlt : Bool) (spread : BitVec 2) (d : BitVec 6)
    (p : BitVec 3) (a b c : Sel) (s : State) : Host.Outcome State Fault Refusal :=
  issueOp (.rent g tier kind ls rlt spread d p a b c) noChk
    (fun s =>
      let (t, st, v) := rentEffect s tier.toNat kind.toNat ls rlt spread.toNat (s.src a).toNat (s.src b).toNat
        (s.src c)
      t.landRent 4 d p st v) s

/-- Give `go` the region an address names; a checked operation finds it. -/
def State.withOwn (s : State) (a : Sel) (go : Region → State) : State :=
  match s.ownAt s.whoMe (s.src a).toNat with
  | .own r => go r
  | _ => s

/-- RENEW's effect without its result (R56, R219). -/
def renewEffect (s : State) (r : Region) (ticks : Nat) : State × Status × Nat :=
  let cost := s.charge r.tier r.len ticks
  if ticks = 0 ∨ 2 ^ 40 < ticks ∨ lastTick < r.until_ + ticks then (s, 4, 0)
  else if !s.canPay r.owner cost then (s, 1, 0)
  else ((s.updRegion r.id (fun x => { x with until_ := x.until_ + ticks, rlow := false })).pay r.owner cost, 0
       , r.until_ + ticks)

/-- RENEW (R56, R218, R219). -/
def execRenew (g : BitVec 4) (d : BitVec 6) (p : BitVec 3) (a b : Sel) (s : State) :
    Host.Outcome State Fault Refusal :=
  issueOp (.renew g d p a b) (ownChk a)
    (fun s => s.withOwn a (fun r =>
      let (t, st, v) := renewEffect s r (s.src b).toNat
      t.landRent 4 d p st v)) s

/-- PREPAY's effect without its result (R57, R219). LIMIT is reported before CEILING (log 15, DESIGN CHOICE). -/
def prepayEffect (s : State) (r : Region) (margin step ceiling : Nat) : State × Status :=
  if margin = 0 then (s.updRegion r.id (fun x => { x with prepay := none, rlow := false }), 0)
  else if 65536 < margin ∨ step = 0 ∨ 2 ^ 20 < step then (s, 4)
  else if ceiling < s.charge r.tier r.len step then (s, 5)
  else (s.updRegion r.id (fun x => { x with
    prepay := some { margin := margin, step := step, ceiling := ceiling }, rlow := false }), 0)

/-- PREPAY (R57, R218, R219). -/
def execPrepay (g : BitVec 4) (d : BitVec 6) (p : BitVec 3) (a b c : Sel) (s : State) :
    Host.Outcome State Fault Refusal :=
  issueOp (.prepay g d p a b c) (ownChk a)
    (fun s => s.withOwn a (fun r =>
      let m := s.src b
      let (t, st) := prepayEffect s r (field m 0 32) (field m 32 32) (s.src c).toNat
      t.landRent 4 d p st 0)) s

/-- A live launch by its LAUNCHID (R135). -/
def State.byLaunchId (s : State) (w : Word) : Option Launch :=
  s.launches.find? (fun l => l.state != .retired && l.fn == field w 32 32 && l.serial == field w 0 32)

/-- Contexts of a launch (R23). -/
def Launch.contexts (l : Launch) : Nat := l.gangs * l.cpg * l.cpc

/-- The launch or LINDEX a SUBLET names, if it exists (R219). -/
def State.granteeOf (s : State) (r : Region) (l : Bool) (w : Word) : Option Nat :=
  if l then
    match s.byLaunchId w with
    | some x => if x.fn == r.fn then some x.id else none
    | none => none
  else if w.toNat < ((s.launch? r.owner).map (·.contexts)).getD 0 then some w.toNat else none

/-- SUBLET's status (R59, R219). -/
def subletStatus (s : State) (r : Region) (l : Bool) (base len until_ : Nat) (w : Word) : Status :=
  match s.granteeOf r l w with
  | none => 4
  | some x =>
      if base % 64 ≠ 0 ∨ len % 64 ≠ 0 ∨ len = 0 ∨ base < r.base ∨ r.base + r.len < base + len
          ∨ until_ ≤ s.now ∨ r.until_ < until_ then 4
      else if 15 ≤ r.subs.length then 3
      else if l && (64 ≤ s.entriesOf x || s.rangeTaken x base len) then 3 else 0

/-- SUBLET (R59, R218, R219): the rights are granted when the result lands (R254). -/
def execSublet (g : BitVec 4) (l : Bool) (gr d : BitVec 6) (p : BitVec 3) (a b c : Sel) (s : State) :
    Host.Outcome State Fault Refusal :=
  issueOp (.sublet g l gr d p a b c) (ownChk a)
    (fun s => s.withOwn a (fun r =>
      let base := (s.src a).toNat
      let len := (s.src b).toNat
      let until_ := (s.src c).toNat
      let w := s.me.bank.getS gr.toNat
      let st := subletStatus s r l base len until_ w
      match st, s.granteeOf r l w with
      | 0, some x =>
          let u : Sublet := { base := base, len := len, until_ := until_, grantee := x, toLaunch := l }
          ((s.updRegion r.id (fun y => { y with subs := y.subs ++ [u] })).land 4
            [.sublet r.id base len until_ x l]).landRent 4 d p 0 base
      | _, _ => s.landRent 4 d p st 0)) s

/-- The landing of a SUBLET: the grant holds from now on, unless it has ended meanwhile (R254). -/
def grantSublet (s : State) (region base len until_ grantee : Nat) (toLaunch : Bool) : State :=
  let u : Sublet := { base := base, len := len, until_ := until_, grantee := grantee, toLaunch := toLaunch }
  match s.region? region with
  | none => s
  | some r =>
      if !r.subs.contains u then s
      else
        let who := endedSub r u
        let s := s.updRegion region (fun r => { r with subs := { u with granted := true } :: r.subs.erase u })
        { s with ended := s.ended.filter (fun e =>
            !(e.launch == who.launch && e.lindex == who.lindex && meets e.base e.len base len)) }

/-- What stands against VACATE (R60, R219): another address than a base of a held region. -/
def vacateChk (subs : Bool) (a : Sel) (s : State) : Chk :=
  let at_ := (s.src a).toNat
  match s.ownAt s.whoMe at_ with
  | .own r =>
      faultIf (if subs then !r.subs.any (fun u => u.base == at_) else r.base != at_) (s.flt .region (s.src a))
  | .fault _ => { fault := some (s.flt .region (s.src a)) }
  | .pend b => { block := some (some (.pending b)) }

/-- The refund of a vacated region (R60). -/
def State.refundOf (s : State) (r : Region) : Nat :=
  (r.until_ - s.now - 1) * r.len * s.rate r.tier * s.refund / 256

/-- VACATE (R60, R218, R219). -/
def execVacate (g : BitVec 4) (subs : Bool) (d : BitVec 6) (a : Sel) (s : State) :
    Host.Outcome State Fault Refusal :=
  issueOp (.vacate g subs d a) (vacateChk subs a)
    (fun s => s.withOwn a (fun r =>
      if subs then
        ((r.subs.filter (fun u => u.base == (s.src a).toNat)).foldl (fun s u => endSublet s r u) s).landS 4 d 0
      else
        let v := s.refundOf r
        ((endRegion s r).updLaunch r.owner (fun l => { l with purse := l.purse + v })).landS 4 d
          (BitVec.ofNat 64 v))) s

/-! ## HANDOVER (R61, R62, R281) -/

/-- What a HANDOVER finds at the launch it names. -/
inductive Succ
  /-- The successor, which lists this launch. -/
  | found (l : Launch)
  /-- Its entry has not been read yet (R281). -/
  | unread
  | none
  deriving DecidableEq, Repr

/-- The successor a LAUNCHID names (R219, R281): an entry ahead of READ in its queue is still unread. -/
def State.successor (s : State) (me : Launch) (w : Word) : Succ :=
  match s.byLaunchId w with
  | some l => if l.fn == me.fn && l.deps.any (fun d => d.1 == me.serial) then .found l else .none
  | none =>
      let q := (s.fn me.fn).q (field w 24 8)
      let ahead := (field w 0 24 + 2 ^ 24 - q.read.toNat % 2 ^ 24) % 2 ^ 24
      if field w 32 32 = me.fn ∧ field w 28 4 = 0 ∧ ahead < 2 ^ 23 ∧ !q.stop then .unread else .none

/-- Whether a live barrier cell is bound in a region (R51). -/
def State.synced (s : State) (r : Region) : Bool := s.barriers.any (fun b => b.region == r.id && !b.broken)

/-- Whether a placed launch has no range entry left for a region that it has none pending for (R2, R51). -/
def State.noEntry (s : State) (l : Launch) (r : Region) : Bool :=
  l.state != .read && !s.pendings.any (fun p => p.launch == l.id && p.region == r.id && !p.failed)
    && decide (64 ≤ s.entriesOf l.id)

/-- What a HANDOVER of a region can do now, where `quiet` tells whether the context's own writes before it are complete:
none, it still waits; else its status (R61, R219, R281). As a release it waits for the context's own ACCST and TST
writes, too, and for every T operation on the region (R245, R251, log 90). SYNC goes before NOSUCC, and neither waits for
the transfers (log 15, DESIGN CHOICE); a successor that has no range entry left is none (R2; log 91, DESIGN CHOICE). -/
def handoverStatus (s : State) (quiet : Bool) (r : Region) (w : Word) : Option (Status × Option Launch) :=
  let me := (s.launch? r.owner).getD { id := 0, fn := 0 }
  if s.synced r then some (6, none)
  else match s.successor me w with
    | .none => some (7, none)
    | .unread => none
    | .found l =>
        if !(s.inTransfer r = 0 && !s.tileTouches r && quiet) then none
        else if s.noEntry l r then some (7, none)
        else some (0, some l)

/-- Whether no write of a context from before an effect held as number `seq` is still to come (R246). -/
def Ctx.quietBefore (x : Ctx) (inst seq : Nat) : Bool :=
  !x.queue.any (fun o => o.inst == inst && o.ranges.any (·.write))
    && !(x.myHeld inst).any (fun h => decide (h.seq < seq))

/-- Whether no write of the context that is in the slot now is still to come. -/
def Ctx.quiet (x : Ctx) : Bool := x.quietBefore x.inst x.heldSeq

/-- What stands against HANDOVER: it waits while it can neither complete nor fail (R61, R281). -/
def handoverChk (a b : Sel) (s : State) : Chk :=
  match s.ownAt s.whoMe (s.src a).toNat with
  | .own r => if (handoverStatus s s.me.quiet r (s.src b)).isSome then {} else { block := some (some (.handover r.id (s.src b))) }
  | _ => ownChk a s

/-- Every context of a launch is still to make its first access to a region that was handed over to it (R61, R245). -/
def freshFor (s : State) (l r : Nat) : State :=
  s.slots.foldl (fun s p => s.updCtx p.1 p.2 (fun x => if x.launch = l then { x with fresh := r :: x.fresh } else x)) s

/-- The hand-over of a region to a launch (R61, R62, R281). Nothing is in transfer to or from it any more. -/
def passRegion (s : State) (r : Region) (l : Launch) : State :=
  let s := r.subs.foldl (fun s u => endSublet s r u) s
  let s := settleHeld (endRange s r r.base r.len) r.pieces true
  let s := s.updRegion r.id (fun x => { x with
    owner := l.id, launchScope := true, prepay := none, subs := [], unmapped := l.state == .read, handed := true })
  freshFor { s with
    ended := s.ended ++ [endedOwn r]
    pendings := s.pendings.filter (fun p => !(p.launch == l.id && p.region == r.id)) } l.id r.id

/-- The issuing context waits for a HANDOVER that the accesses of its own bundle hold back (R61, R246). -/
def waitHandover (s : State) (r : Region) (w a : Word) (d : BitVec 6) (p : BitVec 3) : State :=
  let q := s.pair p
  let s := holdEff s s.issue.core s.issue.ctx [] (.handover r.id w a d.toNat q.1 q.2)
  let s := s.updMe (fun x => { x with state := .waiting, wait := some (.handover r.id w) })
  if s.issue.partner then s else s.updMyCore (fun c => { c with latches := [] })

/-- HANDOVER (R61, R218, R219): its result lands one cycle after it completes. Accesses of its own bundle come before it:
where they hold it back, its context waits behind the bundle (R246; log 102, DESIGN CHOICE). -/
def execHandover (g : BitVec 4) (d : BitVec 6) (p : BitVec 3) (a b : Sel) (s : State) :
    Host.Outcome State Fault Refusal :=
  issueOp (.handover g d p a b) (handoverChk a b)
    (fun s => s.withOwn a (fun r =>
      match handoverStatus s s.me.quiet r (s.src b) with
      | some (st, some l) => (passRegion s r l).landRent 1 d p st 0
      | some (st, none) => s.landRent 1 d p st 0
      | none => waitHandover s r (s.src b) (s.src a) d p)) s

/-- The result of a HANDOVER that was held back lands in the next cycle, in the view of the context that issued it. -/
def Ctx.landHeld (x : Ctx) (inst : Nat) (f : Flight) : Ctx :=
  if x.inst = inst then { x with flight := addFlight x.flight f }
  else { x with tail := x.tail.map (fun t => { t with view := t.view.map (fun v =>
    if v.inst = inst then { v with flight := v.flight ++ [f] } else v) }) }

/-- A HANDOVER of slot `j` of core `k` that was held back completes, or raises EXPIRED where its region's lease has ended
(R61, R64, R219, R246). -/
def endHandover (s : State) (k j : Nat) (h : Held) (r : Nat) (w a : Word) (d pos neg : Nat) : State :=
  let x := s.ctx k j
  let go (s : State) : State := s.updCtx k j (fun x => { x with
    held := x.held.filter (fun g => g.seq != h.seq)
    state := if x.wait = some (.handover r w) then .ready else x.state
    wait := if x.wait = some (.handover r w) then none else x.wait })
  let land (s : State) (st : Status) : State :=
    let ones := BitVec.allOnes 128
    let ls : List Land := [.s d (BitVec.ofNat 64 st) (BitVec.allOnes 64), .p pos (if st = 0 then ones else 0) ones
      , .p neg (if st = 0 then 0 else ones) ones]
    s.updCtx k j (fun x => x.landHeld h.inst { due := (s.core k).ic + 1, at_ := (s.core k).ic, lands := ls })
  match (s.region? r).filter (fun y => y.owner == x.launch) with
  | none =>
      if x.state = .empty then go s
      else (go s).trap k j false false { cause := .expired, addr := a } x.pc x.rep
  | some y =>
      match handoverStatus s (x.quietBefore h.inst h.seq) y w with
      | none => s
      | some (st, some l) => (land (go (passRegion s y l)) st).drain k j
      | some (st, none) => (land (go s) st).drain k j

/-- HANDOVERs that were held back and can complete now do. -/
def endHandovers (s : State) : State :=
  (s.cores.map (·.1)).foldl (fun s k => if isParked k then s else [0, 1, 2, 3].foldl (fun s j =>
    let x := s.ctx k j
    if x.out then s
    else match x.held.find? Held.isHandover with
      | some h => (match h.eff with
          | .handover r w a d pos neg => endHandover s k j h r w a d pos neg
          | _ => s)
      | none => s) s) s

/-! ## LEASE (R53, R219) -/

/-- Whether a region counts as shared (R51): a home other than a core on which a holder runs, too. -/
def State.sharedRegion (s : State) (r : Region) : Bool :=
  r.launchScope || r.subs.any (·.granted)
    || s.slots.any (fun p =>
      let x := s.ctx p.1 p.2
      r.heldBy { launch := x.launch, lindex := x.lindex } && r.pieces.any (fun q => match dpaHome q.1 with
        | some (_, h) => h != p.1
        | none => false))

/-- A lease word (R53), of a sublet or of the region itself. -/
def leaseWord (s : State) (r : Region) (u : Option Sublet) (pending : Bool) : Word :=
  let until_ := match u with
    | some u => u.until_
    | none => r.until_
  let own := u.isNone
  put [(16, until_), (12, min 15 (s.inTransfer r))
      , (11, b2n (overlaps (granulesOf r.tier r.pieces) s.scrubs)), (10, b2n pending), (9, b2n (own && r.rltrap))
      , (8, b2n (own && r.rlow)), (7, b2n u.isSome), (6, b2n (own && r.prepay.isSome)), (5, b2n (s.synced r))
      , (4, b2n (s.sharedRegion r)), (2, r.kind), (0, r.tier)]

/-- What LEASE finds: the word of the sublet through which the context holds the address, else that of
the region (R219); a pending range gives the word of the region it waits for, with PENDING. -/
def leaseAt (s : State) (w : Who) (a : Nat) : Option Word :=
  match s.regions.findSome? (fun r => (r.subFor w a).map (fun u => (r, u))) with
  | some (r, u) => some (leaseWord s r (some u) false)
  | none =>
      match s.regions.find? (fun r => within a r.base r.len && r.heldBy w) with
      | some r => some (leaseWord s r none false)
      | none =>
          match s.pendings.find? (fun p => p.launch == w.launch && !p.failed && within a p.base p.len) with
          | some p => (s.region? p.region).map (fun r => leaseWord s r none true)
          | none => none

/-- What stands against LEASE: another address than one the context holds raises REGION, one of a lease that has ended
or of a failed hand-over EXPIRED (R62, R63, R219). -/
def leaseChk (a : Sel) (s : State) : Chk :=
  if (leaseAt s s.whoMe (s.src a).toNat).isSome then {}
  else match s.ownAt s.whoMe (s.src a).toNat with
    | .fault .expired => { fault := some (s.flt .expired (s.src a)) }
    | _ => { fault := some (s.flt .region (s.src a)) }

/-- LEASE (R53, R218, R219). -/
def execLease (g : BitVec 4) (d : BitVec 6) (a : Sel) (s : State) : Host.Outcome State Fault Refusal :=
  issueOp (.lease g d a) (leaseChk a)
    (fun s => s.landS 4 d ((leaseAt s s.whoMe (s.src a).toNat).getD 0)) s

/-! ## Events of the rent clock -/

/-- The number of the caller whose view a deferred tail keeps (R38). -/
def Ctx.callerInst (x : Ctx) : Option Nat := (x.tail.bind (·.view)).map (·.inst)

/-- The slot of the context that rented a region, or of a deferred tail whose caller did, if it has not ended
(R58). -/
def State.renterSlot (s : State) (r : Region) : Option (Nat × Nat) :=
  [r.renterAt.1, parkKey r.renterLaunch r.renterAt.1].findSome? (fun k =>
    let x := s.ctx k r.renterAt.2
    if x.state != .empty && x.launch == r.renterLaunch && x.lindex == r.renter
        && (x.inst == r.renterInst || x.callerInst == some r.renterInst) then some (k, r.renterAt.2) else none)

/-- A rent-low trap becomes due in a context: in the caller's view, where the caller rented the region and a deferred
tail runs in its slot (R38, R58). -/
def Ctx.dueLow (x : Ctx) (inst base : Nat) : Ctx :=
  if x.inst = inst then { x with rentLow := x.rentLow ++ [base] }
  else { x with tail := x.tail.map (fun t => { t with
    view := t.view.map (fun v => { v with rentLow := v.rentLow ++ [base] }) }) }

/-- A rent-low event (R58). -/
def rentLow (s : State) (r : Region) : State :=
  let s := s.updRegion r.id (fun x => { x with rlow := true })
  match s.renterSlot r with
  | some (k, j) => if r.rltrap then s.updCtx k j (fun x => x.dueLow r.renterInst r.base) else s
  | none => s

/-- PREPAY_RENEWAL (R57): at the start of a tick, an order that is due renews its region, or is cancelled
with a rent-low event. -/
def execPrepayRenewal (region : Nat) (s : State) : Host.Outcome State Fault Refusal :=
  .next (match s.region? region with
    | none => s
    | some r =>
        match r.prepay with
        | none => s
        | some o =>
            if o.margin ≤ r.until_ - s.now then s
            else
              let cost := s.charge r.tier r.len o.step
              if s.canPay r.owner cost && cost ≤ o.ceiling && r.until_ + o.step ≤ lastTick then
                (s.updRegion region (fun x => { x with
                  until_ := x.until_ + o.step, prepay := some { o with ceiling := o.ceiling - cost } })).pay
                  r.owner cost
              else rentLow (s.updRegion region (fun x => { x with prepay := none })) r)

/-- RENT_LOW_EVENT (R58). -/
def execRentLowEvent (region : Nat) (s : State) : Host.Outcome State Fault Refusal :=
  .next (match s.region? region with
    | none => s
    | some r => if r.prepay.isNone && !r.rlow && r.until_ - s.now < s.rlowm then rentLow s r else s)

/-- Take the rent-low trap that is due (R58): SOFT with RL set and TRAPADDR the region's base, at the
bundle about to issue. No slot detects it: TRAPINFO.SLOT is 0 (log 81, DESIGN CHOICE). -/
def takeRentLow (s : State) (k j : Nat) (partner : Bool) : State :=
  let x := s.ctx k j
  match x.rentLow with
  | [] => s
  | b :: r =>
      (s.updCtx k j (fun x => { x with rentLow := r })).trap k j false partner
        { cause := .soft, addr := BitVec.ofNat 64 b, slot := 0, rl := true } x.pc x.rep

/-- RENT_LOW_TRAP (R58): taken outside a handler. -/
def execRentLowTrap (core slot : Nat) (s : State) : Host.Outcome State Fault Refusal :=
  .next (if (s.ctx core slot).trap.isIn then s else takeRentLow s core slot false)

/-- SCRUB_COMPLETE (R53, R66): a granule's scrub is over. -/
def execScrubComplete (granule : Nat) (s : State) : Host.Outcome State Fault Refusal :=
  .next { s with scrubs := s.scrubs.filter (· != granule) }

end Sys2Proof.Machine
end

