-- ==== Sys2Proof/Machine/Engine.lean ====
section
/-!
DEFINITION. The matrix engine and the tile unit: when a queued operation starts (R117, R174, R176, R185),
what it computes then (R87 to R90, R175, R182 to R188, R191), its wait for a page (R301, R304), and its
completion (R117, R176, R189).
-/
namespace Sys2Proof.Machine

/-! ## What an engine reads -/

/-- `n` bytes of free values (log 16). -/
def freeBytes (s : State) (n : Nat) : State × List Byte :=
  let r := (List.range ((n + 7) / 8)).foldl (fun (acc : State × List Byte) _ =>
    let d := acc.1.drawFree
    (d.1, acc.2 ++ toBytes 8 d.2.toNat)) (s, [])
  (r.1, r.2.take n)

/-- Device-physical bytes an engine of core `k` reads in a view for slot `j`; every unit is checked, and a poisoned unit gives free
values (R330, log 16). -/
def engRead (s : State) (k j : Nat) (swz : Bool) (a n : Nat) : State × List Byte :=
  let t := s.checkRead a n
  match s.poisonIn a n with
  | some _ => freeBytes t n
  | none => readPad t k j a n swz

/-- Bytes of a contiguous device-physical range, unit by unit; in the swizzled view each unit lies where R68
puts it. -/
def engBytes (s : State) (k j : Nat) (swz : Bool) (a n : Nat) : State × List Byte :=
  (unitsOf a n).foldl (fun (acc : State × List Byte) u =>
    let r := engRead acc.1 k j swz (if swz then swizzle u.1 else u.1) u.2
    (r.1, acc.2 ++ r.2)) (s, [])

/-- The part of a row of `len` bytes that lies in the bytes `[lo, hi)` of an operation's order, row `i` of it: its first
byte and how many there are (R304). -/
def rowPart (lo hi i len : Nat) : Nat × Nat :=
  let x := max lo (i * len)
  (x - i * len, min hi ((i + 1) * len) - x)

/-- The bytes of a row that TLD or ACCLD reads, with the context's own held stores over them (R189); a
byte that is not there any more reads as zero. -/
def rowLoad (s : State) (k j inst : Nat) (p : Acc) (swz : Bool) (a n : Nat) : State × List Byte :=
  let w := s.who k j
  let hs := (s.ctx k j).myHeld inst
  (unitsOf a n).foldl (fun (acc : State × List Byte) u =>
    match dpaOf acc.1 k w p false u.1 with
    | none => (acc.1, acc.2 ++ List.replicate u.2 0)
    | some h =>
        let s := firstTouch (fillTlb acc.1 w h u.1) k j h
        let d := if swz then swizzle h.dpa else h.dpa
        let r := engRead s k j swz d u.2
        (r.1, acc.2 ++ overHeld hs d r.2)) (s, [])

/-- The writes of a row that TST or ACCST stores. -/
def rowStore (s : State) (k j : Nat) (p : Acc) (swz : Bool) (a : Nat) (bs : List Byte) :
    State × List QWrite :=
  let w := s.who k j
  (unitsOf a bs.length).foldl (fun (acc : State × List QWrite) u =>
    match dpaOf acc.1 k w p true u.1 with
    | none => acc
    | some h =>
        let s := firstTouch (fillTlb acc.1 w h u.1) k j h
        (s, acc.2 ++ [.mem u.1 (if swz then swizzle h.dpa else h.dpa) h.gpa ((bs.drop (u.1 - a)).take u.2)]))
    (s, [])

/-- Element codes of type `t` in bytes, low nibble first for e2m1 (R76). -/
def codesOf (t : Ty) (bs : List Byte) : List Nat :=
  if t.width = 4 then bs.flatMap (fun b => [b.toNat % 16, b.toNat / 16])
  else (chunk (t.width / 8) bs.length bs).map ofBytes

/-- Bytes of element codes of type `t`. -/
def codeBytes (t : Ty) (l : List Nat) : List Byte := l.flatMap (toBytes (t.width / 8))

/-! ## Accumulators -/

/-- The element type of a binding (R179). -/
def AccBind.ty (b : AccBind) : Ty := if b.i32 then .i32 else .f32

/-- Row `i` of a binding, `n` elements from column `c`. -/
def accRow (s : State) (k j : Nat) (b : AccBind) (i c n : Nat) : State × List Nat :=
  let r := engBytes s k j false (b.dpa + 4 * (i * b.cols + c)) (4 * n)
  (r.1, codesOf .i32 r.2)

/-- The write of elements of row `i` from column `c`. -/
def accWrite (b : AccBind) (i c : Nat) (l : List Nat) : QWrite :=
  let o := 4 * (i * b.cols + c)
  .mem (b.base + o) (b.dpa + o) none (codeBytes .i32 l)

/-- The writes of several rows, each computed from the row as it stands. -/
def accRows (s : State) (k j : Nat) (b : AccBind) (rows : List Nat) (c n : Nat)
    (f : Nat → List Nat → List Nat) : State × List QWrite :=
  rows.foldl (fun (acc : State × List QWrite) i =>
    let r := accRow acc.1 k j b i c n
    (r.1, acc.2 ++ [accWrite b i c (f i r.2)])) (s, [])

/-! ## Matrix products (R87 to R90, R182, R183) -/

/-- The active mask of a core: the layers neither fused off nor throttled (R87, R321, R322). -/
def CoreSt.activeMask (c : CoreSt) : BitVec 4 := ~~~(c.fused ||| c.thr)

/-- The layers of a mask (R87). -/
def layerCount (m : BitVec 4) : Nat := ([0, 1, 2, 3].filter (fun i => m.getLsbD i)).length

/-- MSTAT after a matrix operation starts (R91). -/
def mstatNext (old : Word) (nar : Bool) (m : BitVec 4) : Word :=
  put [(16, (field old 16 16 + 1) % 65536), (7, b2n nar), (4, layerCount m), (0, m.toNat)]

/-- Terms of one layer's K-group (R88): products, or blocks of eight for e2m1. -/
def layerTerms (f : MFmt) : Nat :=
  match f with
  | .bf16 | .f16 => 4
  | .e4m3 | .e5m2 | .i8 => 8
  | .fp4 => 2

/-- An operand: the codes of each row, and for e2m1 the block scales of each row and the band scales. -/
structure MatOp where
  rows   : List (List Nat)
  scales : List (List FV) := []
  bands  : List FV := []
  deriving DecidableEq, Repr

/-- The block-scale byte of the codes at a linear scratchpad address, as (address) where the bank has a
scale plane above it (R69, R183). -/
def scaleAt (fmts : Tbl Word) (lin : Nat) : Option Nat :=
  let off := lin % 262144
  let f := Tbl.getD fmts (lin / 262144 % 32) 0
  if bit f 4 && off < field f 8 12 * 64 then some (lin - off + field f 8 12 * 64 + off / 4) else none

/-- A ring slot as an operand of `rows` rows of K (R175, R183), read for slot `j`. -/
def slotOp (s : State) (own j : Nat) (fmts : Tbl Word) (f : MFmt) (a rows k : Nat) : State × MatOp :=
  let t := mfmtTy f
  let rb := k * t.width / 8
  let (s, bs) := engBytes s own j true a (rows * rb)
  let codes := chunk k rows (codesOf t bs)
  if f ≠ .fp4 then (s, { rows := codes })
  else
    let (s, tr) := engBytes s own j true (a + rows * rb) 8
    let (s, sc) := (List.range (rows * k / 8)).foldl (fun (acc : State × List FV) i =>
      match scaleAt fmts (swizzle (a + 4 * i)) with
      | none => (acc.1, acc.2 ++ [decodeF .e3m5 0])
      | some u =>
          let r := engRead acc.1 own j true u 1
          (r.1, acc.2 ++ [decodeF .e3m5 (ofBytes r.2)])) (s, [])
    (s, { rows := codes, scales := chunk (k / 8) rows sc, bands := (codesOf .bf16 tr).map (decodeF .bf16) })

/-- A tile as an operand (R182). -/
def tileOp (b : Bank) (f : MFmt) (t rows k : Nat) : MatOp :=
  { rows := ((b.rows t).take rows).map (fun v => (elems (mfmtTy f).width v).take k) }

/-- The terms of one output element (R88). -/
def termsOf (f : MFmt) (a b : MatOp) (i j : Nat) : List FV :=
  let ra := ((a.rows[i]?).getD []).map (decodeF (mfmtTy f))
  let rb := ((b.rows[j]?).getD []).map (decodeF (mfmtTy f))
  let ps := List.zipWith (fun x y => (mulF x y).1) ra rb
  if f ≠ .fp4 then ps
  else
    let sums := (chunk 8 ps.length ps).map (fun l => (sumF l .rne).1)
    let sc := List.zipWith (fun x y => (mulF x y).1) ((a.scales[i]?).getD []) ((b.scales[j]?).getD [])
    let zero := decodeF .bf16 0
    let band := (mulF ((a.bands[i / 64]?).getD zero) ((b.bands[j / 64]?).getD zero)).1
    List.zipWith (fun x y => (mulF (mulF x y).1 band).1) sums sc

/-- One output element (R89, R90). -/
def mmaElem (f : MFmt) (d : Nat) (a b : MatOp) (i j acc : Nat) : Nat :=
  if f = .i8 then
    let p := List.zipWith (fun x y => intOf .i8 x * intOf .i8 y) ((a.rows[i]?).getD []) ((b.rows[j]?).getD [])
    codeOf .i32 (p.foldl (· + ·) (intOf .i32 acc))
  else
    let ts := termsOf f a b i j
    accumulate d (layerTerms f) acc (ts.map (fun v => (v, false))) ts.length

/-- The reads of a ring slot that MMAG operations of one bundle make on core `own`, in the gang they issued in (R185). -/
def State.readersOf (s : State) (own : Nat) (gang : Option (Nat × Nat)) (isB : Bool) (gid : Nat) : Nat :=
  let ms := match gang with
    | some (first, n) => (List.range n).map (first + ·)
    | none => [own]
  (ms.filter (fun m => (s.ctx m 0).queue.any (fun o =>
    o.gid == gid && ringCore true m o.gang isB == own &&
    (match o.i with
     | .mmag _ _ _ a b _ _ _ _ _ _ => (match (if isB then b else a) with
         | .ring _ => true
         | .tile _ => false)
     | _ => false)))).length

/-- Key of a member's read of a slot: its issue and the operand. -/
def readKey (gid : Nat) (isB : Bool) : Nat := 2 * gid + (if isB then 1 else 0)

/-- Whether a matrix operation of core `k` may start as far as one operand goes (R176, R181, R185). -/
def operandReady (s : State) (k : Nat) (o : QOp) (mmag isB : Bool) (x : MOp) : Bool :=
  match x with
  | .tile _ => true
  | .ring r =>
      let own := ringCore mmag k o.gang isB
      let g := (s.core own).rng r.toNat
      if own = k then !g.set || g.inuse < g.full
      else if !g.set && g.removed then true
      else if g.reads.any (fun x => x.1 == readKey o.gid isB) then true
      else !(s.ctx own 0).queue.any (fun p => p.gid == o.gid && !p.started && overlaps [mopTag x] p.srcs)
        && (!g.set || g.inuse < g.full)

/-- Whether both operands of an operation of core `k` read one ring: one slot, which is popped once (R176, R182). -/
def sameRing (k : Nat) (o : QOp) (mmag : Bool) (a b : MOp) : Bool :=
  match a, b with
  | .ring x, .ring y => x == y && ringCore mmag k o.gang false == ringCore mmag k o.gang true
  | _, _ => false

/-- Take the slot of one operand at a start: the device-physical address, on the core that has it, and what
the completion does to the ring (R176, R185). -/
def takeSlot (s : State) (k : Nat) (o : QOp) (mmag isB : Bool) (x : MOp) (pop : Bool) :
    State × Option (Nat × Nat) × List QWrite :=
  match x with
  | .tile _ => (s, none, [])
  | .ring r =>
      let own := ringCore mmag k o.gang isB
      let g := (s.core own).rng r.toNat
      let key := readKey o.gid isB
      if !g.set then (s, none, [])
      else if own = k then
        let slot := (g.head + g.inuse) % g.slots
        let at_ := g.dpa + slot * g.slotb
        let s := s.updRing k r.toNat (fun g => { g with
          inuse := if pop then g.inuse + 1 else g.inuse
          reads := if mmag then (key, slot, s.readersOf own o.gang isB o.gid, pop) :: g.reads else g.reads })
        (s, some (own, at_), if mmag then [.readDone own r.toNat key] else if pop then [.pop r.toNat g.gen] else [])
      else
        match g.reads.find? (fun y => y.1 == key) with
        | some (_, slot, _, _) => (s, some (own, g.dpa + slot * g.slotb), [.readDone own r.toNat key])
        | none => (s, some (own, g.dpa + (g.head + g.inuse) % g.slots * g.slotb), [])

/-- The operand a form names, once its slot is taken; none where its ring is gone (R181). -/
def readOperand (s : State) (j k inst : Nat) (fmts : Tbl Word) (f : MFmt) (x : MOp) (slot : Option (Nat × Nat))
    (rows kd : Nat) : State × Option MatOp :=
  match x, slot with
  | .tile t, _ => (s, some (tileOp ((s.ctx k j).bankOf inst) f t.toNat rows kd))
  | .ring _, some (own, a) =>
      let r := slotOp s own j fmts f a rows kd
      (r.1, some r.2)
  | .ring _, none => (s, none)

/-- What a matrix operation does when it starts (R182): MSTAT, the slots it takes, and the writes of its
completion. -/
def startMma (s : State) (k j : Nat) (o : QOp) (mmag : Bool) (f : MFmt) (a b : MOp) (m n kd : Nat)
    (pa pb z : Bool) : State × List QWrite :=
  let msk := (s.core k).activeMask
  let s := s.updCtx k j (fun x => x.updBankOf o.inst (fun b => { b with mstat := mstatNext b.mstat (s.narrow k) msk }))
  let one := sameRing k o mmag a b
  let (s, sb, wb) := takeSlot s k o mmag true b (pb && !one)
  let (s, sa, wa) := takeSlot s k o mmag false a (pa || (pb && one))
  match o.bind_ with
  | none => (s, wa ++ wb)
  | some bd =>
      if bd.removed then (s, wa ++ wb)
      else
        let (s, oa) := readOperand s j k o.inst o.fmts f a sa m kd
        let (s, ob) := readOperand s j k o.inst o.fmtsB f b sb n kd
        match oa, ob with
        | some oa, some ob =>
            let (s, ws) := accRows s k j bd (List.range m) 0 n (fun i row =>
              row.zipIdx.map (fun x => mmaElem f (layerCount msk) oa ob i x.2 (if z then 0 else x.1)))
            (s, ws ++ wa ++ wb)
        | _, _ => (s, wa ++ wb)

/-! ## What the other operations compute (R186 to R188, R191) -/

/-- Flags as a write, if there are any. -/
def flagWrite (f : Flags) : List QWrite := if f = 0 then [] else [.flags (BitVec.ofNat 64 f)]

/-- ACCST of a binding, the bytes `[lo, hi)` of its order (R186, R304). -/
def startAccst (s : State) (k j : Nat) (o : QOp) (b : AccBind) (t : Ty) (rc : Rc) (ns : Bool) (lo hi : Nat) :
    State × List QWrite :=
  let es := t.width / 8
  let r := ((rowsAt o.a o.b b.rows).zipIdx).foldl (fun (acc : State × List QWrite × Flags) x =>
    let (p, n) := rowPart lo hi x.2 (es * b.cols)
    if n = 0 then acc
    else
      let c := p / es
      let (s, row) := accRow acc.1 k j b x.2 c ((p + n + es - 1) / es - c)
      let l := convAll t b.ty rc o.rm ns (o.draws.drop (x.2 * b.cols + c)) row
      let (s, ws) := rowStore s k j .acc false (x.1 + p) (((codeBytes t (l.map (·.1))).drop (p - c * es)).take n)
      (s, acc.2.1 ++ ws, l.foldl (fun a x => a ||| x.2) acc.2.2)) (s, [], 0)
  (r.1, r.2.1 ++ flagWrite r.2.2)

/-- ACCMV from a binding to a tile (R187); a binding that is gone gives zeros (R181). -/
def startAccmvOut (s : State) (k j : Nat) (o : QOp) (t : Ty) (rc : Rc) (ns : Bool) (d : Nat) :
    State × List QWrite :=
  let w := accmvCols t
  let r := (List.range 32).foldl (fun (acc : State × List Vec × Flags) r =>
    match o.bind_ with
    | none => (acc.1, acc.2.1 ++ [0], acc.2.2)
    | some b =>
        let i := o.a.toNat + r
        let c := o.b.toNat
        if b.removed || b.rows ≤ i || b.cols ≤ c then (acc.1, acc.2.1 ++ [0], acc.2.2)
        else
          let (s, row) := accRow acc.1 k j b i c (min w (b.cols - c))
          let l := convAll t b.ty rc o.rm ns (o.draws.drop (r * w)) row
          (s, acc.2.1 ++ [ofElems t.width (l.map (·.1))], l.foldl (fun a x => a ||| x.2) acc.2.2)) (s, [], 0)
  (r.1, rowWrites d r.2.1 ++ flagWrite r.2.2)

/-- ACCMV from a tile to a binding (R187): its flags go with its completion (R78). -/
def startAccmvIn (s : State) (k j : Nat) (o : QOp) (b : AccBind) (t : Ty) (d : Nat) : State × List QWrite :=
  let c := o.b.toNat
  let rows := (List.range 32).filter (fun r => o.a.toNat + r < b.rows && c < b.cols)
  let out := rows.map (fun r =>
    (r, convAll b.ty t .rne 0 false [] ((elems t.width (((s.ctx k j).bankOf o.inst).row d r)).take
      (min (accmvCols t) (b.cols - c)))))
  (s, out.map (fun x => accWrite b (o.a.toNat + x.1) c (x.2.map (·.1)))
    ++ flagWrite (out.foldl (fun f x => x.2.foldl (fun f y => f ||| y.2) f) 0))

/-- ACCSCL (R188). -/
def startAccscl (s : State) (k j : Nat) (o : QOp) (b : AccBind) : State × List QWrite :=
  let rows := (List.range 32).filter (fun r => o.b.toNat + r < b.rows)
  accRows s k j b (rows.map (o.b.toNat + ·)) 0 b.cols (fun i row =>
    row.map (fun x => (mulC .f32 .rne x (lane o.vec (i - o.b.toNat))).1))

/-- ACCBIAS (R188). -/
def startAccbias (s : State) (k j : Nat) (o : QOp) (b : AccBind) : State × List QWrite :=
  let c := o.b.toNat
  if b.cols ≤ c then (s, [])
  else
    accRows s k j b (List.range b.rows) c (min 32 (b.cols - c)) (fun _ row =>
      row.zipIdx.map (fun x =>
        if b.i32 then (x.1 + lane o.vec x.2) % 2 ^ 32 else (addC .f32 .rne x.1 (lane o.vec x.2)).1))

/-- RINGSET (R174): the ring takes its new geometry when the operation starts; a ring whose region was lost
before that is removed (R63, R181). -/
def startRingset (s : State) (k j : Nat) (o : QOp) (r : Nat) : State :=
  let w := s.who k j
  let base := o.a.toNat
  let held := (unitsOf base (o.b.toNat * o.c.toNat)).all (fun u =>
    match byteRights s k w .tile u.1 false with
    | .hit _ => true
    | _ => false)
  let d := match byteRights s k w .tile base false with
    | .hit h => h.dpa
    | _ => 0
  s.updRing k r (fun g =>
    if held then { set := true, base := base, dpa := d, gen := g.gen + 1, slotb := o.b.toNat, slots := o.c.toNat }
    else { base := base, gen := g.gen + 1, removed := true })

/-- ACCLD into a live binding, the bytes `[lo, hi)` of its order (R186, R304). -/
def startAccld (s : State) (k j : Nat) (o : QOp) (b : AccBind) (lo hi : Nat) : State × List QWrite :=
  ((rowsAt o.a o.b b.rows).zipIdx).foldl (fun (acc : State × List QWrite) x =>
    let (p, n) := rowPart lo hi x.2 (4 * b.cols)
    if n = 0 then acc
    else
      let r := rowLoad acc.1 k j o.inst .acc false (x.1 + p) n
      let at_ := 4 * x.2 * b.cols + p
      (r.1, acc.2 ++ [.mem (b.base + at_) (b.dpa + at_) none r.2])) (s, [])

/-- TLD, the bytes `[lo, hi)` of its order (R191, R304). -/
def startTld (s : State) (k j : Nat) (o : QOp) (d lo hi : Nat) : State × List QWrite :=
  ((rowsAt o.a o.b 32).zipIdx).foldl (fun (acc : State × List QWrite) x =>
    let (p, n) := rowPart lo hi x.2 128
    if n = 0 then acc
    else
      let r := rowLoad acc.1 k j o.inst .tile true (x.1 + p) n
      (r.1, acc.2 ++ [.tileRow d x.2 (ofVecBytes (List.replicate p 0 ++ r.2 ++ List.replicate (128 - p - n) 0))
        (BitVec.ofNat 128 ((2 ^ n - 1) * 2 ^ p))])) (s, [])

/-- TST, the bytes `[lo, hi)` of its order (R191, R304). -/
def startTst (s : State) (k j : Nat) (o : QOp) (d lo hi : Nat) : State × List QWrite :=
  ((rowsAt o.a o.b 32).zipIdx).foldl (fun (acc : State × List QWrite) x =>
    let (p, n) := rowPart lo hi x.2 128
    if n = 0 then acc
    else
      let r := rowStore acc.1 k j .tile true (x.1 + p)
        (((vecBytes (((s.ctx k j).bankOf o.inst).row d x.2)).drop p).take n)
      (r.1, acc.2 ++ r.2)) (s, [])

/-- A form on a binding: nothing where the binding is gone (R63, R181). -/
def onBind (s : State) (o : QOp) (f : AccBind → State × List QWrite) : State × List QWrite :=
  match o.bind_ with
  | none => (s, [])
  | some b => if b.removed then (s, []) else f b

/-- What an operation does when it starts, and the writes of its completion; of one that reads or writes memory, the bytes
`[lo, hi)` of its order (R304). -/
def startOp (s : State) (k j : Nat) (o : QOp) (lo hi : Nat) : State × List QWrite :=
  match o.i with
  | .mma _ f _ a b m8 n16 k16 pa pb z => startMma s k j o false f a b (mDim m8) (nDim n16) (kDim k16) pa pb z
  | .mmag _ f _ a b m8 n16 k16 pa pb z => startMma s k j o true f a b (mDim m8) (nDim n16) (kDim k16) pa pb z
  | .ringset _ r .. => (startRingset s k j o r.toNat, [])
  | .accz .. => onBind s o (fun b =>
      (s, (List.range b.rows).map (fun i => accWrite b i 0 (List.replicate b.cols 0))))
  | .accld .. => onBind s o (fun b => startAccld s k j o b lo hi)
  | .accst _ t rc ns .. => onBind s o (fun b => startAccst s k j o b t rc ns lo hi)
  | .accmv _ t dir rc ns _ d .. =>
      if dir then onBind s o (fun b => startAccmvIn s k j o b t d.toNat)
      else startAccmvOut s k j o t rc ns d.toNat
  | .accscl .. => onBind s o (startAccscl s k j o)
  | .accbias .. => onBind s o (startAccbias s k j o)
  | .tld _ d .. => startTld s k j o d.toNat lo hi
  | .tst _ d .. => startTst s k j o d.toNat lo hi
  | _ => (s, tileWrites ((s.ctx k j).bankOf o.inst) o)

/-! ## Starting, waiting for a page, completing -/

/-- Whether the rings let an operation start: R174 for RINGSET, R176 and R185 for the matrix forms. -/
def ringsReady (s : State) (k : Nat) (o : QOp) : Bool :=
  match o.i with
  | .mma _ _ _ a b .. => operandReady s k o false false a && operandReady s k o false true b
  | .mmag _ _ _ a b .. => operandReady s k o true false a && operandReady s k o true true b
  | .ringset _ r .. =>
      ((s.core k).rng r.toNat).owed == 0 && !(List.range 16).any (fun ch => (((s.core k).chn ch).queue).any (fun c =>
        ringDst c.i == some r.toNat && c.gid < o.gid))
  | _ => true

/-- The cores whose scratchpads an operation of core `k` reads in the swizzled view (R68, R176, R185). -/
def swizzledReads (k : Nat) (o : QOp) : List Nat :=
  let of (mmag isB : Bool) (x : MOp) : List Nat :=
    match x with
    | .tile _ => []
    | .ring _ => [ringCore mmag k o.gang isB]
  match o.i with
  | .tld .. => [k]
  | .mma _ _ _ a b .. => of false false a ++ of false true b
  | .mmag _ _ _ a b .. => of true false a ++ of true true b
  | _ => []

/-- Whether a store that a view join before an operation came after is still held back on a core whose scratchpad the
operation reads in the swizzled view, which must show it (R249). -/
def joinedAhead (s : State) (k : Nat) (o : QOp) : Bool :=
  (swizzledReads k o).any (fun m => (s.core m).ctx.any (fun x => x.2.held.any (fun h => match h.eff with
    | .store ps _ (some key) => decide (key < o.gid) && ps.any (fun p => ownPad m p.1)
    | _ => false)))

/-- Whether an operation may start, or go on after a page request was answered. -/
def opReady (s : State) (k j : Nat) (o : QOp) : Bool :=
  let x := s.ctx k j
  match o.page with
  | some (n, _) => s.answered (s.fnOf x.launch) n
  | none => s.mayStart k j o && ringsReady s k o && !joinedAhead s k o

/-- The first byte of an operation's ranges that stage 2 or a poisoned table withholds: how many bytes come
before it in the operation's own order, its address, and what it gives. -/
def firstHeld (s : State) (k : Nat) (w : Who) : List Rng → Nat → Option (Nat × Nat × Xl)
  | [], _ => none
  | r :: l, n =>
      match (nonHits s k w r.p r.write r.a r.n).find? (fun x => match x.2 with
        | .miss .. | .s2bad .. | .tblPoison .. => true
        | _ => false) with
      | some (a, x) => some (n + (a - r.a), a, x)
      | none => firstHeld s k w l (n + r.n)

/-- Ranges without their first `n` bytes. -/
def skipRngs : List Rng → Nat → List Rng
  | [], _ => []
  | r :: l, n =>
      if n = 0 then r :: l
      else if r.n ≤ n then skipRngs l (n - r.n)
      else { r with a := r.a + n, n := r.n - n } :: l

/-- The first `n` bytes of ranges. -/
def takeRngs : List Rng → Nat → List Rng
  | [], _ => []
  | r :: l, n => if n = 0 then [] else { r with n := min r.n n } :: takeRngs l (n - r.n)

/-- The bytes of an operation's order. -/
def QOp.bytes (o : QOp) : Nat := o.ranges.foldl (fun n r => n + r.n) 0

/-- Take the tokens of the bytes of an operation from those it has done up to the first `n` (R342). -/
def payOp (s : State) (k j : Nat) (o : QOp) (n : Nat) : State × List Ticket :=
  let w := s.who k j
  (takeRngs (skipRngs o.ranges o.done) (n - o.done)).foldl (fun (acc : State × List Ticket) r =>
    let t := takeAll acc.1 (s.fnOf w.launch) (segsOf acc.1 k w r.p r.write r.a r.n)
    (t.1, acc.2 ++ t.2)) (s, o.due)

/-- An operation does its bytes from those it has done up to the first `n`: the state, and itself with their writes behind
the earlier ones and the units they wait for (R304, R342). -/
def upTo (s : State) (k j : Nat) (o : QOp) (n : Nat) : State × QOp :=
  let (s, due) := payOp s k j o n
  let (s, ws) := startOp s k j o o.done n
  (s, { o with first := o.first ++ ws, done := max n o.done, due := due })

/-- The context numbered `inst` is to escalate before its next bundle (R301, R309): with POISON or with XLATE. -/
def Ctx.escalates (x : Ctx) (inst : Nat) (poison : Bool) (a : Nat) : Ctx :=
  let e (o : Option (Bool × Word)) : Option (Bool × Word) := some (o.getD (poison, BitVec.ofNat 64 a))
  if x.inst = inst then { x with escNext := e x.escNext }
  else { x with tail := x.tail.map (fun t => { t with view := t.view.map (fun v =>
    if v.inst = inst then { v with escNext := e v.escNext } else v) }) }

/-- An operation whose page request was refused, or that meets a bad table, stops at the faulting byte, which `n` bytes
precede, at a whole element; it sets its tags, and its context escalates before its next bundle (R301): with XLATE and
the faulting byte `a`, or with POISON and its lowest byte (R309). -/
def stopOp (s : State) (k j : Nat) (o : QOp) (poison : Bool) (n a : Nat) : State :=
  let m := n / qElem o.i * qElem o.i
  let (s, o) := upTo s k j o m
  let s := s.finishOp k j { o with writes := cutWrites o.first m }
  s.updCtx k j (fun x => x.escalates o.inst poison
    (if poison then o.ranges.foldl (fun m r => min m r.a) a else a))

/-- Replace an operation in its context's queue. -/
def State.setOp (s : State) (k j : Nat) (o : QOp) : State :=
  s.updCtx k j (fun x => { x with queue := x.queue.map (fun p => if p.id == o.id then o else p) })

/-- The start of an operation, or its going on after a page wait from the byte it paused at (R117, R298, R304): what
comes before a missing byte is done, and a refused request stops it there. -/
def beginOp (s : State) (k j : Nat) (o : QOp) : State :=
  match firstHeld s k (s.who k j) (skipRngs o.ranges o.done) o.done with
  | some (n, a, .miss f g w) =>
      if s.noPages f then stopOp s k j o false n a
      else
        let (s, o) := upTo s k j o n
        let (s, id) := requestPage s f g w
        s.setOp k j { o with started := true, page := some (id, n, a, w) }
  | some (n, a, .s2bad f u) => stopOp (s.report (some (2, f, u))) k j o false n a
  | some (n, a, .tblPoison f u) => stopOp (s.report (some (3, f, u))) k j o true n a
  | _ =>
      let (s, o) := upTo s k j o o.bytes
      s.setOp k j { o with started := true, page := none, writes := o.first, first := [] }

/-- An operation of a context's queue by its number. -/
def State.op? (s : State) (k j n : Nat) : Option QOp := (s.ctx k j).queue.find? (fun o => o.id == n)

/-- QUEUED OPERATION START (R117): the operation starts if it may. -/
def execQueuedOpStart (core slot op : Nat) (s : State) : Host.Outcome State Fault Refusal :=
  .next (match s.op? core slot op with
    | some o => if opReady s core slot o then beginOp s core slot o else s
    | none => s)

/-- Whether the rings an operation pops at its completion let it complete: each moves its head at most once a cycle
(R176). -/
def popsFree (s : State) (o : QOp) (k : Nat) : Bool :=
  o.writes.all (fun w => match w with
    | .pop r _ => ((s.core k).rng r).popAt != s.cycle + 1
    | .readDone c r _ => ((s.core c).rng r).popAt != s.cycle + 1
    | _ => true)

/-- QUEUED OPERATION COMPLETE (R117, R176, R189): the writes of a started operation, its pops, its tags. -/
def execQueuedOpComplete (core slot op : Nat) (s : State) : Host.Outcome State Fault Refusal :=
  .next (match s.op? core slot op with
    | some o => if o.started && o.page.isNone && popsFree s o core then s.finishOp core slot o else s
    | none => s)

end Sys2Proof.Machine
end

