-- ==== Sys2Proof/Machine/Copy.lean ====
section
/-!
DEFINITION. The X class at issue (R197 to R217): operands, what is looked for (R198, R199, R204), and the
entry a command takes in its channel's queue.
-/
namespace Sys2Proof.Machine

/-! ## Operands (R108, R205) -/

/-- An address operand, with its step (R108). -/
def State.addrOp (s : State) (x : Sel) : Word := s.src x + s.stepped

/-- The destination of a copy: an address with its step; a ring has none. -/
def State.dstOp (s : State) (d : XDst) : Word :=
  match d with
  | .addr a => s.addrOp a
  | .ring _ => 0

/-- The staged operands of a command (R198, R205). -/
def State.xargs (s : State) (i : Instr) : XArgs :=
  let mk (a b c x : Word) (v : Vec := 0) : XArgs := { a := a, b := b, c := c, x := x, vec := v }
  match i with
  | .xcopy _ _ _ _ d b c none =>
      let a := s.dstOp d
      { mk a (s.addrOp b) (s.src c) 0 with
        src := copySource s s.issue.core s.whoMe (ringDst i) a (s.addrOp b) (s.src c).toNat }
  | .xcopy _ _ _ _ d b c (some x) => mk (s.dstOp d) (s.addrOp b) (s.src c) x
  | .xgather _ _ _ _ d b v _ => mk (s.dstOp d) (s.addrOp b) 0 0 (s.me.bank.getV v.toNat)
  | .xscatter _ _ _ _ a b v _ => mk (s.addrOp a) (s.addrOp b) 0 0 (s.me.bank.getV v.toNat)
  | .xacc _ _ _ _ _ a b c => mk (s.addrOp a) (s.addrOp b) (s.src c) 0
  | .xfetch _ _ _ _ a b c => mk (s.addrOp a) (s.src b) (s.src c) 0
  | .xcas _ _ _ a b c x => mk (s.addrOp a) (s.src b) (s.src c) x
  | .xfill _ _ _ _ a b c => mk (s.addrOp a) (s.src b) (s.src c) 0
  | .xexpand _ _ _ _ d b c => mk (s.dstOp d) (s.addrOp b) (s.src c) 0
  | .xsignal _ _ _ a b => mk (s.addrOp a) (s.src b) 0 0
  | .xorder _ _ _ b => mk 0 (s.src b) 0 0
  | .kvalloc _ _ a b => mk (s.src a) (s.src b) 0 0
  | .kvfree _ _ a => mk (s.src a) 0 0 0
  | .kvshare _ _ a b => mk (s.src a) (s.src b) 0 0
  | .kvappend _ _ _ a b c => mk (s.addrOp a) (s.src b) (s.src c) 0
  | .kvcommit _ _ _ a b => mk (s.src a) (s.src b) 0 0
  | .kvget _ _ _ d b c => mk (s.dstOp d) (s.src b) (s.src c) 0
  | .kvsum _ _ a b c => mk (s.addrOp a) (s.src b) (s.src c) 0
  | .xcoll _ _ _ _ _ a b c x => mk (s.addrOp a) (s.addrOp b) (s.src c) x
  | _ => mk 0 0 0 0

/-- The destination bytes of a command whose operands give them: the count that R204 looks at. -/
def xCount (i : Instr) (g : XArgs) : Option Nat :=
  match i with
  | .xcopy _ _ _ _ _ _ _ none | .xacc .. | .xfill .. | .xexpand .. | .xcoll .. => some g.c.toNat
  | .xgather _ _ _ _ _ _ _ n | .xscatter _ _ _ _ _ _ _ n => some ((n.toNat + 1) * esOf i)
  | .kvget .. => some (kvgetLen g.c)
  | _ => none

/-- What the count must be a multiple of (R204, R210). -/
def xUnit (i : Instr) : Nat :=
  match i with
  | .xexpand .. => 4 * esOf i
  | _ => esOf i

/-! ## Rings and occupancy (R198, R204) -/

/-- The RINGSETs of ring `r` that core `k` has queued and not started, as (issue, slot bytes). -/
def State.pendingSets (s : State) (k r : Nat) : List (Nat × Nat) :=
  [0, 1, 2, 3].flatMap (fun j => (s.ctx k j).queue.filterMap (fun o =>
    if !o.started && o.dsts.contains (ringTag r) then some (o.gid, o.b.toNat) else none))

/-- The later of two RINGSETs. -/
def laterSet (a : Option (Nat × Nat)) (b : Nat × Nat) : Option (Nat × Nat) :=
  match a with
  | none => some b
  | some x => if x.1 ≤ b.1 then some b else some x

/-- The SLOTB a command on ring `r` is checked against: that of the latest RINGSET that is pending, or of the
ring as it stands; none where the ring is not set (R204). -/
def State.slotbAt (s : State) (k r : Nat) : Option Nat :=
  match (s.pendingSets k r).foldl laterSet none with
  | some x => some x.2
  | none => if ((s.core k).rng r).set then some ((s.core k).rng r).slotb else none

/-- Bytes a command delivers to its ring, as far as is known: a pattern counts once it is read (log 18). -/
def Cmd.ringBytes (c : Cmd) : Nat :=
  match xCount c.i c.args with
  | some n => n
  | none => if c.prog.started then c.prog.total * esOf c.i else 0

/-- Slots of ring `r` still to be filled by the commands of core `k` (R198). -/
def State.slotsOwed (s : State) (k r : Nat) : Nat :=
  (List.range 16).foldl (fun n ch => (((s.core k).chn ch).queue).foldl (fun n c =>
    if ringDst c.i = some r then
      match c.slotb with
      | some sb => n + (c.ringBytes / sb - c.prog.filled)
      | none => n
    else n) n) 0

/-- What stands against taking a queue entry: a declared occupancy that would be exceeded, and a full queue
(R9, R198, R122). -/
def entryChk (i : Instr) (ch : Nat) (g : XArgs) (s : State) : Chk :=
  let k := s.issue.core
  let n := (s.myCore.chn ch).queue.length
  let l := (s.launch? s.me.launch).getD { id := 0, fn := 0 }
  let occ : Chk :=
    if (l.occCh[ch]?).getD 0 < n + 1 then { fault := some (s.flt .occupancy (BitVec.ofNat 64 ch)) }
    else match ringDst i with
      | none => {}
      | some r =>
          let mine := match s.slotbAt k r, xCount i g with
            | some sb, some c => c / sb
            | _, _ => 0
          faultIf (decide ((l.occRing[r]?).getD 0 <
              (s.myCore.rng r).full + (s.myCore.rng r).owed + s.slotsOwed k r + mine))
            (s.flt .occupancy (BitVec.ofNat 64 (16 + r)))
  occ.and (blockIf (32 ≤ n))

/-- Conditions on a command's operands (R204, R206, R216): its count, its slot bytes, its descriptor. -/
def operandChk (i : Instr) (g : XArgs) (s : State) : Chk :=
  let count : Chk := match xCount i g with
    | none => {}
    | some c =>
        faultIf (c % xUnit i != 0 || (match ringDst i with
          | none => false
          | some r => (s.slotbAt s.issue.core r).any (fun sb => c % sb != 0))) s.illegal
  let desc : Chk := match i with
    | .xcopy _ _ _ _ _ _ _ (some v) => faultIf (v.toNat % 64 != 0) (s.flt .region v)
    | .xcoll _ _ _ _ _ _ _ _ v =>
        match (unitsOf v.toNat 64).find? (fun u => match byteRights s s.issue.core s.whoMe .cmd u.1 false with
          | .hit h => h.tier != 1
          | _ => false) with
        | some u => { fault := some (s.flt .region (BitVec.ofNat 64 u.1)) }
        | none => {}
    | _ => {}
  count.and desc

/-- Everything that stands against an X command (R198, R199, R204). -/
def xChk (i : Instr) (ch : BitVec 4) (s : State) : Chk :=
  let g := s.xargs i
  ((operandChk i g s).and (rngsChk s (xChecked s (s.fnOf s.me.launch) i g))).and (entryChk i ch.toNat g s)

/-! ## Taking a queue entry -/

/-- Whether a command is still queued or running. -/
def State.cmdAlive (s : State) (k : Nat) (p : Nat × Nat) : Bool :=
  ((s.core k).chn p.1).queue.any (fun c => c.serial == p.2)

/-- The commands an XORDER makes later ones wait for: those of the channels in its mask (R215). -/
def orderAfter (s : State) (k : Nat) (m : Word) : List (Nat × Nat) :=
  if field m 16 48 ≠ 0 then []
  else (List.range 16).flatMap (fun ch =>
    if bit m ch then ((s.core k).chn ch).queue.map (fun c => (ch, c.serial)) else [])

/-- A command takes an entry of its channel's queue (R198). -/
def enqueue (i : Instr) (ch : BitVec 4) (s : State) : State :=
  let k := s.issue.core
  let n := ch.toNat
  let g := s.xargs i
  let x := s.me
  let h := s.myCore.chn n
  let c : Cmd :=
    { serial := h.issued, i := i, a := g.a, b := g.b, c := g.c, x := g.x, vec := g.vec
      slot := s.issue.ctx, launch := x.launch, lindex := x.lindex, inst := x.inst
      fmts := match i with
        | .xcopy .. => s.allFmts
        | _ => []
      srcLen := g.src
      gid := s.issueKey
      slotb := (ringDst i).bind (s.slotbAt k)
      after := h.after
      relOps := match i with
        | .xsignal .. => x.pendingStores
        | _ => []
      relHeld := x.heldSeq }
  let wait := match i with
    | .xorder .. => orderAfter s k g.b
    | _ => []
  s.updChan k n (fun h => { h with
    queue := h.queue ++ [c], issued := h.issued + 1, after := h.after.filter (s.cmdAlive k) ++ wait })

/-- The frame of every X command. -/
def issueX (i : Instr) (ch : BitVec 4) (s : State) : Host.Outcome State Fault Refusal :=
  issueOp i (xChk i ch) (enqueue i ch) s

/-- XCOPY (R205 to R209). -/
def execXcopy (g : BitVec 4) (esz : BitVec 2) (ch : BitVec 4) (pace : BitVec 12) (d : XDst) (b c : Sel)
    (desc : Option Word) (s : State) : Host.Outcome State Fault Refusal :=
  issueX (.xcopy g esz ch pace d b c desc) ch s
/-- XGATHER (R205, R211). -/
def execXgather (g : BitVec 4) (esz : BitVec 2) (ch : BitVec 4) (pace : BitVec 12) (d : XDst) (b : Sel)
    (vi : BitVec 6) (n1 : BitVec 5) (s : State) : Host.Outcome State Fault Refusal :=
  issueX (.xgather g esz ch pace d b vi n1) ch s
/-- XSCATTER (R205, R211). -/
def execXscatter (g : BitVec 4) (esz : BitVec 2) (ch : BitVec 4) (pace : BitVec 12) (a b : Sel)
    (vi : BitVec 6) (n1 : BitVec 5) (s : State) : Host.Outcome State Fault Refusal :=
  issueX (.xscatter g esz ch pace a b vi n1) ch s
/-- XACC (R205, R212). -/
def execXacc (g : BitVec 4) (op : BitVec 5) (esz : BitVec 2) (ch : BitVec 4) (pace : BitVec 12)
    (a b c : Sel) (s : State) : Host.Outcome State Fault Refusal :=
  issueX (.xacc g op esz ch pace a b c) ch s
/-- XFETCH (R205, R213). -/
def execXfetch (g : BitVec 4) (op : BitVec 5) (esz : BitVec 2) (ch : BitVec 4) (a b c : Sel) (s : State) :
    Host.Outcome State Fault Refusal :=
  issueX (.xfetch g op esz ch a b c) ch s
/-- XCAS (R205, R213). -/
def execXcas (g : BitVec 4) (esz : BitVec 2) (ch : BitVec 4) (a b c : Sel) (res : Word) (s : State) :
    Host.Outcome State Fault Refusal :=
  issueX (.xcas g esz ch a b c res) ch s
/-- XFILL (R205, R210). -/
def execXfill (g : BitVec 4) (esz : BitVec 2) (ch : BitVec 4) (pace : BitVec 12) (a b c : Sel) (s : State) :
    Host.Outcome State Fault Refusal :=
  issueX (.xfill g esz ch pace a b c) ch s
/-- XEXPAND (R205, R210). -/
def execXexpand (g : BitVec 4) (esz : BitVec 2) (ch : BitVec 4) (pace : BitVec 12) (d : XDst) (b c : Sel)
    (s : State) : Host.Outcome State Fault Refusal :=
  issueX (.xexpand g esz ch pace d b c) ch s
/-- XSIGNAL (R205, R214). -/
def execXsignal (g : BitVec 4) (op : BitVec 5) (ch : BitVec 4) (a b : Sel) (s : State) :
    Host.Outcome State Fault Refusal :=
  issueX (.xsignal g op ch a b) ch s
/-- XORDER (R205, R215). -/
def execXorder (g : BitVec 4) (esz : BitVec 2) (ch : BitVec 4) (b : Sel) (s : State) :
    Host.Outcome State Fault Refusal :=
  issueX (.xorder g esz ch b) ch s
/-- KVALLOC (R217). -/
def execKvalloc (g : BitVec 4) (ch : BitVec 4) (a b : Sel) (s : State) : Host.Outcome State Fault Refusal :=
  issueX (.kvalloc g ch a b) ch s
/-- KVFREE (R217). -/
def execKvfree (g : BitVec 4) (ch : BitVec 4) (a : Sel) (s : State) : Host.Outcome State Fault Refusal :=
  issueX (.kvfree g ch a) ch s
/-- KVSHARE (R217). -/
def execKvshare (g : BitVec 4) (ch : BitVec 4) (a b : Sel) (s : State) : Host.Outcome State Fault Refusal :=
  issueX (.kvshare g ch a b) ch s
/-- KVAPPEND (R217). -/
def execKvappend (g : BitVec 4) (adv : Bool) (ch : BitVec 4) (a b c : Sel) (s : State) :
    Host.Outcome State Fault Refusal :=
  issueX (.kvappend g adv ch a b c) ch s
/-- KVCOMMIT (R217). -/
def execKvcommit (g : BitVec 4) (reject : Bool) (ch : BitVec 4) (a b : Sel) (s : State) :
    Host.Outcome State Fault Refusal :=
  issueX (.kvcommit g reject ch a b) ch s
/-- KVGET (R217). -/
def execKvget (g : BitVec 4) (ch : BitVec 4) (pace : BitVec 12) (d : XDst) (b c : Sel) (s : State) :
    Host.Outcome State Fault Refusal :=
  issueX (.kvget g ch pace d b c) ch s
/-- KVSUM (R217). -/
def execKvsum (g : BitVec 4) (ch : BitVec 4) (a b c : Sel) (s : State) : Host.Outcome State Fault Refusal :=
  issueX (.kvsum g ch a b c) ch s
/-- XCOLL (R205, R216). -/
def execXcoll (g : BitVec 4) (op : BitVec 5) (kind : BitVec 2) (esz : BitVec 2) (ch : BitVec 4) (a b c : Sel)
    (desc : Word) (s : State) : Host.Outcome State Fault Refusal :=
  issueX (.xcoll g op kind esz ch a b c desc) ch s

end Sys2Proof.Machine
end

