-- ==== Sys2Proof/Machine/Kv.lean ====
section
/-!
DEFINITION. The block store (R217, R227 to R241): names, blocks and their leases, sharing and copy on
append, summaries, the two lengths of a sequence; and LEASE EXPIRY, of regions, sublets and blocks.
-/
namespace Sys2Proof.Machine

/-! ## Names and tables (R217, R230, R233) -/

/-- Whether a name that may not be remote is malformed (R217, R235). -/
def badName (w : Word) : Bool := field w 52 12 != 0
/-- The index of a name in stage 1 (R233). -/
def nameKey (w : Word) : Nat := field w 0 52
/-- The key of a block of a sequence and a layer. -/
def keyOf (seq layer blk : Nat) : Nat := seq + layer * 2 ^ 20 + blk * 2 ^ 28
/-- The sequence of a key. -/
def keySeq (k : Nat) : Nat := k % 2 ^ 20

/-- Whether an entry leads to a block: it names tier 2, and a package that has a route (R233, R345). -/
def State.kvReach (s : State) (e : KvEntry) : Bool := e.tier == 2 && (e.pkg == s.pkg || s.routes.contains e.pkg)

/-- The reverse map of a global block number: every tenant and name whose stage-1 entry names the block, and not one that
has ended, whose number a new block may have taken (R239, R310). -/
def State.reverseMap (s : State) (g : Nat) : List (Nat × Nat) :=
  s.fns.flatMap (fun f => (f.2.store.stage1.filter (fun e => !e.2.dead && e.2.pkg == s.pkg && e.2.gbn == g)).map
    (fun e => (f.1, e.1)))

/-- Whether the local table has no entry left: how many it holds the spec does not say, so an implementation chooses
(R234, log 95). -/
def State.tableFull (s : State) : State × Bool :=
  let (s, n) := s.choose 0
  (s, n == 1)

/-- The entry of a name whose block is there (R233). -/
def State.kvLive (s : State) (f key : Nat) : Option KvEntry := (s.kvEntry f key).filter (fun e => !e.dead)

/-- A sequence with no block has no record (R230). -/
def pruneSeqs (t : Store) : Store :=
  { t with seqs := t.seqs.filter (fun q => t.stage1.any (fun e => !e.2.dead && keySeq e.1 == q.1)) }

/-- Enter a block for a name; a sequence's record begins with its first block (R230). -/
def State.enter (s : State) (f key : Nat) (e : KvEntry) : State :=
  s.updStore f (fun t =>
    { t with
      stage1 := Tbl.set t.stage1 key e
      seqs := if (Tbl.find t.seqs (keySeq key)).isSome then t.seqs else Tbl.set t.seqs (keySeq key) (0, 0) })

/-- KVCLEN and KVTLEN of a sequence, zero where it has no record (R230). -/
def State.lengths (s : State) (f seq : Nat) : Nat × Nat := Tbl.getD (s.store f).seqs seq (0, 0)

/-! ## Blocks (R227, R234, R239) -/

/-- Bytes of a block. -/
def blockBytes : Nat := 65536

/-- A free block of the tenant's pool: a granule of its partition's tier 2 (R234). -/
def State.freeBlock (s : State) (f : Nat) : State × Option Nat :=
  (s.partCores (s.fn f).part).foldl (fun (acc : State × Option Nat) k =>
    match acc.2 with
    | some _ => acc
    | none => acc.1.findRun f 2 k blockBytes) (s, none)

/-- The charge for a block (R217). -/
def State.blockCharge (s : State) (ticks : Nat) : Nat := s.charge 2 blockBytes ticks

/-- Take a new block until a tick, paid by a launch: the state, the status, and the block's number, which is
its granule; its contents read zero (R66, R217, R234). -/
def newBlock (s : State) (f l fmt until_ : Nat) : State × Status × Nat :=
  let cost := s.blockCharge (until_ - s.now)
  if lastTick < until_ then (s, stKvlen, 0)
  else if !s.canPay l cost then (s, stPurse, 0)
  else
    let r := s.freeBlock f
    match r.2 with
    | none => (s, stNospace, 0)
    | some a =>
        let t := (r.1.pay l cost).scrub a blockBytes
        (t.updStore f (fun x => { x with
          blocks := Tbl.set x.blocks (a / blockBytes) { paddr := a, fmt := fmt, paid := until_, ref := 1 } }), 0
        , a / blockBytes)

/-- Change a block-table entry. -/
def State.updBlock (s : State) (f g : Nat) (u : Block → Block) : State :=
  s.updStore f (fun t => { t with blocks := t.blocks.map (fun b => if b.1 = g then (b.1, u b.2) else b) })

/-- The names a running KVAPPEND or KVSUM stands at: that of its next token or block, and of those set aside. -/
def Cmd.keysNow (s : State) (f : Nat) (c : Cmd) : List Nat :=
  let es := c.prog.deferred.map (·.e) ++ (if c.prog.e < c.prog.total then [c.prog.e] else [])
  match c.i with
  | .kvappend .. =>
      match s.layer f (nameLayer c.b) with
      | some l => es.map (fun e => keyOf (nameSeq c.b) (nameLayer c.b) ((c.prog.p0 + e) / l.tpb))
      | none => []
  | .kvsum .. => es.map (fun e => keyOf (nameSeq c.b) (nameLayer c.b) (nameBlk c.b + e))
  | _ => []

/-- Whether a running command is in progress on a block: one that it has translated, or that a name it stands at means
(R239). -/
def Cmd.onBlock (s : State) (c : Cmd) (f g : Nat) : Bool :=
  c.prog.started && c.prog.stop.isNone && s.fnOf c.launch == f &&
    ((match c.i with
      | .kvget .. => c.prog.p0 == g + 1
      | _ => false)
     || c.prog.blks.any (fun b => b.2 == g)
     || (c.keysNow s f).any (fun q => (s.kvLive f q).any (fun e => e.pkg == s.pkg && e.gbn == g)))

/-- A block's lease ends: its entries are dead, commands on it end TRUNC, its granule is scrubbed (R239). -/
def endBlock (s : State) (f g : Nat) : State :=
  match s.block? f g with
  | none => s
  | some b =>
      let s := s.eachCore (fun s k => (List.range 16).foldl (fun s ch =>
        (((s.core k).chn ch).queue).foldl (fun s c =>
          if c.onBlock s f g then s.endCmd k ch c stTrunc c.prog.prefixLen else s) s) s)
      let s := scrubPieces s 2 [(b.paddr, blockBytes)]
      s.updStore f (fun t => pruneSeqs { t with
        blocks := Tbl.erase t.blocks g
        stage1 := t.stage1.map (fun e =>
          if e.2.pkg = s.pkg && e.2.gbn = g then (e.1, { e.2 with dead := true }) else e) })

/-- Take a name out of stage 1. -/
def dropName (s : State) (f key : Nat) : State :=
  s.updStore f (fun t => pruneSeqs { t with stage1 := Tbl.erase t.stage1 key })

/-- One reference fewer (R217, R239). -/
def lowerRef (s : State) (f g : Nat) : State :=
  match s.block? f g with
  | none => s
  | some b => if b.ref ≤ 1 then endBlock s f g else s.updBlock f g (fun b => { b with ref := b.ref - 1 })

/-! ## KVALLOC, KVFREE, KVSHARE, KVCOMMIT (R217) -/

/-- KVALLOC: the state and the status; a full local table is reported before a purse that cannot pay (log 15, DESIGN
CHOICE). -/
def kvAlloc (s : State) (f l : Nat) (name ticks : Word) : State × Status :=
  if badName name then (s, stKvname)
  else match s.layer f (nameLayer name) with
    | none => (s, stDesc)
    | some y =>
        let n := ticks.toNat
        if n = 0 ∨ 2 ^ 40 < n then (s, stKvlen)
        else match s.kvLive f (nameKey name) with
          | some e =>
              let cost := s.blockCharge n
              let paid := ((s.block? f e.gbn).map (·.paid)).getD 0
              if !s.kvReach e then (s, stNomap)
              else if !s.canPay l cost then (s, stPurse)
              else if e.pkg ≠ s.pkg then (s.pay l cost, 0)
              else if lastTick < paid + n then (s, stKvlen)
              else ((s.pay l cost).updBlock f e.gbn (fun b => { b with paid := b.paid + n }), 0)
          | none =>
              let (s, full) := if (s.kvEntry f (nameKey name)).isSome then (s, false) else s.tableFull
              if full then (s, stNospace) else
              let (t, st, g) := newBlock s f l y.fmt (s.now + n)
              (if st = 0 then t.enter f (nameKey name) { pkg := s.pkg, gbn := g } else t, st)

/-- KVFREE: the state and the status. -/
def kvFree (s : State) (f : Nat) (name : Word) : State × Status :=
  if badName name then (s, stKvname)
  else if (s.layer f (nameLayer name)).isNone then (s, stDesc)
  else match s.kvEntry f (nameKey name) with
    | none => (s, stKvname)
    | some e =>
        if !e.dead && !s.kvReach e then (s, stNomap) else
        let t := dropName s f (nameKey name)
        (if e.dead || e.pkg ≠ s.pkg then t else lowerRef t f e.gbn, 0)

/-- The outcome of a question to another package, which this model does not hold: a choice (log 19). -/
def remoteStatus (s : State) (allowed : List Status) : State × Status :=
  let (s, st) := s.choose 0
  (s, if allowed.contains st then st else 0)

/-- A name is entered for a block of this package, whose count rises by one (R217). -/
def shareHere (s : State) (f key : Nat) (e : KvEntry) : State × Status :=
  match s.block? f e.gbn with
  | none => (s, stKvname)
  | some b =>
      if 65535 ≤ b.ref then (s, stKvlen)
      else ((s.updBlock f e.gbn (fun b => { b with ref := b.ref + 1 })).enter f key e, 0)

/-- KVSHARE: the state and the status (R217, R235). A full local table is reported before what is wrong with the source
(log 15, DESIGN CHOICE). -/
def kvShare (s : State) (f : Nat) (dname sname : Word) : State × Status :=
  let remote := bit sname 62 && field sname 52 10 != s.pkg
  if badName dname || bit sname 63 || (!bit sname 62 && field sname 52 10 != 0)
      || nameLayer dname != nameLayer sname then (s, stKvname)
  else if (s.layer f (nameLayer dname)).isNone then (s, stDesc)
  else if (s.kvEntry f (nameKey dname)).isSome then (s, stKvname)
  else
  let (s, full) := s.tableFull
  if full then (s, stNospace)
  else if remote then
    let p := field sname 52 10
    if !s.routes.contains p then (s, stNomap)
    else
      let (s, st) := remoteStatus s [stKvname, stNomap, stKvlen]
      if st ≠ 0 then (s, st)
      else
        let (s, owner) := s.choose p
        if owner % 1024 = s.pkg then
          -- the block that the other package's name means lies here
          let (s, g) := s.choose 0
          shareHere s f (nameKey dname) { pkg := s.pkg, gbn := g }
        else
          let (s, g) := s.drawFree
          (s.enter f (nameKey dname) { pkg := owner % 1024, gbn := g.toNat % 2 ^ 32 }, 0)
  else match s.kvLive f (nameKey sname) with
    | none => (s, stKvname)
    | some e =>
        if !s.kvReach e then (s, stNomap)
        else if e.pkg ≠ s.pkg then
          let (s, st) := remoteStatus s [stKvlen]
          (if st = 0 then s.enter f (nameKey dname) e else s, st)
        else shareHere s f (nameKey dname) e

/-- KVCOMMIT: the state, the status and the count (R217, R230). -/
def kvCommit (s : State) (f : Nat) (reject : Bool) (name k : Word) : State × Status × Nat :=
  let q := nameSeq name
  let (cl, tl) := s.lengths f q
  if badName name || nameBlk name != 0 || (Tbl.find (s.store f).seqs q).isNone then (s, stKvname, 0)
  else if reject then
    if k ≠ 0 then (s, stKvlen, 0)
    else (s.updStore f (fun t => { t with seqs := Tbl.set t.seqs q (cl, cl) }), 0, cl)
  else if tl - cl < k.toNat then (s, stKvlen, 0)
  else (s.updStore f (fun t => { t with seqs := Tbl.set t.seqs q (cl + k.toNat, tl) }), 0, cl + k.toNat)

/-! ## Poison in blocks (R240, R307, R310) -/

/-- Hitik reads the reverse map of a poisoned block and reports its names to each tenant's driver (R310, R338). -/
def reportNames (s : State) (g : Nat) : State :=
  let names := s.reverseMap g
  (names.map (·.1)).eraseDups.foldl (fun s f => raiseCause s f causeMbox)
    { s with kvReports := s.kvReports ++ names }

/-- Poison in a block: the units, its entry, Hitik's event and its report (R240, R307, R310). -/
def poisonBlock (s : State) (f g : Nat) (us : List Nat) : State :=
  let s := (s.addPoison us).updBlock f g (fun b => { b with poison := true })
  reportNames (s.hevent
    { type := 4, fn := f, ctxid := 0, serial := 0, cause := 0, inCause := 0, resume := 0
      addr := BitVec.ofNat 64 g }) g

/-- A poisoned unit is found in a block: its entry has POISON from now on (R240, R307). -/
def foundPoison (s : State) (f g : Nat) : State :=
  if ((s.block? f g).map (·.poison)).getD true then s else poisonBlock s f g []

/-- A write of a block's bytes: one that arrives uncorrectable poisons a unit of the block, which its entry tells (R240,
R307, R329). -/
def blockWrites (s : State) (f g a : Nat) (go : State → State) : State :=
  let t := go s
  if s.badWrites.any (fun u => within u a blockBytes && !t.badWrites.contains u) then foundPoison t f g else t

/-! ## Copy on append (R236) -/

/-- Function `f` has written a block, which lies in one unit of the bitmap: its dirty bit (R311). A block of a virtual
function has its guest-physical address above those of regions (log 70, DESIGN CHOICE). -/
def markBlock (s : State) (f a : Nat) : State :=
  markDirty s f { dpa := a, tier := 2, home := ((dpaHome a).map (·.2)).getD 0, kind := 0
                  gpa := if f = 0 then none else some (s.guestTop f + 2 ^ 40 + a) }

/-- Take the tokens of a whole block: the state, and the units that wait (R342). -/
def payBlock (s : State) (f a : Nat) : State × List Ticket :=
  takeTokens s f (((dpaHome a).map (·.2)).getD 0) (blockBytes / 64)

/-- Copy a block's bytes and its poison to a new one, which reads zero (R66, R236); every unit of the old one is checked
(R330), and a write to the new one that arrives uncorrectable is dropped, poisons its unit and is counted (R329). -/
def copyBlock (s : State) (src dst : Nat) : State :=
  let s := s.checkRead src blockBytes
  let lost := s.badWrites.filter (fun u => within u dst blockBytes)
  let cells := s.mem.filter (fun (c : Nat × Byte) => within c.1 src blockBytes && !lost.contains ((c.1 - src + dst) / 64 * 64))
  let s := { s with
    mem := cells.foldl (fun m (c : Nat × Byte) => Memory.write m (c.1 - src + dst) c.2) s.mem
    badWrites := s.badWrites.filter (fun u => !within u dst blockBytes) }
  lost.foldl (fun s u => (s.addPoison [u]).countUe u)
    (s.addPoison ((s.poison.filter (fun u => within u src blockBytes)).map (fun u => u - src + dst)))

/-- The bytes of a block of another package are free values (log 19). -/
def freeBlockBytes (s : State) (dst : Nat) : State :=
  (List.range (blockBytes / 8)).foldl (fun s i =>
    let (s, w) := s.drawFree
    s.writeDpa (dst + 8 * i) (toBytes 8 w.toNat)) s

/-- Block `g` holds a copy made on append: it is dirty, its bytes are tracked, and the name is its own (R236, R240, R311). -/
def enterCopy (s : State) (f key g : Nat) : State :=
  ((markBlock s f (g * blockBytes)).updBlock f g (fun n => { n with dirty := true })).enter f key
    { pkg := s.pkg, gbn := g }

/-- A block of its own for the next token of an append: the state, the status, the block, and the units of a copy whose
tokens are waited for (R217, R236, R342). A full local table is reported before anything else (log 15). -/
def ownBlock (s : State) (f l : Nat) (y : Layer) (key : Nat) : State × Status × Nat × List Ticket :=
  match s.kvLive f key with
  | none =>
      let (s, full) := if (s.kvEntry f key).isSome then (s, false) else s.tableFull
      if full then (s, stNospace, 0, []) else
      let (t, st, g) := newBlock s f l y.fmt (s.now + y.dticks)
      (if st = 0 then t.enter f key { pkg := s.pkg, gbn := g } else t, st, g, [])
  | some e =>
      if !s.kvReach e then (s, stNomap, 0, [])
      else if e.pkg ≠ s.pkg then
        let (s, w) := s.drawFree
        let (t, st, g) := newBlock s f l y.fmt (s.now + 1 + w.toNat % 2 ^ 40)
        if st ≠ 0 then (t, st, g, [])
        else
          let a := g * blockBytes
          let (t, due) := payBlock (blockWrites t f g a (fun t => freeBlockBytes t a)) f a
          (enterCopy t f key g, 0, g, due)
      else match s.block? f e.gbn with
        | none => (s, stKvname, 0, [])
        | some b =>
            if b.ref ≤ 1 then (s, 0, e.gbn, [])
            else
              let (t, st, g) := newBlock s f l b.fmt b.paid
              if st ≠ 0 then (t, st, g, [])
              else
                let a := g * blockBytes
                let bad := (t.poisonIn b.paddr blockBytes).isSome
                let t := blockWrites t f g a (fun t => copyBlock t b.paddr a)
                let t := if bad then foundPoison (foundPoison t f e.gbn) f g else t
                let (t, due) := payBlock t f b.paddr
                let (t, more) := payBlock t f a
                (enterCopy (lowerRef t f e.gbn) f key g, 0, g, due ++ more)

/-! ## Tokens and summaries (R229, R231, R237) -/

/-- The format of a layer's keys and values (R228). -/
def Layer.ty (y : Layer) : Ty :=
  match y.fmt with
  | 2 => .bf16
  | 3 => .f16
  | 4 => .e4m3
  | _ => .e5m2

/-- Where the parts of a token lie: (offset in the token, offset in the block, bytes) (R229, R231). -/
def Layer.parts (y : Layer) (t : Nat) : List (Nat × Nat × Nat) :=
  let hb := y.hdim * y.eb
  (List.range y.heads).map (fun h => (h * hb, (h * y.tpb + t) * hb, hb))
    ++ (List.range y.heads).map (fun h => (y.heads * hb + h * hb, y.voff + (h * y.tpb + t) * hb, hb))

/-- One summary element after a key: the maximum or the minimum (R237). A NaN in a block's first token leaves the element
at the block's zero, with which later keys are compared: 'changes no summary element' is followed against 'zeros never
enter it' (log 106, DESIGN CHOICE). -/
def summaryE (ty : Ty) (isMax : Bool) (first : Bool) (old key : Nat) : Nat :=
  if (decodeF ty key).isNaN then old
  else
    let k := (convert .bf16 ty (if isMax then .rup else .rdn) true key).1
    let k := if ty = .bf16 then key else k
    if first then k else (minMaxF .bf16 isMax old k).1

/-- A head's summary after a token's keys: maxima, then minima (R229, R237). -/
def summaryHead (y : Layer) (first : Bool) (old keys : List Nat) : List Nat :=
  let mx := old.take y.hdim
  let mn := old.drop y.hdim
  List.zipWith (summaryE y.ty true first) mx keys ++ List.zipWith (summaryE y.ty false first) mn keys

/-- The ranges of a block that a token touches: its parts, the summary, and the header. -/
def Layer.tokenRanges (y : Layer) (t : Nat) : List (Nat × Nat) :=
  (y.parts t).map (fun p => (p.2.1, p.2.2)) ++ [(y.soff, y.sumBytes), (y.hoff, 8)]

/-- Write one token of function `f`, its summary and VALID into a block at `a` (R229, R231, R237); the units it reads are
checked (R330), and its writes are tracked (R311). -/
def writeToken (s : State) (f : Nat) (y : Layer) (a t : Nat) (bs : List Byte) : State :=
  let s := (s.checkRead (a + y.soff) y.sumBytes).checkRead (a + y.hoff) 8
  let s := (y.parts t).foldl (fun s p => s.writeDpa (a + p.2.1) ((bs.drop p.1).take p.2.2)) s
  let valid := ofBytes (Memory.bytes s.mem (a + y.hoff) 4)
  let keys := codesOf y.ty (bs.take (y.heads * y.hdim * y.eb))
  let s := (List.range y.heads).foldl (fun s h =>
    let at_ := a + y.soff + h * 4 * y.hdim
    let old := codesOf .bf16 (Memory.bytes s.mem at_ (4 * y.hdim))
    s.writeDpa at_ (codeBytes .bf16 (summaryHead y (valid == 0) old ((keys.drop (h * y.hdim)).take y.hdim)))) s
  let nan := keys.any (fun k => (decodeF y.ty k).isNaN)
  let fl := ofBytes (Memory.bytes s.mem (a + y.hoff + 4) 4)
  let s := s.writeDpa (a + y.hoff) (toBytes 4 (max valid (t + 1)) ++ toBytes 4 (if nan && fl % 2 = 0 then fl + 1 else fl))
  markBlock s f a

/-- Whether writing a token needs a poisoned unit: one that a write covers in part, or that it reads, as it does the
summary of a block that holds a token (R237, R240, R309). -/
def tokenPoison (s : State) (y : Layer) (a t : Nat) : Option Nat :=
  let first := ofBytes (Memory.bytes s.mem (a + y.hoff) 4) == 0
  (y.tokenRanges t).zipIdx.findSome? (fun w =>
    let (b, n) := (a + w.1.1, w.1.2)
    let reads := w.1.1 == y.soff && !first
    s.poison.find? (fun u => meets u 64 b n && (reads || !(b ≤ u && u + 64 ≤ b + n))))

/-! ## The end of leases (R63, R239, R255) -/

/-- The identifier by which LEASE EXPIRY names a block's lease. -/
def blockLease (f g : Nat) : Nat := 2 ^ 40 + f * 2 ^ 32 + g

/-- LEASE EXPIRY (R63, R64): of a region, of a sublet of it by its place in the list, or of a block. -/
def execLeaseExpiry (region : Nat) (sublet : Option Nat) (s : State) : Host.Outcome State Fault Refusal :=
  .next (
    if 2 ^ 40 ≤ region then
      let f := (region - 2 ^ 40) / 2 ^ 32
      let g := region % 2 ^ 32
      match s.block? f g with
      | some b => if b.paid ≤ s.now then endBlock s f g else s
      | none => s
    else match s.region? region with
      | none => s
      | some r =>
          match sublet with
          | none => if r.until_ ≤ s.now then endRegion s r else s
          | some n =>
              match r.subs[n]? with
              | some u => if u.until_ ≤ s.now then endSublet s r u else s
              | none => s)

end Sys2Proof.Machine
end

