-- ==== Sys2Proof/Machine/Channel.lean ====
section
/-!
DEFINITION. Commands on their channels (R197 to R217): start, elements one by one with their rights, page
waits (R305, R306) and poison (R202), converting copies (R70), rings (R209), read-modify-write (R212, R213),
collectives (R216, R348), and completion.
-/
namespace Sys2Proof.Machine

/-! ## Reaching the bytes of an element (R199, R298, R346) -/

/-- What a range of an element gives. -/
inductive Reach
  | ok (segs : List (Nat × Hit × Nat))
  | wait
  | stop (st : Status) (report : Option (Nat × Nat × Nat))
  | miss (fn gpa : Nat) (write : Bool)
  | remote
  deriving DecidableEq, Repr

/-- One byte of an element's range: a pod address goes through the function's tables (R346). -/
def cmdByte (s : State) (k : Nat) (c : Cmd) (write : Bool) (a : Nat) : Xl :=
  if isPod a then tableByte s (s.fnOf c.launch) (a % 2 ^ 48) write
  else byteRights s k c.who .cmd a write

/-- Whether a bound barrier cell lies in device-physical bytes (R220). -/
def State.cellIn (s : State) (a n : Nat) : Bool := s.barriers.any (fun b => !b.broken && meets b.dpa 8 a n)

/-- The bytes of an element's range, lowest first, each translated as `at_` says. -/
def reachUnits (s : State) (at_ : Nat → Xl) (write : Bool) : List (Nat × Nat) → Reach
  | [] => .ok []
  | u :: r =>
      match at_ u.1 with
      | .hit h =>
          if write && s.cellIn h.dpa u.2 then .stop stRights none
          else match reachUnits s at_ write r with
            | .ok l => .ok ((u.1, h, u.2) :: l)
            | x => x
      | .bad .expired => .stop stTrunc none
      | .bad .region => .stop stRights none
      | .bad _ => .stop stNomap none
      | .pend _ => .wait
      | .miss f g w => if s.noPages f then .stop stNomap none else .miss f g w
      | .s2bad f p => .stop stNomap (some (2, f, p))
      | .tblPoison f p => .stop stPoison (some (3, f, p))

/-- Whether a store of the command's context that came before the command and meets the bytes is still held back: the
command's write comes after it (R243). -/
def Cmd.behindStore (s : State) (k : Nat) (c : Cmd) (a n : Nat) : Bool :=
  ((s.ctx k c.slot).myHeld c.inst).any (fun h => decide (h.seq < c.relHeld) && (match h.eff with
    | .store ps _ _ => ps.any (fun p => meets p.1 p.2.1.length a n)
    | _ => false))

/-- A reached range that is written waits for the stores that come before it (R243). -/
def Reach.inOrder (s : State) (k : Nat) (c : Cmd) (r : Reach) : Reach :=
  match r with
  | .ok l => if l.any (fun g => c.behindStore s k g.2.1.dpa g.2.2) then .wait else .ok l
  | x => x

/-- A range an element reads or writes. -/
def reach (s : State) (k : Nat) (c : Cmd) (write : Bool) (a n : Nat) : Reach :=
  if isPod a && a / 2 ^ 48 % 1024 != s.pkg then
    (if s.routes.contains (a / 2 ^ 48 % 1024) then .remote else .stop stNomap none)
  else
    let r := reachUnits s (cmdByte s k c write) write (unitsOf a n)
    if write then r.inOrder s k c else r

/-- Bytes that core `k` writes in its own scratchpad at a device-physical address, standing at `a` in what is
delivered (R209, R220). -/
def reachPad (s : State) (k : Nat) (c : Cmd) (d a n : Nat) : Reach :=
  if s.cellIn d n then .stop stRights none
  else Reach.inOrder s k c
    (.ok ((unitsOf d n).map (fun x => (a + (x.1 - d), { dpa := x.1, tier := 1, home := k, kind := 0 }, x.2))))

/-- The segments of what was reached. -/
def Reach.segs : Reach → List (Nat × Hit × Nat)
  | .ok l => l
  | _ => []

/-- The first of several ranges that is not reached, if there is one. -/
def firstHeldUp : List Reach → Option Reach
  | [] => none
  | .stop st r :: _ => some (.stop st r)
  | .wait :: l => match firstHeldUp l with
      | some (.stop st r) => some (.stop st r)
      | _ => some .wait
  | .miss f g w :: l => match firstHeldUp l with
      | some (.stop st r) => some (.stop st r)
      | some .wait => some .wait
      | _ => some (.miss f g w)
  | _ :: l => firstHeldUp l

/-- Cache the leaves of reached segments (R314); a command's access is one of its context, while that is in its slot (R61,
R245). -/
def touchSegs (s : State) (k : Nat) (c : Cmd) (segs : List (Nat × Hit × Nat)) : State :=
  let s := segs.foldl (fun s g => fillTlb s c.who g.2.1 (g.1 % 2 ^ 48)) s
  if (s.ctx k c.slot).launch = c.launch ∧ (s.ctx k c.slot).inst = c.inst then touchAll s k c.slot segs else s

/-- Take the tokens of tier 2 units, given as (core, unit), that the command's element before this one did not touch;
until they are there the element waits (R342, R343, log 38). -/
def payUnits (s : State) (k ch : Nat) (c : Cmd) (us : List (Nat × Nat)) : State :=
  let c := (s.headCmd k ch).getD c
  let new := us.filter (fun u => !c.prog.paid.contains u.2)
  let r := new.foldl (fun (acc : State × List Ticket) u =>
    let t := takeTokens acc.1 (s.fnOf c.launch) u.1 1
    (t.1, acc.2 ++ t.2)) (s, c.prog.due)
  r.1.updCmd k ch c.serial (fun c => { c with prog := { c.prog with paid := us.map (·.2), due := r.2 } })

/-- The tier 2 units of reached segments. -/
def tierUnits (segs : List (Nat × Hit × Nat)) : List (Nat × Nat) :=
  (segs.filterMap (fun g => if g.2.1.tier = 2 then some (g.2.1.home, g.2.1.dpa / 64 * 64) else none)).eraseDups

/-- An element goes on once the tokens of its tier 2 units are there, those it waits for already among them; it takes them
when it is reached (R342). -/
def withTokens (s : State) (k ch : Nat) (c : Cmd) (us : List (Nat × Nat)) (go : State → State) : State :=
  let c := (s.headCmd k ch).getD c
  let s := if us.all (fun u => c.prog.paid.contains u.2) then s else payUnits s k ch c us
  match s.headCmd k ch with
  | some d =>
      if !d.prog.due.all s.tokensThere then s
      else if d.prog.due.isEmpty then go s
      else go (s.updCmd k ch c.serial (fun c => { c with prog := { c.prog with due := [] } }))
  | none => s

/-- The bytes of a reached range, as the issuing context's own stores leave them (R200); every unit is checked
(R330). -/
def readSegs (s : State) (k : Nat) (c : Cmd) (segs : List (Nat × Hit × Nat)) : State × List Byte :=
  let hs := (s.ctx k c.slot).myHeld c.inst
  segs.foldl (fun (acc : State × List Byte) g =>
    let r := readPad (acc.1.checkRead g.2.1.dpa g.2.2) k c.slot g.2.1.dpa g.2.2 false
    (r.1, acc.2 ++ overHeld hs g.2.1.dpa r.2)) (s, [])

/-- Check every unit of reached ranges, poisoned ones among them (R330). -/
def checkSegs (s : State) (segs : List (Nat × Hit × Nat)) : State :=
  segs.foldl (fun s g => s.checkRead g.2.1.dpa g.2.2) s

/-- The first poisoned unit of a reached range. -/
def poisonSegs (s : State) (segs : List (Nat × Hit × Nat)) : Option Nat :=
  if s.poison.isEmpty then none else segs.findSome? (fun g => s.poisonIn g.2.1.dpa g.2.2)

/-- Write bytes to a reached range from channel `ch`, in the linear view (R68), with dirty bits (R311). -/
def writeSegs (s : State) (k ch : Nat) (c : Cmd) (a : Nat) (segs : List (Nat × Hit × Nat)) (bs : List Byte) :
    State :=
  let f := s.fnOf c.launch
  segs.foldl (fun s g =>
    markDirty (writePad s k g.2.1.dpa false ((bs.drop (g.1 - a)).take g.2.2) (some ch)) f g.2.1) s

/-- The device-physical units of a reached range. -/
def segUnits (segs : List (Nat × Hit × Nat)) : List Nat := segs.map (fun g => g.2.1.dpa / 64 * 64)

/-! ## Ends -/

/-- A command that goes no further: it completes with a status and a count (R202, R317). -/
def stopCmd (s : State) (k ch : Nat) (c : Cmd) (st : Status) (n : Nat) : State :=
  (s.updCmd k ch c.serial (fun c => { c with prog := { c.prog with stop := some (st, n) } })).push
    [.commandCompletion k ch]

/-- Bytes of a command's delivery that are over, but for elements set aside. -/
def Cmd.past (c : Cmd) : Nat :=
  match c.i with
  | .xcopy _ _ _ _ _ _ _ none => min c.prog.dpos c.c.toNat
  | _ => c.prog.e * esOf c.i

/-- The slots of its ring that a command has filled: those before the first that is not whole (R209). -/
def Cmd.wholeSlots (c : Cmd) : Nat :=
  match ringDst c.i, c.slotb with
  | some _, some sb =>
      let at_ (d : Defer) : Nat := match c.i with
        | .xcopy _ _ _ _ _ _ _ none => d.dpos
        | _ => d.e * esOf c.i
      if sb = 0 then 0 else c.prog.deferred.foldl (fun m d => min m (at_ d / sb)) (c.past / sb)
  | _, _ => 0

/-- Whether nothing of a command remains to be applied. -/
def Cmd.finished (c : Cmd) : Bool :=
  c.prog.started && c.prog.deferred.isEmpty &&
    (match c.i with
     | .xcopy _ _ _ _ _ _ _ none => c.c.toNat ≤ c.prog.dpos
     | .xorder .. => true
     | _ => c.prog.total ≤ c.prog.e)

/-- Whether a channel's running command is a collective that has not formed. -/
def State.collWaits (s : State) (k ch : Nat) : Bool :=
  s.colls.any (fun c => !c.formed && c.members.any (fun m => m.2.1 == k && m.2.2 == ch))

/-- A command that has come to its end completes in the same cycle (R317). -/
def settleCmd (s : State) (k ch : Nat) : State :=
  match s.headCmd k ch with
  | some c => if c.finished && c.prog.stop.isNone then s.push [.commandCompletion k ch] else s
  | none => s

/-- The count of a command that completes OK (R205, R217). -/
def okCount (s : State) (c : Cmd) : Nat :=
  match c.i with
  | .kvappend .. => (s.lengths (s.fnOf c.launch) (nameSeq c.b)).2
  | _ => c.prog.e

/-- COMMAND COMPLETION (R202, R203, R317). -/
def execCommandCompletion (core ch : Nat) (s : State) : Host.Outcome State Fault Refusal :=
  .next (match s.headCmd core ch with
    | none => s
    | some c =>
        match c.prog.stop with
        | some (st, n) => s.endCmd core ch c st n
        | none =>
            if !c.finished || s.collWaits core ch then s
            else
              let s := match c.i with
                | .kvappend _ adv .. =>
                    if adv then s.updStore (s.fnOf c.launch) (fun t =>
                      let q := nameSeq c.b
                      let l := Tbl.getD t.seqs q (0, 0)
                      { t with seqs := Tbl.set t.seqs q (l.1, l.2 + c.prog.total) })
                    else s
                | _ => s
              s.endCmd core ch c 0 (okCount s c))

/-! ## Start (R205 to R217) -/

/-- Whether a running KVAPPEND.adv still has to advance the lengths of a sequence of a function (R231). -/
def State.advancing (s : State) (f q : Nat) : Bool :=
  s.cores.any (fun x => (List.range 16).any (fun ch => ((x.2.chn ch).queue.head?).any (fun c =>
    c.prog.started && s.fnOf c.launch == f && nameSeq c.b == q && (match c.i with
      | .kvappend _ adv .. => adv
      | _ => false))))

/-- Whether a command must let the length update of an append that started before it take effect first: what reads or
changes the lengths of the sequence (R241, log 92). -/
def State.behindAppend (s : State) (c : Cmd) : Bool :=
  match c.i with
  | .kvappend .. => s.advancing (s.fnOf c.launch) (nameSeq c.b)
  | .kvcommit .. => s.advancing (s.fnOf c.launch) (nameSeq c.a)
  | _ => false

/-- Whether the head command of a channel may start: XORDER (R215), a RINGSET of its ring (R209), a fence that its
context issued before it (R247), and an append of its sequence (R241). -/
def cmdReady (s : State) (k ch : Nat) : Bool :=
  match s.headCmd k ch with
  | none => false
  | some c =>
      !c.prog.started && c.prog.stop.isNone && !c.after.any (s.cmdAlive k) &&
        !(s.ctx k c.slot).behindFence c.inst c.relHeld false && !s.behindAppend c &&
        (match ringDst c.i with
         | none => true
         | some r => !(s.pendingSets k r).any (fun p => p.1 < c.gid)) &&
        c.prog.page.all (s.answered (s.fnOf c.launch))

/-- The command begins with a number of elements (R208). -/
def State.begin (s : State) (k ch : Nat) (c : Cmd) (total : Nat) (u : Prog → Prog := id) : State :=
  settleCmd (s.updCmd k ch c.serial (fun c => { c with
    prog := u { c.prog with started := true, total := total, tick := s.now, page := none } })) k ch

/-- A command with one step, taken whole at its start. -/
def State.atOnce (s : State) (k ch : Nat) (c : Cmd) (st : Status) (n : Nat) : State :=
  stopCmd (s.updCmd k ch c.serial (fun c => { c with prog := { c.prog with started := true } })) k ch c st n

/-- What a ring destination says against a command that delivers `n` bytes: RING where the ring is not set,
DESC where its slots do not divide the count (R204, R209). -/
def ringStatus (s : State) (k : Nat) (i : Instr) (n : Nat) : Status :=
  match ringDst i with
  | none => 0
  | some r =>
      let g := (s.core k).rng r
      if !g.set then stRing else if n % g.slotb ≠ 0 then stDesc else 0

/-- Begin, or end with what the ring says (R209); the ring's slot bytes are known from here on. -/
def State.beginRing (s : State) (k ch : Nat) (c : Cmd) (total : Nat) (u : Prog → Prog := id) : State :=
  let n := match xCount c.i c.args with
    | some n => n
    | none => total * esOf c.i
  let st := ringStatus s k c.i n
  if st ≠ 0 then stopCmd s k ch c st 0
  else
    let s := match ringDst c.i with
      | some r => s.updCmd k ch c.serial (fun c => { c with slotb := some ((s.core k).rng r).slotb })
      | none => s
    s.begin k ch c total u

/-- The bytes of a descriptor, or what holds the command up (R206, R216, R305). -/
def readDesc (s : State) (k ch : Nat) (c : Cmd) (n : Nat) (go : State → List Byte → State) : State :=
  match reach s k c false c.x.toNat n with
  | .ok segs =>
      match poisonSegs s segs with
      | some _ => stopCmd (checkSegs s segs) k ch c stPoison 0
      | none =>
          withTokens s k ch c (tierUnits segs) (fun s =>
            let r := readSegs (touchSegs s k c segs) k c segs
            go r.1 r.2)
  | .stop st rep => stopCmd (s.report rep) k ch c st 0
  | .miss f g w =>
      let (s, grp) := requestPage s f g w
      s.updCmd k ch c.serial (fun c => { c with prog := { c.prog with page := some grp } })
  | .wait => s
  | .remote => s

/-- A patterned copy begins (R206, R207, R209); one of whose elements a lease that has ended held ends
TRUNC (R63). -/
def startPattern (s : State) (k ch : Nat) (c : Cmd) : State :=
  readDesc s k ch c 128 (fun s bs =>
    let s := s.updCmd k ch c.serial (fun c => { c with prog := { c.prog with desc := bs } })
    let c := { c with prog := { c.prog with desc := bs } }
    match patternOf bs (esOf c.i) with
    | none => stopCmd s k ch c stDesc 0
    | some p =>
        if c.dead.any (fun d => (c.elemRanges s k).any (fun r => meets r.1 r.2 d.1 d.2)) then stopCmd s k ch c stTrunc 0
        else if (ringDst c.i).isSome && (p.dw.isSome || p.dstr.any (· != 0)) then stopCmd s k ch c stDesc 0
        else s.beginRing k ch c p.total)

/-! ## Collectives (R216, R348) -/

/-- A collective descriptor: GROUP, NMEMB, RANK, ROOT; none where it is malformed (R216). -/
def collOf (d : List Byte) (bcast : Bool) : Option (Nat × Nat × Nat × Nat) :=
  let n := numAt d 4 2
  let r := numAt d 6 2
  let root := numAt d 8 2
  if 2 ≤ n && r < n && (!bcast || root < n) && numAt d 10 1 ≤ 5 && (d.drop 11).all (· == 0) then
    some (numAt d 0 4, n, r, root)
  else none

/-- Whether a member of a rank has come. -/
def Coll.hasRank (c : Coll) (r : Nat) : Bool := c.members.any (fun x => x.1 == r) || c.far.any (fun x => x.rank == r)

/-- Add a member to the collective of its group, scope and function that is the `skip`-th to wait for its rank, or begin
as many as it takes. -/
def joinColl (f g n : Nat) (sc : Nat × Nat) (m : Nat × Nat × Nat) : Nat → List Coll → List Coll
  | 0, [] => [{ fn := f, group := g, nmemb := n, scope := sc, members := [m] }]
  | skip + 1, [] => { fn := f, group := g, nmemb := n, scope := sc, members := [] } :: joinColl f g n sc m skip []
  | skip, c :: r =>
      if c.fn = f ∧ c.group = g ∧ c.scope = sc ∧ !c.decided ∧ !c.hasRank m.1 then
        match skip with
        | 0 => { c with nmemb := if c.members.isEmpty && c.far.isEmpty then n else c.nmemb, members := c.members ++ [m] } :: r
        | skip + 1 => c :: joinColl f g n sc m skip r
      else c :: joinColl f g n sc m skip r

/-- The bytes at a command's descriptor as they stand for its context, where they can be read (R259). -/
def peekDesc (s : State) (k : Nat) (c : Cmd) (n : Nat) : List Byte :=
  match reach s k c false c.x.toNat n with
  | .ok segs =>
      let hs := (s.ctx k c.slot).myHeld c.inst
      segs.flatMap (fun g => overHeld hs g.2.1.dpa (Memory.bytes s.mem g.2.1.dpa g.2.2))
  | _ => []

/-- XCOLLs of one group that a command's context issued before it and that have not started: they are earlier in the
member's order, whatever their channel (R216). -/
def collsBefore (s : State) (k : Nat) (c : Cmd) (g : Nat) (sc : Nat) : Nat :=
  (List.range 16).foldl (fun n ch => n + (((s.core k).chn ch).queue.filter (fun y =>
    y.gid < c.gid && y.slot == c.slot && y.inst == c.inst && !y.prog.started && y.prog.stop.isNone && (match y.i with
      | .xcoll .. =>
          let d := peekDesc s k y 64
          !d.isEmpty && numAt d 0 4 == g && numAt d 10 1 == sc
      | _ => false))).length) 0

/-- The collective a member is in. -/
def State.collAt (s : State) (k ch : Nat) : Option Coll :=
  s.colls.find? (fun c => c.members.any (fun m => m.2.1 == k && m.2.2 == ch))

/-- Kind, operation and bytes of an XCOLL. -/
def collKey (c : Cmd) : Nat × Nat × Nat :=
  match c.i with
  | .xcoll _ op kind .. => (kind.toNat, op.toNat, c.c.toNat)
  | _ => (0, 0, 0)

/-- The elements a member of a collective receives, as (first, number) of the result (R216; log 17). -/
def collShare (kind e n rank : Nat) : Nat × Nat :=
  match kind with
  | 1 => (rank * e / n, (rank + 1) * e / n - rank * e / n)
  | 2 => (0, n * e)
  | _ => (0, e)

/-- An XCOLL reaches its router (R216); of pod scope, it goes to every package that has a route, in reduction flits
(R344, R345, log 19). -/
def startColl (s : State) (k ch : Nat) (c : Cmd) : State :=
  readDesc s k ch c 64 (fun s bs =>
    let (kind, _, n) := collKey c
    match collOf bs (kind == 3) with
    | none => stopCmd s k ch c stDesc 0
    | some (g, nm, rank, _) =>
        let f := s.fnOf c.launch
        let sc := numAt bs 10 1
        let sh := collShare kind (n / esOf c.i) nm rank
        let l := joinColl f g nm (sc, scopeInst sc k) (rank, k, ch) (collsBefore s k c g sc) s.colls
        let s : State := { s with colls := l }
        let s := if sc = 5 then (sendFlits s 4 ch s.routes).1 else s
        match s.collAt k ch with
        | some y =>
            if y.nmemb ≠ nm then stopCmd s k ch c stDesc 0
            else if c.dead.any (fun d => meets c.a.toNat (sh.2 * esOf c.i) d.1 d.2) then stopCmd s k ch c stTrunc 0
            else s.updCmd k ch c.serial (fun c => { c with
              prog := { c.prog with started := true, total := sh.2, tick := s.now, desc := bs, page := none } })
        | none => s)

/-- The commands of a collective, by rank. -/
def Coll.cmds (s : State) (y : Coll) : List (Nat × Nat × Nat × Cmd) :=
  (List.range y.nmemb).filterMap (fun r =>
    (y.members.find? (fun m => m.1 == r)).bind (fun m =>
      (s.headCmd m.2.1 m.2.2).map (fun c => (r, m.2.1, m.2.2, c))))

/-- Whether all members of a collective have come and its sources are still to be read; it waits for no page. -/
def collReady (s : State) (y : Coll) : Bool :=
  !y.formed && !y.members.isEmpty && y.nmemb ≤ y.members.length + y.far.length && y.page.all (s.answered y.fn)

/-- Change the first collective of a group that is ready to go on. -/
def State.updColl (s : State) (f g : Nat) (u : Coll → Coll) : State :=
  match s.colls.findIdx? (fun c => c.fn == f && c.group == g && collReady s c) with
  | none => s
  | some i => { s with colls := s.colls.zipIdx.map (fun c => if c.2 = i then u c.1 else c.1) }

/-- Elements that flits to other packages were sent for go on when these are acknowledged: with what the target answered,
one of some statuses (R345, R346, log 19). The flits are those of element `e`, sent once; `aside` says where the element
stands and how the command moves past it, where a stage-2 miss at the target may set it aside (R305). -/
def withFar (s : State) (k ch : Nat) (c : Cmd) (e : Nat) (aside : Option (Defer × (Prog → Prog))) (pkgs : List Nat)
    (allowed : List Status) (go : State → State) : State :=
  let pkgs := (pkgs.filter (· != s.pkg)).eraseDups
  if pkgs.isEmpty then go s
  else match c.prog.far.find? (fun x => x.e == e) with
    | none =>
        let (s, sent) := sendFlits s 1 ch pkgs
        let (s, m) := s.choose 0
        let keep (miss : Bool) (p : Prog) : Prog := { p with far := p.far ++ [{ e := e, sent := sent, miss := miss }] }
        match aside with
        | some (d, u) =>
            if m = 1 && c.prog.deferred.length < 64 && !c.prog.deferred.any (fun x => x.e == d.e) then
              s.updCmd k ch c.serial (fun c => { c with
                prog := keep true { u c.prog with deferred := c.prog.deferred ++ [{ d with req := noRequest }] } })
            else s.updCmd k ch c.serial (fun c => { c with prog := keep false c.prog })
        | none => s.updCmd k ch c.serial (fun c => { c with prog := keep false c.prog })
    | some x =>
        if x.sent.any s.unacked then s
        else match x.st with
          | some _ => go s
          | none =>
              let (s, st) := remoteStatus s allowed
              if st ≠ 0 then stopCmd s k ch c st c.prog.prefixLen
              else go (s.updCmd k ch c.serial (fun c => { c with prog := { c.prog with
                far := c.prog.far.map (fun y => if y.e = e then { y with st := some st } else y) } }))

/-- An element set aside for a miss at its target whose flits are acknowledged: it goes on (R305, R346). -/
def State.farBack (s : State) (c : Cmd) : Option Nat :=
  (c.prog.deferred.find? (fun d => c.prog.far.any (fun x => x.e == d.e && x.miss && !x.sent.any s.unacked))).map (·.e)

/-- The number under which a command keeps what it sent for its source as a whole. -/
def Cmd.wholeKey (c : Cmd) : Nat := c.prog.total

/-- The package that a pod address names. -/
def podPkg (a : Nat) : Option Nat := if isPod a then some (a / 2 ^ 48 % 1024) else none

/-- What the members whose sources lie on other packages ask there, each once; their commands end as these answer. -/
def askSources (s : State) (cs : List (Nat × Nat × Nat × Cmd)) : State :=
  cs.foldl (fun s m =>
    withFar s m.2.1 m.2.2.1 m.2.2.2 m.2.2.2.wholeKey none (podPkg m.2.2.2.b.toNat).toList
      [stRights, stNomap, stPoison] id) s

/-- Whether what a member asked for its source is answered. -/
def Cmd.sourceHere (s : State) (c : Cmd) : Bool :=
  (podPkg c.b.toNat).all (fun p => p == s.pkg) || c.prog.far.any (fun x => x.e == c.wholeKey && x.st.isSome)

/-- Read the sources of the members here, rank by rank: their bytes, their poisoned elements, and the units whose tokens
are waited for. -/
def gatherColl (s : State) :
    List (Nat × Nat × Nat × Cmd) → State × List (Nat × List Byte) × List (Nat × Nat) × List Ticket
  | [] => (s, [], [], [])
  | (r, k, ch, c) :: l =>
      let (segs, far) : List (Nat × Hit × Nat) × Bool := match reach s k c false c.b.toNat c.c.toNat with
        | .ok x => (x, false)
        | .remote => ([], true)
        | _ => ([], false)
      let s := payUnits s k ch c (tierUnits segs)
      let due := ((s.headCmd k ch).map (·.prog.due)).getD []
      let (s, bs) := if far then freeBytes s c.c.toNat else readSegs (touchSegs s k c segs) k c segs
      let bad := segs.flatMap (fun g => match s.poisonIn g.2.1.dpa g.2.2 with
        | some _ => (List.range g.2.2).map (fun i => (r, (g.1 + i - c.b.toNat) / esOf c.i))
        | none => [])
      let rest := gatherColl s l
      (rest.1, (r, bs) :: rest.2.1, bad ++ rest.2.2.1, due ++ rest.2.2.2)

/-- The sources of a collective by rank: those gathered here, and those that came from other packages. -/
def Coll.sources (y : Coll) (here : List (Nat × List Byte)) : List (List Byte) :=
  (List.range y.nmemb).map (fun r =>
    match here.find? (fun x => x.1 == r) with
    | some x => x.2
    | none => ((y.far.find? (fun x => x.rank == r)).map (·.src)).getD [])

/-- The first collective of a group that is ready to go on. -/
def State.wholeColl (s : State) (f g : Nat) : Option Coll :=
  s.colls.find? (fun c => c.fn == f && c.group == g && collReady s c)

/-- A collective chooses its form: it takes a reduction context if the function has a free one, and is reduced at the
endpoints if not; it never changes it (R348). Whether the packages of members elsewhere have one free is a choice
(log 19). -/
def decideColl (s : State) (y : Coll) (cs : List (Nat × Nat × Nat × Cmd)) : State :=
  if y.decided then s
  else
    let d := s.fn y.fn
    let (s, free) := if y.far.isEmpty then (s, 1) else s.choose 0
    let fab := decide (d.rctxInuse < d.rctxCount) && free == 1
    let s := s.updColl y.fn y.group (fun y => { y with decided := true, inFabric := fab })
    let s := if fab then s.updFn y.fn (fun d => { d with rctxInuse := d.rctxInuse + 1 }) else s
    cs.foldl (fun s m => s.updCmd m.2.1 m.2.2.1 m.2.2.2.serial (fun c => { c with
      prog := { c.prog with ep := !fab } })) s

/-- COLLECTIVE FORM (R348): members that disagree all end DESC; otherwise the collective chooses its form at once, and its
sources are read when their pages are there, and what other packages hold of them has been answered. Every member waits
for the tokens of all sources (R342); members elsewhere hear of the result in reduction flits (R344). -/
def execCollectiveForm (fn group : Nat) (s : State) : Host.Outcome State Fault Refusal :=
  .next (match s.wholeColl fn group with
    | none => s
    | some y =>
        match y.cmds s with
        | [] => s
        | (r0, k0, ch0, c0) :: rest =>
            let cs := (r0, k0, ch0, c0) :: rest
            if cs.any (fun m => collKey m.2.2.2 != collKey c0) || y.far.any (fun x => x.key != collKey c0) then
              cs.foldl (fun s m => stopCmd s m.2.1 m.2.2.1 m.2.2.2 stDesc 0) s
            else
              let s := decideColl s y cs
              match cs.findSome? (fun m =>
                  match reach s m.2.1 m.2.2.2 false m.2.2.2.b.toNat m.2.2.2.c.toNat with
                  | .ok _ => none
                  | .remote => none
                  | x => some (m, x)) with
              | some (_, .miss f g w) =>
                  let (s, n) := requestPage s f g w
                  s.updColl fn group (fun y => { y with page := some n })
              | some (m, .stop st rep) => stopCmd (s.report rep) m.2.1 m.2.2.1 m.2.2.2 st 0
              | some _ => s
              | none =>
                  let s := askSources s cs
                  if !(y.cmds s).all (fun m => m.2.2.2.sourceHere s) then s
                  else
                    let s := s.updColl fn group (fun y => { y with page := none })
                    let (s, data, bad, due) := gatherColl s cs
                    let s := if y.far.isEmpty then s else (sendFlits s 4 0 s.routes).1
                    let s := s.updColl fn group (fun y => { y with formed := true, data := y.sources data, bad := bad })
                    cs.foldl (fun s m => settleCmd (s.updCmd m.2.1 m.2.2.1 m.2.2.2.serial (fun c => { c with
                      prog := { c.prog with due := due } })) m.2.1 m.2.2.1) s)

/-- The operation of a reduction on element codes (R216). -/
def collOp (op : Nat) (a b : Nat) : Nat × Flags :=
  match op with
  | 0 => addC .f32 .rne a b
  | 1 => addC .bf16 .rne a b
  | 2 => ((a + b) % 2 ^ 32, 0)
  | 3 => minMaxF .f32 true a b
  | _ => minMaxF .f32 false a b

/-- Element `e` of a member's source. -/
def collSrc (y : Coll) (es rank e : Nat) : Nat :=
  ofBytes (((((y.data[rank]?).getD []).drop (e * es)).take es))

/-- Element `i` of a collective's result for a member, with the source elements it is formed from (R216). -/
def collElem (y : Coll) (c : Cmd) (i : Nat) : Nat × List (Nat × Nat) :=
  let es := esOf c.i
  let (kind, op, n) := collKey c
  let e := n / es
  match kind with
  | 2 => (collSrc y es (i / e) (i % e), [(i / e, i % e)])
  | 3 => (collSrc y es (numAt c.prog.desc 8 2) i, [(numAt c.prog.desc 8 2, i)])
  | _ =>
      let j := (collShare kind e y.nmemb (numAt c.prog.desc 6 2)).1 + i
      let xs := (List.range y.nmemb).map (fun r => collSrc y es r j)
      let v :=
        if y.inFabric then (xs.drop 1).foldl (fun a x => (collOp op a x).1) (xs.headD 0)
        else (treeReduce (collOp op) (Nat.log2 (2 * y.nmemb - 1)) xs).1
      (v, (List.range y.nmemb).map (fun r => (r, j)))

/-! ## Elements -/

/-- The pace of a command: bytes in a tick, 0 for unpaced (R208). -/
def paceOf : Instr → Nat
  | .xcopy _ _ _ p .. | .xgather _ _ _ p .. | .xscatter _ _ _ p .. | .xacc _ _ _ _ p .. | .xfill _ _ _ p ..
  | .xexpand _ _ _ p .. | .kvget _ _ p .. => p.toNat
  | _ => 0

/-- Whether the pace lets `n` more bytes be delivered in this tick (R208); what a conversion delivers together and is more
than the pace has a tick of its own (log 93). -/
def paceLets (s : State) (c : Cmd) (n : Nat) : Bool :=
  let done := if c.prog.tick = s.now then c.prog.bytes else 0
  paceOf c.i = 0 || done + n ≤ paceOf c.i || (done = 0 && paceOf c.i < n)

/-- Where element `e` of a command stands: as it was set aside, or where the command has come to. -/
def Cmd.place (c : Cmd) (e : Nat) : Defer :=
  (c.prog.deferred.find? (fun d => d.e == e)).getD { e := e, req := 0, spos := c.prog.spos, dpos := c.prog.dpos }

/-- Where in the command's delivery element `e` stands. -/
def Cmd.offset (c : Cmd) (e : Nat) : Nat :=
  match c.i with
  | .xcopy _ _ _ _ _ _ _ none => (c.place e).dpos
  | _ => e * esOf c.i

/-- The bytes of the metadata of a 2:4 group: its address (R210). -/
def metaAt (c : Cmd) (e : Nat) : Nat := (c.b + BitVec.ofNat 64 (c.c.toNat / 2 + e / 4)).toNat

/-- What element `e` reads in memory, (address, bytes), without the old value at its destination. -/
def elemReads (s : State) (c : Cmd) (e : Nat) : List (Nat × Nat) :=
  let es := esOf c.i
  let g := c.args
  let lin (b : Word) (e : Nat) : Nat := (b + BitVec.ofNat 64 (e * es)).toNat
  match c.i with
  | .xcopy _ _ _ _ _ _ _ none =>
      let p := c.place e
      [((g.b + BitVec.ofNat 64 (p.spos / 2)).toNat, min es (g.c.toNat - p.dpos))]
  | .xcopy _ _ _ _ _ _ _ (some _) =>
      match patternOf c.prog.desc es with
      | some p => [(patSrc p g es e, es)]
      | none => []
  | .xgather .. => [((g.b + idxOff g.vec e es).toNat, es)]
  | .xscatter .. | .xacc .. => [(lin g.b e, es)]
  | .xexpand .. => (metaAt c e, 1) :: [2 * (e / 4), 2 * (e / 4) + 1].map (fun n => (lin g.b n, es))
  | .kvappend .. =>
      match s.layer (s.fnOf c.launch) (nameLayer g.b) with
      | some y => [((g.a + BitVec.ofNat 64 (e * y.bpt)).toNat, y.bpt)]
      | none => []
  | _ => []

/-- Where element `e` writes in memory, (address, bytes); a ring destination is not among them. -/
def elemWrite (s : State) (c : Cmd) (e : Nat) : Option (Nat × Nat) :=
  let es := esOf c.i
  let g := c.args
  let lin (e : Nat) : Nat := (g.a + BitVec.ofNat 64 (e * es)).toNat
  if (ringDst c.i).isSome then none
  else match c.i with
    | .xcopy _ _ _ _ _ _ _ none =>
        let p := c.place e
        some ((g.a + BitVec.ofNat 64 p.dpos).toNat, min es (g.c.toNat - p.dpos))
    | .xcopy _ _ _ _ _ _ _ (some _) => (patternOf c.prog.desc es).map (fun p => (patDst p g es e, es))
    | .xscatter .. => some ((g.a + idxOff g.vec e es).toNat, es)
    | .kvappend .. | .xorder .. => none
    | .kvsum .. =>
        (s.layer (s.fnOf c.launch) (nameLayer g.b)).map (fun y =>
          ((g.a + BitVec.ofNat 64 (e * y.sumBytes)).toNat, y.sumBytes))
    | _ => some (lin e, es)

/-- The result address of XFETCH and XCAS (R213). -/
def elemResult (c : Cmd) : Option (Nat × Nat) :=
  match c.i with
  | .xfetch .. => some (c.c.toNat, esOf c.i)
  | .xcas .. => some (c.x.toNat, esOf c.i)
  | _ => none

/-- Whether an element's operands must be naturally aligned (R212, R213, R214). -/
def alignedOnly : Instr → Bool
  | .xacc .. | .xfetch .. | .xcas .. | .xsignal .. => true
  | _ => false

/-- Whether element `e` must wait for an element that was set aside before it (R305): one whose bytes it meets, or an
earlier token of a KVAPPEND, which is written whole before the next is read (R231). What a converting copy takes at
once is at most 64 bytes. -/
def behindDeferred (s : State) (c : Cmd) (e : Nat) : Bool :=
  let n := if c.fmts.isEmpty then 0 else 64
  let hit (a b : Nat × Nat) : Bool := meets a.1 (max a.2 n) b.1 (max b.2 n)
  let w := (elemWrite s c e).toList ++ (elemResult c).toList
  c.prog.deferred.any (fun d => d.e < e &&
    (match c.i with
     | .kvappend .. => true
     | _ =>
        (elemWrite s c d.e).toList.any (fun x => w.any (hit x) || (elemReads s c e).any (hit x))
          || (elemReads s c d.e).any (fun x => w.any (hit x))))

/-- The source of a dense element of 2:4 data, or DESC (R210): the address, none for a zero. -/
def expandSrc (c : Cmd) (e : Nat) (m : Nat) : Option (Option Nat) :=
  let es := esOf c.i
  let i0 := m % 4
  let i1 := m / 4 % 4
  let j := e % 4
  let g := e / 4
  let at_ (n : Nat) : Option Nat := some (c.b + BitVec.ofNat 64 (n * es)).toNat
  if m / 16 ≠ 0 ∨ i1 ≤ i0 then none
  else some (if j = i0 then at_ (2 * g) else if j = i1 then at_ (2 * g + 1) else none)

/-- The new value of XACC at an element (R212). -/
def xaccNew (op es d v : Nat) : Nat × Flags :=
  match op with
  | 0 => ((d + v) % 2 ^ 32, 0)
  | 1 => addC .f32 .rne d v
  | 2 => addC .bf16 .rne d v
  | 3 => (codeOf .i32 (min (intOf .i32 d) (intOf .i32 v)), 0)
  | 4 => (codeOf .i32 (max (intOf .i32 d) (intOf .i32 v)), 0)
  | 5 => minMaxF .f32 false d v
  | 6 => minMaxF .f32 true d v
  | 7 => (d &&& v, 0)
  | 8 => (d ||| v, 0)
  | _ => ((d ^^^ v) % 2 ^ (8 * es), 0)

/-- The new value of XFETCH (R213). -/
def xfetchNew (op es d v : Nat) : Nat :=
  let t : Ty := if es = 4 then .i32 else .i64
  let m := 2 ^ (8 * es)
  match op with
  | 0 => (d + v) % m
  | 1 => d &&& v
  | 2 => d ||| v
  | 3 => d ^^^ v
  | 4 => codeOf t (min (intOf t d) (intOf t v))
  | 5 => codeOf t (max (intOf t d) (intOf t v))
  | 6 => min d v
  | 7 => max d v
  | _ => v

/-- What element `e` writes, from what it read and from the old value at its destination (R205 to R216). -/
def elemValue (s : State) (k ch : Nat) (c : Cmd) (rd : Nat) (old : Nat) : Nat × Flags :=
  let es := esOf c.i
  let m := 2 ^ (8 * es)
  match c.i with
  | .xacc _ op .. => xaccNew op.toNat es old rd
  | .xfetch _ op .. => (xfetchNew op.toNat es old (c.b.toNat % m), 0)
  | .xcas .. => (if old = c.b.toNat % m then c.c.toNat % m else old, 0)
  | .xfill .. => (c.b.toNat % m, 0)
  | .xsignal _ op .. =>
      (if op = 0 then c.b.toNat else if op = 1 then (old + c.b.toNat) % m
       else (chstat ((s.core k).chn ch)).toNat, 0)
  | _ => (rd, 0)

/-- Whether an operation reads the old value at its destination. -/
def readsOld : Instr → Bool
  | .xacc .. | .xfetch .. | .xcas .. => true
  | .xsignal _ op .. => op == 1
  | _ => false

/-- Whether the ring the command fills takes the slot that byte `o` of its delivery falls in, and the linear
address of that byte (R176, R209). -/
def ringByte (s : State) (k : Nat) (c : Cmd) (r o : Nat) : Option Nat :=
  let g := (s.core k).rng r
  let ahead := g.owed + (o / g.slotb - c.prog.filled)
  if g.full + ahead < g.slots then
    some (swizzle (g.dpa + (g.tail + ahead) % g.slots * g.slotb + o % g.slotb))
  else none

/-- A slot that is complete counts in FULL, and its bytes are ordered before the reader (R209, R249). -/
def fillSlot (s : State) (k r : Nat) : State :=
  let g := (s.core k).rng r
  let lo := g.dpa + g.tail * g.slotb
  (s.updRing k r (fun g => { g with
      tail := (g.tail + 1) % g.slots, full := g.full + 1, owed := g.owed - 1, fillAt := s.cycle + 1 })).updCore k (fun c =>
    { c with xview := keepViews (c.xview.map (fun e =>
        if within (swizzle e.unit) lo g.slotb then
          { e with writes := e.writes.map (fun w => if w.swz then w else { w with joined := true }) }
        else e)) })

/-- A slot that was filled and is not counted is counted now, unless the ring's tail has moved in this cycle (R176). -/
def countSlot (s : State) (k r : Nat) : State :=
  let g := (s.core k).rng r
  if g.owed = 0 ∨ g.fillAt = s.cycle + 1 then s else fillSlot s k r

/-- The slots that a channel's command has filled are the ring's: one of them counts at once, the others one a cycle
(R176, R209). -/
def fillSlots (s : State) (k ch : Nat) : State :=
  match s.headCmd k ch with
  | none => s
  | some c =>
      match ringDst c.i with
      | none => s
      | some r =>
          let n := c.wholeSlots - c.prog.filled
          let s := if n = 0 then s
            else (s.updRing k r (fun g => { g with owed := g.owed + n })).updCmd k ch c.serial (fun c => { c with
              prog := { c.prog with filled := c.prog.filled + n } })
          countSlot s k r

/-- The slots of every ring of a core that are still to be counted: one each (R176). -/
def countSlots (s : State) (k : Nat) : State := (List.range 16).foldl (fun s r => countSlot s k r) s

/-- An element's bytes are delivered: WPOS (R201), the pace (R208), flags (R83), the ring (R209), the copy datapath (R319),
and the end of the command (R317). `u` moves the command on. -/
def delivered (s : State) (k ch : Nat) (c : Cmd) (bytes : Nat) (f : Flags) (u : Prog → Prog) : State :=
  let s := s.updCore k (fun x => { x with moved := true })
  let s := s.updChan k ch (fun h => { h with wpos := h.wpos + BitVec.ofNat 64 bytes })
  let s := s.updCmd k ch c.serial (fun c => { c with
    prog := u { c.prog with
      bytes := (if c.prog.tick = s.now then c.prog.bytes else 0) + bytes, tick := s.now
      flags := orFlags c.prog.flags f } })
  settleCmd (fillSlots s k ch) k ch

/-- The command moves on past what nothing is delivered for: partial e2m1 blocks, and destination bytes that hold no whole
element (R70). No data moves (R319). -/
def passed (s : State) (k ch : Nat) (c : Cmd) (u : Prog → Prog) : State :=
  settleCmd (fillSlots (s.updCmd k ch c.serial (fun c => { c with prog := u c.prog })) k ch) k ch

/-- The move past the elements that begin with `e`, set aside or not: so many elements, nibbles of the source and bytes of
the destination. -/
def Prog.pastBy (e n sn dn : Nat) (p : Prog) : Prog :=
  if p.e ≤ e then { p with e := e + n, dpos := p.dpos + dn, spos := p.spos + sn, far := p.far.filter (fun x => x.e != e) }
  else { p with deferred := p.deferred.filter (fun d => d.e != e), released := p.released.filter (· != e)
                far := p.far.filter (fun x => x.e != e) }

/-- The move past element `e`, set aside or not. -/
def Prog.past (c : Cmd) (e : Nat) (p : Prog) : Prog := p.pastBy e 1 (2 * esOf c.i) (esOf c.i)

/-! ## Converting copies (R70, R71) -/

/-- A value rounded once to a type, saturating to the largest finite value (R70). An element of an integer bank outside
the range of another integer type saturates too, and sets NV as one of a floating-point bank does (log 94, DESIGN
CHOICE: R73 names other operations only). -/
def convFV (t : Ty) (v : FV) : Nat × Flags :=
  if t.isInt then
    match v with
    | .nan _ => (0, fNV)
    | .inf n => (codeOf t (if n then (intRange t).1 else (intRange t).2), fNV)
    | .fin .. =>
        let (k, x) := toIntegral .rne v
        if k < (intRange t).1 || k > (intRange t).2 then (codeOf t (clampInt t k), fNV)
        else (codeOf t k, if x then fNX else 0)
  else match v with
    | .nan q => (canonNaN t, if q || t == .e2m1 then fNV else 0)
    | .inf n => (signBit t n + (fmtOf t).top, fOF ||| fNX)
    | .fin n .. =>
        let r := roundF t .rne false v
        if decide (r.1 % 2 ^ (t.width - 1) ≤ (fmtOf t).top) then r else (signBit t n + (fmtOf t).top, r.2)

/-- The value of a source element: an e2m1 code with its block scale (R70). -/
def convVal (u : Ty) (code scale : Nat) : FV :=
  if u.isInt then ofInt (intOf u code)
  else if u = .e2m1 then (mulF (decodeF .e2m1 code) (decodeF .e3m5 scale)).1
  else decodeF u code

/-- A block of eight values in e2m1: the scale byte and the codes (R16, R70). -/
def convBlock (vs : List FV) : Nat × List Nat × Flags :=
  let six := ofInt 6
  let big := vs.foldl (fun m v => if cmpF m v.abs == .lt then v.abs else m) (ofInt 0)
  let sc := if vs.any FV.isNaN || big.isInf then none else e3m5AtLeast big six
  let s := sc.getD 0xFF
  let q (v : FV) : Nat × Flags :=
    if s = 0 then (0, 0)
    else match v, decodeF .e3m5 s with
      | .fin n m e, .fin _ k x => roundQ .e2m1 .rne false n m k (e - x)
      | v, _ => convFV .e2m1 v
  let l := vs.map q
  (s, l.map (·.1), l.foldl (fun f x => f ||| x.2) (if s = 0xFF then fOF else 0))

/-- The scale byte of a device-physical byte of codes, by the formats of its core (R69, R71). -/
def scaleOf (fmts : Tbl (Tbl Word)) (a : Nat) : Option Nat :=
  (padOf a).bind (fun h => scaleAt (Tbl.getD fmts h []) a)

/-- The scale bytes of source elements in reached bytes; none for a type without. -/
def convScales (c : Cmd) (l : List (Nat × Ty)) (segs : List (Nat × Hit × Nat)) : List (Option Nat) :=
  let sa := ((l.head?).map (·.1)).getD 0 / 2
  l.map (fun x =>
    if x.2 ≠ .e2m1 then none
    else (pieceAt (segs.map (fun g => (g.2.1.dpa, g.2.2))) (x.1 / 2 - sa)).bind (scaleOf c.fmts))

/-- The scale bytes themselves, as the command's context sees them, every unit checked (R200, R330). -/
def readScales (s : State) (k : Nat) (c : Cmd) (l : List (Option Nat)) : State × List Nat :=
  let hs := (s.ctx k c.slot).myHeld c.inst
  l.foldl (fun (acc : State × List Nat) a =>
    match a with
    | none => (acc.1, acc.2 ++ [0])
    | some a =>
        let r := readPad (acc.1.checkRead a 1) k c.slot a 1 false
        (r.1, acc.2 ++ [ofBytes (overHeld hs a r.2)])) (s, [])

/-- The values of source elements, from the bytes they lie in and the scale of each. -/
def convVals (l : List (Nat × Ty)) (bs : List Byte) (scales : List Nat) : List FV :=
  let sa := ((l.head?).map (·.1)).getD 0 / 2
  let all := ofBytes bs
  List.zipWith (fun x sc => convVal x.2 (all / 2 ^ (4 * (x.1 - 2 * sa)) % 2 ^ x.2.width) sc) l scales

/-- The bytes of values in type `t`, with the scale byte of each e2m1 block and the flags. -/
def convBytes (t : Ty) (vs : List FV) : List Byte × List Nat × Flags :=
  if t = .e2m1 then
    let bs := (chunk 8 vs.length vs).map convBlock
    (bs.flatMap (fun b => toBytes 4 (packElems 4 b.2.1)), bs.map (·.1), bs.foldl (fun f b => f ||| b.2.2) 0)
  else
    let l := vs.map (convFV t)
    (codeBytes t (l.map (·.1)), [], l.foldl (fun f x => f ||| x.2) 0)

/-- Where a byte of a contiguous or patterned copy's delivery goes, where it is not held up. -/
def dstHit (s : State) (k : Nat) (c : Cmd) (a o : Nat) : Option Hit :=
  match ringDst c.i with
  | some r => (ringByte s k c r o).map (fun d => { dpa := d, tier := 1, home := k, kind := 0 })
  | none =>
      if isPod a then none
      else match byteRights s k c.who .cmd a true with
        | .hit h => some h
        | _ => none

/-- The types of the next element of a copy at a source and a destination address, if it converts. -/
def convHere (s : State) (k : Nat) (c : Cmd) (sa da o : Nat) : Option (Ty × Ty × Hit) :=
  if isPod sa then none
  else match byteRights s k c.who .cmd sa false, dstHit s k c da o with
    | .hit h, some d => (convTypes c.fmts h d).map (fun x => (x.1, x.2, d))
    | _, _ => none

/-- Set an element aside for a page request, or send its request again (R301, R305, R315). A command that would set a
65th aside waits; one that can send no request is held at the element until a group index is free, and what was answered
goes on past it. `p` says where the element stands, and `u` moves the command on. -/
def deferElem (s : State) (k ch : Nat) (c : Cmd) (p : Defer) (u : Prog → Prog) (f g : Nat) (w : Bool) : State :=
  let again := c.prog.deferred.any (fun d => d.e == p.e)
  if !again && 64 ≤ c.prog.deferred.length then s
  else
    let (t, n) := requestPage s f g w
    if n = noRequest then
      s.updCmd k ch c.serial (fun c => { c with prog := { c.prog with wants := some p.e } })
    else t.updCmd k ch c.serial (fun c => { c with prog :=
      if again then { c.prog with
        deferred := c.prog.deferred.map (fun d => if d.e = p.e then { d with req := n, write := w } else d)
        released := c.prog.released.filter (· != p.e) }
      else { u c.prog with deferred := c.prog.deferred ++ [{ p with req := n, write := w }] } })

/-- Whether a scale byte of what is converted lies in a poisoned unit; and where its destination's scale bytes lie. -/
def State.badScale (s : State) (scales : List (Option Nat)) : Option Nat :=
  if s.poison.isEmpty then none else scales.findSome? (fun a => a.bind (fun a => s.poisonIn a 1))

/-- Convert elements: `l` are the source elements by their nibbles, `dd` the device-physical and `da` the virtual address of
the destination, `o` its place in the delivery, `p` where they stand, and `u` moves the command on. The scale byte of an
e2m1 block is delivered with its codes, and counts in WPOS and in the pace as they do (log 93, DESIGN CHOICE: R70 does not
say). -/
def convElems (s : State) (k ch : Nat) (c : Cmd) (t : Ty) (l : List (Nat × Ty)) (dd da o : Nat) (p : Defer)
    (u : Prog → Prog) : State :=
  let sn := ((l.head?).map (·.1)).getD 0
  let sa := sn / 2
  let dn := l.length * t.width / 8
  let sd : List Nat := if t = .e2m1 then (List.range (l.length / 8)).filterMap (fun i => scaleOf c.fmts (dd + 4 * i)) else []
  let dr : Reach := match ringDst c.i with
    | some r => match ringByte s k c r o with
        | some d => reachPad s k c d da dn
        | none => .wait
    | none => reach s k c true da dn
  let sr := reach s k c false sa ((elemsEnd sn l + 1) / 2 - sa)
  match firstHeldUp ([sr, dr] ++ (if sd.any (s.cellIn · 1) then [.stop stRights none] else [])) with
  | some (.stop x r) => stopCmd (s.report r) k ch c x c.prog.prefixLen
  | some (.miss f g w) => deferElem s k ch c p u f g w
  | some _ => s
  | none =>
      if !paceLets s c (dn + sd.length) then s
      else
        let ss := sr.segs
        let ds := dr.segs
        withTokens s k ch c (tierUnits (ss ++ ds)) (fun s =>
          let scales := convScales c l ss
          if (poisonSegs s ss).isSome || (s.badScale scales).isSome then
            stopCmd ((checkSegs s ss).addPoison (segUnits ds ++ sd.map (fun a => a / 64 * 64))) k ch c stPoison
              c.prog.prefixLen
          else
            let (s, sv) := readScales s k c scales
            let (s, bs) := readSegs (touchSegs s k c ss) k c ss
            let (out, sc, f) := convBytes t (convVals l bs sv)
            let s := writeSegs s k ch c da ds out
            let s := (List.zip sc sd).foldl (fun s x => writePad s k x.2 false (toBytes 1 x.1) (some ch)) s
            delivered s k ch c (dn + sd.length) f u)

/-- What a contiguous copy passes over at a place, in nibbles of the source and bytes of the destination: the bytes before
the first whole e2m1 block, and the bytes at its end that hold no whole element or block (R70). -/
def passOver (s : State) (k : Nat) (c : Cmd) (p : Defer) : Nat × Nat :=
  let left := c.c.toNat - p.dpos
  match convHere s k c ((2 * c.b.toNat + p.spos) / 2) (c.a + BitVec.ofNat 64 p.dpos).toNat p.dpos with
  | none => (0, 0)
  | some (t, u, dh) =>
      let lead := if t = .e2m1 then min left ((4 - dh.dpa % 4) % 4) else 0
      let n := if left - lead < (if t = .e2m1 then 4 else t.width / 8) then left else lead
      (n * 8 / t.width * (u.width / 4), n)

/-- A contiguous copy passes over what it delivers nothing for, in the cycle of the element before it (R317, R319). -/
def passRest (s : State) (k ch : Nat) : State :=
  match s.headCmd k ch with
  | none => s
  | some c =>
      let x := passOver s k c (c.place c.prog.e)
      if !c.prog.started || c.prog.stop.isSome || x.2 = 0 then s
      else passed s k ch c (Prog.pastBy c.prog.e 0 x.1 x.2)

/-- Element `p` of a contiguous copy, where its banks convert; none where they do not (R70). -/
def convNext (s : State) (k ch : Nat) (c : Cmd) (p : Defer) : Option State :=
  let sn := 2 * c.b.toNat + p.spos
  let da := (c.a + BitVec.ofNat 64 p.dpos).toNat
  (convHere s k c (sn / 2) da p.dpos).map (fun x =>
    let (t, st, dh) := x
    let n := if t = .e2m1 then 8 else 1
    let l := srcElems (s.srcTy k c.who c.fmts) st sn n
    convElems s k ch c t l dh.dpa da p.dpos p (Prog.pastBy p.e n (elemsEnd sn l - sn) (n * t.width / 8)))

/-- An element of a patterned copy whose banks convert; none where they do not. It is taken as a contiguous copy of its
bytes is: whole destination elements and whole blocks, and nothing where it holds none (R70, log 104, DESIGN CHOICE). -/
def convPattern (s : State) (k ch : Nat) (c : Cmd) (e : Nat) : Option State :=
  let es := esOf c.i
  match patternOf c.prog.desc es with
  | none => none
  | some p =>
      let sa := patSrc p c.args es e
      let da := patDst p c.args es e
      (convHere s k c sa da (e * es)).map (fun x =>
        let (t, st, dh) := x
        let (lead, l) := patConv (s.srcTy k c.who c.fmts) t st (2 * sa) dh.dpa es
        if l.isEmpty then passed s k ch c (Prog.past c e)
        else convElems s k ch c t l (dh.dpa + lead) (da + lead) (e * es + lead) (c.place e) (Prog.past c e))

/-! ## One element of a command that does not convert -/

/-- The bytes of an element whose reads are all on this package, and what it delivers. -/
def applyElem (s : State) (k ch : Nat) (c : Cmd) (e : Nat) (rs : List (List (Nat × Hit × Nat)))
    (dst : Option (Nat × List (Nat × Hit × Nat))) (n : Nat) (res : Option (Nat × List (Nat × Hit × Nat))) :
    State :=
  let ds := (dst.map (·.2)).getD []
  let all := rs.flatten ++ (if readsOld c.i then ds else [])
  match poisonSegs s all with
  | some _ =>
      let s := checkSegs s all
      let s := if readsOld c.i then s else s.addPoison (segUnits ds)
      stopCmd s k ch c stPoison c.prog.prefixLen
  | none =>
      let s := touchSegs s k c (all ++ ds ++ (res.map (·.2)).getD [])
      let (s, rd) := rs.foldl (fun (acc : State × List Byte) l =>
        let r := readSegs acc.1 k c l
        (r.1, r.2)) (s, [])
      let (s, old) := if readsOld c.i then readSegs s k c ds else (s, [])
      let (v, f) := elemValue s k ch c (ofBytes rd) (ofBytes old)
      let s := match dst with
        | some (a, l) => writeSegs s k ch c a l (toBytes n v)
        | none => s
      let s := match res with
        | some (a, l) => writeSegs s k ch c a l old
        | none => s
      delivered s k ch c n f (Prog.past c e)

/-- The other packages whose memory the addresses of an element name (R346). -/
def podPkgs (s : State) (c : Cmd) (e : Nat) : List Nat :=
  let as := (elemReads s c e).map (·.1) ++ ((elemWrite s c e).map (·.1)).toList ++ ((elemResult c).map (·.1)).toList
  ((as.filter isPod).map (fun a => a / 2 ^ 48 % 1024)).eraseDups

/-- An element with a part on another package, which has answered: what it reads there is a free value, and what it writes
there changes nothing here (log 19). -/
def remoteElem (s : State) (k ch : Nat) (c : Cmd) (e : Nat) (rs : List Reach)
    (dst : Option (Nat × List (Nat × Hit × Nat))) (n : Nat) (res : Option (Nat × List (Nat × Hit × Nat))) : State :=
  let here := rs.flatMap Reach.segs
  match poisonSegs s here with
  | some _ => stopCmd (checkSegs s here) k ch c stPoison c.prog.prefixLen
  | none =>
      let m := 2 ^ (8 * esOf c.i)
      let (s, w) := s.drawFree
      let (s, o) := s.drawFree
      let (s, rd) := if rs.contains .remote then (s, w.toNat % m)
        else
          let r := readSegs (touchSegs s k c here) k c here
          (r.1, ofBytes r.2 % m)
      let (v, f) := elemValue s k ch c rd (o.toNat % m)
      let s := match dst with
        | some (a, l) => writeSegs s k ch c a l (toBytes n v)
        | none => s
      let s := match res with
        | some (a, l) => writeSegs s k ch c a l (toBytes (esOf c.i) o.toNat)
        | none => s
      delivered s k ch c n f (Prog.past c e)

/-- Element `e` from what it reads, `rds`, to where it writes. -/
def dataElem (s : State) (k ch : Nat) (c : Cmd) (e : Nat) (rds : List (Nat × Nat)) : State :=
  let es := esOf c.i
  let len := match c.i with
    | .xcopy _ _ _ _ _ _ _ none => min es (c.c.toNat - (c.place e).dpos)
    | _ => es
  let ring : Option Reach := (ringDst c.i).map (fun r =>
    match ringByte s k c r (c.offset e) with
    | some d => reachPad s k c d 0 len
    | none => .wait)
  let wr := elemWrite s c e
  let rs := rds.map (fun r => reach s k c false r.1 r.2)
  let ds : Option (Nat × Nat × Reach) := match ring with
    | some x => some (0, len, x)
    | none => wr.map (fun w => (w.1, w.2, reach s k c true w.1 w.2))
  let old : List Reach := if readsOld c.i then wr.toList.map (fun w => reach s k c false w.1 w.2) else []
  let re := (elemResult c).map (fun w => (w.1, reach s k c true w.1 w.2))
  let n := match ds with
    | some (_, n, _) => n
    | none => 0
  let allR := rs ++ old ++ (ds.map (fun d => d.2.2)).toList ++ (re.map (·.2)).toList
  if alignedOnly c.i && (rds ++ wr.toList).any (fun r => r.1 % es != 0) then
    stopCmd s k ch c stAlign c.prog.prefixLen
  else match firstHeldUp allR with
    | some (.stop st rep) => stopCmd (s.report rep) k ch c st c.prog.prefixLen
    | some (.miss f g w) => deferElem s k ch c (c.place e) (Prog.past c e) f g w
    | some _ => s
    | none =>
        withFar s k ch c e (some (c.place e, Prog.past c e)) (podPkgs s c e) [stRights, stNomap, stPoison] (fun s =>
          if !paceLets s c n then s
          else
            let dst := ds.map (fun d => (d.1, d.2.2.segs))
            let res := re.map (fun d => (d.1, d.2.segs))
            withTokens s k ch c (tierUnits (allR.flatMap Reach.segs)) (fun s =>
              if allR.contains .remote then remoteElem s k ch c e rs dst n res
              else applyElem s k ch c e (rs.map Reach.segs) dst n res))

/-- Element `e` of a contiguous copy: it converts, or its bytes move unchanged (R70). -/
def copyElem (s : State) (k ch : Nat) (e : Nat) : State :=
  let s := passRest s k ch
  match s.headCmd k ch with
  | none => s
  | some c =>
      if c.finished || c.prog.stop.isSome then s
      else passRest (match convNext s k ch c (c.place e) with
        | some t => t
        | none => dataElem s k ch c e (elemReads s c e)) k ch

/-- Element `e` of an XEXPAND, whose group has the metadata byte `m`: the byte is kept while elements of the group are
to come (R210). -/
def expandWith (s : State) (k ch : Nat) (c : Cmd) (e m : Nat) : State :=
  let g := e / 4
  let keep (p : Prog) : Prog :=
    let l := p.metas.filter (fun x => x.1 == p.e / 4 || p.deferred.any (fun d => d.e / 4 == x.1))
    { p with metas := Tbl.set l g m }
  let s := s.updCmd k ch c.serial (fun c => { c with prog := keep c.prog })
  match expandSrc c e m with
  | none => stopCmd s k ch c stDesc (min (g * 4) c.prog.prefixLen)
  | some (some a) => dataElem s k ch c e [(a, esOf c.i)]
  | some none => dataElem s k ch c e []

/-- Element `e` of an XEXPAND: the metadata of its group is read once (R210). -/
def expandElem (s : State) (k ch : Nat) (c : Cmd) (e : Nat) : State :=
  match Tbl.find c.prog.metas (e / 4) with
  | some m => expandWith s k ch c e m
  | none =>
      let m := metaAt c e
      match reach s k c false m 1 with
      | .ok segs =>
          match poisonSegs s segs with
          | some _ => dataElem s k ch c e [(m, 1)]
          | none => withTokens s k ch c (tierUnits segs) (fun s =>
              let r := readSegs (touchSegs s k c segs) k c segs
              expandWith r.1 k ch c e (ofBytes r.2))
      | .remote => withFar s k ch c (c.wholeKey + 1 + e / 4) none (podPkg m).toList [stRights, stNomap, stPoison] (fun s =>
          let (s, w) := s.drawFree
          expandWith s k ch c e (w.toNat % 256))
      | _ => dataElem s k ch c e [(m, 1)]

/-! ## Elements of block-store commands and collectives -/

/-- Deliver `n` bytes at an element's destination (KVGET, KVSUM, XCOLL). `us` are the tier 2 units they come from, `pkgs` the
package, where it is another one, and `get` reads them: the bytes, and the offsets of those that came from a poisoned unit
(R202). -/
def deliver (s : State) (k ch : Nat) (c : Cmd) (e n : Nat) (us : List (Nat × Nat)) (pkgs : List Nat)
    (get : State → State × List Byte × List Nat) : State :=
  let dst : Option (Nat × Reach) := match ringDst c.i with
    | some r => some (0, match ringByte s k c r (e * esOf c.i) with
        | some d => reachPad s k c d 0 n
        | none => .wait)
    | none => (elemWrite s c e).map (fun w => (w.1, reach s k c true w.1 w.2))
  match dst with
  | none => s
  | some (a, r) =>
      match firstHeldUp [r] with
      | some (.stop st rep) => stopCmd (s.report rep) k ch c st c.prog.prefixLen
      | some (.miss f g w) => deferElem s k ch c (c.place e) (Prog.past c e) f g w
      | some _ => s
      | none => withFar s k ch c e (some (c.place e, Prog.past c e)) (pkgs ++ podPkgs s c e)
          (if r == .remote then [stRights, stNomap, stTrunc, stPoison] else [stTrunc, stPoison]) (fun s =>
          if !paceLets s c n then s
          else withTokens s k ch c (us ++ tierUnits r.segs) (fun s =>
            let (s, bs, bad) := get s
            if !bad.isEmpty then
              let hit := r.segs.filter (fun g => bad.any (fun o => within (a + o) g.1 g.2.2))
              stopCmd (s.addPoison (segUnits hit)) k ch c stPoison c.prog.prefixLen
            else if r == .remote then delivered s k ch c n 0 (Prog.past c e)
            else delivered (writeSegs (touchSegs s k c r.segs) k ch c a r.segs bs) k ch c n 0 (Prog.past c e)))

/-- The units of a stretch of a block, with the core whose controller serves them. -/
def blockUnits (s : State) (f g off n : Nat) : List (Nat × Nat) :=
  match s.block? f g with
  | none => []
  | some b => (unitsOf (b.paddr + off) n).map (fun u => (((dpaHome u.1).map (·.2)).getD 0, u.1 / 64 * 64))

/-- Bytes of a block of a package: of another package they are free values (R234, log 19); a poisoned unit that is found in
a block here sets POISON in its entry (R240). -/
def blockPart (f g off n pkg : Nat) (s : State) : State × List Byte × List Nat :=
  if pkg ≠ s.pkg then
    let (s, l) := freeBytes s n
    (s, l, [])
  else match s.block? f g with
    | none => (s, List.replicate n 0, [])
    | some b =>
        let a := b.paddr + off
        let s := s.checkRead a n
        let s := if (s.poisonIn a n).isSome then foundPoison s f g else s
        (s, Memory.bytes s.mem a n, (List.range n).filter (fun i => s.poisoned (a + i)))

/-- A line of a KVGET (R217). -/
def kvgetElem (s : State) (k ch : Nat) (c : Cmd) (e : Nat) : State :=
  let f := s.fnOf c.launch
  let g := c.prog.p0 - 1
  let pkg := if c.prog.p0 = 0 then ((s.kvLive f (nameKey c.b)).map (·.pkg)).getD (s.pkg + 1) else s.pkg
  deliver s k ch c e 128 (if c.prog.p0 = 0 then [] else blockUnits s f g (e * 128) 128) [pkg]
    (blockPart f g (e * 128) 128 pkg)

/-- The block an element of a KVSUM reads: the one its name meant when the command reached it, or what it names now
(R233, R239). -/
def sumBlock (s : State) (c : Cmd) (e : Nat) : Option KvEntry :=
  let blk := nameBlk c.b + e
  match Tbl.find c.prog.blks e with
  | some g => some { pkg := s.pkg, gbn := g }
  | none => if blk < 2 ^ 24 then s.kvLive (s.fnOf c.launch) (keyOf (nameSeq c.b) (nameLayer c.b) blk) else none

/-- The summaries of one block for a KVSUM (R217, R237). -/
def kvsumElem (s : State) (k ch : Nat) (c : Cmd) (e : Nat) : State :=
  let f := s.fnOf c.launch
  let bad := if (Tbl.find c.prog.blks e).isSome then none
    else s.badTable f (keyOf (nameSeq c.b) (nameLayer c.b) (nameBlk c.b + e))
  match s.layer f (nameLayer c.b), sumBlock s c e with
  | none, _ => stopCmd s k ch c stDesc c.prog.prefixLen
  | some y, b =>
    match bad, b with
    | some u, _ => stopCmd (s.report (some (3, f, u))) k ch c stPoison c.prog.prefixLen
    | none, none => stopCmd s k ch c stKvname c.prog.prefixLen
    | none, some n =>
      if !s.kvReach n then stopCmd s k ch c stNomap c.prog.prefixLen
      else
        let here := n.pkg == s.pkg
        let s := if here then s.updCmd k ch c.serial (fun c => { c with prog := { c.prog with
          blks := Tbl.set (c.prog.blks.filter (fun x => x.1 == c.prog.e || c.prog.deferred.any (fun d => d.e == x.1)))
            e n.gbn } }) else s
        deliver s k ch c e y.sumBytes (if here then blockUnits s f n.gbn y.soff y.sumBytes else []) [n.pkg]
          (blockPart f n.gbn y.soff y.sumBytes n.pkg)

/-- The block the next token of an append goes to, with the units of a copy whose tokens are waited for: the one that its
name meant when the command reached it, while it exists, though the name may be gone since or mean another (R239), or
what the name means now (R236). -/
def appendBlock (s : State) (c : Cmd) (y : Layer) (key i : Nat) : State × Status × Nat × List Ticket :=
  let f := s.fnOf c.launch
  match Tbl.find c.prog.blks i with
  | some g =>
      if (s.block? f g).isSome && !(s.kvLive f key).any (fun e => e.pkg == s.pkg && e.gbn == g) then (s, 0, g, [])
      else ownBlock s f c.launch y key
  | none => ownBlock s f c.launch y key

/-- The token of element `e` goes to place `t` of block `g`, from the reached source `r` (R231, R236, R237, R240). -/
def appendToken (s : State) (k ch : Nat) (c : Cmd) (e : Nat) (y : Layer) (t g : Nat) (r : Reach) : State :=
  let f := s.fnOf c.launch
  let sa := (c.a + BitVec.ofNat 64 (e * y.bpt)).toNat
  let a := ((s.block? f g).map (·.paddr)).getD 0
  let srcBad := r.segs.filter (fun x => (s.poisonIn x.2.1.dpa x.2.2).isSome)
  if !srcBad.isEmpty then
    let offs := srcBad.flatMap (fun x => (List.range x.2.2).map (fun i => x.1 + i - sa))
    let us := offs.filterMap (fun o => ((y.parts t).find? (fun q => within o q.1 q.2.2)).map (fun q =>
      (a + q.2.1 + (o - q.1)) / 64 * 64))
    stopCmd (poisonBlock (checkSegs s r.segs) f g us.eraseDups) k ch c stPoison c.prog.prefixLen
  else match tokenPoison s y a t with
    | some u => stopCmd (foundPoison (s.countUe u) f g) k ch c stPoison c.prog.prefixLen
    | none =>
        let (s, bs) := if r == .remote then freeBytes s y.bpt
          else readSegs (touchSegs s k c r.segs) k c r.segs
        let s := (blockWrites s f g a (fun s => writeToken s f y a t bs)).updBlock f g (fun b => { b with dirty := true })
        delivered s k ch c 0 0 (Prog.past c e)

/-- A token of a KVAPPEND (R231, R236, R237, R240). -/
def kvappendElem (s : State) (k ch : Nat) (c : Cmd) (e : Nat) : State :=
  let f := s.fnOf c.launch
  match s.layer f (nameLayer c.b) with
  | none => stopCmd s k ch c stDesc c.prog.prefixLen
  | some y =>
      let p := c.prog.p0 + e
      let key := keyOf (nameSeq c.b) (nameLayer c.b) (p / y.tpb)
      if 2 ^ 24 ≤ p / y.tpb then stopCmd s k ch c stKvlen c.prog.prefixLen
      else
        let sa := (c.a + BitVec.ofNat 64 (e * y.bpt)).toNat
        let r := reach s k c false sa y.bpt
        match firstHeldUp [r] with
        | some (.stop st rep) => stopCmd (s.report rep) k ch c st c.prog.prefixLen
        | some (.miss fn g w) => deferElem s k ch c (c.place e) (Prog.past c e) fn g w
        | some _ => s
        | none =>
            let owner := ((s.kvLive f key).filter s.kvReach).map (·.pkg)
            withFar s k ch c e (some (c.place e, Prog.past c e)) ((podPkg sa).toList ++ owner.toList)
              (if r == .remote then [stRights, stNomap, stPoison] else []) (fun s =>
              match s.badTable f key with
              | some u => stopCmd (s.report (some (3, f, u))) k ch c stPoison c.prog.prefixLen
              | none =>
                  let (s, st, g, due) := appendBlock s c y key (p / y.tpb)
                  if st ≠ 0 then stopCmd s k ch c st c.prog.prefixLen
                  else
                    let s := s.updCmd k ch c.serial (fun c => { c with prog := { c.prog with
                      blks := [(p / y.tpb, g)], due := c.prog.due ++ due } })
                    let t := p % y.tpb
                    let us := (y.tokenRanges t).flatMap (fun q => blockUnits s f g q.1 q.2)
                    withTokens s k ch c (tierUnits r.segs ++ us).eraseDups (fun s =>
                      appendToken s k ch c e y t g r))

/-- The result of an element of a collective, where its form and its sources are known. -/
def collGet (y : Coll) (c : Cmd) (e : Nat) (s : State) : State × List Byte × List Nat :=
  let (v, from_) := collElem y c e
  (s, toBytes (esOf c.i) v, if from_.any y.bad.contains then [0] else [])

/-- An element of a collective's result (R216, R348). -/
def collElemAt (s : State) (k ch : Nat) (c : Cmd) (e : Nat) : State :=
  match s.collAt k ch with
  | none => s
  | some y =>
      if !y.formed then s
      else deliver s k ch c e (esOf c.i) [] [] (collGet y c e)

/-- Whether an XSIGNAL must wait for earlier ACCST and TST writes and held stores (R189, R214). -/
def signalWaits (s : State) (k : Nat) (c : Cmd) : Bool :=
  let x := s.ctx k c.slot
  x.queue.any (fun o => o.inst == c.inst && c.relOps.contains o.id)
    || (x.myHeld c.inst).any (fun h => h.seq < c.relHeld)

/-- Element `e` of a running command. -/
def elemStep (s : State) (k ch : Nat) (c : Cmd) (e : Nat) : State :=
  let lost := match ringDst c.i with
    | some r => !((s.core k).rng r).set
    | none => false
  if lost then stopCmd s k ch c stRing c.prog.prefixLen
  else if behindDeferred s c e then s
  else match c.i with
    | .kvget .. => kvgetElem s k ch c e
    | .kvsum .. => kvsumElem s k ch c e
    | .kvappend .. => kvappendElem s k ch c e
    | .xcoll .. => collElemAt s k ch c e
    | .xexpand .. => expandElem s k ch c e
    | .xsignal .. => if signalWaits s k c then s else dataElem s k ch c e []
    | .xcopy _ _ _ _ _ _ _ none => copyElem s k ch e
    | .xcopy _ _ _ _ _ _ _ (some _) =>
        match convPattern s k ch c e with
        | some t => t
        | none => dataElem s k ch c e (elemReads s c e)
    | _ => dataElem s k ch c e (elemReads s c e)

/-- Whether a command is held at an element: no group index is free for its page request (R315). -/
def State.heldAt (s : State) (c : Cmd) (e : Nat) : Bool :=
  c.prog.wants == some e && !s.answered (s.fnOf c.launch) noRequest

/-- The element a running command goes on with: one whose page has come or whose target has answered, or the next, unless
it is held at one (R305, R315, R316). -/
def State.nextElem (s : State) (c : Cmd) : Option Nat :=
  match (c.prog.released.find? (fun e => !s.heldAt c e)) <|> s.farBack c with
  | some e => some e
  | none =>
      if c.prog.wants.any (s.heldAt c) then none
      else match c.i with
        | .xcopy _ _ _ _ _ _ _ none => if c.prog.dpos < c.c.toNat then some c.prog.e else none
        | _ => if c.prog.e < c.prog.total then some c.prog.e else none

/-- COMMAND ELEMENT (R199 to R217, R305): the channel's running command applies its next element, or waits. -/
def execCommandElement (core ch : Nat) (s : State) : Host.Outcome State Fault Refusal :=
  .next (match s.headCmd core ch with
    | none => s
    | some c =>
        if !c.prog.started || c.prog.stop.isSome then s
        else match s.nextElem c with
          | some e =>
              let s := if c.prog.wants = some e
                then s.updCmd core ch c.serial (fun c => { c with prog := { c.prog with wants := none } }) else s
              elemStep s core ch c e
          | none => settleCmd s core ch)

/-! ## COMMAND START -/

/-- The package whose block store a KVALLOC, KVFREE or KVSHARE asks: this one, or the owner of the block (R234, R235). -/
def askedPkg (s : State) (f : Nat) (c : Cmd) : Nat :=
  let owner (w : Word) : Nat := ((s.kvLive f (nameKey w)).map (·.pkg)).getD s.pkg
  match c.i with
  | .kvalloc .. | .kvfree .. => owner c.a
  | .kvshare .. => if bit c.b 62 then field c.b 52 10 else owner c.b
  | _ => s.pkg

/-- The names of a block-store command whose table entries its start reads. -/
def startNames (i : Instr) (c : Cmd) : List Nat :=
  match i with
  | .kvalloc .. | .kvfree .. => [nameKey c.a]
  | .kvshare .. => nameKey c.a :: (if bit c.b 62 then [] else [nameKey c.b])
  | .kvget .. => [nameKey c.b]
  | _ => []

/-- What a block-store command does at its start (R217). -/
def runKv (s : State) (k ch : Nat) (c : Cmd) : State :=
  let f := s.fnOf c.launch
  match c.i with
  | .kvalloc .. =>
      let (t, st) := kvAlloc s f c.launch c.a c.b
      t.atOnce k ch c st (if st = 0 then 1 else 0)
  | .kvfree .. =>
      let (t, st) := kvFree s f c.a
      t.atOnce k ch c st (if st = 0 then 1 else 0)
  | .kvshare .. =>
      let (t, st) := kvShare s f c.a c.b
      t.atOnce k ch c st (if st = 0 then 1 else 0)
  | .kvcommit _ rej .. =>
      let (t, st, n) := kvCommit s f rej c.a c.b
      t.atOnce k ch c st n
  | .kvappend .. =>
      if badName c.b || nameBlk c.b != 0 then s.atOnce k ch c stKvname 0
      else if (s.layer f (nameLayer c.b)).isNone then s.atOnce k ch c stDesc 0
      else if c.c = 0 ∨ 65536 < c.c.toNat then s.atOnce k ch c stKvlen 0
      else s.begin k ch c c.c.toNat (fun p => { p with p0 := (s.lengths f (nameSeq c.b)).2 })
  | .kvget .. =>
      if badName c.b then s.atOnce k ch c stKvname 0
      else if (s.layer f (nameLayer c.b)).isNone then s.atOnce k ch c stDesc 0
      else if 65536 < c.c.toNat then s.atOnce k ch c stKvlen 0
      else match s.kvLive f (nameKey c.b) with
        | none => s.atOnce k ch c stKvname 0
        | some e =>
            if !s.kvReach e then s.atOnce k ch c stNomap 0
            else s.beginRing k ch c (kvgetLen c.c / 128) (fun p => { p with
            p0 := if e.pkg = s.pkg then e.gbn + 1 else 0 })
  | .kvsum .. =>
      if badName c.b then s.atOnce k ch c stKvname 0
      else if (s.layer f (nameLayer c.b)).isNone then s.atOnce k ch c stDesc 0
      else if c.c = 0 ∨ 256 < c.c.toNat then s.atOnce k ch c stKvlen 0
      else s.begin k ch c c.c.toNat
  | _ => s

/-- The start of a block-store command (R217): what it asks of another package travels as a flit and is answered first
(R234, R235, R345); a table entry it reads from a poisoned unit ends it POISON (R307, log 101). -/
def startKv (s : State) (k ch : Nat) (c : Cmd) : State :=
  let f := s.fnOf c.launch
  let to_ := askedPkg s f c
  match (startNames c.i c).findSome? (s.badTable f) with
  | some u => (s.report (some (3, f, u))).atOnce k ch c stPoison 0
  | none => withFar s k ch c c.wholeKey none (if s.routes.contains to_ then [to_] else []) [] (fun s => runKv s k ch c)

/-- COMMAND START (R197, R204 to R217): the head command of a channel begins if it may. -/
def execCommandStart (core ch : Nat) (s : State) : Host.Outcome State Fault Refusal :=
  .next (
    if !cmdReady s core ch then s
    else match s.headCmd core ch with
      | none => s
      | some c =>
          match c.i with
          | .xcopy _ _ _ _ _ _ _ (some _) => startPattern s core ch c
          | .xcopy .. | .xacc .. | .xfill .. => s.beginRing core ch c (c.c.toNat / esOf c.i)
          | .xexpand .. => s.beginRing core ch c (c.c.toNat / esOf c.i)
          | .xgather _ _ _ _ _ _ _ n | .xscatter _ _ _ _ _ _ _ n => s.beginRing core ch c (n.toNat + 1)
          | .xfetch .. | .xcas .. | .xsignal .. => s.begin core ch c 1
          | .xorder .. => if field c.b 16 48 ≠ 0 then s.atOnce core ch c stDesc 0 else s.atOnce core ch c 0 0
          | .xcoll .. => startColl s core ch c
          | _ => startKv s core ch c)

end Sys2Proof.Machine
end

