-- ==== Sys2Proof/Machine/Translate.lean ====
section
/-!
DEFINITION. The events of translation: answers to page requests (R300, R301, R305, R316), invalidations of
cached translations (R299, R336), and the writes of INV, PRICTL and S1INV that belong to them.
-/
namespace Sys2Proof.Machine

/-! ## Page requests answered (R301) -/

/-- No stage-2 leaf of a guest-physical address is cached: the next walk reads every entry from memory (R301, R314). -/
def dropLeaf (s : State) (f gpa : Nat) : State :=
  s.updFn f (fun d => { d with tlb := d.tlb.filter (fun e => e.stage1 || !within gpa e.page e.size) })

/-- Change every context of a function. -/
def State.eachCtxOf (s : State) (f : Nat) (g : State → Nat → Nat → State) : State :=
  s.slots.foldl (fun s p => if s.fnOf (s.ctx p.1 p.2).launch = f then g s p.1 p.2 else s) s

/-- The channels of the cores in use, as (core, channel). -/
def State.channels (s : State) : List (Nat × Nat) :=
  s.cores.flatMap (fun c => (List.range 16).map (fun n => (c.1, n)))

/-- Do something to every running command of a function. -/
def State.eachRunning (s : State) (f : Nat) (g : State → Nat → Nat → Cmd → State) : State :=
  s.channels.foldl (fun s p =>
    match s.headCmd p.1 p.2 with
    | some c => if s.fnOf c.launch = f then g s p.1 p.2 c else s
    | none => s) s

/-- The function here that carries a pod tenant's identifier, of several the lowest (R235, R346, log 19). -/
def State.tenantFn (s : State) (a : Config.PodAsk) : Option Nat :=
  (List.range 49).find? (fun f => (s.fn f).en && (s.fn f).podId == a.tenant)

/-- Whether an access of another package waits for a page request, and is among those `who` says. -/
def PodWait.waitsOn (a : PodWait) (n : Nat) (who : Bool → Bool) : Bool := a.req.any (fun r => r.1 == n && who r.2)

/-- Change every launch queue of a function. -/
def State.eachQueue (s : State) (f : Nat) (g : Queue → Queue) : State :=
  s.updFn f (fun d => { d with queues := d.queues.map (fun q => (q.1, g q.2)) })

/-- Change every access of another package that asks something of a function (R346). -/
def State.eachAsk (s : State) (f : Nat) (g : PodWait → PodWait) : State :=
  { s with asks := s.asks.map (fun a => if s.tenantFn a.ask = some f then g a else a) }

/-- A request leaves the list of outstanding ones. -/
def dropReq (s : State) (f n : Nat) : State :=
  s.updFn f (fun d => { d with reqs := d.reqs.filter (fun r => r.id != n) })

/-- Success, and the page is there for reads or for writes: the elements set aside for it that it serves go on in
ascending order (R301, R316). -/
def releaseReq (s : State) (f n : Nat) (ok : Bool → Bool) : State :=
  s.eachRunning f (fun s k ch c =>
    let es := (c.prog.deferred.filter (fun d => d.req == n && ok d.write)).map (·.e)
    let es := (List.range c.prog.e).filter es.contains
    s.updCmd k ch c.serial (fun c => { c with prog := { c.prog with released := c.prog.released ++ es } }))

/-- What waits on a refused request, of those that `who` says by whether they write: contexts note the page (R301, R303),
queued operations stop at the faulting byte (R304), commands end NOMAP (R305, R306), a collective that was to form ends
NOMAP, a loader's check fails (R282), and an access of another package is answered so (R346). -/
def refuseReq (s : State) (f : Nat) (r : PageReq) (who : Bool → Bool) : State :=
  let n := r.id
  let s := s.eachCtxOf f (fun s k j =>
    let s := match (s.ctx k j).wait with
      | some (.pages gs) => if gs.any (fun g => g.1 == n && who g.2) then
          s.updCtx k j (fun x => { x with badPages := x.badPages ++ [r.page] }) else s
      | _ => s
    (s.ctx k j).queue.foldl (fun s o => match o.page with
      | some (h, b, a, w) => if h = n ∧ who w then stopOp s k j o false b a else s
      | none => s) s)
  let s := s.eachRunning f (fun s k ch c =>
    if c.prog.stop.isSome then s
    else if c.prog.page = some n ∧ who false then stopCmd s k ch c stNomap 0
    else if c.prog.deferred.any (fun d => d.req == n && who d.write) then stopCmd s k ch c stNomap c.prog.prefixLen
    else s)
  let s := (s.colls.filter (fun y => y.fn == f && !y.formed && y.page == some n && who false)).foldl (fun s y =>
    (y.cmds s).foldl (fun s m => stopCmd s m.2.1 m.2.2.1 m.2.2.2 stNomap 0) s) s
  let s := if who false then s.eachQueue f (fun q =>
      if q.page = some n then { q with page := none, refused := q.refused ++ [r.page] } else q) else s
  s.eachAsk f (fun a => if a.waitsOn n who then { a with bad := true } else a)

/-- Whether something that waits on a request is among those `who` says. -/
def State.waitsOn (s : State) (f n : Nat) (who : Bool → Bool) : Bool :=
  s.slots.any (fun p => s.fnOf (s.ctx p.1 p.2).launch == f &&
      ((match (s.ctx p.1 p.2).wait with
        | some (.pages gs) => gs.any (fun g => g.1 == n && who g.2)
        | _ => false)
       || (s.ctx p.1 p.2).queue.any (fun o => o.page.any (fun g => g.1 == n && who g.2.2.2))))
    || s.channels.any (fun p => (s.headCmd p.1 p.2).any (fun c => s.fnOf c.launch == f && c.prog.stop.isNone &&
      ((c.prog.page == some n && who false) || c.prog.deferred.any (fun d => d.req == n && who d.write))))
    || s.colls.any (fun y => y.fn == f && !y.formed && y.page == some n && who false)
    || (s.fn f).queues.any (fun q => q.2.page == some n && who false)
    || s.asks.any (fun a => s.tenantFn a.ask == some f && a.waitsOn n who)

/-- What waits on one request waits on another from now on. -/
def repoint (s : State) (f n m : Nat) (who : Bool → Bool) : State :=
  let s := s.eachCtxOf f (fun s k j => s.updCtx k j (fun x => { x with
    wait := match x.wait with
      | some (.pages gs) => some (.pages (gs.map (fun g => if g.1 = n ∧ who g.2 then (m, g.2) else g)))
      | w => w
    queue := x.queue.map (fun o => match o.page with
      | some (h, b, a, w) => if h = n ∧ who w then { o with page := some (m, b, a, w) } else o
      | none => o) }))
  let s := s.eachRunning f (fun s k ch c => s.updCmd k ch c.serial (fun c => { c with prog := { c.prog with
    page := if c.prog.page = some n ∧ who false then some m else c.prog.page
    deferred := c.prog.deferred.map (fun d => if d.req = n ∧ who d.write then { d with req := m } else d) } }))
  let s : State := { s with colls := s.colls.map (fun y =>
    if y.fn = f ∧ y.page = some n ∧ who false then { y with page := some m } else y) }
  let s := s.eachQueue f (fun q => if q.page = some n ∧ who false then { q with page := some m } else q)
  s.eachAsk f (fun a => if a.waitsOn n who then { a with req := a.req.map (fun r => (m, r.2)) } else a)

/-- A miss after Success: one more request, with the lowest free group index (R315), and after that one's Success, or
where requests are stopped or off, an Invalid Request (R301, R302). -/
def askAgain (s : State) (f : Nat) (r : PageReq) (who : Bool → Bool) : State :=
  let d := s.fn f
  if r.again || s.noPages f then refuseReq s f r who
  else
    match firstFree d.priAlloc (d.reqs.map (·.group)) with
    | none => refuseReq s f r who
    | some g =>
        let n : PageReq := { id := d.asked + 1, group := g, page := r.page, again := true
                             write := s.waitsOn f r.id (fun w => w && who w) }
        { (repoint s f r.id n.id who).updFn f (fun d => { d with reqs := d.reqs ++ [n], asked := d.asked + 1 }) with
            priSent := s.priSent ++ [(f, n)] }

/-- A response takes effect (R301): each acts on its own request, and each waiting access by its own need (R316). -/
def answerReq (s : State) (f : Nat) (r : PageReq) (code : Nat) : State :=
  let s := dropReq s f r.id
  if code = 0 then
    let s := dropLeaf s f (r.page * 4096)
    match walk2 s f (r.page * 4096) with
    | .malformed u => refuseReq (s.report (some (2, f, u))) f r (fun _ => true)
    | .poison u => refuseReq (s.report (some (2, f, u))) f r (fun _ => true)
    | x =>
        let ok (w : Bool) : Bool := match x with
          | .leaf e => if w then e.wr else e.rd
          | _ => false
        let s := releaseReq s f r.id ok
        if s.waitsOn f r.id (fun w => !ok w) then askAgain s f r (fun w => !ok w) else s
  else if code = 1 then refuseReq s f r (fun _ => true)
  else
    refuseReq ((s.updFn f (fun d => { d with priStop := true })).hevent
      { type := 5, fn := f, ctxid := 0, serial := 0, cause := 0, inCause := 0, resume := 0, addr := 0 }) f r (fun _ => true)

/-- Whether a tenant is switched out: every context that it has is saved (R306). -/
def State.away (s : State) (f : Nat) : Bool :=
  let l := s.slots.filter (fun p => s.fnOf (s.ctx p.1 p.2).launch == f)
  !l.isEmpty && l.all (fun p => (s.ctx p.1 p.2).out)

/-- PRG RESPONSE (R301): each response acts on its own group; one for a group with no request outstanding is
discarded, and one whose tenant is switched out takes effect at the restore (R306). -/
def execPrgResponse (fn group code : Nat) (s : State) : Host.Outcome State Fault Refusal :=
  .next (match (s.fn fn).reqs.find? (fun r => r.group == group) with
    | none => s
    | some r =>
        if s.away fn then s.updFn fn (fun d => { d with answers := d.answers ++ [(group, code)] })
        else answerReq s fn r code)

/-- The responses that came while a tenant was switched out take effect (R306). -/
def takeAnswers (s : State) (f : Nat) : State :=
  (s.fn f).answers.foldl (fun s a =>
    match (s.fn f).reqs.find? (fun r => r.group == a.1) with
    | none => s
    | some r => answerReq s f r a.2) (s.updFn f (fun d => { d with answers := [] }))

/-! ## Invalidations (R299, R336) -/

/-- Whether a cached translation overlaps what an invalidation names. -/
def TlbEntry.named (e : TlbEntry) (v : Word) (s1 : Bool) : Bool :=
  bit v 62 || (e.stage1 == (s1 || bit v 61) && meets e.page e.size (field v 12 36 * 4096) (pageSize (field v 48 3)))

/-- Whether an operation that has paused for a page has writes to memory in hand for the bytes before it (R304). -/
def QOp.hasStores (o : QOp) : Bool :=
  o.page.isSome && o.ranges.any (·.write) && o.first.any (fun w => match w with
    | .mem .. => true
    | _ => false)

/-- A paused operation makes the writes it has in hand, where they may be made: it waits with none that a translation it
found before leads (R299). -/
def flushOp (k j : Nat) (s : State) (o : QOp) : State :=
  if o.hasStores && s.mayWrite k j o then
    let (ws, rest) := o.first.partition (fun w => match w with
      | .mem .. => true
      | _ => false)
    (ws.foldl (applyQ k j o.inst (swizzled o.i)) s).updCtx k j (fun x => { x with queue := x.queue.map (fun p =>
      if p.id == o.id then { p with first := .done (writeBytes ws) :: rest } else p) })
  else s

/-- Whether an access of the function that may be using a translation it found before is not complete: a queued operation
that runs, or one that waits for a page with writes in hand, or a store that is held back. -/
def State.opsRunning (s : State) (f : Nat) : Bool :=
  s.slots.any (fun p => s.fnOf (s.ctx p.1 p.2).launch == f
    && ((s.ctx p.1 p.2).queue.any (fun o => o.started && !o.ranges.isEmpty && (o.page.isNone || o.hasStores))
      || (s.ctx p.1 p.2).held.any (fun h => match h.eff with
        | .store .. => true
        | _ => false)))

/-- INVALIDATION COMPLETE (R299): no cached translation that overlaps the page remains, and BUSY clears once
every access that used one has completed or waits. -/
def execInvalidationComplete (fn : Nat) (s1 : Bool) (s : State) : Host.Outcome State Fault Refusal :=
  .next (
    let d := s.fn fn
    if !(if s1 then d.s1invBusy else d.invBusy) then s
    else
      let v := if s1 then d.s1inv else d.inv
      let s := s.updFn fn (fun d => { d with tlb := d.tlb.filter (fun e => !e.named v s1) })
      let s := s.eachCtxOf fn (fun s k j => (s.ctx k j).queue.foldl (flushOp k j) s)
      if s.opsRunning fn then s
      else if s1 then s.updFn fn (fun d => { d with s1invBusy := false })
      else s.updFn fn (fun d => { d with invBusy := false }))

/-- INV WRITE (R299): an MTS of INV that is allowed starts an invalidation of the selected function. -/
def execInvWrite (v : Word) (s : State) : Host.Outcome State Fault Refusal := .next (mtsMgmt s 0x808 v)
/-- PRICTL WRITE (R302). -/
def execPrictlWrite (v : Word) (s : State) : Host.Outcome State Fault Refusal := .next (mtsMgmt s 0x807 v)

end Sys2Proof.Machine
end

