-- ==== Sys2Proof/Machine/Image.lean ====
section
/-!
DEFINITION. What the loader reads and checks: launch records (R273), program images (R284, R285), and the
bound on the issue cycles between safe points (R10, R282, R283).
-/
namespace Sys2Proof.Machine

/-! ## Reading -/

/-- Why the loader does not go on: a status of R288, a table entry that cannot be used, with what is reported of it (R307),
or a page request to wait for. -/
inductive LoadErr
  | fail (st : Nat)
  | bad (report : Nat × Nat × Nat)
  | miss (gpa : Nat)
  deriving DecidableEq, Repr

/-- RECORD. -/
def lsRecord : Nat := 2
/-- IMAGE. -/
def lsImage : Nat := 3
/-- SHAPE. -/
def lsShape : Nat := 4
/-- OCCUP. -/
def lsOccup : Nat := 5
/-- SPBOUND. -/
def lsSpbound : Nat := 6
/-- REGION. -/
def lsRegion : Nat := 7
/-- ALLOW. -/
def lsAllow : Nat := 8
/-- NOPART. -/
def lsNopart : Nat := 9

/-- Bytes of function memory, through the function's tables (R292, R297). -/
def funcBytes (s : State) (f a n : Nat) : Except LoadErr (List Byte) :=
  if 2 ^ 48 < a + n then .error (.fail lsImage)
  else
    (unitsOf a n).foldr (fun u acc =>
      match tableByte s f u.1 false with
      | .hit h =>
          if s.poisoned h.dpa then .error (.fail lsImage)
          else acc.map (fun l => Memory.bytes s.mem h.dpa u.2 ++ l)
      | .miss _ g _ => if s.noPages f then .error (.fail lsImage) else .error (.miss g)
      | .s2bad g p => .error (.bad (2, g, p))
      | .tblPoison g p => .error (.bad (3, g, p))
      | _ => .error (.fail lsImage)) (.ok [])

/-- The check goes on if a condition holds. -/
def wants (c : Bool) (st : Nat) : Except LoadErr Unit := if c then .ok () else .error (.fail st)

/-- Whether every byte is zero. -/
def allZero (l : List Byte) : Bool := l.all (· == 0)
/-- Part of a list. -/
def part {α : Type} (l : List α) (o n : Nat) : List α := (l.drop o).take n

/-- The 64-bit words of a list of bytes. -/
def wordsOf (d : List Byte) : List Word := (List.range (d.length / 8)).map (fun i => BitVec.ofNat 64 (numAt d (8 * i) 8))

/-! ## The launch record (R273) -/

/-- The launch a record describes, if the record is well formed. -/
def recordOf (d : List Byte) (f q serial : Nat) (id : Nat) : Option Launch :=
  let fl := numAt d 4 1
  let n := numAt d 5 1
  let gangs := numAt d 0 2
  let cpg := numAt d 2 1
  let cpc := numAt d 3 1
  let dep (i : Nat) : Nat × Nat := (numAt d (0x28 + 6 * i) 4, numAt d (0x28 + 6 * i + 4) 2)
  if 1 ≤ gangs && gangs ≤ 768 && [1, 2, 4, 8, 16, 32].contains cpg && 1 ≤ cpc && cpc ≤ 4 && fl < 8 && n ≤ 4
      && numAt d 6 2 == 0 && allZero (part d (0x28 + 6 * n) (24 - 6 * n)) then
    some { id := id, fn := f, queue := q, serial := serial, state := .read, gangs := gangs, cpg := cpg, cpc := cpc
           prio := fl % 4, qb := fl / 4 % 2 = 1, request := numAt d 0x10 8, image := BitVec.ofNat 64 (numAt d 8 8)
           argptr := BitVec.ofNat 64 (numAt d 0x18 8), compl := BitVec.ofNat 64 (numAt d 0x20 8)
           deps := (List.range n).map dep }
  else none

/-! ## Bundles of a TEXT section (R93) -/

/-- One bundle of a section: its offset, its header, its slot syllables with their extensions, where each extension
lies, and the slots whose extension a relocation fills in. -/
structure Parcel where
  off  : Nat
  hdr  : Word
  syls : List (Slot × Word × Option Word)
  exts : List Nat
  len  : Nat
  moved : List Slot := []
  deriving DecidableEq, Repr

/-- The slot syllables of a bundle and what follows it; `o` is the offset of the next syllable. -/
def takeSyls (o : Nat) : List Slot → List Word → Option (List (Slot × Word × Option Word) × List Nat × List Word)
  | [], ws => some ([], [], ws)
  | sl :: r, w :: ws =>
      if bit w 63 then none
      else if hasExt w then
        match ws with
        | [] => none
        | x :: ws => (takeSyls (o + 16) r ws).map (fun t => ((sl, w, some x) :: t.1, (o + 8) :: t.2.1, t.2.2))
      else (takeSyls (o + 8) r ws).map (fun t => ((sl, w, none) :: t.1, t.2.1, t.2.2))
  | _ :: _, [] => none

/-- The slots a header names, in order (R94). -/
def headerSlots (w : Word) : List Slot := Slot.all.filter (fun sl => bit w (62 - sl.num))

/-- A section as a sequence of bundles that ends with it. -/
def parcels : Nat → Nat → List Word → Option (List Parcel)
  | _, _, [] => some []
  | 0, _, _ => none
  | f + 1, o, h :: ws =>
      if !isHeader h then none
      else match takeSyls (o + 8) (headerSlots h) ws with
        | none => none
        | some (sy, ex, rest) =>
            let n := 8 * (1 + sy.length + ex.length)
            (parcels f (o + n) rest).map (fun l => { off := o, hdr := h, syls := sy, exts := ex, len := n } :: l)

/-- The bundles of a section. -/
def parcelsOf (ws : List Word) : Option (List Parcel) := parcels ws.length 0 ws

/-- A bundle with the slots marked that relocations at some offsets fill in. -/
def Parcel.mark (rels : List Nat) (p : Parcel) : Parcel :=
  { p with moved := ((p.syls.filter (·.2.2.isSome)).zip p.exts).filterMap (fun x =>
      if rels.contains x.2 then some x.1.1 else none) }

/-- A bundle with SP set (R94). -/
def Parcel.sp (p : Parcel) : Bool := bit p.hdr 22

/-! ## The image (R284, R285) -/

/-- An entry of a section table: TYPE, INDEX, OFFSET, SIZE. -/
structure Section where
  type  : Nat
  index : Nat
  off   : Nat
  size  : Nat
  deriving DecidableEq, Repr

/-- What the checks of an image find in it. -/
structure Checked where
  img  : LImage
  safe : List (Nat × Nat × Nat × Nat × Nat)
  ps   : List Parcel
  deriving DecidableEq, Repr

/-- A REGION section (R285). -/
def regOf' (d : List Byte) : Option RegDir :=
  let n := numAt d 0x18 8
  let t := numAt d 0 1
  if 32 ≤ d.length && t ≤ 2 && numAt d 1 1 ≤ 1 && allZero (part d 2 6) && n ≤ numAt d 8 8 && (t != 0 || n == 0)
      && d.length == 32 + roundUp n 8 then
    some { tier := t, rlt := numAt d 1 1 = 1, bytes := numAt d 8 8, ticks := numAt d 0x10 8, data := part d 32 n }
  else none

/-- The entries of a table section of `n` bytes each. -/
def entriesOf (d : List Byte) (n : Nat) : List (List Byte) := (List.range (d.length / n)).map (fun i => part d (n * i) n)

/-- A SAFEPT entry: OFFSET and the four live masks (R285). -/
def safeOf (d : List Byte) : Option (Nat × Nat × Nat × Nat × Nat) :=
  if allZero (part d 0x1B 5) then
    some (numAt d 0 8, numAt d 8 8, numAt d 0x10 8, numAt d 0x18 2, numAt d 0x1A 1)
  else none

/-- A RELOC entry (R285, R287). -/
def relocOf (d : List Byte) (exts : List Nat) (regs : Nat) : Option Reloc :=
  let k := numAt d 8 2
  if allZero (part d 0xC 4) && exts.contains (numAt d 0 8) && (k == 2 || (k == 1 && numAt d 0xA 2 < regs)) then
    some { at_ := numAt d 0 8, kind := k, index := numAt d 0xA 2, addend := BitVec.ofNat 64 (numAt d 0x10 8) }
  else none

/-- Every answer, if there is one for each. -/
def allSome {α : Type} : List (Option α) → Option (List α)
  | [] => some []
  | none :: _ => none
  | some x :: r => (allSome r).map (x :: ·)

/-- An answer, or a failure. -/
def orFail {α : Type} (o : Option α) (st : Nat) : Except LoadErr α :=
  match o with
  | some x => .ok x
  | none => .error (.fail st)

/-- The section table of an image (R285). -/
def sectionsOf (d : List Byte) : Option (List Section) :=
  allSome ((entriesOf d 32).map (fun e =>
    let x : Section := { type := numAt e 0 2, index := numAt e 2 2, off := numAt e 8 8, size := numAt e 0x10 8 }
    if 1 ≤ x.type && x.type ≤ 5 && (x.type == 2 || x.index == 0) && allZero (part e 4 4) && allZero (part e 0x18 8)
        && x.off % 8 == 0 && x.size % 8 == 0 then some x else none))

/-- Several sections with their bytes. -/
def readSections (s : State) (f base : Nat) : List Section → Except LoadErr (List (Section × List Byte))
  | [] => .ok []
  | x :: r => do
      let d ← funcBytes s f (base + x.off) x.size
      let l ← readSections s f base r
      return (x, d) :: l

/-- Whether an image's address and header have the form of R284 and R285. -/
def headOk (base : Nat) (h : List Byte) : Bool :=
  let nsec := numAt h 6 2
  base % 4096 == 0 && numAt h 0 4 == 0x31494347 && numAt h 4 2 == 1 && 1 ≤ nsec && nsec ≤ 256 && numAt h 8 8 % 8 == 0
    && numAt h 0x10 8 % 8 == 0 && allZero (part h 0x1C 4) && allZero (part h 0x68 24)

/-- The section table's bytes: where it is, and how many. -/
def tableOf (base : Nat) (h : List Byte) : Nat × Nat := (base + numAt h 8 8, 32 * numAt h 6 2)

/-- What the loader reads of an image (R284, R285): its header, and its sections in table order. -/
def readImage (s : State) (f base : Nat) : Except LoadErr (List Byte × List (Section × List Byte)) := do
  let h ← funcBytes s f base 128
  wants (headOk base h) lsImage
  let t ← funcBytes s f (tableOf base h).1 (tableOf base h).2
  let secs ← orFail (sectionsOf t) lsImage
  let l ← readSections s f base secs
  return (h, l)

/-- The ranges that `readImage` reads, in its order. -/
def imageRanges (s : State) (f base : Nat) : List (Nat × Nat) :=
  (base, 128) :: (match funcBytes s f base 128 with
    | .error _ => []
    | .ok h =>
        if !headOk base h then []
        else tableOf base h :: (match funcBytes s f (tableOf base h).1 (tableOf base h).2 with
          | .error _ => []
          | .ok t => ((sectionsOf t).getD []).map (fun x => (base + x.off, x.size))))

/-- The loader has read an image up to the first unit that cannot be read: every unit of it is checked, and the leaves it
was translated by are cached (R314, R330). -/
def checkImage (s : State) (f base : Nat) : State :=
  (((imageRanges s f base).flatMap (fun r => unitsOf r.1 r.2)).foldl (fun (acc : State × Bool) u =>
    if acc.2 then acc
    else match tableByte s f u.1 false with
      | .hit h => ((fillFn acc.1 f h u.1).checkRead h.dpa u.2, s.poisoned h.dpa)
      | _ => (acc.1, true)) (s, false)).1

/-- The first check of an image: its form (R282 Form, R284 to R287). -/
def checkForm (h : List Byte) (secs : List (Section × List Byte)) : Except LoadErr Checked := do
  let entry := numAt h 0x10 8
  let of_ (k : Nat) : List (Section × List Byte) := secs.filter (fun x => x.1.type == k)
  let data (k : Nat) : List (List Byte) := (of_ k).map (·.2)
  let regs := of_ 2
  let byIndex := (List.range regs.length).map (fun i => regs.find? (fun x => x.1.index == i))
  wants ((of_ 1).length == 1 && (of_ 3).length ≤ 1 && (of_ 4).length ≤ 1 && (of_ 5).length ≤ 1 && regs.length ≤ 32)
    lsImage
  let regs ← orFail (allSome byIndex) lsImage
  let ws := wordsOf (data 1).flatten
  let ps ← orFail (parcelsOf ws) lsImage
  let dirs ← orFail (allSome (regs.map (fun r => regOf' r.2))) lsImage
  let safed := data 3
  let reld := data 4
  wants (safed.all (fun d => d.length % 32 == 0) && reld.all (fun d => d.length % 24 == 0)
    && (data 5).all (fun d => d.length ≤ 64)) lsImage
  let safe ← orFail (allSome ((safed.flatMap (fun d => entriesOf d 32)).map safeOf)) lsImage
  wants (safe.map (·.1) == (ps.filter (·.sp)).map (·.off)) lsImage
  let exts := ps.flatMap (·.exts)
  let rel ← orFail (allSome ((reld.flatMap (fun d => entriesOf d 24)).map (fun d => relocOf d exts dirs.length))) lsImage
  wants (ps.any (fun p => p.off == entry)) lsImage
  return { img := { entry := entry, text := ws, regs := dirs, relocs := rel }, safe := safe
           ps := ps.map (Parcel.mark (rel.map (·.at_))) }

/-! ## The bound between safe points (R10, R283) -/

/-- The scalar register an operation writes (R102). -/
def scalarDst : Instr → Option (BitVec 6)
  | .add _ d .. | .sub _ d .. | .mul _ d .. | .and _ d .. | .or _ d .. | .xor _ d .. | .shl _ d .. | .rot _ d ..
  | .clz _ d _ | .popc _ d _ | .sel _ d .. | .li _ d _ | .lea _ d .. | .mfs _ d _ | .br _ d _ | .bri _ d _
  | .loop _ d _ | .renew _ d .. | .prepay _ d .. | .handover _ d .. | .lease _ d _ => some d
  | .mulh _ _ d .. | .div _ _ d .. | .rem _ _ d .. | .shr _ _ d .. | .min _ _ d .. | .max _ _ d ..
  | .vacate _ _ d _ | .pcnt _ _ d _ => some d
  | .ld _ _ _ d .. => some d
  | .call .. | .calli .. => some 62
  | .rent _ _ _ _ _ _ d .. => some d
  | .sublet _ _ _ d .. => some d
  | .ringq _ _ d => some d
  | _ => none

/-- What is known of a scalar on a path: a value, or that it is one of the values up to it, 1 being the lowest and 0 the
highest, as LOOP counts them. -/
abbrev Known := Tbl (Word × Bool)

/-- A walk along a path: where it stands, the scalars known from an LI of a constant, the sticky operations by
slot, the callers to return to, and the issue cycles counted. -/
structure Walk where
  pc     : Nat
  known  : Known
  sticky : Tbl Instr
  stack  : List Nat
  cyc    : Nat
  deriving DecidableEq, Repr

/-- An operation whose extension a relocation fills in: an LI of no constant. -/
def unfixed (i : Instr) : Instr :=
  match i with
  | .li g d _ => .li g d .bc
  | i => i

/-- The operations of a bundle in slot order: those present, and the sticky ones of absent slots. -/
def Walk.ops (w : Walk) (p : Parcel) : List (Slot × Instr) :=
  Slot.all.filterMap (fun sl =>
    match p.syls.find? (fun x => x.1 == sl) with
    | some (_, y, x) =>
        match decodeSlot sl y (x.getD 0) with
        | .ok i => some (sl, if p.moved.contains sl then unfixed i else i)
        | .error _ => none
    | none => (Tbl.find w.sticky sl.num).map (fun i => (sl, i)))

/-- The constant an LI gives, if its guard is always set. -/
def constOf : Instr → Option (Nat × Word)
  | .li g d a =>
      if g ≠ 0 then none
      else match a with
        | .ext v => some (d.toNat, v)
        | .imm n => some (d.toNat, n.signExtend 64)
        | _ => none
  | _ => none

/-- What is known after an operation; what LOOP leaves of its count depends on where the path goes on. -/
def learn (t : Known) (i : Instr) : Known :=
  match constOf i with
  | some (d, v) => Tbl.set t d (v, true)
  | none =>
      match i, scalarDst i with
      | .loop .., _ => t
      | _, some d => Tbl.erase t d.toNat
      | _, none => t

/-- The offset a branch displacement names, from its bundle (R137). -/
def branchOff (p : Parcel) (disp : BitVec 32) : Option Nat :=
  let o : Int := (p.off : Int) + disp.toInt
  if 0 ≤ o then some o.toNat else none

/-- Whether a guard can be set, and whether it can be clear. -/
def guardCan (g : BitVec 4) : Bool × Bool := (g != 1, g != 0)

/-- Where a path goes after a bundle. -/
def Walk.next (ps : List Parcel) (w : Walk) (p : Parcel) : List Walk :=
  let ops := w.ops p
  let n := field p.hdr 47 8 + 1
  let known := (List.replicate n ()).foldl (fun t _ => ops.foldl (fun t x => learn t x.2) t) w.known
  let sticky := ops.foldl (fun t x => Tbl.set t x.1.num (if x.2.oneShot then .nop else x.2)) w.sticky
  let on : Walk := { w with pc := p.off + p.len, known := known, sticky := sticky, cyc := w.cyc + n }
  let goTo (o : Option Nat) (bubbles : Nat) (st : List Nat) : List Walk :=
    match o with
    | some t => [{ on with pc := t, sticky := [], stack := st, cyc := on.cyc + bubbles }]
    | none => []
  let back (_ : Unit) : List Walk :=
    match w.stack with
    | [] => []
    | r :: st => goTo (some r) 2 st
  let ctl : Option Instr := (ops.find? (fun x => x.1 == .s1)).map (·.2)
  match ctl with
  | some (.br g _ d) =>
      (if (guardCan g).1 then goTo (branchOff p d) 2 w.stack else []) ++ (if (guardCan g).2 then [on] else [])
  | some (.call g d) =>
      (if (guardCan g).1 then goTo (branchOff p d) 2 ((p.off + p.len) :: w.stack) else [])
        ++ (if (guardCan g).2 then [on] else [])
  | some (.loop g d disp) =>
      let t := branchOff p disp
      let pin : Bool := match t with
        | some t => (ps.find? (fun q => q.off == t)).any (fun q => bit q.hdr 20) && t ≤ p.off && p.off + p.len - t ≤ 512
        | none => false
      let c := Tbl.find known d.toNat
      let took : Known := match c with
        | some (v, x) => Tbl.set known d.toNat (v - 1, x)
        | none => known
      let mayTake : Bool := (guardCan g).1 && c.all (fun x => x.1 != 1)
      let mayEnd : Bool := (guardCan g).1 && c.all (fun x => x.1 == 1 || !x.2)
      (if mayTake then (goTo t (if pin then 0 else 2) w.stack).map (fun x => { x with known := took }) else [])
        ++ (if mayEnd then [{ on with known := Tbl.set known d.toNat (0, true) }] else [])
        ++ (if (guardCan g).2 then [on] else [])
  | some (.ret g _) => (if (guardCan g).1 then back () else []) ++ (if (guardCan g).2 then [on] else [])
  | some (.handback g) => (if (guardCan g).1 then back () else []) ++ (if (guardCan g).2 then [on] else [])
  | some (.bri g ..) | some (.calli g _) | some (.trap g _) | some (.tailend g) | some (.halt g) =>
      if (guardCan g).2 then [on] else []
  | _ => [on]

/-- Add a walk to a list; of two that differ only in their count, the longer is kept. -/
def addWalk (l : List Walk) (w : Walk) : List Walk :=
  match l with
  | [] => [w]
  | x :: r =>
      if { x with cyc := 0 } = { w with cyc := 0 } then { x with cyc := max x.cyc w.cyc } :: r
      else x :: addWalk r w

/-- What is known on one path and on another: a register known on both is one of the values up to the larger. -/
def joinKnown (a b : Known) : Known :=
  a.filterMap (fun x => (Tbl.find b x.1).map (fun v =>
    (x.1, if x.2.1 = v.1 then (v.1, x.2.2 && v.2) else (if (x.2.1 - 1).ult (v.1 - 1) then v.1 else x.2.1, false))))

/-- Note what is known where a path arrives. -/
def arriveAt (t : Tbl Known) (o : Nat) (k : Known) : Tbl Known :=
  Tbl.set t o (match Tbl.find t o with
    | some l => joinKnown l k
    | none => k)

/-- Whether a bundle has an operation of some kind. -/
def Parcel.hasOp (p : Parcel) (f : Instr → Bool) : Bool :=
  p.syls.any (fun x => match decodeSlot x.1 x.2.1 (x.2.2.getD 0) with
    | .ok i => f i
    | .error _ => false)

/-- A bundle with HANDBACK, after which a tail's path starts (R283). -/
def Parcel.handsBack (p : Parcel) : Bool := p.hasOp (fun i => match i with
  | .handback _ => true
  | _ => false)

/-- A bundle that acts as a safe point: with SP set, with HALT, or the kernel entry (R10). -/
def Parcel.safe (p : Parcel) (entry : Nat) : Bool :=
  p.sp || p.off == entry || p.hasOp (fun i => match i with
    | .halt _ => true
    | _ => false)

/-- The offsets a bundle may be followed by, those of its branches and calls among them. -/
def Parcel.succs (p : Parcel) : List Nat :=
  (p.off + p.len) :: p.syls.filterMap (fun x => match decodeSlot x.1 x.2.1 (x.2.2.getD 0) with
    | .ok (.br _ _ d) | .ok (.call _ d) | .ok (.loop _ _ d) => branchOff p d
    | _ => none)

/-- The bundles that may run from some offsets on, as far as branches and calls to labels lead. -/
def reached (ps : List Parcel) : Nat → List Nat → List Nat → List Parcel
  | 0, _, _ => ps
  | f + 1, seen, todo =>
      match todo.filter (fun o => !seen.contains o) with
      | [] => ps.filter (fun p => seen.contains p.off)
      | o :: r => match ps.find? (fun p => p.off == o) with
          | some p => reached ps f (o :: seen) (p.succs ++ r)
          | none => reached ps f (o :: seen) r

/-- What is left of what is known where a caller goes on behind a callee that has come to a safe point: no register that
the callee may still write, and nothing where it may branch to where nothing is checked. -/
def Walk.knownAfter (ps : List Parcel) (w : Walk) : Known :=
  let ops := (reached ps (2 * ps.length * ps.length + 2) [] [w.pc]).flatMap (fun p => { w with sticky := [] }.ops p)
  if ops.any (fun x => match x.2 with
      | .bri .. | .calli .. | .trap .. => true
      | _ => false) then []
  else
    let ds := ops.filterMap (fun x => (scalarDst x.2).map (·.toNat))
    w.known.filter (fun x => !ds.contains x.1)

/-- One step of every walk, and the paths that start where one arrives. A walk that reaches a safe point ends there, or in a
callee goes on behind the call (R10, R283); one that leaves the section ends. -/
def stepWalks (ps : List Parcel) (entry : Nat) (first : Bool) (l : List Walk) (arr : Tbl Known) : List Walk × Tbl Known :=
  l.foldl (fun acc w =>
    match ps.find? (fun p => p.off == w.pc) with
    | none => acc
    | some p =>
        if p.safe entry && !first then
          (match w.stack with
            | [] => acc.1
            | r :: st => addWalk acc.1 { w with pc := r, known := w.knownAfter ps, sticky := [], stack := st }
          , arriveAt acc.2 p.off w.known)
        else
          let arr := if p.handsBack then
              arriveAt acc.2 (p.off + p.len) ((w.ops p).foldl (fun t x => learn t x.2) w.known)
            else acc.2
          ((w.next ps p).foldl addWalk acc.1, arr)) ([], arr)

/-- Whether some walk can exceed 65,536 issue cycles, with the paths found; each round lengthens every walk by at
least one, or takes it out of a callee. -/
def tooLong (ps : List Parcel) (entry : Nat) : Nat → Bool → List Walk → Tbl Known → Bool × Tbl Known
  | 0, _, l, arr => (!l.isEmpty, arr)
  | f + 1, first, l, arr =>
      if l.isEmpty then (false, arr)
      else
        let (l, arr) := stepWalks ps entry first l arr
        if l.any (fun w => 65536 < w.cyc) then (true, arr) else tooLong ps entry f false l arr

/-- Where paths start: every safe point, and the bundle after each HANDBACK (R283). -/
def pathStarts (ps : List Parcel) (entry : Nat) : List Nat :=
  entry :: (ps.filter (·.safe entry)).map (·.off) ++ (ps.filter Parcel.handsBack).map (fun p => p.off + p.len)

/-- One round over the paths found so far: none where one is too long, else the paths with what is known at their
starts. -/
def boundRound (ps : List Parcel) (entry : Nat) (st : Tbl Known) : Option (Tbl Known) :=
  st.foldl (fun acc x => acc.bind (fun t =>
    let (bad, t) := tooLong ps entry 131074 true [{ pc := x.1, known := x.2, sticky := [], stack := [], cyc := 0 }] t
    if bad then none else some t)) (some st)

/-- Rounds until nothing changes; then the starts that no path reached are looked at with nothing known. -/
def boundRounds (ps : List Parcel) (entry : Nat) (starts : List Nat) : Nat → Tbl Known → Bool
  | 0, _ => false
  | f + 1, st =>
      match boundRound ps entry st with
      | none => false
      | some t =>
          if t ≠ st then boundRounds ps entry starts f t
          else match starts.find? (fun o => (Tbl.find st o).isNone) with
            | some o => boundRounds ps entry starts f (Tbl.set st o [])
            | none => true

/-- Whether every path between safe points stays within the bound (R10, R282, R283). A register's value at a start goes up
at most once for each constant, and is no more exact or no more known at most once each. -/
def boundOk (ps : List Parcel) (entry : Nat) : Bool :=
  let starts := pathStarts ps entry
  boundRounds ps entry starts (64 * (ps.length + 68) * (starts.length + 1)) [(entry, [])]

/-! ## The checks in their order (R282) -/

/-- Whether a serial names a launch that is queued, placed or retired (R279). -/
def State.knownSerial (s : State) (f n : Nat) : Bool :=
  let q := (s.fn f).q (n / 2 ^ 24)
  n / 2 ^ 24 < 16 && (s.launches.any (fun l => l.fn == f && l.serial == n)
    || (n + 2 ^ 32 - q.read.toNat) % 2 ^ 24 < (q.wptr - q.read).toNat)

/-- The loader's checks of a launch that has been read, from RECORD to ALLOW: the launch as it waits for its
placement, or its status (R282). -/
def loaderChecks (s : State) (d : List Byte) (f q serial id : Nat) : Except LoadErr Launch := do
  let l ← orFail (recordOf d f q serial id) lsRecord
  wants (l.deps.all (fun p => s.knownSerial f p.1)) lsRecord
  wants (s.fn f).en lsNopart
  let (h, secs) ← readImage s f l.image.toNat
  let c ← checkForm h secs
  wants (numAt h 0x18 2 == l.gangs && numAt h 0x1A 1 == l.cpg && numAt h 0x1B 1 == l.cpc
    && l.gangs * l.cpg ≤ (s.partCores (s.fn f).part).length) lsShape
  wants (numAt h 0x20 8 ≤ l.request) lsShape
  let ch := (List.range 16).map (fun i => numAt h (0x28 + 2 * i) 2)
  let rg := (List.range 16).map (fun i => numAt h (0x48 + 2 * i) 2)
  wants (ch.all (· ≤ 32) && rg.all (· ≤ 256)) lsOccup
  wants (boundOk c.ps c.img.entry) lsSpbound
  wants (l.request ≤ (s.fn f).allowAll) lsAllow
  return { l with img := c.img, safe := c.safe, occCh := ch, occRing := rg }

end Sys2Proof.Machine
end

