-- ==== Sys2Proof/Machine/Launch.lean ====
section
/-!
DEFINITION. Completion records and their interrupts (R339, R340), launch queues (R271, R272, R335), the reading of entries (R282),
placement (R274 to R281, R286, R287), and the end of launches (R26, R50, R288).
-/
namespace Sys2Proof.Machine

/-! ## Completion records (R339, R340) -/

/-- Whether vector 0 is due (R339). -/
def Fn.coalDue (d : Fn) (now : Nat) : Bool :=
  let cnt := field d.coal 0 8
  d.coalP != 0 && ((cnt != 0 && cnt ≤ d.coalP) || d.coalF + field d.coal 16 16 ≤ now)

/-- Vector 0 sends if it is due; while it is masked its pending bit is set and P goes on counting (R339). -/
def coalTest (s : State) (f : Nat) : State :=
  let d := s.fn f
  if !d.coalDue s.now then s
  else
    let s := sendVector s f 0
    if (d.vector 0).mask then s else s.updFn f (fun d => { d with coalP := 0 })

/-- COAL DELAY EXPIRY (R339): the test at the start of a tick. -/
def execCoalDelayExpiry (fn : Nat) (s : State) : Host.Outcome State Fault Refusal := .next (coalTest s fn)

/-- A completion record is written to the host, and vector 0 hears of it (R288, R339, R340). -/
def writeRecord (s : State) (l : Launch) (st : Nat) : State :=
  if l.compl = 0 ∨ l.silent then s
  else
    let w := put [(40, min 255 l.esc), (32, st), (0, l.serial)]
    let s := { s with hostMem := Memory.writeBytes s.hostMem l.compl.toNat (toBytes 8 w.toNat) }
    let s := s.updFn l.fn (fun d => { d with coalF := if d.coalP = 0 then s.now else d.coalF, coalP := d.coalP + 1 })
    coalTest (raiseCause s l.fn 0) l.fn

/-! ## Queues (R271, R272, R335) -/

/-- Change a launch queue. -/
def State.updQueue (s : State) (f q : Nat) (g : Queue → Queue) : State :=
  s.updFn f (fun d => { d with queues := Tbl.upd d.queues q {} g })

/-- Entries of a queue the host has made available and the device has not read. -/
def Queue.ahead (q : Queue) : Nat := (q.wptr - q.read).toNat
/-- The depth of a queue (R271). -/
def Queue.depth (q : Queue) : Nat := 2 ^ q.ldepth

/-- DOORBELL (R271, R272, R335): the write pointer is recorded; in a queue that is in service one past the
depth stops the queue, with an overrun interrupt. -/
def execDoorbell (fn queue : Nat) (wptr : BitVec 32) (s : State) : Host.Outcome State Fault Refusal :=
  .next (
    let s := s.updQueue fn queue (fun q => { q with wptr := wptr })
    let q := (s.fn fn).q queue
    if q.en && decide (q.depth < q.ahead) then
      raiseCause (s.updQueue fn queue (fun q => { q with ovr := true, stop := true })) fn causeOvr
    else s)

/-- Whether the device may read the next entry of a queue (R271, R272). -/
def Queue.available (q : Queue) : Bool := q.en && !q.stop && 1 ≤ q.ahead && q.ahead ≤ q.depth

/-! ## The end of a launch (R26, R50, R288) -/

/-- Units return to a tenant's allowance (R49, R50). -/
def refundTo (s : State) (f v : Nat) : State := s.updFn f (fun d => { d with allowance := d.allowance + v })

/-- Every region a launch still owns is vacated, refunded to the tenant's allowance; the sublets it holds end,
and every hand-over that others still wait for from it fails (R50, R62). -/
def vacateAll (s : State) (l : Launch) : State :=
  let mine := s.regions.filter (fun r => r.owner == l.id)
  let s := { s with pendings := s.pendings.map (fun p => if p.pred = l.id then { p with failed := true } else p) }
  let s := mine.foldl (fun s r => match s.region? r.id with
    | some r => refundTo (endRegion s r) l.fn (s.refundOf r)
    | none => s) s
  let s := s.regions.foldl (fun s r => (r.subs.filter (fun u => u.toLaunch && u.grantee == l.id)).foldl (fun s u =>
    match s.region? r.id with
    | some r => endSublet s r u
    | none => s) s) s
  { s with pendings := s.pendings.filter (fun p => p.launch != l.id) }

/-- What a core holds of a launch goes (R26, R286). -/
def CoreSt.freed (c : CoreSt) : CoreSt :=
  { c with ctx := [], latches := [], launch := none, gang := none, lastGang := none, xview := [], retry := false }

/-- A launch's code copy is freed; no later lease of its granules reads it (R66, R286). -/
def freeCode (s : State) (l : Launch) : State :=
  if l.code.2.1 = 0 then s else s.scrub l.code.2.2 (roundUp l.code.2.1 65536)

/-- A launch leaves the package: its cores are free, its barrier bindings and its code copy gone. -/
def removeLaunch (s : State) (l : Launch) : State :=
  let s := freeCode s l
  let s := { s with
    cores := (s.cores.filter (fun (c : Nat × CoreSt) => !(isParked c.1 && c.2.launch == some l.id))).map
      (fun (c : Nat × CoreSt) => if c.2.launch = some l.id then (c.1, c.2.freed) else c)
    barriers := s.barriers.filter (fun b => b.launch != l.id) }
  s.updLaunch l.id (fun x => { x with state := .retired, purse := 0, code := (0, 0, 0), img := {}, safe := [] })

/-- Whether a command of a launch is queued or running. -/
def State.hasCmds (s : State) (l : Nat) : Bool :=
  s.cores.any (fun c => (List.range 16).any (fun n => (c.2.chn n).queue.any (fun q => q.launch == l))
    || c.2.ctx.any (fun x => x.2.launch == l && x.2.held.any Held.isHandover))

/-- LAUNCH RETIRE (R26, R50, R288): a placed launch of which no context is left, and no command. -/
def execLaunchRetire (launch : Nat) (s : State) : Host.Outcome State Fault Refusal :=
  .next (match s.launch? launch with
    | none => s
    | some l =>
        if l.state != .placed || s.alive launch || s.hasCmds launch then s
        else
          let s := vacateAll s l
          let l := (s.launch? launch).getD l
          let s := removeLaunch (refundTo s l.fn l.purse) l
          writeRecord s l (if l.esc = 0 then 0 else 1))

/-- A launch fails before its placement: it counts as retired, and regions handed over to it are vacated
(R281, R288). -/
def failLaunch (s : State) (l : Launch) (st : Nat) : State :=
  writeRecord (removeLaunch (vacateAll s l) l) l st

/-! ## Reading an entry (R273, R282, R335) -/

/-- A launch whose entry was read and failed a check. -/
def refuseEntry (s : State) (d : List Byte) (f q serial id st : Nat) : State :=
  let l : Launch := (recordOf d f q serial id).getD
    { id := id, fn := f, queue := q, serial := serial, compl := BitVec.ofNat 64 (numAt d 0x20 8) }
  failLaunch { s with launches := s.launches ++ [l] } l st

/-- The reading of an image, if a launch's checks come to it: it is read as far as it can be (R282, R330). -/
def readFor (s : State) (d : List Byte) (f q serial id : Nat) : State :=
  match recordOf d f q serial id with
  | none => s
  | some l =>
      if l.deps.all (fun p => s.knownSerial f p.1) && (s.fn f).en then checkImage s f l.image.toNat else s

/-- LAUNCH ENTRY READ: the next entry of a queue is read from the host, READ advances, and the loader checks
the image. A check that meets a stage-2 miss sends its page request, and the entry stays unread until that is answered; a
page that a response refuses fails the image (R301). -/
def execLaunchEntryRead (fn queue : Nat) (s : State) : Host.Outcome State Fault Refusal :=
  .next (
    let q := (s.fn fn).q queue
    if !q.available || !q.page.all (s.answered fn) then s
    else
      let d := Memory.bytes s.hostMem (q.qbase.toNat + q.read.toNat % q.depth * 64) 64
      let serial := queue * 2 ^ 24 + q.read.toNat % 2 ^ 24
      let id := s.nextId
      let r := loaderChecks s d fn queue serial id
      let s := readFor s d fn queue serial id
      let t := { s.updQueue fn queue (fun q => { q with read := q.read + 1, page := none, refused := [] }) with
        nextId := s.nextId + 1 }
      match r with
      | .ok l => { t with launches := t.launches ++ [l] }
      | .error (.fail st) => refuseEntry t d fn queue serial id st
      | .error (.bad rep) => refuseEntry (t.report (some rep)) d fn queue serial id lsImage
      | .error (.miss g) =>
          if q.refused.contains (g / 4096) then refuseEntry t d fn queue serial id lsImage
          else
            let (s, n) := requestPage s fn g false
            s.updQueue fn queue (fun q => { q with page := some n }))

/-! ## Turns, as far as a placement asks (R265) -/

/-- The tenants of a partition in their rotation (R263, R265, R289). -/
def State.tenants (s : State) (p : Nat) : List Nat :=
  let l := (List.range 49).filter (fun f => (s.fn f).en && (s.fn f).part == p)
  (List.range 256).flatMap (fun o => l.filter (fun f => (s.fn f).order == o))

/-- Whether a tenant may run now: it has no turns, or is in its turn and no switch is under way (R265). -/
def State.inTurn (s : State) (f : Nat) : Bool :=
  let p := (s.fn f).part
  (s.tenants p).length ≤ 1 || (match Tbl.find s.turns p with
    | some t => t.fn == f && t.next.isNone
    | none => false)

/-! ## Placement (R274 to R281) -/

/-- Whether a core can take a placement (R24, R262, R264, R275, R276, R321, R349). -/
def State.coreFree (s : State) (p k : Nat) : Bool :=
  let q := s.quad (quadOf k)
  let c := s.core k
  q.valid && q.part == p && !q.scrub && c.launch.isNone && !c.busy && !c.hot && !c.excluded && c.fused != 15

/-- Whether a core is kept for another launch than `l`: one that waits to be placed and has pre-empted the launch whose
cores these were (R277). -/
def State.keptFrom (s : State) (l : Launch) (k : Nat) : Bool :=
  s.launches.any (fun v => v.state == .preempted && v.cores.contains k && v.by_.any (fun p =>
    p != l.id && (s.launch? p).any (fun x => x.state == .read && (s.fn x.fn).en)))

/-- Aligned groups of cores of one cluster, ascending (R24, R275). -/
def groupsOf (cpg : Nat) : List (List Nat) :=
  (List.range 16).flatMap (fun cl => (List.range (48 / cpg)).map (fun g =>
    (List.range cpg).map (fun i => 48 * cl + cpg * g + i)))

/-- The cores a launch would get: for each gang the lowest group that is free (R275). -/
def State.pickCores (s : State) (l : Launch) : Option (List Nat) :=
  let p := (s.fn l.fn).part
  let gs := ((groupsOf l.cpg).filter (fun g => g.all (fun k => s.coreFree p k && !s.keptFrom l k))).take l.gangs
  if gs.length = l.gangs then some gs.flatten else none

/-- The head of a queue: its first entry that waits (R274). -/
def State.headOf (s : State) (f q : Nat) : Option Launch :=
  s.launches.find? (fun l => l.fn == f && l.queue == q && l.state == .read)

/-- Whether every earlier launch of a queue has retired (R274). -/
def State.earlierDone (s : State) (l : Launch) : Bool :=
  s.launches.all (fun x => !(x.fn == l.fn && x.queue == l.queue && x.id < l.id) || x.state == .retired)

/-- The launch a dependence names: the last one of that serial (R279). -/
def State.pred? (s : State) (l : Launch) (n : Nat) : Option Launch :=
  (s.launches.filter (fun x => x.fn == l.fn && x.serial == n && x.id != l.id)).getLast?

/-- Whether a launch's regions can be received as far as their bases are known: each predecessor that it is to receive one
from has been placed, or has retired (R279, R280, log 45). -/
def State.predsKnown (s : State) (l : Launch) : Bool :=
  l.deps.all (fun d => d.2 == 0 || (s.pred? l d.1).any (fun x => x.state != .read))

/-- The set bits of a mask, ascending. -/
def setBits (m : Nat) : List Nat := (List.range 16).filter (fun i => m.testBit i)

/-- The predecessor's regions that a launch is to receive, in order (R279). -/
def State.handed (s : State) (l : Launch) : List (Option (Launch × DirReg)) :=
  l.deps.flatMap (fun d => (setBits d.2).map (fun j =>
    (s.pred? l d.1).bind (fun x => (x.regions[j]?).map (fun r => (x, r)))))

/-- Whether a received directive fits the predecessor's region (R279). -/
def fitsDir (d : RegDir) (m : Option (Launch × DirReg)) : Bool :=
  m.any (fun x => x.2.tier == d.tier && x.2.len == roundUp d.bytes (Config.granule d.tier))

/-- Rent one region for a launch at its placement (R9, R287): the state and the region. -/
def rentFor (s : State) (l : Launch) (home : Nat) (d : RegDir) : Option (State × DirReg) :=
  let g := Config.granule d.tier
  let n := (d.bytes + g - 1) / g
  let cost := s.charge d.tier d.bytes d.ticks
  if d.bytes = 0 ∨ 2 ^ 40 < d.ticks ∨ lastTick < s.now + d.ticks ∨ 64 ≤ s.entriesOf l.id ∨ !s.canPay l.id cost then none
  else match rentRuns s l.fn d.tier n home 1 with
    | (_, none) => none
    | (s, some runs) =>
        let (s, base) := s.newBase l.id d.tier (n * g) (runs.headD 0)
        let r : Region :=
          { id := s.nextId, fn := l.fn, owner := l.id, renter := 0, renterLaunch := l.id, renterAt := (home, 0)
            launchScope := true, base := base, len := n * g, tier := d.tier, home := home, kind := 1, until_ := s.now + d.ticks
            rltrap := d.rlt, pieces := piecesOf d.tier n runs, gpa := s.newGpa l.fn d.tier }
        let s := ({ s with regions := s.regions ++ [r], nextId := s.nextId + 1 }).pay l.id cost
        let s := (r.dpas r.base d.data.length).foldl (fun (acc : State × List Byte) p =>
          (acc.1.writeDpa p.1 (acc.2.take p.2), acc.2.drop p.2)) (s, d.data)
        some (s.1, { id := r.id, tier := d.tier, base := base, len := n * g })

/-- Receive one region by hand-over: its entry, pending until the predecessor hands it over or retires (R62, R280); none
where the launch's 64 range entries are all in use (R2). -/
def receiveFor (s : State) (l : Launch) (x : Launch) (r : DirReg) : Option (State × DirReg) :=
  if (s.region? r.id).any (fun g => g.owner == l.id) then
    (if 64 ≤ s.entriesOf l.id then none
     else some (s.updRegion r.id (fun g => { g with unmapped := false }), r))
  else
    let gone := x.state == .retired
    if !gone && 64 ≤ s.entriesOf l.id then none
    else some ({ s with pendings := s.pendings ++
      [{ launch := l.id, pred := x.id, region := r.id, base := r.base, len := r.len, failed := gone }] }, r)

/-- Every rented directive in order (R287). -/
def rentAll (s : State) (l : Launch) (home : Nat) : List RegDir → Option (State × List (Option DirReg))
  | [] => some (s, [])
  | d :: r =>
      if d.ticks = 0 then (rentAll s l home r).map (fun x => (x.1, none :: x.2))
      else match rentFor s l home d with
        | none => none
        | some (s, g) => (rentAll s l home r).map (fun x => (x.1, some g :: x.2))

/-- The directives that are received take the matched regions in order (R279, R287); none where a range entry is wanting
(R2). -/
def receiveAll (s : State) (l : Launch) :
    List (Option DirReg) → List (Option (Launch × DirReg)) → Option (State × List DirReg)
  | [], _ => some (s, [])
  | some g :: r, ms => (receiveAll s l r ms).map (fun x => (x.1, g :: x.2))
  | none :: r, some (p, g) :: ms =>
      match receiveFor s l p g with
      | none => none
      | some (s, g) => (receiveAll s l r ms).map (fun x => (x.1, g :: x.2))
  | none :: r, _ => receiveAll s l r []

/-- The TEXT section with its relocations applied (R286). -/
def relocated (l : LImage) (base : Nat) (regs : List DirReg) : List Word :=
  l.relocs.foldl (fun ws r =>
    let b := if r.kind = 1 then ((regs[r.index]?).map (·.base)).getD 0 else base
    setAt ws (r.at_ / 8) (BitVec.ofNat 64 b + r.addend)) l.text

/-- Code storage of `n` bytes in the tenant's partition, where a tier 2 store has room (R286, log 5). -/
def State.codeRun (s : State) (f n : Nat) : State × Option Nat :=
  (s.partCores (s.fn f).part).foldl (fun (acc : State × Option Nat) k =>
    match acc.2 with
    | some _ => acc
    | none => acc.1.findRun f 2 k (roundUp n 65536)) (s, none)

/-- The context that starts in slot `i` of a core (R21, R25). -/
def startCtx (l : Launch) (lindex i : Nat) (pc : Word) (ic : Nat) (fresh : List Nat := []) : Ctx :=
  { state := if i = 0 then .running else .ready, launch := l.id, lindex := lindex, pc := pc, notBefore := ic
    fresh := fresh }

/-- The regions a launch owns that were handed over to it (R61, R281). -/
def State.handedTo (s : State) (l : Nat) : List Nat :=
  (s.regions.filter (fun r => r.owner == l && r.handed)).map (·.id)

/-- The contexts of a launch start on a core (R21, R24, R69, R115, R201, R203, R320). -/
def startCore (s : State) (l : Launch) (k n : Nat) (pc : Word) : State :=
  s.updCore k (fun c => { c with
    ctx := (List.range l.cpc).map (fun i => (i, startCtx l (n * l.cpc + i) i pc c.ic (s.handedTo l.id)))
    latches := [], last := 0, freeze := 0, exclcnt := 0, bankfmt := [], chan := [], ring := [], gang := none
    lastGang := none, xview := [], launch := some l.id, retry := false })

/-- What a placement of a launch on given cores gives: a status where it fails, nothing where it must wait for
code storage, or the launch in place. -/
def placeOn (s : State) (l : Launch) (cores : List Nat) : Option (Except Nat State) :=
  let home := cores.headD 0
  let ms := s.handed l
  let recv := l.img.regs.filter (fun d => d.ticks == 0)
  if recv.length ≠ ms.length ∨ !(List.zipWith fitsDir recv ms).all id then some (.error lsRegion)
  else
    let t := (s.updFn l.fn (fun d => { d with allowance := d.allowance - l.request })).updLaunch l.id (fun x =>
      { x with purse := l.request })
    match rentAll t l home l.img.regs with
    | none => some (.error lsRegion)
    | some (t, gs) =>
      match receiveAll t l gs ms with
      | none => some (.error lsRegion)
      | some (t, regs) =>
        let n := 8 * l.img.text.length
        match t.codeRun l.fn n with
        | (_, none) => none
        | (t, some dpa) =>
            let (t, base) := t.newBase l.id 2 (roundUp n 65536) dpa
            let t := t.writeDpa dpa ((relocated l.img base regs).flatMap (fun w => toBytes 8 w.toNat))
            let t := t.updLaunch l.id (fun x => { x with
              state := .placed, cores := cores, regions := regs, code := (base, roundUp n 64, dpa), order := s.nextId })
            let t := { t with nextId := t.nextId + 1 }
            let pc := BitVec.ofNat 64 (base + l.img.entry)
            some (.ok (cores.zipIdx.foldl (fun t k => startCore t l k.1 k.2 pc) t))

/-- Whether a pre-empted launch's cores are free, and its tenant may run (R278). -/
def State.coresBack (s : State) (l : Launch) : Bool :=
  l.state == .preempted && s.inTurn l.fn && l.cores.all (fun k =>
    (s.core k).launch.isNone && !(s.core k).busy && !s.keptFrom l k && (Tbl.find s.cores (parkKey l.id k)).isSome)

/-- Whether a queue's head can be placed, as far as anything but free cores goes (R274, R275, R278, R280). -/
def State.mayPlace (s : State) (l : Launch) : Bool :=
  (s.fn l.fn).en && s.inTurn l.fn && decide (l.request ≤ (s.fn l.fn).allowance) && (!l.qb || s.earlierDone l)
    && s.predsKnown l
    && !s.launches.any (fun x => s.coresBack x && decide (l.prio ≤ x.prio)
      && (s.fn x.fn).part == (s.fn l.fn).part)

/-- The (function, queue) pairs in rotation after the one served last (R274). -/
def State.rotation (s : State) : List (Nat × Nat) :=
  let n := s.served.1 * 16 + s.served.2 + 1
  (List.range 784).map (fun i => ((n + i) % 784 / 16, (n + i) % 784 % 16))

/-- The heads that can be placed, with what their placement gives, in rotation. -/
def State.placeable (s : State) : List (Launch × Except Nat State) :=
  s.rotation.filterMap (fun p =>
    match s.headOf p.1 p.2 with
    | none => none
    | some l =>
        if !s.mayPlace l then none
        else match s.pickCores l with
          | none => none
          | some cs => (placeOn s l cs).map (fun r => (l, r)))

/-- Whether a pre-empted launch can resume: no waiting entry of a higher PRIO in its partition can be placed first
(R278). -/
def State.canResume (s : State) (l : Launch) : Bool :=
  s.coresBack l && !s.placeable.any (fun x => decide (l.prio < x.1.prio) && (s.fn x.1.fn).part == (s.fn l.fn).part)

/-- A head is placed, or fails (R274, R282). -/
def placed (s : State) (l : Launch) (r : Except Nat State) : State :=
  match r with
  | .ok t => { t with served := (l.fn, l.queue) }
  | .error st => { failLaunch s l st with served := (l.fn, l.queue) }

/-- PLACEMENT (R274, R275): of the heads that can be placed, one of the highest PRIO, the first in rotation. -/
def execPlacement (s : State) : Host.Outcome State Fault Refusal :=
  .next (
    let l := s.placeable
    let top := l.foldl (fun m x => max m x.1.prio) 0
    match l.find? (fun x => x.1.prio == top) with
    | none => s
    | some (x, r) => placed s x r)

/-- A launch that has pre-empted another is placed as soon as there are cores enough (R277). -/
def placeHead (s : State) (l : Launch) : State :=
  if l.state != .read || !s.mayPlace l then s
  else match s.pickCores l with
    | none => s
    | some cs => match placeOn s l cs with
      | none => s
      | some r => placed s l r

end Sys2Proof.Machine
end

