-- ==== Sys2Proof/Machine/Schedule.lean ====
section
/-!
DEFINITION. Turns and their switches (R265 to R270), priority pre-emption (R277, R278), quads that change
partition (R264), the end of an escalation (R308), and the final round of a migration (R311).
-/
namespace Sys2Proof.Machine

/-! ## Saving and restoring a core's part of a launch (R268, R269) -/

/-- Name a core's members of collectives anew. -/
def moveMembers (s : State) (a b : Nat) : State :=
  { s with colls := s.colls.map (fun y => { y with
      members := y.members.map (fun m => if m.2.1 = a then (m.1, b, m.2.2) else m) }) }

/-- What belongs to the launch on a core is put aside, and the core is free (R67, R268). -/
def park (s : State) (l k : Nat) : State :=
  let c := s.core k
  let saved : CoreSt :=
    { ctx := c.ctx, chan := c.chan, ring := c.ring, bankfmt := c.bankfmt, gang := c.gang, lastGang := c.lastGang
      xview := c.xview, launch := some l }
  let s := s.setCore (parkKey l k) saved
  moveMembers (s.setCore k { c.freed with chan := [], ring := [], bankfmt := [] }) k (parkKey l k)

/-- A context as it comes back: it may issue from this issue cycle on (R269), and escalates where an uncorrectable word was
found in its banks meanwhile (R331). -/
def Ctx.restored (x : Ctx) (ic : Nat) : Ctx :=
  { x with out := false, switch := .none, sinceTurn := 0, ranTurn := 0, notBefore := ic
           state := if x.state = .running ∨ (x.state = .waiting ∧ x.escNext.isSome ∧ !x.stopped) then .ready else x.state }

/-- A watch whose time ran out while its context was switched out is over at the restore (R269). -/
def endLate (s : State) (k j : Nat) : State := if (s.ctx k j).timedOut s.now then wakeWatch s k j else s

/-- What was put aside of a launch comes back to its core (R269). -/
def unpark (s : State) (l k : Nat) : State :=
  match Tbl.find s.cores (parkKey l k) with
  | none => s
  | some p =>
      let s := { s with cores := Tbl.erase s.cores (parkKey l k) }
      let s := moveMembers (s.updCore k (fun c => { c with
        ctx := p.ctx.map (fun x => (x.1, x.2.restored c.ic)), chan := p.chan, ring := p.ring, bankfmt := p.bankfmt
        gang := p.gang, lastGang := p.lastGang, xview := p.xview, launch := some l })) (parkKey l k) k
      [0, 1, 2, 3].foldl (fun s j => endLate s k j) s

/-- The registers a safe point's live list names, and zero in every other (R269). -/
def keepLive (b : Bank) (e : Nat × Nat × Nat × Nat × Nat) : Bank :=
  let (_, sl, vl, pl, tl) := e
  let vs := ((List.range 64).filter (fun n => vl.testBit n)).map (vphys b.rbase)
  let ps := ((List.range 16).filter (fun n => pl.testBit n)).map (pphys b.rbase)
  { b with s := b.s.filter (fun x => sl.testBit x.1), v := b.v.filter (fun x => vs.contains x.1)
           p := b.p.filter (fun x => ps.contains x.1), t := b.t.filter (fun x => tl.testBit (x.1 / 32)) }

/-- The safe point at an address of a launch's code; an empty live list where it has none (R285). -/
def State.safeAt (s : State) (l : Nat) (pc : Word) : Nat × Nat × Nat × Nat × Nat :=
  match s.launch? l with
  | none => (0, 0, 0, 0, 0)
  | some x => (x.safe.find? (fun e => x.code.1 + e.1 == pc.toNat)).getD (0, 0, 0, 0, 0)

/-! ## SWSTAT (R289) -/

/-- One more in the 16-bit counter of SWSTAT at a bit, saturating. -/
def State.countSw (s : State) (k lo : Nat) : State :=
  s.updCore k (fun c => { c with swstat := setField c.swstat lo 16 (min 0xFFFF (field c.swstat lo 16 + 1)) })

/-- Whether a launch is being pre-empted. -/
def State.preempting (s : State) (l : Nat) : Bool := ((s.launch? l).map (fun x => x.state == .preempted)).getD false

/-- A context has stopped: LASTSW where it is for a turn end (R289), and the latches of a Running one (R31). -/
def stopped (s : State) (k j : Nat) : State :=
  let x := s.ctx k j
  let s := if s.preempting x.launch then s
    else s.updCore k (fun c => { c with swstat := setField c.swstat 16 16 (min 0xFFFF x.sinceTurn) })
  let s := if x.state = .running then s.updCore k (fun c => { c with latches := [] }) else s
  s.updCtx k j (fun x => { x with
    out := true, switch := .none, undo := none, state := if x.state = .running then .ready else x.state })

/-! ## Turn ends (R265, R267) -/

/-- The contexts of a function on cores, as (core, slot), but those that are saved. -/
def State.live (s : State) (f : Nat) : List (Nat × Nat) :=
  s.slots.filter (fun p => !isParked p.1 && !isHitik p.1 && s.fnOf (s.ctx p.1 p.2).launch == f)

/-- The core freezes fetch for a context that takes a full save: what is in flight, and the latches of a Running one, go
into its bank, as at a trap (R267). -/
def stopFetch (s : State) (k j : Nat) : State :=
  let y := s.ctx k j
  let b := saveBank s k j (s.core k).ic (y.state != .running) y.pc y.rep
  let s := s.setCtx k j { y with
    switch := .full, hold := if y.hold.isSome then y.hold else some b, flight := [], undo := none
    state := if y.state = .running then .ready else y.state }
  if y.state = .running then s.updCore k (fun c => { c with latches := [] }) else s

/-- Whether a context takes a full save at a turn end: it waits or is blocked, or has run for 65,536 issue cycles since
(R267). -/
def Ctx.mustSave (x : Ctx) : Bool := x.state == .waiting || x.blocked || decide (65536 ≤ x.ranTurn)

/-- Every context of a function begins its switch: a full save, in a gang with every other member, where it must be one,
else a safe-point switch (R267). -/
def beginSwitch (s : State) (f : Nat) : State :=
  let l := (s.live f).filter (fun p => !(s.ctx p.1 p.2).out)
  let s := l.foldl (fun s p => s.updCtx p.1 p.2 (fun x => { x with sinceTurn := 0, ranTurn := 0 })) s
  let full (p : Nat × Nat) : Bool := (s.gangSlots p.1 p.2).any (fun m => (s.ctx m.1 m.2).mustSave)
  l.foldl (fun t p => if full p then stopFetch t p.1 p.2 else t.updCtx p.1 p.2 (fun x => { x with switch := .safePoint })) s

/-- The tenant after one in a partition's rotation (R265). -/
def State.nextTenant (s : State) (p f : Nat) : Nat :=
  let l := s.tenants p
  match l.idxOf? f with
  | some i => (l[(i + 1) % l.length]?).getD f
  | none => l.headD f

/-- TURN END (R265, R267): at the start of the tick that lies the turn length after the turn's beginning. -/
def execTurnEnd (part : Nat) (s : State) : Host.Outcome State Fault Refusal :=
  .next (match Tbl.find s.turns part with
    | none => s
    | some t =>
        if t.next.isSome || decide ((s.tenants part).length ≤ 1) || decide (s.now < t.began + t.len) then s
        else
          beginSwitch { s with
            turns := Tbl.set s.turns part { t with next := some (s.nextTenant part t.fn) } } t.fn)

/-- Whether a bundle acts as a safe point: its SP bit is set, it holds HALT, or it is the kernel entry (R10). -/
def State.actsSafe (s : State) (l : Nat) (pc : Word) (b : Bundle) : Bool :=
  b.hdr.sp || b.ops.any (fun o => match o.2.1 with
    | .halt _ => true
    | _ => false)
    || (s.launch? l).any (fun x => x.code.1 + x.img.entry == pc.toNat)

/-- Whether a context's next bundle is a safe point, with nothing of it in flight or queued (R120, R267). -/
def State.atSafePoint (s : State) (k j : Nat) : Bool :=
  let x := s.ctx k j
  x.flight.isEmpty && x.queue.isEmpty && x.rep == 0 &&
    (match fetchBundle s k j x.pc with
     | .bundle b => s.actsSafe x.launch x.pc b
     | .stop _ (some b) => b.hdr.sp
     | _ => false)

/-- SAFE POINT SWITCH (R267, R269): the context stops before its SP bundle; its live list is kept. -/
def execSafePointSwitch (core slot : Nat) (s : State) : Host.Outcome State Fault Refusal :=
  .next (
    let ms := s.gangSlots core slot
    if !(s.ctx core slot).out && (s.ctx core slot).switch = .safePoint
        && ms.all (fun m => (s.ctx m.1 m.2).flight.isEmpty && (s.ctx m.1 m.2).queue.isEmpty)
        && s.atSafePoint core slot then
      ms.foldl (fun s m =>
        let x := s.ctx m.1 m.2
        let e := s.safeAt x.launch x.pc
        stopped (s.setCtx m.1 m.2 { x with bank := keepLive x.bank e, sticky := [] }) m.1 m.2) s
    else s)

/-- Whether the engines let a context be saved whole: no operation of it runs, and for a pre-emption none is
queued (R267, R277). -/
def State.enginesQuiet (s : State) (k j : Nat) : Bool :=
  let x := s.ctx k j
  if s.preempting x.launch then x.queue.isEmpty else x.queue.all (fun o => !o.started || o.page.isSome)

/-- A pre-empted launch all of whose contexts have stopped leaves its cores, and the launch that pre-empted it is placed on
them (R277). -/
def settlePreempt (s : State) (l : Nat) : State :=
  match s.launch? l with
  | none => s
  | some x =>
      if x.state == .preempted && s.slots.all (fun p => (s.ctx p.1 p.2).launch != l || (s.ctx p.1 p.2).out) then
        let s := (x.cores.filter (fun k => (s.core k).launch == some l)).foldl (fun s k => park s l k) s
        match x.by_.bind s.launch? with
        | some p => placeHead s p
        | none => s
      else s

/-- FULL SAVE (R267, R277): the context is stopped where it stands; what is in flight goes into its bank. -/
def execFullSave (core slot : Nat) (s : State) : Host.Outcome State Fault Refusal :=
  .next (
    let ms := s.gangSlots core slot
    let x := s.ctx core slot
    if !x.out && x.switch = .full && ms.all (fun m => s.enginesQuiet m.1 m.2) then
      let snap := s.preempting x.launch
      let s := ms.foldl (fun s m =>
        (stopped (stopFetch s m.1 m.2) m.1 m.2).countSw m.1 (if snap then 32 else 48)) s
      settlePreempt s x.launch
    else s)

/-! ## Turn beginnings (R265, R269) -/

/-- Launches of a function that are placed. -/
def State.placedOf (s : State) (f : Nat) : List Launch := s.launches.filter (fun l => l.fn == f && l.state == .placed)

/-- Every placed launch of a function leaves its cores. -/
def parkAll (s : State) (f : Nat) : State :=
  s.launches.foldl (fun s l =>
    if l.fn = f then (l.cores.filter (fun k => (s.core k).launch == some l.id)).foldl (fun s k => park s l.id k) s
    else s) s

/-- Every placed launch of a function comes back to its cores, and the answers to its page requests that came meanwhile
take effect (R269, R306). -/
def unparkAll (s : State) (f : Nat) : State :=
  takeAnswers ((s.placedOf f).foldl (fun s l => l.cores.foldl (fun s k => unpark s l.id k) s) s) f

/-- The contexts of a function that a switch has reached and that still have their cores go on: its tenant is alone
(R265). -/
def callOff (s : State) (f : Nat) : State :=
  (s.live f).foldl (fun s p =>
    if s.preempting (s.ctx p.1 p.2).launch then s
    else
      let s := s.updCtx p.1 p.2 (fun x =>
        if x.out then x.restored (s.core p.1).ic else { x with switch := .none, sinceTurn := 0, ranTurn := 0 })
      endLate s p.1 p.2) s

/-- The tenant whose turn is first where turns begin: one with a placed launch, else the first in rotation. -/
def State.firstTenant (s : State) (p : Nat) : Nat :=
  let l := s.tenants p
  (l.find? (s.hasPlaced ·)).getD (l.headD 0)

/-- The turn of a tenant that begins now; a later change of FCTL does not change its length (R265, R352). -/
def State.turnOf (s : State) (f : Nat) : Turn := { fn := f, began := s.now, len := (s.fn f).turn }

/-- Whether the partition's tenant in its turn has come to a stop. -/
def State.allOut (s : State) (f : Nat) : Bool := (s.live f).all (fun p => (s.ctx p.1 p.2).out)

/-- TURN BEGIN (R265, R269): a partition switch completes and the incoming tenant is restored; where a second
tenant has come turns begin, and where one is left they end. -/
def execTurnBegin (part : Nat) (s : State) : Host.Outcome State Fault Refusal :=
  .next (
    let many := decide (1 < (s.tenants part).length)
    match Tbl.find s.turns part with
    | none =>
        if many then
          { s with turns := Tbl.set s.turns part (s.turnOf (s.firstTenant part)) }
        else s
    | some t =>
        if !many then
          let s := { s with turns := Tbl.erase s.turns part }
          (s.tenants part).foldl (fun s f => unparkAll (callOff s f) f) s
        else match t.next with
          | none => s
          | some g =>
              if !s.allOut t.fn then s
              else
                let s := (s.partCores part).foldl (fun s k => s.countSw k 0) (parkAll s t.fn)
                unparkAll { s with turns := Tbl.set s.turns part (s.turnOf g) } g)

/-! ## Pre-emption (R277, R278) -/

/-- The launch a head may pre-empt: of the running launches of its tenant with a lower PRIO, one of the lowest,
the last placed (R277). -/
def State.victim (s : State) (l : Launch) : Option Launch :=
  ((s.placedOf l.fn).filter (fun x => x.prio < l.prio)).foldl (fun (best : Option Launch) x =>
    match best with
    | none => some x
    | some b => if x.prio < b.prio ∨ (x.prio = b.prio ∧ b.order < x.order) then some x else some b) none

/-- Whether some launch of a function is on its way out by pre-emption. -/
def State.preemptRuns (s : State) (f : Nat) : Bool :=
  s.launches.any (fun l => l.fn == f && l.state == .preempted
    && l.cores.any (fun k => (s.core k).launch == some l.id))

/-- PRIORITY PREEMPTION (R277): a head that only free cores hold back takes the victim's. -/
def execPriorityPreemption (fn queue : Nat) (s : State) : Host.Outcome State Fault Refusal :=
  .next (match s.headOf fn queue with
    | none => s
    | some l =>
        if !(s.fn fn).pre || !s.mayPlace l || (s.pickCores l).isSome || s.preemptRuns fn then s
        else match s.victim l with
          | none => s
          | some v =>
              let s := s.updLaunch v.id (fun x => { x with state := .preempted, by_ := some l.id })
              settlePreempt (s.slots.foldl (fun s p =>
                if (s.ctx p.1 p.2).launch = v.id ∧ !(s.ctx p.1 p.2).out then stopFetch s p.1 p.2 else s) s) v.id)

/-- PREEMPTED RESUME (R278). -/
def execPreemptedResume (launch : Nat) (s : State) : Host.Outcome State Fault Refusal :=
  .next (match s.launch? launch with
    | none => s
    | some l =>
        if s.canResume l then
          takeAnswers ((l.cores.foldl (fun s k => unpark s launch k) s).updLaunch launch (fun x => { x with
            state := .placed, by_ := none })) l.fn
        else s)

/-! ## Quads (R67, R264) -/

/-- A core after its quad's scrub: no register state, rings, formats, queues or banks (R67, R264). -/
def CoreSt.scrubbed (c : CoreSt) : CoreSt :=
  { c with ctx := [], latches := [], bankfmt := [], chan := [], ring := [], gang := none, lastGang := none
           xview := [], launch := none, retry := false }

/-- QUAD SCRUB COMPLETE (R264). -/
def execQuadScrubComplete (quad : Nat) (s : State) : Host.Outcome State Fault Refusal :=
  .next (
    if !(s.quad quad).scrub then s
    else
      let s := s.updQuad quad (fun q => { q with scrub := false })
      (quadCores quad).foldl (fun s k =>
        let s := [0, 1].foldl (fun (s : State) t => s.scrub (Config.tierBase t k) (Config.tierSize t)) s
        if (Tbl.find s.cores k).isSome then s.updCore k CoreSt.scrubbed else s) s)

/-! ## Escalations (R308) -/

/-- ESCALATION RESUME (R308): the context reissues its resume point, and its hold bank is replayed there. -/
def execEscalationResume (core slot : Nat) (s : State) : Host.Outcome State Fault Refusal :=
  .next (if (s.ctx core slot).stopped then
    s.updCtx core slot (fun x => { x with state := .ready, wait := none, target := true })
  else s)

/-- ESCALATION STOP (R288, R308): the context counts as ended. -/
def execEscalationStop (core slot : Nat) (s : State) : Host.Outcome State Fault Refusal :=
  .next (
    let x := s.ctx core slot
    if !x.stopped then s
    else
      let s := match x.tail with
        | some t =>
            if t.deferred then s
            else s.updCtx core t.spawner (fun y => { y with holds := y.holds.filter (fun h => h.slot != slot) })
        | none => s
      s.endCtx core slot)

/-! ## Migration (R311) -/

/-- FINAL ROUND (R311): every context of the function stops as at a turn end. -/
def execFinalRound (fn : Nat) (s : State) : Host.Outcome State Fault Refusal := .next (beginSwitch s fn)

end Sys2Proof.Machine
end

