-- ==== Sys2Proof/Machine/Power.lean ====
section
/-!
DEFINITION. The heat board and the layers (R276, R318, R321, R322), the power alarm (R325), the token buckets
(R342), patrol (R330, R332), and the writes of management registers that have a row of their own (R289, R291,
R323, R343).
-/
namespace Sys2Proof.Machine

/-! ## Heat (R276, R318, R321, R322) -/

/-- A column's temperature: the highest of its four layer readings (R318). -/
def CoreSt.columnTemp (c : CoreSt) : Nat := c.temps.foldl max 0

/-- The layers throttled for heat after new readings (R322). -/
def heatNext (low high : Nat) (c : CoreSt) : BitVec 4 :=
  BitVec.ofNat 4 ((List.range 4).foldl (fun m i =>
    let t := (c.temps[i]?).getD 0
    if high < t ∨ (low ≤ t ∧ c.heat.getLsbD i) then m + 2 ^ i else m) 0)

/-- The layers throttled now, for heat or by FORCE: where every unfused layer would be, the highest of them
stays active (R322). -/
def throttled (fused want : BitVec 4) : BitVec 4 :=
  let t := want &&& ~~~fused
  if t ≠ ~~~fused then t
  else match [3, 2, 1, 0].find? (fun i => t.getLsbD i) with
    | some i => t &&& ~~~(BitVec.ofNat 4 (2 ^ i))
    | none => t

/-- One column of the board: throttling takes effect in the first cycle of a tick (R322); HOT is set above HEAT.HIGH and cleared below HEAT.LOW; an excluded core and one
with every layer fused off stay HOT (R276, R321, R349). -/
def heatColumn (s : State) (c : CoreSt) : CoreSt :=
  let t := c.columnTemp
  let h := heatNext s.lLow s.lHigh c
  { c with
    heat := h
    thr := throttled c.fused (h ||| c.force)
    hot := c.excluded || c.fused == 15 || decide (s.heatHigh < t) || (c.hot && decide (s.heatLow ≤ t)) }

/-- HEAT BOARD UPDATE (R318): at the start of every tick. -/
def execHeatBoardUpdate (s : State) : Host.Outcome State Fault Refusal :=
  .next { s with cores := s.cores.map (fun c => if c.1 < Config.cores then (c.1, heatColumn s c.2) else c) }

/-! ## Power (R325) -/

/-- The limit of the power monitor: what Hitik sets, at most 3.6 kW (R325). -/
def State.wattLimit (s : State) : Nat := min s.powerLimit 3600

/-- Whether the package power, averaged over the last 100 ticks, exceeds the limit (R325, log 98). -/
def State.overPower (s : State) : Bool := decide (100 * s.wattLimit < s.powers.foldl (· + ·) 0)

/-- The power monitor's reading at the start of a tick (R325). -/
def readPower (s : State) : State :=
  { s with powers := (s.power :: s.powers).take 100, below := if s.power < s.wattLimit then s.below + 1 else 0 }

/-- POWER ALARM RAISE (R325): the average exceeds the limit. -/
def execPowerAlarmRaise (s : State) : Host.Outcome State Fault Refusal :=
  .next (if s.overPower then { s with alarm := true } else s)
/-- POWER ALARM CLEAR (R325): 100 consecutive ticks below the limit. -/
def execPowerAlarmClear (s : State) : Host.Outcome State Fault Refusal :=
  .next (if 100 ≤ s.below then { s with alarm := false } else s)

/-! ## Tokens (R342) -/

/-- A bucket after a refill. -/
def refill (burst rate : Nat) (b : Bucket) : Bucket := { b with tokens := min (b.tokens + rate) burst }

/-- TOKEN REFILL (R342): at the start of each tick, before any access of it. -/
def execTokenRefill (s : State) : Host.Outcome State Fault Refusal :=
  .next { s with cores := s.cores.map (fun c =>
    (c.1, { c.2 with tokens := c.2.tokens.map (fun t =>
      let b := Tbl.getD (s.fn t.1).tbkt (quadOf c.1) (0xFFFF, 0)
      (t.1, refill b.1 b.2 t.2)) })) }

/-! ## Patrol (R330, R332) -/

/-- Patrol units per tick of a tier (R353). -/
def State.patrolRate (s : State) (tier : Nat) : Nat := field s.patrolR (16 * tier) 16

/-- A range put into an ascending list of disjoint ones; where it overlaps one, only what is new of it. -/
def addRange (p : Nat × Nat) : List (Nat × Nat) → List (Nat × Nat)
  | [] => if p.2 = 0 then [] else [p]
  | q :: r =>
      if p.2 = 0 then q :: r
      else if p.1 + p.2 ≤ q.1 then p :: q :: r
      else
        let low := if p.1 < q.1 then [(p.1, q.1 - p.1)] else []
        let e := max p.1 (q.1 + q.2)
        low ++ q :: addRange (e, p.1 + p.2 - e) r

/-- What patrol reads in a tier, ascending: what is rented, code, blocks, and the windows of bound functions (R296,
R332). -/
def State.patrolRanges (s : State) (tier : Nat) : List (Nat × Nat) :=
  let ws := if tier = 2 then (s.fns.filter (fun d => d.2.en)).flatMap (fun d =>
    (s.partCores d.2.part).flatMap (windowOn s d.1)) else []
  (s.rentedIn tier ++ ws).foldl (fun l p => addRange p l) []

/-- Units of some ranges that lie below an address. -/
def unitsBelow (l : List (Nat × Nat)) (a : Nat) : Nat := l.foldl (fun n p => n + min (a - p.1) p.2 / 64) 0

/-- The `n`-th unit of some ranges. -/
def unitAt : List (Nat × Nat) → Nat → Nat
  | [], _ => 0
  | p :: r, n => if n < p.2 / 64 then p.1 + 64 * n else unitAt r (n - p.2 / 64)

/-- Whether a unit is patrolled. -/
def State.patrolled (s : State) (u : Nat) : Bool :=
  (dpaHome u).any (fun h => s.patrolRate h.1 != 0 && (s.patrolRanges h.1).any (fun p => within u p.1 p.2))

/-- The units that patrol reads in this tick in a tier and that hold an error, ascending from where it stands, and where
it stands then: as many units as its rate (R332). -/
def State.patrolStep (s : State) (tier : Nat) : List Nat × Nat :=
  let l := s.patrolRanges tier
  let n := l.foldl (fun n p => n + p.2 / 64) 0
  let rate := s.patrolRate tier
  let at_ := unitsBelow l (Tbl.getD s.patrolAt tier 0)
  if n = 0 then ([], 0)
  else
    let hit (u : Nat) : Bool :=
      l.any (fun p => within u p.1 p.2) && decide ((unitsBelow l u + n - at_ % n) % n < min rate n)
    let us := ((s.poison ++ s.wrong.map (·.1)).filter hit).eraseDups
    let up := us.foldl (fun (acc : List Nat) u => acc.filter (· < u) ++ u :: acc.filter (u < ·)) []
    let first := unitAt l (at_ % n)
    (up.filter (first ≤ ·) ++ up.filter (· < first), unitAt l ((at_ + rate) % n))

/-- Where patrol stands after this tick. -/
def movePatrol (s : State) : State :=
  { s with patrolAt := [0, 1, 2].foldl (fun t tier =>
      if s.patrolRate tier = 0 then t else Tbl.set t tier (s.patrolStep tier).2) s.patrolAt }

/-- Wrong symbols of a unit, as far as the code tells: one, or more. -/
def State.symbolsWrong (s : State) (u : Nat) : Nat :=
  if s.poisoned u then 2 else if (Tbl.find s.wrong u).isSome then 1 else 0

/-- The block of a block store that a unit lies in, as function and number. -/
def State.blockOf (s : State) (u : Nat) : Option (Nat × Nat) :=
  s.fns.findSome? (fun d => (d.2.store.blocks.find? (fun b => within u b.2.paddr blockBytes)).map (fun b => (d.1, b.1)))

/-- A unit is found uncorrectable: it is poisoned and counted, and so is the block it lies in (R240, R307, R330). -/
def foundBad (s : State) (u : Nat) : State :=
  let s := ({ s with wrong := Tbl.erase s.wrong u } : State).addPoison [u] |>.countUe u
  match s.blockOf u with
  | some (f, g) => foundPoison s f g
  | none => s

/-- PATROL (R330, R332): a unit is read with a number of wrong symbols; one is corrected and counted, and with
more the unit is poisoned and counted as uncorrectable. -/
def execPatrol (unit wrongSymbols : Nat) (s : State) : Host.Outcome State Fault Refusal :=
  .next (
    let u := unit / 64 * 64
    let n := max wrongSymbols (s.symbolsWrong u)
    if !s.patrolled u then s
    else if 2 ≤ n then foundBad s u
    else if n = 1 then { s.countCe with wrong := Tbl.erase s.wrong u }
    else s)

/-! ## Errors that come from outside (R328, R329, R331) -/

/-- An error comes from outside (R328, R329, R331). A second wrong symbol makes a unit uncorrectable; a word of a context's
registers, latches or banks is put right and counted, or escalates the context that owns it, if one does (log 61). -/
def applyUpset (s : State) (e : Upset) : State :=
  match e with
  | .symbol unit sym =>
      let u := unit / 64 * 64
      if (dpaHome u).isNone || s.poisoned u then s
      else match Tbl.find s.wrong u with
        | none => { s with wrong := Tbl.set s.wrong u (sym % 32) }
        | some x => if x = sym % 32 then s else ({ s with wrong := Tbl.erase s.wrong u } : State).addPoison [u]
  | .write unit =>
      let u := unit / 64 * 64
      if s.badWrites.contains u then s else { s with badWrites := s.badWrites ++ [u] }
  | .word k j bad =>
      if !bad then s.countCe
      else
        let s := { s with errUe := min (s.errUe + 1) 0xFFFFF }
        let x := s.ctx k j
        if x.state = .empty then s
        else s.updCtx k j (fun x => { x with
          escNext := some (true, 0)
          state := if x.state = .waiting ∧ !x.out ∧ !x.stopped then .ready else x.state })

/-- The errors whose core cycle has come. -/
def applyUpsets (s : State) : State :=
  if s.upsets.isEmpty then s
  else (s.upsets.filter (fun e => e.1 ≤ s.cycle)).foldl (fun s e => applyUpset s e.2)
    { s with upsets := s.upsets.filter (fun e => s.cycle < e.1) }

/-! ## Writes of management registers (R289) -/

/-- QPART WRITE (R264, R289). -/
def execQpartWrite (v : Word) (s : State) : Host.Outcome State Fault Refusal := .next (mtsMgmt s 0x801 v)
/-- FCTL WRITE (R263, R289). -/
def execFctlWrite (v : Word) (s : State) : Host.Outcome State Fault Refusal := .next (mtsMgmt s 0x802 v)
/-- LQ WRITE (R272, R289). -/
def execLqWrite (v : Word) (s : State) : Host.Outcome State Fault Refusal := .next (mtsMgmt s 0x804 v)
/-- TBKT WRITE (R342, R343). -/
def execTbktWrite (v : Word) (s : State) : Host.Outcome State Fault Refusal := .next (mtsMgmt s 0x824 v)
/-- LMAP WRITE (R323). -/
def execLmapWrite (v : Word) (s : State) : Host.Outcome State Fault Refusal := .next (mtsMgmt s 0x820 v)
/-- MWDATA ACCESS (R291): a read changes nothing; a write goes to the selected item. -/
def execMwdataAccess (write : Option Word) (s : State) : Host.Outcome State Fault Refusal :=
  .next (match write with
    | none => s
    | some v => mtsMgmt s 0x832 v)

end Sys2Proof.Machine
end

