-- ==== Sys2Proof/Machine/Host.lean ====
section
/-!
DEFINITION. The host's side: the register window (R334 to R336), service requests (R337), Function Level Reset
(R341), bring-up (R349, R350), configuration requests and attestation (R349, R351).
-/
namespace Sys2Proof.Machine

/-! ## The register window (R334 to R336) -/

/-- A dropped write sets CAUSE.ERR (R334). -/
def dropped (s : State) (f : Nat) : State := raiseCause s f causeErr

/-- The bits of INV and S1INV that hold a value (R299). -/
def invBits : Word := put [(62, 1), (61, 1), (48, 7), (12, 2 ^ 36 - 1)]

/-- S1INV WRITE (R336): a stage-1 invalidation of the function, unless one runs or ADDR is not aligned. -/
def execS1invWrite (fn : Nat) (v : Word) (s : State) : Host.Outcome State Fault Refusal :=
  .next (
    let w := v &&& invBits
    if (s.fn fn).s1invBusy || !invOk w then dropped s fn
    else
      (s.updFn fn (fun d => { d with s1inv := w ||| put [(61, 1)], s1invBusy := true })).later
        [.invalidationComplete fn true])

/-- A vector is unmasked while its pending bit is set: it sends one message, and vector 0 begins its count
again (R338, R339). -/
def sendPending (s : State) (f v : Nat) : State :=
  let d := s.fn f
  if !(d.vector v).mask && d.pba.getLsbD v then
    let s := { s with msixSent := s.msixSent ++ [(f, v)] }
    s.updFn f (fun d => { d with
      pba := d.pba &&& ~~~(BitVec.ofNat 4 (2 ^ v)), coalP := if v = 0 then 0 else d.coalP })
  else s

/-- The 8-byte register of the window at an offset, as the host reads it; none where none is listed (R334). A doorbell,
which is written only, reads zero (log 96, DESIGN CHOICE). -/
def windowWord (d : Fn) (o : Nat) : Option Word :=
  if o < 0x80 then some (d.q (o / 8)).qbase
  else if o < 0x100 then some 0
  else if o < 0x180 then some (lqWord (d.q ((o - 0x100) / 8)))
  else if o = 0x180 then some d.s1root
  else if o = 0x188 then some (invWord d.s1inv d.s1invBusy)
  else if o = 0x190 then some (d.causeR.setWidth 64)
  else if o = 0x198 then some d.coal
  else if o = 0x1A0 then some (d.mreq ||| put [(0, b2n d.mreqBusy)])
  else if 0x1000 ≤ o && o < 0x1040 then
    let e := d.vector ((o - 0x1000) / 16)
    some (if o % 16 = 0 then e.addr else put [(32, b2n e.mask), (0, e.data.toNat)])
  else if o = 0x1800 then some (d.pba.setWidth 64)
  else none

/-- What a read of the window by the host returns (R334): naturally aligned reads of 4 or 8 bytes of a listed register,
and all ones for any other. A read changes nothing. -/
def State.windowRead (s : State) (f offset size : Nat) : Word :=
  let ones := BitVec.ofNat 64 (2 ^ (8 * size) - 1)
  if (size = 8 ∨ size = 4) ∧ offset % size = 0 then
    match windowWord (s.fn f) (offset / 8 * 8) with
    | some w => if size = 8 then w else BitVec.ofNat 64 (field w (8 * (offset % 8)) 32)
    | none => ones
  else ones

/-- The event that answers a request block, by its OP (R337). -/
def serviceFor (f op : Nat) : Instr := if op = 1 then .setlayer f else if op = 2 then .getlayer f else .getwindow f

/-- The effect of a whole 8-byte window register write; `half` tells which 4 bytes were written. -/
def windowWrite (s : State) (f o : Nat) (v : Word) : State :=
  let d := s.fn f
  if o < 0x80 then
    if (d.q (o / 8)).en then dropped s f
    else s.updQueue f (o / 8) (fun q => { q with qbase := v &&& ~~~0xFFF })
  else if o < 0x100 then s.push [.doorbell f ((o - 0x80) / 8) (v.setWidth 32)]
  else if o < 0x180 then s
  else if o = 0x180 then
    if s.hasPlaced f then dropped s f
    else s.updFn f (fun d => { d with s1root := v &&& put [(12, 2 ^ 36 - 1), (0, 1)] })
  else if o = 0x188 then s.push [.s1invWrite f v]
  else if o = 0x190 then s.updFn f (fun d => { d with causeR := d.causeR &&& ~~~(v.setWidth 4) })
  else if o = 0x198 then s.updFn f (fun d => { d with coal := v &&& put [(16, 0xFFFF), (0, 0xFF)] })
  else if o = 0x1A0 then
    if d.mreqBusy then dropped s f
    else
      let a := v &&& ~~~63
      (s.updFn f (fun d => { d with mreq := a, mreqBusy := true })).later
        [serviceFor f (ofBytes (Memory.bytes s.hostMem a.toNat 2))]
  else if 0x1000 ≤ o && o < 0x1040 then
    let n := (o - 0x1000) / 16
    let e := d.vector n
    let e : MsixEntry :=
      if o % 16 = 0 then { e with addr := v } else { e with data := v.setWidth 32, mask := bit v 32 }
    sendPending (s.updFn f (fun d => { d with msix := Tbl.set d.msix n e })) f n
  else if 0x1800 ≤ o && o < 0x1808 then s
  else dropped s f

/-- REGISTER WINDOW WRITE (R334): naturally aligned writes of 4 or 8 bytes; any other is dropped. A half of a
doorbell that holds no pointer, and a half of a register whose bits are cleared by writing ones, change
nothing more than they say. -/
def execRegisterWindowWrite (fn offset size : Nat) (v : Word) (s : State) : Host.Outcome State Fault Refusal :=
  .next (
    if size = 8 && offset % 8 = 0 then windowWrite s fn offset v
    else if size = 4 && offset % 4 = 0 then
      let o := offset / 8 * 8
      let hi := offset % 8 = 4
      if 0x80 ≤ o && o < 0x100 && hi then s
      else
        let old := if o = 0x190 then 0 else (windowWord (s.fn fn) o).getD 0
        windowWrite s fn o
          (if hi then setField old 32 32 (field v 0 32) else setField old 0 32 (field v 0 32))
    else dropped s fn)

/-! ## Service requests (R337) -/

/-- Hitik answers a request: STATUS and the result fields are written, BUSY clears, and the driver hears of it
by CAUSE.MBOX. -/
def answer (s : State) (f st : Nat) (fields : List (Nat × List Byte)) : State :=
  let a := (s.fn f).mreq.toNat
  let m0 := Memory.writeBytes s.hostMem (a + 3) [BitVec.ofNat 8 st]
  let m1 := fields.foldl (fun m (p : Nat × List Byte) => Memory.writeBytes m (a + p.1) p.2) m0
  let s := { s with hostMem := m1 }
  raiseCause (s.updFn f (fun d => { d with mreqBusy := false })) f causeMbox

/-- The request block of a function in progress: its 64 bytes, if its OP is one of those an event answers. -/
def State.request? (s : State) (f : Nat) (ops : Nat → Bool) : Option (List Byte) :=
  let d := s.fn f
  if !d.mreqBusy then none
  else
    let b := Memory.bytes s.hostMem d.mreq.toNat 64
    if ops (numAt b 0 2) then some b else none

/-- Whether blocks of a layer exist (R228). -/
def State.layerUsed (s : State) (f n : Nat) : Bool :=
  (s.store f).stage1.any (fun e => !e.2.dead && e.1 / 2 ^ 20 % 256 == n)

/-- SETLAYER (R337). -/
def execSetlayer (fn : Nat) (s : State) : Host.Outcome State Fault Refusal :=
  .next (match s.request? fn (· == 1) with
    | none => s
    | some b =>
        let n := numAt b 2 1
        let d := BitVec.ofNat 128 (numAt b 8 16)
        if !allZero (part b 0x18 40) then answer s fn 3 []
        else if !(s.fn fn).en then answer s fn 4 []
        else if s.layerUsed fn n then answer s fn 1 []
        else if field d 48 8 ≠ 0 ∧ layerOf d = none then answer s fn 2 []
        else answer (s.updStore fn (fun t => { t with layers := Tbl.set t.layers n d })) fn 0 [])

/-- GETLAYER (R337). -/
def execGetlayer (fn : Nat) (s : State) : Host.Outcome State Fault Refusal :=
  .next (match s.request? fn (· == 2) with
    | none => s
    | some b =>
        if !allZero (part b 0x18 40) then answer s fn 3 []
        else if !(s.fn fn).en then answer s fn 4 []
        else answer s fn 0 [(8, toBytes 16 (Tbl.getD (s.store fn).layers (numAt b 2 1) 0).toNat)])

/-- The bitmap of a partition's quads (R337). -/
def State.quadMap (s : State) (p : Nat) : Nat :=
  (List.range 192).foldl (fun m q => if (s.quad q).valid && (s.quad q).part == p then m + 2 ^ q else m) 0

/-- GETWINDOW, and the answer BADOP to an OP that is none of the three (R337). -/
def execGetwindow (fn : Nat) (s : State) : Host.Outcome State Fault Refusal :=
  .next (match s.request? fn (fun o => o != 1 && o != 2) with
    | none => s
    | some b =>
        let d := s.fn fn
        if numAt b 0 2 ≠ 3 ∨ numAt b 2 1 ≠ 0 ∨ !allZero (part b 0x18 40) then answer s fn 3 []
        else if !d.en then answer s fn 4 []
        else answer s fn 0
          [ (8, toBytes 8 (field d.window 0 24)), (0x10, toBytes 8 (field d.window 24 24))
          , (0x18, toBytes 24 (s.quadMap d.part)), (0x30, List.replicate 16 0) ])

/-! ## Function Level Reset (R341) -/

/-- What a core holds of a launch goes, its commands with it. -/
def dropFrom (l : Nat) (c : CoreSt) : CoreSt :=
  if c.launch = some l then { c.freed with chan := [], ring := [] } else c

/-- A launch is stopped by a reset: no record, its purse back to the allowance (R341). -/
def stopLaunch (s : State) (l : Launch) : State :=
  let s := freeCode s l
  let s := { s with
    cores := (s.cores.filter (fun (c : Nat × CoreSt) => !(isParked c.1 && c.2.launch == some l.id))).map
      (fun (c : Nat × CoreSt) => (c.1, dropFrom l.id c.2))
    barriers := s.barriers.filter (fun b => b.launch != l.id)
    pendings := s.pendings.filter (fun p => p.launch != l.id) }
  (refundTo s l.fn l.purse).updLaunch l.id (fun x => { x with
    state := .retired, silent := true, purse := 0, code := (0, 0, 0), img := {}, safe := [] })

/-- A queue after a reset of its function: LDEPTH stays (R341). -/
def Queue.flr (q : Queue) : Queue := { ldepth := q.ldepth }

/-- FUNCTION LEVEL RESET (R341). -/
def execFunctionLevelReset (fn : Nat) (s : State) : Host.Outcome State Fault Refusal :=
  .next (
    let s := (s.launches.filter (fun l => l.fn == fn && l.state != .retired)).foldl stopLaunch s
    let s : State := { s with colls := s.colls.filter (fun y => y.fn != fn)
                              asks := s.asks.filter (fun a => s.tenantFn a.ask != some fn) }
    let s := (s.regions.filter (fun r => r.fn == fn)).foldl (fun s r => match s.region? r.id with
      | some r => endRegion s r
      | none => s) s
    let s := ((s.store fn).blocks.map (·.1)).foldl (fun s g => endBlock s fn g) s
    s.updFn fn (fun d => { d with
      queues := d.queues.map (fun q => (q.1, q.2.flr)), s1root := 0, s1inv := 0, s1invBusy := false, causeR := 0
      coal := 0, coalP := 0, coalF := 0, mreq := 0, mreqBusy := false, msix := [], pba := 0, reqs := []
      answers := [], rctxInuse := 0 }))

/-! ## Bring-up (R349, R350) -/

/-- FORMAT of an image (R350). -/
def Image.format (i : Image) : Nat := numAt i.bytes 0 4
/-- SVN. -/
def Image.svn (i : Image) : Nat := numAt i.bytes 4 4
/-- LENGTH of the body. -/
def Image.length (i : Image) : Nat := numAt i.bytes 8 8
/-- PUBKEY. -/
def Image.pubkey (i : Image) : List Byte := part i.bytes 0x10 1312
/-- SIG. -/
def Image.sig (i : Image) : List Byte := part i.bytes 0x530 2420
/-- Whether the reserved bytes are zero. -/
def Image.zeros (i : Image) : Bool := allZero (part i.bytes 0xEA4 348)
/-- The body, which begins at 0x1000. -/
def Image.body (i : Image) : List Byte := part i.bytes 0x1000 i.length
/-- D: over header bytes 0x000 to 0x52F and the body (R350). -/
def Image.digest (i : Image) : BitVec 256 := Config.sha3_256 (i.bytes.take 0x530 ++ i.body)

/-- The key-hash slot an image's key matches, with its revocation bit clear (R350). -/
def Fuses.keySlot (u : Fuses) (i : Image) : Option Nat :=
  let h := Config.sha3_256 i.pubkey
  if h = u.keyA ∧ !u.revoked.getLsbD 0 then some 0 else if h = u.keyB ∧ !u.revoked.getLsbD 1 then some 1 else none

/-- Whether LENGTH is in range, 1 MiB to 16 MiB, and the slot reads without error to the body's end (R350, log 97). -/
def Image.reads (i : Image) : Bool :=
  decide (1048576 ≤ i.length) && decide (i.length ≤ 16777216) && i.readable && decide (0x1000 + i.length ≤ i.bytes.length)

/-- The result code of a boot slot: the first check that fails, 0 where it is accepted (R350). An SVN above 255 is a
fault of the header's form (log 97, DESIGN CHOICE). -/
def Fuses.slotCode (u : Fuses) (o : Option Image) : Nat :=
  match o with
  | none => 1
  | some i =>
      if i.format ≠ 1 ∨ !i.zeros ∨ 255 < i.svn then 1
      else if !i.reads then 5
      else if i.svn < u.fsvn then 2
      else if u.keySlot i = none then 3
      else if !Config.mlDsa44Verify i.pubkey i.sig i.digest then 4 else 0

/-- Cores excluded at stages 3 and 5 (R349). -/
def Fuses.excluded (u : Fuses) : List Nat :=
  (List.range 768).filter (fun k => u.untrained.contains k || u.failed.contains k)

/-- The measurements, fixed at stage 8 (R351). -/
def measure (u : Fuses) (i : Image) : List (BitVec 256) :=
  let key := (u.keySlot i).getD 0
  let words := (List.range 192).flatMap (fun q => toBytes 8 ((quadCores q).zipIdx.foldl (fun m p =>
    m + (Tbl.getD u.layers p.1 0).toNat * 2 ^ (16 * p.2)) 0))
  let map := toBytes 96 (u.excluded.foldl (fun m k => m + 2 ^ k) 0)
  [ Config.sha3_256 u.rom, i.digest
  , BitVec.ofNat 256 (key + u.revoked.toNat * 256 + u.fsvn * 2 ^ 16 + i.svn * 2 ^ 24), Config.sha3_256 (words ++ map) ]

/-- A core in bring-up: its fused layers and its DRAM repair map, and HOT for good where it takes no placement (R321,
R349). -/
def bootCore (u : Fuses) (out : List Nat) (k : Nat) : Option (Nat × CoreSt) :=
  let f := Tbl.getD u.layers k 0
  let m := Tbl.getD u.repairs k []
  let x := out.contains k
  if f = 0 ∧ m.isEmpty ∧ !x then none else some (k, { fused := f, repair := m, excluded := x, hot := x || f == 15 })

/-- The cores in bring-up, some of them excluded, beside the management cores (R349). -/
def bootCores (s : State) (out : List Nat) : State :=
  let out := out.filter (· < 768) |>.eraseDups
  { s with cores := (List.range 768).filterMap (bootCore s.fuses out) ++ s.cores.filter (fun c => Config.cores ≤ c.1)
           boot := { s.boot with excl := out.length } }

/-- The launch number of a Hitik context, which no launch has. -/
def hitikLaunch : Nat := 2 ^ 64

/-- A management core with its Hitik context, which starts with the image's body (R290, R349, log 99). -/
def hitikCore : CoreSt :=
  { ctx := [(0, { state := .running, launch := hitikLaunch, pc := BitVec.ofNat 64 Config.hitikBase })], last := 0 }

/-- A package reset: bring-up begins at stage 1. The fuses and boot slots, the host's memory, the package's number, what
the sensors read, and the model's own fields are left alone (R349). -/
def State.cold (s : State) : State :=
  { State.reset with
    hostMem := s.hostMem, fuses := s.fuses, pkg := s.pkg, power := s.power, free := s.free, oracle := s.oracle
    lag := s.lag, walks := s.walks, upsets := s.upsets }

/-- The image of the slot that was accepted. -/
def State.booted (s : State) : Option Image := if s.boot.slot = 0 then s.fuses.slotA else s.fuses.slotB

/-- Bring-up goes on at a stage. -/
def State.atStage (s : State) (n : Nat) : State := { s with boot := { s.boot with stage := n } }
/-- Bring-up ends where it stands. -/
def State.haltBoot (s : State) : State := { s with boot := { s.boot with halted := true } }

/-- An image that was accepted is loaded into Hitik's storage, and Hitik's contexts start with it: from stage 5 on it is the
running image (R290, R349, R354). -/
def State.loadHitik (s : State) (slot : Nat) (i : Image) : State :=
  { s with
    mem := Memory.writeBytes s.mem Config.hitikBase i.body
    cores := s.cores ++ (List.range Config.hitikCores).map (fun n => (Config.cores + n, hitikCore))
    boot := { s.boot with stage := 5, slot := slot, svn := i.svn, rom := false } }

/-- Stage 4: the image of slot A is loaded and verified, and on failure that of slot B (R349, R350). -/
def verifySlots (s : State) : State :=
  let a := s.fuses.slotCode s.fuses.slotA
  let b := s.fuses.slotCode s.fuses.slotB
  match s.fuses.slotA, s.fuses.slotB with
  | some i, other =>
      if a = 0 then { s with boot := { s.boot with failA := 0 } }.loadHitik 0 i
      else
        let s := { s with boot := { s.boot with failA := a, failB := b } }
        match other with
        | some i => if b = 0 then s.loadHitik 1 i else s.haltBoot
        | none => s.haltBoot
  | none, some i =>
      let s := { s with boot := { s.boot with failA := a, failB := b } }
      if b = 0 then s.loadHitik 1 i else s.haltBoot
  | none, none => { s with boot := { s.boot with failA := a, failB := b } }.haltBoot

/-- Every tier is scrubbed to zero, and every register state of the compute cores is as bring-up left it; Hitik's own image
stays (R66, R349, log 99). -/
def scrubAll (s : State) : State :=
  let n := ((s.booted).map Image.length).getD 0
  { s with mem := s.mem.filter (fun (c : Nat × Byte) => within c.1 Config.hitikBase n), poison := [], wrong := [], badWrites := [] }

/-- Ready: the measurements are fixed (R351). -/
def State.ready (s : State) : State :=
  match s.booted with
  | none => s.atStage 8
  | some i => { s with boot := { s.boot with stage := 8, meas := measure s.fuses i } }

/-- A stage that repeats until it succeeds: whether it does is a choice (R349, log 99). -/
def State.repeats (s : State) (go : State → State) : State :=
  let (s, n) := s.choose 0
  if n = 1 then s else go s

/-- One stage of bring-up is over (R349); each takes one core cycle here, where none repeats: clocks that do not lock, and a
host link that trains again (log 99). -/
def bringUp (s : State) : State :=
  if s.boot.halted then s
  else match s.boot.stage with
    | 1 => s.repeats (fun s => { s with boot := { s.boot with stage := 2, rom := true } })
    | 2 => if s.fuses.readable then (bootCores { s with boot := { s.boot with fsvn := s.fuses.fsvn } } []).atStage 3
        else s.haltBoot
    | 3 => (bootCores s s.fuses.untrained).atStage 4
    | 4 => verifySlots s
    | 5 => (bootCores s s.fuses.excluded).atStage 6
    | 6 => (scrubAll s).atStage 7
    | 7 => s.repeats State.ready
    | _ => s

/-- PACKAGE RESET (R349): bring-up begins again at stage 1. -/
def execPackageReset (s : State) : Host.Outcome State Fault Refusal := .next s.cold

/-- CONFIGURATION REQUEST (R349): answered with Retry Status until stage 8. -/
def execConfigurationRequest (fn : Nat) (s : State) : Host.Outcome State Fault Refusal :=
  .next { s with cfgSent := s.cfgSent ++ [(fn, s.boot.stage == 8)] }

/-! ## Attestation (R349, R351) -/

/-- ERROR with code Busy (R349), in the layout of SPDM 1.3. -/
def spdmBusy : List Byte := [0x13, 0x7F, 0x03, 0x00]

/-- A reply of Hitik: ERROR Busy before stage 8 (R349). -/
def State.spdmReply (s : State) (r : List Byte) : State :=
  { s with spdm := s.spdm ++ [if s.boot.stage = 8 then r else spdmBusy] }

/-- The bytes of a 256-bit number. -/
def bytes256 (x : BitVec 256) : List Byte := toBytes 32 x.toNat

/-- The one version of SPDM, 1.3, as a version number entry (R351, log 9). -/
def spdmVersion : List Byte := [0x00, 0x13]
/-- The one hash algorithm, SHA3-256, and the one signature algorithm, ML-DSA-44, as SPDM names them (R351, log 9). -/
def spdmAlgorithms : List Byte := toBytes 4 0x8 ++ toBytes 4 0x1

/-- GET_VERSION (R351): 1.3. -/
def execGetVersion (s : State) : Host.Outcome State Fault Refusal :=
  .next (s.spdmReply (Config.spdmBody 0x84 spdmVersion))
/-- GET_CAPABILITIES (R351). -/
def execGetCapabilities (s : State) : Host.Outcome State Fault Refusal := .next (s.spdmReply (Config.spdmBody 0xE1 []))
/-- NEGOTIATE_ALGORITHMS (R351): SHA3-256 and ML-DSA-44, out of what was offered. -/
def execNegotiateAlgorithms (offered : List Byte) (s : State) : Host.Outcome State Fault Refusal :=
  .next (s.spdmReply (Config.spdmBody 0xE3 (spdmAlgorithms ++ offered)))
/-- GET_DIGESTS (R351): of the chain in slot 0. -/
def execGetDigests (s : State) : Host.Outcome State Fault Refusal :=
  .next (s.spdmReply (Config.spdmBody 0x81 (bytes256 (Config.sha3_256 s.fuses.chain))))
/-- GET_CERTIFICATE (R351): a part of the chain in slot 0; no other slot holds one. -/
def execGetCertificate (slot offset length : Nat) (s : State) : Host.Outcome State Fault Refusal :=
  .next (s.spdmReply (Config.spdmBody 0x82 (if slot = 0 then part s.fuses.chain offset length else [])))
/-- CHALLENGE (R351): signed with the device identity key, over the nonce and the measurements. -/
def execChallenge (nonce : List Byte) (s : State) : Host.Outcome State Fault Refusal :=
  .next (
    let body := nonce ++ s.boot.meas.flatMap bytes256
    s.spdmReply (Config.spdmBody 0x83 (body ++ Config.mlDsa44Sign body)))
/-- GET_MEASUREMENTS (R351): one measurement, or all of them. -/
def execGetMeasurements (index : Nat) (s : State) : Host.Outcome State Fault Refusal :=
  .next (s.spdmReply (Config.spdmBody 0xE0
    (if 1 ≤ index ∧ index ≤ 4 then ((s.boot.meas[index - 1]?).map bytes256).getD []
     else s.boot.meas.flatMap bytes256)))
/-- VENDOR_DEFINED_REQUEST (R350): FSVN rises to the running image's SVN, and never falls. -/
def execVendorDefinedRequest (s : State) : Host.Outcome State Fault Refusal :=
  .next (
    let n := max s.boot.fsvn s.boot.svn
    let t := s.spdmReply (Config.spdmBody 0xFE [])
    if s.boot.stage = 8 then { t with boot := { t.boot with fsvn := n }, fuses := { t.fuses with fsvn := n } } else t)

end Sys2Proof.Machine
end

