-- ==== Sys2Proof/Machine/Pod.lean ====
section
/-!
DEFINITION. The reception of Jorier flits (R344): correction and check, acknowledgement and replay; and what the accesses of
other packages do here (R235, R236, R241, R346). How a payload says what it asks the spec does not give (log 19).
-/
namespace Sys2Proof.Machine

/-! ## Accesses of other packages (R346) -/

/-- A flit's payload from the bytes it carries: 232 of them. -/
def payloadOf (bs : List Byte) : List Byte := (bs ++ noPayload).take 232

/-- The answer to an access goes back on its lane (R344, R345). -/
def podReply (s : State) (a : PodWait) (st : Status) (bs : List Byte) : State :=
  sendOn s a.port 1 a.vl a.src (payloadOf (Config.podAnswer st bs))

/-- The bytes of function memory that an access names, and whether it reads and whether it writes them. -/
def podRange : Config.PodOp → Option (Nat × Nat × Bool × Bool)
  | .read a n => some (a, n, true, false)
  | .write a bs => some (a, bs.length, false, true)
  | .xacc _ es a _ | .xfetch _ es a _ | .xcas es a _ _ => some (a, es, true, true)
  | _ => none

/-- What an access reaches: function memory through the function's tables (R346), or bytes of a block (R234). -/
def podReach (s : State) (f : Nat) (o : Config.PodOp) : Reach :=
  match o, podRange o with
  | .bytes g off n, _ =>
      match s.block? f g with
      | none => .stop stKvname none
      | some b => .ok ((unitsOf (b.paddr + off) (min n (blockBytes - off))).map (fun u =>
          (u.1, { dpa := u.1, tier := 2, home := ((dpaHome u.1).map (·.2)).getD 0, kind := 0 }, u.2)))
  | _, none => .ok []
  | _, some (a, n, rd, wr) =>
      if rd && wr && a % n != 0 then .stop stAlign none
      else
        let x (w : Bool) : Reach := reachUnits s (fun b => tableByte s f b w) w (unitsOf a n)
        (firstHeldUp ((if rd then [x false] else []) ++ (if wr then [x true] else []))).getD (x wr)

/-- The bytes of reached segments, every unit checked (R330). -/
def podRead (s : State) (segs : List (Nat × Hit × Nat)) : State × List Byte :=
  (checkSegs s segs, segs.flatMap (fun g => Memory.bytes s.mem g.2.1.dpa g.2.2))

/-- Bytes of another package reach segments of function `f`'s memory (R311, R346). -/
def podWrite (s : State) (f : Nat) (segs : List (Nat × Hit × Nat)) (bs : List Byte) : State :=
  let a := ((segs.head?).map (·.1)).getD 0
  segs.foldl (fun s g => markDirty (writePad s Config.cores g.2.1.dpa false ((bs.drop (g.1 - a)).take g.2.2)) f g.2.1) s

/-- A read-modify-write here, in one step (R212, R213, R346): the old value goes back, with the flags that were raised. -/
def podRmw (s : State) (f es : Nat) (segs : List (Nat × Hit × Nat)) (new : Nat → Nat × Flags) : State × Status × List Byte :=
  match poisonSegs s segs with
  | some _ => (checkSegs s segs, stPoison, [])
  | none =>
      let (s, bs) := podRead s segs
      let r := new (ofBytes bs)
      (podWrite s f segs (toBytes es r.1), 0, bs ++ toBytes 1 r.2)

/-- One reference more to a block here (R217, R235, R241). -/
def raiseRef (s : State) (f g : Nat) : State × Status :=
  match s.block? f g with
  | none => (s, stKvname)
  | some b => if 65535 ≤ b.ref then (s, stKvlen) else (s.updBlock f g (fun b => { b with ref := b.ref + 1 }), 0)

/-- KVSHARE of a name of this package for another one (R235): the owner's package and the block's number go back, once the
count is raised at the owner, in a flit where that is a third package (log 19). -/
def serveShare (s : State) (f key vl : Nat) : State × Status × List Byte :=
  match s.kvLive f key with
  | none => (s, stKvname, [])
  | some e =>
      let here := toBytes 2 e.pkg ++ toBytes 4 e.gbn
      if !s.kvReach e then (s, stNomap, [])
      else if e.pkg = s.pkg then
        let (s, st) := raiseRef s f e.gbn
        (s, st, if st = 0 then here else [])
      else
        let (s, st) := remoteStatus (sendFlit s 1 vl e.pkg).1 [stKvname, stKvlen]
        (s, st, if st = 0 then here else [])

/-- A lease of a block here goes on by some ticks (R217, R236). -/
def serveRenew (s : State) (f g ticks : Nat) : State × Status × List Byte :=
  match s.block? f g with
  | none => (s, stKvname, [])
  | some b =>
      if lastTick < b.paid + ticks then (s, stKvlen, [])
      else (s.updBlock f g (fun b => { b with paid := b.paid + ticks }), 0, [])

/-- Add a member of another package to the collective of pod scope that waits for its rank, or begin one (R216, R348). -/
def joinFar (f g n : Nat) (m : FarMember) : List Coll → List Coll
  | [] => [{ fn := f, group := g, nmemb := n, scope := (5, scopeInst 5 0), members := [], far := [m] }]
  | c :: r =>
      if c.fn = f ∧ c.group = g ∧ c.scope = (5, scopeInst 5 0) ∧ !c.decided ∧ !c.hasRank m.rank then
        { c with nmemb := if c.members.isEmpty && c.far.isEmpty then n else c.nmemb, far := c.far ++ [m] } :: r
      else c :: joinFar f g n m r

/-- An access that has reached all it names takes effect for function `f`: the state, the status and what goes back. -/
def podEffect (s : State) (f vl : Nat) (o : Config.PodOp) (segs : List (Nat × Hit × Nat)) : State × Status × List Byte :=
  match o with
  | .nothing => (s, 0, [])
  | .read .. =>
      match poisonSegs s segs with
      | some _ => (checkSegs s segs, stPoison, [])
      | none =>
          let r := podRead s segs
          (r.1, 0, r.2)
  | .bytes g _ _ =>
      match poisonSegs s segs with
      | some _ => (foundPoison (checkSegs s segs) f g, stPoison, [])
      | none =>
          let r := podRead s segs
          (r.1, 0, r.2)
  | .write _ bs => (podWrite s f segs bs, 0, [])
  | .xacc op es _ v => podRmw s f es segs (fun d => xaccNew op es d v)
  | .xfetch op es _ v => podRmw s f es segs (fun d => (xfetchNew op es d v, 0))
  | .xcas es _ old new => podRmw s f es segs (fun d => (if d = old then new else d, 0))
  | .share key => serveShare s f key vl
  | .raise g =>
      let r := raiseRef s f g
      (r.1, r.2, [])
  | .lower g => (lowerRef s f g, 0, [])
  | .renew g t => serveRenew s f g t
  | .member g r n kind op src =>
      ({ s with colls := joinFar f g n { rank := r, key := (kind, op, src.length), src := src } s.colls }, 0, [])

/-- An access of another package goes as far as it can (R346): it is answered, or it waits for a page, as R300 to R306
give it for the function here, or for tokens (R342). -/
def serveAsk (s : State) (a : PodWait) : State × Option PodWait :=
  match s.tenantFn a.ask with
  | none => (podReply s a stNomap [], none)
  | some f =>
      if a.bad then (podReply s a stNomap [], none)
      else if !(a.req.all (fun r => s.answered f r.1) && a.due.all s.tokensThere) then (s, some a)
      else match podReach s f a.ask.op with
        | .stop st rep => (podReply (s.report rep) a st [], none)
        | .miss g p w =>
            let (s, n) := requestPage s g p w
            (s, some { a with req := some (n, w) })
        | .ok segs =>
            let (s, due) := if a.paid then (s, []) else takeAll (segs.foldl (fun s g => fillFn s f g.2.1 g.1) s) f segs
            if due.all s.tokensThere then
              let (s, st, bs) := podEffect s f a.vl a.ask.op segs
              (podReply s a st bs, none)
            else (s, some { a with req := none, paid := true, due := due })
        | _ => (s, some a)

/-- Every access of another package that waits is looked at, oldest first; those of one package and lane keep their order
behind one that waits for tokens (R345). -/
def serveAsks (s : State) : State :=
  let r := s.asks.foldl (fun (acc : State × List PodWait) a =>
    if acc.2.any (fun b => b.src == a.src && b.vl == a.vl && b.paid) then (acc.1, acc.2 ++ [a])
    else
      let r := serveAsk acc.1 a
      (r.1, acc.2 ++ r.2.toList)) (s, [])
  { r.1 with asks := r.2 }

/-- What a flit that came in its turn asks is taken up, if it asks anything (R346). -/
def takeAsk (s : State) (port : Nat) (h : FlitHead) (payload : List Byte) : State :=
  let a := Config.podAsk payload
  if a.op = .nothing then s else serveAsks { s with asks := s.asks ++ [{ port := port, src := h.src, vl := h.vl, ask := a }] }

/-! ## Flits (R344) -/

/-- RECEIVE FLIT (R344): FEC, then CRC; a flit that fails is answered with a nak of the SEQ that is due, one that
is due is acknowledged and what it asks is done (R346), an ack of a flit that may be replayed frees it and those before it,
and a nak makes this end replay. -/
def execReceiveFlit (port : Nat) (bytes : List Byte) (s : State) : Host.Outcome State Fault Refusal :=
  .next (
    let d := Config.flitCorrect bytes
    let h := flitHead d
    let p := s.port port
    let reply (t n : Nat) : List Byte := mkFlit { dst := h.src, src := s.pkg, vl := h.vl, type := t, seq := n } noPayload
    if !crcOk d then s.updPort port (fun p => { p with out := p.out ++ [reply 3 p.expect] })
    else match h.type with
      | 1 | 4 =>
          if h.seq = p.expect then
            takeAsk (s.updPort port (fun p => { p with expect := (p.expect + 1) % 4096, out := p.out ++ [reply 2 h.seq] }))
              port h (part d 8 232)
          else s
      | 2 =>
          if p.sent.any (fun x => x.1 == h.seq) then
            s.updPort port (fun p => { p with sent := (p.sent.dropWhile (fun x => x.1 != h.seq)).drop 1 })
          else s
      | 3 => s.push [.nak port h.seq]
      | _ => s)

/-- NAK (R344): the sender replays from that SEQ. -/
def execNak (port seq : Nat) (s : State) : Host.Outcome State Fault Refusal :=
  .next (s.updPort port (fun p => { p with out := p.out ++ (p.sent.dropWhile (fun x => x.1 != seq)).map (·.2) }))

end Sys2Proof.Machine
end

