-- ==== Sys2Proof/Machine/Land.lean ====
section
/-!
DEFINITION. Results in flight and their landings (R12, R104, R105, R111, R112), the operations each slot of a bundle
issues (R107, R109), and what they ask of the governor and the slices (R319, R324).
-/
namespace Sys2Proof.Machine

/-! ## What lands (R105) -/

/-- RBASE after a LOOP: VRB and PRB go down by one and BBOFF goes up (R110). -/
def rotated (w : Word) : Word :=
  let w1 := setField w 0 5 (field w 0 5 + 31)
  let w2 := setField w1 8 2 (field w 8 2 + 3)
  setField w2 16 16 (field w 16 16 + 1)

/-- One part of a result of the context in slot `j` of core `k` takes effect. -/
def applyLand (k j : Nat) (s : State) (l : Land) : State :=
  let bank (f : Bank → Bank) : State := s.updCtx k j (fun x => { x with bank := f x.bank })
  match l with
  | .s r v m => bank (fun b => b.setS r ((b.getS r &&& ~~~m) ||| (v &&& m)))
  | .v r v m => bank (fun b => { b with v := Tbl.set b.v r (mergeV (b.physV r) v m) })
  | .p r v m => bank (fun b => b.setP r ((b.physP r &&& ~~~m) ||| (v &&& m)))
  | .latch n v => s.updCore k (fun c => { c with latches := pushLatch c.latches n v })
  | .mts n v => sysWrite s k j n v
  | .rotate => bank (fun b => { b with rbase := rotated b.rbase })
  | .flags f => s.raiseFlags k j f
  | .barBase sc base depth => bank (fun b => { b with bar := Tbl.set b.bar sc (base, depth) })
  | .barBind sc inst l n cell count => bindCell s k j sc inst l n cell count
  | .barUnbind sc inst l n => unbindCell s sc inst l n
  | .sublet r base len u g l => grantSublet s r base len u g l
  | .acquire => s.acquired k

/-- Whether a land is the value of an MTS, which goes before any update by the hardware (R105). -/
def Land.isMts : Land → Bool
  | .mts .. => true
  | _ => false

/-- The values of MTS of a flight that land on its own core, as a flight of its own. -/
def Flight.mts (f : Flight) : Flight :=
  { f with lands := f.lands.filter (fun l => l.isLocal && l.isMts), load := false, poison := none }

/-- A flight without them. -/
def Flight.noMts (f : Flight) : Flight := { f with lands := f.lands.filter (fun l => !(l.isLocal && l.isMts)) }

/-- What a trap of this cycle would take back, with some flights more (R123). -/
def noteUndo (c : CoreSt) (x : Ctx) (now : List Flight) : Undo :=
  let new : Undo := { cycle := c.ic, bank := x.bank, trap := x.trap, landed := now, tfault := x.tfault }
  match x.undo with
  | some u => if u.cycle = c.ic then { u with landed := u.landed ++ now } else new
  | none => new

/-- The part of a flight that lands on its own core. -/
def Flight.own (f : Flight) : Flight := { f with lands := f.lands.filter Land.isLocal }
/-- The part of a flight that no landing before the issue brings about: a barrier binding, a sublet, a management
register, an acquire. -/
def Flight.shared (f : Flight) : Flight :=
  { f with lands := f.lands.filter (fun l => !l.isLocal), load := false, poison := none }
/-- Whether a flight has only that part left. -/
def Flight.isShared (f : Flight) : Bool := !f.lands.isEmpty && f.lands.all (fun l => !l.isLocal)
/-- Whether a flight was issued before another of the same core; a doubles partner counts as later (R105). -/
def Flight.before (f g : Flight) : Bool :=
  decide (f.at_ < g.at_) || (f.at_ == g.at_ && !f.partner && g.partner)

/-- The flights of a context that are due to land on its core. -/
def State.dueFlights (s : State) (k j : Nat) : List Flight :=
  (s.ctx k j).flight.filter (fun f => decide (f.due ≤ (s.core k).ic) && !f.isShared)

/-- Of two poisoned loads that land, the one of the first slot (R122). -/
def firstPoison (a b : Option (Nat × Nat)) : Option (Nat × Nat) :=
  match a, b with
  | none, y => y
  | x, none => x
  | some x, some y => if y.2 < x.2 then some y else some x

/-- The poisoned unit of the first slot among some flights. -/
def poisonOf (l : List Flight) : Option (Nat × Nat) :=
  l.foldl (fun a f => firstPoison a (f.poison.map (fun u => (u, f.slot)))) none

/-- A flight of a slot, put before those of other slots that were issued later. -/
def insertFlight (p : Nat × Flight) : List (Nat × Flight) → List (Nat × Flight)
  | [] => [p]
  | q :: l => if p.1 != q.1 && p.2.before q.2 then p :: q :: l else q :: insertFlight p l

/-- The runs of a list of flights of one slot and one kind, in order. -/
def runKinds : List (Nat × Flight) → List (Nat × Bool)
  | [] => []
  | p :: l =>
      match runKinds l with
      | b :: r => if b = (p.1, p.2.load) then b :: r else (p.1, p.2.load) :: b :: r
      | [] => [(p.1, p.2.load)]

/-- The due flights of some slots of a core, in the order of their issue (R105). -/
def State.dueOrder (s : State) (k : Nat) (js : List Nat) : List (Nat × Flight) :=
  (js.flatMap (fun j => (s.dueFlights k j).map (fun f => (j, f)))).foldl (fun acc p => insertFlight p acc) []

/-- Flights of the context in slot `j` of core `k` land there, and a trap or a freeze of this cycle can take them back. -/
def State.landFlights (s : State) (k j : Nat) (now : List Flight) : State :=
  let ls := now.flatMap (fun f => f.lands)
  let s := s.updCtx k j (fun x => { x with undo := some (noteUndo (s.core k) x now) })
  ls.foldl (applyLand k j) (s.updCore k (fun c => c.noteLands j ls))

/-- Every due MTS of a core lands, in the order of issue, before anything else does (R105). -/
def landMts (s : State) (k : Nat) : State :=
  let l := (s.dueOrder k [0, 1, 2, 3]).filter (fun p => p.2.lands.any (fun x => x.isLocal && x.isMts))
  l.foldl (fun s p =>
    let s := s.updCtx k p.1 (fun x => { x with
      flight := x.flight.map (fun f => if f.due ≤ (s.core k).ic then f.noMts else f) })
    s.landFlights k p.1 [p.2.mts]) s

/-- What of a context's due flights lands in one event: those of one kind, timed loads or other results, up to the
first of the other kind and to what another context of the core issued earlier (R105). -/
def State.landable (s : State) (k j : Nat) (load : Bool) : List Flight :=
  let others := ([0, 1, 2, 3].filter (· != j)).flatMap (s.dueFlights k)
  (s.dueFlights k j).takeWhile (fun f => f.load == load && !others.any (fun g => g.before f))

/-- The first of the due flights of a context that are of one kind land on its core, timed loads or other results, behind
the values of every MTS that is due there (R105). A poisoned load raises POISON at the context's next bundle (R122). -/
def landRun (s : State) (k j : Nat) (load : Bool) : State :=
  let s := landMts s k
  let run := s.landable k j load
  if run.isEmpty then s
  else
    let c := s.core k
    let due := s.dueFlights k j
    let s := s.updCtx k j (fun x => { x with
      flight := (run.map Flight.shared).filter Flight.isShared ++ due.drop run.length
        ++ x.flight.filter (fun f => decide (c.ic < f.due) || f.isShared)
      poisonDue := firstPoison x.poisonDue (poisonOf run) })
    s.landFlights k j (run.map Flight.own)

/-- RESULT LANDING (R12, R104, R105): results that are due and are no timed loads, up to the first load of the context
and to what another context of its core issued earlier. -/
def execResultLanding (core slot : Nat) (s : State) : Host.Outcome State Fault Refusal :=
  .next (landRun s core slot false)

/-- TIMED LOAD LANDING (R112, R113): timed loads that are due, up to the first other result of the context and to what
another context of its core issued earlier. -/
def execTimedLoadLanding (core slot : Nat) (s : State) : Host.Outcome State Fault Refusal :=
  .next (landRun s core slot true)

/-- The landing events of a core that are due. -/
def State.landings (s : State) (k : Nat) : List Instr :=
  (runKinds (s.dueOrder k [0, 1, 2, 3])).map (fun b =>
    if b.2 then .timedLoadLanding k b.1 else .resultLanding k b.1)

/-- Everything of a context that is due on its core lands. -/
def State.landNow (s : State) (k j : Nat) : State :=
  (runKinds (s.dueOrder k [j])).foldl (fun s b => landRun s k j b.2) s

/-- The due flights of a context that reach beyond its core. -/
def State.dueShared (s : State) (k j : Nat) : List Flight :=
  (s.ctx k j).flight.filter (fun f => decide (f.due ≤ (s.core k).ic) && f.isShared)

/-- A context's due results that reach beyond its core land. `note`: a trap or a freeze of this cycle would take them
back. -/
def landShared (note : Bool) (s : State) (m : Nat × Nat) : State :=
  let c := s.core m.1
  let x := c.slot m.2
  let now := s.dueShared m.1 m.2
  let s := s.setCtx m.1 m.2 { x with
    flight := x.flight.filter (fun f => !(decide (f.due ≤ c.ic) && f.isShared))
    undo := if note then some (noteUndo c x now) else x.undo }
  (now.flatMap (fun f => f.lands)).foldl (applyLand m.1 m.2) s

/-- Whether what reaches beyond a context's core has gone back into flight, or into a bank, between two states. -/
def wentBack (s t : State) (m : Nat × Nat) : Bool :=
  let x := s.ctx m.1 m.2
  let y := t.ctx m.1 m.2
  let due (b : Option Saved) : Bool := b.any (fun b => b.flight.any (fun f => f.due == 0 && f.isShared))
  !(t.dueShared m.1 m.2).isEmpty || (y.snap != x.snap && due y.snap) || (y.hold != x.hold && due y.hold)

/-- The results of some contexts that are due and reach beyond their cores land, but for those that a freeze or a trap
of this cycle keeps back (R104, R123): `run` is what the cycle does once they have landed. -/
def shareBy (run : State → State) (ms : List (Nat × Nat)) (s : State) : State :=
  let ms := ms.filter (fun m => !(s.dueShared m.1 m.2).isEmpty)
  if ms.isEmpty then s
  else
    let t := run (ms.foldl (landShared true) s)
    (ms.filter (fun m => !wentBack s t m)).foldl (landShared false) s

/-! ## What a repetition issues (R11, R107, R109) -/

/-- One operation of a repetition: its slot, its step count, and the address of its syllable. -/
structure SlotOp where
  slot : Slot
  i    : Instr
  k    : Nat
  syl  : Word
  deriving DecidableEq, Repr

/-- The operation a slot re-issues: its sticky one, a step on (R107). -/
def Ctx.reissue (x : Ctx) (sl : Slot) : Option SlotOp :=
  (Tbl.find x.sticky sl.num).map (fun y => { slot := sl, i := y.i, k := y.k + 1, syl := y.addr })

/-- The operation one slot issues in a repetition. -/
def Ctx.slotOp (x : Ctx) (b : Bundle) (rep : Nat) (sl : Slot) : Option SlotOp :=
  if rep ≠ 0 then x.reissue sl
  else match b.ops.find? (fun o => o.1 == sl) with
    | some (_, i, a) => some { slot := sl, i := i, k := 0, syl := a }
    | none => if b.hdr.sp || b.hdr.has sl then none else x.reissue sl

/-- Every operation of a repetition, in slot order. -/
def Ctx.repOps (x : Ctx) (b : Bundle) (rep : Nat) : List SlotOp := Slot.all.filterMap (x.slotOp b rep)

/-- The sticky state after a repetition (R107). -/
def stickyAfter (old : Tbl Sticky) (l : List SlotOp) : Tbl Sticky :=
  l.foldl (fun t o =>
    if o.i == .nop || o.i.oneShot then Tbl.erase t o.slot.num
    else Tbl.set t o.slot.num { i := o.i, k := o.k, addr := o.syl }) old

/-- The operations that are active (R30). -/
def activeOps (l : List SlotOp) : List SlotOp := l.filter (fun o => o.i != .nop)

/-- The active slots as a mask. -/
def slotMask (l : List SlotOp) : Nat := slotBits ((activeOps l).map (fun o => o.slot.num))

/-! ## The governor's weights and vertical exclusion (R319, R324) -/

/-- The V heavy group (R319). -/
def isHeavy : Instr → Bool
  | .vmul .. | .vfma .. | .vquant .. | .vexp2 .. | .vlog2 .. | .vredsum .. | .vredmax .. | .vtopk .. | .vdot4 ..
  | .vmulh .. => true
  | _ => false

/-- A vector load or store. -/
def isVmem : Instr → Bool
  | .vld .. | .vldx .. | .vst .. | .vstx .. => true
  | _ => false

/-- The weight of an operation (R324). -/
def opWeight (o : SlotOp) : Nat :=
  match o.slot.cls with
  | .s | .m => 1
  | .t | .x => 2
  | .v => if isHeavy o.i then 6 else if isVmem o.i then 4 else 3

/-- The weight of a repetition. -/
def weightOf (l : List SlotOp) : Nat := (activeOps l).foldl (fun n o => n + opWeight o) 0

/-- The weights of the last 63 cycles (R324). -/
def windowSum (s : State) (c : CoreSt) : Nat :=
  (c.window.filter (fun w => s.cycle < w.1 + 64)).foldl (fun n w => n + w.2) 0

/-- Whether a weight fits the window of a core, with what has issued in this cycle (R324). -/
def fitsWindow (s : State) (k w : Nat) : Bool :=
  let lim := (s.quad (quadOf k)).limit
  lim == 0 || windowSum s (s.core k) + w ≤ lim

/-- Note the weight of an issue. -/
def addWeight (s : State) (k w : Nat) : State :=
  if (s.quad (quadOf k)).limit = 0 then s
  else s.updCore k (fun c => { c with window := (s.cycle, w) :: c.window.filter (fun x => s.cycle < x.1 + 64) })

/-- The layers on which a matrix operation of a core computes (R87, R319): those MSTAT shows. -/
def busySlices (c : CoreSt) : BitVec 4 :=
  [0, 1, 2, 3].foldl (fun (m : BitVec 4) j =>
    let x := c.slot j
    x.queue.foldl (fun m o => if o.started && o.page.isNone && (match o.i with
      | .mma .. | .mmag .. => true
      | _ => false) then m ||| (x.bankOf o.inst).mstat.extractLsb' 0 4 else m) m) 0

/-- EXCLCNT with more losses, each part saturating (R320). -/
def addLosses (w : Word) (slices copies : Nat) : Word :=
  setField (setField w 0 32 (min (2 ^ 32 - 1) (field w 0 32 + slices))) 32 16 (min 0xFFFF (field w 32 16 + copies))

/-- The slices that lose to the V slots of a repetition (R319). -/
def sliceLosses (m : BitVec 4) (l : List SlotOp) : Nat :=
  (l.filter (fun o => isHeavy o.i && (match o.slot with
    | .v0 => m.getLsbD 0
    | .v1 => m.getLsbD 2
    | .v2 => m.getLsbD 3
    | _ => false))).length

end Sys2Proof.Machine
end

