-- ==== Sys2Proof/Machine/Dispatch.lean ====
section
/-!
DEFINITION. The dispatch: one arm per constructor of Instr, each one call of that instruction's meaning.
-/
namespace Sys2Proof.Machine

/-- What an instruction or an event does in a state. -/
def exec (i : Instr) (s : State) : Host.Outcome State Fault Refusal :=
  match i with
  | .nop => Sys2Proof.Machine.execNop s
  | .add g d a b => Sys2Proof.Machine.execAdd g d a b s
  | .sub g d a b => Sys2Proof.Machine.execSub g d a b s
  | .mul g d a b => Sys2Proof.Machine.execMul g d a b s
  | .mulh g u d a b => Sys2Proof.Machine.execMulh g u d a b s
  | .div g u d a b => Sys2Proof.Machine.execDiv g u d a b s
  | .rem g u d a b => Sys2Proof.Machine.execRem g u d a b s
  | .and g d a b => Sys2Proof.Machine.execAnd g d a b s
  | .or g d a b => Sys2Proof.Machine.execOr g d a b s
  | .xor g d a b => Sys2Proof.Machine.execXor g d a b s
  | .shl g d a b => Sys2Proof.Machine.execShl g d a b s
  | .shr g arith d a b => Sys2Proof.Machine.execShr g arith d a b s
  | .rot g d a b => Sys2Proof.Machine.execRot g d a b s
  | .min g u d a b => Sys2Proof.Machine.execMin g u d a b s
  | .max g u d a b => Sys2Proof.Machine.execMax g u d a b s
  | .clz g d a => Sys2Proof.Machine.execClz g d a s
  | .popc g d a => Sys2Proof.Machine.execPopc g d a s
  | .sel g d c a b => Sys2Proof.Machine.execSel g d c a b s
  | .cmp g c p a b => Sys2Proof.Machine.execCmp g c p a b s
  | .li g d a => Sys2Proof.Machine.execLi g d a s
  | .lea g d a b sh => Sys2Proof.Machine.execLea g d a b sh s
  | .ld g sz acq d base arr off => Sys2Proof.Machine.execLd g sz acq d base arr off s
  | .st g sz rel d base off => Sys2Proof.Machine.execSt g sz rel d base off s
  | .mfs g d n => Sys2Proof.Machine.execMfs g d n s
  | .mts g n a => Sys2Proof.Machine.execMts g n a s
  | .br g d disp => Sys2Proof.Machine.execBr g d disp s
  | .bri g d a => Sys2Proof.Machine.execBri g d a s
  | .call g disp => Sys2Proof.Machine.execCall g disp s
  | .calli g a => Sys2Proof.Machine.execCalli g a s
  | .ret g a => Sys2Proof.Machine.execRet g a s
  | .handback g => Sys2Proof.Machine.execHandback g s
  | .tailend g => Sys2Proof.Machine.execTailend g s
  | .jointail g p => Sys2Proof.Machine.execJointail g p s
  | .loop g d disp => Sys2Proof.Machine.execLoop g d disp s
  | .trap g a => Sys2Proof.Machine.execTrap g a s
  | .eret g => Sys2Proof.Machine.execEret g s
  | .halt g => Sys2Proof.Machine.execHalt g s
  | .fuse g n => Sys2Proof.Machine.execFuse g n s
  | .decouple g => Sys2Proof.Machine.execDecouple g s
  | .rejoin g => Sys2Proof.Machine.execRejoin g s
  | .rent g tier kind ls rlt spread d p a b c => Sys2Proof.Machine.execRent g tier kind ls rlt spread d p a b c s
  | .renew g d p a b => Sys2Proof.Machine.execRenew g d p a b s
  | .prepay g d p a b c => Sys2Proof.Machine.execPrepay g d p a b c s
  | .sublet g l gr d p a b c => Sys2Proof.Machine.execSublet g l gr d p a b c s
  | .vacate g subs d a => Sys2Proof.Machine.execVacate g subs d a s
  | .handover g d p a b => Sys2Proof.Machine.execHandover g d p a b s
  | .lease g d a => Sys2Proof.Machine.execLease g d a s
  | .barinit g sc p a b c => Sys2Proof.Machine.execBarinit g sc p a b c s
  | .barbase g sc a b => Sys2Proof.Machine.execBarbase g sc a b s
  | .arrive g sc a => Sys2Proof.Machine.execArrive g sc a s
  | .wait g sc p a => Sys2Proof.Machine.execWait g sc p a s
  | .watch g p w b => Sys2Proof.Machine.execWatch g p w b s
  | .fence g sc kinds dir => Sys2Proof.Machine.execFence g sc kinds dir s
  | .vadd g t rc sat d a b => Sys2Proof.Machine.execVadd g t rc sat d a b s
  | .vsub g t rc sat d a b => Sys2Proof.Machine.execVsub g t rc sat d a b s
  | .vmul g t rc sat d a b => Sys2Proof.Machine.execVmul g t rc sat d a b s
  | .vfma g t rc np nc d a b c => Sys2Proof.Machine.execVfma g t rc np nc d a b c s
  | .vmin g t d a b => Sys2Proof.Machine.execVmin g t d a b s
  | .vmax g t d a b => Sys2Proof.Machine.execVmax g t d a b s
  | .vabs g t sat d a => Sys2Proof.Machine.execVabs g t sat d a s
  | .vand g t d a b => Sys2Proof.Machine.execVand g t d a b s
  | .vor g t d a b => Sys2Proof.Machine.execVor g t d a b s
  | .vxor g t d a b => Sys2Proof.Machine.execVxor g t d a b s
  | .vshl g t d a b => Sys2Proof.Machine.execVshl g t d a b s
  | .vshr g t d a b => Sys2Proof.Machine.execVshr g t d a b s
  | .vcmp g t c p a b => Sys2Proof.Machine.execVcmp g t c p a b s
  | .vsel g t d c a b => Sys2Proof.Machine.execVsel g t d c a b s
  | .vmov g t d a => Sys2Proof.Machine.execVmov g t d a s
  | .vcvt g t u rc ns d a => Sys2Proof.Machine.execVcvt g t u rc ns d a s
  | .vblkmax g t d a => Sys2Proof.Machine.execVblkmax g t d a s
  | .vscale g u d a b => Sys2Proof.Machine.execVscale g u d a b s
  | .vquant g t u rc ns d a b => Sys2Proof.Machine.execVquant g t u rc ns d a b s
  | .vrsqe g d a => Sys2Proof.Machine.execVrsqe g d a s
  | .vrcpe g d a => Sys2Proof.Machine.execVrcpe g d a s
  | .vexp2 g rc d a => Sys2Proof.Machine.execVexp2 g rc d a s
  | .vlog2 g rc d a => Sys2Proof.Machine.execVlog2 g rc d a s
  | .vredsum g t rc w d a => Sys2Proof.Machine.execVredsum g t rc w d a s
  | .vredmax g t d a => Sys2Proof.Machine.execVredmax g t d a s
  | .vperm g t d a b => Sys2Proof.Machine.execVperm g t d a b s
  | .vrot g t d a b => Sys2Proof.Machine.execVrot g t d a b s
  | .vidx g t d => Sys2Proof.Machine.execVidx g t d s
  | .vtopk g t k init d c a b => Sys2Proof.Machine.execVtopk g t k init d c a b s
  | .vdot4 g t rc d a b c => Sys2Proof.Machine.execVdot4 g t rc d a b c s
  | .vmulh g t d a b => Sys2Proof.Machine.execVmulh g t d a b s
  | .vclamp g t d a b c => Sys2Proof.Machine.execVclamp g t d a b c s
  | .vrnd g t rc d a => Sys2Proof.Machine.execVrnd g t rc d a s
  | .vclass g t d a => Sys2Proof.Machine.execVclass g t d a s
  | .vpack g t sat d a b => Sys2Proof.Machine.execVpack g t sat d a b s
  | .vunpack g t hi d a => Sys2Proof.Machine.execVunpack g t hi d a s
  | .pand g na nb d a b => Sys2Proof.Machine.execPand g na nb d a b s
  | .por g na nb d a b => Sys2Proof.Machine.execPor g na nb d a b s
  | .pxor g na nb d a b => Sys2Proof.Machine.execPxor g na nb d a b s
  | .pcnt g t d a => Sys2Proof.Machine.execPcnt g t d a s
  | .vld g acq d base arr off => Sys2Proof.Machine.execVld g acq d base arr off s
  | .vldx g t d base arr xv off => Sys2Proof.Machine.execVldx g t d base arr xv off s
  | .vst g rel d base off => Sys2Proof.Machine.execVst g rel d base off s
  | .vstx g t d base xv off => Sys2Proof.Machine.execVstx g t d base xv off s
  | .tld g d a b => Sys2Proof.Machine.execTld g d a b s
  | .tst g d a b => Sys2Proof.Machine.execTst g d a b s
  | .trd g t d b => Sys2Proof.Machine.execTrd g t d b s
  | .twr g d a b => Sys2Proof.Machine.execTwr g d a b s
  | .ttr g t d src => Sys2Proof.Machine.execTtr g t d src s
  | .tmask g t mode d a b c => Sys2Proof.Machine.execTmask g t mode d a b c s
  | .trmax g t src d => Sys2Proof.Machine.execTrmax g t src d s
  | .trsum g t rc src d => Sys2Proof.Machine.execTrsum g t rc src d s
  | .texp g t rc d src b => Sys2Proof.Machine.execTexp g t rc d src b s
  | .trscl g t rc d src b => Sys2Proof.Machine.execTrscl g t rc d src b s
  | .tcvt g t u rc ns d src => Sys2Proof.Machine.execTcvt g t u rc ns d src s
  | .twait g tm am => Sys2Proof.Machine.execTwait g tm am s
  | .tzero g d => Sys2Proof.Machine.execTzero g d s
  | .mma g f acc a b m8 n16 k16 pa pb z => Sys2Proof.Machine.execMma g f acc a b m8 n16 k16 pa pb z s
  | .mmag g f acc a b m8 n16 k16 pa pb z => Sys2Proof.Machine.execMmag g f acc a b m8 n16 k16 pa pb z s
  | .accdef g i32 n a b c => Sys2Proof.Machine.execAccdef g i32 n a b c s
  | .accz g n => Sys2Proof.Machine.execAccz g n s
  | .accld g t n a b => Sys2Proof.Machine.execAccld g t n a b s
  | .accmv g t dir rc ns n d a b => Sys2Proof.Machine.execAccmv g t dir rc ns n d a b s
  | .accst g t rc ns n a b => Sys2Proof.Machine.execAccst g t rc ns n a b s
  | .accscl g n a b => Sys2Proof.Machine.execAccscl g n a b s
  | .accbias g n a b => Sys2Proof.Machine.execAccbias g n a b s
  | .ringset g r a b c => Sys2Proof.Machine.execRingset g r a b c s
  | .ringq g r d => Sys2Proof.Machine.execRingq g r d s
  | .xcopy g esz ch pace d b c desc => Sys2Proof.Machine.execXcopy g esz ch pace d b c desc s
  | .xgather g esz ch pace d b vi n1 => Sys2Proof.Machine.execXgather g esz ch pace d b vi n1 s
  | .xscatter g esz ch pace a b vi n1 => Sys2Proof.Machine.execXscatter g esz ch pace a b vi n1 s
  | .xacc g op esz ch pace a b c => Sys2Proof.Machine.execXacc g op esz ch pace a b c s
  | .xfetch g op esz ch a b c => Sys2Proof.Machine.execXfetch g op esz ch a b c s
  | .xcas g esz ch a b c res => Sys2Proof.Machine.execXcas g esz ch a b c res s
  | .xfill g esz ch pace a b c => Sys2Proof.Machine.execXfill g esz ch pace a b c s
  | .xexpand g esz ch pace d b c => Sys2Proof.Machine.execXexpand g esz ch pace d b c s
  | .xsignal g op ch a b => Sys2Proof.Machine.execXsignal g op ch a b s
  | .xorder g esz ch b => Sys2Proof.Machine.execXorder g esz ch b s
  | .kvalloc g ch a b => Sys2Proof.Machine.execKvalloc g ch a b s
  | .kvfree g ch a => Sys2Proof.Machine.execKvfree g ch a s
  | .kvshare g ch a b => Sys2Proof.Machine.execKvshare g ch a b s
  | .kvappend g adv ch a b c => Sys2Proof.Machine.execKvappend g adv ch a b c s
  | .kvcommit g reject ch a b => Sys2Proof.Machine.execKvcommit g reject ch a b s
  | .kvget g ch pace d b c => Sys2Proof.Machine.execKvget g ch pace d b c s
  | .kvsum g ch a b c => Sys2Proof.Machine.execKvsum g ch a b c s
  | .xcoll g op kind esz ch a b c desc => Sys2Proof.Machine.execXcoll g op kind esz ch a b c desc s
  | .resultLanding core slot => Sys2Proof.Machine.execResultLanding core slot s
  | .timedLoadLanding core slot => Sys2Proof.Machine.execTimedLoadLanding core slot s
  | .queuedOpStart core slot op => Sys2Proof.Machine.execQueuedOpStart core slot op s
  | .queuedOpComplete core slot op => Sys2Proof.Machine.execQueuedOpComplete core slot op s
  | .commandStart core ch => Sys2Proof.Machine.execCommandStart core ch s
  | .commandElement core ch => Sys2Proof.Machine.execCommandElement core ch s
  | .commandCompletion core ch => Sys2Proof.Machine.execCommandCompletion core ch s
  | .collectiveForm fn group => Sys2Proof.Machine.execCollectiveForm fn group s
  | .prepayRenewal region => Sys2Proof.Machine.execPrepayRenewal region s
  | .leaseExpiry region sublet => Sys2Proof.Machine.execLeaseExpiry region sublet s
  | .rentLowEvent region => Sys2Proof.Machine.execRentLowEvent region s
  | .rentLowTrap core slot => Sys2Proof.Machine.execRentLowTrap core slot s
  | .scrubComplete granule => Sys2Proof.Machine.execScrubComplete granule s
  | .watchTimeout core slot => Sys2Proof.Machine.execWatchTimeout core slot s
  | .prgResponse fn group code => Sys2Proof.Machine.execPrgResponse fn group code s
  | .invalidationComplete fn s1 => Sys2Proof.Machine.execInvalidationComplete fn s1 s
  | .doorbell fn queue wptr => Sys2Proof.Machine.execDoorbell fn queue wptr s
  | .launchEntryRead fn queue => Sys2Proof.Machine.execLaunchEntryRead fn queue s
  | .placement => Sys2Proof.Machine.execPlacement s
  | .priorityPreemption fn queue => Sys2Proof.Machine.execPriorityPreemption fn queue s
  | .preemptedResume launch => Sys2Proof.Machine.execPreemptedResume launch s
  | .launchRetire launch => Sys2Proof.Machine.execLaunchRetire launch s
  | .coalDelayExpiry fn => Sys2Proof.Machine.execCoalDelayExpiry fn s
  | .turnEnd part => Sys2Proof.Machine.execTurnEnd part s
  | .safePointSwitch core slot => Sys2Proof.Machine.execSafePointSwitch core slot s
  | .fullSave core slot => Sys2Proof.Machine.execFullSave core slot s
  | .turnBegin part => Sys2Proof.Machine.execTurnBegin part s
  | .quadScrubComplete quad => Sys2Proof.Machine.execQuadScrubComplete quad s
  | .escalationResume core slot => Sys2Proof.Machine.execEscalationResume core slot s
  | .escalationStop core slot => Sys2Proof.Machine.execEscalationStop core slot s
  | .heatBoardUpdate => Sys2Proof.Machine.execHeatBoardUpdate s
  | .powerAlarmRaise => Sys2Proof.Machine.execPowerAlarmRaise s
  | .powerAlarmClear => Sys2Proof.Machine.execPowerAlarmClear s
  | .tokenRefill => Sys2Proof.Machine.execTokenRefill s
  | .patrol unit wrongSymbols => Sys2Proof.Machine.execPatrol unit wrongSymbols s
  | .qpartWrite v => Sys2Proof.Machine.execQpartWrite v s
  | .fctlWrite v => Sys2Proof.Machine.execFctlWrite v s
  | .lqWrite v => Sys2Proof.Machine.execLqWrite v s
  | .invWrite v => Sys2Proof.Machine.execInvWrite v s
  | .prictlWrite v => Sys2Proof.Machine.execPrictlWrite v s
  | .tbktWrite v => Sys2Proof.Machine.execTbktWrite v s
  | .lmapWrite v => Sys2Proof.Machine.execLmapWrite v s
  | .mwdataAccess write => Sys2Proof.Machine.execMwdataAccess write s
  | .s1invWrite fn v => Sys2Proof.Machine.execS1invWrite fn v s
  | .setlayer fn => Sys2Proof.Machine.execSetlayer fn s
  | .getlayer fn => Sys2Proof.Machine.execGetlayer fn s
  | .getwindow fn => Sys2Proof.Machine.execGetwindow fn s
  | .registerWindowWrite fn offset size v => Sys2Proof.Machine.execRegisterWindowWrite fn offset size v s
  | .functionLevelReset fn => Sys2Proof.Machine.execFunctionLevelReset fn s
  | .packageReset => Sys2Proof.Machine.execPackageReset s
  | .configurationRequest fn => Sys2Proof.Machine.execConfigurationRequest fn s
  | .getVersion => Sys2Proof.Machine.execGetVersion s
  | .getCapabilities => Sys2Proof.Machine.execGetCapabilities s
  | .negotiateAlgorithms offered => Sys2Proof.Machine.execNegotiateAlgorithms offered s
  | .getDigests => Sys2Proof.Machine.execGetDigests s
  | .getCertificate slot offset length => Sys2Proof.Machine.execGetCertificate slot offset length s
  | .challenge nonce => Sys2Proof.Machine.execChallenge nonce s
  | .getMeasurements index => Sys2Proof.Machine.execGetMeasurements index s
  | .vendorDefinedRequest => Sys2Proof.Machine.execVendorDefinedRequest s
  | .receiveFlit port bytes => Sys2Proof.Machine.execReceiveFlit port bytes s
  | .nak port seq => Sys2Proof.Machine.execNak port seq s
  | .finalRound fn => Sys2Proof.Machine.execFinalRound fn s

end Sys2Proof.Machine
end

