-- ==== Sys2Proof/Machine/Bundle.lean ====
section
/-!
DEFINITION. The issue of a bundle: what stands against it as a whole (R28, R116, R118, R121, R122), and its
operations taken together in one cycle, on one core or on the members of a gang (R34, R105, R107).
-/
namespace Sys2Proof.Machine

/-- What stands against one operation beside `baseChk`: the check its meaning makes. -/
def checkOf (i : Instr) : State → Chk :=
  match i with
  | .ld _ sz _ _ base _ off => ldChk sz base off
  | .st _ sz _ _ base off => stChk sz base off
  | .mfs _ _ n => mfsChk n
  | .mts _ n a => mtsChk n a
  | .call .. => callChk
  | .calli .. => callChk
  | .ret .. => retChk
  | .handback .. => handbackChk
  | .tailend .. => tailendChk
  | .jointail .. => jointailChk
  | .eret .. => eretChk
  | .halt .. => haltChk
  | .fuse _ n => fuseChk n
  | .decouple .. => decoupleChk
  | .rejoin .. => rejoinChk
  | .renew _ _ _ a .. => ownChk a
  | .prepay _ _ _ a .. => ownChk a
  | .sublet _ _ _ _ _ a .. => ownChk a
  | .vacate _ subs _ a => vacateChk subs a
  | .handover _ _ _ a b => handoverChk a b
  | .lease _ _ a => leaseChk a
  | .barinit _ sc _ a b c => barinitChk sc a b c
  | .barbase _ sc a b => barbaseChk sc a b
  | .arrive _ sc a => arriveChk sc a
  | .wait _ sc _ a => waitChk sc a
  | .watch _ _ w b => watchChk w b
  | .vld g _ _ base _ off => vldChk g base off
  | .vldx g t _ base _ xv off => vldxChk g t base xv off
  | .vst g _ _ base off => vstChk g base off
  | .vstx g t _ base xv off => vstxChk g t base xv off
  | .tld _ _ a b => tmemChk i a b
  | .tst _ _ a b => tmemChk i a b
  | .trd _ t .. => tagChk [tileTag t.toNat]
  | .twr .. => queueChk
  | .ttr .. => queueChk
  | .tmask .. => queueChk
  | .trmax _ _ src .. => tagChk [tileTag src.toNat]
  | .trsum _ _ _ src .. => tagChk [tileTag src.toNat]
  | .texp .. => queueChk
  | .trscl .. => queueChk
  | .tcvt .. => queueChk
  | .twait _ tm am => tagChk (maskTags tm am)
  | .tzero .. => queueChk
  | .mma _ f acc a b m8 n16 k16 .. => mmaChk false f acc a b m8 n16 k16
  | .mmag _ f acc a b m8 n16 k16 .. => mmaChk true f acc a b m8 n16 k16
  | .accdef _ _ _ a b c => accdefChk a b c
  | .accz _ n => accChk n (fun _ => true)
  | .accld _ t n a b => accMemChk i n (accldOk t) a b
  | .accmv _ t _ _ _ n .. => accChk n (accstOk t)
  | .accst _ t _ _ n a b => accMemChk i n (accstOk t) a b
  | .accscl _ n .. => accChk n (fun x => !x.i32)
  | .accbias _ n .. => accChk n (fun _ => true)
  | .ringset _ _ a b c => ringsetChk a b c
  | .xcopy _ _ ch .. => xChk i ch
  | .xgather _ _ ch .. => xChk i ch
  | .xscatter _ _ ch .. => xChk i ch
  | .xacc _ _ _ ch .. => xChk i ch
  | .xfetch _ _ _ ch .. => xChk i ch
  | .xcas _ _ ch .. => xChk i ch
  | .xfill _ _ ch .. => xChk i ch
  | .xexpand _ _ ch .. => xChk i ch
  | .xsignal _ _ ch .. => xChk i ch
  | .xorder _ _ ch .. => xChk i ch
  | .kvalloc _ ch .. => xChk i ch
  | .kvfree _ ch .. => xChk i ch
  | .kvshare _ ch .. => xChk i ch
  | .kvappend _ _ ch .. => xChk i ch
  | .kvcommit _ _ ch .. => xChk i ch
  | .kvget _ ch .. => xChk i ch
  | .kvsum _ ch .. => xChk i ch
  | .xcoll _ _ _ _ ch .. => xChk i ch
  | _ => noChk

/-! ## Operations of one bundle -/

/-- The broadcast port's code of R94. -/
def bpsCode : Bps → Nat
  | .none => 0
  | .reg _ => 1
  | .imm _ => 2
  | .f32 _ => 3

/-- The 64 bits of the broadcast port (R94, R100). -/
def bpsVal (b : Bank) : Bps → Word
  | .none => 0
  | .reg n => b.getS n.toNat
  | .imm v => v.signExtend 64
  | .f32 v => BitVec.ofNat 64 (v.toNat * 65536)

/-- One member of an issue: a core, a slot, and the operations it issues. -/
structure Member where
  core : Nat
  slot : Nat
  ops  : List SlotOp
  deriving DecidableEq, Repr

/-- The state in which a member's operation is looked at: the frame of the issue around it. -/
def atMember (s : State) (f : Issue) (h : Header) (m : Member) : State :=
  { s with issue := { f with core := m.core, ctx := m.slot, bval := bpsVal (s.ctx m.core m.slot).bank h.bps } }

/-- The state in which one operation of a member issues. -/
def atOp (s : State) (f : Issue) (h : Header) (m : Member) (o : SlotOp) : State :=
  let t := atMember s f h m
  { t with issue := { t.issue with slot := o.slot, k := o.k, syl := o.syl } }

/-- Timed loads, which take a landing entry (R112, R113). -/
def isLoad : Instr → Bool
  | .ld .. | .vld .. | .vldx .. => true
  | _ => false

/-- Queued T and M operations (R116). -/
def isQueued (i : Instr) : Bool :=
  match i with
  | .trd .. | .trmax .. | .trsum .. | .twait .. | .ringq .. | .nop => false
  | _ => i.slotOk .t || i.slotOk .m

/-- A check with the slot that a fault of it is detected in. -/
def opFault (s : State) (f : Issue) (h : Header) (m : Member) (o : SlotOp) : Chk :=
  opChk o.i (checkOf o.i) (atOp s f h m o)

/-- What stands against a member's operations together: each of them, landing entries for all its loads (R113),
and room for all its queued operations (R116). -/
def memberChk (s : State) (f : Issue) (h : Header) (m : Member) : Chk :=
  let x := s.ctx m.core m.slot
  let on (o : SlotOp) : Bool := (atOp s f h m o).guardOn o.i
  let loads := (m.ops.filter (fun o => isLoad o.i && on o)).length
  let queued := (m.ops.filter (fun o => isQueued o.i && on o)).length
  let each := m.ops.foldl (fun c o => c.and (opFault s f h m o)) {}
  let entry : Chk := if loads ≠ 0 ∧ 16 < x.entries + loads then { stall := some .landing } else {}
  let room : Chk := blockIf (queued != 0 && decide (16 < x.pend + queued))
  (entry.and each).and room

/-- The pass in which an operation of a bundle takes effect: every read of registers and memory goes before any
store, what orders or releases follows the accesses of its bundle (R246, R247), and control comes last (R105). -/
def passOf (i : Instr) : Nat :=
  match i with
  | .nop => 0
  | .st .. | .vst .. | .vstx .. => 2
  | .handover .. => 4
  | _ =>
      if i.slotOk .s1 && !i.slotOk .s0 then 4
      else if (i.slotOk .s0 && !i.slotOk .s1) || i.slotOk .x then 3
      else if i.slotOk .m || i.slotOk .t then 1 else 0

/-- One operation of a checked bundle takes effect. -/
def runOp (f : Issue) (h : Header) (m : Member) (s : State) (o : SlotOp) : State :=
  let t := atOp s { f with checked := true, soft := s.issue.soft } h m o
  match exec o.i t with
  | .next u => u
  | _ => s

/-- The operations of one pass on every member. -/
def runPass (f : Issue) (h : Header) (ms : List Member) (s : State) (p : Nat) : State :=
  ms.foldl (fun s m => (m.ops.filter (fun o => passOf o.i == p)).foldl (runOp f h m) s) s

/-- What every issue does beside its operations: the sticky state, the repetition and the PC (R107, R109). -/
def advancePc (s : State) (b : Bundle) (pc : Word) (rep : Nat) (m : Member) : State :=
  let last := decide (b.hdr.rep.toNat ≤ rep)
  s.updCtx m.core m.slot (fun x => { x with
    sticky := stickyAfter (if rep = 0 && b.hdr.sp then [] else x.sticky) m.ops
    pc := if last then b.next else pc
    rep := if last then 0 else rep + 1
    bpSkip := false, target := false })

/-- The end of an issue in a member: it counts, that of a doubles partner as an issue cycle since a turn end (R267), and
what its context waited for is over (R118). -/
def finishIssue (partner : Bool) (s : State) (m : Member) : State :=
  s.updCtx m.core m.slot (fun x => { x with
    issues := x.issues + 1, blocked := false
    ranTurn := if partner && x.switch != .none then x.ranTurn + 1 else x.ranTurn
    wait := if x.state = .waiting then x.wait else none
    badPages := if x.state = .waiting then x.badPages else [] })

/-- The weight of a member's operations goes into its core's window (R324), and the slices that lose to its V
slots are counted (R319, R320). -/
def countIssue (s : State) (m : Member) : State :=
  let s := addWeight s m.core (weightOf m.ops)
  let n := sliceLosses (busySlices (s.core m.core)) (activeOps m.ops)
  if n = 0 then s else s.updCore m.core (fun c => { c with exclcnt := addLosses c.exclcnt n 0 })

/-- A view join (R68, R249): what a member's core wrote before reads the same in both views. -/
def joinViews (f : Issue) (s : State) (m : Member) : State :=
  s.updCore m.core (joinCore (2 * s.cycle + (if f.partner then 1 else 0)))

/-- Whether a member takes a TRAP itself. -/
def takesTrap (s : State) (f : Issue) (h : Header) (m : Member) : Bool :=
  m.ops.any (fun o => (match o.i with
    | .trap .. => true
    | _ => false) && (atOp s f h m o).guardOn o.i)

/-- A bundle issues: its operations take effect together on every member, the first of which drives the stream
(R34, R105). -/
def issueBundle (s : State) (f : Issue) (b : Bundle) (ms : List Member) : State :=
  let order := ms.drop 1 ++ ms.take 1
  let leads := (ms.take 1).any (takesTrap s f b.hdr)
  let s := ms.foldl countIssue s
  let s := ms.foldl (fun s m => advancePc s b f.hdr f.rep m) s
  let s := runPass f b.hdr order s 0
  let s := runPass f b.hdr order s 1
  let s := if b.hdr.vj then ms.foldl (joinViews f) s else s
  let s := runPass f b.hdr order s 2
  let s := runPass f b.hdr order s 3
  let s := runPass f b.hdr order s 4
  let s := match s.issue.soft with
    | some (k, t) => if leads then s else
        ({ s with issue := { f with core := k, ctx := 0 } } : State).softTrap k 0 t
    | none => s
  { ms.foldl (finishIssue f.partner) s with issue := {} }

/-! ## Breakpoints (R312, R313) -/

/-- The lowest comparator of a core that matches a repetition (R313). -/
def matched (c : CoreSt) (j : Nat) (pc : Word) (rep : Nat) (l : List SlotOp) : Option Nat :=
  (List.range 8).find? (fun n =>
    let w := Tbl.getD c.bpCtl n 0
    let mask := field w 6 8
    bit w 0 && Tbl.getD c.bpAddr n 0 == pc && bit w (2 + j) && (bit w 14 || field w 15 8 == rep)
      && (mask == 0 || (activeOps l).any (fun o => mask.testBit o.slot.num)))

/-- The comparator that stops a member's repetition: none in a handler, and none at a resume point (R146, R313). -/
def breakAt (s : State) (pc : Word) (rep : Nat) (m : Member) : Option Nat :=
  let x := s.ctx m.core m.slot
  if x.trap.isIn || x.bpSkip then none else matched (s.core m.core) m.slot pc rep m.ops

/-- BREAK (R145, R313). No slot detects it: TRAPINFO.SLOT is 0 (log 81, DESIGN CHOICE). -/
def breakChk (s : State) (pc : Word) (rep : Nat) (m : Member) : Chk :=
  match breakAt s pc rep m with
  | some n => { fault := some { cause := .brk, addr := pc, slot := 0, tcode := n } }
  | none => {}

/-- POISON that a landing left for the next bundle (R122, R146). The slot of the poisoned load is the detecting one;
the bundle it cancels is another (log 81, DEDUCED). -/
def poisonChk (s : State) (m : Member) : Chk :=
  match (s.ctx m.core m.slot).poisonDue with
  | some (a, sl) => { fault := some { cause := .poison, addr := BitVec.ofNat 64 a, slot := sl } }
  | none => {}

/-- Everything that stands against a member (R121, R122). -/
def issueChk (s : State) (f : Issue) (b : Bundle) (m : Member) : Chk :=
  ((memberChk s f b.hdr m).and (breakChk s f.hdr f.rep m)).and (poisonChk s m)

/-- The marks of POISON go with its trap: the load lands again after ERET without them (R123). -/
def clearPoison (s : State) (m : Member) : State :=
  s.updCtx m.core m.slot (fun x => { x with
    poisonDue := none
    undo := x.undo.map (fun u => { u with landed := u.landed.map (fun (g : Flight) => { g with poison := none }) }) })

/-- A member's fault cancels the bundle (R32, R34, R121). -/
def faultBundle (s : State) (f : Issue) (m : Member) (g : Flt) : State :=
  let s := if g.cause = .poison ∧ (s.ctx m.core m.slot).poisonDue.isSome then clearPoison s m else s
  let t : State := { s with issue := { f with core := m.core, ctx := m.slot } }
  { t.raise g with issue := {} }

/-- The present slots of a bundle that were not decoded, as a mask. -/
def Bundle.undecoded (b : Bundle) : Nat :=
  slotBits ((Slot.all.filter (fun sl => b.hdr.has sl && !b.ops.any (fun o => o.1 == sl))).map (·.num))

/-- The Running context of a core has issued or was cancelled in this cycle (R30). -/
def noteRan (s : State) (k : Nat) (b : Bundle) (l : List SlotOp) : State :=
  s.updCore k (fun c => { c with ran := some (slotMask l ||| b.undecoded, b.hdr.bps != .none) })

/-! ## The Running context's bundle -/

/-- Whether a Ready context may become Running: it is not switched out, and its fetch is not frozen for a full save (R28,
R267). -/
def Ctx.mayRun (x : Ctx) : Bool := x.state == .ready && !x.out && x.switch != .full

/-- The Running slot of a core. -/
def CoreSt.runningSlot (c : CoreSt) : Option Nat :=
  [0, 1, 2, 3].find? (fun j => (c.slot j).state == .running && !(c.slot j).out)

/-- The first member, and the check, that a condition holds of. -/
def firstWith (p : Chk → Bool) (l : List (Member × Chk)) : Option (Member × Chk) := l.find? (fun x => p x.2)

/-- The fault that is reported of several members (R122). -/
def worstFault : List (Member × Chk) → Option (Member × Flt)
  | [] => none
  | (m, c) :: r =>
      match c.fault, worstFault r with
      | none, y => y
      | some f, none => some (m, f)
      | some f, some (m', g) =>
          if g.cause.rank < f.cause.rank ∨ (g.cause.rank = f.cause.rank ∧ g.slot < f.slot) then some (m', g)
          else some (m, f)

/-- Whether a member of an SP bundle still drains (R120). -/
def notDrained (s : State) (m : Member) : Bool :=
  let x := s.ctx m.core m.slot
  !x.flight.isEmpty || !x.mine.isEmpty

/-- Whether skew holds a member (R118). -/
def skewed (s : State) (h : Header) (m : Member) : Bool :=
  let x := s.ctx m.core m.slot
  x.pend != 0 && decide (h.skew < x.skew + 1)

/-- Whether a context of a member is to be switched out before this bundle, a safe point (R267). -/
def stopsHere (s : State) (f : Issue) (b : Bundle) (m : Member) : Bool :=
  let x := s.ctx m.core m.slot
  x.switch = .safePoint && f.rep == 0 && s.actsSafe x.launch f.hdr b

/-- A drain cycle is counted on the core of a member that drains (R104, R115). -/
def countDrain (s : State) (x : Member × Chk) : State :=
  match x.2.stall with
  | some t => s.countFreeze x.1.core (if t = .landing then 0 else 16)
  | none => s

/-- A bundle that has been fetched, with its members: stalls, faults, waits and blocks in turn, else it issues.
`e` is what stood against fetching the rest of it. -/
def tryBundle (s : State) (k : Nat) (f : Issue) (b : Bundle) (ms : List Member) (e : Chk := {}) : State :=
  let s0 (m : Member) : State := { s with issue := { f with core := m.core, ctx := m.slot } }
  let wide := ms.filter (fun m => !fitsWindow s m.core (weightOf m.ops))
  let cs := ms.map (fun m => (m, (issueChk s f b m).and e))
  let held := cs.filter (fun x => skewed s b.hdr x.1 || x.2.stall == some .tags)
  let late := cs.filter (fun x => x.2.stall == some .order)
  let why := wide.map (fun m => (m.core, 32)) ++ held.map (fun x => (x.1.core, 16)) ++ late.map (fun x => (x.1.core, 0))
  if !wide.isEmpty then s.freezeFor k why
  else if (b.hdr.sp && f.rep == 0 && ms.any (notDrained s)) || ms.any (stopsHere s f b) then
    (ms.filter (notDrained s)).foldl (fun s m => s.countFreeze m.core 16) s
  else if !why.isEmpty then s.freezeFor k why
  else if cs.any (fun x => x.2.stall.isSome) then
    cs.foldl countDrain s
  else
  let lone (s : State) : State :=
    if ms.length = 1 && !f.partner then noteRan s k b ((ms.head?.map (·.ops)).getD []) else s
  match worstFault cs with
  | some (m, g) => lone (faultBundle s f m g)
  | none =>
  match ms.find? (fun m => !(s.ctx m.core m.slot).rentLow.isEmpty && !(s.ctx m.core m.slot).trap.isIn) with
  | some m => lone { takeRentLow s m.core m.slot f.partner with issue := {} }
  | none =>
  match firstWith (fun c => !c.pages.isEmpty) cs with
  | some (m, c) => lone { (s0 m).pageWait c.pages with issue := {} }
  | none =>
  match firstWith (fun c => c.block.isSome) cs with
  | some (m, c) => { (s0 m).blockMe (c.block.getD none) with issue := {} }
  | none => lone (issueBundle s f b ms)

/-- The frame of an issue at an address. -/
def frameOf (k j : Nat) (b : Bundle) (pc : Word) (rep : Nat) (partner : Bool) : Issue :=
  { core := k, ctx := j, hdr := pc, next := b.next, bps := bpsCode b.hdr.bps, rep := rep, partner := partner }

/-- The members that issue with the context in slot `j` of core `k`, which is the first of them. -/
def State.membersOf (s : State) (k j : Nat) (b : Bundle) (rep : Nat) : List Member :=
  (s.gangSlots k j).map (fun m => { core := m.1, slot := m.2, ops := (s.ctx m.1 m.2).repOps b rep })

/-- What is in a hold bank is replayed, and what is due lands (R303, R308). -/
def replayHold (s : State) (m : Nat × Nat) : State :=
  match (s.ctx m.1 m.2).hold with
  | none => s
  | some b =>
      let s := replay (s.updCtx m.1 m.2 (fun x => { x with hold := none })) m.1 m.2 (s.core m.1).ic b
        (!b.latches.isEmpty)
      s.landNow m.1 m.2

/-- The same beside the Running context, whose latches the core keeps (R30). -/
def replayPartner (s : State) (k j : Nat) : State :=
  match (s.ctx k j).hold with
  | none => s
  | some b => (replay (s.updCtx k j (fun x => { x with hold := none })) k j (s.core k).ic
      { b with flight := b.flight.map (fun f => { f with lands := f.lands.filter (fun l => !l.isLatch) }) }
      false).landNow k j

/-- Where the header of a bundle cannot be had, a taken branch, ERET or a resume that led there raises TARGET for an
address that is not 8-aligned and for a syllable whose bit 63 is 0 (R103, R143); a header that breaks R95 stays ILLEGAL.
What its fetch waited for (a page, a hand-over) and did not get keeps its own cause (R62, R301). -/
def headerChk (s : State) (k j : Nat) (c : Chk) : Chk :=
  let x := s.ctx k j
  let noHdr : Bool := match fetch s k j x.pc with
    | .word w => !isHeader w
    | _ => false
  if x.target && (field x.pc 0 3 != 0 || noHdr) then { fault := some { cause := .target, addr := x.pc } } else c

/-- The context escalates before its next bundle: with XLATE after a queued operation's Invalid Request (R301), or with
POISON (R309, R331); what has landed in this cycle stays in its hold bank (R308). -/
def takeEscalation (s : State) (k j : Nat) (partner : Bool) (e : Bool × Word) : State :=
  let f := (s.core k).ic
  let s := undoLandings (s.updCtx k j (fun x => { x with escNext := none })) k j f partner
  let x := s.ctx k j
  escalate s k j f partner { cause := if e.1 then .poison else .xlate, addr := e.2 } x.pc x.rep

/-- What a context does where no header could be had. -/
def noHeader (s : State) (k j : Nat) (partner : Bool) (c : Chk) : State :=
  let x := s.ctx k j
  let m : Member := { core := k, slot := j, ops := [] }
  let i : Issue := { core := k, ctx := j, hdr := x.pc, rep := x.rep, partner := partner }
  match worse (worse (headerChk s k j c).fault (breakChk s x.pc x.rep m).fault) (poisonChk s m).fault with
  | some g => faultBundle s i m g
  | none => { settle c id { s with issue := i } with issue := {} }

/-- The Running context in slot `j` of core `k`, with its hold bank replayed: its bundle is fetched and tried. In a
gang, a member that escalates holds the others (R34). -/
def runBundle (s : State) (k j : Nat) : State :=
  let x := s.ctx k j
  match (s.gangSlots k j).findSome? (fun m => (s.ctx m.1 m.2).escNext.map (fun a => (m, a))) with
  | some (m, a) => (takeEscalation s m.1 m.2 false a).updCore k (fun c => { c with ran := some (0, false) })
  | none =>
  let g := fetchBundle s k j x.pc
  let s := checkFetch s k j x.pc g
  match g with
  | .bundle b => tryBundle s k (frameOf k j b x.pc x.rep false) b (s.membersOf k j b x.rep)
  | .stop c (some b) => tryBundle s k (frameOf k j b x.pc x.rep false) b (s.membersOf k j b x.rep) c
  | .stop c none => (noHeader s k j false c).updCore k (fun c => { c with ran := some (0, false) })

/-- The Running context in slot `j` of core `k` takes its turn. What its hold bank had due beyond the core lands as
the issue lets it (R104, R123). -/
def runContext (s : State) (k j : Nat) : State :=
  let ms := s.gangSlots k j
  let held := ms.any (fun m => (s.ctx m.1 m.2).hold.isSome)
  let s := ms.foldl replayHold s
  let s := if held then shareBy (fun t => runBundle t k j) ms s else s
  runBundle s k j

/-- Whether the members of a gang can all issue (R34). -/
def State.gangReady (s : State) (k j : Nat) : Bool :=
  (s.gangSlots k j).all (fun m =>
    let c := s.core m.1
    let x := c.slot m.2
    (x.state == .running || x.mayRun) && !x.out && !c.frozen && c.gang == (s.core k).gang
      && decide (x.notBefore ≤ c.ic))

/-! ## Doubles (R30) -/

/-- Whether a V-slot operation writes its latch only (R111). -/
def writesLatchOnly (i : Instr) : Bool :=
  match i with
  | .vst .. | .vstx .. => false
  | _ => isVop i && (i.fields).any (fun f => f.2.2.getLsbD 47)

/-- Whether an operation reads a latch. -/
def readsLatch (i : Instr) : Bool :=
  i.srcs.any (fun x => match x with
    | .latch _ => true
    | _ => false)

/-- The slot that may issue beside the Running one: the next Ready slot after it (R30). -/
def CoreSt.partnerSlot (c : CoreSt) : Option Nat :=
  [1, 2, 3].findSome? (fun i =>
    let j := (c.last + i) % 4
    if (c.slot j).mayRun then some j else none)

/-- Whether two bundles go together (R30), with the mask and the port of the Running one. -/
def fitsBeside (mask : Nat) (port : Bool) (b : Bundle) (l : List SlotOp) : Bool :=
  b.hdr.rep == 0 && !b.hdr.sp && !(port && b.hdr.bps != .none) && (slotMask l &&& mask) == 0
    && !(activeOps l).any (fun o => readsLatch o.i || writesLatchOnly o.i)

/-- A partner's bundle that fits: a stall or a matching comparator keeps it back and does nothing else; else it faults,
traps, waits, blocks or issues on its own (R32). -/
def tryPartner (s : State) (f : Issue) (b : Bundle) (m : Member) (e : Chk) : State :=
  if (breakAt s f.hdr 0 m).isSome || skewed s b.hdr m || !fitsWindow s m.core (weightOf m.ops) then s
  else if (issueChk s f b m).stall.isSome then s
  else tryBundle s m.core f b [m] e

/-- The active slots of a bundle, those that were not decoded counted with them. -/
def activeMask (b : Bundle) (l : List SlotOp) : Nat := slotMask l ||| b.undecoded

/-- What the context in slot `j` of core `k`, with its hold bank replayed, does beside the Running one whose active slots
and use of the port are given. -/
def runPartner (s : State) (k j mask : Nat) (port : Bool) : State :=
  let x := s.ctx k j
  let g := fetchBundle s k j x.pc
  let s := checkFetch s k j x.pc g
  let beside (b : Bundle) (c : Chk) : State :=
    let l := x.repOps b 0
    if fitsBeside mask port b l && (b.undecoded &&& mask) == 0 then
      tryPartner s (frameOf k j b x.pc 0 true) b { core := k, slot := j, ops := l } c
    else s
  match x.escNext with
  | some a => takeEscalation s k j true a
  | none =>
  match g with
  | .bundle b => beside b {}
  | .stop c (some b) => beside b c
  | .stop c none =>
      if (breakAt s x.pc 0 { core := k, slot := j, ops := [] }).isSome then s else noHeader s k j true c

/-- Whether a partner did something in its turn: its state is another one. -/
def partnerActed (s t : State) (k j : Nat) : Bool := t.ctx k j != s.ctx k j

/-- The partner phase of a core (R30, R32). A hold bank of the partner is replayed with its bundle (R303): where the
bundle stays back, so does the bank. -/
def partnerCore (s : State) (k : Nat) : State :=
  let c := s.core k
  match c.ran with
  | none => s
  | some (mask, port) =>
      match c.partnerSlot with
      | none => s
      | some j =>
          if c.frozen || c.gang.isSome || decide (c.ic < (c.slot j).notBefore) then s
          else if (c.slot j).hold.isNone then runPartner s k j mask port
          else
            let u := replayPartner s k j
            let u := shareBy (fun t => runPartner t k j mask port) [(k, j)] u
            let t := runPartner u k j mask port
            if partnerActed u t k j then t else s

/-! ## Table walks (R303) -/

/-- The address of a fault that the context in slot `j` of core `k` took between two states, in a trap or an escalation. -/
def faultAt (s t : State) (k j : Nat) : Option Nat :=
  let y := (t.ctx k j).trap
  if y.isIn && y != (s.ctx k j).trap then some y.addr.toNat
  else if s.hevents.length < t.hevents.length then (t.hevents.getLast?).bind (fun e =>
    if e.type = 1 then some e.addr.toNat else none)
  else none

/-- Whether between two states the context in slot `j` of core `k` has walked tables: a leaf was cached, a page is missing,
or a walk ended in a fault, which caches nothing (R303, R314). -/
def walked (s t : State) (k j : Nat) : Bool :=
  let f := s.fnOf (s.ctx k j).launch
  (t.fn f).tlb.any (fun e => !(s.fn f).tlb.contains e)
    || ((t.ctx k j).state == .waiting && (match (t.ctx k j).wait with
      | some (.pages _) => true
      | _ => false))
    || (!isHitik k && (faultAt s t k j).any (walksFor s (s.who k j)))

/-- Whether the partner that would issue beside the Running context of a core walks tables (R30, R303). -/
def partnerWalks (t : State) (k : Nat) : Bool :=
  (t.core k).partnerSlot.any (walked t (partnerCore t k) k)

/-- A freeze cycle of a table walk, which FREEZE.LAND counts, unless the cycle is a freeze of another cause (R115,
R303). `n` more are to come. -/
def walkFreeze (s t : State) (k n : Nat) : State :=
  (if (t.core k).frozen then t else s.freezeFor k [(k, 0)]).updCore k (fun c => { c with walk := some n })

/-- What the Running bundle does in this cycle, `t` without its table walks: while they last, or those of the bundle that
goes with it, its core freezes (R303). How many cycles a walk takes is the implementation's (log 80). -/
def afterWalk (s t : State) (k j : Nat) : State :=
  match (s.core k).walk with
  | some 0 => if (t.core k).frozen then t else t.updCore k (fun c => { c with walk := none })
  | some (n + 1) => walkFreeze s t k n
  | none =>
      match s.walks with
      | [] => t
      | n :: r =>
          if !(walked s t k j || partnerWalks t k) then t
          else match n with
            | 0 => { t with walks := r }
            | n + 1 => walkFreeze { s with walks := r } { t with walks := r } k n

/-- The run phase of a core: the Running context issues, unless the core is frozen, in a bubble, or a member of a
gang that another core drives (R28, R34, R106). -/
def runCore (s : State) (k : Nat) : State :=
  let c := s.core k
  let drives := match c.gang with
    | some (first, _) => first == k
    | none => true
  if c.frozen || c.stopped || !drives then s
  else match c.runningSlot with
    | none => s
    | some j => if s.gangReady k j then afterWalk s (runContext s k j) k j else s

/-! ## What reaches beyond a core (R104, R123) -/

/-- What a core does in its run and partner phases; in a gang rank 0 answers for every member. -/
def runFor (s : State) (k : Nat) : State :=
  match (s.core k).gang with
  | some (first, _) => runCore s first
  | none => partnerCore (runCore s k) k

/-- Of contexts whose due results reach beyond their cores, those that keep them where all of these have landed: no
freeze and no trap of the cycle puts them back. -/
def keepShared (s : State) (ms : List (Nat × Nat)) : List (Nat × Nat) :=
  let t := ms.foldl (landShared true) s
  ms.filter (fun m => !wentBack s (runFor t m.1) m)

/-- The same until every one of them keeps its results. -/
def settleShared (s : State) : Nat → List (Nat × Nat) → List (Nat × Nat)
  | 0, _ => []
  | n + 1, ms =>
      let r := keepShared s ms
      if r.length = ms.length then ms else settleShared s n r

/-- The share phase: the results due in this cycle that reach beyond a core land on every core before any core issues,
but for those that the own issue of their core in this cycle keeps back (R104, R123, R250, R254). -/
def shareAll (s : State) : State :=
  let ms := ((s.cores.map (·.1)).filter (fun k => !isParked k && !(s.core k).frozen)).flatMap (fun k =>
    ([0, 1, 2, 3].map (fun j => (k, j))).filter (fun m => !(s.dueShared m.1 m.2).isEmpty))
  if ms.isEmpty then s else (settleShared s (ms.length + 1) ms).foldl (landShared false) s

end Sys2Proof.Machine
end

