-- ==== Sys2Proof/Machine/Cycle.lean ====
section
/-!
DEFINITION. One core cycle: the engines (R44, R117, R197), the landings (R104, R114), what wakes a Waiting context
(R44), which context runs next (R28, R31), and the events that fall due at the end of a cycle and at the start of
a tick (logs 1 and 2).
-/
namespace Sys2Proof.Machine

/-- The cores with anything on them, ascending; saved parts of launches are none. -/
def State.liveCores (s : State) : List Nat := (s.cores.map (·.1)).filter (fun k => !isParked k)

/-! ## Engines -/

/-- Whether everything on a core has been switched out. -/
def CoreSt.allStopped (c : CoreSt) : Bool :=
  let l := [0, 1, 2, 3].filter (fun j => (c.slot j).state != .empty)
  !l.isEmpty && l.all (fun j => (c.slot j).out)

/-- Whether a command is running with an element to move. -/
def State.moving (s : State) (h : Chan) : Bool :=
  match h.queue with
  | c :: _ => c.prog.started && c.prog.stop.isNone && (s.nextElem c).isSome
  | [] => false

/-- The matrix and tile events that fall due in this cycle: completions, then starts, oldest first (R117). -/
def opEvents (s : State) (k j : Nat) : List Instr :=
  let q := (s.ctx k j).queue
  (q.filter (s.mayComplete k j)).map (fun o => .queuedOpComplete k j o.id)
    ++ (q.filter (fun o => (!o.started || o.page.isSome) && opReady s k j o)).map (fun o => .queuedOpStart k j o.id)

/-- The event of a channel that falls due in this cycle. -/
def chanEvents (s : State) (k ch : Nat) : List Instr :=
  if cmdReady s k ch then [.commandStart k ch]
  else if s.moving ((s.core k).chn ch) then [.commandElement k ch] else []

/-- A number put into an ascending list without repeats. -/
def insertUp (n : Nat) : List Nat → List Nat
  | [] => [n]
  | m :: r => if n < m then n :: m :: r else if n = m then m :: r else m :: insertUp n r

/-- The collectives that form in this cycle, in ascending order of GROUP (R348). -/
def collEvents (s : State) : List Instr :=
  let l := s.colls.filter (fun y => collReady s y && s.inTurn y.fn)
  let groups := l.foldl (fun gs y => insertUp y.group gs) []
  groups.flatMap (fun g => (l.filter (fun y => y.group == g)).map (fun y => Instr.collectiveForm y.fn g))

/-- The engine events of a core (R44): none in a cycle in which no engine moves (log 2). -/
def engineEvents (s : State) (k : Nat) : List Instr :=
  if s.lag.headD false then []
  else
    (if s.liveCores.head? = some k then collEvents s else []) ++
      (if (s.core k).allStopped then []
       else [0, 1, 2, 3].flatMap (opEvents s k) ++ (List.range 16).flatMap (chanEvents s k))

/-! ## Landings -/

/-- Whether a timed load of a core is due and its data has not come (R114). -/
def lateOn (s : State) (k : Nat) : Bool :=
  [0, 1, 2, 3].any (fun j => (s.dueFlights k j).any (fun f => f.load && !f.arrive.all s.tokensThere))

/-- Whether the governor would freeze a core's Running bundle (R324, R327). -/
def governed (s : State) (k : Nat) : Bool :=
  match (s.core k).runningSlot with
  | none => false
  | some j =>
      let x := s.ctx k j
      if (s.quad (quadOf k)).limit = 0 ∨ (s.core k).ic < x.notBefore then false
      else match fetchBundle s k j x.pc with
        | .bundle b => !fitsWindow s k (weightOf (x.repOps b x.rep))
        | _ => false

/-- Whether skew, ready tags or TWAIT would freeze a core's Running bundle (R116, R118). -/
def heldBack (s : State) (k : Nat) : Bool :=
  match (s.core k).runningSlot with
  | none => false
  | some j =>
      let x := s.ctx k j
      if (s.core k).ic < x.notBefore then false
      else match fetchBundle s k j x.pc with
        | .bundle b =>
            let m : Member := { core := k, slot := j, ops := x.repOps b x.rep }
            skewed s b.hdr m || (issueChk s (frameOf k j b x.pc x.rep false) b m).stall == some .tags
        | _ => false

/-- The field of FREEZE that counts a late landing: the leftmost of the causes that hold (R115). -/
def lateField (s : State) (k : Nat) : Nat := if governed s k then 32 else if heldBack s k then 16 else 0

/-- The landing phase of a core: a late landing freezes it and its gang; else what is due lands (R104, R114). A core with
an event on another member counts it in GANGF, the leftmost (R115). -/
def landCore (s : State) (k : Nat) : State :=
  let late := (s.gangOf k).any (lateOn s)
  if late && (s.gangOf k).any (fun m => m != k && (lateOn s m || lateField s m != 0)) then
    (s.countFreeze k 48).updCore k (fun c => { c with frozen := true })
  else if lateOn s k then
    (s.countFreeze k (lateField s k)).updCore k (fun c => { c with frozen := true })
  else s.push (s.landings k)

/-! ## Waking (R44) -/

/-- A Waiting context becomes Ready, with what its wait has become. -/
def wake (s : State) (k j : Nat) (w : Option Wait) : State :=
  s.updCtx k j (fun x => { x with state := .ready, wait := w })

/-- The first core of an aligned group. -/
def groupFirst (k n : Nat) : Nat := k - k % 48 % n

/-- Whether the context in slot 0 of a core waits for its group, with everything of it landed (R33, R35). -/
def arrivedAt (s : State) (w : Wait) (k : Nat) : Bool :=
  let x := s.ctx k 0
  x.state == .waiting && x.wait == some w && x.flight.isEmpty && !x.out

/-- What the event a context waits for makes of it, if it has come. -/
def wakeOne (s : State) (k j : Nat) : State :=
  let x := s.ctx k j
  if x.state ≠ .waiting ∨ x.out then s
  else match x.wait with
    | some (.barrier sc inst l n g none) =>
        if genMoved s x sc inst l n g then wake s k j (some (.barrier sc inst l n g (some true))) else s
    | some (.watch c a v t none) => if watchNow s k j (.watch c a v t none) then wakeWatch s k j else s
    | some (.chan c v t none) => if watchNow s k j (.chan c v t none) then wakeWatch s k j else s
    | some .tails => if s.tailsOver k j then wake s k j none else s
    | some (.writes ops) => if (s.core k).opsOver ops then wake s k j none else s
    | some (.holds sp) => if x.holds.any (fun h => h.start.ult sp) then s else wake s k j none
    | some (.fuse n false) =>
        let ms := (List.range n).map (groupFirst k n + ·)
        if k = groupFirst k n ∧ ms.all (arrivedAt s (.fuse n false)) then
          ms.foldl (fun s m => wake s m 0 (some (.fuse n true))) s
        else s
    | some (.rejoin false) =>
        match (s.core k).lastGang with
        | none => s
        | some (first, n) =>
            let ms := (List.range n).map (first + ·)
            if k = first ∧ ms.all (fun m => arrivedAt s (.rejoin false) m && (s.core m).lastGang == some (first, n))
            then ms.foldl (fun s m => wake s m 0 (some (.rejoin true))) s
            else s
    | some (.handover r w) =>
        match s.region? r with
        | none => if x.held.any Held.isHandover then s else wake s k j none
        | some y =>
            if x.held.any Held.isHandover then s
            else if y.owner ≠ x.launch ∨ (handoverStatus s x.quiet y w).isSome then wake s k j none else s
    | some (.pending b) =>
        if s.pendings.any (fun p => p.launch == x.launch && p.base == b && !p.failed) then s
        else wake (s.acquired k) k j none
    | some (.pages gs) => if gs.all (fun g => s.answered (s.fnOf x.launch) g.1) then wake s k j none else s
    | _ => s

/-- Every context that waits is looked at. -/
def wakeAll (s : State) : State :=
  let s := endHandovers s
  s.liveCores.foldl (fun s k => [0, 1, 2, 3].foldl (fun s j => wakeOne s k j) s) s

/-! ## Which context runs (R28, R31) -/

/-- The slot that runs next where none is Running: the first Ready one after the slot that ran last. A gang never
switches context (R34). -/
def CoreSt.nextSlot (c : CoreSt) : Option Nat :=
  [1, 2, 3, 4].findSome? (fun i =>
    let j := (c.last + i) % 4
    if (c.slot j).mayRun && (c.gang.isNone || j == 0) then some j else none)

/-- The Running slot of a core for the next cycle. The latches became invalid when a context stopped being Running; one
that blocked and stays Ready stops only now, unless it tries again because no other is Ready (R31). -/
def chooseRunning (c : CoreSt) : CoreSt :=
  match c.runningSlot with
  | some _ => { c with retry := false }
  | none =>
      let next := c.nextSlot
      let l := if c.retry && next != some c.last then [] else c.latches
      match next with
      | none => { c with latches := l, retry := false }
      | some j => CoreSt.setSlot { c with latches := l, last := j, retry := false } j { c.slot j with state := .running }

/-- A core goes on to its next cycle: an issue cycle has passed unless it was frozen (R104). -/
def nextCycle (c : CoreSt) : CoreSt :=
  let went := !c.frozen
  let sw (x : Ctx) : Ctx :=
    if x.switch = .none || x.out then x
    else { x with sinceTurn := x.sinceTurn + 1, ranTurn := if x.state = .running then x.ranTurn + 1 else x.ranTurn }
  { c with
    ic := if went then c.ic + 1 else c.ic
    ctx := if went then c.ctx.map (fun x => (x.1, sw x.2)) else c.ctx
    frozen := false, ran := none, moved := false }

/-- Change every core that is no saved part. -/
def State.mapCores (s : State) (f : CoreSt → CoreSt) : State :=
  { s with cores := s.cores.map (fun c => if isParked c.1 then c else (c.1, f c.2)) }

/-! ## Events of the end of a cycle -/

/-- The contexts that are not Empty and not saved. -/
def State.liveSlots (s : State) : List (Nat × Nat) := s.slots.filter (fun p => !isParked p.1)

/-- A context on its way to a safe point that waits, blocks or has run too long is switched out by a full save, with its
gang (R267). -/
def turnFull (s : State) : State :=
  s.liveSlots.foldl (fun s p =>
    let x := s.ctx p.1 p.2
    if x.switch = .safePoint ∧ !x.out ∧ x.mustSave then
      (s.gangSlots p.1 p.2).foldl (fun s m =>
        if (s.ctx m.1 m.2).switch = .safePoint then stopFetch s m.1 m.2 else s) s
    else s) s

/-- The switches that can be made now (R267, R277). -/
def switchEvents (s : State) : List Instr :=
  s.liveSlots.filterMap (fun p =>
    let x := s.ctx p.1 p.2
    if x.out then none
    else match x.switch with
      | .none => none
      | .safePoint => if s.atSafePoint p.1 p.2 then some (.safePointSwitch p.1 p.2) else none
      | .full => if s.enginesQuiet p.1 p.2 then some (.fullSave p.1 p.2) else none)

/-- The events at the end of every cycle: switches, turns that can begin, launches whose last context has ended,
and invalidations under way (R26, R265, R267, R299). -/
def cycleEvents (s : State) : List Instr :=
  List.flatten [
    switchEvents s,
    (s.turns.filter (fun t => t.2.next.isSome && s.allOut t.2.fn)).map (fun t => Instr.turnBegin t.1),
    (s.launches.filter (fun l => l.state == .placed && !s.alive l.id && !s.hasCmds l.id)).map
      (fun l => Instr.launchRetire l.id),
    s.fns.flatMap (fun f => if f.2.invBusy then [Instr.invalidationComplete f.1 false] else []),
    s.fns.flatMap (fun f => if f.2.s1invBusy then [Instr.invalidationComplete f.1 true] else []) ]

/-! ## Events of the start of a tick (R46) -/

/-- Leases that end (R63): sublets, then regions, then blocks. -/
def expiries (s : State) : List Instr :=
  s.regions.flatMap (fun r =>
      ((r.subs.zipIdx.filter (fun u => u.1.until_ ≤ s.now)).map (fun u => Instr.leaseExpiry r.id (some u.2))).reverse)
    ++ (s.regions.filter (fun r => r.until_ ≤ s.now)).map (fun r => .leaseExpiry r.id none)
    ++ s.fns.flatMap (fun f => (f.2.store.blocks.filter (fun b => b.2.paid ≤ s.now)).map (fun b =>
        Instr.leaseExpiry (blockLease f.1 b.1) none))

/-- The partitions a function is bound to. -/
def State.partitions (s : State) : List Nat := (s.fns.map (fun f => f.2.part)).eraseDups

/-- Partitions whose turns begin or end because tenants came or went (R265). -/
def turnsChanged (s : State) : List Instr :=
  (s.partitions.filter (fun p =>
    decide (1 < (s.tenants p).length) != (Tbl.find s.turns p).isSome)).map (fun p => .turnBegin p)

/-- Heads of queues that wait to be placed, as (function, queue). -/
def State.heads (s : State) : List (Nat × Nat) :=
  (s.launches.filter (fun l => l.state == .read)).map (fun l => (l.fn, l.queue)) |>.eraseDups

/-- Events of the rent clock at the start of a tick (R57, R58, R63). -/
def rentEvents (s : State) : List Instr :=
  List.flatten [
    (s.regions.filter (fun r => r.prepay.isSome)).map (fun r => Instr.prepayRenewal r.id), expiries s,
    (s.regions.filter (fun r => r.prepay.isNone && !r.rlow)).map (fun r => Instr.rentLowEvent r.id) ]

/-- Events of heat, power, watches and coalescing at the start of a tick (R224, R318, R325, R339). -/
def clockEvents (s : State) : List Instr :=
  List.flatten [
    [Instr.heatBoardUpdate], if s.overPower then [Instr.powerAlarmRaise] else [],
    if s.alarm && 100 ≤ s.below then [Instr.powerAlarmClear] else [],
    (s.liveSlots.filter (fun p => (s.ctx p.1 p.2).timedOut s.now)).map (fun p => Instr.watchTimeout p.1 p.2),
    (s.fns.filter (fun f => f.2.coalDue s.now)).map (fun f => Instr.coalDelayExpiry f.1) ]

/-- Placements, and beside each the pre-empted launches that can come back before or after it (R274, R277, R278). -/
def placeEvents (s : State) : List Instr :=
  let back := (s.launches.filter (fun l => l.state == .preempted)).map (fun l => Instr.preemptedResume l.id)
  back ++ (s.launches.filter (fun l => l.state == .read)).flatMap (fun _ => Instr.placement :: back)

/-- Events of turns, scrubs, launch queues and placement at the start of a tick (R66, R264, R265, R273, R274, R277,
R278). -/
def launchEvents (s : State) : List Instr :=
  List.flatten [
    turnsChanged s, s.turns.map (fun t => Instr.turnEnd t.1), s.scrubs.map (fun g => Instr.scrubComplete g),
    (s.quads.filter (fun q => q.2.scrub)).map (fun q => Instr.quadScrubComplete q.1),
    s.fns.flatMap (fun f => (f.2.queues.filter (fun q => q.2.available)).map (fun q =>
      Instr.launchEntryRead f.1 q.1)),
    placeEvents s, (s.heads.filter (fun p => (s.fn p.1).pre)).map (fun p => Instr.priorityPreemption p.1 p.2) ]

/-- The units that patrol reads in this tick and that hold an error (R332). -/
def patrolEvents (s : State) : List Instr :=
  [0, 1, 2].flatMap (fun t => if s.patrolRate t = 0 then [] else
    (s.patrolStep t).1.map (fun u => Instr.patrol u (s.symbolsWrong u)))

/-- The events at the start of a tick, in their order (log 2). -/
def tickEvents (s : State) : List Instr :=
  Instr.tokenRefill :: (rentEvents s ++ (patrolEvents s ++ (clockEvents s ++ launchEvents s)))

/-- What changes by itself at the start of a tick (R325). -/
def tickState (s : State) : State := { readPower s with alarmInForce := s.alarm }

/-- What changes by itself behind the events of a tick: where patrol stands (R332). -/
def afterTick (s : State) : State := movePatrol s

/-! ## The phases -/

/-- The end of a core cycle. -/
def endCycle (s : State) : State :=
  let s := s.withPolicy
  let s := applyUpsets { s with cycle := s.cycle + 1, lag := s.lag.drop 1 }
  let s := bringUp s
  let s := s.liveCores.foldl countSlots s
  let s := serveAsks s
  let s := wakeAll (s.mapCores nextCycle)
  let s := turnFull s
  let s := s.mapCores chooseRunning
  let tick := s.cycle % Config.cyclesPerTick == 0
  let s := if tick then tickState s else s
  let s := s.later (if tick then tickEvents s ++ cycleEvents s else cycleEvents s)
  let s := if tick then afterTick s else s
  { s with turn := { core := s.liveCores.headD 0, phase := .engines } }

/-- The next core after one, in ascending order. -/
def State.coreAfter (s : State) (k : Nat) : Option Nat := s.liveCores.find? (fun m => k < m)

/-- The phase after one; the partner phase is the last. -/
def Phase.after : Phase → Option Phase
  | .engines => some .land
  | .land => some .share
  | .share => some .run
  | .run => some .partner
  | .partner => none

/-- The move passes on: to the next core, then to the next phase, then the cycle ends. -/
def passTurn (s : State) : State :=
  match s.coreAfter s.turn.core with
  | some k => { s with turn := { s.turn with core := k } }
  | none =>
      match s.turn.phase.after with
      | some p => { s with turn := { core := s.liveCores.headD 0, phase := p } }
      | none => endCycle s

/-- A copy datapath that moved data in this cycle and loses to slice 1 is counted (R319, R320). -/
def countCopyLoss (s : State) (k : Nat) : State :=
  let c := s.core k
  if (busySlices c).getLsbD 1 && c.moved then
    s.updCore k (fun c => { c with exclcnt := addLosses c.exclcnt 0 1 })
  else s

/-- What a core does in a phase. -/
def corePhase (s : State) (k : Nat) : Phase → State
  | .engines => s.push (engineEvents s k)
  | .land => landCore s k
  | .share => if s.liveCores.head? = some k then shareAll s else s
  | .run => runCore s k
  | .partner => countCopyLoss (partnerCore s k) k

/-- One move: the core whose turn it is acts in its phase, and the turn passes on. -/
def advance (s : State) : State :=
  let k := s.turn.core
  passTurn (if s.liveCores.contains k then corePhase s k s.turn.phase else s)

end Sys2Proof.Machine
end

