-- ==== Sys2Proof/Machine/Step.lean ====
section
/-!
DEFINITION. The step: the event that is due first happens; with none due, the package makes its next move (logs 1 and
2), in which one that is not Ready yet is brought up (R349); one that halted in bring-up makes none. And the state in which a given bundle
is the next to issue (log 10).
-/
namespace Sys2Proof.Machine

/-- One step of the package. -/
def step (s : State) : Host.Outcome State Fault Refusal :=
  match s.agenda with
  | i :: r => exec i { s with agenda := r }
  | [] => if s.boot.halted then .fault (.bootHalted s.boot.stage) else .next (advance s)

/-- The virtual base of the code copy that `withFetchWord` makes. -/
def fetchBase : Nat := 0x400000000000

/-- The state with a bundle of `nbits` bits, its first word lowest, stored where the next step fetches it: in a code
copy of a launch whose one context is Running on core 0, with the move the run phase of that core (log 10). -/
def State.withFetchWord (s : State) (nbits w : Nat) : State :=
  let l : Launch := { id := 0, fn := 0, cores := [0], code := (fetchBase, 64, 0) }
  let x : Ctx := { state := .running, launch := 0, pc := BitVec.ofNat 64 fetchBase }
  let c : CoreSt := { ctx := [(0, x)], last := 0, launch := some 0 }
  let m := Memory.writeBytes s.mem 0 (toBytes 24 (w % 2 ^ nbits))
  { s with
    mem := m, cores := Tbl.set s.cores 0 c, launches := l :: s.launches.filter (fun y => y.id != 0)
    boot := { s.boot with stage := 8, halted := false }, agenda := [], turn := { core := 0, phase := .run } }

end Sys2Proof.Machine
end

