-- ==== Sys2Proof/Safety.lean ====
section
/-!
DEFINITION. What a safe run is: the package never stops, and both memories keep their canonical form, so that
equal memories are equal data. And the words in which statements about one operation are made: when it issues, and
what it then leaves.
-/
namespace Sys2Proof.Machine

/-- The two memories of a state: the package's and the host's. -/
def State.memories (s : State) : Memory × Memory := (s.mem, s.hostMem)

/-- Both memories of a pair are in canonical form. -/
def Canonical (p : Memory × Memory) : Prop := p.1.wf = true ∧ p.2.wf = true

/-- The invariant of the machine: both its memories are in canonical form. -/
def State.Inv (s : State) : Prop := Canonical s.memories

/-- A run is safe for `n` steps: no step of it stops. -/
def State.SafeFor (s : State) : Nat → Prop
  | 0 => True
  | n + 1 => ∃ t, step s = .next t ∧ t.SafeFor n

/-- What brought the package up did not halt it (R349). -/
def State.notHalted (s : State) : Prop := s.boot.halted = false

/-- Nothing stands against the operation (no stall, no fault, no page wait, no block; or its bundle has been looked
at as a whole), and its guard lets it act. -/
abbrev Issues (i : Instr) (s : State) : Prop :=
  (s.issue.checked = true ∨ opChk i (checkOf i) s = {}) ∧ s.guardOn i = true

/-- Whenever the operation issues in `s`, `exec` answers the next state `t`. -/
def Completes (i : Instr) (s t : State) : Prop := Issues i s → exec i s = .next t

/-- A device-physical address outside every segment of a checked range. -/
def Outside (a : Nat) (segs : List (Nat × Hit × Nat)) : Prop := ∀ g ∈ segs, within a g.2.1.dpa g.2.2 = false

/-- An address that is no byte of the dirty map of a function (R311). -/
def State.noDirtyByte (s : State) (f a : Nat) : Prop :=
  bit (s.fn f).dirty 0 = false ∨ ∀ g : Nat, a ≠ field (s.fn f).dirty 3 45 * 8 + g / 2 ^ 19

end Sys2Proof.Machine
end

