-- ==== Sys2Proof/Certificates/Slice0/Obligations.lean ====
section
/-!
DEFINITION. The statements about the model, for the provers: what encodings say, what a step does, and for every
instruction the next state it leaves when nothing stands against it. `Completes i s t` says: whenever the operation
`i` issues in `s`, `exec` answers the next state `t`.
-/
section
open Sys2Proof Sys2Proof.Machine

/-! ## Encodings (R93 to R103) -/

/-- O1. Every well-formed instruction, in every slot that has it, is read back from the words it is encoded as
(R97 to R103): no operand at any value the encoding admits is dropped. -/
def Obligations.DecodeEncode : Prop :=
  ∀ (i : Instr) (sl : Slot), i.wf → i.slotOk sl = true →
    ∃ w, encode i = w :: i.ext?.toList ∧ hasExt w = i.ext?.isSome ∧ decodeSlot sl w (i.ext?.getD 0) = .ok i

/-- O2. Every syllable the decoder accepts is the encoding of the instruction it reads, which is well formed and
belongs to the slot: reserved bits and unlisted codes are refused (R97, R99, R101, R103). -/
def Obligations.EncodeDecode : Prop :=
  ∀ (sl : Slot) (w n : Word) (i : Instr), decodeSlot sl w n = .ok i →
    i.wf ∧ i.slotOk sl = true ∧ encode i = w :: (if hasExt w then [n] else [])

/-- O3. A bundle of one instruction, as `decodeTableWord` numbers it (log 11), decodes to that instruction. -/
def Obligations.TableWordDecodes : Prop :=
  ∀ (i : Instr) (sl : Slot), i.wf → i.slotOk sl = true → decodeTableWord 192 (bundleBits sl i) = some i

/-- O4. Words the spec writes out: the header, S0 and S1 syllables of its listings decode to what it says. -/
def Obligations.WordsOfTheSpec : Prop :=
  decodeSlot .s0 0x0100040481000000 0 = .ok (.add 0 4 (.reg 4) (.imm 1)) ∧
  decodeSlot .s0 0x1800000900000066 0 = .ok (.mts 0 0x066 (.reg 9)) ∧
  decodeSlot .s1 0x2400003E00000000 0 = .ok (.ret 0 62) ∧
  decodeSlot .s1 0x28000D00FFFFFF38 0 = .ok (.loop 0 13 0xFFFFFF38) ∧
  decodeSlot .s1 0x2930008100000000 0 = .ok (.trap 3 (.imm 1))

/-- O5. R95: a header is valid only if its low bits are zero and its broadcast fields agree with BPS; one that is
not, and a REP greater than 0 in a bundle that contains a one-shot operation, raises ILLEGAL. That S0 is the slot that
detects a fault of the header is the model's choice (log 13). -/
def Obligations.HeaderValidity : Prop :=
  (∀ w : Word, isHeader w = true →
    ((∃ h, decodeHeader w = .ok h) ↔
      field w 0 16 = 0 ∧
      (field w 45 2 = 0 → field w 39 6 = 0 ∧ field w 23 16 = 0) ∧
      (field w 45 2 = 1 → field w 23 16 = 0) ∧
      (2 ≤ field w 45 2 → field w 39 6 = 0))) ∧
  (∀ (s : State) (k j : Nat) (pc w : Word), fetch s k j pc = .word w →
    ((∀ h, decodeHeader w ≠ .ok h) → fetchBundle s k j pc = .stop { fault := some (illegalAt pc .s0) } none) ∧
    (∀ h b, decodeHeader w = .ok h → fetchSlots s k j h [] Slot.all (pc + 8) = .bundle b →
      (h.rep ≠ 0 → b.ops.any (fun o => o.2.1.oneShot) = true →
        fetchBundle s k j pc = .stop { fault := some (illegalAt pc .s0) } (some b)) ∧
      ((h.rep = 0 ∨ b.ops.any (fun o => o.2.1.oneShot) = false) → fetchBundle s k j pc = .bundle b)))

/-! ## Steps -/

/-- O6. Every step keeps both memories in canonical form, from every state in which they are. -/
def Obligations.StepKeepsInv : Prop := ∀ s t : State, s.Inv → step s = .next t → t.Inv

/-- O7. Right after reset the invariant holds, with the tick, rates, thresholds, refund and bring-up stage the spec gives
(R46, R47, R289, R323, R354); no core is in use; and a context that starts has every register at zero, no flag, base
or trap register set, and nothing in flight (R21). -/
def Obligations.ResetState : Prop :=
  State.reset.Inv ∧ State.reset.now = 0 ∧ State.reset.rates = (64, 8, 1) ∧ State.reset.refund = 256 ∧
  (State.reset.heatLow, State.reset.heatHigh) = (85, 95) ∧ (State.reset.lLow, State.reset.lHigh) = (100, 105) ∧
  State.reset.boot.stage = 1 ∧ State.reset.boot.halted = false ∧ State.reset.cores = [] ∧ State.reset.regions = [] ∧
  (∀ k j, (State.reset.ctx k j).state = .empty) ∧
  (∀ (l : Launch) (n j ic : Nat) (pc : Word),
    let x := startCtx l n j pc ic
    (∀ r, x.bank.getS r = 0 ∧ x.bank.getV r = 0 ∧ (2 ≤ r → x.bank.physP r = 0)) ∧
    (∀ t r, x.bank.row t r = 0) ∧ x.bank.fpflags = 0 ∧ x.bank.rbase = 0 ∧ x.bank.acc = [] ∧
    x.trap = {} ∧ x.flight = [] ∧ x.queue = [] ∧ x.pc = pc ∧ x.lindex = n ∧ x.launch = l.id)

/-- O8. Every instruction and every event answers a next state in every state: none stops, none is refused. And so
does a step, but for a package whose bring-up has halted and to which nothing comes from outside: that one does nothing
more (R349). -/
def Obligations.ExecAnswers : Prop :=
  (∀ (i : Instr) (s : State), ∃ t, exec i s = .next t) ∧
  (∀ s : State, (∃ t, step s = .next t) ∨
    (s.boot.halted = true ∧ s.agenda = [] ∧ step s = .fault (.bootHalted s.boot.stage)))

/-- O9. No operation writes a byte of memory when it issues, but ST, VST, VSTX, an arrival in its barrier cell, and the
end or passing of a lease (VACATE, HANDOVER); in particular none that only computes, branches, traps or queues. -/
def Obligations.NonStoringFrame : Prop :=
  ∀ (i : Instr) (s t : State), i.isEvent = false →
    (∀ g z r d b o, i ≠ .st g z r d b o) → (∀ g r d b o, i ≠ .vst g r d b o) → (∀ g y d b x o, i ≠ .vstx g y d b x o) →
    (∀ g c a, i ≠ .arrive g c a) → (∀ g u d a, i ≠ .vacate g u d a) → (∀ g d p a b, i ≠ .handover g d p a b) →
    exec i s = .next t → t.memories = s.memories

/-- O10. An event that is due is what the next step does (log 1). -/
def Obligations.StepTakesEvent : Prop :=
  ∀ (s : State) (i : Instr) (r : List Instr), s.agenda = i :: r → step s = exec i { s with agenda := r }

/-- O11. The step of a Running context runs the bundle at its program counter: it is fetched, looked at as a whole
and issued, and the move passes on; a wrong symbol in the fetched units is corrected first (R330), and where the
implementation's table walks take cycles, the core freezes for them (log 80). -/
def Obligations.StepRunsBundle : Prop :=
  ∀ (s : State) (k j : Nat) (b : Bundle),
    s.agenda = [] → s.boot.halted = false → s.turn = { core := k, phase := .run } →
    s.liveCores.contains k = true → (s.core k).frozen = false → (s.core k).stopped = false →
    (s.core k).gang = none → (s.core k).runningSlot = some j → (s.ctx k j).notBefore ≤ (s.core k).ic →
    (s.ctx k j).hold = none → (s.ctx k j).escNext = none →
    fetchBundle s k j (s.ctx k j).pc = .bundle b →
    let u := checkFetch s k j (s.ctx k j).pc (.bundle b)
    let t := tryBundle u k (frameOf k j b (s.ctx k j).pc (s.ctx k j).rep false) b
      [{ core := k, slot := j, ops := (s.ctx k j).repOps b (s.ctx k j).rep }]
    step s = .next (passTurn (afterWalk s t k j)) ∧ (s.wrong = [] → u = s) ∧
    ((s.core k).walk = none → s.walks = [] → step s = .next (passTurn t))

/-- O12. A bundle of one operation that decodes, with nothing against it, is `exec` of that operation: in the state
in which the PC has moved past the bundle's words, with the issue counted after it. A view join of the bundle comes after
its loads and before its stores: the model's choice (log 57). -/
def Obligations.StepRunsDecoded : Prop :=
  (∀ (s : State) (k j : Nat) (pc hw w n : Word) (h : Header) (sl : Slot) (i : Instr),
    fetch s k j pc = .word hw → decodeHeader hw = .ok h → h.only = some sl → fetch s k j (pc + 8) = .word w →
    isHeader w = false → (hasExt w = true → fetch s k j (pc + 16) = .word n) → decodeSlot sl w n = .ok i →
    (h.rep = 0 ∨ i.oneShot = false) →
    fetchBundle s k j pc =
      .bundle { hdr := h, ops := [(sl, i, pc + 8)], next := if hasExt w then pc + 24 else pc + 16 }) ∧
  (∀ (s : State) (f : Issue) (b : Bundle) (k j : Nat) (o : SlotOp) (t : State),
    let m : Member := { core := k, slot := j, ops := [o] }
    let u := advancePc (countIssue s m) b f.hdr f.rep m
    let early := decide (passOf o.i < 2)
    let v := if b.hdr.vj && !early then joinViews f u m else u
    f.partner = false → fitsWindow s k (weightOf [o]) = true →
    (b.hdr.sp && f.rep == 0 && notDrained s m) = false → stopsHere s f b m = false → skewed s b.hdr m = false →
    issueChk s f b m = {} → ((s.ctx k j).rentLow = [] ∨ (s.ctx k j).trap.isIn = true) → s.issue.soft = none →
    exec o.i (atOp v { f with checked := true, soft := v.issue.soft } b.hdr m o) = .next t → t.issue.soft = none →
    tryBundle s k f b [m] =
      noteRan { finishIssue false (if b.hdr.vj && early then joinViews f t m else t) m with issue := {} } k b [o])

/-! ## The S class (R126 to R133) -/

/-- O13. The integer operations of R126: the result, with its latency, goes in flight, and nothing else changes. -/
def Obligations.ScalarResults : Prop :=
  ∀ (s : State) (g : BitVec 4) (d : BitVec 6) (a b : Sel),
    let x := s.src a
    let y := s.src b
    let n := y.toNat % 64
    Completes .nop s s ∧
    Completes (.add g d a b) s (s.landS 1 d (x + y)) ∧
    Completes (.sub g d a b) s (s.landS 1 d (x - y)) ∧
    Completes (.mul g d a b) s (s.landS 3 d (x * y)) ∧
    Completes (.mulh g false d a b) s (s.landS 4 d (BitVec.ofInt 64 (x.toInt * y.toInt / 2 ^ 64))) ∧
    Completes (.mulh g true d a b) s (s.landS 4 d (BitVec.ofNat 64 (x.toNat * y.toNat / 2 ^ 64))) ∧
    Completes (.and g d a b) s (s.landS 1 d (x &&& y)) ∧
    Completes (.or g d a b) s (s.landS 1 d (x ||| y)) ∧
    Completes (.xor g d a b) s (s.landS 1 d (x ^^^ y)) ∧
    Completes (.shl g d a b) s (s.landS 1 d (x <<< n)) ∧
    Completes (.shr g false d a b) s (s.landS 1 d (x >>> n)) ∧
    Completes (.shr g true d a b) s (s.landS 1 d (x.sshiftRight n)) ∧
    Completes (.rot g d a b) s (s.landS 1 d (x.rotateLeft n)) ∧
    Completes (.min g false d a b) s (s.landS 1 d (if x.toInt ≤ y.toInt then x else y)) ∧
    Completes (.min g true d a b) s (s.landS 1 d (if x.toNat ≤ y.toNat then x else y)) ∧
    Completes (.max g false d a b) s (s.landS 1 d (if x.toInt ≤ y.toInt then y else x)) ∧
    Completes (.max g true d a b) s (s.landS 1 d (if x.toNat ≤ y.toNat then y else x)) ∧
    Completes (.clz g d a) s (s.landS 1 d (if x = 0 then 64 else BitVec.ofNat 64 (63 - x.toNat.log2))) ∧
    Completes (.popc g d a) s
      (s.landS 1 d (BitVec.ofNat 64 ((List.range 64).filter (fun i => x.getLsbD i)).length))

/-- O14. R127: DIV and REM, signed and unsigned; a divisor of zero gives all ones and raises IDZ at the same landing,
at latency 20, and never traps. The fields are those of F3 with MOD 0 for `.s` and 1 for `.n`. -/
def Obligations.DivRem : Prop :=
  ∀ (s : State) (g : BitVec 4) (u : Bool) (d : BitVec 6) (a b : Sel),
    let x := s.src a
    let y := s.src b
    let ones := BitVec.allOnes 64
    let q : Word := if u then BitVec.ofNat 64 (x.toNat / y.toNat) else BitVec.ofInt 64 (x.toInt.tdiv y.toInt)
    let r : Word := if u then BitVec.ofNat 64 (x.toNat % y.toNat)
      else BitVec.ofInt 64 (x.toInt - x.toInt.tdiv y.toInt * y.toInt)
    (y ≠ 0 → Completes (.div g u d a b) s (s.land 20 [.s d.toNat q ones])) ∧
    (y ≠ 0 → Completes (.rem g u d a b) s (s.land 20 [.s d.toNat r ones])) ∧
    (y = 0 → Completes (.div g u d a b) s (s.land 20 [.s d.toNat ones ones, .flags 32])) ∧
    (y = 0 → Completes (.rem g u d a b) s (s.land 20 [.s d.toNat ones ones, .flags 32])) ∧
    (x.toInt = -2 ^ 63 → y.toInt = -1 → u = false → q = x ∧ r = 0) ∧
    (Instr.div g u d a b).fields = some (5, mod1 u, F3.pack { d := rcode d, a := a.code, b := b.code }) ∧
    (Instr.rem g u d a b).fields = some (6, mod1 u, F3.pack { d := rcode d, a := a.code, b := b.code })

/-- O15. CMP (R128): every bit of the pair's first predicate takes the condition, of its second the complement, at
latency 1 and under the names at issue. -/
def Obligations.CompareResults : Prop :=
  ∀ (s : State) (g : BitVec 4) (c : Cond) (p : BitVec 3) (a b : Sel),
    let x := s.src a
    let y := s.src b
    let holds : Prop := match c with
      | .eq => x = y
      | .ne => x ≠ y
      | .lt => x.toInt < y.toInt
      | .le => x.toInt ≤ y.toInt
      | .ltn => x.toNat < y.toNat
      | .len => x.toNat ≤ y.toNat
    let rb := s.me.bank.rbase
    let ones := BitVec.allOnes 128
    let res (m n : Pred) : State :=
      s.land 1 [.p (pphys rb (2 * p.toNat)) m ones, .p (pphys rb (2 * p.toNat + 1)) n ones]
    (holds → Completes (.cmp g c p a b) s (res ones 0)) ∧ (¬ holds → Completes (.cmp g c p a b) s (res 0 ones))

/-- O16. R129: SEL takes Src(A) where bit 0 of the predicate C is 1 and Src(B) elsewhere, at latency 1; with the
guard's bit 0 clear nothing is written. A C outside 0x00 to 0x0F is refused. -/
def Obligations.SelectResult : Prop :=
  (∀ (s : State) (g : BitVec 4) (d : BitVec 6) (c : BitVec 4) (a b : Sel),
    ((s.pred c).getLsbD 0 = true → Completes (.sel g d c a b) s (s.landS 1 d (s.src a))) ∧
    ((s.pred c).getLsbD 0 = false → Completes (.sel g d c a b) s (s.landS 1 d (s.src b))) ∧
    (s.issue.checked = true → (s.pred g).getLsbD 0 = false → exec (.sel g d c a b) s = .next s)) ∧
  (∀ (sl : Slot) (w n : Word) (i : Instr), sl.cls = .s → field w 56 6 = 0x11 → decodeSlot sl w n = .ok i →
    field w 16 8 < 16)

/-- O17. LI and LEA (R130): the source, and the source plus the other shifted left, at latency 1. -/
def Obligations.LoadImmediate : Prop :=
  ∀ (s : State) (g : BitVec 4) (d : BitVec 6) (a b : Sel) (sh : BitVec 6),
    Completes (.li g d a) s (s.landS 1 d (s.src a)) ∧
    Completes (.lea g d a b sh) s (s.landS 1 d (s.src a + (s.src b <<< sh.toNat)))

/-- O18. A result put in flight changes the issuing context's list of flights and nothing else: no register, flag,
special register, other context or byte of memory (R12, R105). It is due its latency later. -/
def Obligations.LandFrame : Prop :=
  ∀ (s : State) (lat : Nat) (ls : List Land),
    let t := s.land lat ls
    let f : Flight := { due := s.myCore.ic + lat, at_ := s.myCore.ic, slot := s.issue.slot.num, lands := ls
                        partner := s.issue.partner }
    (∀ k j, t.ctx k j =
      if k = s.issue.core ∧ j = s.issue.ctx then { s.ctx k j with flight := addFlight (s.ctx k j).flight f }
      else s.ctx k j) ∧
    (∀ k, { t.core k with ctx := (s.core k).ctx } = s.core k) ∧
    { t with cores := s.cores } = s

/-- O19. What a landing writes: the named register's masked bits, and nothing else. s0, p0 and p1 discard the write
(R19, R105). -/
def Obligations.LandingWrites : Prop :=
  ∀ (s : State) (k j : Nat),
    (∀ r v m, ∃ b, applyLand k j s (.s r v m) = s.updCtx k j (fun x => { x with bank := b }) ∧
      (∀ n, b.getS n = if n = r ∧ r ≠ 0 then ((s.ctx k j).bank.getS r &&& ~~~m) ||| (v &&& m)
        else (s.ctx k j).bank.getS n) ∧ { b with s := (s.ctx k j).bank.s } = (s.ctx k j).bank) ∧
    (∀ r v m, ∃ b, applyLand k j s (.p r v m) = s.updCtx k j (fun x => { x with bank := b }) ∧
      (∀ n, b.physP n = if n = r ∧ r ≠ 0 ∧ r ≠ 1 then ((s.ctx k j).bank.physP r &&& ~~~m) ||| (v &&& m)
        else (s.ctx k j).bank.physP n) ∧ { b with p := (s.ctx k j).bank.p } = (s.ctx k j).bank) ∧
    (∀ r v m, ∃ b, applyLand k j s (.v r v m) = s.updCtx k j (fun x => { x with bank := b }) ∧
      (∀ n, b.physV n = if n = r then mergeV ((s.ctx k j).bank.physV r) v m else (s.ctx k j).bank.physV n) ∧
      { b with v := (s.ctx k j).bank.v } = (s.ctx k j).bank) ∧
    (∀ f, applyLand k j s (.flags f) = s.updCtx k j (fun x => { x with
      bank := { x.bank with fpflags := x.bank.fpflags ||| BitVec.ofNat 64 (f.toNat % 64) } }))

/-- O20. s0 reads zero, p0 all ones and p1 all zeros, whatever the bank holds (R19). -/
def Obligations.HardwiredRegisters : Prop :=
  ∀ (b : Bank) (x : Word) (p : Pred),
    b.getS 0 = 0 ∧ b.physP 0 = BitVec.allOnes 128 ∧ b.physP 1 = 0 ∧ b.getP 0 = BitVec.allOnes 128 ∧ b.getP 1 = 0 ∧
    b.setS 0 x = b ∧ b.setP 0 p = b ∧ b.setP 1 p = b

/-- O21. The landing events: the due results of a context land in the order in which they stand, each where no other
context of the core has results due; the value of an MTS goes before a result of its cycle that stands earlier; what is
not due stays in flight (R12, R104, R105, R112). -/
def Obligations.Landings : Prop :=
  ∀ (s : State) (k j : Nat) (load : Bool),
    let x := s.ctx k j
    let ic := (s.core k).ic
    let ev : Instr := if load then .timedLoadLanding k j else .resultLanding k j
    exec ev s = .next (landRun s k j load) ∧
    (∀ l, s.landFlights k j l = (l.flatMap (fun f => f.lands)).foldl (applyLand k j)
      ((s.updCtx k j (fun y => { y with undo := some (noteUndo (s.core k) y l) })).updCore k
        (fun c => c.noteLands j (l.flatMap (fun f => f.lands))))) ∧
    (j < 4 → (∀ i, i < 4 → i ≠ j → s.dueFlights k i = []) →
      (∀ l r, x.flight = l ++ r → l ≠ [] → (∀ f ∈ r, ic < f.due) →
        (∀ f ∈ l, f.due ≤ ic ∧ f.load = load ∧ f.poison = none ∧ ∀ y ∈ f.lands, y.isLocal = true ∧ y.isMts = false) →
        exec ev s = .next ((s.updCtx k j (fun y => { y with flight := r })).landFlights k j l)) ∧
      (∀ (f g : Flight) (n : Nat) (v : Word), load = false → x.flight = [f, g] → f.due ≤ ic → g.due ≤ ic →
        f.load = false → g.load = false → f.poison = none → g.poison = none → n < 0x800 → g.lands = [.mts n v] →
        (∀ y ∈ f.lands, y.isLocal = true ∧ y.isMts = false) →
        let g' := { g with lands := [] }
        let t := (s.updCtx k j (fun y => { y with flight := [f, g'] })).landFlights k j [g]
        exec ev s = .next ((t.updCtx k j (fun y => { y with flight := [] })).landFlights k j [f, g'])) ∧
      ((∀ f ∈ x.flight, ic < f.due) → exec ev s = .next s))

/-- O22. LD (R131): the bytes at the effective address, zero-extended, land the larger of ARRIVAL and the minimum of
R112 after the issue; no byte of memory changes. Without poison, held stores or unjoined views the bytes are those
of memory at the device-physical addresses of the range, as they stand at the issue: the model's choice (log 4). -/
def Obligations.LoadResult : Prop :=
  ∀ (s : State) (g : BitVec 4) (sz : BitVec 2) (acq : Bool) (d base : BitVec 6) (arr : BitVec 12) (off : Off),
    let k := s.issue.core
    let w := s.who k s.issue.ctx
    let a := (s.ea base (offVal off)).toNat
    let n := 2 ^ sz.toNat
    Issues (.ld g sz acq d base arr off) s →
    ∃ (t : State) (v : Word) (late : List Ticket) (po : Option Nat), exec (.ld g sz acq d base arr off) s = .next t ∧
      t.memories = s.memories ∧
      t.me.bank = s.me.bank ∧
      t.me.flight = addFlight s.me.flight
        { due := s.myCore.ic + max arr.toNat (rangeMin s k w .bundle a n), at_ := s.myCore.ic
          slot := s.issue.slot.num, lands := .s d.toNat v (BitVec.allOnes 64) :: acquireLand acq, load := true
          poison := po, arrive := late, partner := s.issue.partner } ∧
      (isHitik k = false → s.poison = [] → s.me.held = [] → s.myCore.xview = [] →
        po = none ∧ v = BitVec.ofNat 64 (ofBytes (readRange s k w .bundle a n)) ∧
        (∀ h, segsOf s k w .bundle false a n = [(a, h, n)] →
          v = BitVec.ofNat 64 (ofBytes (Memory.bytes s.mem h.dpa n))))

/-- O23. ST (R131): the low bytes of the data register go to the effective address. -/
def Obligations.StoreResult : Prop :=
  ∀ (s : State) (g : BitVec 4) (sz : BitVec 2) (rel : Bool) (d base : BitVec 6) (off : Off),
    Completes (.st g sz rel d base off) s
      (storeVa s s.issue.core s.issue.ctx (s.who s.issue.core s.issue.ctx) .bundle rel (s.ea base (offVal off)).toNat
        (toBytes (2 ^ sz.toNat) (s.me.bank.getS d.toNat).toNat))

/-- O24. What a store writes (R131, R132): every byte outside the segments of its range is unchanged (but for the
dirty map of its function, R311), and so is every register; a store into one 64-byte unit that is not held back, and
arrives without an uncorrectable error (R329), puts its bytes there. -/
def Obligations.StoreFrame : Prop :=
  ∀ (s : State) (k j : Nat) (w : Who) (p : Acc) (rel : Bool) (a : Nat) (bs : List Byte), s.Inv →
    let segs := segsOf s k w p true a bs.length
    let t := storeVa s k j w p rel a bs
    (∀ x, Outside x segs → s.noDirtyByte (s.fnOf w.launch) x → Memory.read t.mem x = Memory.read s.mem x) ∧
    t.hostMem = s.hostMem ∧
    (∀ m n, (t.ctx m n).bank = (s.ctx m n).bank ∧ (t.ctx m n).trap = (s.ctx m n).trap ∧
      (t.ctx m n).pc = (s.ctx m n).pc ∧ (t.ctx m n).flight = (s.ctx m n).flight) ∧
    (∀ h, segs = [(a, h, bs.length)] → s.badWrites = [] → (s.ctx k j).held = [] →
      (rel = true → (s.ctx k j).pendingStores = []) →
      (rel = false → h.kind = 0 →
        ∀ o ∈ (s.ctx k j).mine, o.issue < (s.ctx k j).issues → o.ranges.any (·.write) = false) →
      ∀ i (hi : i < bs.length), s.noDirtyByte (s.fnOf w.launch) (h.dpa + i) →
        Memory.read t.mem (h.dpa + i) = bs[i])

/-- O25. MFS reads the register at issue, MTS writes it at its landing, both at latency 1 (R133); a management register's
value takes effect in the cycle after (R352). What CTXID, PURSE, FREEZE, TAGS, SKEWNOW, FRAMEHOLD, TAILS, WPOS and CHSTAT hold
(R22, R41, R49, R115, R118, R119, R201, R203); and an MTS of a value that its register takes is read back from it, or
clears TFAULT, and leaves every other user register, every other context and memory as they are. That TAILS shows four
tails as three is the model's choice (log 88). -/
def Obligations.SystemRegisters : Prop :=
  (∀ (s : State) (g : BitVec 4) (d : BitVec 6) (n : BitVec 16) (a : Sel),
    (∀ v, sysRead s s.issue.core s.issue.ctx n.toNat = some v → Completes (.mfs g d n) s (s.landS 1 d v)) ∧
    Completes (.mts g n a) s (s.land 1 [.mts n.toNat (s.src a)]) ∧
    (∀ k j v, n.toNat < 0x800 → applyLand k j s (.mts n.toNat v) = mtsUser s k j n.toNat v) ∧
    (∀ k j v, 0x800 ≤ n.toNat →
      applyLand k j s (.mts n.toNat v) = { s with policy := s.policy ++ [(n.toNat, v)] } ∧
      (s.policy = [] → (applyLand k j s (.mts n.toNat v)).withPolicy = mtsMgmt s n.toNat v))) ∧
  (∀ (s : State) (k j : Nat), isHitik k = false →
    let c := s.core k
    let x := s.ctx k j
    let own := x.queue.filter (fun o => o.inst == x.inst)
    let bit_ (b : Bool) : Nat := if b then 1 else 0
    let gang : Nat × Nat := match c.gang with
      | some (first, n) => (k - first, n)
      | none => (0, 1)
    let tails := [0, 1, 2, 3].filter (fun i => (c.slot i).state != .empty && (c.slot i).tail.isSome)
    sysRead s k j 0x000 = some (BitVec.ofNat 64 (j + k % 48 * 2 ^ 2 + k / 48 * 2 ^ 8 + gang.1 * 2 ^ 12
      + (gang.2 - 1) * 2 ^ 17 + bit_ x.tail.isSome * 2 ^ 22 + bit_ (x.tail.any (·.deferred)) * 2 ^ 23
      + x.lindex * 2 ^ 32)) ∧
    sysRead s k j 0x004 = some (BitVec.ofNat 64 (s.purse x.launch)) ∧
    sysRead s k j 0x008 = some c.freeze ∧
    (∃ w, sysRead s k j 0x00A = some w ∧ field w 32 8 = (own.filter (fun o => !o.started)).length % 256 ∧
      (∀ i, i < 8 → (w.getLsbD i = true ↔ ∀ o ∈ own, i ∉ o.dsts)) ∧
      (∀ i, i < 16 → (w.getLsbD (8 + i) = true ↔ ∀ o ∈ own, 8 + i ∉ o.dsts))) ∧
    (own.all (·.started) = true → sysRead s k j 0x00B = some 0) ∧
    (∀ l o r, own = l ++ o :: r → l.all (·.started) = true → o.started = false →
      sysRead s k j 0x00B = some (BitVec.ofNat 64 (min 16 (x.issues - o.issue - 1)))) ∧
    (x.holds = [] → sysRead s k j 0x011 = some (BitVec.allOnes 64)) ∧
    (x.holds ≠ [] → ∃ h ∈ x.holds, sysRead s k j 0x011 = some h.start ∧
      ∀ y ∈ x.holds, h.start.toNat ≤ y.start.toNat) ∧
    (∃ w, sysRead s k j 0x012 = some w ∧ field w 4 2 = min 3 tails.length ∧
      (w.getLsbD 12 = true ↔ x.tfault = true ∧ x.tfaultFrom ≤ c.ic) ∧
      field w 16 4 = ((x.tail.map (fun t => min 15 t.depth)).getD 0) ∧
      (∀ i, i < 4 → (w.getLsbD i = true ↔ i ∈ tails)) ∧
      (∀ i, i < 4 → (w.getLsbD (8 + i) = true ↔
        x.tail = none ∧ i ∈ tails ∧ i ≠ j ∧ (c.slot i).tail.any (fun t => t.spawner == j) = true))) ∧
    (∀ n, n < 16 →
      let h := c.chn n
      sysRead s k j (0x020 + n) = some h.wpos ∧
      sysRead s k j (0x050 + n) = some (BitVec.ofNat 64 (h.done % 256 + h.queue.length * 2 ^ 8 + bit_ h.ep * 2 ^ 23
        + h.lstat * 2 ^ 24 + h.lcount % 2 ^ 32 * 2 ^ 32)))) ∧
  (∀ (s : State) (k j n : Nat) (v : Word), n < 0x800 → mtsUserOk n v = true →
    let t := mtsUser s k j n v
    (n ≠ 0x012 → mfsUser t k j n = some v) ∧
    (n = 0x012 → (t.ctx k j).tfault = ((s.ctx k j).tfault && !v.getLsbD 12)) ∧
    (∀ m, m ≠ n → mfsUser t k j m = mfsUser s k j m) ∧
    (∀ m i, (m ≠ k ∨ i ≠ j) → t.ctx m i = s.ctx m i) ∧
    (t.ctx k j).bank.s = (s.ctx k j).bank.s ∧ (t.ctx k j).bank.v = (s.ctx k j).bank.v ∧
    (t.ctx k j).bank.p = (s.ctx k j).bank.p ∧ (t.ctx k j).bank.t = (s.ctx k j).bank.t ∧
    (t.ctx k j).bank.acc = (s.ctx k j).bank.acc ∧ (t.ctx k j).pc = (s.ctx k j).pc ∧ t.memories = s.memories)

/-- O26. In a user context the numbers R133 gives no register, and every management register, raise ILLEGAL for MFS
and MTS; so does an MTS of a register all of whose fields are read-only: CTXID, LAUNCHID, NOW, CYCLE, PURSE, MSTAT, GOV,
TAGS, SKEWNOW, TRAPCAUSE, TRAPINFO, TRAPADDR, FRAMEHOLD, WPOS, CHSTAT, ARGPTR and SHAPE (R119, R133). -/
def Obligations.SystemRegisterPrivilege : Prop :=
  ∀ (s : State) (g : BitVec 4) (d : BitVec 6) (n : BitVec 16) (x : BitVec 6),
    isHitik s.issue.core = false → s.issue.checked = false → (s.pred g).getLsbD 0 = true →
    let none_ := (0x015 ≤ n.toNat ∧ n.toNat ≤ 0x01F) ∨ (0x06A ≤ n.toNat ∧ n.toNat ≤ 0x7FF) ∨ 0x800 ≤ n.toNat
    (none_ → exec (.mfs g d n) s = .next (s.raise s.illegal)) ∧
    let readOnly := n.toNat ≤ 0x005 ∨ n.toNat = 0x009 ∨ n.toNat = 0x00A ∨ n.toNat = 0x00B ∨ n.toNat = 0x00D ∨
      n.toNat = 0x00F ∨ n.toNat = 0x010 ∨ n.toNat = 0x011 ∨ (0x020 ≤ n.toNat ∧ n.toNat < 0x030) ∨
      (0x050 ≤ n.toNat ∧ n.toNat < 0x062)
    (none_ ∨ readOnly → exec (.mts g n (.reg x)) s = .next (s.raise s.illegal))

/-- O27. An MTS of WATCHTO or FPFLAGS with a reserved bit set, or with a reserved rounding mode, raises ILLEGAL
(R83, R225). -/
def Obligations.ReservedWriteIllegal : Prop :=
  ∀ (s : State) (g : BitVec 4) (x : BitVec 6),
    isHitik s.issue.core = false → s.issue.checked = false → (s.pred g).getLsbD 0 = true →
    let v := s.me.bank.getS x.toNat
    (field v 32 32 ≠ 0 → exec (.mts g 0x013 (.reg x)) s = .next (s.raise s.illegal)) ∧
    (field v 11 21 ≠ 0 ∨ field v 6 2 ≠ 0 ∨ 4 ≤ field v 8 3 →
      exec (.mts g 0x006 (.reg x)) s = .next (s.raise s.illegal))

/-! ## Control (R33 to R40, R137 to R149) -/

/-- O28. The branches and calls of R137 and R138: the link is the next bundle's address at latency 1, the target the
header plus the displacement or a register read at issue, and the call depth of a tail moves. -/
def Obligations.Branches : Prop :=
  ∀ (s : State) (g : BitVec 4) (d a : BitVec 6) (disp : BitVec 32),
    let t := s.issue.hdr + disp.signExtend 64
    let r := s.me.bank.getS a.toNat
    let depth (f : Nat → Nat) : State :=
      s.updMe (fun x => { x with tail := x.tail.map (fun y => { y with depth := f y.depth }) })
    Completes (.br g d disp) s ((s.landS 1 d s.issue.next).branchTo t) ∧
    Completes (.bri g d a) s ((s.landS 1 d s.issue.next).branchTo r) ∧
    Completes (.call g disp) s (((depth (· + 1)).landS 1 62 s.issue.next).branchTo t) ∧
    Completes (.calli g a) s (((depth (· + 1)).landS 1 62 s.issue.next).branchTo r) ∧
    Completes (.ret g a) s ((depth (· - 1)).branchTo r)

/-- O29. A taken branch outside a gang: the PC is the target, sticky state is reset, the target issues three cycles
on, and no register, flag or byte of memory changes; a target that is not 8-aligned or is no header raises TARGET
after the bundle, with the target as the resume point (R106, R107, R138). That one whose own fetch faults raises TARGET
too is the model's choice (log 83). -/
def Obligations.BranchTaken : Prop :=
  ∀ (s : State) (t : Word) (n : Nat), s.myCore.gang = none →
    let u := s.updMe (fun x => { x with
      pc := t, notBefore := s.myCore.ic + n, sticky := [], rep := 0, target := true })
    (badTarget u s.issue.core s.issue.ctx t = false → s.branchTo t n = u) ∧
    (badTarget u s.issue.core s.issue.ctx t = true →
      s.branchTo t n = enterTrap u s.issue.core s.issue.ctx (s.myCore.ic + 1) s.issue.partner
        { cause := .target, addr := t, slot := s.issue.slot.num } t 0) ∧
    (∀ k j, field t 0 3 ≠ 0 → badTarget u k j t = true)

/-- O30. LOOP (R139): the count goes down by one, the register bases rotate, and the branch is taken unless the count
is then zero. -/
def Obligations.LoopResult : Prop :=
  ∀ (s : State) (g : BitVec 4) (d : BitVec 6) (disp : BitVec 32),
    let c := s.me.bank.getS d.toNat - 1
    let t := s.issue.hdr + disp.signExtend 64
    let u := s.land 1 [.s d.toNat c (BitVec.allOnes 64), .rotate]
    (c = 0 → Completes (.loop g d disp) s u) ∧
    (c ≠ 0 → Completes (.loop g d disp) s (u.branchTo t (if s.pinned t then 1 else 3))) ∧
    (∀ b : Word, field (rotated b) 0 5 = (field b 0 5 + 31) % 32 ∧ field (rotated b) 8 2 = (field b 8 2 + 3) % 4 ∧
      field (rotated b) 16 16 = (field b 16 16 + 1) % 65536 ∧ field (rotated b) 5 3 = field b 5 3 ∧
      field (rotated b) 10 6 = field b 10 6 ∧ field (rotated b) 32 32 = field b 32 32)

/-- O31. The tail forms (R36 to R40, R140): HANDBACK gives the tail to the lowest Empty slot while the core has fewer
than three tails, and defers it elsewhere; TAILEND ends a tail or resumes the caller; JOINTAIL writes its pair from
TFAULT and clears it, and is an acquire (R245). A tail has a copy of its spawner's view at depth 0, the callee goes on at
s62 with a hold entry for a frame that is not empty; a deferred tail saves its caller's view, and its TAILEND brings it back
at the caller's s62. Where memory writes of the bundle itself are under way, both sides wait for them, and a caller that
does not wait finds the latches as the tail left them: the model's choices (logs 102, 103). -/
def Obligations.Tails : Prop :=
  (∀ (s : State) (g : BitVec 4) (p : BitVec 3),
    let u := (s.updMyCore (fun c => { c with latches := [] })).updMe (fun x => { x with sticky := [] })
    (∀ j, u.myCore.emptySlot = some j → u.myCore.tails.length ≠ 3 → Completes (.handback g) s (cloneTail u j)) ∧
    ((u.myCore.emptySlot = none ∨ u.myCore.tails.length = 3) → Completes (.handback g) s (deferTail u)) ∧
    (∀ t v, s.me.tail = some t → t.view = some v → Completes (.tailend g) s (resumeCaller s v)) ∧
    (∀ t, s.me.tail = some t → t.view = none → Completes (.tailend g) s
      ((s.updCtx s.issue.core t.spawner (fun x => { x with
        holds := x.holds.filter (fun h => h.slot != s.issue.ctx), joins := x.joins ++ s.ownWrites })).endCtx
          s.issue.core s.issue.ctx)) ∧
    Completes (.jointail g p) s
      (((s.land 1 (s.pairLands p (!s.me.tfault))).updMe (fun x => { x with
        tfault := false, wait := none, joins := [] })).acquired s.issue.core)) ∧
  (∀ (s : State) (j : Nat) (v : CallerView),
    let k := s.issue.core
    let i := s.issue.ctx
    let x := s.me
    let ops := s.me.pendingStores.map (fun n => (i, n))
    let waits (y : Ctx) : Ctx := if ops = [] then y else { y with state := .waiting, wait := some (.writes ops) }
    let sp := x.bank.getS 63
    let fp := x.bank.getS 61
    (j ≠ i → ∃ u : State, cloneTail s j = u.branchTo (x.bank.getS 62) ∧ u.memories = s.memories ∧
      u.ctx k j = waits {
        state := .ready, launch := x.launch, lindex := x.lindex, inst := s.nextId, bank := x.bank, pc := s.issue.next
        trap := { vec := x.trap.vec }, notBefore := s.myCore.ic + 1
        tail := some { depth := 0, spawner := i, deferred := false, view := none }
        flight := sharedFlight (s.ctx k j).flight ++ ownFlight x.flight
        queue := (s.ctx k j).queue, held := (s.ctx k j).held, issues := (s.ctx k j).issues
        staged := (s.ctx k j).staged, heldSeq := (s.ctx k j).heldSeq, fresh := x.fresh
        left := some ((s.ctx k j).inst, (s.ctx k j).bank) } ∧
      u.ctx k i = waits { x with
        holds := if sp.toNat < fp.toNat then x.holds ++ [{ slot := j, start := sp, stop := fp }] else x.holds } ∧
      (∀ m n, (m ≠ k ∨ (n ≠ i ∧ n ≠ j)) → u.ctx m n = s.ctx m n)) ∧
    (let t := deferTail s
     t.memories = s.memories ∧ (∀ m n, (m ≠ k ∨ n ≠ i) → t.ctx m n = s.ctx m n) ∧
     t.ctx k i = waits { x with
       inst := s.nextId, rentLow := [], escNext := none, trap := { vec := x.trap.vec }, pc := s.issue.next, sticky := []
       tail := some { depth := 0, spawner := i, deferred := true
                      view := some { bank := x.bank, trap := x.trap, flight := byDue (ownFlight x.flight), inst := x.inst
                                     rentLow := x.rentLow, escNext := x.escNext } } }) ∧
    (∃ u : State, resumeCaller s v = u.branchTo (v.bank.getS 62) ∧ u.memories = s.memories ∧
      u.ctx k i = waits { x with
        tail := none, inst := v.inst, rentLow := v.rentLow, escNext := v.escNext, bank := v.bank, trap := v.trap
        flight := v.flight ++ sharedFlight x.flight } ∧
      (ops = [] → (u.core k).latches = (s.core k).latches) ∧
      (∀ m n, (m ≠ k ∨ n ≠ i) → u.ctx m n = s.ctx m n)))

/-- O32. HALT (R141) ends its context: the slot becomes Empty; it waits while anything of it is unfinished. -/
def Obligations.HaltEnds : Prop :=
  ∀ (s : State) (g : BitVec 4),
    Completes (.halt g) s (s.endCtx s.issue.core s.issue.ctx) ∧
    (∀ k j, ((s.endCtx k j).ctx k j).state = .empty ∧ (s.endCtx k j).memories = s.memories) ∧
    (s.issue.checked = false → Issues (.halt g) s →
      s.myCore.gang = none ∧ s.me.tail = none ∧ s.myCore.tailsOf s.issue.ctx = [] ∧ s.me.flight = [] ∧ s.me.mine = [] ∧
      s.me.myHeld s.me.inst = [] ∧ s.myCore.hasCmd s.issue.ctx = false)

/-- O33. Gang control (R33, R35, R142): FUSE and REJOIN put the core in its gang with invalid latches and reset sticky
state, and DECOUPLE, with every member's guard set, ends it. That REJOIN goes on beside a tail of the core, which then
leaves Running since a gang never switches context (R34), is the model's choice (log 87). -/
def Obligations.GangControl : Prop :=
  ∀ (s : State) (g : BitVec 4) (n : BitVec 6),
    let u := s.updMe (fun x => { x with sticky := [], wait := none })
    let k := s.issue.core
    Completes (.fuse g n) s (u.updMyCore (fun c => { c with
      gang := some (k - k % 48 % n.toNat, n.toNat), latches := [] })) ∧
    Completes (.rejoin g) s (u.updMyCore (fun c => { c with
      gang := c.lastGang, lastGang := none, latches := [], last := 0
      ctx := c.ctx.map (fun p => if p.1 ≠ 0 ∧ p.2.state = .running then (p.1, { p.2 with state := .ready }) else p) })) ∧
    (s.isLead = true → (s.gangOf k).all (fun m => ((s.ctx m 0).bank.getP g.toNat).getLsbD 0) = true →
      Completes (.decouple g) s ((s.gangOf k).foldl (fun t m => leaveGang t m s.issue.next) s)) ∧
    ((s.isLead = false ∨ (s.gangOf k).all (fun m => ((s.ctx m 0).bank.getP g.toNat).getLsbD 0) = false) →
      Completes (.decouple g) s s)

/-- O34. R149: TRAP raises SOFT after its bundle, with Src(A)<31:0> as TCODE and the next bundle as the resume point;
its fields are those of R149, and `(p3) trap 1` is the word the rule gives. -/
def Obligations.SoftwareTrap : Prop :=
  (∀ (s : State) (g : BitVec 4) (a : Sel), s.myCore.gang = none →
    Completes (.trap g a) s (enterTrap s s.issue.core s.issue.ctx (s.myCore.ic + 1) s.issue.partner
      { cause := .soft, addr := 0, slot := 1, tcode := field (s.src a) 0 32 } s.issue.next 0)) ∧
  (∀ (g : BitVec 4) (a : Sel), (Instr.trap g a).fields = some (0x29, 0, F3.pack { a := a.code })) ∧
  encode (.trap 3 (.imm 1)) = [0x2930008100000000]

/-- O35. TRAP in a gang: rank 0 takes the SOFT trap, and another member notes the first TCODE for it (R34, R149). -/
def Obligations.SoftwareTrapGang : Prop :=
  ∀ (s : State) (g : BitVec 4) (a : Sel),
    (s.isLead = true → Completes (.trap g a) s (s.softTrap s.issue.core s.issue.ctx (s.src a))) ∧
    (s.isLead = false → s.issue.soft.isSome = true → Completes (.trap g a) s s) ∧
    (s.isLead = false → s.issue.soft = none →
      Completes (.trap g a) s { s with issue := { s.issue with soft := some (s.issue.core, s.src a) } })

/-- O36. Taking a trap (R146) outside a handler and with TRAPVEC set, where no landing of this cycle is to be undone:
the trap registers, the snapshot, invalid latches, reset sticky state, and the PC at TRAPVEC, whose first bundle
issues three cycles after the trap cycle; a fault of a tail also sets its spawner's TFAULT, which shows from the cycle after
(R39); no register of the bank and no byte of memory changes. That TRAPPC takes an address without its low bits is the
model's choice (log 82). -/
def Obligations.TrapEntry : Prop :=
  ∀ (s : State) (k j f : Nat) (flt : Flt) (pc : Word) (rep grank : Nat) (other : Bool),
    (s.ctx k j).undo = none → (s.ctx k j).trap.isIn = false → (s.ctx k j).trap.vec ≠ 0 →
    let t := enterTrap s k j f false flt pc rep grank other
    let x := s.ctx k j
    t.memories = s.memories ∧ (t.core k).latches = [] ∧
    (((x.tail = none ∨ flt.cause = .soft ∨ flt.cause = .brk)) →
      t.ctx k j = { x with
        snap := some { flight := x.flight.map (fun y => { y with due := y.due - f }), latches := (s.core k).latches
                       sticky := x.sticky, rep := rep, pc := pc
                       srstate := BitVec.ofNat 64 (field x.bank.fpflags 32 32) }
        trap := { x.trap with isIn := true, cause := flt.cause.code, pc := pc &&& ~~~7
                              info := trapInfo flt rep grank other, addr := flt.addr, pcWritten := false }
        sticky := [], flight := [], rep := 0, pc := x.trap.vec, notBefore := f + 3, wait := none, undo := none
        badPages := [], blocked := false, target := false } ∧
      (∀ m n, (m ≠ k ∨ n ≠ j) → t.ctx m n = s.ctx m n)) ∧
    (∀ tl, x.tail = some tl → flt.cause ≠ .soft → flt.cause ≠ .brk →
      (t.ctx k tl.spawner).tfault = true ∧
      ((s.ctx k tl.spawner).tfault = false → (t.ctx k tl.spawner).tfaultFrom = f + 1) ∧ (t.ctx k j).pc = x.trap.vec ∧ (t.ctx k j).trap.isIn = true ∧
      (t.ctx k j).trap.cause = flt.cause.code ∧ (t.ctx k j).bank = x.bank)

/-- O37. R147: a trap taken while IN = 1 or TRAPVEC = 0 escalates: the context waits for Hitik with its state kept,
its bank and trap registers as they were, and the report goes to Hitik; no other context is stopped. -/
def Obligations.Escalation : Prop :=
  ∀ (s : State) (k j f : Nat) (flt : Flt) (pc : Word) (rep grank : Nat) (other : Bool),
    isHitik k = false → (s.ctx k j).undo = none → ((s.ctx k j).trap.isIn = true ∨ (s.ctx k j).trap.vec = 0) →
    let t := enterTrap s k j f false flt pc rep grank other
    (t.ctx k j).state = .waiting ∧ (t.ctx k j).wait = some .escalated ∧
    (t.ctx k j).bank = (s.ctx k j).bank ∧ (t.ctx k j).trap = (s.ctx k j).trap ∧
    (t.ctx k j).hold = some (saveBank s k j f false pc rep) ∧ (t.ctx k j).pc = pc ∧ (t.ctx k j).rep = rep ∧
    (∀ m n, (m ≠ k ∨ n ≠ j) → t.ctx m n = s.ctx m n) ∧ t.memories = s.memories ∧
    (∃ e : HEvent, t.hevents = s.hevents ++ [e] ∧ e.type = 1 ∧ e.cause = flt.cause.code ∧ e.resume = pc ∧
      e.addr = flt.addr)

/-- O38. ERET (R148) goes back to TRAPPC three issue cycles on, with IN cleared and the snapshot replayed: sticky state
and repetition are those of the snapshot unless MTS wrote TRAPPC; with IN = 0 it raises ILLEGAL, and it drains first. A
doubles partner leaves the core's latches as they are (R30). That a TRAPPC whose own fetch faults raises TARGET is the model's
choice (log 83). -/
def Obligations.TrapReturn : Prop :=
  ∀ (s : State) (g : BitVec 4),
    let k := s.issue.core
    let j := s.issue.ctx
    let u := returnFromTrap s k j
    ((u.isLead = false ∨ badTarget u k j (u.ctx k j).pc = false) → Completes (.eret g) s u) ∧
    (u.isLead = true → badTarget u k j (u.ctx k j).pc = true → Completes (.eret g) s
      (u.trap k j true u.issue.partner (u.flt .target (u.ctx k j).pc) (u.ctx k j).pc 0)) ∧
    (s.issue.checked = false → isHitik s.issue.core = false → (s.pred g).getLsbD 0 = true → s.me.trap.isIn = false →
      exec (.eret g) s = .next (s.raise s.illegal)) ∧
    (s.issue.checked = false → isHitik s.issue.core = false → (s.pred g).getLsbD 0 = true → s.me.trap.isIn = true →
      (s.me.flight ≠ [] ∨ s.me.mine ≠ []) → exec (.eret g) s = .next (s.countFreeze s.issue.core 16)) ∧
    (∀ k j b, (s.ctx k j).snap = some b →
      let x := (returnFromTrap s k j).ctx k j
      let y := s.ctx k j
      x.pc = y.trap.pc ∧ x.target = true ∧ x.trap = { y.trap with isIn := false } ∧ x.snap = none ∧ x.notBefore = (s.core k).ic + 3 ∧
      x.sticky = (if y.trap.pcWritten then [] else b.sticky) ∧ x.rep = (if y.trap.pcWritten then 0 else b.rep) ∧
      x.flight = y.flight ++ b.flight.map (fun f => { f with due := f.due + ((s.core k).ic + 3) }) ∧
      ((returnFromTrap s k j).core k).latches = (if s.issue.partner then (s.core k).latches else b.latches) ∧
      x.bank = { y.bank with fpflags := setField y.bank.fpflags 32 32 b.srstate.toNat })

/-- O39. The cause codes of R143, and the order of R122 in which one bundle's faults are reported. -/
def Obligations.CauseCodes : Prop :=
  [Cause.illegal, .target, .latch, .expired, .region, .xlate, .poison, .tailnest, .gang, .soft, .brk, .occupancy].map
      Cause.code = [1, 2, 3, 4, 5, 6, 7, 8, 9, 10, 11, 12] ∧
  (∀ a b : Flt, worse (some a) (some b) =
    if b.cause.rank < a.cause.rank ∨ (b.cause.rank = a.cause.rank ∧ b.slot < a.slot) then some b else some a) ∧
  Cause.rank .target < Cause.rank .brk ∧ Cause.rank .brk < Cause.rank .illegal ∧
  Cause.rank .illegal < Cause.rank .latch ∧ Cause.rank .latch < Cause.rank .gang ∧
  Cause.rank .gang = Cause.rank .tailnest ∧ Cause.rank .gang < Cause.rank .xlate ∧
  Cause.rank .xlate = Cause.rank .region ∧ Cause.rank .region = Cause.rank .expired ∧
  Cause.rank .expired < Cause.rank .occupancy ∧ Cause.rank .occupancy < Cause.rank .poison ∧
  Cause.rank .poison < Cause.rank .soft

/-- O40. A fault of one operation cancels its bundle (R121): alone outside a gang, the trap is taken at the bundle's
header in its own cycle, and nothing of the operation takes effect; a fault that a bad table or a poisoned unit has
caused is also counted and reported (R307, R330). -/
def Obligations.FaultCancels : Prop :=
  ∀ (i : Instr) (s : State) (f : Flt), i.isEvent = false → s.issue.checked = false → s.myCore.gang = none →
    (opChk i (checkOf i) s).stall = none → (opChk i (checkOf i) s).fault = some f →
    let u := (match f.ue with
      | some a => s.countUe a
      | none => s).report f.report
    exec i s = .next (enterTrap u s.issue.core s.issue.ctx s.myCore.ic s.issue.partner f s.issue.hdr s.issue.rep)

/-! ## Rented storage (R46 to R66, R218, R219) -/

/-- O41. The rent forms: each acts on the region its address names, at latency 4 (HANDOVER 1); a success puts its value
in the scalar and sets pP, a failure puts its status there and sets pP + 1 (R54, R218). Where RENEW could report LIMIT and
PURSE it reports LIMIT, and a HANDOVER that waits for nothing reports SYNC, NOSUCC or its success; one that writes of its own
bundle hold back is held behind them: the model's choices (logs 15, 102). -/
def Obligations.RentForms : Prop :=
  ∀ (s : State) (g : BitVec 4) (d : BitVec 6) (p : BitVec 3) (a b c : Sel),
    let n := (s.src b).toNat
    let a0 := (s.src a).toNat
    (∀ (tier kind sp : BitVec 2) (ls rlt : Bool),
      let e := rentEffect s tier.toNat kind.toNat ls rlt sp.toNat a0 n (s.src c)
      Completes (.rent g tier kind ls rlt sp d p a b c) s (e.1.landRent 4 d p e.2.1 e.2.2)) ∧
    (∀ lat st v, s.landRent lat d p st v = s.land lat
      (.s d.toNat (BitVec.ofNat 64 (if st = 0 then v else st)) (BitVec.allOnes 64) :: s.pairLands p (st == 0))) ∧
    (∀ w, leaseAt s s.whoMe a0 = some w → Completes (.lease g d a) s (s.landS 4 d w)) ∧
    (∀ r, s.ownAt s.whoMe a0 = .own r →
      (let cost := (r.len + Config.granule r.tier - 1) / Config.granule r.tier * Config.granule r.tier * n * s.rate r.tier
       let limit := n = 0 ∨ 2 ^ 40 < n ∨ 2 ^ 48 - 1 < r.until_ + n
       let purse := 2 ^ 64 ≤ cost ∨ s.purse r.owner < cost
       (limit → Completes (.renew g d p a b) s (s.landRent 4 d p 4 0)) ∧
       (¬limit → purse → Completes (.renew g d p a b) s (s.landRent 4 d p 1 0)) ∧
       (¬limit → ¬purse → Completes (.renew g d p a b) s
         (((s.updRegion r.id (fun x => { x with until_ := x.until_ + n, rlow := false })).updLaunch r.owner
           (fun l => { l with purse := l.purse - cost })).landRent 4 d p 0 (r.until_ + n)))) ∧
      (let e := prepayEffect s r (field (s.src b) 0 32) (field (s.src b) 32 32) (s.src c).toNat
       Completes (.prepay g d p a b c) s (e.1.landRent 4 d p e.2 0)) ∧
      (∀ (l : Bool) (gr : BitVec 6),
        let w := s.me.bank.getS gr.toNat
        let t := (s.src c).toNat
        (subletStatus s r l a0 n t w ≠ 0 →
          Completes (.sublet g l gr d p a b c) s (s.landRent 4 d p (subletStatus s r l a0 n t w) 0)) ∧
        (∀ x, subletStatus s r l a0 n t w = 0 → s.granteeOf r l w = some x →
          Completes (.sublet g l gr d p a b c) s
            (((s.updRegion r.id (fun y => { y with subs := y.subs ++
                [{ base := a0, len := n, until_ := t, grantee := x, toLaunch := l }] })).land 4
              [.sublet r.id a0 n t x l]).landRent 4 d p 0 a0))) ∧
      (let refund := (r.until_ - s.now - 1) * r.len * s.rate r.tier * s.refund / 256
       Completes (.vacate g false d a) s
         (((endRegion s r).updLaunch r.owner (fun l => { l with purse := l.purse + refund })).landS 4 d
           (BitVec.ofNat 64 refund)) ∧
       Completes (.vacate g true d a) s
         (((r.subs.filter (fun u => u.base == a0)).foldl (fun s u => endSublet s r u) s).landS 4 d 0)) ∧
      (∀ st l, handoverStatus s s.me.quiet r (s.src b) = some (st, some l) →
        Completes (.handover g d p a b) s ((passRegion s r l).landRent 1 d p st 0)) ∧
      (∀ st, handoverStatus s s.me.quiet r (s.src b) = some (st, none) →
        Completes (.handover g d p a b) s (s.landRent 1 d p st 0)) ∧
      (handoverStatus s s.me.quiet r (s.src b) = none →
        Completes (.handover g d p a b) s (waitHandover s r (s.src b) (s.src a) d p)))

/-- O42. RENT (R48, R54, R55): a failure changes nothing; a success draws the charge of R48 from the purse, takes one
region of whole granules paid until NOW + ticks, with the issuing context as its renter, and frees no byte and writes
none. -/
def Obligations.RentEffect : Prop :=
  ∀ (s : State) (tier kind sp bytes ticks : Nat) (ls rlt : Bool) (c : Word),
    let e := rentEffect s tier kind ls rlt sp bytes ticks c
    let g := Config.granule tier
    let cost := (bytes + g - 1) / g * g * ticks * s.rate tier
    let l := s.me.launch
    (e.2.1 ≠ 0 → e.1 = s ∧ e.2.2 = 0) ∧
    (e.2.1 = 0 → cost < 2 ^ 64 ∧ cost ≤ s.purse l ∧ e.1.purse l = s.purse l - cost ∧ e.1.memories = s.memories ∧
      e.1.cores = s.cores ∧
      ∃ r : Region, e.1.regions = s.regions ++ [r] ∧ r.base = e.2.2 ∧ r.len = (bytes + g - 1) / g * g ∧
        r.owner = l ∧ r.renter = s.me.lindex ∧ r.renterLaunch = l ∧ r.renterInst = s.me.inst ∧ r.renterAt = (s.issue.core, s.issue.ctx) ∧ r.until_ = s.now + ticks ∧
        r.tier = tier ∧ r.kind = kind ∧ r.launchScope = ls ∧ r.rltrap = rlt ∧ r.subs = [] ∧ r.prepay = none)

/-- O43. The end of a lease (R63, R66): the region is gone, and every byte of its granules reads as scrubbed, so no
access returns data from an earlier lease; the end of a sublet keeps the region. -/
def Obligations.LeaseEnd : Prop :=
  (∀ (s : State) (r : Region),
    let t := endRegion s r
    (∀ x ∈ t.regions, x.id ≠ r.id) ∧
    (∀ q ∈ r.pieces, ∀ a, q.1 ≤ a → a < q.1 + q.2 → Memory.read t.mem a = 0)) ∧
  (∀ (s : State) (r : Region) (u : Sublet),
    (endSublet s r u).regions.map (fun x => (x.id, x.base, x.len, x.until_)) =
      s.regions.map (fun x => (x.id, x.base, x.len, x.until_)))

/-- O44. The events of the rent clock (R57, R58, R63, R66, R224): a due prepay order renews before expiry, or is
cancelled with a rent-low event; a lease ends at its paid-until tick and not before it. -/
def Obligations.RentClock : Prop :=
  ∀ (s : State) (n : Nat),
    (∀ (r : Region) (o : Prepay), s.region? n = some r → r.prepay = some o →
      let cost := (r.len + Config.granule r.tier - 1) / Config.granule r.tier * Config.granule r.tier * o.step
        * s.rate r.tier
      let fits := cost < 2 ^ 64 ∧ cost ≤ s.purse r.owner ∧ cost ≤ o.ceiling ∧ r.until_ + o.step ≤ 2 ^ 48 - 1
      (o.margin ≤ r.until_ - s.now → exec (.prepayRenewal n) s = .next s) ∧
      (r.until_ - s.now < o.margin → fits → exec (.prepayRenewal n) s = .next
        ((s.updRegion n (fun x => { x with
          until_ := x.until_ + o.step, prepay := some { o with ceiling := o.ceiling - cost } })).updLaunch r.owner
          (fun l => { l with purse := l.purse - cost }))) ∧
      (r.until_ - s.now < o.margin → ¬fits → exec (.prepayRenewal n) s = .next
        (rentLow (s.updRegion n (fun x => { x with prepay := none })) r))) ∧
    (∀ r : Region, s.region? n = some r →
      (r.prepay = none → r.rlow = false → r.until_ - s.now < s.rlowm →
        exec (.rentLowEvent n) s = .next (rentLow s r)) ∧
      (r.prepay ≠ none ∨ r.rlow = true ∨ s.rlowm ≤ r.until_ - s.now → exec (.rentLowEvent n) s = .next s) ∧
      (n < 2 ^ 40 → exec (.leaseExpiry n none) s = .next (if r.until_ ≤ s.now then endRegion s r else s)) ∧
      (n < 2 ^ 40 → ∀ i u, r.subs[i]? = some u →
        exec (.leaseExpiry n (some i)) s = .next (if u.until_ ≤ s.now then endSublet s r u else s))) ∧
    (∀ k j, exec (.rentLowTrap k j) s = .next (if (s.ctx k j).trap.isIn then s else takeRentLow s k j false)) ∧
    exec (.scrubComplete n) s = .next { s with scrubs := s.scrubs.filter (· != n) } ∧
    (∀ k j, exec (.watchTimeout k j) s = .next (if (s.ctx k j).timedOut s.now then wakeWatch s k j else s))

/-! ## Waiting and ordering (R220 to R226) -/

/-- O45. Barriers, watches and fences: BARINIT binds and unbinds at latency 2, an arrival goes up by one and changes the
phase at EXP, WAIT and WATCH land the half their wait ended with, and are acquires where it is the good one, and a release
or full FENCE holds later accesses back only behind earlier ACCST and TST writes, queued reads to come and what is held back
already: the model's choice, whose other stores are visible at once (log 3). One of scope `.pod` sends its flits first, on a
lane of the model's choice (log 19). -/
def Obligations.Waiting : Prop :=
  ∀ (s : State) (g : BitVec 4) (sc : Scope) (p : BitVec 3) (a b c : Sel),
    let k := s.issue.core
    let n := (s.src a).toNat
    let at_ := (s.src b).toNat
    let count := (s.src c).toNat
    let inst := scopeInst sc.code.toNat k
    let m := s.barNum sc a
    let o := if sc = .pod then (sendFlits s 1 0 s.routes).1 else s
    (∀ x, s.barrier? s.me.launch sc.code.toNat k n = some x → x.broken = false →
      (count = 0 → Completes (.barinit g sc p a b c) s
        (s.land 2 (.barUnbind sc.code.toNat inst s.me.launch n :: s.pairLands p true))) ∧
      (count ≠ 0 → Completes (.barinit g sc p a b c) s (s.land 2 (s.pairLands p false)))) ∧
    (s.barrier? s.me.launch sc.code.toNat k n = none →
      (count = 0 ∨ 65535 < count ∨ at_ % 8 ≠ 0 →
        Completes (.barinit g sc p a b c) s (s.land 2 (s.pairLands p false))) ∧
      (∀ h, count ≠ 0 → count ≤ 65535 → at_ % 8 = 0 → xlate s (s.who k s.issue.ctx) at_ true = .hit h →
        h.tier = 1 → h.region ≠ none → Completes (.barinit g sc p a b c) s
          (s.land 2 (.barBind sc.code.toNat inst s.me.launch n at_ count :: s.pairLands p true)))) ∧
    Completes (.barbase g sc a b) s (s.land 2 [.barBase sc.code.toNat n at_]) ∧
    (s.me.pendingStores = [] → s.me.myHeld s.me.inst = [] → Completes (.arrive g sc a) s
      (countArrival o k s.issue.ctx s.me.inst sc.code.toNat inst s.me.launch m)) ∧
    (s.me.pendingStores ≠ [] ∨ s.me.myHeld s.me.inst ≠ [] → Completes (.arrive g sc a) s
      (holdEff o k s.issue.ctx s.me.pendingStores (.arrive sc.code.toNat inst s.me.launch m))) ∧
    (∀ x, s.barriers.find? (fun y => y.sc == sc.code.toNat && y.inst == inst && y.launch == s.me.launch && y.n == m) =
        some x → x.broken = false → s.Inv →
      let t := countArrival s k s.issue.ctx s.me.inst sc.code.toNat inst s.me.launch m
      (s.badWrites = [] → Memory.bytes t.mem x.dpa 8 = toBytes 8 (cellArrive (s.unitWord x.dpa)).toNat) ∧
      (∀ v, within v x.dpa 8 = false → Memory.read t.mem v = Memory.read s.mem v) ∧
      Tbl.find t.me.bank.arrGen (genKey sc.code.toNat m) = some (field (s.unitWord x.dpa) 32 32)) ∧
    (∀ w : Word, field w 0 16 ≠ 0 → field w 16 16 < field w 0 16 →
      cellArrive w = if field w 16 16 + 1 = field w 0 16
        then BitVec.ofNat 64 ((field w 32 32 + 1) % 2 ^ 32 * 2 ^ 32 + field w 0 16)
        else w + 0x10000) ∧
    (let ok := s.me.waitRes.getD true
     Completes (.wait g sc p a) s (((if ok then o.acquired k else o).land 1 (s.pairLands p ok)).updMe (fun x => { x with
       wait := none, bank := { x.bank with arrGen := Tbl.erase x.bank.arrGen (genKey sc.code.toNat m) } })) ∧
     (∀ w : WatchOf, Completes (.watch g p w b) s
       (((if ok then watchAcquires w s else s).land 1 (s.pairLands p ok)).updMe (fun x => { x with wait := none })))) ∧
    (∀ kinds dir,
      let t := if dir = 2 then o else o.acquired k
      let after := o.fenced kinds dir
      (after = [] → dir = 1 ∨ s.me.myHeld s.me.inst = [] → Completes (.fence g sc kinds dir) s t) ∧
      (after ≠ [] ∨ (dir ≠ 1 ∧ s.me.myHeld s.me.inst ≠ []) → Completes (.fence g sc kinds dir) s
        (holdEff t k s.issue.ctx after (.fence kinds.toNat (dir != 2)))) ∧
      (dir ≠ 1 → ∀ n ∈ s.me.pendingStores, n ∈ after) ∧
      (s.me.mine = [] → after = []))

/-! ## The V class (R150 to R172) -/

/-- O46. Vector arithmetic, element by element, at the latency of R152; the result goes to the guarded bytes of the
register and, whole, to the slot's latch, with the flags of the active elements (R111, R150, R153 to R156, R160, R163,
R164). -/
def Obligations.VectorArithmetic : Prop :=
  ∀ (s : State) (g : BitVec 4) (t : Ty) (rc : Rc) (sat np nc : Bool) (d : VDst) (a b c : Sel),
    let m := s.pred g
    let w := t.width
    let md := rcMode rc (rmOf s.me.bank.fpflags) 0
    let x := s.vsrc t a
    let y := s.vsrc t b
    let z := s.vsrc t c
    let f := s.vsrc .f32 a
    let put1 (lat : Nat) (h : Nat → Nat × Flags) : State := s.landV lat g d (gather m w w ((elems w x).map h))
    let putF (lat : Nat) (h : Nat → Nat × Flags) : State := s.landV lat g d (gather m 32 32 ((elems 32 f).map h))
    let put2 (lat : Nat) (h : Nat → Nat → Nat × Flags) : State :=
      s.landV lat g d (gather m w w (List.zipWith h (elems w x) (elems w y)))
    let put3 (lat : Nat) (h : Nat → Nat → Nat → Nat × Flags) : State :=
      s.landV lat g d (gather m w w (List.zipWith (fun u v => h u v.1 v.2) (elems w x) ((elems w y).zip (elems w z))))
    Completes (.vadd g t rc sat d a b) s (put2 2 (vaddE t rc sat s)) ∧
    Completes (.vsub g t rc sat d a b) s (put2 2 (vsubE t rc sat s)) ∧
    Completes (.vmul g t rc sat d a b) s (put2 4 (vmulE t rc sat s)) ∧
    Completes (.vfma g t rc np nc d a b c) s (put3 4 (fmaC t md np nc)) ∧
    Completes (.vmin g t d a b) s (put2 2 (minMaxE t false)) ∧
    Completes (.vmax g t d a b) s (put2 2 (minMaxE t true)) ∧
    Completes (.vabs g t sat d a) s (put1 2 (vabsE t sat)) ∧
    Completes (.vshl g t d a b) s (put2 2 (vshlE t)) ∧
    Completes (.vshr g t d a b) s (put2 2 (vshrE t)) ∧
    Completes (.vmulh g t d a b) s (put2 4 (intOp2 t false (fun u v => u * v / 2 ^ w))) ∧
    Completes (.vclamp g t d a b c) s (put3 2 (vclampE t)) ∧
    Completes (.vrnd g t rc d a) s (put1 3 (vrndE t md)) ∧
    Completes (.vclass g t d a) s (put1 2 (vclassE t)) ∧
    Completes (.vrsqe g d a) s (putF 3 (seed true)) ∧
    Completes (.vrcpe g d a) s (putF 3 (seed false)) ∧
    Completes (.vexp2 g rc d a) s (putF 6 (exp2C md)) ∧
    Completes (.vlog2 g rc d a) s (putF 6 (log2C md)) ∧
    (∀ lat v q, s.landV lat g d (v, q) = s.land lat
      ((if d.ws then [] else [.v (vphys s.me.bank.rbase d.r.toNat) v m])
        ++ (if s.issue.partner then [] else [.latch (s.issue.slot.num - 2) v])
        ++ (if q = 0 then [] else [.flags (BitVec.ofNat 64 q)]))) ∧
    Completes (.vdot4 g t rc d a b c) s (s.landV 4 g d (gather m 32 32
      (List.zipWith (fun z (p : List Nat × List Nat) => dotE t md z p.1 p.2) (elems 32 (s.vsrc (dotType t) c))
        ((fours (elems w x)).zip (fours (elems w y))))))

/-- O47. Integer elements (R153, R155): exact, then modulo 2^w, or clamped with `.sat`; counts of w or more shift
everything out; no integer operation raises a flag. -/
def Obligations.IntegerElements : Prop :=
  ∀ (s : State) (t : Ty) (rc : Rc) (sat : Bool) (a b c : Nat), t.isInt = true →
    a < 2 ^ t.width → b < 2 ^ t.width → c < 2 ^ t.width →
    let w := t.width
    let val (x : Nat) : Int := if t.isSigned = true ∧ 2 ^ (w - 1) ≤ x then (x : Int) - 2 ^ w else x
    let low : Int := if t.isSigned = true then -2 ^ (w - 1) else 0
    let high : Int := if t.isSigned = true then 2 ^ (w - 1) - 1 else 2 ^ w - 1
    let wrap (q : Bool) (x : Int) : Nat × Flags := (((if q then max low (min high x) else x) % 2 ^ w).toNat, 0)
    vaddE t rc sat s a b = wrap sat (val a + val b) ∧
    vsubE t rc sat s a b = wrap sat (val a - val b) ∧
    vmulE t rc sat s a b = wrap sat (val a * val b) ∧
    intOp2 t false (fun x y => x * y / 2 ^ w) a b = wrap false (val a * val b / 2 ^ w) ∧
    minMaxE t false a b = (if val a ≤ val b then a else b, 0) ∧
    minMaxE t true a b = (if val a ≤ val b then b else a, 0) ∧
    vclampE t a b c = wrap false (min (max (val a) (val b)) (val c)) ∧
    vabsE t sat a = wrap sat (if val a < 0 then -val a else val a) ∧
    vshlE t a b = (if w ≤ b then 0 else a * 2 ^ b % 2 ^ w, 0) ∧
    (b < w → vshrE t a b = wrap false (val a / 2 ^ b)) ∧
    (w ≤ b → vshrE t a b = (if val a < 0 then 2 ^ w - 1 else 0, 0)) ∧
    (vmulE t rc false s a b).1 = a * b % 2 ^ w

/-- O48. Bits, moves, permutations and predicates (R155, R158, R161, R167 to R169): whole patterns at the latency of
R152, without flags; a predicate operation changes the bits its guard sets, and PCNT the bytes of its scalar. -/
def Obligations.VectorMoves : Prop :=
  ∀ (s : State) (g : BitVec 4) (t : Ty) (d : VDst) (a b : Sel),
    let w := t.width
    let x := s.vsrc t a
    let res (lat : Nat) (v : Vec) : State := s.landV lat g d (v, 0)
    let wide := elems (widerTy t).width (s.vsrc (widerTy t) a) ++ elems (widerTy t).width (s.vsrc (widerTy t) b)
    let idx : Vec := s.vsrc (if w = 8 then .n8 else if w = 16 then .n16 else if w = 32 then .n32 else .n64) b
    let rot := elem w 0 idx % (1024 / w)
    Completes (.vand g t d a b) s (res 2 (x &&& s.vsrc t b)) ∧
    Completes (.vor g t d a b) s (res 2 (x ||| s.vsrc t b)) ∧
    Completes (.vxor g t d a b) s (res 2 (x ^^^ s.vsrc t b)) ∧
    (∀ c : BitVec 4, Completes (.vsel g t d c a b) s (res 2 (mergeV (s.vsrc t b) x (s.pred c)))) ∧
    Completes (.vmov g t d a) s (res 2 x) ∧
    Completes (.vidx g t d) s (res 2 (ofElems w (List.range (1024 / w)))) ∧
    Completes (.vperm g t d a b) s
      (res 3 (ofElems w ((elems w idx).map (fun j => if j < 1024 / w then elem w j x else 0)))) ∧
    Completes (.vrot g t d a b) s
      (res 3 (ofElems w ((List.range (1024 / w)).map (fun i => elem w ((i + rot) % (1024 / w)) x)))) ∧
    Completes (.vpack g t false d a b) s (res 3 (ofElems w (wide.map (fun v => v % 2 ^ w)))) ∧
    Completes (.vpack g t true d a b) s
      (res 3 (ofElems w (wide.map (fun v => codeOf t (clampInt t (intOf (widerTy t) v)))))) ∧
    (∀ hi : Bool, Completes (.vunpack g t hi d a) s (res 3 (ofElems w
      ((((elems (narrowerTy t).width (s.vsrc (narrowerTy t) a)).drop (if hi then 1024 / w else 0)).take
        (1024 / w)).map (fun v => codeOf t (intOf (narrowerTy t) v)))))) ∧
    (∀ (na nb : Bool) (q i j : BitVec 4),
      let u := if na then ~~~s.pred i else s.pred i
      let v := if nb then ~~~s.pred j else s.pred j
      let pr (r : Pred) : State := s.land 1 [.p (pphys s.me.bank.rbase q.toNat) r (s.pred g)]
      Completes (.pand g na nb q i j) s (pr (u &&& v)) ∧ Completes (.por g na nb q i j) s (pr (u ||| v)) ∧
      Completes (.pxor g na nb q i j) s (pr (u ^^^ v))) ∧
    (∀ (r : BitVec 6) (i : BitVec 4), Completes (.pcnt g t r i) s (s.land 3 [.s r.toNat
      (BitVec.ofNat 64 ((List.range (1024 / w)).filter (fun e => (s.pred i).getLsbD (e * w / 8))).length)
      ((spread (s.pred g)).extractLsb' 0 64)]))

/-- O49. Compares, conversions, block scales, reductions and top-k (R157, R159, R162, R165, R166), at the latency of
R152. A form that draws takes its draws for every element, active or not. -/
def Obligations.VectorConversions : Prop :=
  ∀ (s : State) (g : BitVec 4) (t u : Ty) (rc : Rc) (ns w : Bool) (d : VDst) (a b : Sel),
    let m := s.pred g
    let md := rcMode rc (rmOf s.me.bank.fpflags) 0
    (∀ (c : Cond) (p : BitVec 3),
      let l := List.zipWith (vcmpE t c) (elems t.width (s.vsrc t a)) (elems t.width (s.vsrc t b))
      let v := predOfElems t.width (l.map (·.1))
      let f := activeFlags m t.width 0 (l.map (fun x => (0, x.2)))
      Completes (.vcmp g t c p a b) s (s.land 2 ([.p (s.pair p).1 v m, .p (s.pair p).2 (~~~v) m]
        ++ (if f = 0 then [] else [.flags (BitVec.ofNat 64 f)])))) ∧
    (let q := s.draws rc (cvtCount t u)
     Completes (.vcvt g t u rc ns d a) s (q.1.landV 3 g d (gather m t.width u.width
      (convAll t u rc (rmOf s.me.bank.fpflags) ns q.2 ((elems u.width (s.vsrc u a)).take (cvtCount t u)))))) ∧
    (let r := (chunk 8 128 (elems t.width (s.vsrc t a)).zipIdx).map (fun l =>
        blkMax t ((l.filter (fun x => active m t.width x.2)).map (·.1)))
     Completes (.vblkmax g t d a) s (s.landV 2 g d
      (ofElems t.width (r.flatMap (fun x => List.replicate 8 x.1)), r.foldl (fun f x => f ||| x.2) 0))) ∧
    Completes (.vscale g u d a b) s (s.landV 3 g d (gather m 8 (8 * u.width)
      (List.zipWith (scaleE u) (eighths (elems u.width (s.vsrc u a))) (eighths (elems u.width (s.vsrc u b)))))) ∧
    (let q := s.draws rc (1024 / u.width)
     Completes (.vquant g t u rc ns d a b) s (q.1.landV 4 g d (gather m t.width u.width
      ((elems u.width (s.vsrc u a)).zipIdx.map (fun x =>
        quantE t u (rcMode rc (rmOf s.me.bank.fpflags) (drawAt q.2 x.2)) ns (elem 8 (x.2 / 8) (s.vsrc .n8 b)) x.1))))) ∧
    (let r := redSum t w md m (s.vsrc t a)
     Completes (.vredsum g t rc w d a) s (s.landV 8 g d (ofElems (sumType t w).width [r.1], r.2))) ∧
    (let r := redMax t m (s.vsrc t a)
     Completes (.vredmax g t d a) s (s.landV 6 g d (ofElems t.width [r.1], r.2))) ∧
    (∀ (k : BitVec 7) (init : Bool) (e : BitVec 6) (c : BitVec 4),
      let bk := s.me.bank
      let r := topk t k.toNat init (bk.getV e.toNat) (bk.getV (e + 1).toNat) (s.vsrc t a)
        (s.vsrc (if t = .f32 then .n32 else .n16) b) (s.pred c)
      Completes (.vtopk g t k init e c a b) s
        (s.land 12 (s.vlands g ⟨false, e⟩ r.1 0 ++ [.v (vphys bk.rbase (e + 1).toNat) r.2 m]))) ∧
    ((s.draws rc (cvtCount t u)).1.memories = s.memories ∧ (s.draws rc (cvtCount t u)).1.me.bank.s = s.me.bank.s)

/-- O50. Vector loads and stores (R108, R170, R171): the guarded bytes at the effective address, or at the addresses of
the active elements; a load lands by its ARRIVAL, and a byte its guard or its mask leaves out keeps its value. -/
def Obligations.VectorMemory : Prop :=
  ∀ (s : State) (g : BitVec 4) (t : Ty) (d base xv : BitVec 6) (arr : BitVec 12) (sel : Sel) (f : Bool) (off : Off)
    (ofx : OffX),
    let ea := s.me.bank.getS base.toNat + offVal off + s.stepped
    let rs := (runs (s.pred g)).map (fun r => ((ea + BitVec.ofNat 64 r.1).toNat, r.1, r.2))
    let l := s.vxElems g t base xv ofx
    Completes (.vld g f d base arr off) s (s.flyVec f rs arr 0 d (s.pred g)) ∧
    Completes (.vldx g t d base arr xv ofx) s (s.flyVec false (elemRuns t l) arr 2 d (s.pred g &&& elemMask t l)) ∧
    Completes (.vst g f sel base off) s (storeRuns s f (s.vsrc .n8 sel) rs) ∧
    Completes (.vstx g t sel base xv ofx) s (storeRuns s false (s.vsrc .n8 sel) (guardedRuns (s.pred g) t l)) ∧
    (∀ acq rs' mask n, (s.flyVec acq rs' arr n d mask).memories = s.memories) ∧
    (∀ rel v r rs', storeRuns s rel v [] = s ∧ storeRuns s rel v (r :: rs') =
      storeRuns (storeVa s s.issue.core s.issue.ctx (s.who s.issue.core s.issue.ctx) .bundle rel r.1
        (((vecBytes v).drop r.2.1).take r.2.2)) rel v rs') ∧
    (∀ rel v rs' m n, let t := storeRuns s rel v rs'
      (t.ctx m n).bank = (s.ctx m n).bank ∧ (t.ctx m n).trap = (s.ctx m n).trap ∧ (t.ctx m n).pc = (s.ctx m n).pc) ∧
    (∀ p : Pred, ∀ i, i < 128 → (p.getLsbD i = true ↔ ∃ r ∈ runs p, r.1 ≤ i ∧ i < r.1 + r.2))
/-! ## The T and M classes (R116, R117, R173 to R196) -/

/-- O51. Tile operations: TRD, TRMAX and TRSUM land the tile's rows at issue, TWAIT only waits, and the others enter the
context's queue with their operands as they stand, their destination's tag clear from then on and nothing else
changed (R117, R189 to R196). -/
def Obligations.TileOperations : Prop :=
  ∀ (s : State) (g : BitVec 4) (t u : Ty) (rc : Rc) (ns : Bool) (d q : BitVec 3) (r : BitVec 6) (a b c : Sel),
    let md := rcMode rc (rmOf s.me.bank.fpflags) 0
    let dst := [tileTag d.toNat]
    let src := [tileTag q.toNat]
    let op (i : Instr) : QOp := { id := 0, i := i, dsts := dst }
    Completes (.tld g d r b) s (s.stage { op (.tld g d r b) with
      a := s.me.bank.getS r.toNat + 0 + s.stepped, b := s.src b }) ∧
    Completes (.tst g d r b) s (s.stage { op (.tst g d r b) with
      a := s.me.bank.getS r.toNat + 0 + s.stepped, b := s.src b, srcs := dst }) ∧
    Completes (.trd g q r b) s (s.land 3
      [.v (vphys s.me.bank.rbase r.toNat) (s.me.bank.row q.toNat ((s.src b).toNat % 32)) (BitVec.allOnes 128)]) ∧
    Completes (.twr g d r b) s (s.stage { op (.twr g d r b) with b := s.src b, vec := s.me.bank.getV r.toNat }) ∧
    Completes (.ttr g t d q) s (s.stage { op (.ttr g t d q) with srcs := src }) ∧
    (∀ m, Completes (.tmask g t m d a b c) s (s.stage { op (.tmask g t m d a b c) with
      a := s.src a, b := s.src b, c := s.src c, srcs := dst })) ∧
    Completes (.trmax g t q r) s (s.landTile 4 r (tileReduce t (minMaxF .f32 true) (s.me.bank.rows q.toNat))) ∧
    Completes (.trsum g t rc q r) s (s.landTile 6 r (tileReduce t (addC .f32 md) (s.me.bank.rows q.toNat))) ∧
    Completes (.texp g t rc d q r) s (s.stage { op (.texp g t rc d q r) with vec := s.me.bank.getV r.toNat, srcs := src }) ∧
    Completes (.trscl g t rc d q r) s
      (s.stage { op (.trscl g t rc d q r) with vec := s.me.bank.getV r.toNat, srcs := src }) ∧
    (let e := s.draws rc (32 * cvtCount t u)
     Completes (.tcvt g t u rc ns d q) s (e.1.stage { op (.tcvt g t u rc ns d q) with draws := e.2, srcs := src })) ∧
    (∀ tm am, Completes (.twait g tm am) s s) ∧
    Completes (.tzero g d) s (s.stage (op (.tzero g d))) ∧
    (∀ o : QOp, s.stage o = s.updMe (fun x => { x with
      queue := x.queue ++ [{ o with id := x.staged, inst := x.inst, fence := x.heldSeq, issue := x.issues
                                    gid := s.issueKey, gang := s.myCore.gang, rm := rmOf x.bank.fpflags }]
      staged := x.staged + 1 })) ∧
    (∀ o : QOp, ∀ n ∈ o.dsts, (s.stage o).me.tag n = false)

/-- O52. Matrix and accumulator operations enter the queue with their operands, their binding and their bank formats as
they stand; ACCDEF also changes the name's binding at issue; RINGQ lands the ring word (R173 to R188). -/
def Obligations.MatrixOperations : Prop :=
  ∀ (s : State) (g : BitVec 4) (f : MFmt) (t : Ty) (rc : Rc) (n r : BitVec 4) (x y : MOp) (m8 n16 : BitVec 8)
    (k16 : BitVec 12) (pa pb z ns i32 dir : Bool) (v : BitVec 6) (d : BitVec 3) (a b c : Sel),
    let bd := s.binding n.toNat
    let acc := [accTag n.toNat]
    let op (i : Instr) : QOp := { id := 0, i := i, bind_ := bd, dsts := acc }
    let near (isB : Bool) : Tbl Word := (s.core (ringCore true s.issue.core s.myCore.gang isB)).bankfmt
    let rows := (s.src b).toNat
    let cols := (s.src c).toNat
    let newBind : Option AccBind := if s.src a = 0 ∧ rows = 0 ∧ cols = 0 then none else
      some { base := (s.src a).toNat, rows := rows, cols := cols, i32 := i32, dpa := s.dpaHere (s.src a).toNat }
    Completes (.ringset g r a b c) s (s.stage { id := 0, i := .ringset g r a b c, a := s.src a, b := s.src b
                                                c := s.src c, dsts := [ringTag r.toNat] }) ∧
    (let q := s.myCore.rng r.toNat
     Completes (.ringq g r v) s (s.landS 2 v
      (put [(63, b2n q.set), (48, q.slots), (40, q.tail), (32, q.head), (16, q.inuse), (0, q.full)]))) ∧
    Completes (.mma g f n x y m8 n16 k16 pa pb z) s (s.stage { op (.mma g f n x y m8 n16 k16 pa pb z) with
      fmts := s.myCore.bankfmt, fmtsB := s.myCore.bankfmt, srcs := [accTag n.toNat, mopTag x, mopTag y] }) ∧
    Completes (.mmag g f n x y m8 n16 k16 pa pb z) s (s.stage { op (.mmag g f n x y m8 n16 k16 pa pb z) with
      fmts := near false, fmtsB := near true, srcs := s.mmaSrcs true n x y }) ∧
    Completes (.accdef g i32 n a b c) s
      ((s.stage { op (.accdef g i32 n a b c) with bind_ := newBind }).updMe (fun x =>
        { x with bank := { x.bank with acc := Tbl.set x.bank.acc n.toNat newBind } })) ∧
    Completes (.accz g n) s (s.stage (op (.accz g n))) ∧
    Completes (.accld g t n a b) s (s.stage { op (.accld g t n a b) with a := s.src a, b := s.src b }) ∧
    (let e := s.draws rc ((bd.map (fun x => x.rows * x.cols)).getD 0)
     Completes (.accst g t rc ns n a b) s (e.1.stage { op (.accst g t rc ns n a b) with
      a := s.src a, b := s.src b, draws := e.2, srcs := acc })) ∧
    (dir = true → Completes (.accmv g t dir rc ns n d a b) s (s.stage { op (.accmv g t dir rc ns n d a b) with
      a := s.src a, b := s.src b, srcs := tileTag d.toNat :: acc })) ∧
    (dir = false →
      let e := s.draws rc (32 * (1024 / t.width))
      Completes (.accmv g t dir rc ns n d a b) s (e.1.stage { op (.accmv g t dir rc ns n d a b) with
        a := s.src a, b := s.src b, draws := e.2, dsts := [tileTag d.toNat], srcs := acc })) ∧
    Completes (.accscl g n v b) s (s.stage { op (.accscl g n v b) with
      b := s.src b, vec := s.me.bank.getV v.toNat, srcs := acc }) ∧
    Completes (.accbias g n v b) s (s.stage { op (.accbias g n v b) with
      b := s.src b, vec := s.me.bank.getV v.toNat, srcs := acc })

/-- O53. The life of a queued operation (R117, R176, R189, R304): a ready one starts, reads what it reads then and keeps
its writes; where a page is missing it does what comes before that byte, and waits, or stops there where no page can be
asked for; it goes on from that byte; a started one completes with its writes applied, once its rings let it pop, and leaves its queue; the others stay as they are. -/
def Obligations.QueuedOperations : Prop :=
  ∀ (s : State) (k j n : Nat),
    (s.op? k j n = none → exec (.queuedOpStart k j n) s = .next s ∧ exec (.queuedOpComplete k j n) s = .next s) ∧
    (∀ o, s.op? k j n = some o →
      (opReady s k j o = false → exec (.queuedOpStart k j n) s = .next s) ∧
      (let held := firstHeld s k (s.who k j) (skipRngs o.ranges o.done) o.done
       (opReady s k j o = true → held = none →
         let u := upTo s k j o o.bytes
         exec (.queuedOpStart k j n) s = .next (u.1.setOp k j
           { u.2 with started := true, page := none, writes := u.2.first, first := [] })) ∧
       (∀ m a w f q, opReady s k j o = true → held = some (m, a, .miss f q w) →
         (s.noPages f = false →
           let u := upTo s k j o m
           let r := requestPage u.1 f q w
           exec (.queuedOpStart k j n) s = .next (r.1.setOp k j
             { u.2 with started := true, page := some (r.2, m, a, w) })) ∧
         (s.noPages f = true → exec (.queuedOpStart k j n) s = .next (stopOp s k j o false m a)))) ∧
      (∀ m, let p := payOp s k j o m
        let u := startOp p.1 k j o o.done m
        upTo s k j o m = (u.1, { o with first := o.first ++ u.2, done := max m o.done, due := p.2 })) ∧
      (o.started = true → o.page = none → popsFree s o k = true →
        exec (.queuedOpComplete k j n) s = .next (s.finishOp k j o)) ∧
      (o.started = false ∨ o.page ≠ none ∨ popsFree s o k = false → exec (.queuedOpComplete k j n) s = .next s)) ∧
    (∀ o, ∀ p ∈ ((s.finishOp k j o).ctx k j).queue, p.id ≠ o.id) ∧
    (∀ t r v m, (applyQ k j (s.ctx k j).inst false s (.tileRow t r v m)).ctx k j =
      { s.ctx k j with bank := { (s.ctx k j).bank with
        t := Tbl.set (s.ctx k j).bank.t (32 * t + r) (mergeV ((s.ctx k j).bank.row t r) v m) } }) ∧
    (∀ o p : QOp, p ∈ (s.ctx k j).queue → p.inst = o.inst → p.issue < o.issue → p.started = false →
      s.mayStart k j o = false)

/-! ## The X class (R197 to R217, R227 to R235, R348) -/

/-- O54. Every X command enters its channel's queue at issue, with its operands as they stand, and does nothing else
then: no register, no byte of memory and no write position changes (R197, R198, R205). -/
def Obligations.CommandIssue : Prop :=
  (∀ (s : State) (g ch : BitVec 4) (e : BitVec 2) (op : BitVec 5) (pace : BitVec 12) (d : XDst) (v : BitVec 6)
    (n : BitVec 5) (f : Bool) (kind : BitVec 2) (x : Word) (o : Option Word) (a b c : Sel),
    let q (i : Instr) : Prop := Completes i s (enqueue i ch s)
    q (.xcopy g e ch pace d b c o) ∧ q (.xgather g e ch pace d b v n) ∧ q (.xscatter g e ch pace a b v n) ∧
    q (.xacc g op e ch pace a b c) ∧ q (.xfetch g op e ch a b c) ∧ q (.xcas g e ch a b c x) ∧
    q (.xfill g e ch pace a b c) ∧ q (.xexpand g e ch pace d b c) ∧ q (.xsignal g op ch a b) ∧ q (.xorder g e ch b) ∧
    q (.kvalloc g ch a b) ∧ q (.kvfree g ch a) ∧ q (.kvshare g ch a b) ∧ q (.kvappend g f ch a b c) ∧
    q (.kvcommit g f ch a b) ∧ q (.kvget g ch pace d b c) ∧ q (.kvsum g ch a b c) ∧
    q (.xcoll g op kind e ch a b c x)) ∧
  (∀ (s : State) (i : Instr) (ch : BitVec 4), ∃ (c : Cmd) (w : List (Nat × Nat)),
    enqueue i ch s = s.updChan s.issue.core ch.toNat (fun h => { h with
      queue := h.queue ++ [c], issued := h.issued + 1, after := w }) ∧
    c.i = i ∧ c.serial = (s.myCore.chn ch.toNat).issued ∧ c.a = (s.xargs i).a ∧ c.b = (s.xargs i).b ∧
    c.c = (s.xargs i).c ∧ c.x = (s.xargs i).x ∧ c.vec = (s.xargs i).vec ∧ c.launch = s.me.launch ∧
    c.lindex = s.me.lindex ∧ c.slot = s.issue.ctx ∧ c.inst = s.me.inst ∧ c.prog = {})

/-- O55. The life of a command (R200, R202 to R217, R317): it starts when it is at the head of its channel and nothing
orders it later, with the number of elements its operands give, or ends at once with what stands against it; it goes on
element by element, each reading and writing the addresses and the values its rule gives; and it completes with its status,
its count and its flags reported: a channel reports LCOUNT, LSTAT and DONE at each completion. A whole collective chooses its
form, and with every source there it forms (R348). That what a command asks of another package is answered after its flits,
and that members that disagree all end DESC, are the model's choices (logs 19, 31). -/
def Obligations.CommandEvents : Prop :=
  (∀ (s : State) (k ch : Nat),
    (cmdReady s k ch = false → exec (.commandStart k ch) s = .next s) ∧
    (s.headCmd k ch = none → exec (.commandElement k ch) s = .next s ∧ exec (.commandCompletion k ch) s = .next s) ∧
    (∀ c, s.headCmd k ch = some c →
      let es := esOf c.i
      let f := s.fnOf c.launch
      let starts (t : State) : Prop := exec (.commandStart k ch) s = .next t
      (cmdReady s k ch = true →
        (∀ g e x b, c.i = .xorder g e x b → starts (s.atOnce k ch c (if field c.b 16 48 ≠ 0 then 5 else 0) 0)) ∧
        (∀ g e x p d b n v, c.i = .xcopy g e x p d b n (some v) → starts (startPattern s k ch c)) ∧
        (∀ g e x p d b n, c.i = .xcopy g e x p d b n none → starts (s.beginRing k ch c (c.c.toNat / es))) ∧
        (∀ g e x p d b v n, c.i = .xgather g e x p d b v n → starts (s.beginRing k ch c (n.toNat + 1))) ∧
        (∀ g e x p a b v n, c.i = .xscatter g e x p a b v n → starts (s.beginRing k ch c (n.toNat + 1))) ∧
        (∀ g p e x q a b n, c.i = .xacc g p e x q a b n → starts (s.beginRing k ch c (c.c.toNat / es))) ∧
        (∀ g e x p a b n, c.i = .xfill g e x p a b n → starts (s.beginRing k ch c (c.c.toNat / es))) ∧
        (∀ g e x p d b n, c.i = .xexpand g e x p d b n → starts (s.beginRing k ch c (c.c.toNat / es))) ∧
        (∀ g p e x a b n, c.i = .xfetch g p e x a b n → starts (s.begin k ch c 1)) ∧
        (∀ g e x a b n v, c.i = .xcas g e x a b n v → starts (s.begin k ch c 1)) ∧
        (∀ g p x a b, c.i = .xsignal g p x a b → starts (s.begin k ch c 1)) ∧
        (∀ g p e z x a b n v, c.i = .xcoll g p e z x a b n v → starts (startColl s k ch c)) ∧
        ((startNames c.i c).findSome? (s.badTable f) = none → s.routes.contains (askedPkg s f c) = false →
          let badSeq := field c.b 52 12 ≠ 0
          let noLayer := s.layer f (field c.b 20 8) = none
          let live := s.kvLive f (field c.b 0 52)
          let one (r : State × Status) : State := r.1.atOnce k ch c r.2 (if r.2 = 0 then 1 else 0)
          (∀ g x a b, c.i = .kvalloc g x a b → starts (one (kvAlloc s f c.launch c.a c.b))) ∧
          (∀ g x a, c.i = .kvfree g x a → starts (one (kvFree s f c.a))) ∧
          (∀ g x a b, c.i = .kvshare g x a b → starts (one (kvShare s f c.a c.b))) ∧
          (∀ g r x a b, c.i = .kvcommit g r x a b →
            let t := kvCommit s f r c.a c.b
            starts (t.1.atOnce k ch c t.2.1 t.2.2)) ∧
          (∀ g v x a b n, c.i = .kvappend g v x a b n →
            (badSeq ∨ field c.b 28 24 ≠ 0 → starts (s.atOnce k ch c 9 0)) ∧
            (¬badSeq → field c.b 28 24 = 0 → noLayer → starts (s.atOnce k ch c 5 0)) ∧
            (¬badSeq → field c.b 28 24 = 0 → ¬noLayer → c.c = 0 ∨ 65536 < c.c.toNat → starts (s.atOnce k ch c 10 0)) ∧
            (¬badSeq → field c.b 28 24 = 0 → ¬noLayer → c.c ≠ 0 → c.c.toNat ≤ 65536 →
              starts (s.begin k ch c c.c.toNat (fun p => { p with p0 := (s.lengths f (field c.b 0 20)).2 })))) ∧
          (∀ g x p d b n, c.i = .kvget g x p d b n →
            let len := if c.c = 0 then 65536 else c.c.toNat
            (badSeq → starts (s.atOnce k ch c 9 0)) ∧
            (¬badSeq → noLayer → starts (s.atOnce k ch c 5 0)) ∧
            (¬badSeq → ¬noLayer → 65536 < c.c.toNat → starts (s.atOnce k ch c 10 0)) ∧
            (¬badSeq → ¬noLayer → c.c.toNat ≤ 65536 → live = none → starts (s.atOnce k ch c 9 0)) ∧
            (∀ y, ¬badSeq → ¬noLayer → c.c.toNat ≤ 65536 → live = some y →
              (s.kvReach y = false → starts (s.atOnce k ch c 3 0)) ∧
              (s.kvReach y = true → starts (s.beginRing k ch c (len / 128) (fun p => { p with
                p0 := if y.pkg = s.pkg then y.gbn + 1 else 0 }))))) ∧
          (∀ g x a b n, c.i = .kvsum g x a b n →
            (badSeq → starts (s.atOnce k ch c 9 0)) ∧
            (¬badSeq → noLayer → starts (s.atOnce k ch c 5 0)) ∧
            (¬badSeq → ¬noLayer → c.c = 0 ∨ 256 < c.c.toNat → starts (s.atOnce k ch c 10 0)) ∧
            (¬badSeq → ¬noLayer → c.c ≠ 0 → c.c.toNat ≤ 256 → starts (s.begin k ch c c.c.toNat))))) ∧
      (∀ n u,
        (s.begin k ch c n u).headCmd k ch = some { c with
          prog := u { c.prog with started := true, total := n, tick := s.now, page := none } } ∧
        (s.begin k ch c n u).memories = s.memories ∧
        (ringDst c.i = none → s.beginRing k ch c n u = s.begin k ch c n u) ∧
        (∀ r, ringDst c.i = some r → ((s.core k).rng r).set = false →
          s.beginRing k ch c n u = stopCmd s k ch c 11 0) ∧
        (∀ r, ringDst c.i = some r → ((s.core k).rng r).set = true →
          ((xCount c.i c.args).getD (n * es)) % ((s.core k).rng r).slotb ≠ 0 →
          s.beginRing k ch c n u = stopCmd s k ch c 5 0)) ∧
      (∀ st n, s.atOnce k ch c st n =
        stopCmd (s.updCmd k ch c.serial (fun c => { c with prog := { c.prog with started := true } })) k ch c st n ∧
        (stopCmd s k ch c st n).headCmd k ch = some { c with prog := { c.prog with stop := some (st, n) } } ∧
        (stopCmd s k ch c st n).agenda = .commandCompletion k ch :: s.agenda) ∧
      (∀ bytes segs, reach s k c false c.x.toNat bytes = .ok segs → poisonSegs s segs = none → tierUnits segs = [] →
        c.prog.due = [] →
        let r := readSegs (touchSegs s k c segs) k c segs
        (bytes = 128 →
          let d := { c with prog := { c.prog with desc := r.2 } }
          let t := r.1.updCmd k ch c.serial (fun c => { c with prog := { c.prog with desc := r.2 } })
          (patternOf r.2 es = none → startPattern s k ch c = stopCmd t k ch d 5 0) ∧
          (∀ p, patternOf r.2 es = some p → c.dead = [] → ringDst c.i = none →
            startPattern s k ch c = t.beginRing k ch d p.total)) ∧
        (bytes = 64 →
          let kind := (collKey c).1
          (collOf r.2 (kind == 3) = none → startColl s k ch c = stopCmd r.1 k ch c 5 0) ∧
          (∀ g nm rank root, collOf r.2 (kind == 3) = some (g, nm, rank, root) →
            (startColl s k ch c).memories = r.1.memories ∧
            ∃ y ∈ (startColl s k ch c).colls, y.fn = f ∧ y.group = g ∧ (rank, k, ch) ∈ y.members))) ∧
      (c.prog.started = false ∨ c.prog.stop ≠ none → exec (.commandElement k ch) s = .next s) ∧
      (∀ e, c.prog.started = true → c.prog.stop = none → c.prog.wants = none → s.nextElem c = some e →
        exec (.commandElement k ch) s = .next (elemStep s k ch c e)) ∧
      (∀ e rd old,
        let at_ (w : Word) (o : Nat) : Nat := (w + BitVec.ofNat 64 o).toNat
        let idx : Word := BitVec.ofInt 64 ((BitVec.ofNat 32 (elem 32 e c.vec)).toInt * es)
        let m := 2 ^ (8 * es)
        let val := elemValue s k ch c rd old
        let does (r : List (Nat × Nat)) (w : Nat) (v : Nat × Flags) : Prop :=
          elemReads s c e = r ∧ elemWrite s c e = some (w, es) ∧ val = v
        (∀ g z x p d b v n, c.i = .xgather g z x p d b v n → ringDst c.i = none →
          does [((c.b + idx).toNat, es)] (at_ c.a (e * es)) (rd, 0)) ∧
        (∀ g z x p a b v n, c.i = .xscatter g z x p a b v n →
          does [(at_ c.b (e * es), es)] (c.a + idx).toNat (rd, 0)) ∧
        (∀ g o z x p a b n, c.i = .xacc g o z x p a b n →
          does [(at_ c.b (e * es), es)] (at_ c.a (e * es)) (xaccNew o.toNat es old rd)) ∧
        (∀ g o z x a b n, c.i = .xfetch g o z x a b n →
          does [] (at_ c.a (e * es)) (xfetchNew o.toNat es old (c.b.toNat % m), 0) ∧
          elemResult c = some (c.c.toNat, es)) ∧
        (∀ g z x a b n v, c.i = .xcas g z x a b n v →
          does [] (at_ c.a (e * es)) (if old = c.b.toNat % m then c.c.toNat % m else old, 0) ∧
          elemResult c = some (c.x.toNat, es)) ∧
        (∀ g z x p a b n, c.i = .xfill g z x p a b n → does [] (at_ c.a (e * es)) (c.b.toNat % m, 0)) ∧
        (∀ g o x a b, c.i = .xsignal g o x a b → does [] (at_ c.a (e * es))
          (if o = 0 then c.b.toNat else if o = 1 then (old + c.b.toNat) % m
            else (chstat ((s.core k).chn ch)).toNat, 0))) ∧
      (∀ (e : Nat) (rs : List (List (Nat × Hit × Nat))) (wa n : Nat) (ds old : List (Nat × Hit × Nat))
          (res : Option (Nat × List (Nat × Hit × Nat))),
        let was := if readsOld c.i then ds else []
        (match c.i with
          | .xgather .. | .xscatter .. | .xacc .. | .xfetch .. | .xcas .. | .xfill .. => true
          | .xsignal .. => !signalWaits s k c
          | _ => false) = true →
        ringDst c.i = none → behindDeferred s c e = false → c.prog.due = [] → (∀ p ∈ podPkgs s c e, p = s.pkg) →
        (elemReads s c e).map (fun r => reach s k c false r.1 r.2) = rs.map Reach.ok →
        elemWrite s c e = some (wa, n) → reach s k c true wa n = .ok ds →
        (readsOld c.i = true → reach s k c false wa n = .ok old ∧ tierUnits old = []) →
        (elemResult c).map (fun w => (w.1, reach s k c true w.1 w.2)) = res.map (fun w => (w.1, Reach.ok w.2)) →
        (∀ w, res = some w → tierUnits w.2 = []) → tierUnits (rs.flatten ++ ds) = [] →
        (alignedOnly c.i = true → wa % es = 0 ∧ ∀ r ∈ elemReads s c e, r.1 % es = 0) →
        poisonSegs s (rs.flatten ++ was) = none → paceLets s c n = true →
        let t := touchSegs s k c (rs.flatten ++ was ++ ds ++ (res.map (·.2)).getD [])
        let r := match rs with
          | l :: _ => readSegs t k c l
          | [] => (t, [])
        let o := if readsOld c.i then readSegs r.1 k c ds else (r.1, [])
        let v := elemValue o.1 k ch c (ofBytes r.2) (ofBytes o.2)
        let w := writeSegs o.1 k ch c wa ds (toBytes n v.1)
        let x := match res with
          | some p => writeSegs w k ch c p.1 p.2 o.2
          | none => w
        elemStep s k ch c e = delivered x k ch c n v.2 (Prog.past c e)) ∧
      (∀ a h n, s.poison = [] → s.wrong = [] → (s.core k).xview = [] →
        readSegs s k c [(a, h, n)] =
          (s, overHeld ((s.ctx k c.slot).myHeld c.inst) h.dpa (Memory.bytes s.mem h.dpa n))) ∧
      (∀ st n, c.prog.stop = some (st, n) → exec (.commandCompletion k ch) s = .next (s.endCmd k ch c st n)) ∧
      (c.prog.stop = none → c.finished = false → exec (.commandCompletion k ch) s = .next s) ∧
      (c.prog.stop = none → c.finished = true → s.collWaits k ch = false →
        (∀ g f x a b n, c.i ≠ .kvappend g f x a b n) →
        exec (.commandCompletion k ch) s = .next (s.endCmd k ch c 0 c.prog.e)))) ∧
  (∀ (s : State) (k n : Nat) (c : Cmd) (st count : Nat),
    let h := (s.core k).chn n
    ((s.endCmd k n c st count).core k).chn n = { h with
      queue := h.queue.filter (fun q => q.serial != c.serial), lcount := count, lstat := st, ep := c.prog.ep
      done := h.done + 1 } ∧
    (s.endCmd k n c st count).memories = s.memories) ∧
  (∀ (s : State) (fn group : Nat),
    (s.wholeColl fn group = none → exec (.collectiveForm fn group) s = .next s) ∧
    (∀ y, s.wholeColl fn group = some y →
      (y.cmds s = [] → exec (.collectiveForm fn group) s = .next s) ∧
      (∀ m r, y.cmds s = m :: r →
        ((m :: r).any (fun z => collKey z.2.2.2 != collKey m.2.2.2) = true →
          exec (.collectiveForm fn group) s =
            .next ((m :: r).foldl (fun s z => stopCmd s z.2.1 z.2.2.1 z.2.2.2 5 0) s)) ∧
        (let t := decideColl s y (m :: r)
         y.far = [] → (m :: r).any (fun z => collKey z.2.2.2 != collKey m.2.2.2) = false →
         (∀ z ∈ m :: r, isPod z.2.2.2.b.toNat = false ∧
           ∃ q, reach t z.2.1 z.2.2.2 false z.2.2.2.b.toNat z.2.2.2.c.toNat = .ok q) →
         (∀ z ∈ y.cmds t, isPod z.2.2.2.b.toNat = false) →
         let u := gatherColl (t.updColl fn group (fun y => { y with page := none })) (m :: r)
         exec (.collectiveForm fn group) s =
           .next ((m :: r).foldl (fun s z => settleCmd (s.updCmd z.2.1 z.2.2.1 z.2.2.2.serial (fun c => { c with
             prog := { c.prog with due := u.2.2.2 } })) z.2.1 z.2.2.1)
             (u.1.updColl fn group (fun y => { y with formed := true, data := y.sources u.2.1, bad := u.2.2.1 })))) ∧
        (y.decided = false → y.far = [] → ((decideColl s y (m :: r)).fn y.fn).rctxInuse =
          (if (s.fn y.fn).rctxInuse < (s.fn y.fn).rctxCount then (s.fn y.fn).rctxInuse + 1
           else (s.fn y.fn).rctxInuse)) ∧
        (y.decided = true → decideColl s y (m :: r) = s))))

/-! ## Translation and the host window (R299 to R301, R334 to R336) -/

/-- O56. Answers to page requests, invalidations, and the writes that belong to them: a response acts on the request of
its group alone (at the restore, while the tenant is switched out), Success releases what waits once the page is there
for it, a refusal stops it, and an invalidation leaves no cached translation it names, lets paused operations make the
writes they have in hand, and clears BUSY when no access can still be using one. What counts as still using one, and that
writes of the window drop reserved bits, are the model's choices (logs 54, 40). -/
def Obligations.Translation : Prop :=
  ∀ (s : State) (f g code : Nat) (v : Word),
    ((s.fn f).reqs.find? (fun r => r.group == g) = none → exec (.prgResponse f g code) s = .next s) ∧
    (∀ r, (s.fn f).reqs.find? (fun r => r.group == g) = some r →
      let u := dropReq s f r.id
      let t := dropLeaf u f (r.page * 4096)
      (s.away f = true → exec (.prgResponse f g code) s =
        .next (s.updFn f (fun d => { d with answers := d.answers ++ [(g, code)] }))) ∧
      (s.away f = false →
        (∀ e, code = 0 → walk2 t f (r.page * 4096) = .leaf e →
          let ok (w : Bool) : Bool := if w then e.wr else e.rd
          let v := releaseReq t f r.id ok
          (v.waitsOn f r.id (fun w => !ok w) = false → exec (.prgResponse f g code) s = .next v) ∧
          (v.waitsOn f r.id (fun w => !ok w) = true →
            exec (.prgResponse f g code) s = .next (askAgain v f r (fun w => !ok w)))) ∧
        (code = 1 → exec (.prgResponse f g code) s = .next (refuseReq u f r (fun _ => true))) ∧
        (2 ≤ code → exec (.prgResponse f g code) s = .next (refuseReq
          ((u.updFn f (fun d => { d with priStop := true })).hevent
            { type := 5, fn := f, ctxid := 0, serial := 0, cause := 0, inCause := 0, resume := 0, addr := 0 })
          f r (fun _ => true))))) ∧
    (∀ k j o, o.hasStores = false → flushOp k j s o = s) ∧
    (let t := (s.updFn f (fun d => { d with tlb := d.tlb.filter (fun e => !e.named (s.fn f).inv false) })).eachCtxOf f
       (fun s k j => (s.ctx k j).queue.foldl (flushOp k j) s)
     ((s.fn f).invBusy = true → t.opsRunning f = false →
       exec (.invalidationComplete f false) s = .next (t.updFn f (fun d => { d with invBusy := false }))) ∧
     ((s.fn f).invBusy = true → t.opsRunning f = true → exec (.invalidationComplete f false) s = .next t) ∧
     ((s.fn f).invBusy = false → exec (.invalidationComplete f false) s = .next s)) ∧
    (let t := (s.updFn f (fun d => { d with tlb := d.tlb.filter (fun e => !e.named (s.fn f).s1inv true) })).eachCtxOf f
       (fun s k j => (s.ctx k j).queue.foldl (flushOp k j) s)
     (s.fn f).s1invBusy = true → t.opsRunning f = false →
       exec (.invalidationComplete f true) s = .next (t.updFn f (fun d => { d with s1invBusy := false }))) ∧
    (mtsMgmtOk s 0x808 v = true → exec (.invWrite v) s = .next
      ((s.updFn s.selFunc (fun d => { d with inv := v &&& ~~~(put [(63, 1)]), invBusy := true })).later
        [.invalidationComplete s.selFunc false])) ∧
    (mtsMgmtOk s 0x807 v = true → exec (.prictlWrite v) s = .next (s.updFn s.selFunc (fun d => { d with
      priEn := bit v 20, priStop := d.priStop && !bit v 19, priAlloc := field v 0 9 }))) ∧
    (let w := v &&& invBits
     ((s.fn f).s1invBusy = false → invOk w = true → exec (.s1invWrite f v) s = .next
       ((s.updFn f (fun d => { d with s1inv := w ||| put [(61, 1)], s1invBusy := true })).later
         [.invalidationComplete f true])) ∧
     ((s.fn f).s1invBusy = true ∨ invOk w = false → exec (.s1invWrite f v) s = .next (raiseCause s f 2))) ∧
    (∀ o, o % 8 = 0 → o < 0x80 → exec (.registerWindowWrite f o 8 v) s = .next
      (if ((s.fn f).q (o / 8)).en then raiseCause s f 2
       else s.updQueue f (o / 8) (fun q => { q with qbase := v &&& ~~~0xFFF }))) ∧
    (∀ o, o % 8 = 0 → 0x80 ≤ o → o < 0x100 →
      exec (.registerWindowWrite f o 8 v) s = .next (s.push [.doorbell f ((o - 0x80) / 8) (v.setWidth 32)])) ∧
    exec (.registerWindowWrite f 0x190 8 v) s =
      .next (s.updFn f (fun d => { d with causeR := d.causeR &&& ~~~(v.setWidth 4) })) ∧
    (∀ o n, ¬(n = 8 ∧ o % 8 = 0) → ¬(n = 4 ∧ o % 4 = 0) →
      exec (.registerWindowWrite f o n v) s = .next (raiseCause s f 2))

/-! ## Launches (R271 to R288, R335, R339) -/

/-- O57. Launch queues: a doorbell records the pointer and stops a queue that is overrun, an entry that is available is
read and READ advances, the loader's failure becomes a record, a placement takes the head of the highest PRIO, and a
launch with no context and no command left retires with status 0, or 1 after an escalation. That a stage-2 miss of the loader
sends a page request and leaves its entry unread (R300), and a refused page fails the image, is the model's choice (log 46). -/
def Obligations.Launches : Prop :=
  ∀ (s : State) (f q : Nat) (p : BitVec 32),
    (let t := s.updQueue f q (fun x => { x with wptr := p })
     let x := (t.fn f).q q
     let past := x.en = true ∧ 2 ^ x.ldepth < (x.wptr - x.read).toNat
     (past → exec (.doorbell f q p) s = .next
       (raiseCause (t.updQueue f q (fun x => { x with ovr := true, stop := true })) f 1)) ∧
     (¬past → exec (.doorbell f q p) s = .next t)) ∧
    (let x := (s.fn f).q q
     let d := Memory.bytes s.hostMem (x.qbase.toNat + x.read.toNat % 2 ^ x.ldepth * 64) 64
     let n := q * 2 ^ 24 + x.read.toNat % 2 ^ 24
     let r := loaderChecks s d f q n s.nextId
     let u := readFor s d f q n s.nextId
     let t := { u.updQueue f q (fun x => { x with read := x.read + 1, page := none, refused := [] }) with
       nextId := u.nextId + 1 }
     let refused (t : State) (l : Launch) (st : Nat) : State := failLaunch { t with launches := t.launches ++ [l] } l st
     let bare : Launch := { id := s.nextId, fn := f, queue := q, serial := n, compl := BitVec.ofNat 64 (numAt d 0x20 8) }
     let l := (recordOf d f q n s.nextId).getD bare
     (x.available = false ∨ x.page.all (s.answered f) = false → exec (.launchEntryRead f q) s = .next s) ∧
     (x.available = true → x.page.all (s.answered f) = true →
       (∀ l, r = .ok l → exec (.launchEntryRead f q) s = .next { t with launches := t.launches ++ [l] }) ∧
       (∀ st, r = .error (.fail st) → exec (.launchEntryRead f q) s = .next (refused t l st)) ∧
       (∀ rep, r = .error (.bad rep) → exec (.launchEntryRead f q) s = .next (refused (t.report (some rep)) l 3)) ∧
       (∀ g, r = .error (.miss g) →
         (x.refused.contains (g / 4096) = true → exec (.launchEntryRead f q) s = .next (refused t l 3)) ∧
         (x.refused.contains (g / 4096) = false →
           let p := requestPage u f g false
           exec (.launchEntryRead f q) s = .next (p.1.updQueue f q (fun x => { x with page := some p.2 }))))) ∧
     (recordOf d f q n s.nextId = none → u = s)) ∧
    (let top := s.placeable.foldl (fun m x => max m x.1.prio) 0
     (s.placeable = [] → exec .placement s = .next s) ∧
     (∀ x t, s.placeable.find? (fun x => x.1.prio == top) = some (x, .ok t) →
       exec .placement s = .next { t with served := (x.fn, x.queue) }) ∧
     (∀ x st, s.placeable.find? (fun x => x.1.prio == top) = some (x, .error st) →
       exec .placement s = .next { failLaunch s x st with served := (x.fn, x.queue) })) ∧
    (∀ i l, s.launch? i = some l →
      (l.state ≠ .placed ∨ s.alive i = true ∨ s.hasCmds i = true → exec (.launchRetire i) s = .next s) ∧
      (l.state = .placed → s.alive i = false → s.hasCmds i = false →
        let t := vacateAll s l
        let m := (t.launch? i).getD l
        exec (.launchRetire i) s =
          .next (writeRecord (removeLaunch (refundTo t m.fn m.purse) m) m (if m.esc = 0 then 0 else 1)))) ∧
    ((s.fn f).coalDue s.now = false → exec (.coalDelayExpiry f) s = .next s) ∧
    ((s.fn f).coalDue s.now = true → ((s.fn f).vector 0).mask = false → exec (.coalDelayExpiry f) s =
      .next ({ s with msixSent := s.msixSent ++ [(f, 0)] }.updFn f (fun d => { d with coalP := 0 })))

/-! ## Turns and switches (R264 to R270, R277, R278, R308, R311) -/

/-- O58. Turns, saves, pre-emption, the scrub of a quad and the end of an escalation: at a turn's end every context of the
tenant begins its switch, a full save where it waits or is blocked; a stopped context is switched out; what a core holds of a
launch is put aside and comes back as it was. Which tenant is first where turns begin, and what a context saves and when at a
safe point or in a full save, are the model's choices (logs 49, 50). -/
def Obligations.Scheduling : Prop :=
  ∀ (s : State) (p f q k j i : Nat),
    (∀ t, Tbl.find s.turns p = some t →
      (t.next = none → 1 < (s.tenants p).length → t.began + t.len ≤ s.now →
        exec (.turnEnd p) s = .next (beginSwitch
          { s with turns := Tbl.set s.turns p { t with next := some (s.nextTenant p t.fn) } } t.fn)) ∧
      (t.next ≠ none ∨ (s.tenants p).length ≤ 1 ∨ s.now < t.began + t.len →
        exec (.turnEnd p) s = .next s) ∧
      (∀ g, 1 < (s.tenants p).length → t.next = some g →
        (s.allOut t.fn = false → exec (.turnBegin p) s = .next s) ∧
        (s.allOut t.fn = true →
          let u := (s.partCores p).foldl (fun s k => s.countSw k 0) (parkAll s t.fn)
          exec (.turnBegin p) s =
            .next (unparkAll { u with
              turns := Tbl.set u.turns p { fn := g, began := u.now, len := (u.fn g).turn } } g))) ∧
      ((s.tenants p).length ≤ 1 →
        let u := { s with turns := Tbl.erase s.turns p }
        exec (.turnBegin p) s = .next ((u.tenants p).foldl (fun s f => unparkAll (callOff s f) f) u))) ∧
    (Tbl.find s.turns p = none → 1 < (s.tenants p).length → exec (.turnBegin p) s =
      let n : Turn := { fn := s.firstTenant p, began := s.now, len := (s.fn (s.firstTenant p)).turn }
      .next { s with turns := Tbl.set s.turns p n }) ∧
    exec (.finalRound f) s = .next (beginSwitch s f) ∧
    (let t := beginSwitch s f
     t.memories = s.memories ∧ (∀ m n, (m, n) ∉ s.live f → t.ctx m n = s.ctx m n) ∧
     (∀ m n, (m, n) ∈ s.live f → (s.ctx m n).out = false → s.gangSlots m n = [(m, n)] →
       let x := s.ctx m n
       let y := t.ctx m n
       y.sinceTurn = 0 ∧ y.ranTurn = 0 ∧ y.out = false ∧ y.bank = x.bank ∧ y.pc = x.pc ∧
       (x.state = .waiting ∨ x.blocked = true → y.switch = .full ∧ y.flight = [] ∧ y.hold.isSome = true) ∧
       (x.state ≠ .waiting → x.blocked = false → y.switch = .safePoint ∧ y.flight = x.flight ∧ y.hold = x.hold))) ∧
    (let t := stopped s k j
     let x := s.ctx k j
     t.ctx k j = { x with
       out := true, switch := .none, undo := none, state := if x.state = .running then .ready else x.state } ∧
     (∀ m n, (m ≠ k ∨ n ≠ j) → t.ctx m n = s.ctx m n) ∧ t.memories = s.memories ∧
     (t.core k).latches = (if x.state = .running then [] else (s.core k).latches) ∧
     (t.core k).swstat = (if s.preempting x.launch then (s.core k).swstat
       else setField (s.core k).swstat 16 16 (min 0xFFFF x.sinceTurn))) ∧
    (k < 1024 →
      (let c := s.core k
       let t := park s i k
       let a := t.core (parkKey i k)
       a.ctx = c.ctx ∧ a.chan = c.chan ∧ a.ring = c.ring ∧ a.bankfmt = c.bankfmt ∧ a.gang = c.gang ∧
       a.xview = c.xview ∧ a.launch = some i ∧ t.core k = { c with
         ctx := [], latches := [], launch := none, gang := none, lastGang := none, xview := [], retry := false
         chan := [], ring := [], bankfmt := [] } ∧
       (∀ m, m ≠ k → m ≠ parkKey i k → t.core m = s.core m) ∧ t.memories = s.memories) ∧
      (∀ c, Tbl.find s.cores (parkKey i k) = some c →
        let ic := (s.core k).ic
        let t := unpark s i k
        (t.core k).chan = c.chan ∧ (t.core k).ring = c.ring ∧ (t.core k).bankfmt = c.bankfmt ∧
        (t.core k).gang = c.gang ∧ (t.core k).launch = some i ∧ t.memories = s.memories ∧
        (∀ n x, Tbl.find c.ctx n = some x →
          let y := { x with
            out := false, switch := .none, sinceTurn := 0, ranTurn := 0, notBefore := ic
            state := if x.state = .running ∨ (x.state = .waiting ∧ x.escNext.isSome ∧ !x.stopped) then .ready
              else x.state }
          y.timedOut s.now = false → t.ctx k n = y)) ∧
      (∀ l, s.launches = [l] → l.fn = f → l.cores = [k] → (s.core k).launch = some l.id →
        parkAll s f = park s l.id k) ∧
      (∀ l, s.placedOf f = [l] → l.cores = [k] → (s.fn f).answers = [] →
        unparkAll s f = (unpark s l.id k).updFn f (fun d => { d with answers := [] }))) ∧
    ((s.ctx k j).out = false → (s.ctx k j).switch = .safePoint → s.gangSlots k j = [(k, j)] →
      s.atSafePoint k j = true →
      exec (.safePointSwitch k j) s = .next (stopped (s.setCtx k j { s.ctx k j with
        bank := keepLive (s.ctx k j).bank (s.safeAt (s.ctx k j).launch (s.ctx k j).pc), sticky := [] }) k j)) ∧
    ((s.ctx k j).switch ≠ .safePoint → exec (.safePointSwitch k j) s = .next s) ∧
    ((s.ctx k j).switch ≠ .full → exec (.fullSave k j) s = .next s) ∧
    ((s.ctx k j).out = false → (s.ctx k j).switch = .full → s.gangSlots k j = [(k, j)] → s.enginesQuiet k j = true →
      let l := (s.ctx k j).launch
      exec (.fullSave k j) s = .next (settlePreempt
        ((stopped (stopFetch s k j) k j).countSw k (if s.preempting l then 32 else 48)) l)) ∧
    (∀ l v, s.headOf f q = some l → (s.fn f).pre = true → s.mayPlace l = true → s.pickCores l = none →
      s.preemptRuns f = false → s.victim l = some v →
      let u := s.updLaunch v.id (fun x => { x with state := .preempted, by_ := some l.id })
      exec (.priorityPreemption f q) s = .next (settlePreempt
        (u.slots.foldl (fun s m =>
          if (s.ctx m.1 m.2).launch = v.id ∧ !(s.ctx m.1 m.2).out then stopFetch s m.1 m.2 else s) u) v.id)) ∧
    (∀ l, s.headOf f q = some l → (s.fn f).pre = false ∨ s.victim l = none →
      exec (.priorityPreemption f q) s = .next s) ∧
    (∀ l, s.launch? i = some l → s.canResume l = true → exec (.preemptedResume i) s =
      .next (takeAnswers ((l.cores.foldl (fun s k => unpark s i k) s).updLaunch i (fun x => { x with
        state := .placed, by_ := none })) l.fn)) ∧
    (∀ l b, s.launch? i = some l → l.state = .preempted → l.cores = [k] → (s.core k).launch = some i →
      (∀ m ∈ s.slots, (s.ctx m.1 m.2).launch = i → (s.ctx m.1 m.2).out = true) →
      (l.by_ = none → settlePreempt s i = park s i k) ∧
      (l.by_ = some b.id → (park s i k).launch? b.id = some b →
        settlePreempt s i = placeHead (park s i k) b)) ∧
    ((s.quad q).scrub = false → exec (.quadScrubComplete q) s = .next s) ∧
    ((s.quad q).scrub = true → ∃ t, exec (.quadScrubComplete q) s = .next t ∧
      (t.quad q) = { s.quad q with scrub := false } ∧
      (∀ c ∈ quadCores q, ∀ tier, tier < 2 → ∀ a, Config.tierBase tier c ≤ a →
        a < Config.tierBase tier c + Config.tierSize tier → Memory.read t.mem a = 0) ∧
      (∀ c ∈ quadCores q, (t.core c).ctx = [] ∧ (t.core c).launch = none ∧ (t.core c).latches = [])) ∧
    ((s.ctx k j).stopped = true → exec (.escalationResume k j) s =
      .next (s.updCtx k j (fun x => { x with state := .ready, wait := none, target := true }))) ∧
    ((s.ctx k j).stopped = true → (s.ctx k j).tail = none → exec (.escalationStop k j) s = .next (s.endCtx k j)) ∧
    ((s.ctx k j).stopped = false → exec (.escalationResume k j) s = .next s ∧ exec (.escalationStop k j) s = .next s)

/-! ## Heat, power, errors and management registers (R276, R289 to R291, R318 to R332, R342) -/

/-- O59. The board's events and the writes of management registers that have a row of their own: HOT rises above
HEAT.HIGH and falls below HEAT.LOW, the alarm is raised by an average above the limit, a bucket fills by its rate up to its
burst, a corrected error counts and an uncorrectable one poisons its unit; LQ, TBKT, LMAP and MWDATA write what R289, R323, R335,
R343 and R291 say and nothing else; and a write that a rule refuses changes nothing. That the average is the sum of 100
readings is the model's choice (log 98). -/
def Obligations.BoardAndManagement : Prop :=
  ∀ (s : State) (v : Word) (u n : Nat),
    exec .heatBoardUpdate s =
      .next { s with cores := s.cores.map (fun c => if c.1 < 768 then (c.1, heatColumn s c.2) else c) } ∧
    (∀ c : CoreSt, c.excluded = false → c.fused ≠ 15 →
      let t := c.temps.foldl max 0
      (s.heatHigh < t → (heatColumn s c).hot = true) ∧
      (t ≤ s.heatHigh → t < s.heatLow → (heatColumn s c).hot = false) ∧
      (t ≤ s.heatHigh → s.heatLow ≤ t → (heatColumn s c).hot = c.hot)) ∧
    exec .powerAlarmRaise s =
      .next (if 100 * min s.powerLimit 3600 < s.powers.foldl (· + ·) 0 then { s with alarm := true } else s) ∧
    exec .powerAlarmClear s = .next (if 100 ≤ s.below then { s with alarm := false } else s) ∧
    exec .tokenRefill s = .next { s with cores := s.cores.map (fun c => (c.1, { c.2 with
      tokens := c.2.tokens.map (fun t =>
        let b := Tbl.getD (s.fn t.1).tbkt (quadOf c.1) (0xFFFF, 0)
        (t.1, { t.2 with tokens := min (t.2.tokens + (b.2 : Int)) (b.1 : Int) })) })) } ∧
    (let a := u / 64 * 64
     let m := max n (s.symbolsWrong a)
     (s.patrolled a = false ∨ m = 0 → exec (.patrol u n) s = .next s) ∧
     (s.patrolled a = true → 2 ≤ m → s.blockOf a = none → exec (.patrol u n) s = .next
       (({ s with wrong := Tbl.erase s.wrong a } : State).addPoison [a] |>.countUe a)) ∧
     (∀ b, s.patrolled a = true → 2 ≤ m → s.blockOf a = some b → exec (.patrol u n) s = .next (foundPoison
       (({ s with wrong := Tbl.erase s.wrong a } : State).addPoison [a] |>.countUe a) b.1 b.2)) ∧
     (s.patrolled a = true → m = 1 → exec (.patrol u n) s = .next
       { s with errCe := min (s.errCe + 1) 0xFFFFF, wrong := Tbl.erase s.wrong a })) ∧
    (mtsMgmtOk s 0x801 v = true → exec (.qpartWrite v) s = .next (s.updQuad s.selQuad (fun q => { q with
      part := field v 0 6, valid := bit v 6
      scrub := q.scrub || bit v 6 != (s.quad s.selQuad).valid || field v 0 6 != (s.quad s.selQuad).part }))) ∧
    (mtsMgmtOk s 0x802 v = true → exec (.fctlWrite v) s = .next (s.updFn s.selFunc (fun d => { d with
      part := field v 0 6, en := bit v 6, pre := bit v 7, order := field v 8 8, turn := field v 16 32 }))) ∧
    (mtsMgmtOk s 0x804 v = true → exec (.lqWrite v) s = .next (writeLq s v)) ∧
    (mtsMgmtOk s 0x824 v = true → exec (.tbktWrite v) s = .next (writeTbkt s v)) ∧
    (mtsMgmtOk s 0x820 v = true → exec (.lmapWrite v) s = .next (writeLmap s v)) ∧
    (mtsMgmtOk s 0x832 v = true → exec (.mwdataAccess (some v)) s = .next (mwWrite s v)) ∧
    exec (.mwdataAccess none) s = .next s ∧
    (let f := s.selFunc
     let t := writeLq s v
     let x := (s.fn f).q s.selQueue
     (t.fn f).q s.selQueue = { x with
       ldepth := field v 0 5, en := bit v 5, ovr := x.ovr && !bit v 7, stop := x.stop && !bit v 7 } ∧
     (∀ m, m ≠ s.selQueue → (t.fn f).q m = (s.fn f).q m) ∧ (∀ g, g ≠ f → t.fn g = s.fn g) ∧
     t.agenda = (if bit v 5 && !x.en then .doorbell f s.selQueue x.wptr :: s.agenda else s.agenda) ∧
     t.cores = s.cores ∧ t.memories = s.memories) ∧
    (let f := s.selFunc
     let t := writeTbkt s v
     Tbl.find (t.fn f).tbkt s.selQuad = some (field v 16 16, field v 0 16) ∧ (∀ g, g ≠ f → t.fn g = s.fn g) ∧
     (∀ k ∈ quadCores s.selQuad, 0 ≤ (s.bucket f k).tokens →
       Tbl.find (t.core k).tokens f = some { s.bucket f k with tokens := (field v 16 16 : Int) }) ∧
     (∀ k, k ∉ quadCores s.selQuad → t.core k = s.core k) ∧ t.memories = s.memories) ∧
    (let t := writeLmap s v
     (∀ i, i < 4 → t.core (4 * s.selQuad + i) = { s.core (4 * s.selQuad + i) with
       force := BitVec.ofNat 4 (field v (16 * i + 8) 4) }) ∧
     (∀ k, k ∉ quadCores s.selQuad → t.core k = s.core k) ∧ t.fns = s.fns ∧ t.memories = s.memories) ∧
    (∀ k j, s.target = some (k, j) → mtsMgmtOk s 0x832 v = true →
      let it := field s.mwsel 16 16
      let t := mwWrite s v
      (it ≠ 0x012 → it ≠ 0x1000 → it ≠ 0x1200 → it ≠ 0x1201 → mwRead t = some v) ∧
      (it = 0x1000 ∨ it = 0x1200 ∨ it = 0x1201 → mwRead t = mwRead s) ∧
      (∀ m n, (m ≠ k ∨ n ≠ j) → t.ctx m n = s.ctx m n) ∧ t.memories = s.memories) ∧
    (∀ m, mtsMgmtOk s m v = false → mtsMgmt s m v = s)

/-! ## The host, bring-up and the pod (R337 to R351, R344) -/

/-- O60. Service requests are answered with their status and results in the host's memory, Function Level Reset clears
the function's window state, a package reset goes back to stage 1 of a bring-up that takes the first accepted boot slot or
halts, the attestation requests are answered (ERROR Busy before stage 8), and flits are acknowledged or replayed in
order, with what they ask done in their turn. The codes of SPDM, one acknowledgement for each accepted flit, the status of an
unknown OP, and fuses that a reset keeps, a stage that its choice lets succeed, and the form of what a payload asks, are the model's
(logs 9, 52, 42, 99, 19). -/
def Obligations.HostAndPod : Prop :=
  ∀ (s : State) (f p : Nat),
    (s.request? f (· == 1) = none → exec (.setlayer f) s = .next s) ∧
    (∀ b, s.request? f (· == 1) = some b →
      let d := BitVec.ofNat 128 (numAt b 8 16)
      let ok := allZero (part b 0x18 40) = true ∧ (s.fn f).en = true ∧ s.layerUsed f (numAt b 2 1) = false ∧
        ¬(field d 48 8 ≠ 0 ∧ layerOf d = none)
      (allZero (part b 0x18 40) = false → exec (.setlayer f) s = .next (answer s f 3 [])) ∧
      (ok → exec (.setlayer f) s = .next (answer (s.updStore f (fun t => { t with
        layers := Tbl.set t.layers (numAt b 2 1) d })) f 0 []))) ∧
    (∀ b, s.request? f (· == 2) = some b → allZero (part b 0x18 40) = true → (s.fn f).en = true →
      exec (.getlayer f) s = .next
        (answer s f 0 [(8, toBytes 16 (Tbl.getD (s.store f).layers (numAt b 2 1) 0).toNat)])) ∧
    (∀ b, s.request? f (fun o => o != 1 && o != 2) = some b →
      (numAt b 0 2 = 3 → numAt b 2 1 = 0 → allZero (part b 0x18 40) = true → (s.fn f).en = true →
        exec (.getwindow f) s = .next (answer s f 0
          [(8, toBytes 8 (field (s.fn f).window 0 24)), (0x10, toBytes 8 (field (s.fn f).window 24 24)),
            (0x18, toBytes 24 (s.quadMap (s.fn f).part)), (0x30, List.replicate 16 0)])) ∧
      (numAt b 0 2 ≠ 3 → exec (.getwindow f) s = .next (answer s f 3 []))) ∧
    (∃ t, exec (.functionLevelReset f) s = .next t ∧ (∀ l ∈ t.launches, l.fn = f → l.state = .retired) ∧
      (∀ r ∈ t.regions, r.fn ≠ f) ∧ (t.fn f).causeR = 0 ∧ (t.fn f).s1root = 0 ∧ (t.fn f).mreqBusy = false ∧
      (t.fn f).msix = [] ∧ (t.fn f).reqs = [] ∧ (t.fn f).answers = [] ∧
      (∀ a ∈ t.asks, a ∈ s.asks ∧ s.tenantFn a.ask ≠ some f) ∧ (∀ n, ((t.fn f).q n).en = false ∧ ((t.fn f).q n).wptr = 0)) ∧
    (exec .packageReset s = .next s.cold ∧ s.cold.boot = State.reset.boot ∧ s.cold.mem = [] ∧ s.cold.cores = [] ∧
     s.cold.agenda = [] ∧ s.cold.fuses = s.fuses) ∧
    (s.boot.halted = false →
     let b := s.boot
     let a := s.fuses.slotCode s.fuses.slotA
     let c := s.fuses.slotCode s.fuses.slotB
     (b.stage = 1 → s.oracle = [] → bringUp s = { s with boot := { b with stage := 2, rom := true } }) ∧
     (b.stage = 1 ∨ b.stage = 7 → ∀ r, s.oracle = 1 :: r → bringUp s = { s with oracle := r }) ∧
     (b.stage = 2 → s.fuses.readable = false → (bringUp s).boot = { b with halted := true }) ∧
     (b.stage = 2 → s.fuses.readable = true → (bringUp s).boot = { b with stage := 3, excl := 0, fsvn := s.fuses.fsvn }) ∧
     (∀ i, b.stage = 4 → a = 0 → s.fuses.slotA = some i →
       (bringUp s).boot = { b with stage := 5, failA := 0, slot := 0, svn := i.svn, rom := false } ∧
       (bringUp s).mem = Memory.writeBytes s.mem Config.hitikBase i.body) ∧
     (∀ i, b.stage = 4 → a ≠ 0 → c = 0 → s.fuses.slotB = some i →
       (bringUp s).boot =
         { b with stage := 5, failA := a, failB := 0, slot := 1, svn := i.svn, rom := false } ∧
       (bringUp s).mem = Memory.writeBytes s.mem Config.hitikBase i.body) ∧
     (b.stage = 4 → a ≠ 0 → c ≠ 0 → (bringUp s).boot = { b with halted := true, failA := a, failB := c }) ∧
     (b.stage = 6 → (bringUp s).boot.stage = 7 ∧ (bringUp s).poison = [] ∧
       ∀ x, within x Config.hitikBase ((s.booted.map Image.length).getD 0) = false → Memory.read (bringUp s).mem x = 0) ∧
     (∀ i, b.stage = 7 → s.oracle = [] → s.booted = some i →
       (bringUp s).boot = { b with stage := 8, meas := measure s.fuses i })) ∧
    (s.boot.halted = true ∨ 8 ≤ s.boot.stage → bringUp s = s) ∧
    exec (.configurationRequest f) s = .next { s with cfgSent := s.cfgSent ++ [(f, s.boot.stage == 8)] } ∧
    (let say (x : List Byte) : State := { s with
      spdm := s.spdm ++ [if s.boot.stage = 8 then x else [0x13, 0x7F, 0x03, 0x00]] }
     exec .getVersion s = .next (say (Config.spdmBody 0x84 [0x00, 0x13])) ∧
     exec .getCapabilities s = .next (say (Config.spdmBody 0xE1 [])) ∧
     (∀ o, exec (.negotiateAlgorithms o) s =
       .next (say (Config.spdmBody 0xE3 (toBytes 4 0x8 ++ toBytes 4 0x1 ++ o)))) ∧
     exec .getDigests s = .next (say (Config.spdmBody 0x81 (bytes256 (Config.sha3_256 s.fuses.chain)))) ∧
     (∀ o n, exec (.getCertificate 0 o n) s = .next (say (Config.spdmBody 0x82 (part s.fuses.chain o n)))) ∧
     (∀ x, let m := x ++ s.boot.meas.flatMap bytes256
       exec (.challenge x) s = .next (say (Config.spdmBody 0x83 (m ++ Config.mlDsa44Sign m)))) ∧
     (∀ i m, 1 ≤ i → i ≤ 4 → s.boot.meas[i - 1]? = some m →
       exec (.getMeasurements i) s = .next (say (Config.spdmBody 0xE0 (bytes256 m)))) ∧
     (∃ t, exec .vendorDefinedRequest s = .next t ∧ s.boot.fsvn ≤ t.boot.fsvn ∧
       (s.boot.stage = 8 → t.fuses.fsvn = max s.boot.fsvn s.boot.svn ∧ t.boot.fsvn = t.fuses.fsvn) ∧
       (s.boot.stage ≠ 8 → t.fuses = s.fuses))) ∧
    (∀ bytes, let d := Config.flitCorrect bytes
      let h := flitHead d
      let reply (t n : Nat) : List Byte :=
        mkFlit { dst := h.src, src := s.pkg, vl := h.vl, type := t, seq := n } noPayload
      (crcOk d = false → exec (.receiveFlit p bytes) s =
        .next (s.updPort p (fun x => { x with out := x.out ++ [reply 3 (s.port p).expect] }))) ∧
      (crcOk d = true → h.type = 1 ∨ h.type = 4 → h.seq = (s.port p).expect →
        let t := s.updPort p (fun x => { x with expect := (x.expect + 1) % 4096, out := x.out ++ [reply 2 h.seq] })
        let a := Config.podAsk (part d 8 232)
        (a.op = .nothing → exec (.receiveFlit p bytes) s = .next t) ∧
        (a.op ≠ .nothing → exec (.receiveFlit p bytes) s = .next (serveAsks { t with
          asks := t.asks ++ [{ port := p, src := h.src, vl := h.vl, ask := a }] }))) ∧
      (crcOk d = true → h.type = 1 ∨ h.type = 4 → h.seq ≠ (s.port p).expect →
        exec (.receiveFlit p bytes) s = .next s) ∧
      (crcOk d = true → h.type = 2 → (s.port p).sent.any (fun x => x.1 == h.seq) = true →
        exec (.receiveFlit p bytes) s = .next (s.updPort p (fun x => { x with
          sent := (x.sent.dropWhile (fun y => y.1 != h.seq)).drop 1 }))) ∧
      (crcOk d = true → h.type = 3 → exec (.receiveFlit p bytes) s = .next (s.push [.nak p h.seq]))) ∧
    (∀ a : PodWait,
      (s.tenantFn a.ask = none → serveAsk s a = (podReply s a 3 [], none)) ∧
      (∀ g, s.tenantFn a.ask = some g → a.bad = false → a.req = none → a.due = [] →
        (∀ st rep, podReach s g a.ask.op = .stop st rep → serveAsk s a = (podReply (s.report rep) a st [], none)) ∧
        (∀ b x w, podReach s g a.ask.op = .miss b x w →
          let r := requestPage s b x w
          serveAsk s a = (r.1, some { a with req := some (r.2, w) })) ∧
        (∀ segs, podReach s g a.ask.op = .ok segs → a.paid = true →
          let r := podEffect s g a.vl a.ask.op segs
          serveAsk s a = (podReply r.1 a r.2.1 r.2.2, none)))) ∧
    (∀ n, exec (.nak p n) s =
      .next (s.updPort p (fun x => { x with out := x.out ++ (x.sent.dropWhile (fun y => y.1 != n)).map (·.2) })))
end
end

