-- ==== Sys2Proof/Laws/Encoding.lean ====
section
/-!
SUPPORT. Splitting what was joined gives it back: one lemma per syllable format and per field code,
so that no round-trip proof unfolds a bit field (R96 to R99).
-/
namespace Sys2Proof

theorem Syl.unpack_pack (f : Syl) : Syl.unpack f.pack = f := by
  obtain ⟨h, xt, op, g, m, r⟩ := f
  have key : ∀ i, (Syl.pack ⟨h, xt, op, g, m, r⟩).getLsbD i
      = BitVec.getLsbD (w := 1 + 1 + 6 + 4 + 4 + 48) (h ++ xt ++ op ++ g ++ m ++ r) i := fun _ => rfl
  simp only [Syl.unpack, Syl.mk.injEq]
  refine ⟨?_, ?_, ?_, ?_, ?_, ?_⟩ <;>
    (apply BitVec.eq_of_getLsbD_eq; intro i hi; simp [key, hi]; grind)

theorem F3.unpack_pack (f : F3) : F3.unpack f.pack = f := by
  obtain ⟨d, a, b, c, x⟩ := f
  have key : ∀ i, (F3.pack ⟨d, a, b, c, x⟩).getLsbD i
      = BitVec.getLsbD (w := 8 + 8 + 8 + 8 + 16) (d ++ a ++ b ++ c ++ x) i := fun _ => rfl
  simp only [F3.unpack, F3.mk.injEq]
  refine ⟨?_, ?_, ?_, ?_, ?_⟩ <;>
    (apply BitVec.eq_of_getLsbD_eq; intro i hi; simp [key, hi]; grind)

theorem FM.unpack_pack (f : FM) : FM.unpack f.pack = f := by
  obtain ⟨d, b, a, o⟩ := f
  have key : ∀ i, (FM.pack ⟨d, b, a, o⟩).getLsbD i
      = BitVec.getLsbD (w := 8 + 8 + 12 + 20) (d ++ b ++ a ++ o) i := fun _ => rfl
  simp only [FM.unpack, FM.mk.injEq]
  refine ⟨?_, ?_, ?_, ?_⟩ <;>
    (apply BitVec.eq_of_getLsbD_eq; intro i hi; simp [key, hi]; grind)

theorem FB.unpack_pack (f : FB) : FB.unpack f.pack = f := by
  obtain ⟨d, a, x⟩ := f
  have key : ∀ i, (FB.pack ⟨d, a, x⟩).getLsbD i
      = BitVec.getLsbD (w := 8 + 8 + 32) (d ++ a ++ x) i := fun _ => rfl
  simp only [FB.unpack, FB.mk.injEq]
  refine ⟨?_, ?_, ?_⟩ <;>
    (apply BitVec.eq_of_getLsbD_eq; intro i hi; simp [key, hi]; grind)

theorem FMX.unpack_pack (f : FMX) : FMX.unpack f.pack = f := by
  obtain ⟨c, a, b, m8, n16, k16, x⟩ := f
  have key : ∀ i, (FMX.pack ⟨c, a, b, m8, n16, k16, x⟩).getLsbD i
      = BitVec.getLsbD (w := 4 + 4 + 4 + 8 + 8 + 12 + 8) (c ++ a ++ b ++ m8 ++ n16 ++ k16 ++ x) i := fun _ => rfl
  simp only [FMX.unpack, FMX.mk.injEq]
  refine ⟨?_, ?_, ?_, ?_, ?_, ?_, ?_⟩ <;>
    (apply BitVec.eq_of_getLsbD_eq; intro i hi; simp [key, hi]; grind)

theorem FXC.unpack_pack (f : FXC) : FXC.unpack f.pack = f := by
  obtain ⟨ch, a, b, c, p, o, z⟩ := f
  have key : ∀ i, (FXC.pack ⟨ch, a, b, c, p, o, z⟩).getLsbD i
      = BitVec.getLsbD (w := 4 + 8 + 8 + 8 + 12 + 5 + 3) (ch ++ a ++ b ++ c ++ p ++ o ++ z) i := fun _ => rfl
  simp only [FXC.unpack, FXC.mk.injEq]
  refine ⟨?_, ?_, ?_, ?_, ?_, ?_, ?_⟩ <;>
    (apply BitVec.eq_of_getLsbD_eq; intro i hi; simp [key, hi]; grind)

theorem reg_bits : ∀ n : BitVec 6,
    (0#2 ++ n : BitVec 8).toNat < 0x40 ∧ (0#2 ++ n : BitVec 8).extractLsb' 0 6 = n := by decide

theorem latch_bits : ∀ n : BitVec 4, n.toNat ≤ 11 →
    ¬ (4#4 ++ n : BitVec 8).toNat < 0x40 ∧ (4#4 ++ n : BitVec 8).toNat < 0x4C
      ∧ (4#4 ++ n : BitVec 8).extractLsb' 0 4 = n := by decide

theorem imm_bits : ∀ n : BitVec 7,
    ¬ (1#1 ++ n : BitVec 8).toNat < 0x40 ∧ ¬ (1#1 ++ n : BitVec 8).toNat < 0x4C
      ∧ (1#1 ++ n : BitVec 8) ≠ 0x4C ∧ ¬ (1#1 ++ n : BitVec 8).toNat < 0x7F
      ∧ (1#1 ++ n : BitVec 8) ≠ 0x7F ∧ (1#1 ++ n : BitVec 8).extractLsb' 0 7 = n := by decide

/-- A selector's code is read as that selector, where its latch exists and its extension is there. -/
theorem selOf_code (x : Option Word) (s : Sel) (hl : ∀ n, s = .latch n → n.toNat ≤ 11)
    (hx : ∀ v, s = .ext v → x = some v) : selOf x s.code = .ok s := by
  cases s with
  | reg n => obtain ⟨h1, h2⟩ := reg_bits n; simp only [selOf, Sel.code, if_pos h1, h2]
  | latch n =>
      obtain ⟨h1, h2, h3⟩ := latch_bits n (hl n rfl)
      simp only [selOf, Sel.code, if_neg h1, if_pos h2, h3]
  | bc => rfl
  | ext v => rw [hx v rfl]; rfl
  | imm n =>
      obtain ⟨h1, h2, h3, h4, h5, h6⟩ := imm_bits n
      simp only [selOf, Sel.code, if_neg h1, if_neg h2, beq_iff_eq, if_neg h3, if_neg h4, if_neg h5, h6]

/-- A register field reads as its register. -/
@[simp] theorem regOf_rcode : ∀ r : BitVec 6, regOf (rcode r) = .ok r := by decide
/-- A predicate field reads as its predicate. -/
@[simp] theorem predOf_pcode : ∀ p : BitVec 4, predOf (pcode p) = .ok p := by decide
/-- A pair field reads as its pair. -/
@[simp] theorem pairOf_pairCode : ∀ p : BitVec 3, pairOf (pairCode p) = .ok p := by decide
/-- A tile field reads as its tile. -/
@[simp] theorem tileOf_tcode : ∀ t : BitVec 3, tileOf (tcode t) = .ok t := by decide

end Sys2Proof
end

