-- ==== Sys2Proof/Laws/Memory.lean ====
section
/-!
SUPPORT. Memory: a read after a write, and every operation keeps the canonical form; tables: a look-up after a
write.
-/
namespace Sys2Proof.Machine

/-! ## Canonical form -/

theorem Memory.wfFrom_mono {lo hi : Nat} (h : lo ≤ hi) : ∀ {m : Memory}, m.wfFrom hi = true → m.wfFrom lo = true
  | [], _ => rfl
  | (a, x) :: r, hw => by
      simp only [Memory.wfFrom, Bool.and_eq_true, decide_eq_true_eq] at hw ⊢
      exact ⟨⟨by omega, hw.1.2⟩, hw.2⟩

theorem Memory.write_wfFrom {lo a : Nat} (x : Byte) (h : lo ≤ a) :
    ∀ {m : Memory}, m.wfFrom lo = true → (m.write a x).wfFrom lo = true
  | [], _ => by
      simp only [Memory.write]
      split <;> simp_all [Memory.wfFrom]
  | (b, y) :: r, hw => by
      simp only [Memory.wfFrom, Bool.and_eq_true, decide_eq_true_eq, bne_iff_ne] at hw
      simp only [Memory.write]
      split
      · split
        · simp only [Memory.wfFrom, Bool.and_eq_true, decide_eq_true_eq, bne_iff_ne]
          exact hw
        · rename_i hab hx
          simp only [Memory.wfFrom, Bool.and_eq_true, decide_eq_true_eq, bne_iff_ne]
          exact ⟨⟨h, hx⟩, ⟨by omega, hw.1.2⟩, hw.2⟩
      · split
        · split
          · exact Memory.wfFrom_mono (by omega) hw.2
          · rename_i _ hab hx
            simp only [Memory.wfFrom, Bool.and_eq_true, decide_eq_true_eq, bne_iff_ne]
            exact ⟨⟨h, hx⟩, hab ▸ hw.2⟩
        · simp only [Memory.wfFrom, Bool.and_eq_true, decide_eq_true_eq, bne_iff_ne]
          exact ⟨hw.1, Memory.write_wfFrom x (by omega) hw.2⟩

/-- Writing a byte keeps the canonical form. -/
@[simp] theorem Memory.write_wf {m : Memory} (a : Nat) (x : Byte) (h : m.wf = true) : (m.write a x).wf = true :=
  Memory.write_wfFrom x (Nat.zero_le a) h

/-- Writing bytes keeps the canonical form. -/
@[simp] theorem Memory.writeBytes_wf {m : Memory} (a : Nat) (bs : List Byte) (h : m.wf = true) :
    (m.writeBytes a bs).wf = true := by
  induction bs generalizing m a with
  | nil => exact h
  | cons b r ih => exact ih (a + 1) (Memory.write_wf a b h)

theorem Memory.filter_wfFrom (p : Host.Cell → Bool) :
    ∀ {lo : Nat} {m : Memory}, m.wfFrom lo = true → Memory.wfFrom lo (m.filter p) = true
  | _, [], _ => rfl
  | lo, (a, x) :: r, hw => by
      simp only [Memory.wfFrom, Bool.and_eq_true, decide_eq_true_eq] at hw
      have hr := Memory.filter_wfFrom p hw.2
      simp only [List.filter_cons]
      split
      · simp only [Memory.wfFrom, Bool.and_eq_true, decide_eq_true_eq]
        exact ⟨hw.1, hr⟩
      · exact Memory.wfFrom_mono (by omega) hr

/-- Taking cells out keeps the canonical form. -/
@[simp] theorem Memory.filter_wf {m : Memory} (p : Host.Cell → Bool) (h : m.wf = true) :
    Memory.wf (m.filter p) = true := Memory.filter_wfFrom p h

/-- A scrub keeps the canonical form. -/
@[simp] theorem Memory.clear_wf {m : Memory} (lo hi : Nat) (h : m.wf = true) : (m.clear lo hi).wf = true :=
  Memory.filter_wf _ h

@[simp] theorem Memory.nil_wf : Memory.wf [] = true := rfl

theorem Memory.foldl_write_wf {α : Type} (f : α → Nat) (g : α → Byte) (l : List α) {m : Memory} (h : m.wf = true) :
    (l.foldl (fun m x => Memory.write m (f x) (g x)) m).wf = true := by
  induction l generalizing m with
  | nil => exact h
  | cons x r ih => exact ih (Memory.write_wf _ _ h)

/-! ## Reads -/

theorem Memory.read_below {a lo : Nat} (h : a < lo) : ∀ {m : Memory}, m.wfFrom lo = true → m.read a = 0
  | [], _ => rfl
  | (b, y) :: r, hw => by
      simp only [Memory.wfFrom, Bool.and_eq_true, decide_eq_true_eq] at hw
      simp only [Memory.read, if_neg (show ¬ b = a by omega), if_pos (show a < b by omega)]

theorem Memory.read_write_from {lo : Nat} (a c : Nat) (x : Byte) :
    ∀ {m : Memory}, m.wfFrom lo = true → (m.write a x).read c = if c = a then x else m.read c
  | [], _ => by
      simp only [Memory.write]
      split
      · rename_i hx
        simp [Memory.read, hx]
      · by_cases hc : c = a
        · simp [Memory.read, hc]
        · simp [Memory.read, hc, Ne.symm hc]
  | (b, y) :: r, hw => by
      simp only [Memory.wfFrom, Bool.and_eq_true, decide_eq_true_eq] at hw
      have low : ∀ {d}, d < b → Memory.read ((b, y) :: r) d = 0 := fun {d} hd => by
        simp only [Memory.read, if_neg (show ¬ b = d by omega), if_pos hd]
      simp only [Memory.write]
      split
      · rename_i hab
        split
        · rename_i hx
          split
          · rename_i hc
            rw [hc, hx]
            exact low hab
          · rfl
        · by_cases hc : c = a
          · simp [Memory.read, hc]
          · rw [if_neg hc]
            by_cases hlt : c < a
            · rw [low (by omega)]
              simp only [Memory.read, if_neg (show ¬ a = c by omega), if_pos hlt]
            · simp only [Memory.read, if_neg (show ¬ a = c by omega), if_neg hlt]
      · split
        · rename_i hab
          subst hab
          have hr : Memory.read r a = 0 := Memory.read_below (Nat.lt_succ_self a) hw.2
          split
          · rename_i hx
            by_cases hc : c = a
            · rw [if_pos hc, hx, hc, hr]
            · rw [if_neg hc]
              by_cases hlt : c < a
              · rw [low hlt, Memory.read_below (show c < a + 1 by omega) hw.2]
              · simp only [Memory.read, if_neg (show ¬ a = c by omega), if_neg hlt]
          · by_cases hc : c = a
            · simp [Memory.read, hc]
            · simp only [Memory.read, if_neg (show ¬ a = c by omega), if_neg hc]
        · have ih := Memory.read_write_from a c x hw.2
          simp only [Memory.read, ih]
          split
          · rename_i hb
            rw [if_neg (by omega)]
          · split
            · rw [if_neg (by omega)]
            · rfl

/-- A read after a write: the byte written at its address, and what was there before at any other. -/
theorem Memory.read_write {m : Memory} (h : m.wf = true) (a c : Nat) (x : Byte) :
    (m.write a x).read c = if c = a then x else m.read c := Memory.read_write_from a c x h

/-- A read after a write of bytes: the bytes written in their range, and what was there before elsewhere. -/
theorem Memory.read_writeBytes {m : Memory} (h : m.wf = true) (a c : Nat) (bs : List Byte) :
    (m.writeBytes a bs).read c = if a ≤ c ∧ c < a + bs.length then bs.getD (c - a) 0 else m.read c := by
  induction bs generalizing m a with
  | nil =>
      simp only [Memory.writeBytes, List.length_nil]
      rw [if_neg (by omega)]
  | cons b r ih =>
      simp only [Memory.writeBytes]
      rw [ih (Memory.write_wf a b h), Memory.read_write h]
      simp only [List.length_cons]
      by_cases h1 : c = a
      · subst h1
        rw [if_neg (by omega), if_pos rfl, if_pos (by omega)]
        simp
      · by_cases h2 : a + 1 ≤ c ∧ c < a + 1 + r.length
        · rw [if_pos h2, if_pos (by omega)]
          obtain ⟨k, hk⟩ : ∃ k, c - a = k + 1 := ⟨c - a - 1, by omega⟩
          rw [hk, show c - (a + 1) = k by omega]
          simp
        · rw [if_neg h2, if_neg h1, if_neg (by omega)]

/-! ## Tables -/

theorem Tbl.getD_erase {α : Type} (t : Tbl α) (j k : Nat) (d : α) :
    Tbl.getD (Tbl.erase t j) k d = if k = j then d else Tbl.getD t k d := by
  induction t with
  | nil => simp [Tbl.erase, Tbl.getD]
  | cons e r ih =>
      obtain ⟨i, x⟩ := e
      simp only [Tbl.erase, Tbl.getD]
      split <;> simp only [Tbl.getD, ih] <;> split <;> simp_all
      omega

theorem Tbl.getD_insert {α : Type} (t : Tbl α) (j k : Nat) (v d : α) (h : ∀ e ∈ t, e.1 ≠ j) :
    Tbl.getD (Tbl.insert t j v) k d = if k = j then v else Tbl.getD t k d := by
  induction t with
  | nil =>
      by_cases hk : k = j
      · simp [Tbl.insert, Tbl.getD, hk]
      · simp [Tbl.insert, Tbl.getD, hk, Ne.symm hk]
  | cons e r ih =>
      obtain ⟨i, x⟩ := e
      have hi : i ≠ j := h (i, x) (by simp)
      have ih := ih (fun e he => h e (by simp [he]))
      simp only [Tbl.insert]
      by_cases hk : k = j
      · subst hk
        split
        · simp [Tbl.getD]
        · simp [Tbl.getD, ih, hi]
      · split
        · simp [Tbl.getD, Ne.symm hk]
        · simp [Tbl.getD, ih, hk]

theorem Tbl.erase_ne {α : Type} (t : Tbl α) (j : Nat) : ∀ e ∈ Tbl.erase t j, e.1 ≠ j := by
  induction t with
  | nil => simp [Tbl.erase]
  | cons e r ih =>
      obtain ⟨i, x⟩ := e
      simp only [Tbl.erase]
      split
      · exact ih
      · rename_i hi
        intro e he
        rcases List.mem_cons.mp he with rfl | he
        · exact hi
        · exact ih e he

/-- A look-up after a write: what was written at its key, and what was there before at any other. -/
theorem Tbl.getD_set {α : Type} (t : Tbl α) (j k : Nat) (v d : α) :
    Tbl.getD (Tbl.set t j v) k d = if k = j then v else Tbl.getD t k d := by
  rw [Tbl.set, Tbl.getD_insert _ _ _ _ _ (Tbl.erase_ne t j), Tbl.getD_erase]
  split <;> simp_all

@[simp] theorem Tbl.getD_set_same {α : Type} (t : Tbl α) (k : Nat) (v d : α) :
    Tbl.getD (Tbl.set t k v) k d = v := by simp [Tbl.getD_set]

@[simp] theorem Tbl.getD_set_ne {α : Type} (t : Tbl α) {j k : Nat} (v d : α) (h : k ≠ j) :
    Tbl.getD (Tbl.set t j v) k d = Tbl.getD t k d := by simp [Tbl.getD_set, h]

end Sys2Proof.Machine
end

