-- ==== Sys2Proof/Laws/State.lean ====
section
/-!
SUPPORT. What each update of the state leaves alone, one lemma for each field, and what a look-up gives after it.
-/
namespace Sys2Proof.Machine

/-! ## Look-ups after an update -/

@[simp] theorem CoreSt.slot_setSlot (c : CoreSt) (j i : Nat) (x : Ctx) :
    (c.setSlot j x).slot i = if i = j then x else c.slot i := Tbl.getD_set ..
@[simp] theorem State.core_setCore (s : State) (k m : Nat) (c : CoreSt) :
    (s.setCore k c).core m = if m = k then c else s.core m := Tbl.getD_set ..
theorem State.core_updCore (s : State) (k m : Nat) (f : CoreSt → CoreSt) :
    (s.updCore k f).core m = if m = k then f (s.core k) else s.core m := by simp [State.updCore]
theorem State.core_setCtx (s : State) (k j m : Nat) (x : Ctx) :
    (s.setCtx k j x).core m = if m = k then (s.core k).setSlot j x else s.core m := by
  simp [State.setCtx, State.core_updCore]
/-- A context after another or the same is replaced. -/
@[simp] theorem State.ctx_setCtx (s : State) (k j m i : Nat) (x : Ctx) :
    (s.setCtx k j x).ctx m i = if m = k ∧ i = j then x else s.ctx m i := by
  simp only [State.ctx, State.setCtx, State.core_updCore]
  by_cases h : m = k
  · subst h; simp
  · simp [h]
@[simp] theorem State.ctx_updCtx (s : State) (k j m i : Nat) (f : Ctx → Ctx) :
    (s.updCtx k j f).ctx m i = if m = k ∧ i = j then f (s.ctx k j) else s.ctx m i := by simp [State.updCtx]
@[simp] theorem State.fn_updFn (s : State) (f m : Nat) (g : Fn → Fn) :
    (s.updFn f g).fn m = if m = f then g (s.fn f) else s.fn m := Tbl.getD_set ..
@[simp] theorem State.quad_updQuad (s : State) (q m : Nat) (g : Quad → Quad) :
    (s.updQuad q g).quad m = if m = q then g (s.quad q) else s.quad m := Tbl.getD_set ..

/-! ## Registers -/

/-- s0 reads zero (R19). -/
@[simp] theorem Bank.getS_zero (b : Bank) : b.getS 0 = 0 := rfl
/-- A write of s0 is discarded (R19). -/
@[simp] theorem Bank.setS_zero (b : Bank) (x : Word) : b.setS 0 x = b := rfl
theorem Bank.getS_setS (b : Bank) (n m : Nat) (x : Word) :
    (b.setS n x).getS m = if m = n ∧ n ≠ 0 then x else b.getS m := by
  simp only [Bank.getS, Bank.setS]
  by_cases hn : n = 0
  · simp [hn]
  · by_cases hm : m = 0
    · simp [hm, hn]; intro h; exact absurd h.symm hn
    · simp only [if_neg hn, if_neg hm, Tbl.getD_set]
      simp [hn]
/-- p0 reads all ones (R19). -/
@[simp] theorem Bank.physP_zero (b : Bank) : b.physP 0 = BitVec.allOnes 128 := rfl
/-- p1 reads all zeros (R19). -/
@[simp] theorem Bank.physP_one (b : Bank) : b.physP 1 = 0 := rfl
theorem Bank.physP_setP (b : Bank) (n m : Nat) (x : Pred) :
    (b.setP n x).physP m = if m = n ∧ 2 ≤ n then x else b.physP m := by
  simp only [Bank.physP, Bank.setP]
  by_cases hn : n = 0 ∨ n = 1
  · have h2 : ¬ (m = n ∧ 2 ≤ n) := by omega
    rw [if_pos hn, if_neg h2]
  · rw [if_neg hn]
    by_cases hm : m = n
    · subst hm
      rw [if_neg (by omega), if_neg (by omega), if_pos (by omega)]
      simp
    · rw [if_neg (show ¬ (m = n ∧ 2 ≤ n) by omega)]
      simp [hm]

/-! ## Fields an update of a context or a core leaves alone -/

@[simp] theorem State.setCore_cycle (s : State) (k : Nat) (c : CoreSt) : (s.setCore k c).cycle = s.cycle := rfl
@[simp] theorem State.setCore_mem (s : State) (k : Nat) (c : CoreSt) : (s.setCore k c).mem = s.mem := rfl
@[simp] theorem State.setCore_hostMem (s : State) (k : Nat) (c : CoreSt) : (s.setCore k c).hostMem = s.hostMem := rfl
@[simp] theorem State.setCore_poison (s : State) (k : Nat) (c : CoreSt) : (s.setCore k c).poison = s.poison := rfl
@[simp] theorem State.setCore_wrong (s : State) (k : Nat) (c : CoreSt) : (s.setCore k c).wrong = s.wrong := rfl
@[simp] theorem State.setCore_badWrites (s : State) (k : Nat) (c : CoreSt) : (s.setCore k c).badWrites = s.badWrites := rfl
@[simp] theorem State.setCore_fns (s : State) (k : Nat) (c : CoreSt) : (s.setCore k c).fns = s.fns := rfl
@[simp] theorem State.setCore_quads (s : State) (k : Nat) (c : CoreSt) : (s.setCore k c).quads = s.quads := rfl
@[simp] theorem State.setCore_turns (s : State) (k : Nat) (c : CoreSt) : (s.setCore k c).turns = s.turns := rfl
@[simp] theorem State.setCore_launches (s : State) (k : Nat) (c : CoreSt) : (s.setCore k c).launches = s.launches := rfl
@[simp] theorem State.setCore_regions (s : State) (k : Nat) (c : CoreSt) : (s.setCore k c).regions = s.regions := rfl
@[simp] theorem State.setCore_ended (s : State) (k : Nat) (c : CoreSt) : (s.setCore k c).ended = s.ended := rfl
@[simp] theorem State.setCore_pendings (s : State) (k : Nat) (c : CoreSt) : (s.setCore k c).pendings = s.pendings := rfl
@[simp] theorem State.setCore_barriers (s : State) (k : Nat) (c : CoreSt) : (s.setCore k c).barriers = s.barriers := rfl
@[simp] theorem State.setCore_colls (s : State) (k : Nat) (c : CoreSt) : (s.setCore k c).colls = s.colls := rfl
@[simp] theorem State.setCore_scrubs (s : State) (k : Nat) (c : CoreSt) : (s.setCore k c).scrubs = s.scrubs := rfl
@[simp] theorem State.setCore_nextId (s : State) (k : Nat) (c : CoreSt) : (s.setCore k c).nextId = s.nextId := rfl
@[simp] theorem State.setCore_nextVa (s : State) (k : Nat) (c : CoreSt) : (s.setCore k c).nextVa = s.nextVa := rfl
@[simp] theorem State.setCore_served (s : State) (k : Nat) (c : CoreSt) : (s.setCore k c).served = s.served := rfl
@[simp] theorem State.setCore_sel (s : State) (k : Nat) (c : CoreSt) : (s.setCore k c).sel = s.sel := rfl
@[simp] theorem State.setCore_heatLow (s : State) (k : Nat) (c : CoreSt) : (s.setCore k c).heatLow = s.heatLow := rfl
@[simp] theorem State.setCore_heatHigh (s : State) (k : Nat) (c : CoreSt) : (s.setCore k c).heatHigh = s.heatHigh := rfl
@[simp] theorem State.setCore_lLow (s : State) (k : Nat) (c : CoreSt) : (s.setCore k c).lLow = s.lLow := rfl
@[simp] theorem State.setCore_lHigh (s : State) (k : Nat) (c : CoreSt) : (s.setCore k c).lHigh = s.lHigh := rfl
@[simp] theorem State.setCore_refund (s : State) (k : Nat) (c : CoreSt) : (s.setCore k c).refund = s.refund := rfl
@[simp] theorem State.setCore_rates (s : State) (k : Nat) (c : CoreSt) : (s.setCore k c).rates = s.rates := rfl
@[simp] theorem State.setCore_rlowm (s : State) (k : Nat) (c : CoreSt) : (s.setCore k c).rlowm = s.rlowm := rfl
@[simp] theorem State.setCore_patrolR (s : State) (k : Nat) (c : CoreSt) : (s.setCore k c).patrolR = s.patrolR := rfl
@[simp] theorem State.setCore_errUe (s : State) (k : Nat) (c : CoreSt) : (s.setCore k c).errUe = s.errUe := rfl
@[simp] theorem State.setCore_errCe (s : State) (k : Nat) (c : CoreSt) : (s.setCore k c).errCe = s.errCe := rfl
@[simp] theorem State.setCore_errAddr (s : State) (k : Nat) (c : CoreSt) : (s.setCore k c).errAddr = s.errAddr := rfl
@[simp] theorem State.setCore_errValid (s : State) (k : Nat) (c : CoreSt) : (s.setCore k c).errValid = s.errValid := rfl
@[simp] theorem State.setCore_patrolAt (s : State) (k : Nat) (c : CoreSt) : (s.setCore k c).patrolAt = s.patrolAt := rfl
@[simp] theorem State.setCore_mwsel (s : State) (k : Nat) (c : CoreSt) : (s.setCore k c).mwsel = s.mwsel := rfl
@[simp] theorem State.setCore_boot (s : State) (k : Nat) (c : CoreSt) : (s.setCore k c).boot = s.boot := rfl
@[simp] theorem State.setCore_fuses (s : State) (k : Nat) (c : CoreSt) : (s.setCore k c).fuses = s.fuses := rfl
@[simp] theorem State.setCore_alarm (s : State) (k : Nat) (c : CoreSt) : (s.setCore k c).alarm = s.alarm := rfl
@[simp] theorem State.setCore_alarmInForce (s : State) (k : Nat) (c : CoreSt) : (s.setCore k c).alarmInForce = s.alarmInForce := rfl
@[simp] theorem State.setCore_powerLimit (s : State) (k : Nat) (c : CoreSt) : (s.setCore k c).powerLimit = s.powerLimit := rfl
@[simp] theorem State.setCore_power (s : State) (k : Nat) (c : CoreSt) : (s.setCore k c).power = s.power := rfl
@[simp] theorem State.setCore_powers (s : State) (k : Nat) (c : CoreSt) : (s.setCore k c).powers = s.powers := rfl
@[simp] theorem State.setCore_below (s : State) (k : Nat) (c : CoreSt) : (s.setCore k c).below = s.below := rfl
@[simp] theorem State.setCore_hevents (s : State) (k : Nat) (c : CoreSt) : (s.setCore k c).hevents = s.hevents := rfl
@[simp] theorem State.setCore_kvReports (s : State) (k : Nat) (c : CoreSt) : (s.setCore k c).kvReports = s.kvReports := rfl
@[simp] theorem State.setCore_msixSent (s : State) (k : Nat) (c : CoreSt) : (s.setCore k c).msixSent = s.msixSent := rfl
@[simp] theorem State.setCore_priSent (s : State) (k : Nat) (c : CoreSt) : (s.setCore k c).priSent = s.priSent := rfl
@[simp] theorem State.setCore_spdm (s : State) (k : Nat) (c : CoreSt) : (s.setCore k c).spdm = s.spdm := rfl
@[simp] theorem State.setCore_cfgSent (s : State) (k : Nat) (c : CoreSt) : (s.setCore k c).cfgSent = s.cfgSent := rfl
@[simp] theorem State.setCore_ports (s : State) (k : Nat) (c : CoreSt) : (s.setCore k c).ports = s.ports := rfl
@[simp] theorem State.setCore_pkg (s : State) (k : Nat) (c : CoreSt) : (s.setCore k c).pkg = s.pkg := rfl
@[simp] theorem State.setCore_routes (s : State) (k : Nat) (c : CoreSt) : (s.setCore k c).routes = s.routes := rfl
@[simp] theorem State.setCore_asks (s : State) (k : Nat) (c : CoreSt) : (s.setCore k c).asks = s.asks := rfl
@[simp] theorem State.setCore_policy (s : State) (k : Nat) (c : CoreSt) : (s.setCore k c).policy = s.policy := rfl
@[simp] theorem State.setCore_free (s : State) (k : Nat) (c : CoreSt) : (s.setCore k c).free = s.free := rfl
@[simp] theorem State.setCore_oracle (s : State) (k : Nat) (c : CoreSt) : (s.setCore k c).oracle = s.oracle := rfl
@[simp] theorem State.setCore_agenda (s : State) (k : Nat) (c : CoreSt) : (s.setCore k c).agenda = s.agenda := rfl
@[simp] theorem State.setCore_turn (s : State) (k : Nat) (c : CoreSt) : (s.setCore k c).turn = s.turn := rfl
@[simp] theorem State.setCore_lag (s : State) (k : Nat) (c : CoreSt) : (s.setCore k c).lag = s.lag := rfl
@[simp] theorem State.setCore_walks (s : State) (k : Nat) (c : CoreSt) : (s.setCore k c).walks = s.walks := rfl
@[simp] theorem State.setCore_upsets (s : State) (k : Nat) (c : CoreSt) : (s.setCore k c).upsets = s.upsets := rfl
@[simp] theorem State.setCore_issue (s : State) (k : Nat) (c : CoreSt) : (s.setCore k c).issue = s.issue := rfl

@[simp] theorem State.updCore_cycle (s : State) (k : Nat) (f : CoreSt → CoreSt) : (s.updCore k f).cycle = s.cycle := rfl
@[simp] theorem State.updCore_mem (s : State) (k : Nat) (f : CoreSt → CoreSt) : (s.updCore k f).mem = s.mem := rfl
@[simp] theorem State.updCore_hostMem (s : State) (k : Nat) (f : CoreSt → CoreSt) : (s.updCore k f).hostMem = s.hostMem := rfl
@[simp] theorem State.updCore_poison (s : State) (k : Nat) (f : CoreSt → CoreSt) : (s.updCore k f).poison = s.poison := rfl
@[simp] theorem State.updCore_wrong (s : State) (k : Nat) (f : CoreSt → CoreSt) : (s.updCore k f).wrong = s.wrong := rfl
@[simp] theorem State.updCore_badWrites (s : State) (k : Nat) (f : CoreSt → CoreSt) : (s.updCore k f).badWrites = s.badWrites := rfl
@[simp] theorem State.updCore_fns (s : State) (k : Nat) (f : CoreSt → CoreSt) : (s.updCore k f).fns = s.fns := rfl
@[simp] theorem State.updCore_quads (s : State) (k : Nat) (f : CoreSt → CoreSt) : (s.updCore k f).quads = s.quads := rfl
@[simp] theorem State.updCore_turns (s : State) (k : Nat) (f : CoreSt → CoreSt) : (s.updCore k f).turns = s.turns := rfl
@[simp] theorem State.updCore_launches (s : State) (k : Nat) (f : CoreSt → CoreSt) : (s.updCore k f).launches = s.launches := rfl
@[simp] theorem State.updCore_regions (s : State) (k : Nat) (f : CoreSt → CoreSt) : (s.updCore k f).regions = s.regions := rfl
@[simp] theorem State.updCore_ended (s : State) (k : Nat) (f : CoreSt → CoreSt) : (s.updCore k f).ended = s.ended := rfl
@[simp] theorem State.updCore_pendings (s : State) (k : Nat) (f : CoreSt → CoreSt) : (s.updCore k f).pendings = s.pendings := rfl
@[simp] theorem State.updCore_barriers (s : State) (k : Nat) (f : CoreSt → CoreSt) : (s.updCore k f).barriers = s.barriers := rfl
@[simp] theorem State.updCore_colls (s : State) (k : Nat) (f : CoreSt → CoreSt) : (s.updCore k f).colls = s.colls := rfl
@[simp] theorem State.updCore_scrubs (s : State) (k : Nat) (f : CoreSt → CoreSt) : (s.updCore k f).scrubs = s.scrubs := rfl
@[simp] theorem State.updCore_nextId (s : State) (k : Nat) (f : CoreSt → CoreSt) : (s.updCore k f).nextId = s.nextId := rfl
@[simp] theorem State.updCore_nextVa (s : State) (k : Nat) (f : CoreSt → CoreSt) : (s.updCore k f).nextVa = s.nextVa := rfl
@[simp] theorem State.updCore_served (s : State) (k : Nat) (f : CoreSt → CoreSt) : (s.updCore k f).served = s.served := rfl
@[simp] theorem State.updCore_sel (s : State) (k : Nat) (f : CoreSt → CoreSt) : (s.updCore k f).sel = s.sel := rfl
@[simp] theorem State.updCore_heatLow (s : State) (k : Nat) (f : CoreSt → CoreSt) : (s.updCore k f).heatLow = s.heatLow := rfl
@[simp] theorem State.updCore_heatHigh (s : State) (k : Nat) (f : CoreSt → CoreSt) : (s.updCore k f).heatHigh = s.heatHigh := rfl
@[simp] theorem State.updCore_lLow (s : State) (k : Nat) (f : CoreSt → CoreSt) : (s.updCore k f).lLow = s.lLow := rfl
@[simp] theorem State.updCore_lHigh (s : State) (k : Nat) (f : CoreSt → CoreSt) : (s.updCore k f).lHigh = s.lHigh := rfl
@[simp] theorem State.updCore_refund (s : State) (k : Nat) (f : CoreSt → CoreSt) : (s.updCore k f).refund = s.refund := rfl
@[simp] theorem State.updCore_rates (s : State) (k : Nat) (f : CoreSt → CoreSt) : (s.updCore k f).rates = s.rates := rfl
@[simp] theorem State.updCore_rlowm (s : State) (k : Nat) (f : CoreSt → CoreSt) : (s.updCore k f).rlowm = s.rlowm := rfl
@[simp] theorem State.updCore_patrolR (s : State) (k : Nat) (f : CoreSt → CoreSt) : (s.updCore k f).patrolR = s.patrolR := rfl
@[simp] theorem State.updCore_errUe (s : State) (k : Nat) (f : CoreSt → CoreSt) : (s.updCore k f).errUe = s.errUe := rfl
@[simp] theorem State.updCore_errCe (s : State) (k : Nat) (f : CoreSt → CoreSt) : (s.updCore k f).errCe = s.errCe := rfl
@[simp] theorem State.updCore_errAddr (s : State) (k : Nat) (f : CoreSt → CoreSt) : (s.updCore k f).errAddr = s.errAddr := rfl
@[simp] theorem State.updCore_errValid (s : State) (k : Nat) (f : CoreSt → CoreSt) : (s.updCore k f).errValid = s.errValid := rfl
@[simp] theorem State.updCore_patrolAt (s : State) (k : Nat) (f : CoreSt → CoreSt) : (s.updCore k f).patrolAt = s.patrolAt := rfl
@[simp] theorem State.updCore_mwsel (s : State) (k : Nat) (f : CoreSt → CoreSt) : (s.updCore k f).mwsel = s.mwsel := rfl
@[simp] theorem State.updCore_boot (s : State) (k : Nat) (f : CoreSt → CoreSt) : (s.updCore k f).boot = s.boot := rfl
@[simp] theorem State.updCore_fuses (s : State) (k : Nat) (f : CoreSt → CoreSt) : (s.updCore k f).fuses = s.fuses := rfl
@[simp] theorem State.updCore_alarm (s : State) (k : Nat) (f : CoreSt → CoreSt) : (s.updCore k f).alarm = s.alarm := rfl
@[simp] theorem State.updCore_alarmInForce (s : State) (k : Nat) (f : CoreSt → CoreSt) : (s.updCore k f).alarmInForce = s.alarmInForce := rfl
@[simp] theorem State.updCore_powerLimit (s : State) (k : Nat) (f : CoreSt → CoreSt) : (s.updCore k f).powerLimit = s.powerLimit := rfl
@[simp] theorem State.updCore_power (s : State) (k : Nat) (f : CoreSt → CoreSt) : (s.updCore k f).power = s.power := rfl
@[simp] theorem State.updCore_powers (s : State) (k : Nat) (f : CoreSt → CoreSt) : (s.updCore k f).powers = s.powers := rfl
@[simp] theorem State.updCore_below (s : State) (k : Nat) (f : CoreSt → CoreSt) : (s.updCore k f).below = s.below := rfl
@[simp] theorem State.updCore_hevents (s : State) (k : Nat) (f : CoreSt → CoreSt) : (s.updCore k f).hevents = s.hevents := rfl
@[simp] theorem State.updCore_kvReports (s : State) (k : Nat) (f : CoreSt → CoreSt) : (s.updCore k f).kvReports = s.kvReports := rfl
@[simp] theorem State.updCore_msixSent (s : State) (k : Nat) (f : CoreSt → CoreSt) : (s.updCore k f).msixSent = s.msixSent := rfl
@[simp] theorem State.updCore_priSent (s : State) (k : Nat) (f : CoreSt → CoreSt) : (s.updCore k f).priSent = s.priSent := rfl
@[simp] theorem State.updCore_spdm (s : State) (k : Nat) (f : CoreSt → CoreSt) : (s.updCore k f).spdm = s.spdm := rfl
@[simp] theorem State.updCore_cfgSent (s : State) (k : Nat) (f : CoreSt → CoreSt) : (s.updCore k f).cfgSent = s.cfgSent := rfl
@[simp] theorem State.updCore_ports (s : State) (k : Nat) (f : CoreSt → CoreSt) : (s.updCore k f).ports = s.ports := rfl
@[simp] theorem State.updCore_pkg (s : State) (k : Nat) (f : CoreSt → CoreSt) : (s.updCore k f).pkg = s.pkg := rfl
@[simp] theorem State.updCore_routes (s : State) (k : Nat) (f : CoreSt → CoreSt) : (s.updCore k f).routes = s.routes := rfl
@[simp] theorem State.updCore_asks (s : State) (k : Nat) (f : CoreSt → CoreSt) : (s.updCore k f).asks = s.asks := rfl
@[simp] theorem State.updCore_policy (s : State) (k : Nat) (f : CoreSt → CoreSt) : (s.updCore k f).policy = s.policy := rfl
@[simp] theorem State.updCore_free (s : State) (k : Nat) (f : CoreSt → CoreSt) : (s.updCore k f).free = s.free := rfl
@[simp] theorem State.updCore_oracle (s : State) (k : Nat) (f : CoreSt → CoreSt) : (s.updCore k f).oracle = s.oracle := rfl
@[simp] theorem State.updCore_agenda (s : State) (k : Nat) (f : CoreSt → CoreSt) : (s.updCore k f).agenda = s.agenda := rfl
@[simp] theorem State.updCore_turn (s : State) (k : Nat) (f : CoreSt → CoreSt) : (s.updCore k f).turn = s.turn := rfl
@[simp] theorem State.updCore_lag (s : State) (k : Nat) (f : CoreSt → CoreSt) : (s.updCore k f).lag = s.lag := rfl
@[simp] theorem State.updCore_walks (s : State) (k : Nat) (f : CoreSt → CoreSt) : (s.updCore k f).walks = s.walks := rfl
@[simp] theorem State.updCore_upsets (s : State) (k : Nat) (f : CoreSt → CoreSt) : (s.updCore k f).upsets = s.upsets := rfl
@[simp] theorem State.updCore_issue (s : State) (k : Nat) (f : CoreSt → CoreSt) : (s.updCore k f).issue = s.issue := rfl

@[simp] theorem State.setCtx_cycle (s : State) (k j : Nat) (x : Ctx) : (s.setCtx k j x).cycle = s.cycle := rfl
@[simp] theorem State.setCtx_mem (s : State) (k j : Nat) (x : Ctx) : (s.setCtx k j x).mem = s.mem := rfl
@[simp] theorem State.setCtx_hostMem (s : State) (k j : Nat) (x : Ctx) : (s.setCtx k j x).hostMem = s.hostMem := rfl
@[simp] theorem State.setCtx_poison (s : State) (k j : Nat) (x : Ctx) : (s.setCtx k j x).poison = s.poison := rfl
@[simp] theorem State.setCtx_wrong (s : State) (k j : Nat) (x : Ctx) : (s.setCtx k j x).wrong = s.wrong := rfl
@[simp] theorem State.setCtx_badWrites (s : State) (k j : Nat) (x : Ctx) : (s.setCtx k j x).badWrites = s.badWrites := rfl
@[simp] theorem State.setCtx_fns (s : State) (k j : Nat) (x : Ctx) : (s.setCtx k j x).fns = s.fns := rfl
@[simp] theorem State.setCtx_quads (s : State) (k j : Nat) (x : Ctx) : (s.setCtx k j x).quads = s.quads := rfl
@[simp] theorem State.setCtx_turns (s : State) (k j : Nat) (x : Ctx) : (s.setCtx k j x).turns = s.turns := rfl
@[simp] theorem State.setCtx_launches (s : State) (k j : Nat) (x : Ctx) : (s.setCtx k j x).launches = s.launches := rfl
@[simp] theorem State.setCtx_regions (s : State) (k j : Nat) (x : Ctx) : (s.setCtx k j x).regions = s.regions := rfl
@[simp] theorem State.setCtx_ended (s : State) (k j : Nat) (x : Ctx) : (s.setCtx k j x).ended = s.ended := rfl
@[simp] theorem State.setCtx_pendings (s : State) (k j : Nat) (x : Ctx) : (s.setCtx k j x).pendings = s.pendings := rfl
@[simp] theorem State.setCtx_barriers (s : State) (k j : Nat) (x : Ctx) : (s.setCtx k j x).barriers = s.barriers := rfl
@[simp] theorem State.setCtx_colls (s : State) (k j : Nat) (x : Ctx) : (s.setCtx k j x).colls = s.colls := rfl
@[simp] theorem State.setCtx_scrubs (s : State) (k j : Nat) (x : Ctx) : (s.setCtx k j x).scrubs = s.scrubs := rfl
@[simp] theorem State.setCtx_nextId (s : State) (k j : Nat) (x : Ctx) : (s.setCtx k j x).nextId = s.nextId := rfl
@[simp] theorem State.setCtx_nextVa (s : State) (k j : Nat) (x : Ctx) : (s.setCtx k j x).nextVa = s.nextVa := rfl
@[simp] theorem State.setCtx_served (s : State) (k j : Nat) (x : Ctx) : (s.setCtx k j x).served = s.served := rfl
@[simp] theorem State.setCtx_sel (s : State) (k j : Nat) (x : Ctx) : (s.setCtx k j x).sel = s.sel := rfl
@[simp] theorem State.setCtx_heatLow (s : State) (k j : Nat) (x : Ctx) : (s.setCtx k j x).heatLow = s.heatLow := rfl
@[simp] theorem State.setCtx_heatHigh (s : State) (k j : Nat) (x : Ctx) : (s.setCtx k j x).heatHigh = s.heatHigh := rfl
@[simp] theorem State.setCtx_lLow (s : State) (k j : Nat) (x : Ctx) : (s.setCtx k j x).lLow = s.lLow := rfl
@[simp] theorem State.setCtx_lHigh (s : State) (k j : Nat) (x : Ctx) : (s.setCtx k j x).lHigh = s.lHigh := rfl
@[simp] theorem State.setCtx_refund (s : State) (k j : Nat) (x : Ctx) : (s.setCtx k j x).refund = s.refund := rfl
@[simp] theorem State.setCtx_rates (s : State) (k j : Nat) (x : Ctx) : (s.setCtx k j x).rates = s.rates := rfl
@[simp] theorem State.setCtx_rlowm (s : State) (k j : Nat) (x : Ctx) : (s.setCtx k j x).rlowm = s.rlowm := rfl
@[simp] theorem State.setCtx_patrolR (s : State) (k j : Nat) (x : Ctx) : (s.setCtx k j x).patrolR = s.patrolR := rfl
@[simp] theorem State.setCtx_errUe (s : State) (k j : Nat) (x : Ctx) : (s.setCtx k j x).errUe = s.errUe := rfl
@[simp] theorem State.setCtx_errCe (s : State) (k j : Nat) (x : Ctx) : (s.setCtx k j x).errCe = s.errCe := rfl
@[simp] theorem State.setCtx_errAddr (s : State) (k j : Nat) (x : Ctx) : (s.setCtx k j x).errAddr = s.errAddr := rfl
@[simp] theorem State.setCtx_errValid (s : State) (k j : Nat) (x : Ctx) : (s.setCtx k j x).errValid = s.errValid := rfl
@[simp] theorem State.setCtx_patrolAt (s : State) (k j : Nat) (x : Ctx) : (s.setCtx k j x).patrolAt = s.patrolAt := rfl
@[simp] theorem State.setCtx_mwsel (s : State) (k j : Nat) (x : Ctx) : (s.setCtx k j x).mwsel = s.mwsel := rfl
@[simp] theorem State.setCtx_boot (s : State) (k j : Nat) (x : Ctx) : (s.setCtx k j x).boot = s.boot := rfl
@[simp] theorem State.setCtx_fuses (s : State) (k j : Nat) (x : Ctx) : (s.setCtx k j x).fuses = s.fuses := rfl
@[simp] theorem State.setCtx_alarm (s : State) (k j : Nat) (x : Ctx) : (s.setCtx k j x).alarm = s.alarm := rfl
@[simp] theorem State.setCtx_alarmInForce (s : State) (k j : Nat) (x : Ctx) : (s.setCtx k j x).alarmInForce = s.alarmInForce := rfl
@[simp] theorem State.setCtx_powerLimit (s : State) (k j : Nat) (x : Ctx) : (s.setCtx k j x).powerLimit = s.powerLimit := rfl
@[simp] theorem State.setCtx_power (s : State) (k j : Nat) (x : Ctx) : (s.setCtx k j x).power = s.power := rfl
@[simp] theorem State.setCtx_powers (s : State) (k j : Nat) (x : Ctx) : (s.setCtx k j x).powers = s.powers := rfl
@[simp] theorem State.setCtx_below (s : State) (k j : Nat) (x : Ctx) : (s.setCtx k j x).below = s.below := rfl
@[simp] theorem State.setCtx_hevents (s : State) (k j : Nat) (x : Ctx) : (s.setCtx k j x).hevents = s.hevents := rfl
@[simp] theorem State.setCtx_kvReports (s : State) (k j : Nat) (x : Ctx) : (s.setCtx k j x).kvReports = s.kvReports := rfl
@[simp] theorem State.setCtx_msixSent (s : State) (k j : Nat) (x : Ctx) : (s.setCtx k j x).msixSent = s.msixSent := rfl
@[simp] theorem State.setCtx_priSent (s : State) (k j : Nat) (x : Ctx) : (s.setCtx k j x).priSent = s.priSent := rfl
@[simp] theorem State.setCtx_spdm (s : State) (k j : Nat) (x : Ctx) : (s.setCtx k j x).spdm = s.spdm := rfl
@[simp] theorem State.setCtx_cfgSent (s : State) (k j : Nat) (x : Ctx) : (s.setCtx k j x).cfgSent = s.cfgSent := rfl
@[simp] theorem State.setCtx_ports (s : State) (k j : Nat) (x : Ctx) : (s.setCtx k j x).ports = s.ports := rfl
@[simp] theorem State.setCtx_pkg (s : State) (k j : Nat) (x : Ctx) : (s.setCtx k j x).pkg = s.pkg := rfl
@[simp] theorem State.setCtx_routes (s : State) (k j : Nat) (x : Ctx) : (s.setCtx k j x).routes = s.routes := rfl
@[simp] theorem State.setCtx_asks (s : State) (k j : Nat) (x : Ctx) : (s.setCtx k j x).asks = s.asks := rfl
@[simp] theorem State.setCtx_policy (s : State) (k j : Nat) (x : Ctx) : (s.setCtx k j x).policy = s.policy := rfl
@[simp] theorem State.setCtx_free (s : State) (k j : Nat) (x : Ctx) : (s.setCtx k j x).free = s.free := rfl
@[simp] theorem State.setCtx_oracle (s : State) (k j : Nat) (x : Ctx) : (s.setCtx k j x).oracle = s.oracle := rfl
@[simp] theorem State.setCtx_agenda (s : State) (k j : Nat) (x : Ctx) : (s.setCtx k j x).agenda = s.agenda := rfl
@[simp] theorem State.setCtx_turn (s : State) (k j : Nat) (x : Ctx) : (s.setCtx k j x).turn = s.turn := rfl
@[simp] theorem State.setCtx_lag (s : State) (k j : Nat) (x : Ctx) : (s.setCtx k j x).lag = s.lag := rfl
@[simp] theorem State.setCtx_walks (s : State) (k j : Nat) (x : Ctx) : (s.setCtx k j x).walks = s.walks := rfl
@[simp] theorem State.setCtx_upsets (s : State) (k j : Nat) (x : Ctx) : (s.setCtx k j x).upsets = s.upsets := rfl
@[simp] theorem State.setCtx_issue (s : State) (k j : Nat) (x : Ctx) : (s.setCtx k j x).issue = s.issue := rfl

@[simp] theorem State.updCtx_cycle (s : State) (k j : Nat) (f : Ctx → Ctx) : (s.updCtx k j f).cycle = s.cycle := rfl
@[simp] theorem State.updCtx_mem (s : State) (k j : Nat) (f : Ctx → Ctx) : (s.updCtx k j f).mem = s.mem := rfl
@[simp] theorem State.updCtx_hostMem (s : State) (k j : Nat) (f : Ctx → Ctx) : (s.updCtx k j f).hostMem = s.hostMem := rfl
@[simp] theorem State.updCtx_poison (s : State) (k j : Nat) (f : Ctx → Ctx) : (s.updCtx k j f).poison = s.poison := rfl
@[simp] theorem State.updCtx_wrong (s : State) (k j : Nat) (f : Ctx → Ctx) : (s.updCtx k j f).wrong = s.wrong := rfl
@[simp] theorem State.updCtx_badWrites (s : State) (k j : Nat) (f : Ctx → Ctx) : (s.updCtx k j f).badWrites = s.badWrites := rfl
@[simp] theorem State.updCtx_fns (s : State) (k j : Nat) (f : Ctx → Ctx) : (s.updCtx k j f).fns = s.fns := rfl
@[simp] theorem State.updCtx_quads (s : State) (k j : Nat) (f : Ctx → Ctx) : (s.updCtx k j f).quads = s.quads := rfl
@[simp] theorem State.updCtx_turns (s : State) (k j : Nat) (f : Ctx → Ctx) : (s.updCtx k j f).turns = s.turns := rfl
@[simp] theorem State.updCtx_launches (s : State) (k j : Nat) (f : Ctx → Ctx) : (s.updCtx k j f).launches = s.launches := rfl
@[simp] theorem State.updCtx_regions (s : State) (k j : Nat) (f : Ctx → Ctx) : (s.updCtx k j f).regions = s.regions := rfl
@[simp] theorem State.updCtx_ended (s : State) (k j : Nat) (f : Ctx → Ctx) : (s.updCtx k j f).ended = s.ended := rfl
@[simp] theorem State.updCtx_pendings (s : State) (k j : Nat) (f : Ctx → Ctx) : (s.updCtx k j f).pendings = s.pendings := rfl
@[simp] theorem State.updCtx_barriers (s : State) (k j : Nat) (f : Ctx → Ctx) : (s.updCtx k j f).barriers = s.barriers := rfl
@[simp] theorem State.updCtx_colls (s : State) (k j : Nat) (f : Ctx → Ctx) : (s.updCtx k j f).colls = s.colls := rfl
@[simp] theorem State.updCtx_scrubs (s : State) (k j : Nat) (f : Ctx → Ctx) : (s.updCtx k j f).scrubs = s.scrubs := rfl
@[simp] theorem State.updCtx_nextId (s : State) (k j : Nat) (f : Ctx → Ctx) : (s.updCtx k j f).nextId = s.nextId := rfl
@[simp] theorem State.updCtx_nextVa (s : State) (k j : Nat) (f : Ctx → Ctx) : (s.updCtx k j f).nextVa = s.nextVa := rfl
@[simp] theorem State.updCtx_served (s : State) (k j : Nat) (f : Ctx → Ctx) : (s.updCtx k j f).served = s.served := rfl
@[simp] theorem State.updCtx_sel (s : State) (k j : Nat) (f : Ctx → Ctx) : (s.updCtx k j f).sel = s.sel := rfl
@[simp] theorem State.updCtx_heatLow (s : State) (k j : Nat) (f : Ctx → Ctx) : (s.updCtx k j f).heatLow = s.heatLow := rfl
@[simp] theorem State.updCtx_heatHigh (s : State) (k j : Nat) (f : Ctx → Ctx) : (s.updCtx k j f).heatHigh = s.heatHigh := rfl
@[simp] theorem State.updCtx_lLow (s : State) (k j : Nat) (f : Ctx → Ctx) : (s.updCtx k j f).lLow = s.lLow := rfl
@[simp] theorem State.updCtx_lHigh (s : State) (k j : Nat) (f : Ctx → Ctx) : (s.updCtx k j f).lHigh = s.lHigh := rfl
@[simp] theorem State.updCtx_refund (s : State) (k j : Nat) (f : Ctx → Ctx) : (s.updCtx k j f).refund = s.refund := rfl
@[simp] theorem State.updCtx_rates (s : State) (k j : Nat) (f : Ctx → Ctx) : (s.updCtx k j f).rates = s.rates := rfl
@[simp] theorem State.updCtx_rlowm (s : State) (k j : Nat) (f : Ctx → Ctx) : (s.updCtx k j f).rlowm = s.rlowm := rfl
@[simp] theorem State.updCtx_patrolR (s : State) (k j : Nat) (f : Ctx → Ctx) : (s.updCtx k j f).patrolR = s.patrolR := rfl
@[simp] theorem State.updCtx_errUe (s : State) (k j : Nat) (f : Ctx → Ctx) : (s.updCtx k j f).errUe = s.errUe := rfl
@[simp] theorem State.updCtx_errCe (s : State) (k j : Nat) (f : Ctx → Ctx) : (s.updCtx k j f).errCe = s.errCe := rfl
@[simp] theorem State.updCtx_errAddr (s : State) (k j : Nat) (f : Ctx → Ctx) : (s.updCtx k j f).errAddr = s.errAddr := rfl
@[simp] theorem State.updCtx_errValid (s : State) (k j : Nat) (f : Ctx → Ctx) : (s.updCtx k j f).errValid = s.errValid := rfl
@[simp] theorem State.updCtx_patrolAt (s : State) (k j : Nat) (f : Ctx → Ctx) : (s.updCtx k j f).patrolAt = s.patrolAt := rfl
@[simp] theorem State.updCtx_mwsel (s : State) (k j : Nat) (f : Ctx → Ctx) : (s.updCtx k j f).mwsel = s.mwsel := rfl
@[simp] theorem State.updCtx_boot (s : State) (k j : Nat) (f : Ctx → Ctx) : (s.updCtx k j f).boot = s.boot := rfl
@[simp] theorem State.updCtx_fuses (s : State) (k j : Nat) (f : Ctx → Ctx) : (s.updCtx k j f).fuses = s.fuses := rfl
@[simp] theorem State.updCtx_alarm (s : State) (k j : Nat) (f : Ctx → Ctx) : (s.updCtx k j f).alarm = s.alarm := rfl
@[simp] theorem State.updCtx_alarmInForce (s : State) (k j : Nat) (f : Ctx → Ctx) : (s.updCtx k j f).alarmInForce = s.alarmInForce := rfl
@[simp] theorem State.updCtx_powerLimit (s : State) (k j : Nat) (f : Ctx → Ctx) : (s.updCtx k j f).powerLimit = s.powerLimit := rfl
@[simp] theorem State.updCtx_power (s : State) (k j : Nat) (f : Ctx → Ctx) : (s.updCtx k j f).power = s.power := rfl
@[simp] theorem State.updCtx_powers (s : State) (k j : Nat) (f : Ctx → Ctx) : (s.updCtx k j f).powers = s.powers := rfl
@[simp] theorem State.updCtx_below (s : State) (k j : Nat) (f : Ctx → Ctx) : (s.updCtx k j f).below = s.below := rfl
@[simp] theorem State.updCtx_hevents (s : State) (k j : Nat) (f : Ctx → Ctx) : (s.updCtx k j f).hevents = s.hevents := rfl
@[simp] theorem State.updCtx_kvReports (s : State) (k j : Nat) (f : Ctx → Ctx) : (s.updCtx k j f).kvReports = s.kvReports := rfl
@[simp] theorem State.updCtx_msixSent (s : State) (k j : Nat) (f : Ctx → Ctx) : (s.updCtx k j f).msixSent = s.msixSent := rfl
@[simp] theorem State.updCtx_priSent (s : State) (k j : Nat) (f : Ctx → Ctx) : (s.updCtx k j f).priSent = s.priSent := rfl
@[simp] theorem State.updCtx_spdm (s : State) (k j : Nat) (f : Ctx → Ctx) : (s.updCtx k j f).spdm = s.spdm := rfl
@[simp] theorem State.updCtx_cfgSent (s : State) (k j : Nat) (f : Ctx → Ctx) : (s.updCtx k j f).cfgSent = s.cfgSent := rfl
@[simp] theorem State.updCtx_ports (s : State) (k j : Nat) (f : Ctx → Ctx) : (s.updCtx k j f).ports = s.ports := rfl
@[simp] theorem State.updCtx_pkg (s : State) (k j : Nat) (f : Ctx → Ctx) : (s.updCtx k j f).pkg = s.pkg := rfl
@[simp] theorem State.updCtx_routes (s : State) (k j : Nat) (f : Ctx → Ctx) : (s.updCtx k j f).routes = s.routes := rfl
@[simp] theorem State.updCtx_asks (s : State) (k j : Nat) (f : Ctx → Ctx) : (s.updCtx k j f).asks = s.asks := rfl
@[simp] theorem State.updCtx_policy (s : State) (k j : Nat) (f : Ctx → Ctx) : (s.updCtx k j f).policy = s.policy := rfl
@[simp] theorem State.updCtx_free (s : State) (k j : Nat) (f : Ctx → Ctx) : (s.updCtx k j f).free = s.free := rfl
@[simp] theorem State.updCtx_oracle (s : State) (k j : Nat) (f : Ctx → Ctx) : (s.updCtx k j f).oracle = s.oracle := rfl
@[simp] theorem State.updCtx_agenda (s : State) (k j : Nat) (f : Ctx → Ctx) : (s.updCtx k j f).agenda = s.agenda := rfl
@[simp] theorem State.updCtx_turn (s : State) (k j : Nat) (f : Ctx → Ctx) : (s.updCtx k j f).turn = s.turn := rfl
@[simp] theorem State.updCtx_lag (s : State) (k j : Nat) (f : Ctx → Ctx) : (s.updCtx k j f).lag = s.lag := rfl
@[simp] theorem State.updCtx_walks (s : State) (k j : Nat) (f : Ctx → Ctx) : (s.updCtx k j f).walks = s.walks := rfl
@[simp] theorem State.updCtx_upsets (s : State) (k j : Nat) (f : Ctx → Ctx) : (s.updCtx k j f).upsets = s.upsets := rfl
@[simp] theorem State.updCtx_issue (s : State) (k j : Nat) (f : Ctx → Ctx) : (s.updCtx k j f).issue = s.issue := rfl

@[simp] theorem State.updMe_cycle (s : State) (f : Ctx → Ctx) : (s.updMe f).cycle = s.cycle := rfl
@[simp] theorem State.updMe_mem (s : State) (f : Ctx → Ctx) : (s.updMe f).mem = s.mem := rfl
@[simp] theorem State.updMe_hostMem (s : State) (f : Ctx → Ctx) : (s.updMe f).hostMem = s.hostMem := rfl
@[simp] theorem State.updMe_poison (s : State) (f : Ctx → Ctx) : (s.updMe f).poison = s.poison := rfl
@[simp] theorem State.updMe_wrong (s : State) (f : Ctx → Ctx) : (s.updMe f).wrong = s.wrong := rfl
@[simp] theorem State.updMe_badWrites (s : State) (f : Ctx → Ctx) : (s.updMe f).badWrites = s.badWrites := rfl
@[simp] theorem State.updMe_fns (s : State) (f : Ctx → Ctx) : (s.updMe f).fns = s.fns := rfl
@[simp] theorem State.updMe_quads (s : State) (f : Ctx → Ctx) : (s.updMe f).quads = s.quads := rfl
@[simp] theorem State.updMe_turns (s : State) (f : Ctx → Ctx) : (s.updMe f).turns = s.turns := rfl
@[simp] theorem State.updMe_launches (s : State) (f : Ctx → Ctx) : (s.updMe f).launches = s.launches := rfl
@[simp] theorem State.updMe_regions (s : State) (f : Ctx → Ctx) : (s.updMe f).regions = s.regions := rfl
@[simp] theorem State.updMe_ended (s : State) (f : Ctx → Ctx) : (s.updMe f).ended = s.ended := rfl
@[simp] theorem State.updMe_pendings (s : State) (f : Ctx → Ctx) : (s.updMe f).pendings = s.pendings := rfl
@[simp] theorem State.updMe_barriers (s : State) (f : Ctx → Ctx) : (s.updMe f).barriers = s.barriers := rfl
@[simp] theorem State.updMe_colls (s : State) (f : Ctx → Ctx) : (s.updMe f).colls = s.colls := rfl
@[simp] theorem State.updMe_scrubs (s : State) (f : Ctx → Ctx) : (s.updMe f).scrubs = s.scrubs := rfl
@[simp] theorem State.updMe_nextId (s : State) (f : Ctx → Ctx) : (s.updMe f).nextId = s.nextId := rfl
@[simp] theorem State.updMe_nextVa (s : State) (f : Ctx → Ctx) : (s.updMe f).nextVa = s.nextVa := rfl
@[simp] theorem State.updMe_served (s : State) (f : Ctx → Ctx) : (s.updMe f).served = s.served := rfl
@[simp] theorem State.updMe_sel (s : State) (f : Ctx → Ctx) : (s.updMe f).sel = s.sel := rfl
@[simp] theorem State.updMe_heatLow (s : State) (f : Ctx → Ctx) : (s.updMe f).heatLow = s.heatLow := rfl
@[simp] theorem State.updMe_heatHigh (s : State) (f : Ctx → Ctx) : (s.updMe f).heatHigh = s.heatHigh := rfl
@[simp] theorem State.updMe_lLow (s : State) (f : Ctx → Ctx) : (s.updMe f).lLow = s.lLow := rfl
@[simp] theorem State.updMe_lHigh (s : State) (f : Ctx → Ctx) : (s.updMe f).lHigh = s.lHigh := rfl
@[simp] theorem State.updMe_refund (s : State) (f : Ctx → Ctx) : (s.updMe f).refund = s.refund := rfl
@[simp] theorem State.updMe_rates (s : State) (f : Ctx → Ctx) : (s.updMe f).rates = s.rates := rfl
@[simp] theorem State.updMe_rlowm (s : State) (f : Ctx → Ctx) : (s.updMe f).rlowm = s.rlowm := rfl
@[simp] theorem State.updMe_patrolR (s : State) (f : Ctx → Ctx) : (s.updMe f).patrolR = s.patrolR := rfl
@[simp] theorem State.updMe_errUe (s : State) (f : Ctx → Ctx) : (s.updMe f).errUe = s.errUe := rfl
@[simp] theorem State.updMe_errCe (s : State) (f : Ctx → Ctx) : (s.updMe f).errCe = s.errCe := rfl
@[simp] theorem State.updMe_errAddr (s : State) (f : Ctx → Ctx) : (s.updMe f).errAddr = s.errAddr := rfl
@[simp] theorem State.updMe_errValid (s : State) (f : Ctx → Ctx) : (s.updMe f).errValid = s.errValid := rfl
@[simp] theorem State.updMe_patrolAt (s : State) (f : Ctx → Ctx) : (s.updMe f).patrolAt = s.patrolAt := rfl
@[simp] theorem State.updMe_mwsel (s : State) (f : Ctx → Ctx) : (s.updMe f).mwsel = s.mwsel := rfl
@[simp] theorem State.updMe_boot (s : State) (f : Ctx → Ctx) : (s.updMe f).boot = s.boot := rfl
@[simp] theorem State.updMe_fuses (s : State) (f : Ctx → Ctx) : (s.updMe f).fuses = s.fuses := rfl
@[simp] theorem State.updMe_alarm (s : State) (f : Ctx → Ctx) : (s.updMe f).alarm = s.alarm := rfl
@[simp] theorem State.updMe_alarmInForce (s : State) (f : Ctx → Ctx) : (s.updMe f).alarmInForce = s.alarmInForce := rfl
@[simp] theorem State.updMe_powerLimit (s : State) (f : Ctx → Ctx) : (s.updMe f).powerLimit = s.powerLimit := rfl
@[simp] theorem State.updMe_power (s : State) (f : Ctx → Ctx) : (s.updMe f).power = s.power := rfl
@[simp] theorem State.updMe_powers (s : State) (f : Ctx → Ctx) : (s.updMe f).powers = s.powers := rfl
@[simp] theorem State.updMe_below (s : State) (f : Ctx → Ctx) : (s.updMe f).below = s.below := rfl
@[simp] theorem State.updMe_hevents (s : State) (f : Ctx → Ctx) : (s.updMe f).hevents = s.hevents := rfl
@[simp] theorem State.updMe_kvReports (s : State) (f : Ctx → Ctx) : (s.updMe f).kvReports = s.kvReports := rfl
@[simp] theorem State.updMe_msixSent (s : State) (f : Ctx → Ctx) : (s.updMe f).msixSent = s.msixSent := rfl
@[simp] theorem State.updMe_priSent (s : State) (f : Ctx → Ctx) : (s.updMe f).priSent = s.priSent := rfl
@[simp] theorem State.updMe_spdm (s : State) (f : Ctx → Ctx) : (s.updMe f).spdm = s.spdm := rfl
@[simp] theorem State.updMe_cfgSent (s : State) (f : Ctx → Ctx) : (s.updMe f).cfgSent = s.cfgSent := rfl
@[simp] theorem State.updMe_ports (s : State) (f : Ctx → Ctx) : (s.updMe f).ports = s.ports := rfl
@[simp] theorem State.updMe_pkg (s : State) (f : Ctx → Ctx) : (s.updMe f).pkg = s.pkg := rfl
@[simp] theorem State.updMe_routes (s : State) (f : Ctx → Ctx) : (s.updMe f).routes = s.routes := rfl
@[simp] theorem State.updMe_asks (s : State) (f : Ctx → Ctx) : (s.updMe f).asks = s.asks := rfl
@[simp] theorem State.updMe_policy (s : State) (f : Ctx → Ctx) : (s.updMe f).policy = s.policy := rfl
@[simp] theorem State.updMe_free (s : State) (f : Ctx → Ctx) : (s.updMe f).free = s.free := rfl
@[simp] theorem State.updMe_oracle (s : State) (f : Ctx → Ctx) : (s.updMe f).oracle = s.oracle := rfl
@[simp] theorem State.updMe_agenda (s : State) (f : Ctx → Ctx) : (s.updMe f).agenda = s.agenda := rfl
@[simp] theorem State.updMe_turn (s : State) (f : Ctx → Ctx) : (s.updMe f).turn = s.turn := rfl
@[simp] theorem State.updMe_lag (s : State) (f : Ctx → Ctx) : (s.updMe f).lag = s.lag := rfl
@[simp] theorem State.updMe_walks (s : State) (f : Ctx → Ctx) : (s.updMe f).walks = s.walks := rfl
@[simp] theorem State.updMe_upsets (s : State) (f : Ctx → Ctx) : (s.updMe f).upsets = s.upsets := rfl
@[simp] theorem State.updMe_issue (s : State) (f : Ctx → Ctx) : (s.updMe f).issue = s.issue := rfl

@[simp] theorem State.updMyCore_cycle (s : State) (f : CoreSt → CoreSt) : (s.updMyCore f).cycle = s.cycle := rfl
@[simp] theorem State.updMyCore_mem (s : State) (f : CoreSt → CoreSt) : (s.updMyCore f).mem = s.mem := rfl
@[simp] theorem State.updMyCore_hostMem (s : State) (f : CoreSt → CoreSt) : (s.updMyCore f).hostMem = s.hostMem := rfl
@[simp] theorem State.updMyCore_poison (s : State) (f : CoreSt → CoreSt) : (s.updMyCore f).poison = s.poison := rfl
@[simp] theorem State.updMyCore_wrong (s : State) (f : CoreSt → CoreSt) : (s.updMyCore f).wrong = s.wrong := rfl
@[simp] theorem State.updMyCore_badWrites (s : State) (f : CoreSt → CoreSt) : (s.updMyCore f).badWrites = s.badWrites := rfl
@[simp] theorem State.updMyCore_fns (s : State) (f : CoreSt → CoreSt) : (s.updMyCore f).fns = s.fns := rfl
@[simp] theorem State.updMyCore_quads (s : State) (f : CoreSt → CoreSt) : (s.updMyCore f).quads = s.quads := rfl
@[simp] theorem State.updMyCore_turns (s : State) (f : CoreSt → CoreSt) : (s.updMyCore f).turns = s.turns := rfl
@[simp] theorem State.updMyCore_launches (s : State) (f : CoreSt → CoreSt) : (s.updMyCore f).launches = s.launches := rfl
@[simp] theorem State.updMyCore_regions (s : State) (f : CoreSt → CoreSt) : (s.updMyCore f).regions = s.regions := rfl
@[simp] theorem State.updMyCore_ended (s : State) (f : CoreSt → CoreSt) : (s.updMyCore f).ended = s.ended := rfl
@[simp] theorem State.updMyCore_pendings (s : State) (f : CoreSt → CoreSt) : (s.updMyCore f).pendings = s.pendings := rfl
@[simp] theorem State.updMyCore_barriers (s : State) (f : CoreSt → CoreSt) : (s.updMyCore f).barriers = s.barriers := rfl
@[simp] theorem State.updMyCore_colls (s : State) (f : CoreSt → CoreSt) : (s.updMyCore f).colls = s.colls := rfl
@[simp] theorem State.updMyCore_scrubs (s : State) (f : CoreSt → CoreSt) : (s.updMyCore f).scrubs = s.scrubs := rfl
@[simp] theorem State.updMyCore_nextId (s : State) (f : CoreSt → CoreSt) : (s.updMyCore f).nextId = s.nextId := rfl
@[simp] theorem State.updMyCore_nextVa (s : State) (f : CoreSt → CoreSt) : (s.updMyCore f).nextVa = s.nextVa := rfl
@[simp] theorem State.updMyCore_served (s : State) (f : CoreSt → CoreSt) : (s.updMyCore f).served = s.served := rfl
@[simp] theorem State.updMyCore_sel (s : State) (f : CoreSt → CoreSt) : (s.updMyCore f).sel = s.sel := rfl
@[simp] theorem State.updMyCore_heatLow (s : State) (f : CoreSt → CoreSt) : (s.updMyCore f).heatLow = s.heatLow := rfl
@[simp] theorem State.updMyCore_heatHigh (s : State) (f : CoreSt → CoreSt) : (s.updMyCore f).heatHigh = s.heatHigh := rfl
@[simp] theorem State.updMyCore_lLow (s : State) (f : CoreSt → CoreSt) : (s.updMyCore f).lLow = s.lLow := rfl
@[simp] theorem State.updMyCore_lHigh (s : State) (f : CoreSt → CoreSt) : (s.updMyCore f).lHigh = s.lHigh := rfl
@[simp] theorem State.updMyCore_refund (s : State) (f : CoreSt → CoreSt) : (s.updMyCore f).refund = s.refund := rfl
@[simp] theorem State.updMyCore_rates (s : State) (f : CoreSt → CoreSt) : (s.updMyCore f).rates = s.rates := rfl
@[simp] theorem State.updMyCore_rlowm (s : State) (f : CoreSt → CoreSt) : (s.updMyCore f).rlowm = s.rlowm := rfl
@[simp] theorem State.updMyCore_patrolR (s : State) (f : CoreSt → CoreSt) : (s.updMyCore f).patrolR = s.patrolR := rfl
@[simp] theorem State.updMyCore_errUe (s : State) (f : CoreSt → CoreSt) : (s.updMyCore f).errUe = s.errUe := rfl
@[simp] theorem State.updMyCore_errCe (s : State) (f : CoreSt → CoreSt) : (s.updMyCore f).errCe = s.errCe := rfl
@[simp] theorem State.updMyCore_errAddr (s : State) (f : CoreSt → CoreSt) : (s.updMyCore f).errAddr = s.errAddr := rfl
@[simp] theorem State.updMyCore_errValid (s : State) (f : CoreSt → CoreSt) : (s.updMyCore f).errValid = s.errValid := rfl
@[simp] theorem State.updMyCore_patrolAt (s : State) (f : CoreSt → CoreSt) : (s.updMyCore f).patrolAt = s.patrolAt := rfl
@[simp] theorem State.updMyCore_mwsel (s : State) (f : CoreSt → CoreSt) : (s.updMyCore f).mwsel = s.mwsel := rfl
@[simp] theorem State.updMyCore_boot (s : State) (f : CoreSt → CoreSt) : (s.updMyCore f).boot = s.boot := rfl
@[simp] theorem State.updMyCore_fuses (s : State) (f : CoreSt → CoreSt) : (s.updMyCore f).fuses = s.fuses := rfl
@[simp] theorem State.updMyCore_alarm (s : State) (f : CoreSt → CoreSt) : (s.updMyCore f).alarm = s.alarm := rfl
@[simp] theorem State.updMyCore_alarmInForce (s : State) (f : CoreSt → CoreSt) : (s.updMyCore f).alarmInForce = s.alarmInForce := rfl
@[simp] theorem State.updMyCore_powerLimit (s : State) (f : CoreSt → CoreSt) : (s.updMyCore f).powerLimit = s.powerLimit := rfl
@[simp] theorem State.updMyCore_power (s : State) (f : CoreSt → CoreSt) : (s.updMyCore f).power = s.power := rfl
@[simp] theorem State.updMyCore_powers (s : State) (f : CoreSt → CoreSt) : (s.updMyCore f).powers = s.powers := rfl
@[simp] theorem State.updMyCore_below (s : State) (f : CoreSt → CoreSt) : (s.updMyCore f).below = s.below := rfl
@[simp] theorem State.updMyCore_hevents (s : State) (f : CoreSt → CoreSt) : (s.updMyCore f).hevents = s.hevents := rfl
@[simp] theorem State.updMyCore_kvReports (s : State) (f : CoreSt → CoreSt) : (s.updMyCore f).kvReports = s.kvReports := rfl
@[simp] theorem State.updMyCore_msixSent (s : State) (f : CoreSt → CoreSt) : (s.updMyCore f).msixSent = s.msixSent := rfl
@[simp] theorem State.updMyCore_priSent (s : State) (f : CoreSt → CoreSt) : (s.updMyCore f).priSent = s.priSent := rfl
@[simp] theorem State.updMyCore_spdm (s : State) (f : CoreSt → CoreSt) : (s.updMyCore f).spdm = s.spdm := rfl
@[simp] theorem State.updMyCore_cfgSent (s : State) (f : CoreSt → CoreSt) : (s.updMyCore f).cfgSent = s.cfgSent := rfl
@[simp] theorem State.updMyCore_ports (s : State) (f : CoreSt → CoreSt) : (s.updMyCore f).ports = s.ports := rfl
@[simp] theorem State.updMyCore_pkg (s : State) (f : CoreSt → CoreSt) : (s.updMyCore f).pkg = s.pkg := rfl
@[simp] theorem State.updMyCore_routes (s : State) (f : CoreSt → CoreSt) : (s.updMyCore f).routes = s.routes := rfl
@[simp] theorem State.updMyCore_asks (s : State) (f : CoreSt → CoreSt) : (s.updMyCore f).asks = s.asks := rfl
@[simp] theorem State.updMyCore_policy (s : State) (f : CoreSt → CoreSt) : (s.updMyCore f).policy = s.policy := rfl
@[simp] theorem State.updMyCore_free (s : State) (f : CoreSt → CoreSt) : (s.updMyCore f).free = s.free := rfl
@[simp] theorem State.updMyCore_oracle (s : State) (f : CoreSt → CoreSt) : (s.updMyCore f).oracle = s.oracle := rfl
@[simp] theorem State.updMyCore_agenda (s : State) (f : CoreSt → CoreSt) : (s.updMyCore f).agenda = s.agenda := rfl
@[simp] theorem State.updMyCore_turn (s : State) (f : CoreSt → CoreSt) : (s.updMyCore f).turn = s.turn := rfl
@[simp] theorem State.updMyCore_lag (s : State) (f : CoreSt → CoreSt) : (s.updMyCore f).lag = s.lag := rfl
@[simp] theorem State.updMyCore_walks (s : State) (f : CoreSt → CoreSt) : (s.updMyCore f).walks = s.walks := rfl
@[simp] theorem State.updMyCore_upsets (s : State) (f : CoreSt → CoreSt) : (s.updMyCore f).upsets = s.upsets := rfl
@[simp] theorem State.updMyCore_issue (s : State) (f : CoreSt → CoreSt) : (s.updMyCore f).issue = s.issue := rfl

@[simp] theorem State.fly_cycle (s : State) (f : Flight) : (s.fly f).cycle = s.cycle := rfl
@[simp] theorem State.fly_mem (s : State) (f : Flight) : (s.fly f).mem = s.mem := rfl
@[simp] theorem State.fly_hostMem (s : State) (f : Flight) : (s.fly f).hostMem = s.hostMem := rfl
@[simp] theorem State.fly_poison (s : State) (f : Flight) : (s.fly f).poison = s.poison := rfl
@[simp] theorem State.fly_wrong (s : State) (f : Flight) : (s.fly f).wrong = s.wrong := rfl
@[simp] theorem State.fly_badWrites (s : State) (f : Flight) : (s.fly f).badWrites = s.badWrites := rfl
@[simp] theorem State.fly_fns (s : State) (f : Flight) : (s.fly f).fns = s.fns := rfl
@[simp] theorem State.fly_quads (s : State) (f : Flight) : (s.fly f).quads = s.quads := rfl
@[simp] theorem State.fly_turns (s : State) (f : Flight) : (s.fly f).turns = s.turns := rfl
@[simp] theorem State.fly_launches (s : State) (f : Flight) : (s.fly f).launches = s.launches := rfl
@[simp] theorem State.fly_regions (s : State) (f : Flight) : (s.fly f).regions = s.regions := rfl
@[simp] theorem State.fly_ended (s : State) (f : Flight) : (s.fly f).ended = s.ended := rfl
@[simp] theorem State.fly_pendings (s : State) (f : Flight) : (s.fly f).pendings = s.pendings := rfl
@[simp] theorem State.fly_barriers (s : State) (f : Flight) : (s.fly f).barriers = s.barriers := rfl
@[simp] theorem State.fly_colls (s : State) (f : Flight) : (s.fly f).colls = s.colls := rfl
@[simp] theorem State.fly_scrubs (s : State) (f : Flight) : (s.fly f).scrubs = s.scrubs := rfl
@[simp] theorem State.fly_nextId (s : State) (f : Flight) : (s.fly f).nextId = s.nextId := rfl
@[simp] theorem State.fly_nextVa (s : State) (f : Flight) : (s.fly f).nextVa = s.nextVa := rfl
@[simp] theorem State.fly_served (s : State) (f : Flight) : (s.fly f).served = s.served := rfl
@[simp] theorem State.fly_sel (s : State) (f : Flight) : (s.fly f).sel = s.sel := rfl
@[simp] theorem State.fly_heatLow (s : State) (f : Flight) : (s.fly f).heatLow = s.heatLow := rfl
@[simp] theorem State.fly_heatHigh (s : State) (f : Flight) : (s.fly f).heatHigh = s.heatHigh := rfl
@[simp] theorem State.fly_lLow (s : State) (f : Flight) : (s.fly f).lLow = s.lLow := rfl
@[simp] theorem State.fly_lHigh (s : State) (f : Flight) : (s.fly f).lHigh = s.lHigh := rfl
@[simp] theorem State.fly_refund (s : State) (f : Flight) : (s.fly f).refund = s.refund := rfl
@[simp] theorem State.fly_rates (s : State) (f : Flight) : (s.fly f).rates = s.rates := rfl
@[simp] theorem State.fly_rlowm (s : State) (f : Flight) : (s.fly f).rlowm = s.rlowm := rfl
@[simp] theorem State.fly_patrolR (s : State) (f : Flight) : (s.fly f).patrolR = s.patrolR := rfl
@[simp] theorem State.fly_errUe (s : State) (f : Flight) : (s.fly f).errUe = s.errUe := rfl
@[simp] theorem State.fly_errCe (s : State) (f : Flight) : (s.fly f).errCe = s.errCe := rfl
@[simp] theorem State.fly_errAddr (s : State) (f : Flight) : (s.fly f).errAddr = s.errAddr := rfl
@[simp] theorem State.fly_errValid (s : State) (f : Flight) : (s.fly f).errValid = s.errValid := rfl
@[simp] theorem State.fly_patrolAt (s : State) (f : Flight) : (s.fly f).patrolAt = s.patrolAt := rfl
@[simp] theorem State.fly_mwsel (s : State) (f : Flight) : (s.fly f).mwsel = s.mwsel := rfl
@[simp] theorem State.fly_boot (s : State) (f : Flight) : (s.fly f).boot = s.boot := rfl
@[simp] theorem State.fly_fuses (s : State) (f : Flight) : (s.fly f).fuses = s.fuses := rfl
@[simp] theorem State.fly_alarm (s : State) (f : Flight) : (s.fly f).alarm = s.alarm := rfl
@[simp] theorem State.fly_alarmInForce (s : State) (f : Flight) : (s.fly f).alarmInForce = s.alarmInForce := rfl
@[simp] theorem State.fly_powerLimit (s : State) (f : Flight) : (s.fly f).powerLimit = s.powerLimit := rfl
@[simp] theorem State.fly_power (s : State) (f : Flight) : (s.fly f).power = s.power := rfl
@[simp] theorem State.fly_powers (s : State) (f : Flight) : (s.fly f).powers = s.powers := rfl
@[simp] theorem State.fly_below (s : State) (f : Flight) : (s.fly f).below = s.below := rfl
@[simp] theorem State.fly_hevents (s : State) (f : Flight) : (s.fly f).hevents = s.hevents := rfl
@[simp] theorem State.fly_kvReports (s : State) (f : Flight) : (s.fly f).kvReports = s.kvReports := rfl
@[simp] theorem State.fly_msixSent (s : State) (f : Flight) : (s.fly f).msixSent = s.msixSent := rfl
@[simp] theorem State.fly_priSent (s : State) (f : Flight) : (s.fly f).priSent = s.priSent := rfl
@[simp] theorem State.fly_spdm (s : State) (f : Flight) : (s.fly f).spdm = s.spdm := rfl
@[simp] theorem State.fly_cfgSent (s : State) (f : Flight) : (s.fly f).cfgSent = s.cfgSent := rfl
@[simp] theorem State.fly_ports (s : State) (f : Flight) : (s.fly f).ports = s.ports := rfl
@[simp] theorem State.fly_pkg (s : State) (f : Flight) : (s.fly f).pkg = s.pkg := rfl
@[simp] theorem State.fly_routes (s : State) (f : Flight) : (s.fly f).routes = s.routes := rfl
@[simp] theorem State.fly_asks (s : State) (f : Flight) : (s.fly f).asks = s.asks := rfl
@[simp] theorem State.fly_policy (s : State) (f : Flight) : (s.fly f).policy = s.policy := rfl
@[simp] theorem State.fly_free (s : State) (f : Flight) : (s.fly f).free = s.free := rfl
@[simp] theorem State.fly_oracle (s : State) (f : Flight) : (s.fly f).oracle = s.oracle := rfl
@[simp] theorem State.fly_agenda (s : State) (f : Flight) : (s.fly f).agenda = s.agenda := rfl
@[simp] theorem State.fly_turn (s : State) (f : Flight) : (s.fly f).turn = s.turn := rfl
@[simp] theorem State.fly_lag (s : State) (f : Flight) : (s.fly f).lag = s.lag := rfl
@[simp] theorem State.fly_walks (s : State) (f : Flight) : (s.fly f).walks = s.walks := rfl
@[simp] theorem State.fly_upsets (s : State) (f : Flight) : (s.fly f).upsets = s.upsets := rfl
@[simp] theorem State.fly_issue (s : State) (f : Flight) : (s.fly f).issue = s.issue := rfl

@[simp] theorem State.land_cycle (s : State) (n : Nat) (l : List Land) : (s.land n l).cycle = s.cycle := rfl
@[simp] theorem State.land_mem (s : State) (n : Nat) (l : List Land) : (s.land n l).mem = s.mem := rfl
@[simp] theorem State.land_hostMem (s : State) (n : Nat) (l : List Land) : (s.land n l).hostMem = s.hostMem := rfl
@[simp] theorem State.land_poison (s : State) (n : Nat) (l : List Land) : (s.land n l).poison = s.poison := rfl
@[simp] theorem State.land_wrong (s : State) (n : Nat) (l : List Land) : (s.land n l).wrong = s.wrong := rfl
@[simp] theorem State.land_badWrites (s : State) (n : Nat) (l : List Land) : (s.land n l).badWrites = s.badWrites := rfl
@[simp] theorem State.land_fns (s : State) (n : Nat) (l : List Land) : (s.land n l).fns = s.fns := rfl
@[simp] theorem State.land_quads (s : State) (n : Nat) (l : List Land) : (s.land n l).quads = s.quads := rfl
@[simp] theorem State.land_turns (s : State) (n : Nat) (l : List Land) : (s.land n l).turns = s.turns := rfl
@[simp] theorem State.land_launches (s : State) (n : Nat) (l : List Land) : (s.land n l).launches = s.launches := rfl
@[simp] theorem State.land_regions (s : State) (n : Nat) (l : List Land) : (s.land n l).regions = s.regions := rfl
@[simp] theorem State.land_ended (s : State) (n : Nat) (l : List Land) : (s.land n l).ended = s.ended := rfl
@[simp] theorem State.land_pendings (s : State) (n : Nat) (l : List Land) : (s.land n l).pendings = s.pendings := rfl
@[simp] theorem State.land_barriers (s : State) (n : Nat) (l : List Land) : (s.land n l).barriers = s.barriers := rfl
@[simp] theorem State.land_colls (s : State) (n : Nat) (l : List Land) : (s.land n l).colls = s.colls := rfl
@[simp] theorem State.land_scrubs (s : State) (n : Nat) (l : List Land) : (s.land n l).scrubs = s.scrubs := rfl
@[simp] theorem State.land_nextId (s : State) (n : Nat) (l : List Land) : (s.land n l).nextId = s.nextId := rfl
@[simp] theorem State.land_nextVa (s : State) (n : Nat) (l : List Land) : (s.land n l).nextVa = s.nextVa := rfl
@[simp] theorem State.land_served (s : State) (n : Nat) (l : List Land) : (s.land n l).served = s.served := rfl
@[simp] theorem State.land_sel (s : State) (n : Nat) (l : List Land) : (s.land n l).sel = s.sel := rfl
@[simp] theorem State.land_heatLow (s : State) (n : Nat) (l : List Land) : (s.land n l).heatLow = s.heatLow := rfl
@[simp] theorem State.land_heatHigh (s : State) (n : Nat) (l : List Land) : (s.land n l).heatHigh = s.heatHigh := rfl
@[simp] theorem State.land_lLow (s : State) (n : Nat) (l : List Land) : (s.land n l).lLow = s.lLow := rfl
@[simp] theorem State.land_lHigh (s : State) (n : Nat) (l : List Land) : (s.land n l).lHigh = s.lHigh := rfl
@[simp] theorem State.land_refund (s : State) (n : Nat) (l : List Land) : (s.land n l).refund = s.refund := rfl
@[simp] theorem State.land_rates (s : State) (n : Nat) (l : List Land) : (s.land n l).rates = s.rates := rfl
@[simp] theorem State.land_rlowm (s : State) (n : Nat) (l : List Land) : (s.land n l).rlowm = s.rlowm := rfl
@[simp] theorem State.land_patrolR (s : State) (n : Nat) (l : List Land) : (s.land n l).patrolR = s.patrolR := rfl
@[simp] theorem State.land_errUe (s : State) (n : Nat) (l : List Land) : (s.land n l).errUe = s.errUe := rfl
@[simp] theorem State.land_errCe (s : State) (n : Nat) (l : List Land) : (s.land n l).errCe = s.errCe := rfl
@[simp] theorem State.land_errAddr (s : State) (n : Nat) (l : List Land) : (s.land n l).errAddr = s.errAddr := rfl
@[simp] theorem State.land_errValid (s : State) (n : Nat) (l : List Land) : (s.land n l).errValid = s.errValid := rfl
@[simp] theorem State.land_patrolAt (s : State) (n : Nat) (l : List Land) : (s.land n l).patrolAt = s.patrolAt := rfl
@[simp] theorem State.land_mwsel (s : State) (n : Nat) (l : List Land) : (s.land n l).mwsel = s.mwsel := rfl
@[simp] theorem State.land_boot (s : State) (n : Nat) (l : List Land) : (s.land n l).boot = s.boot := rfl
@[simp] theorem State.land_fuses (s : State) (n : Nat) (l : List Land) : (s.land n l).fuses = s.fuses := rfl
@[simp] theorem State.land_alarm (s : State) (n : Nat) (l : List Land) : (s.land n l).alarm = s.alarm := rfl
@[simp] theorem State.land_alarmInForce (s : State) (n : Nat) (l : List Land) : (s.land n l).alarmInForce = s.alarmInForce := rfl
@[simp] theorem State.land_powerLimit (s : State) (n : Nat) (l : List Land) : (s.land n l).powerLimit = s.powerLimit := rfl
@[simp] theorem State.land_power (s : State) (n : Nat) (l : List Land) : (s.land n l).power = s.power := rfl
@[simp] theorem State.land_powers (s : State) (n : Nat) (l : List Land) : (s.land n l).powers = s.powers := rfl
@[simp] theorem State.land_below (s : State) (n : Nat) (l : List Land) : (s.land n l).below = s.below := rfl
@[simp] theorem State.land_hevents (s : State) (n : Nat) (l : List Land) : (s.land n l).hevents = s.hevents := rfl
@[simp] theorem State.land_kvReports (s : State) (n : Nat) (l : List Land) : (s.land n l).kvReports = s.kvReports := rfl
@[simp] theorem State.land_msixSent (s : State) (n : Nat) (l : List Land) : (s.land n l).msixSent = s.msixSent := rfl
@[simp] theorem State.land_priSent (s : State) (n : Nat) (l : List Land) : (s.land n l).priSent = s.priSent := rfl
@[simp] theorem State.land_spdm (s : State) (n : Nat) (l : List Land) : (s.land n l).spdm = s.spdm := rfl
@[simp] theorem State.land_cfgSent (s : State) (n : Nat) (l : List Land) : (s.land n l).cfgSent = s.cfgSent := rfl
@[simp] theorem State.land_ports (s : State) (n : Nat) (l : List Land) : (s.land n l).ports = s.ports := rfl
@[simp] theorem State.land_pkg (s : State) (n : Nat) (l : List Land) : (s.land n l).pkg = s.pkg := rfl
@[simp] theorem State.land_routes (s : State) (n : Nat) (l : List Land) : (s.land n l).routes = s.routes := rfl
@[simp] theorem State.land_asks (s : State) (n : Nat) (l : List Land) : (s.land n l).asks = s.asks := rfl
@[simp] theorem State.land_policy (s : State) (n : Nat) (l : List Land) : (s.land n l).policy = s.policy := rfl
@[simp] theorem State.land_free (s : State) (n : Nat) (l : List Land) : (s.land n l).free = s.free := rfl
@[simp] theorem State.land_oracle (s : State) (n : Nat) (l : List Land) : (s.land n l).oracle = s.oracle := rfl
@[simp] theorem State.land_agenda (s : State) (n : Nat) (l : List Land) : (s.land n l).agenda = s.agenda := rfl
@[simp] theorem State.land_turn (s : State) (n : Nat) (l : List Land) : (s.land n l).turn = s.turn := rfl
@[simp] theorem State.land_lag (s : State) (n : Nat) (l : List Land) : (s.land n l).lag = s.lag := rfl
@[simp] theorem State.land_walks (s : State) (n : Nat) (l : List Land) : (s.land n l).walks = s.walks := rfl
@[simp] theorem State.land_upsets (s : State) (n : Nat) (l : List Land) : (s.land n l).upsets = s.upsets := rfl
@[simp] theorem State.land_issue (s : State) (n : Nat) (l : List Land) : (s.land n l).issue = s.issue := rfl

@[simp] theorem State.updFn_cycle (s : State) (f : Nat) (g : Fn → Fn) : (s.updFn f g).cycle = s.cycle := rfl
@[simp] theorem State.updFn_mem (s : State) (f : Nat) (g : Fn → Fn) : (s.updFn f g).mem = s.mem := rfl
@[simp] theorem State.updFn_hostMem (s : State) (f : Nat) (g : Fn → Fn) : (s.updFn f g).hostMem = s.hostMem := rfl
@[simp] theorem State.updFn_poison (s : State) (f : Nat) (g : Fn → Fn) : (s.updFn f g).poison = s.poison := rfl
@[simp] theorem State.updFn_wrong (s : State) (f : Nat) (g : Fn → Fn) : (s.updFn f g).wrong = s.wrong := rfl
@[simp] theorem State.updFn_badWrites (s : State) (f : Nat) (g : Fn → Fn) : (s.updFn f g).badWrites = s.badWrites := rfl
@[simp] theorem State.updFn_cores (s : State) (f : Nat) (g : Fn → Fn) : (s.updFn f g).cores = s.cores := rfl
@[simp] theorem State.updFn_quads (s : State) (f : Nat) (g : Fn → Fn) : (s.updFn f g).quads = s.quads := rfl
@[simp] theorem State.updFn_turns (s : State) (f : Nat) (g : Fn → Fn) : (s.updFn f g).turns = s.turns := rfl
@[simp] theorem State.updFn_launches (s : State) (f : Nat) (g : Fn → Fn) : (s.updFn f g).launches = s.launches := rfl
@[simp] theorem State.updFn_regions (s : State) (f : Nat) (g : Fn → Fn) : (s.updFn f g).regions = s.regions := rfl
@[simp] theorem State.updFn_ended (s : State) (f : Nat) (g : Fn → Fn) : (s.updFn f g).ended = s.ended := rfl
@[simp] theorem State.updFn_pendings (s : State) (f : Nat) (g : Fn → Fn) : (s.updFn f g).pendings = s.pendings := rfl
@[simp] theorem State.updFn_barriers (s : State) (f : Nat) (g : Fn → Fn) : (s.updFn f g).barriers = s.barriers := rfl
@[simp] theorem State.updFn_colls (s : State) (f : Nat) (g : Fn → Fn) : (s.updFn f g).colls = s.colls := rfl
@[simp] theorem State.updFn_scrubs (s : State) (f : Nat) (g : Fn → Fn) : (s.updFn f g).scrubs = s.scrubs := rfl
@[simp] theorem State.updFn_nextId (s : State) (f : Nat) (g : Fn → Fn) : (s.updFn f g).nextId = s.nextId := rfl
@[simp] theorem State.updFn_nextVa (s : State) (f : Nat) (g : Fn → Fn) : (s.updFn f g).nextVa = s.nextVa := rfl
@[simp] theorem State.updFn_served (s : State) (f : Nat) (g : Fn → Fn) : (s.updFn f g).served = s.served := rfl
@[simp] theorem State.updFn_sel (s : State) (f : Nat) (g : Fn → Fn) : (s.updFn f g).sel = s.sel := rfl
@[simp] theorem State.updFn_heatLow (s : State) (f : Nat) (g : Fn → Fn) : (s.updFn f g).heatLow = s.heatLow := rfl
@[simp] theorem State.updFn_heatHigh (s : State) (f : Nat) (g : Fn → Fn) : (s.updFn f g).heatHigh = s.heatHigh := rfl
@[simp] theorem State.updFn_lLow (s : State) (f : Nat) (g : Fn → Fn) : (s.updFn f g).lLow = s.lLow := rfl
@[simp] theorem State.updFn_lHigh (s : State) (f : Nat) (g : Fn → Fn) : (s.updFn f g).lHigh = s.lHigh := rfl
@[simp] theorem State.updFn_refund (s : State) (f : Nat) (g : Fn → Fn) : (s.updFn f g).refund = s.refund := rfl
@[simp] theorem State.updFn_rates (s : State) (f : Nat) (g : Fn → Fn) : (s.updFn f g).rates = s.rates := rfl
@[simp] theorem State.updFn_rlowm (s : State) (f : Nat) (g : Fn → Fn) : (s.updFn f g).rlowm = s.rlowm := rfl
@[simp] theorem State.updFn_patrolR (s : State) (f : Nat) (g : Fn → Fn) : (s.updFn f g).patrolR = s.patrolR := rfl
@[simp] theorem State.updFn_errUe (s : State) (f : Nat) (g : Fn → Fn) : (s.updFn f g).errUe = s.errUe := rfl
@[simp] theorem State.updFn_errCe (s : State) (f : Nat) (g : Fn → Fn) : (s.updFn f g).errCe = s.errCe := rfl
@[simp] theorem State.updFn_errAddr (s : State) (f : Nat) (g : Fn → Fn) : (s.updFn f g).errAddr = s.errAddr := rfl
@[simp] theorem State.updFn_errValid (s : State) (f : Nat) (g : Fn → Fn) : (s.updFn f g).errValid = s.errValid := rfl
@[simp] theorem State.updFn_patrolAt (s : State) (f : Nat) (g : Fn → Fn) : (s.updFn f g).patrolAt = s.patrolAt := rfl
@[simp] theorem State.updFn_mwsel (s : State) (f : Nat) (g : Fn → Fn) : (s.updFn f g).mwsel = s.mwsel := rfl
@[simp] theorem State.updFn_boot (s : State) (f : Nat) (g : Fn → Fn) : (s.updFn f g).boot = s.boot := rfl
@[simp] theorem State.updFn_fuses (s : State) (f : Nat) (g : Fn → Fn) : (s.updFn f g).fuses = s.fuses := rfl
@[simp] theorem State.updFn_alarm (s : State) (f : Nat) (g : Fn → Fn) : (s.updFn f g).alarm = s.alarm := rfl
@[simp] theorem State.updFn_alarmInForce (s : State) (f : Nat) (g : Fn → Fn) : (s.updFn f g).alarmInForce = s.alarmInForce := rfl
@[simp] theorem State.updFn_powerLimit (s : State) (f : Nat) (g : Fn → Fn) : (s.updFn f g).powerLimit = s.powerLimit := rfl
@[simp] theorem State.updFn_power (s : State) (f : Nat) (g : Fn → Fn) : (s.updFn f g).power = s.power := rfl
@[simp] theorem State.updFn_powers (s : State) (f : Nat) (g : Fn → Fn) : (s.updFn f g).powers = s.powers := rfl
@[simp] theorem State.updFn_below (s : State) (f : Nat) (g : Fn → Fn) : (s.updFn f g).below = s.below := rfl
@[simp] theorem State.updFn_hevents (s : State) (f : Nat) (g : Fn → Fn) : (s.updFn f g).hevents = s.hevents := rfl
@[simp] theorem State.updFn_kvReports (s : State) (f : Nat) (g : Fn → Fn) : (s.updFn f g).kvReports = s.kvReports := rfl
@[simp] theorem State.updFn_msixSent (s : State) (f : Nat) (g : Fn → Fn) : (s.updFn f g).msixSent = s.msixSent := rfl
@[simp] theorem State.updFn_priSent (s : State) (f : Nat) (g : Fn → Fn) : (s.updFn f g).priSent = s.priSent := rfl
@[simp] theorem State.updFn_spdm (s : State) (f : Nat) (g : Fn → Fn) : (s.updFn f g).spdm = s.spdm := rfl
@[simp] theorem State.updFn_cfgSent (s : State) (f : Nat) (g : Fn → Fn) : (s.updFn f g).cfgSent = s.cfgSent := rfl
@[simp] theorem State.updFn_ports (s : State) (f : Nat) (g : Fn → Fn) : (s.updFn f g).ports = s.ports := rfl
@[simp] theorem State.updFn_pkg (s : State) (f : Nat) (g : Fn → Fn) : (s.updFn f g).pkg = s.pkg := rfl
@[simp] theorem State.updFn_routes (s : State) (f : Nat) (g : Fn → Fn) : (s.updFn f g).routes = s.routes := rfl
@[simp] theorem State.updFn_asks (s : State) (f : Nat) (g : Fn → Fn) : (s.updFn f g).asks = s.asks := rfl
@[simp] theorem State.updFn_policy (s : State) (f : Nat) (g : Fn → Fn) : (s.updFn f g).policy = s.policy := rfl
@[simp] theorem State.updFn_free (s : State) (f : Nat) (g : Fn → Fn) : (s.updFn f g).free = s.free := rfl
@[simp] theorem State.updFn_oracle (s : State) (f : Nat) (g : Fn → Fn) : (s.updFn f g).oracle = s.oracle := rfl
@[simp] theorem State.updFn_agenda (s : State) (f : Nat) (g : Fn → Fn) : (s.updFn f g).agenda = s.agenda := rfl
@[simp] theorem State.updFn_turn (s : State) (f : Nat) (g : Fn → Fn) : (s.updFn f g).turn = s.turn := rfl
@[simp] theorem State.updFn_lag (s : State) (f : Nat) (g : Fn → Fn) : (s.updFn f g).lag = s.lag := rfl
@[simp] theorem State.updFn_walks (s : State) (f : Nat) (g : Fn → Fn) : (s.updFn f g).walks = s.walks := rfl
@[simp] theorem State.updFn_upsets (s : State) (f : Nat) (g : Fn → Fn) : (s.updFn f g).upsets = s.upsets := rfl
@[simp] theorem State.updFn_issue (s : State) (f : Nat) (g : Fn → Fn) : (s.updFn f g).issue = s.issue := rfl

@[simp] theorem State.updQuad_cycle (s : State) (q : Nat) (g : Quad → Quad) : (s.updQuad q g).cycle = s.cycle := rfl
@[simp] theorem State.updQuad_mem (s : State) (q : Nat) (g : Quad → Quad) : (s.updQuad q g).mem = s.mem := rfl
@[simp] theorem State.updQuad_hostMem (s : State) (q : Nat) (g : Quad → Quad) : (s.updQuad q g).hostMem = s.hostMem := rfl
@[simp] theorem State.updQuad_poison (s : State) (q : Nat) (g : Quad → Quad) : (s.updQuad q g).poison = s.poison := rfl
@[simp] theorem State.updQuad_wrong (s : State) (q : Nat) (g : Quad → Quad) : (s.updQuad q g).wrong = s.wrong := rfl
@[simp] theorem State.updQuad_badWrites (s : State) (q : Nat) (g : Quad → Quad) : (s.updQuad q g).badWrites = s.badWrites := rfl
@[simp] theorem State.updQuad_cores (s : State) (q : Nat) (g : Quad → Quad) : (s.updQuad q g).cores = s.cores := rfl
@[simp] theorem State.updQuad_fns (s : State) (q : Nat) (g : Quad → Quad) : (s.updQuad q g).fns = s.fns := rfl
@[simp] theorem State.updQuad_turns (s : State) (q : Nat) (g : Quad → Quad) : (s.updQuad q g).turns = s.turns := rfl
@[simp] theorem State.updQuad_launches (s : State) (q : Nat) (g : Quad → Quad) : (s.updQuad q g).launches = s.launches := rfl
@[simp] theorem State.updQuad_regions (s : State) (q : Nat) (g : Quad → Quad) : (s.updQuad q g).regions = s.regions := rfl
@[simp] theorem State.updQuad_ended (s : State) (q : Nat) (g : Quad → Quad) : (s.updQuad q g).ended = s.ended := rfl
@[simp] theorem State.updQuad_pendings (s : State) (q : Nat) (g : Quad → Quad) : (s.updQuad q g).pendings = s.pendings := rfl
@[simp] theorem State.updQuad_barriers (s : State) (q : Nat) (g : Quad → Quad) : (s.updQuad q g).barriers = s.barriers := rfl
@[simp] theorem State.updQuad_colls (s : State) (q : Nat) (g : Quad → Quad) : (s.updQuad q g).colls = s.colls := rfl
@[simp] theorem State.updQuad_scrubs (s : State) (q : Nat) (g : Quad → Quad) : (s.updQuad q g).scrubs = s.scrubs := rfl
@[simp] theorem State.updQuad_nextId (s : State) (q : Nat) (g : Quad → Quad) : (s.updQuad q g).nextId = s.nextId := rfl
@[simp] theorem State.updQuad_nextVa (s : State) (q : Nat) (g : Quad → Quad) : (s.updQuad q g).nextVa = s.nextVa := rfl
@[simp] theorem State.updQuad_served (s : State) (q : Nat) (g : Quad → Quad) : (s.updQuad q g).served = s.served := rfl
@[simp] theorem State.updQuad_sel (s : State) (q : Nat) (g : Quad → Quad) : (s.updQuad q g).sel = s.sel := rfl
@[simp] theorem State.updQuad_heatLow (s : State) (q : Nat) (g : Quad → Quad) : (s.updQuad q g).heatLow = s.heatLow := rfl
@[simp] theorem State.updQuad_heatHigh (s : State) (q : Nat) (g : Quad → Quad) : (s.updQuad q g).heatHigh = s.heatHigh := rfl
@[simp] theorem State.updQuad_lLow (s : State) (q : Nat) (g : Quad → Quad) : (s.updQuad q g).lLow = s.lLow := rfl
@[simp] theorem State.updQuad_lHigh (s : State) (q : Nat) (g : Quad → Quad) : (s.updQuad q g).lHigh = s.lHigh := rfl
@[simp] theorem State.updQuad_refund (s : State) (q : Nat) (g : Quad → Quad) : (s.updQuad q g).refund = s.refund := rfl
@[simp] theorem State.updQuad_rates (s : State) (q : Nat) (g : Quad → Quad) : (s.updQuad q g).rates = s.rates := rfl
@[simp] theorem State.updQuad_rlowm (s : State) (q : Nat) (g : Quad → Quad) : (s.updQuad q g).rlowm = s.rlowm := rfl
@[simp] theorem State.updQuad_patrolR (s : State) (q : Nat) (g : Quad → Quad) : (s.updQuad q g).patrolR = s.patrolR := rfl
@[simp] theorem State.updQuad_errUe (s : State) (q : Nat) (g : Quad → Quad) : (s.updQuad q g).errUe = s.errUe := rfl
@[simp] theorem State.updQuad_errCe (s : State) (q : Nat) (g : Quad → Quad) : (s.updQuad q g).errCe = s.errCe := rfl
@[simp] theorem State.updQuad_errAddr (s : State) (q : Nat) (g : Quad → Quad) : (s.updQuad q g).errAddr = s.errAddr := rfl
@[simp] theorem State.updQuad_errValid (s : State) (q : Nat) (g : Quad → Quad) : (s.updQuad q g).errValid = s.errValid := rfl
@[simp] theorem State.updQuad_patrolAt (s : State) (q : Nat) (g : Quad → Quad) : (s.updQuad q g).patrolAt = s.patrolAt := rfl
@[simp] theorem State.updQuad_mwsel (s : State) (q : Nat) (g : Quad → Quad) : (s.updQuad q g).mwsel = s.mwsel := rfl
@[simp] theorem State.updQuad_boot (s : State) (q : Nat) (g : Quad → Quad) : (s.updQuad q g).boot = s.boot := rfl
@[simp] theorem State.updQuad_fuses (s : State) (q : Nat) (g : Quad → Quad) : (s.updQuad q g).fuses = s.fuses := rfl
@[simp] theorem State.updQuad_alarm (s : State) (q : Nat) (g : Quad → Quad) : (s.updQuad q g).alarm = s.alarm := rfl
@[simp] theorem State.updQuad_alarmInForce (s : State) (q : Nat) (g : Quad → Quad) : (s.updQuad q g).alarmInForce = s.alarmInForce := rfl
@[simp] theorem State.updQuad_powerLimit (s : State) (q : Nat) (g : Quad → Quad) : (s.updQuad q g).powerLimit = s.powerLimit := rfl
@[simp] theorem State.updQuad_power (s : State) (q : Nat) (g : Quad → Quad) : (s.updQuad q g).power = s.power := rfl
@[simp] theorem State.updQuad_powers (s : State) (q : Nat) (g : Quad → Quad) : (s.updQuad q g).powers = s.powers := rfl
@[simp] theorem State.updQuad_below (s : State) (q : Nat) (g : Quad → Quad) : (s.updQuad q g).below = s.below := rfl
@[simp] theorem State.updQuad_hevents (s : State) (q : Nat) (g : Quad → Quad) : (s.updQuad q g).hevents = s.hevents := rfl
@[simp] theorem State.updQuad_kvReports (s : State) (q : Nat) (g : Quad → Quad) : (s.updQuad q g).kvReports = s.kvReports := rfl
@[simp] theorem State.updQuad_msixSent (s : State) (q : Nat) (g : Quad → Quad) : (s.updQuad q g).msixSent = s.msixSent := rfl
@[simp] theorem State.updQuad_priSent (s : State) (q : Nat) (g : Quad → Quad) : (s.updQuad q g).priSent = s.priSent := rfl
@[simp] theorem State.updQuad_spdm (s : State) (q : Nat) (g : Quad → Quad) : (s.updQuad q g).spdm = s.spdm := rfl
@[simp] theorem State.updQuad_cfgSent (s : State) (q : Nat) (g : Quad → Quad) : (s.updQuad q g).cfgSent = s.cfgSent := rfl
@[simp] theorem State.updQuad_ports (s : State) (q : Nat) (g : Quad → Quad) : (s.updQuad q g).ports = s.ports := rfl
@[simp] theorem State.updQuad_pkg (s : State) (q : Nat) (g : Quad → Quad) : (s.updQuad q g).pkg = s.pkg := rfl
@[simp] theorem State.updQuad_routes (s : State) (q : Nat) (g : Quad → Quad) : (s.updQuad q g).routes = s.routes := rfl
@[simp] theorem State.updQuad_asks (s : State) (q : Nat) (g : Quad → Quad) : (s.updQuad q g).asks = s.asks := rfl
@[simp] theorem State.updQuad_policy (s : State) (q : Nat) (g : Quad → Quad) : (s.updQuad q g).policy = s.policy := rfl
@[simp] theorem State.updQuad_free (s : State) (q : Nat) (g : Quad → Quad) : (s.updQuad q g).free = s.free := rfl
@[simp] theorem State.updQuad_oracle (s : State) (q : Nat) (g : Quad → Quad) : (s.updQuad q g).oracle = s.oracle := rfl
@[simp] theorem State.updQuad_agenda (s : State) (q : Nat) (g : Quad → Quad) : (s.updQuad q g).agenda = s.agenda := rfl
@[simp] theorem State.updQuad_turn (s : State) (q : Nat) (g : Quad → Quad) : (s.updQuad q g).turn = s.turn := rfl
@[simp] theorem State.updQuad_lag (s : State) (q : Nat) (g : Quad → Quad) : (s.updQuad q g).lag = s.lag := rfl
@[simp] theorem State.updQuad_walks (s : State) (q : Nat) (g : Quad → Quad) : (s.updQuad q g).walks = s.walks := rfl
@[simp] theorem State.updQuad_upsets (s : State) (q : Nat) (g : Quad → Quad) : (s.updQuad q g).upsets = s.upsets := rfl
@[simp] theorem State.updQuad_issue (s : State) (q : Nat) (g : Quad → Quad) : (s.updQuad q g).issue = s.issue := rfl

@[simp] theorem State.updLaunch_cycle (s : State) (l : Nat) (g : Launch → Launch) : (s.updLaunch l g).cycle = s.cycle := rfl
@[simp] theorem State.updLaunch_mem (s : State) (l : Nat) (g : Launch → Launch) : (s.updLaunch l g).mem = s.mem := rfl
@[simp] theorem State.updLaunch_hostMem (s : State) (l : Nat) (g : Launch → Launch) : (s.updLaunch l g).hostMem = s.hostMem := rfl
@[simp] theorem State.updLaunch_poison (s : State) (l : Nat) (g : Launch → Launch) : (s.updLaunch l g).poison = s.poison := rfl
@[simp] theorem State.updLaunch_wrong (s : State) (l : Nat) (g : Launch → Launch) : (s.updLaunch l g).wrong = s.wrong := rfl
@[simp] theorem State.updLaunch_badWrites (s : State) (l : Nat) (g : Launch → Launch) : (s.updLaunch l g).badWrites = s.badWrites := rfl
@[simp] theorem State.updLaunch_cores (s : State) (l : Nat) (g : Launch → Launch) : (s.updLaunch l g).cores = s.cores := rfl
@[simp] theorem State.updLaunch_fns (s : State) (l : Nat) (g : Launch → Launch) : (s.updLaunch l g).fns = s.fns := rfl
@[simp] theorem State.updLaunch_quads (s : State) (l : Nat) (g : Launch → Launch) : (s.updLaunch l g).quads = s.quads := rfl
@[simp] theorem State.updLaunch_turns (s : State) (l : Nat) (g : Launch → Launch) : (s.updLaunch l g).turns = s.turns := rfl
@[simp] theorem State.updLaunch_regions (s : State) (l : Nat) (g : Launch → Launch) : (s.updLaunch l g).regions = s.regions := rfl
@[simp] theorem State.updLaunch_ended (s : State) (l : Nat) (g : Launch → Launch) : (s.updLaunch l g).ended = s.ended := rfl
@[simp] theorem State.updLaunch_pendings (s : State) (l : Nat) (g : Launch → Launch) : (s.updLaunch l g).pendings = s.pendings := rfl
@[simp] theorem State.updLaunch_barriers (s : State) (l : Nat) (g : Launch → Launch) : (s.updLaunch l g).barriers = s.barriers := rfl
@[simp] theorem State.updLaunch_colls (s : State) (l : Nat) (g : Launch → Launch) : (s.updLaunch l g).colls = s.colls := rfl
@[simp] theorem State.updLaunch_scrubs (s : State) (l : Nat) (g : Launch → Launch) : (s.updLaunch l g).scrubs = s.scrubs := rfl
@[simp] theorem State.updLaunch_nextId (s : State) (l : Nat) (g : Launch → Launch) : (s.updLaunch l g).nextId = s.nextId := rfl
@[simp] theorem State.updLaunch_nextVa (s : State) (l : Nat) (g : Launch → Launch) : (s.updLaunch l g).nextVa = s.nextVa := rfl
@[simp] theorem State.updLaunch_served (s : State) (l : Nat) (g : Launch → Launch) : (s.updLaunch l g).served = s.served := rfl
@[simp] theorem State.updLaunch_sel (s : State) (l : Nat) (g : Launch → Launch) : (s.updLaunch l g).sel = s.sel := rfl
@[simp] theorem State.updLaunch_heatLow (s : State) (l : Nat) (g : Launch → Launch) : (s.updLaunch l g).heatLow = s.heatLow := rfl
@[simp] theorem State.updLaunch_heatHigh (s : State) (l : Nat) (g : Launch → Launch) : (s.updLaunch l g).heatHigh = s.heatHigh := rfl
@[simp] theorem State.updLaunch_lLow (s : State) (l : Nat) (g : Launch → Launch) : (s.updLaunch l g).lLow = s.lLow := rfl
@[simp] theorem State.updLaunch_lHigh (s : State) (l : Nat) (g : Launch → Launch) : (s.updLaunch l g).lHigh = s.lHigh := rfl
@[simp] theorem State.updLaunch_refund (s : State) (l : Nat) (g : Launch → Launch) : (s.updLaunch l g).refund = s.refund := rfl
@[simp] theorem State.updLaunch_rates (s : State) (l : Nat) (g : Launch → Launch) : (s.updLaunch l g).rates = s.rates := rfl
@[simp] theorem State.updLaunch_rlowm (s : State) (l : Nat) (g : Launch → Launch) : (s.updLaunch l g).rlowm = s.rlowm := rfl
@[simp] theorem State.updLaunch_patrolR (s : State) (l : Nat) (g : Launch → Launch) : (s.updLaunch l g).patrolR = s.patrolR := rfl
@[simp] theorem State.updLaunch_errUe (s : State) (l : Nat) (g : Launch → Launch) : (s.updLaunch l g).errUe = s.errUe := rfl
@[simp] theorem State.updLaunch_errCe (s : State) (l : Nat) (g : Launch → Launch) : (s.updLaunch l g).errCe = s.errCe := rfl
@[simp] theorem State.updLaunch_errAddr (s : State) (l : Nat) (g : Launch → Launch) : (s.updLaunch l g).errAddr = s.errAddr := rfl
@[simp] theorem State.updLaunch_errValid (s : State) (l : Nat) (g : Launch → Launch) : (s.updLaunch l g).errValid = s.errValid := rfl
@[simp] theorem State.updLaunch_patrolAt (s : State) (l : Nat) (g : Launch → Launch) : (s.updLaunch l g).patrolAt = s.patrolAt := rfl
@[simp] theorem State.updLaunch_mwsel (s : State) (l : Nat) (g : Launch → Launch) : (s.updLaunch l g).mwsel = s.mwsel := rfl
@[simp] theorem State.updLaunch_boot (s : State) (l : Nat) (g : Launch → Launch) : (s.updLaunch l g).boot = s.boot := rfl
@[simp] theorem State.updLaunch_fuses (s : State) (l : Nat) (g : Launch → Launch) : (s.updLaunch l g).fuses = s.fuses := rfl
@[simp] theorem State.updLaunch_alarm (s : State) (l : Nat) (g : Launch → Launch) : (s.updLaunch l g).alarm = s.alarm := rfl
@[simp] theorem State.updLaunch_alarmInForce (s : State) (l : Nat) (g : Launch → Launch) : (s.updLaunch l g).alarmInForce = s.alarmInForce := rfl
@[simp] theorem State.updLaunch_powerLimit (s : State) (l : Nat) (g : Launch → Launch) : (s.updLaunch l g).powerLimit = s.powerLimit := rfl
@[simp] theorem State.updLaunch_power (s : State) (l : Nat) (g : Launch → Launch) : (s.updLaunch l g).power = s.power := rfl
@[simp] theorem State.updLaunch_powers (s : State) (l : Nat) (g : Launch → Launch) : (s.updLaunch l g).powers = s.powers := rfl
@[simp] theorem State.updLaunch_below (s : State) (l : Nat) (g : Launch → Launch) : (s.updLaunch l g).below = s.below := rfl
@[simp] theorem State.updLaunch_hevents (s : State) (l : Nat) (g : Launch → Launch) : (s.updLaunch l g).hevents = s.hevents := rfl
@[simp] theorem State.updLaunch_kvReports (s : State) (l : Nat) (g : Launch → Launch) : (s.updLaunch l g).kvReports = s.kvReports := rfl
@[simp] theorem State.updLaunch_msixSent (s : State) (l : Nat) (g : Launch → Launch) : (s.updLaunch l g).msixSent = s.msixSent := rfl
@[simp] theorem State.updLaunch_priSent (s : State) (l : Nat) (g : Launch → Launch) : (s.updLaunch l g).priSent = s.priSent := rfl
@[simp] theorem State.updLaunch_spdm (s : State) (l : Nat) (g : Launch → Launch) : (s.updLaunch l g).spdm = s.spdm := rfl
@[simp] theorem State.updLaunch_cfgSent (s : State) (l : Nat) (g : Launch → Launch) : (s.updLaunch l g).cfgSent = s.cfgSent := rfl
@[simp] theorem State.updLaunch_ports (s : State) (l : Nat) (g : Launch → Launch) : (s.updLaunch l g).ports = s.ports := rfl
@[simp] theorem State.updLaunch_pkg (s : State) (l : Nat) (g : Launch → Launch) : (s.updLaunch l g).pkg = s.pkg := rfl
@[simp] theorem State.updLaunch_routes (s : State) (l : Nat) (g : Launch → Launch) : (s.updLaunch l g).routes = s.routes := rfl
@[simp] theorem State.updLaunch_asks (s : State) (l : Nat) (g : Launch → Launch) : (s.updLaunch l g).asks = s.asks := rfl
@[simp] theorem State.updLaunch_policy (s : State) (l : Nat) (g : Launch → Launch) : (s.updLaunch l g).policy = s.policy := rfl
@[simp] theorem State.updLaunch_free (s : State) (l : Nat) (g : Launch → Launch) : (s.updLaunch l g).free = s.free := rfl
@[simp] theorem State.updLaunch_oracle (s : State) (l : Nat) (g : Launch → Launch) : (s.updLaunch l g).oracle = s.oracle := rfl
@[simp] theorem State.updLaunch_agenda (s : State) (l : Nat) (g : Launch → Launch) : (s.updLaunch l g).agenda = s.agenda := rfl
@[simp] theorem State.updLaunch_turn (s : State) (l : Nat) (g : Launch → Launch) : (s.updLaunch l g).turn = s.turn := rfl
@[simp] theorem State.updLaunch_lag (s : State) (l : Nat) (g : Launch → Launch) : (s.updLaunch l g).lag = s.lag := rfl
@[simp] theorem State.updLaunch_walks (s : State) (l : Nat) (g : Launch → Launch) : (s.updLaunch l g).walks = s.walks := rfl
@[simp] theorem State.updLaunch_upsets (s : State) (l : Nat) (g : Launch → Launch) : (s.updLaunch l g).upsets = s.upsets := rfl
@[simp] theorem State.updLaunch_issue (s : State) (l : Nat) (g : Launch → Launch) : (s.updLaunch l g).issue = s.issue := rfl

@[simp] theorem State.updRegion_cycle (s : State) (r : Nat) (g : Region → Region) : (s.updRegion r g).cycle = s.cycle := rfl
@[simp] theorem State.updRegion_mem (s : State) (r : Nat) (g : Region → Region) : (s.updRegion r g).mem = s.mem := rfl
@[simp] theorem State.updRegion_hostMem (s : State) (r : Nat) (g : Region → Region) : (s.updRegion r g).hostMem = s.hostMem := rfl
@[simp] theorem State.updRegion_poison (s : State) (r : Nat) (g : Region → Region) : (s.updRegion r g).poison = s.poison := rfl
@[simp] theorem State.updRegion_wrong (s : State) (r : Nat) (g : Region → Region) : (s.updRegion r g).wrong = s.wrong := rfl
@[simp] theorem State.updRegion_badWrites (s : State) (r : Nat) (g : Region → Region) : (s.updRegion r g).badWrites = s.badWrites := rfl
@[simp] theorem State.updRegion_cores (s : State) (r : Nat) (g : Region → Region) : (s.updRegion r g).cores = s.cores := rfl
@[simp] theorem State.updRegion_fns (s : State) (r : Nat) (g : Region → Region) : (s.updRegion r g).fns = s.fns := rfl
@[simp] theorem State.updRegion_quads (s : State) (r : Nat) (g : Region → Region) : (s.updRegion r g).quads = s.quads := rfl
@[simp] theorem State.updRegion_turns (s : State) (r : Nat) (g : Region → Region) : (s.updRegion r g).turns = s.turns := rfl
@[simp] theorem State.updRegion_launches (s : State) (r : Nat) (g : Region → Region) : (s.updRegion r g).launches = s.launches := rfl
@[simp] theorem State.updRegion_ended (s : State) (r : Nat) (g : Region → Region) : (s.updRegion r g).ended = s.ended := rfl
@[simp] theorem State.updRegion_pendings (s : State) (r : Nat) (g : Region → Region) : (s.updRegion r g).pendings = s.pendings := rfl
@[simp] theorem State.updRegion_barriers (s : State) (r : Nat) (g : Region → Region) : (s.updRegion r g).barriers = s.barriers := rfl
@[simp] theorem State.updRegion_colls (s : State) (r : Nat) (g : Region → Region) : (s.updRegion r g).colls = s.colls := rfl
@[simp] theorem State.updRegion_scrubs (s : State) (r : Nat) (g : Region → Region) : (s.updRegion r g).scrubs = s.scrubs := rfl
@[simp] theorem State.updRegion_nextId (s : State) (r : Nat) (g : Region → Region) : (s.updRegion r g).nextId = s.nextId := rfl
@[simp] theorem State.updRegion_nextVa (s : State) (r : Nat) (g : Region → Region) : (s.updRegion r g).nextVa = s.nextVa := rfl
@[simp] theorem State.updRegion_served (s : State) (r : Nat) (g : Region → Region) : (s.updRegion r g).served = s.served := rfl
@[simp] theorem State.updRegion_sel (s : State) (r : Nat) (g : Region → Region) : (s.updRegion r g).sel = s.sel := rfl
@[simp] theorem State.updRegion_heatLow (s : State) (r : Nat) (g : Region → Region) : (s.updRegion r g).heatLow = s.heatLow := rfl
@[simp] theorem State.updRegion_heatHigh (s : State) (r : Nat) (g : Region → Region) : (s.updRegion r g).heatHigh = s.heatHigh := rfl
@[simp] theorem State.updRegion_lLow (s : State) (r : Nat) (g : Region → Region) : (s.updRegion r g).lLow = s.lLow := rfl
@[simp] theorem State.updRegion_lHigh (s : State) (r : Nat) (g : Region → Region) : (s.updRegion r g).lHigh = s.lHigh := rfl
@[simp] theorem State.updRegion_refund (s : State) (r : Nat) (g : Region → Region) : (s.updRegion r g).refund = s.refund := rfl
@[simp] theorem State.updRegion_rates (s : State) (r : Nat) (g : Region → Region) : (s.updRegion r g).rates = s.rates := rfl
@[simp] theorem State.updRegion_rlowm (s : State) (r : Nat) (g : Region → Region) : (s.updRegion r g).rlowm = s.rlowm := rfl
@[simp] theorem State.updRegion_patrolR (s : State) (r : Nat) (g : Region → Region) : (s.updRegion r g).patrolR = s.patrolR := rfl
@[simp] theorem State.updRegion_errUe (s : State) (r : Nat) (g : Region → Region) : (s.updRegion r g).errUe = s.errUe := rfl
@[simp] theorem State.updRegion_errCe (s : State) (r : Nat) (g : Region → Region) : (s.updRegion r g).errCe = s.errCe := rfl
@[simp] theorem State.updRegion_errAddr (s : State) (r : Nat) (g : Region → Region) : (s.updRegion r g).errAddr = s.errAddr := rfl
@[simp] theorem State.updRegion_errValid (s : State) (r : Nat) (g : Region → Region) : (s.updRegion r g).errValid = s.errValid := rfl
@[simp] theorem State.updRegion_patrolAt (s : State) (r : Nat) (g : Region → Region) : (s.updRegion r g).patrolAt = s.patrolAt := rfl
@[simp] theorem State.updRegion_mwsel (s : State) (r : Nat) (g : Region → Region) : (s.updRegion r g).mwsel = s.mwsel := rfl
@[simp] theorem State.updRegion_boot (s : State) (r : Nat) (g : Region → Region) : (s.updRegion r g).boot = s.boot := rfl
@[simp] theorem State.updRegion_fuses (s : State) (r : Nat) (g : Region → Region) : (s.updRegion r g).fuses = s.fuses := rfl
@[simp] theorem State.updRegion_alarm (s : State) (r : Nat) (g : Region → Region) : (s.updRegion r g).alarm = s.alarm := rfl
@[simp] theorem State.updRegion_alarmInForce (s : State) (r : Nat) (g : Region → Region) : (s.updRegion r g).alarmInForce = s.alarmInForce := rfl
@[simp] theorem State.updRegion_powerLimit (s : State) (r : Nat) (g : Region → Region) : (s.updRegion r g).powerLimit = s.powerLimit := rfl
@[simp] theorem State.updRegion_power (s : State) (r : Nat) (g : Region → Region) : (s.updRegion r g).power = s.power := rfl
@[simp] theorem State.updRegion_powers (s : State) (r : Nat) (g : Region → Region) : (s.updRegion r g).powers = s.powers := rfl
@[simp] theorem State.updRegion_below (s : State) (r : Nat) (g : Region → Region) : (s.updRegion r g).below = s.below := rfl
@[simp] theorem State.updRegion_hevents (s : State) (r : Nat) (g : Region → Region) : (s.updRegion r g).hevents = s.hevents := rfl
@[simp] theorem State.updRegion_kvReports (s : State) (r : Nat) (g : Region → Region) : (s.updRegion r g).kvReports = s.kvReports := rfl
@[simp] theorem State.updRegion_msixSent (s : State) (r : Nat) (g : Region → Region) : (s.updRegion r g).msixSent = s.msixSent := rfl
@[simp] theorem State.updRegion_priSent (s : State) (r : Nat) (g : Region → Region) : (s.updRegion r g).priSent = s.priSent := rfl
@[simp] theorem State.updRegion_spdm (s : State) (r : Nat) (g : Region → Region) : (s.updRegion r g).spdm = s.spdm := rfl
@[simp] theorem State.updRegion_cfgSent (s : State) (r : Nat) (g : Region → Region) : (s.updRegion r g).cfgSent = s.cfgSent := rfl
@[simp] theorem State.updRegion_ports (s : State) (r : Nat) (g : Region → Region) : (s.updRegion r g).ports = s.ports := rfl
@[simp] theorem State.updRegion_pkg (s : State) (r : Nat) (g : Region → Region) : (s.updRegion r g).pkg = s.pkg := rfl
@[simp] theorem State.updRegion_routes (s : State) (r : Nat) (g : Region → Region) : (s.updRegion r g).routes = s.routes := rfl
@[simp] theorem State.updRegion_asks (s : State) (r : Nat) (g : Region → Region) : (s.updRegion r g).asks = s.asks := rfl
@[simp] theorem State.updRegion_policy (s : State) (r : Nat) (g : Region → Region) : (s.updRegion r g).policy = s.policy := rfl
@[simp] theorem State.updRegion_free (s : State) (r : Nat) (g : Region → Region) : (s.updRegion r g).free = s.free := rfl
@[simp] theorem State.updRegion_oracle (s : State) (r : Nat) (g : Region → Region) : (s.updRegion r g).oracle = s.oracle := rfl
@[simp] theorem State.updRegion_agenda (s : State) (r : Nat) (g : Region → Region) : (s.updRegion r g).agenda = s.agenda := rfl
@[simp] theorem State.updRegion_turn (s : State) (r : Nat) (g : Region → Region) : (s.updRegion r g).turn = s.turn := rfl
@[simp] theorem State.updRegion_lag (s : State) (r : Nat) (g : Region → Region) : (s.updRegion r g).lag = s.lag := rfl
@[simp] theorem State.updRegion_walks (s : State) (r : Nat) (g : Region → Region) : (s.updRegion r g).walks = s.walks := rfl
@[simp] theorem State.updRegion_upsets (s : State) (r : Nat) (g : Region → Region) : (s.updRegion r g).upsets = s.upsets := rfl
@[simp] theorem State.updRegion_issue (s : State) (r : Nat) (g : Region → Region) : (s.updRegion r g).issue = s.issue := rfl

@[simp] theorem State.push_cycle (s : State) (es : List Instr) : (s.push es).cycle = s.cycle := rfl
@[simp] theorem State.push_mem (s : State) (es : List Instr) : (s.push es).mem = s.mem := rfl
@[simp] theorem State.push_hostMem (s : State) (es : List Instr) : (s.push es).hostMem = s.hostMem := rfl
@[simp] theorem State.push_poison (s : State) (es : List Instr) : (s.push es).poison = s.poison := rfl
@[simp] theorem State.push_wrong (s : State) (es : List Instr) : (s.push es).wrong = s.wrong := rfl
@[simp] theorem State.push_badWrites (s : State) (es : List Instr) : (s.push es).badWrites = s.badWrites := rfl
@[simp] theorem State.push_cores (s : State) (es : List Instr) : (s.push es).cores = s.cores := rfl
@[simp] theorem State.push_fns (s : State) (es : List Instr) : (s.push es).fns = s.fns := rfl
@[simp] theorem State.push_quads (s : State) (es : List Instr) : (s.push es).quads = s.quads := rfl
@[simp] theorem State.push_turns (s : State) (es : List Instr) : (s.push es).turns = s.turns := rfl
@[simp] theorem State.push_launches (s : State) (es : List Instr) : (s.push es).launches = s.launches := rfl
@[simp] theorem State.push_regions (s : State) (es : List Instr) : (s.push es).regions = s.regions := rfl
@[simp] theorem State.push_ended (s : State) (es : List Instr) : (s.push es).ended = s.ended := rfl
@[simp] theorem State.push_pendings (s : State) (es : List Instr) : (s.push es).pendings = s.pendings := rfl
@[simp] theorem State.push_barriers (s : State) (es : List Instr) : (s.push es).barriers = s.barriers := rfl
@[simp] theorem State.push_colls (s : State) (es : List Instr) : (s.push es).colls = s.colls := rfl
@[simp] theorem State.push_scrubs (s : State) (es : List Instr) : (s.push es).scrubs = s.scrubs := rfl
@[simp] theorem State.push_nextId (s : State) (es : List Instr) : (s.push es).nextId = s.nextId := rfl
@[simp] theorem State.push_nextVa (s : State) (es : List Instr) : (s.push es).nextVa = s.nextVa := rfl
@[simp] theorem State.push_served (s : State) (es : List Instr) : (s.push es).served = s.served := rfl
@[simp] theorem State.push_sel (s : State) (es : List Instr) : (s.push es).sel = s.sel := rfl
@[simp] theorem State.push_heatLow (s : State) (es : List Instr) : (s.push es).heatLow = s.heatLow := rfl
@[simp] theorem State.push_heatHigh (s : State) (es : List Instr) : (s.push es).heatHigh = s.heatHigh := rfl
@[simp] theorem State.push_lLow (s : State) (es : List Instr) : (s.push es).lLow = s.lLow := rfl
@[simp] theorem State.push_lHigh (s : State) (es : List Instr) : (s.push es).lHigh = s.lHigh := rfl
@[simp] theorem State.push_refund (s : State) (es : List Instr) : (s.push es).refund = s.refund := rfl
@[simp] theorem State.push_rates (s : State) (es : List Instr) : (s.push es).rates = s.rates := rfl
@[simp] theorem State.push_rlowm (s : State) (es : List Instr) : (s.push es).rlowm = s.rlowm := rfl
@[simp] theorem State.push_patrolR (s : State) (es : List Instr) : (s.push es).patrolR = s.patrolR := rfl
@[simp] theorem State.push_errUe (s : State) (es : List Instr) : (s.push es).errUe = s.errUe := rfl
@[simp] theorem State.push_errCe (s : State) (es : List Instr) : (s.push es).errCe = s.errCe := rfl
@[simp] theorem State.push_errAddr (s : State) (es : List Instr) : (s.push es).errAddr = s.errAddr := rfl
@[simp] theorem State.push_errValid (s : State) (es : List Instr) : (s.push es).errValid = s.errValid := rfl
@[simp] theorem State.push_patrolAt (s : State) (es : List Instr) : (s.push es).patrolAt = s.patrolAt := rfl
@[simp] theorem State.push_mwsel (s : State) (es : List Instr) : (s.push es).mwsel = s.mwsel := rfl
@[simp] theorem State.push_boot (s : State) (es : List Instr) : (s.push es).boot = s.boot := rfl
@[simp] theorem State.push_fuses (s : State) (es : List Instr) : (s.push es).fuses = s.fuses := rfl
@[simp] theorem State.push_alarm (s : State) (es : List Instr) : (s.push es).alarm = s.alarm := rfl
@[simp] theorem State.push_alarmInForce (s : State) (es : List Instr) : (s.push es).alarmInForce = s.alarmInForce := rfl
@[simp] theorem State.push_powerLimit (s : State) (es : List Instr) : (s.push es).powerLimit = s.powerLimit := rfl
@[simp] theorem State.push_power (s : State) (es : List Instr) : (s.push es).power = s.power := rfl
@[simp] theorem State.push_powers (s : State) (es : List Instr) : (s.push es).powers = s.powers := rfl
@[simp] theorem State.push_below (s : State) (es : List Instr) : (s.push es).below = s.below := rfl
@[simp] theorem State.push_hevents (s : State) (es : List Instr) : (s.push es).hevents = s.hevents := rfl
@[simp] theorem State.push_kvReports (s : State) (es : List Instr) : (s.push es).kvReports = s.kvReports := rfl
@[simp] theorem State.push_msixSent (s : State) (es : List Instr) : (s.push es).msixSent = s.msixSent := rfl
@[simp] theorem State.push_priSent (s : State) (es : List Instr) : (s.push es).priSent = s.priSent := rfl
@[simp] theorem State.push_spdm (s : State) (es : List Instr) : (s.push es).spdm = s.spdm := rfl
@[simp] theorem State.push_cfgSent (s : State) (es : List Instr) : (s.push es).cfgSent = s.cfgSent := rfl
@[simp] theorem State.push_ports (s : State) (es : List Instr) : (s.push es).ports = s.ports := rfl
@[simp] theorem State.push_pkg (s : State) (es : List Instr) : (s.push es).pkg = s.pkg := rfl
@[simp] theorem State.push_routes (s : State) (es : List Instr) : (s.push es).routes = s.routes := rfl
@[simp] theorem State.push_asks (s : State) (es : List Instr) : (s.push es).asks = s.asks := rfl
@[simp] theorem State.push_policy (s : State) (es : List Instr) : (s.push es).policy = s.policy := rfl
@[simp] theorem State.push_free (s : State) (es : List Instr) : (s.push es).free = s.free := rfl
@[simp] theorem State.push_oracle (s : State) (es : List Instr) : (s.push es).oracle = s.oracle := rfl
@[simp] theorem State.push_turn (s : State) (es : List Instr) : (s.push es).turn = s.turn := rfl
@[simp] theorem State.push_lag (s : State) (es : List Instr) : (s.push es).lag = s.lag := rfl
@[simp] theorem State.push_walks (s : State) (es : List Instr) : (s.push es).walks = s.walks := rfl
@[simp] theorem State.push_upsets (s : State) (es : List Instr) : (s.push es).upsets = s.upsets := rfl
@[simp] theorem State.push_issue (s : State) (es : List Instr) : (s.push es).issue = s.issue := rfl

@[simp] theorem State.later_cycle (s : State) (es : List Instr) : (s.later es).cycle = s.cycle := rfl
@[simp] theorem State.later_mem (s : State) (es : List Instr) : (s.later es).mem = s.mem := rfl
@[simp] theorem State.later_hostMem (s : State) (es : List Instr) : (s.later es).hostMem = s.hostMem := rfl
@[simp] theorem State.later_poison (s : State) (es : List Instr) : (s.later es).poison = s.poison := rfl
@[simp] theorem State.later_wrong (s : State) (es : List Instr) : (s.later es).wrong = s.wrong := rfl
@[simp] theorem State.later_badWrites (s : State) (es : List Instr) : (s.later es).badWrites = s.badWrites := rfl
@[simp] theorem State.later_cores (s : State) (es : List Instr) : (s.later es).cores = s.cores := rfl
@[simp] theorem State.later_fns (s : State) (es : List Instr) : (s.later es).fns = s.fns := rfl
@[simp] theorem State.later_quads (s : State) (es : List Instr) : (s.later es).quads = s.quads := rfl
@[simp] theorem State.later_turns (s : State) (es : List Instr) : (s.later es).turns = s.turns := rfl
@[simp] theorem State.later_launches (s : State) (es : List Instr) : (s.later es).launches = s.launches := rfl
@[simp] theorem State.later_regions (s : State) (es : List Instr) : (s.later es).regions = s.regions := rfl
@[simp] theorem State.later_ended (s : State) (es : List Instr) : (s.later es).ended = s.ended := rfl
@[simp] theorem State.later_pendings (s : State) (es : List Instr) : (s.later es).pendings = s.pendings := rfl
@[simp] theorem State.later_barriers (s : State) (es : List Instr) : (s.later es).barriers = s.barriers := rfl
@[simp] theorem State.later_colls (s : State) (es : List Instr) : (s.later es).colls = s.colls := rfl
@[simp] theorem State.later_scrubs (s : State) (es : List Instr) : (s.later es).scrubs = s.scrubs := rfl
@[simp] theorem State.later_nextId (s : State) (es : List Instr) : (s.later es).nextId = s.nextId := rfl
@[simp] theorem State.later_nextVa (s : State) (es : List Instr) : (s.later es).nextVa = s.nextVa := rfl
@[simp] theorem State.later_served (s : State) (es : List Instr) : (s.later es).served = s.served := rfl
@[simp] theorem State.later_sel (s : State) (es : List Instr) : (s.later es).sel = s.sel := rfl
@[simp] theorem State.later_heatLow (s : State) (es : List Instr) : (s.later es).heatLow = s.heatLow := rfl
@[simp] theorem State.later_heatHigh (s : State) (es : List Instr) : (s.later es).heatHigh = s.heatHigh := rfl
@[simp] theorem State.later_lLow (s : State) (es : List Instr) : (s.later es).lLow = s.lLow := rfl
@[simp] theorem State.later_lHigh (s : State) (es : List Instr) : (s.later es).lHigh = s.lHigh := rfl
@[simp] theorem State.later_refund (s : State) (es : List Instr) : (s.later es).refund = s.refund := rfl
@[simp] theorem State.later_rates (s : State) (es : List Instr) : (s.later es).rates = s.rates := rfl
@[simp] theorem State.later_rlowm (s : State) (es : List Instr) : (s.later es).rlowm = s.rlowm := rfl
@[simp] theorem State.later_patrolR (s : State) (es : List Instr) : (s.later es).patrolR = s.patrolR := rfl
@[simp] theorem State.later_errUe (s : State) (es : List Instr) : (s.later es).errUe = s.errUe := rfl
@[simp] theorem State.later_errCe (s : State) (es : List Instr) : (s.later es).errCe = s.errCe := rfl
@[simp] theorem State.later_errAddr (s : State) (es : List Instr) : (s.later es).errAddr = s.errAddr := rfl
@[simp] theorem State.later_errValid (s : State) (es : List Instr) : (s.later es).errValid = s.errValid := rfl
@[simp] theorem State.later_patrolAt (s : State) (es : List Instr) : (s.later es).patrolAt = s.patrolAt := rfl
@[simp] theorem State.later_mwsel (s : State) (es : List Instr) : (s.later es).mwsel = s.mwsel := rfl
@[simp] theorem State.later_boot (s : State) (es : List Instr) : (s.later es).boot = s.boot := rfl
@[simp] theorem State.later_fuses (s : State) (es : List Instr) : (s.later es).fuses = s.fuses := rfl
@[simp] theorem State.later_alarm (s : State) (es : List Instr) : (s.later es).alarm = s.alarm := rfl
@[simp] theorem State.later_alarmInForce (s : State) (es : List Instr) : (s.later es).alarmInForce = s.alarmInForce := rfl
@[simp] theorem State.later_powerLimit (s : State) (es : List Instr) : (s.later es).powerLimit = s.powerLimit := rfl
@[simp] theorem State.later_power (s : State) (es : List Instr) : (s.later es).power = s.power := rfl
@[simp] theorem State.later_powers (s : State) (es : List Instr) : (s.later es).powers = s.powers := rfl
@[simp] theorem State.later_below (s : State) (es : List Instr) : (s.later es).below = s.below := rfl
@[simp] theorem State.later_hevents (s : State) (es : List Instr) : (s.later es).hevents = s.hevents := rfl
@[simp] theorem State.later_kvReports (s : State) (es : List Instr) : (s.later es).kvReports = s.kvReports := rfl
@[simp] theorem State.later_msixSent (s : State) (es : List Instr) : (s.later es).msixSent = s.msixSent := rfl
@[simp] theorem State.later_priSent (s : State) (es : List Instr) : (s.later es).priSent = s.priSent := rfl
@[simp] theorem State.later_spdm (s : State) (es : List Instr) : (s.later es).spdm = s.spdm := rfl
@[simp] theorem State.later_cfgSent (s : State) (es : List Instr) : (s.later es).cfgSent = s.cfgSent := rfl
@[simp] theorem State.later_ports (s : State) (es : List Instr) : (s.later es).ports = s.ports := rfl
@[simp] theorem State.later_pkg (s : State) (es : List Instr) : (s.later es).pkg = s.pkg := rfl
@[simp] theorem State.later_routes (s : State) (es : List Instr) : (s.later es).routes = s.routes := rfl
@[simp] theorem State.later_asks (s : State) (es : List Instr) : (s.later es).asks = s.asks := rfl
@[simp] theorem State.later_policy (s : State) (es : List Instr) : (s.later es).policy = s.policy := rfl
@[simp] theorem State.later_free (s : State) (es : List Instr) : (s.later es).free = s.free := rfl
@[simp] theorem State.later_oracle (s : State) (es : List Instr) : (s.later es).oracle = s.oracle := rfl
@[simp] theorem State.later_turn (s : State) (es : List Instr) : (s.later es).turn = s.turn := rfl
@[simp] theorem State.later_lag (s : State) (es : List Instr) : (s.later es).lag = s.lag := rfl
@[simp] theorem State.later_walks (s : State) (es : List Instr) : (s.later es).walks = s.walks := rfl
@[simp] theorem State.later_upsets (s : State) (es : List Instr) : (s.later es).upsets = s.upsets := rfl
@[simp] theorem State.later_issue (s : State) (es : List Instr) : (s.later es).issue = s.issue := rfl

/-! ## Fields of a core that an update of one of its contexts leaves alone -/

@[simp] theorem CoreSt.setSlot_latches (c : CoreSt) (j : Nat) (x : Ctx) : (c.setSlot j x).latches = c.latches := rfl
@[simp] theorem CoreSt.setSlot_ic (c : CoreSt) (j : Nat) (x : Ctx) : (c.setSlot j x).ic = c.ic := rfl
@[simp] theorem CoreSt.setSlot_last (c : CoreSt) (j : Nat) (x : Ctx) : (c.setSlot j x).last = c.last := rfl
@[simp] theorem CoreSt.setSlot_freeze (c : CoreSt) (j : Nat) (x : Ctx) : (c.setSlot j x).freeze = c.freeze := rfl
@[simp] theorem CoreSt.setSlot_exclcnt (c : CoreSt) (j : Nat) (x : Ctx) : (c.setSlot j x).exclcnt = c.exclcnt := rfl
@[simp] theorem CoreSt.setSlot_bankfmt (c : CoreSt) (j : Nat) (x : Ctx) : (c.setSlot j x).bankfmt = c.bankfmt := rfl
@[simp] theorem CoreSt.setSlot_chan (c : CoreSt) (j : Nat) (x : Ctx) : (c.setSlot j x).chan = c.chan := rfl
@[simp] theorem CoreSt.setSlot_ring (c : CoreSt) (j : Nat) (x : Ctx) : (c.setSlot j x).ring = c.ring := rfl
@[simp] theorem CoreSt.setSlot_bpAddr (c : CoreSt) (j : Nat) (x : Ctx) : (c.setSlot j x).bpAddr = c.bpAddr := rfl
@[simp] theorem CoreSt.setSlot_bpCtl (c : CoreSt) (j : Nat) (x : Ctx) : (c.setSlot j x).bpCtl = c.bpCtl := rfl
@[simp] theorem CoreSt.setSlot_swstat (c : CoreSt) (j : Nat) (x : Ctx) : (c.setSlot j x).swstat = c.swstat := rfl
@[simp] theorem CoreSt.setSlot_hot (c : CoreSt) (j : Nat) (x : Ctx) : (c.setSlot j x).hot = c.hot := rfl
@[simp] theorem CoreSt.setSlot_excluded (c : CoreSt) (j : Nat) (x : Ctx) : (c.setSlot j x).excluded = c.excluded := rfl
@[simp] theorem CoreSt.setSlot_temps (c : CoreSt) (j : Nat) (x : Ctx) : (c.setSlot j x).temps = c.temps := rfl
@[simp] theorem CoreSt.setSlot_heat (c : CoreSt) (j : Nat) (x : Ctx) : (c.setSlot j x).heat = c.heat := rfl
@[simp] theorem CoreSt.setSlot_fused (c : CoreSt) (j : Nat) (x : Ctx) : (c.setSlot j x).fused = c.fused := rfl
@[simp] theorem CoreSt.setSlot_thr (c : CoreSt) (j : Nat) (x : Ctx) : (c.setSlot j x).thr = c.thr := rfl
@[simp] theorem CoreSt.setSlot_force (c : CoreSt) (j : Nat) (x : Ctx) : (c.setSlot j x).force = c.force := rfl
@[simp] theorem CoreSt.setSlot_window (c : CoreSt) (j : Nat) (x : Ctx) : (c.setSlot j x).window = c.window := rfl
@[simp] theorem CoreSt.setSlot_gang (c : CoreSt) (j : Nat) (x : Ctx) : (c.setSlot j x).gang = c.gang := rfl
@[simp] theorem CoreSt.setSlot_lastGang (c : CoreSt) (j : Nat) (x : Ctx) : (c.setSlot j x).lastGang = c.lastGang := rfl
@[simp] theorem CoreSt.setSlot_xview (c : CoreSt) (j : Nat) (x : Ctx) : (c.setSlot j x).xview = c.xview := rfl
@[simp] theorem CoreSt.setSlot_launch (c : CoreSt) (j : Nat) (x : Ctx) : (c.setSlot j x).launch = c.launch := rfl
@[simp] theorem CoreSt.setSlot_tokens (c : CoreSt) (j : Nat) (x : Ctx) : (c.setSlot j x).tokens = c.tokens := rfl
@[simp] theorem CoreSt.setSlot_stopped (c : CoreSt) (j : Nat) (x : Ctx) : (c.setSlot j x).stopped = c.stopped := rfl
@[simp] theorem CoreSt.setSlot_frozen (c : CoreSt) (j : Nat) (x : Ctx) : (c.setSlot j x).frozen = c.frozen := rfl
@[simp] theorem CoreSt.setSlot_ran (c : CoreSt) (j : Nat) (x : Ctx) : (c.setSlot j x).ran = c.ran := rfl
@[simp] theorem CoreSt.setSlot_retry (c : CoreSt) (j : Nat) (x : Ctx) : (c.setSlot j x).retry = c.retry := rfl
@[simp] theorem CoreSt.setSlot_walk (c : CoreSt) (j : Nat) (x : Ctx) : (c.setSlot j x).walk = c.walk := rfl
@[simp] theorem CoreSt.setSlot_moved (c : CoreSt) (j : Nat) (x : Ctx) : (c.setSlot j x).moved = c.moved := rfl

@[simp] theorem State.setCtx_core_latches (s : State) (k j m : Nat) (x : Ctx) :
    ((s.setCtx k j x).core m).latches = (s.core m).latches := by
  rw [State.core_setCtx]; split <;> simp [*]
@[simp] theorem State.setCtx_core_ic (s : State) (k j m : Nat) (x : Ctx) :
    ((s.setCtx k j x).core m).ic = (s.core m).ic := by
  rw [State.core_setCtx]; split <;> simp [*]
@[simp] theorem State.setCtx_core_last (s : State) (k j m : Nat) (x : Ctx) :
    ((s.setCtx k j x).core m).last = (s.core m).last := by
  rw [State.core_setCtx]; split <;> simp [*]
@[simp] theorem State.setCtx_core_freeze (s : State) (k j m : Nat) (x : Ctx) :
    ((s.setCtx k j x).core m).freeze = (s.core m).freeze := by
  rw [State.core_setCtx]; split <;> simp [*]
@[simp] theorem State.setCtx_core_exclcnt (s : State) (k j m : Nat) (x : Ctx) :
    ((s.setCtx k j x).core m).exclcnt = (s.core m).exclcnt := by
  rw [State.core_setCtx]; split <;> simp [*]
@[simp] theorem State.setCtx_core_bankfmt (s : State) (k j m : Nat) (x : Ctx) :
    ((s.setCtx k j x).core m).bankfmt = (s.core m).bankfmt := by
  rw [State.core_setCtx]; split <;> simp [*]
@[simp] theorem State.setCtx_core_chan (s : State) (k j m : Nat) (x : Ctx) :
    ((s.setCtx k j x).core m).chan = (s.core m).chan := by
  rw [State.core_setCtx]; split <;> simp [*]
@[simp] theorem State.setCtx_core_ring (s : State) (k j m : Nat) (x : Ctx) :
    ((s.setCtx k j x).core m).ring = (s.core m).ring := by
  rw [State.core_setCtx]; split <;> simp [*]
@[simp] theorem State.setCtx_core_bpAddr (s : State) (k j m : Nat) (x : Ctx) :
    ((s.setCtx k j x).core m).bpAddr = (s.core m).bpAddr := by
  rw [State.core_setCtx]; split <;> simp [*]
@[simp] theorem State.setCtx_core_bpCtl (s : State) (k j m : Nat) (x : Ctx) :
    ((s.setCtx k j x).core m).bpCtl = (s.core m).bpCtl := by
  rw [State.core_setCtx]; split <;> simp [*]
@[simp] theorem State.setCtx_core_swstat (s : State) (k j m : Nat) (x : Ctx) :
    ((s.setCtx k j x).core m).swstat = (s.core m).swstat := by
  rw [State.core_setCtx]; split <;> simp [*]
@[simp] theorem State.setCtx_core_hot (s : State) (k j m : Nat) (x : Ctx) :
    ((s.setCtx k j x).core m).hot = (s.core m).hot := by
  rw [State.core_setCtx]; split <;> simp [*]
@[simp] theorem State.setCtx_core_excluded (s : State) (k j m : Nat) (x : Ctx) :
    ((s.setCtx k j x).core m).excluded = (s.core m).excluded := by
  rw [State.core_setCtx]; split <;> simp [*]
@[simp] theorem State.setCtx_core_temps (s : State) (k j m : Nat) (x : Ctx) :
    ((s.setCtx k j x).core m).temps = (s.core m).temps := by
  rw [State.core_setCtx]; split <;> simp [*]
@[simp] theorem State.setCtx_core_heat (s : State) (k j m : Nat) (x : Ctx) :
    ((s.setCtx k j x).core m).heat = (s.core m).heat := by
  rw [State.core_setCtx]; split <;> simp [*]
@[simp] theorem State.setCtx_core_fused (s : State) (k j m : Nat) (x : Ctx) :
    ((s.setCtx k j x).core m).fused = (s.core m).fused := by
  rw [State.core_setCtx]; split <;> simp [*]
@[simp] theorem State.setCtx_core_thr (s : State) (k j m : Nat) (x : Ctx) :
    ((s.setCtx k j x).core m).thr = (s.core m).thr := by
  rw [State.core_setCtx]; split <;> simp [*]
@[simp] theorem State.setCtx_core_force (s : State) (k j m : Nat) (x : Ctx) :
    ((s.setCtx k j x).core m).force = (s.core m).force := by
  rw [State.core_setCtx]; split <;> simp [*]
@[simp] theorem State.setCtx_core_window (s : State) (k j m : Nat) (x : Ctx) :
    ((s.setCtx k j x).core m).window = (s.core m).window := by
  rw [State.core_setCtx]; split <;> simp [*]
@[simp] theorem State.setCtx_core_gang (s : State) (k j m : Nat) (x : Ctx) :
    ((s.setCtx k j x).core m).gang = (s.core m).gang := by
  rw [State.core_setCtx]; split <;> simp [*]
@[simp] theorem State.setCtx_core_lastGang (s : State) (k j m : Nat) (x : Ctx) :
    ((s.setCtx k j x).core m).lastGang = (s.core m).lastGang := by
  rw [State.core_setCtx]; split <;> simp [*]
@[simp] theorem State.setCtx_core_xview (s : State) (k j m : Nat) (x : Ctx) :
    ((s.setCtx k j x).core m).xview = (s.core m).xview := by
  rw [State.core_setCtx]; split <;> simp [*]
@[simp] theorem State.setCtx_core_launch (s : State) (k j m : Nat) (x : Ctx) :
    ((s.setCtx k j x).core m).launch = (s.core m).launch := by
  rw [State.core_setCtx]; split <;> simp [*]
@[simp] theorem State.setCtx_core_tokens (s : State) (k j m : Nat) (x : Ctx) :
    ((s.setCtx k j x).core m).tokens = (s.core m).tokens := by
  rw [State.core_setCtx]; split <;> simp [*]
@[simp] theorem State.setCtx_core_stopped (s : State) (k j m : Nat) (x : Ctx) :
    ((s.setCtx k j x).core m).stopped = (s.core m).stopped := by
  rw [State.core_setCtx]; split <;> simp [*]
@[simp] theorem State.setCtx_core_frozen (s : State) (k j m : Nat) (x : Ctx) :
    ((s.setCtx k j x).core m).frozen = (s.core m).frozen := by
  rw [State.core_setCtx]; split <;> simp [*]
@[simp] theorem State.setCtx_core_ran (s : State) (k j m : Nat) (x : Ctx) :
    ((s.setCtx k j x).core m).ran = (s.core m).ran := by
  rw [State.core_setCtx]; split <;> simp [*]
@[simp] theorem State.setCtx_core_retry (s : State) (k j m : Nat) (x : Ctx) :
    ((s.setCtx k j x).core m).retry = (s.core m).retry := by
  rw [State.core_setCtx]; split <;> simp [*]
@[simp] theorem State.setCtx_core_walk (s : State) (k j m : Nat) (x : Ctx) :
    ((s.setCtx k j x).core m).walk = (s.core m).walk := by
  rw [State.core_setCtx]; split <;> simp [*]
@[simp] theorem State.setCtx_core_moved (s : State) (k j m : Nat) (x : Ctx) :
    ((s.setCtx k j x).core m).moved = (s.core m).moved := by
  rw [State.core_setCtx]; split <;> simp [*]

/-! ## A result in flight -/

/-- The flight a landing puts in the issuing context. -/
def State.flightOf (s : State) (f : Flight) : Flight :=
  { f with at_ := s.myCore.ic, slot := s.issue.slot.num, partner := s.issue.partner }

/-- Putting a result in flight changes the flights of the issuing context and nothing else. -/
theorem State.ctx_fly (s : State) (f : Flight) (m i : Nat) :
    (s.fly f).ctx m i = if m = s.issue.core ∧ i = s.issue.ctx then
      { s.me with flight := addFlight s.me.flight (s.flightOf f) } else s.ctx m i := by
  simp [State.fly, State.updMe, State.flightOf, State.me]

@[simp] theorem State.fly_ctx_bank (s : State) (f : Flight) (m i : Nat) : ((s.fly f).ctx m i).bank = (s.ctx m i).bank := by
  rw [State.ctx_fly]; split
  · next h => rw [h.1, h.2]; rfl
  · rfl
@[simp] theorem State.fly_ctx_trap (s : State) (f : Flight) (m i : Nat) : ((s.fly f).ctx m i).trap = (s.ctx m i).trap := by
  rw [State.ctx_fly]; split
  · next h => rw [h.1, h.2]; rfl
  · rfl
@[simp] theorem State.fly_ctx_pc (s : State) (f : Flight) (m i : Nat) : ((s.fly f).ctx m i).pc = (s.ctx m i).pc := by
  rw [State.ctx_fly]; split
  · next h => rw [h.1, h.2]; rfl
  · rfl
@[simp] theorem State.fly_ctx_state (s : State) (f : Flight) (m i : Nat) : ((s.fly f).ctx m i).state = (s.ctx m i).state := by
  rw [State.ctx_fly]; split
  · next h => rw [h.1, h.2]; rfl
  · rfl
@[simp] theorem State.fly_ctx_queue (s : State) (f : Flight) (m i : Nat) : ((s.fly f).ctx m i).queue = (s.ctx m i).queue := by
  rw [State.ctx_fly]; split
  · next h => rw [h.1, h.2]; rfl
  · rfl
@[simp] theorem State.fly_ctx_sticky (s : State) (f : Flight) (m i : Nat) : ((s.fly f).ctx m i).sticky = (s.ctx m i).sticky := by
  rw [State.ctx_fly]; split
  · next h => rw [h.1, h.2]; rfl
  · rfl
@[simp] theorem State.fly_ctx_snap (s : State) (f : Flight) (m i : Nat) : ((s.fly f).ctx m i).snap = (s.ctx m i).snap := by
  rw [State.ctx_fly]; split
  · next h => rw [h.1, h.2]; rfl
  · rfl
@[simp] theorem State.fly_ctx_hold (s : State) (f : Flight) (m i : Nat) : ((s.fly f).ctx m i).hold = (s.ctx m i).hold := by
  rw [State.ctx_fly]; split
  · next h => rw [h.1, h.2]; rfl
  · rfl
@[simp] theorem State.fly_ctx_tail (s : State) (f : Flight) (m i : Nat) : ((s.fly f).ctx m i).tail = (s.ctx m i).tail := by
  rw [State.ctx_fly]; split
  · next h => rw [h.1, h.2]; rfl
  · rfl
@[simp] theorem State.fly_ctx_rep (s : State) (f : Flight) (m i : Nat) : ((s.fly f).ctx m i).rep = (s.ctx m i).rep := by
  rw [State.ctx_fly]; split
  · next h => rw [h.1, h.2]; rfl
  · rfl

end Sys2Proof.Machine
end

