-- ==== Sys2Proof/Laws/Issue.lean ====
section
/-!
SUPPORT. The frame of every meaning: what `issueOp` answers when an operation issues, when its guard is clear and
when something stands against it; and when nothing does.
-/
namespace Sys2Proof.Machine

/-- Nothing against an operation, and its guard set: its effect. -/
theorem issueOp_issues {i : Instr} {eff : State → State} {s : State} (h : Issues i s) :
    issueOp i (checkOf i) eff s = .next (eff s) := by
  obtain ⟨h, hg⟩ := h
  rcases h with h | h
  · simp [issueOp, h, hg]
  · simp [issueOp, settle, h, hg]

/-- The same for `exec`: with `rfl` in the middle, the effect is read off the meaning. -/
theorem exec_issues {i : Instr} {eff : State → State} {s t : State} (h : Issues i s)
    (he : exec i s = issueOp i (checkOf i) eff s) (ht : eff s = t) : exec i s = .next t := by
  rw [he, issueOp_issues h, ht]

@[simp] theorem worseStall_none_right (a : Option Stall) : worseStall a none = a := by rcases a with _ | _ | _ | _ | _ <;> rfl
@[simp] theorem worseStall_none_left (a : Option Stall) : worseStall none a = a := by rcases a with _ | _ | _ | _ | _ <;> rfl

/-- A clear guard: no effect. -/
theorem issueOp_guard {i : Instr} {c : State → Chk} {eff : State → State} {s : State}
    (h : s.issue.checked = true ∨ baseChk i s = {}) (hg : s.guardOn i = false) : issueOp i c eff s = .next s := by
  rcases h with h | h
  · simp [issueOp, h, hg]
  · simp [issueOp, settle, opChk, Chk.and, worse, h, hg]

/-- A fault, and no stall: the bundle is cancelled with it (R121). -/
theorem issueOp_fault {i : Instr} {c : State → Chk} {eff : State → State} {s : State} {f : Flt}
    (h : s.issue.checked = false) (hs : (opChk i c s).stall = none) (hf : (opChk i c s).fault = some f) :
    issueOp i c eff s = .next (s.raise f) := by
  simp [issueOp, settle, h, hs, hf]

/-- What stands against an operation that has no check of its own. -/
theorem opChk_noChk (i : Instr) (s : State) : opChk i noChk s = baseChk i s := by
  unfold opChk noChk
  split <;> rcases h : baseChk i s with ⟨_ | _, _ | _, p, _ | _⟩ <;> simp [Chk.and, worse]

/-- Nothing stands against an operation of a user context that reads neither a latch nor the port. -/
theorem baseChk_clear {i : Instr} {s : State} (hb : i.srcs.contains .bc = false) (hh : isHitik s.issue.core = false)
    (hl : s.badLatch i = none) : baseChk i s = {} := by
  simp only [baseChk, hb, hh, hl, Bool.false_and, Bool.false_eq_true, if_false]

end Sys2Proof.Machine
end

