-- ==== Sys2Proof/Laws/Memories.lean ====
section
/-!
SUPPORT. How an update acts on the two memories: the lemmas from which every operation's own one follows.
-/
namespace Sys2Proof.Machine

@[simp] theorem State.memories_eta (s : State) : (s.mem, s.hostMem) = s.memories := rfl
/-- The memories of a state written out. -/
@[simp] theorem State.memories_mk (
    x0 x1 x2 x3 x4 x5 x6 x7 x8 x9 x10 x11 x12 x13 x14 x15 x16 x17 x18 x19 x20 x21 x22 x23 x24 x25
    x26 x27 x28 x29 x30 x31 x32 x33 x34 x35 x36 x37 x38 x39 x40 x41 x42 x43 x44 x45 x46 x47 x48 x49
    x50 x51 x52 x53 x54 x55 x56 x57 x58 x59 x60 x61) :
    State.memories (State.mk
    x0 x1 x2 x3 x4 x5 x6 x7 x8 x9 x10 x11 x12 x13 x14 x15 x16 x17 x18 x19 x20 x21 x22 x23 x24 x25
    x26 x27 x28 x29 x30 x31 x32 x33 x34 x35 x36 x37 x38 x39 x40 x41 x42 x43 x44 x45 x46 x47 x48 x49
    x50 x51 x52 x53 x54 x55 x56 x57 x58 x59 x60 x61) = (x1, x2) := rfl
@[simp] theorem memories_ite (c : Prop) [Decidable c] (a b : State) :
    (if c then a else b).memories = if c then a.memories else b.memories := by split <;> rfl
@[simp] theorem memories_ite_fst {β : Type} (c : Prop) [Decidable c] (a b : State × β) :
    (if c then a else b).1.memories = if c then a.1.memories else b.1.memories := by split <;> rfl

/-- The memories of a pair's state. -/
theorem fst_memories {β : Type} {a : State} (b : β) {m : Memory × Memory} (h : a.memories = m) :
    (a, b).1.memories = m := h

/-- Folding what leaves both memories alone leaves them alone. -/
@[simp] theorem foldl_memories {α : Type} (g : State → α → State) (h : ∀ a x, (g a x).memories = a.memories)
    (l : List α) (s : State) : (l.foldl g s).memories = s.memories := by
  induction l generalizing s with
  | nil => rfl
  | cons x r ih => simp [ih, h]
@[simp] theorem foldl_memories_fst {α β : Type} (g : State × β → α → State × β)
    (h : ∀ a x, (g a x).1.memories = a.1.memories) (l : List α) (s : State × β) :
    (l.foldl g s).1.memories = s.1.memories := by
  induction l generalizing s with
  | nil => rfl
  | cons x r ih => simp [ih, h]

/-- Folding what keeps the canonical form keeps it. -/
theorem foldl_canonical {α : Type} (g : State → α → State)
    (h : ∀ a x, Canonical a.memories → Canonical (g a x).memories) (l : List α) (s : State)
    (hs : Canonical s.memories) : Canonical (l.foldl g s).memories := by
  induction l generalizing s with
  | nil => exact hs
  | cons x r ih => exact ih _ (h _ _ hs)
theorem foldl_canonical_fst {α β : Type} (g : State × β → α → State × β)
    (h : ∀ a x, Canonical a.1.memories → Canonical (g a x).1.memories) (l : List α) (s : State × β)
    (hs : Canonical s.1.memories) : Canonical (l.foldl g s).1.memories := by
  induction l generalizing s with
  | nil => exact hs
  | cons x r ih => exact ih _ (h _ _ hs)

@[simp] theorem canonical_ite (c : Prop) [Decidable c] (a b : Memory × Memory) :
    Canonical (if c then a else b) ↔ if c then Canonical a else Canonical b := by split <;> rfl

/-- A choice whose two arms keep the canonical form keeps it. -/
theorem canonical_of_ite {c : Prop} [Decidable c] {a b : State} (ha : Canonical a.memories)
    (hb : Canonical b.memories) : Canonical (if c then a else b).memories := by split <;> assumption
/-- A choice whose two arms leave both memories alone leaves them alone. -/
theorem memories_of_ite {c : Prop} [Decidable c] {a b : State} {m : Memory × Memory} (ha : a.memories = m)
    (hb : b.memories = m) : (if c then a else b).memories = m := by split <;> assumption

/-- An outcome that is a next state of which something holds. -/
def NextWith (p : State → Prop) (o : Host.Outcome State Fault Refusal) : Prop := ∃ t, o = .next t ∧ p t

@[simp] theorem nextWith_next (p : State → Prop) (t : State) : NextWith p (.next t) ↔ p t :=
  ⟨fun ⟨_, h, hp⟩ => (Host.Outcome.next.inj h) ▸ hp, fun h => ⟨t, rfl, h⟩⟩
@[simp] theorem nextWith_ite (p : State → Prop) (c : Prop) [Decidable c] (a b : Host.Outcome State Fault Refusal) :
    NextWith p (if c then a else b) ↔ if c then NextWith p a else NextWith p b := by split <;> rfl

/-- What leaves both memories alone keeps their canonical form. -/
theorem NextWith.keeps {s : State} {o : Host.Outcome State Fault Refusal}
    (h : NextWith (fun t => t.memories = s.memories) o) (hs : Canonical s.memories) :
    NextWith (fun t => Canonical t.memories) o := by
  obtain ⟨t, ho, ht⟩ := h
  exact ⟨t, ho, (congrArg Canonical ht).mpr hs⟩

/-- Canonical form part by part. -/
theorem canonical_mk {m h : Memory} (hm : m.wf = true) (hh : h.wf = true) : Canonical (m, h) := ⟨hm, hh⟩
theorem State.mem_wf {s : State} (h : Canonical s.memories) : s.mem.wf = true := h.1
theorem State.hostMem_wf {s : State} (h : Canonical s.memories) : s.hostMem.wf = true := h.2

end Sys2Proof.Machine
end

