-- ==== Sys2Proof/Laws/KeepOps.lean ====
section
/-!
SUPPORT. What the state, the operations, the special registers and the accesses do to the two memories: one lemma per function, `_memories` where it leaves both alone
and `_canonical` where it writes one and keeps the canonical form. The lemmas stand in the order of the definitions.
-/
namespace Sys2Proof.Machine
set_option Elab.async false

@[simp] theorem State.choose_memories (s : State) (d : ℕ) :
    (State.choose s d).1.memories = s.memories := by
  unfold State.choose
  split <;> simp
@[simp] theorem State.countUe_memories (s : State) (u : ℕ) :
    (State.countUe s u).memories = s.memories := by
  simp [State.countUe]
@[simp] theorem State.countCe_memories (s : State) :
    (State.countCe s).memories = s.memories := by
  simp [State.countCe]
@[simp] theorem State.addPoison_memories (s : State) (us : List ℕ) :
    (State.addPoison s us).memories = s.memories := by
  simp [State.addPoison]
@[simp] theorem State.correct_memories (s : State) (u : ℕ) :
    (State.correct s u).memories = s.memories := by
  simp [State.correct]
@[simp] theorem State.checkUnit_memories (s : State) (u : ℕ) :
    (State.checkUnit s u).memories = s.memories := by
  simp [State.checkUnit]
@[simp] theorem State.checkRead_memories (s : State) (a : ℕ) (n : ℕ) :
    (State.checkRead s a n).memories = s.memories := by
  simp [State.checkRead]
@[simp] theorem State.putBytes_canonical (s : State) (a : ℕ) (bs : List Byte) (hs : Canonical s.memories) :
    Canonical (State.putBytes s a bs).memories := by
  exact ⟨Memory.writeBytes_wf _ _ hs.1, hs.2⟩
@[simp] theorem State.writeUnit_canonical (s : State) (a : ℕ) (bs : List Byte) (hs : Canonical s.memories) :
    Canonical (State.writeUnit s a bs).memories := by
  unfold State.writeUnit
  dsimp only
  split
  · simpa using hs
  · refine State.putBytes_canonical _ _ _ ?_
    split
    · simpa using hs
    · simpa using hs
@[simp] theorem State.drawFree_memories (s : State) :
    (State.drawFree s).1.memories = s.memories := by
  simp [State.drawFree]
@[simp] theorem State.setCore_memories (s : State) (k : ℕ) (c : CoreSt) :
    (State.setCore s k c).memories = s.memories := by
  simp [State.setCore]
@[simp] theorem State.updCore_memories (s : State) (k : ℕ) (f : CoreSt → CoreSt) :
    (State.updCore s k f).memories = s.memories := by
  simp [State.updCore]
@[simp] theorem State.setCtx_memories (s : State) (k : ℕ) (j : ℕ) (x : Ctx) :
    (State.setCtx s k j x).memories = s.memories := by
  simp [State.setCtx]
@[simp] theorem State.updCtx_memories (s : State) (k : ℕ) (j : ℕ) (f : Ctx → Ctx) :
    (State.updCtx s k j f).memories = s.memories := by
  simp [State.updCtx]
@[simp] theorem State.updMe_memories (s : State) (f : Ctx → Ctx) :
    (State.updMe s f).memories = s.memories := by
  simp [State.updMe]
@[simp] theorem State.fly_memories (s : State) (f : Flight) :
    (State.fly s f).memories = s.memories := by
  simp [State.fly]
@[simp] theorem State.hevent_memories (s : State) (e : HEvent) :
    (State.hevent s e).memories = s.memories := by
  simp [State.hevent]
@[simp] theorem State.land_memories (s : State) (lat : ℕ) (ls : List Land) :
    (State.land s lat ls).memories = s.memories := by
  simp [State.land]
@[simp] theorem State.later_memories (s : State) (es : List Instr) :
    (State.later s es).memories = s.memories := by
  simp [State.later]
@[simp] theorem State.push_memories (s : State) (es : List Instr) :
    (State.push s es).memories = s.memories := by
  simp [State.push]
@[simp] theorem State.updFn_memories (s : State) (f : ℕ) (g : Fn → Fn) :
    (State.updFn s f g).memories = s.memories := by
  simp [State.updFn]
@[simp] theorem State.updLaunch_memories (s : State) (l : ℕ) (g : Launch → Launch) :
    (State.updLaunch s l g).memories = s.memories := by
  simp [State.updLaunch]
@[simp] theorem State.updMyCore_memories (s : State) (f : CoreSt → CoreSt) :
    (State.updMyCore s f).memories = s.memories := by
  simp [State.updMyCore]
@[simp] theorem State.updQuad_memories (s : State) (q : ℕ) (g : Quad → Quad) :
    (State.updQuad s q g).memories = s.memories := by
  simp [State.updQuad]
@[simp] theorem State.updRegion_memories (s : State) (r : ℕ) (g : Region → Region) :
    (State.updRegion s r g).memories = s.memories := by
  simp [State.updRegion]
@[simp] theorem State.writeDpa_canonical (s : State) (a : ℕ) (bs : List Byte) (hs : Canonical s.memories) :
    Canonical (State.writeDpa s a bs).memories := by
  unfold State.writeDpa
  split
  · exact State.putBytes_canonical _ _ _ hs
  · exact foldl_canonical _ (fun a x h => State.writeUnit_canonical _ _ _ h) _ _ hs
@[simp] theorem State.scrub_canonical (s : State) (a : ℕ) (n : ℕ) (hs : Canonical s.memories) :
    Canonical (State.scrub s a n).memories := by
  unfold State.scrub
  extract_lets kept u
  have hu : Canonical u.memories := by
    rw [show u.memories = s.memories by simp only [u]; split <;> simp]
    exact hs
  exact ⟨Memory.clear_wf _ _ hu.1, hu.2⟩
@[simp] theorem checkEntries_memories (s : State) (l : List ℕ) :
    (checkEntries s l).memories = s.memories := by
  simp [checkEntries]
@[simp] theorem escalate_memories (s : State) (k : ℕ) (j : ℕ) (f : ℕ) (partner : Bool) (flt : Flt) (pc : Word)
    (rep : ℕ) :
    (escalate s k j f partner flt pc rep).memories = s.memories := by
  simp [escalate]
@[simp] theorem undoLandings_memories (s : State) (k : ℕ) (j : ℕ) (f : ℕ) (partner : Bool) :
    (undoLandings s k j f partner).memories = s.memories := by
  simp only [undoLandings]
  split <;> simp
@[simp] theorem enterTrap_memories (s : State) (k : ℕ) (j : ℕ) (f : ℕ) (partner : Bool) (flt : Flt) (pc : Word)
    (rep : ℕ) (grank : ℕ) (other : Bool) :
    (enterTrap s k j f partner flt pc rep grank other).memories = s.memories := by
  simp [enterTrap]
  split <;> simp
@[simp] theorem fillFn_memories (s : State) (f : ℕ) (h : Hit) (va : ℕ) :
    (fillFn s f h va).memories = s.memories := by
  simp [fillFn]
@[simp] theorem fillTlb_memories (s : State) (w : Who) (h : Hit) (va : ℕ) :
    (fillTlb s w h va).memories = s.memories := by
  simp [fillTlb]
@[simp] theorem markDirty_canonical (s : State) (f : ℕ) (h : Hit) (hs : Canonical s.memories) :
    Canonical (markDirty s f h).memories := by
  unfold markDirty
  dsimp only
  split
  · exact hs
  · split
    · exact hs
    · exact State.writeDpa_canonical _ _ _ hs
@[simp] theorem sendVector_memories (s : State) (f : ℕ) (v : ℕ) :
    (sendVector s f v).memories = s.memories := by
  simp [sendVector]
@[simp] theorem raiseCause_memories (s : State) (f : ℕ) (b : ℕ) :
    (raiseCause s f b).memories = s.memories := by
  simp [raiseCause]
@[simp] theorem replay_memories (s : State) (k : ℕ) (j : ℕ) (f : ℕ) (b : Saved) (latches : Bool) :
    (replay s k j f b latches).memories = s.memories := by
  simp [replay]
@[simp] theorem returnFromTrap_memories (s : State) (k : ℕ) (j : ℕ) :
    (returnFromTrap s k j).memories = s.memories := by
  simp only [returnFromTrap]
  split <;> simp
@[simp] theorem takeTokens_memories (s : State) (f : ℕ) (k : ℕ) (n : ℕ) :
    (takeTokens s f k n).1.memories = s.memories := by
  simp [takeTokens]
@[simp] theorem takeAll_memories (s : State) (f : ℕ) (segs : List (ℕ × Hit × ℕ)) :
    (takeAll s f segs).1.memories = s.memories := by
  simp [takeAll]
@[simp] theorem State.draws_memories (s : State) (rc : Rc) (n : ℕ) :
    (State.draws s rc n).1.memories = s.memories := by
  simp [State.draws]
@[simp] theorem State.landS_memories (s : State) (lat : ℕ) (d : BitVec 6) (v : Word) :
    (State.landS s lat d v).memories = s.memories := by
  simp [State.landS]
@[simp] theorem State.landV_memories (s : State) (lat : ℕ) (g : BitVec 4) (d : VDst) (r : Vec × Flags) :
    (State.landV s lat g d r).memories = s.memories := by
  simp [State.landV]
@[simp] theorem writeLmap_memories (s : State) (v : Word) :
    (writeLmap s v).memories = s.memories := by
  simp [writeLmap]
@[simp] theorem writeLq_memories (s : State) (v : Word) :
    (writeLq s v).memories = s.memories := by
  simp [writeLq]
@[simp] theorem writeQpart_memories (s : State) (v : Word) :
    (writeQpart s v).memories = s.memories := by
  simp [writeQpart]
@[simp] theorem writeFctl_memories (s : State) (v : Word) :
    (writeFctl s v).memories = s.memories := by
  simp [writeFctl]
@[simp] theorem writePrictl_memories (s : State) (v : Word) :
    (writePrictl s v).memories = s.memories := by
  simp [writePrictl]
@[simp] theorem mtsUser_memories (s : State) (k : ℕ) (j : ℕ) (n : ℕ) (v : Word) :
    (mtsUser s k j n v).memories = s.memories := by
  simp [mtsUser]
@[simp] theorem mwWrite_memories (s : State) (v : Word) :
    (mwWrite s v).memories = s.memories := by
  unfold mwWrite
  split <;> simp
@[simp] theorem writeTbkt_memories (s : State) (v : Word) :
    (writeTbkt s v).memories = s.memories := by
  simp [writeTbkt]
@[simp] theorem writeWindow_canonical (s : State) (v : Word) (hs : Canonical s.memories) :
    Canonical (writeWindow s v).memories := by
  unfold writeWindow
  dsimp only
  split
  · simp [hs]
  · exact ⟨Memory.filter_wf _ hs.1, hs.2⟩
@[simp] theorem writeInv_memories (s : State) (v : Word) :
    (writeInv s v).memories = s.memories := by
  simp [writeInv]
@[simp] theorem mtsMgmt_canonical (s : State) (n : ℕ) (v : Word) (hs : Canonical s.memories) :
    Canonical (mtsMgmt s n v).memories := by
  simp [mtsMgmt, hs]
  repeat' split
  all_goals simp [hs]
@[simp] theorem sysWrite_canonical (s : State) (k : ℕ) (j : ℕ) (n : ℕ) (v : Word) (hs : Canonical s.memories) :
    Canonical (sysWrite s k j n v).memories := by
  simp [sysWrite, hs]
@[simp] theorem State.withPolicy_canonical (s : State) (hs : Canonical s.memories) :
    Canonical (State.withPolicy s).memories :=
  foldl_canonical _ (fun _ _ h => mtsMgmt_canonical _ _ _ h) _ _ hs
@[simp] theorem State.updStore_memories (s : State) (f : ℕ) (g : Store → Store) :
    (State.updStore s f g).memories = s.memories := by
  simp [State.updStore]
@[simp] theorem State.setKvWord_memories (s : State) (w : Config.KvWord) (v : Word) :
    (State.setKvWord s w v).memories = s.memories := by
  unfold State.setKvWord
  split <;> simp
@[simp] theorem State.setTableByte_memories (s : State) (a : ℕ) (b : Byte) :
    (State.setTableByte s a b).memories = s.memories := by
  unfold State.setTableByte
  split <;> simp
@[simp] theorem State.intoTables_memories (s : State) (a : ℕ) (bs : List Byte) :
    (State.intoTables s a bs).memories = s.memories := by
  simp [State.intoTables]
@[simp] theorem noteUnit_memories (s : State) (h : ℕ) (u : ℕ) (old : Word) (w : XWrite) :
    (noteUnit s h u old w).memories = s.memories := by
  simp [noteUnit]
@[simp] theorem writePad_canonical (s : State) (k : ℕ) (a : ℕ) (swz : Bool) (bs : List Byte) (ch : Option ℕ)
    (joined : Bool) (hs : Canonical s.memories) :
    Canonical (writePad s k a swz bs ch joined).memories := by
  unfold writePad
  dsimp only
  split
  · simp [hs]
  · rw [foldl_memories _ (fun a x => noteUnit_memories ..)]
    simp [hs]
@[simp] theorem applyPiece_canonical (k : ℕ) (f : ℕ) (joined : Bool) (s : State) (p : ℕ × List Byte × Option ℕ)
    (hs : Canonical s.memories) :
    Canonical (applyPiece k f joined s p).memories := by
  unfold applyPiece
  by_cases h : isHitik k = true <;> simp only [h] <;> split <;> simp [hs]
@[simp] theorem fillAll_memories (s : State) (w : Who) (segs : List (ℕ × Hit × ℕ)) :
    (fillAll s w segs).memories = s.memories := by
  simp [fillAll]
@[simp] theorem holdEff_memories (s : State) (k : ℕ) (j : ℕ) (after : List ℕ) (e : HeldEff) :
    (holdEff s k j after e).memories = s.memories := by
  simp [holdEff]
@[simp] theorem readUnit_memories (s : State) (k : ℕ) (j : ℕ) (u : ℕ) (swz : Bool) :
    (readUnit s k j u swz).1.memories = s.memories := by
  unfold readUnit
  split <;> simp
@[simp] theorem readPad_memories (s : State) (k : ℕ) (j : ℕ) (a : ℕ) (n : ℕ) (swz : Bool) :
    (readPad s k j a n swz).1.memories = s.memories := by
  simp [readPad]
@[simp] theorem State.acquired_memories (s : State) (k : ℕ) :
    (State.acquired s k).memories = s.memories := by
  simp [State.acquired]
@[simp] theorem State.acquiredChan_memories (s : State) (k : ℕ) (ch : ℕ) :
    (State.acquiredChan s k ch).memories = s.memories := by
  simp [State.acquiredChan]
@[simp] theorem firstTouch_memories (s : State) (k : ℕ) (j : ℕ) (h : Hit) :
    (firstTouch s k j h).memories = s.memories := by
  unfold firstTouch
  split
  · rfl
  · split <;> simp
@[simp] theorem touchAll_memories (s : State) (k : ℕ) (j : ℕ) (segs : List (ℕ × Hit × ℕ)) :
    (touchAll s k j segs).memories = s.memories := by
  simp [touchAll]
@[simp] theorem loadVa_memories (s : State) (k : ℕ) (j : ℕ) (w : Who) (p : Acc) (a : ℕ) (n : ℕ) :
    (loadVa s k j w p a n).1.memories = s.memories := by
  unfold loadVa
  dsimp only
  rw [foldl_memories_fst _ (fun a x => fst_memories _ ((readPad_memories ..).trans (State.checkRead_memories ..)))]
  by_cases h : isHitik k = true <;> simp [h]
@[simp] theorem requestPage_memories (s : State) (f : ℕ) (gpa : ℕ) (write : Bool) :
    (requestPage s f gpa write).1.memories = s.memories := by
  simp [requestPage]
  repeat' split
  all_goals simp
@[simp] theorem storeVa_canonical (s : State) (k : ℕ) (j : ℕ) (w : Who) (p : Acc) (rel : Bool) (a : ℕ)
    (bs : List Byte) (hs : Canonical s.memories) :
    Canonical (storeVa s k j w p rel a bs).memories := by
  have h1 : ∀ u : State, u.memories = s.memories → Canonical u.memories := fun u hu => hu ▸ hs
  unfold storeVa
  extract_lets segs u v
  have hv : Canonical v.memories :=
    h1 v (by by_cases h : isHitik k = true <;> simp [v, u, h])
  refine canonical_of_ite (foldl_canonical _ (fun a x h => applyPiece_canonical _ _ _ _ _ h) _ _ hv) ?_
  rw [holdEff_memories]
  exact hv
@[simp] theorem State.blockMe_memories (s : State) (w : Option Wait) :
    (State.blockMe s w).memories = s.memories := by
  simp only [State.blockMe]
  rw [memories_ite]
  simp
@[simp] theorem State.countFreeze_memories (s : State) (k : ℕ) (lo : ℕ) :
    (State.countFreeze s k lo).memories = s.memories := by
  simp [State.countFreeze]
@[simp] theorem takeBack_memories (s : State) (k : ℕ) :
    (takeBack s k).memories = s.memories := by
  simp [takeBack]
@[simp] theorem State.freezeFor_memories (s : State) (k : ℕ) (why : List (ℕ × ℕ)) :
    (State.freezeFor s k why).memories = s.memories := by
  simp [State.freezeFor]
@[simp] theorem State.freeze_memories (s : State) (k : ℕ) (lo : ℕ) :
    (State.freeze s k lo).memories = s.memories := by
  simp [State.freeze]
@[simp] theorem requestAll_memories (s : State) (ps : List (ℕ × ℕ × Bool)) :
    (requestAll s ps).1.memories = s.memories := by
  simp [requestAll]
@[simp] theorem State.pageWait_memories (s : State) (ps : List (ℕ × ℕ × Bool)) :
    (State.pageWait s ps).memories = s.memories := by
  simp [State.pageWait]
@[simp] theorem State.report_memories (s : State) (r : Option (ℕ × ℕ × ℕ)) :
    (State.report s r).memories = s.memories := by
  unfold State.report
  split <;> simp
@[simp] theorem State.trap_memories (s : State) (k : ℕ) (j : ℕ) (late : Bool) (partner : Bool) (f : Flt) (pc : Word)
    (rep : ℕ) :
    (State.trap s k j late partner f pc rep).memories = s.memories := by
  simp only [State.trap]
  split <;> simp <;> split <;> simp
@[simp] theorem State.raise_memories (s : State) (f : Flt) :
    (State.raise s f).memories = s.memories := by
  simp [State.raise]
@[simp] theorem State.stall_memories (s : State) (t : Stall) :
    (State.stall s t).memories = s.memories := by
  unfold State.stall
  split <;> simp
@[simp] theorem settle_memories (c : Chk) (go : State → State) (s : State)
    (h_go : ∀ z0, (go z0).memories = z0.memories) :
    (settle c go s).memories = s.memories := by
  unfold settle
  repeat' split
  all_goals simp [h_go]
@[simp] theorem settle_canonical (c : Chk) (go : State → State) (s : State)
    (h_go : ∀ z0, Canonical z0.memories → Canonical (go z0).memories) (hs : Canonical s.memories) :
    Canonical (settle c go s).memories := by
  unfold settle
  repeat' split
  all_goals simp [hs, h_go]
@[simp] theorem issueOp_memories (i : Instr) (c : State → Chk) (eff : State → State) (s : State)
    (h_eff : ∀ z0, (eff z0).memories = z0.memories) :
    NextWith (fun t => t.memories = s.memories) (issueOp i c eff s) := by
  simp only [issueOp, nextWith_next]
  split
  · split
    · exact h_eff s
    · rfl
  · refine settle_memories _ _ _ (fun u => ?_)
    split
    · exact h_eff u
    · rfl
@[simp] theorem issueOp_canonical (i : Instr) (c : State → Chk) (eff : State → State) (s : State)
    (h_eff : ∀ z0, Canonical z0.memories → Canonical (eff z0).memories) (hs : Canonical s.memories) :
    NextWith (fun t => Canonical t.memories) (issueOp i c eff s) := by
  simp only [issueOp, nextWith_next]
  split
  · split
    · exact h_eff _ hs
    · exact hs
  · refine settle_canonical _ _ _ (fun u hu => ?_) hs
    split
    · exact h_eff u hu
    · exact hu

end Sys2Proof.Machine
end

