-- ==== Sys2Proof/Laws/KeepIssue.lean ====
section
/-!
SUPPORT. What the instructions do to the two memories: one lemma per function, `_memories` where it leaves both alone
and `_canonical` where it writes one and keeps the canonical form. The lemmas stand in the order of the definitions.
-/
namespace Sys2Proof.Machine
set_option Elab.async false

@[simp] theorem State.flyLoad_memories (s : State) (arrival : ℕ) (least : ℕ) (arr : List Ticket) (po : Option ℕ)
    (l : Word → List Land) :
    (State.flyLoad s arrival least arr po l).memories = s.memories := by
  unfold State.flyLoad
  dsimp only
  rw [State.fly_memories]
  split <;> simp
@[simp] theorem divide_memories (i : Instr) (d : BitVec 6) (a : Sel) (b : Sel) (f : Word → Word → Word) (s : State) :
    NextWith (fun t => t.memories = s.memories) (divide i d a b f s) := by
  simp [divide]
@[simp] theorem scalar2_memories (i : Instr) (lat : ℕ) (d : BitVec 6) (a : Sel) (b : Sel) (f : Word → Word → Word)
    (s : State) :
    NextWith (fun t => t.memories = s.memories) (scalar2 i lat d a b f s) := by
  simp [scalar2]
@[simp] theorem execAdd_memories (g : BitVec 4) (d : BitVec 6) (a : Sel) (b : Sel) (s : State) :
    NextWith (fun t => t.memories = s.memories) (execAdd g d a b s) := by
  simp [execAdd]
@[simp] theorem execAnd_memories (g : BitVec 4) (d : BitVec 6) (a : Sel) (b : Sel) (s : State) :
    NextWith (fun t => t.memories = s.memories) (execAnd g d a b s) := by
  simp [execAnd]
@[simp] theorem scalar1_memories (i : Instr) (lat : ℕ) (d : BitVec 6) (a : Sel) (f : Word → Word) (s : State) :
    NextWith (fun t => t.memories = s.memories) (scalar1 i lat d a f s) := by
  simp [scalar1]
@[simp] theorem execClz_memories (g : BitVec 4) (d : BitVec 6) (a : Sel) (s : State) :
    NextWith (fun t => t.memories = s.memories) (execClz g d a s) := by
  simp [execClz]
@[simp] theorem execCmp_memories (g : BitVec 4) (c : Cond) (p : BitVec 3) (a : Sel) (b : Sel) (s : State) :
    NextWith (fun t => t.memories = s.memories) (execCmp g c p a b s) := by
  simp [execCmp]
@[simp] theorem execDiv_memories (g : BitVec 4) (u : Bool) (d : BitVec 6) (a : Sel) (b : Sel) (s : State) :
    NextWith (fun t => t.memories = s.memories) (execDiv g u d a b s) := by
  simp [execDiv]
@[simp] theorem execLd_memories (g : BitVec 4) (sz : BitVec 2) (acq : Bool) (d : BitVec 6) (base : BitVec 6)
    (arr : BitVec 12) (off : Off) (s : State) :
    NextWith (fun t => t.memories = s.memories) (execLd g sz acq d base arr off s) := by
  simp [execLd]
@[simp] theorem execLea_memories (g : BitVec 4) (d : BitVec 6) (a : Sel) (b : Sel) (sh : BitVec 6) (s : State) :
    NextWith (fun t => t.memories = s.memories) (execLea g d a b sh s) := by
  simp [execLea]
@[simp] theorem execLi_memories (g : BitVec 4) (d : BitVec 6) (a : Sel) (s : State) :
    NextWith (fun t => t.memories = s.memories) (execLi g d a s) := by
  simp [execLi]
@[simp] theorem execMax_memories (g : BitVec 4) (u : Bool) (d : BitVec 6) (a : Sel) (b : Sel) (s : State) :
    NextWith (fun t => t.memories = s.memories) (execMax g u d a b s) := by
  simp [execMax]
@[simp] theorem execMfs_memories (g : BitVec 4) (d : BitVec 6) (n : BitVec 16) (s : State) :
    NextWith (fun t => t.memories = s.memories) (execMfs g d n s) := by
  simp [execMfs]
@[simp] theorem execMin_memories (g : BitVec 4) (u : Bool) (d : BitVec 6) (a : Sel) (b : Sel) (s : State) :
    NextWith (fun t => t.memories = s.memories) (execMin g u d a b s) := by
  simp [execMin]
@[simp] theorem execMts_memories (g : BitVec 4) (n : BitVec 16) (a : Sel) (s : State) :
    NextWith (fun t => t.memories = s.memories) (execMts g n a s) := by
  simp [execMts]
@[simp] theorem execMul_memories (g : BitVec 4) (d : BitVec 6) (a : Sel) (b : Sel) (s : State) :
    NextWith (fun t => t.memories = s.memories) (execMul g d a b s) := by
  simp [execMul]
@[simp] theorem execMulh_memories (g : BitVec 4) (u : Bool) (d : BitVec 6) (a : Sel) (b : Sel) (s : State) :
    NextWith (fun t => t.memories = s.memories) (execMulh g u d a b s) := by
  simp [execMulh]
@[simp] theorem execNop_memories (s : State) :
    NextWith (fun t => t.memories = s.memories) (execNop s) := by
  simp [execNop]
@[simp] theorem execOr_memories (g : BitVec 4) (d : BitVec 6) (a : Sel) (b : Sel) (s : State) :
    NextWith (fun t => t.memories = s.memories) (execOr g d a b s) := by
  simp [execOr]
@[simp] theorem execPopc_memories (g : BitVec 4) (d : BitVec 6) (a : Sel) (s : State) :
    NextWith (fun t => t.memories = s.memories) (execPopc g d a s) := by
  simp [execPopc]
@[simp] theorem execRem_memories (g : BitVec 4) (u : Bool) (d : BitVec 6) (a : Sel) (b : Sel) (s : State) :
    NextWith (fun t => t.memories = s.memories) (execRem g u d a b s) := by
  simp [execRem]
@[simp] theorem execRot_memories (g : BitVec 4) (d : BitVec 6) (a : Sel) (b : Sel) (s : State) :
    NextWith (fun t => t.memories = s.memories) (execRot g d a b s) := by
  simp [execRot]
@[simp] theorem execSel_memories (g : BitVec 4) (d : BitVec 6) (c : BitVec 4) (a : Sel) (b : Sel) (s : State) :
    NextWith (fun t => t.memories = s.memories) (execSel g d c a b s) := by
  simp [execSel]
@[simp] theorem execShl_memories (g : BitVec 4) (d : BitVec 6) (a : Sel) (b : Sel) (s : State) :
    NextWith (fun t => t.memories = s.memories) (execShl g d a b s) := by
  simp [execShl]
@[simp] theorem execShr_memories (g : BitVec 4) (arith : Bool) (d : BitVec 6) (a : Sel) (b : Sel) (s : State) :
    NextWith (fun t => t.memories = s.memories) (execShr g arith d a b s) := by
  simp [execShr]
@[simp] theorem execSt_canonical (g : BitVec 4) (sz : BitVec 2) (rel : Bool) (d : BitVec 6) (base : BitVec 6)
    (off : Off) (s : State) (hs : Canonical s.memories) :
    NextWith (fun t => Canonical t.memories) (execSt g sz rel d base off s) := by
  exact issueOp_canonical _ _ _ _ (fun u hu => storeVa_canonical _ _ _ _ _ _ _ _ hu) hs
@[simp] theorem execSub_memories (g : BitVec 4) (d : BitVec 6) (a : Sel) (b : Sel) (s : State) :
    NextWith (fun t => t.memories = s.memories) (execSub g d a b s) := by
  simp [execSub]
@[simp] theorem execXor_memories (g : BitVec 4) (d : BitVec 6) (a : Sel) (b : Sel) (s : State) :
    NextWith (fun t => t.memories = s.memories) (execXor g d a b s) := by
  simp [execXor]
@[simp] theorem State.branchTo_memories (s : State) (t : Word) (n : ℕ) :
    (State.branchTo s t n).memories = s.memories := by
  simp [State.branchTo]
@[simp] theorem State.deeper_memories (s : State) :
    (State.deeper s).memories = s.memories := by
  simp [State.deeper]
@[simp] theorem State.endCtx_memories (s : State) (k : ℕ) (j : ℕ) :
    (State.endCtx s k j).memories = s.memories := by
  simp [State.endCtx]
@[simp] theorem State.link_memories (s : State) (d : BitVec 6) :
    (State.link s d).memories = s.memories := by
  simp [State.link]
@[simp] theorem State.softTrap_memories (s : State) (k : ℕ) (j : ℕ) (tcode : Word) :
    (State.softTrap s k j tcode).memories = s.memories := by
  simp [State.softTrap]
@[simp] theorem cloneTail_memories (s : State) (j : ℕ) :
    (cloneTail s j).memories = s.memories := by
  simp [cloneTail]
@[simp] theorem deferTail_memories (s : State) :
    (deferTail s).memories = s.memories := by
  simp [deferTail]
@[simp] theorem execBr_memories (g : BitVec 4) (d : BitVec 6) (disp : BitVec 32) (s : State) :
    NextWith (fun t => t.memories = s.memories) (execBr g d disp s) := by
  simp [execBr]
@[simp] theorem execBri_memories (g : BitVec 4) (d : BitVec 6) (a : BitVec 6) (s : State) :
    NextWith (fun t => t.memories = s.memories) (execBri g d a s) := by
  simp [execBri]
@[simp] theorem execCall_memories (g : BitVec 4) (disp : BitVec 32) (s : State) :
    NextWith (fun t => t.memories = s.memories) (execCall g disp s) := by
  simp [execCall]
@[simp] theorem execCalli_memories (g : BitVec 4) (a : BitVec 6) (s : State) :
    NextWith (fun t => t.memories = s.memories) (execCalli g a s) := by
  simp [execCalli]
@[simp] theorem leaveGang_memories (s : State) (k : ℕ) (pc : Word) :
    (leaveGang s k pc).memories = s.memories := by
  simp [leaveGang]
@[simp] theorem execDecouple_memories (g : BitVec 4) (s : State) :
    NextWith (fun t => t.memories = s.memories) (execDecouple g s) := by
  simp [execDecouple]
@[simp] theorem execEret_memories (g : BitVec 4) (s : State) :
    NextWith (fun t => t.memories = s.memories) (execEret g s) := by
  simp [execEret]
@[simp] theorem execFuse_memories (g : BitVec 4) (n : BitVec 6) (s : State) :
    NextWith (fun t => t.memories = s.memories) (execFuse g n s) := by
  simp [execFuse]
@[simp] theorem execHalt_memories (g : BitVec 4) (s : State) :
    NextWith (fun t => t.memories = s.memories) (execHalt g s) := by
  simp [execHalt]
@[simp] theorem execHandback_memories (g : BitVec 4) (s : State) :
    NextWith (fun t => t.memories = s.memories) (execHandback g s) := by
  unfold execHandback
  refine issueOp_memories _ _ _ _ (fun u => ?_)
  dsimp only
  split <;> simp
@[simp] theorem execJointail_memories (g : BitVec 4) (p : BitVec 3) (s : State) :
    NextWith (fun t => t.memories = s.memories) (execJointail g p s) := by
  simp [execJointail]
@[simp] theorem execLoop_memories (g : BitVec 4) (d : BitVec 6) (disp : BitVec 32) (s : State) :
    NextWith (fun t => t.memories = s.memories) (execLoop g d disp s) := by
  simp [execLoop]
@[simp] theorem execRejoin_memories (g : BitVec 4) (s : State) :
    NextWith (fun t => t.memories = s.memories) (execRejoin g s) := by
  simp [execRejoin]
@[simp] theorem execRet_memories (g : BitVec 4) (a : BitVec 6) (s : State) :
    NextWith (fun t => t.memories = s.memories) (execRet g a s) := by
  simp [execRet]
@[simp] theorem resumeCaller_memories (s : State) (v : CallerView) :
    (resumeCaller s v).memories = s.memories := by
  simp [resumeCaller]
@[simp] theorem execTailend_memories (g : BitVec 4) (s : State) :
    NextWith (fun t => t.memories = s.memories) (execTailend g s) := by
  unfold execTailend
  refine issueOp_memories _ _ _ _ (fun u => ?_)
  dsimp only
  repeat' split
  all_goals simp
@[simp] theorem execTrap_memories (g : BitVec 4) (a : Sel) (s : State) :
    NextWith (fun t => t.memories = s.memories) (execTrap g a s) := by
  simp [execTrap]
@[simp] theorem bindCell_canonical (s : State) (k : ℕ) (j : ℕ) (sc : ℕ) (inst : ℕ) (l : ℕ) (n : ℕ) (cell : ℕ)
    (count : ℕ) (hs : Canonical s.memories) :
    Canonical (bindCell s k j sc inst l n cell count).memories := by
  unfold bindCell
  split
  · split
    · exact hs
    · exact State.writeDpa_canonical _ _ _ hs
  · exact hs
@[simp] theorem breakWaiters_memories (s : State) (b : Barrier) :
    (breakWaiters s b).memories = s.memories := by
  simp [breakWaiters]
@[simp] theorem State.updPort_memories (s : State) (p : ℕ) (g : Port → Port) :
    (State.updPort s p g).memories = s.memories := by
  simp [State.updPort]
@[simp] theorem freeWords_memories (s : State) (y2 : ℕ) :
    (freeWords s y2).1.memories = s.memories := by
  induction y2 generalizing s with
  | zero => rfl
  | succ n ih => simp [freeWords, ih]
@[simp] theorem sendOn_memories (s : State) (port : ℕ) (type : ℕ) (vl : ℕ) (pkg : ℕ) (payload : List Byte) :
    (sendOn s port type vl pkg payload).memories = s.memories := by
  simp [sendOn]
@[simp] theorem sendFlit_memories (s : State) (type : ℕ) (vl : ℕ) (pkg : ℕ) :
    (sendFlit s type vl pkg).1.memories = s.memories := by
  simp [sendFlit]
@[simp] theorem sendFlits_memories (s : State) (type : ℕ) (vl : ℕ) (pkgs : List ℕ) :
    (sendFlits s type vl pkgs).1.memories = s.memories := by
  simp [sendFlits]
@[simp] theorem podFlits_memories (sc : Scope) (s : State) :
    (podFlits sc s).memories = s.memories := by
  simp [podFlits]
@[simp] theorem noteArrival_memories (s : State) (k : ℕ) (j : ℕ) (who : ℕ) (sc : ℕ) (inst : ℕ) (l : ℕ) (n : ℕ) :
    (noteArrival s k j who sc inst l n).memories = s.memories := by
  unfold noteArrival
  split <;> simp
@[simp] theorem countArrival_canonical (s : State) (k : ℕ) (j : ℕ) (who : ℕ) (sc : ℕ) (inst : ℕ) (l : ℕ) (n : ℕ)
    (hs : Canonical s.memories) :
    Canonical (countArrival s k j who sc inst l n).memories := by
  unfold countArrival
  split <;> simp [hs]
@[simp] theorem execArrive_canonical (g : BitVec 4) (sc : Scope) (a : Sel) (s : State) (hs : Canonical s.memories) :
    NextWith (fun t => Canonical t.memories) (execArrive g sc a s) := by
  refine issueOp_canonical _ _ _ _ (fun u hu => ?_) hs
  dsimp only
  split
  · exact countArrival_canonical _ _ _ _ _ _ _ _ (by simpa using hu)
  · simpa using hu
@[simp] theorem execBarbase_memories (g : BitVec 4) (sc : Scope) (a : Sel) (b : Sel) (s : State) :
    NextWith (fun t => t.memories = s.memories) (execBarbase g sc a b s) := by
  simp [execBarbase]
@[simp] theorem execBarinit_memories (g : BitVec 4) (sc : Scope) (p : BitVec 3) (a : Sel) (b : Sel) (c : Sel)
    (s : State) :
    NextWith (fun t => t.memories = s.memories) (execBarinit g sc p a b c s) := by
  simp [execBarinit]
@[simp] theorem execFence_memories (g : BitVec 4) (sc : Scope) (kinds : BitVec 3) (dir : BitVec 2) (s : State) :
    NextWith (fun t => t.memories = s.memories) (execFence g sc kinds dir s) := by
  refine issueOp_memories _ _ _ _ (fun u => ?_)
  dsimp only
  repeat' split
  all_goals simp
@[simp] theorem execWait_memories (g : BitVec 4) (sc : Scope) (p : BitVec 3) (a : Sel) (s : State) :
    NextWith (fun t => t.memories = s.memories) (execWait g sc p a s) := by
  refine issueOp_memories _ _ _ _ (fun u => ?_)
  dsimp only
  rw [State.updMe_memories, State.land_memories]
  split <;> simp
@[simp] theorem watchAcquires_memories (w : WatchOf) (s : State) :
    (watchAcquires w s).memories = s.memories := by
  cases w <;> simp [watchAcquires]
@[simp] theorem execWatch_memories (g : BitVec 4) (p : BitVec 3) (w : WatchOf) (b : Sel) (s : State) :
    NextWith (fun t => t.memories = s.memories) (execWatch g p w b s) := by
  simp [execWatch]
@[simp] theorem wakeWatch_memories (s : State) (k : ℕ) (j : ℕ) :
    (wakeWatch s k j).memories = s.memories := by
  simp only [wakeWatch]
  split <;> simp
@[simp] theorem execWatchTimeout_memories (core : ℕ) (slot : ℕ) (s : State) :
    NextWith (fun t => t.memories = s.memories) (execWatchTimeout core slot s) := by
  simp [execWatchTimeout]
@[simp] theorem unbindCell_memories (s : State) (sc : ℕ) (inst : ℕ) (l : ℕ) (n : ℕ) :
    (unbindCell s sc inst l n).memories = s.memories := by
  unfold unbindCell
  split <;> simp
@[simp] theorem applyHeld_canonical (s : State) (k : ℕ) (j : ℕ) (n : ℕ) (e : HeldEff) (hs : Canonical s.memories) :
    Canonical (applyHeld s k j n e).memories := by
  unfold applyHeld
  split
  · exact foldl_canonical _ (fun a x h => applyPiece_canonical _ _ _ _ _ h) _ _ hs
  · exact countArrival_canonical _ _ _ _ _ _ _ _ (by simpa using hs)
  · split <;> simp [hs]
  · exact hs
@[simp] theorem drainHeld_canonical (k : ℕ) (j : ℕ) (y4 : ℕ) (y7 : State) (hs : Canonical y7.memories) :
    Canonical (drainHeld k j y4 y7).memories := by
  induction y4 generalizing y7 with
  | zero => exact hs
  | succ n ih =>
      unfold drainHeld
      split
      · exact hs
      · exact ih _ (by simp [hs])
@[simp] theorem State.drain_canonical (s : State) (k : ℕ) (j : ℕ) (hs : Canonical s.memories) :
    Canonical (State.drain s k j).memories := by
  simp [State.drain, hs]
@[simp] theorem leaveColl_memories (s : State) (k : ℕ) (n : ℕ) :
    (leaveColl s k n).memories = s.memories := by
  simp [leaveColl]
@[simp] theorem State.updChan_memories (s : State) (k : ℕ) (n : ℕ) (f : Chan → Chan) :
    (State.updChan s k n f).memories = s.memories := by
  simp [State.updChan]
@[simp] theorem State.raiseFlags_memories (s : State) (k : ℕ) (j : ℕ) (f : Word) :
    (State.raiseFlags s k j f).memories = s.memories := by
  simp [State.raiseFlags]
@[simp] theorem State.engineFlags_memories (s : State) (k : ℕ) (j : ℕ) (inst : ℕ) (f : Word) :
    (State.engineFlags s k j inst f).memories = s.memories := by
  simp [State.engineFlags]
@[simp] theorem breakChanWatches_memories (s : State) (k : ℕ) (n : ℕ) :
    (breakChanWatches s k n).memories = s.memories := by
  simp [breakChanWatches]
  repeat' split
  all_goals simp
@[simp] theorem State.endCmd_memories (s : State) (k : ℕ) (n : ℕ) (c : Cmd) (st : Status) (count : ℕ) :
    (State.endCmd s k n c st count).memories = s.memories := by
  unfold State.endCmd
  split <;> simp
@[simp] theorem State.updRing_memories (s : State) (k : ℕ) (r : ℕ) (f : Ring → Ring) :
    (State.updRing s k r f).memories = s.memories := by
  simp [State.updRing]
@[simp] theorem applyQ_canonical (k : ℕ) (j : ℕ) (inst : ℕ) (swz : Bool) (s : State) (w : QWrite)
    (hs : Canonical s.memories) :
    Canonical (applyQ k j inst swz s w).memories := by
  unfold applyQ
  repeat' split
  all_goals simp [hs]
@[simp] theorem State.finishOp_canonical (s : State) (k : ℕ) (j : ℕ) (o : QOp) (hs : Canonical s.memories) :
    Canonical (State.finishOp s k j o).memories := by
  refine State.drain_canonical _ _ _ ?_
  rw [State.updCtx_memories]
  exact foldl_canonical _ (fun a x h => applyQ_canonical _ _ _ _ _ _ h) _ _ hs
@[simp] theorem State.stage_memories (s : State) (o : QOp) :
    (State.stage s o).memories = s.memories := by
  simp [State.stage]
@[simp] theorem State.updCmd_memories (s : State) (k : ℕ) (n : ℕ) (serial : ℕ) (f : Cmd → Cmd) :
    (State.updCmd s k n serial f).memories = s.memories := by
  simp [State.updCmd]
@[simp] theorem loadRuns_memories (s : State) (l : List (ℕ × ℕ × ℕ)) :
    (loadRuns s l).1.memories = s.memories := by
  unfold loadRuns
  dsimp only
  rw [foldl_memories_fst _ (fun a x => fst_memories _ (loadVa_memories ..))]
@[simp] theorem State.flyVec_memories (s : State) (acq : Bool) (l : List (ℕ × ℕ × ℕ)) (arr : BitVec 12) (extra : ℕ)
    (d : BitVec 6) (mask : Pred) :
    (State.flyVec s acq l arr extra d mask).memories = s.memories := by
  unfold State.flyVec
  simp
@[simp] theorem pred2_memories (i : Instr) (g : BitVec 4) (d : BitVec 4) (f : State → Pred) (s : State) :
    NextWith (fun t => t.memories = s.memories) (pred2 i g d f s) := by
  simp [pred2]
@[simp] theorem execPand_memories (g : BitVec 4) (na : Bool) (nb : Bool) (d : BitVec 4) (a : BitVec 4)
    (b : BitVec 4) (s : State) :
    NextWith (fun t => t.memories = s.memories) (execPand g na nb d a b s) := by
  simp [execPand]
@[simp] theorem execPcnt_memories (g : BitVec 4) (t : Ty) (d : BitVec 6) (a : BitVec 4) (s : State) :
    NextWith (fun t => t.memories = s.memories) (execPcnt g t d a s) := by
  simp [execPcnt]
@[simp] theorem execPor_memories (g : BitVec 4) (na : Bool) (nb : Bool) (d : BitVec 4) (a : BitVec 4) (b : BitVec 4)
    (s : State) :
    NextWith (fun t => t.memories = s.memories) (execPor g na nb d a b s) := by
  simp [execPor]
@[simp] theorem execPxor_memories (g : BitVec 4) (na : Bool) (nb : Bool) (d : BitVec 4) (a : BitVec 4)
    (b : BitVec 4) (s : State) :
    NextWith (fun t => t.memories = s.memories) (execPxor g na nb d a b s) := by
  simp [execPxor]
@[simp] theorem vec1_memories (i : Instr) (lat : ℕ) (g : BitVec 4) (t : Ty) (d : VDst) (a : Sel)
    (f : State → ℕ → ℕ × Flags) (s : State) :
    NextWith (fun t => t.memories = s.memories) (vec1 i lat g t d a f s) := by
  simp [vec1]
@[simp] theorem execVabs_memories (g : BitVec 4) (t : Ty) (sat : Bool) (d : VDst) (a : Sel) (s : State) :
    NextWith (fun t => t.memories = s.memories) (execVabs g t sat d a s) := by
  simp [execVabs]
@[simp] theorem vec2_memories (i : Instr) (lat : ℕ) (g : BitVec 4) (t : Ty) (d : VDst) (a : Sel) (b : Sel)
    (f : State → ℕ → ℕ → ℕ × Flags) (s : State) :
    NextWith (fun t => t.memories = s.memories) (vec2 i lat g t d a b f s) := by
  simp [vec2]
@[simp] theorem execVadd_memories (g : BitVec 4) (t : Ty) (rc : Rc) (sat : Bool) (d : VDst) (a : Sel) (b : Sel)
    (s : State) :
    NextWith (fun t => t.memories = s.memories) (execVadd g t rc sat d a b s) := by
  simp [execVadd]
@[simp] theorem vecBits_memories (i : Instr) (lat : ℕ) (g : BitVec 4) (d : VDst) (f : State → Vec) (s : State) :
    NextWith (fun t => t.memories = s.memories) (vecBits i lat g d f s) := by
  simp [vecBits]
@[simp] theorem execVand_memories (g : BitVec 4) (t : Ty) (d : VDst) (a : Sel) (b : Sel) (s : State) :
    NextWith (fun t => t.memories = s.memories) (execVand g t d a b s) := by
  simp [execVand]
@[simp] theorem execVblkmax_memories (g : BitVec 4) (t : Ty) (d : VDst) (a : Sel) (s : State) :
    NextWith (fun t => t.memories = s.memories) (execVblkmax g t d a s) := by
  simp [execVblkmax]
@[simp] theorem vec3_memories (i : Instr) (lat : ℕ) (g : BitVec 4) (t : Ty) (d : VDst) (a : Sel) (b : Sel) (c : Sel)
    (f : State → ℕ → ℕ → ℕ → ℕ × Flags) (s : State) :
    NextWith (fun t => t.memories = s.memories) (vec3 i lat g t d a b c f s) := by
  simp [vec3]
@[simp] theorem execVclamp_memories (g : BitVec 4) (t : Ty) (d : VDst) (a : Sel) (b : Sel) (c : Sel) (s : State) :
    NextWith (fun t => t.memories = s.memories) (execVclamp g t d a b c s) := by
  simp [execVclamp]
@[simp] theorem execVclass_memories (g : BitVec 4) (t : Ty) (d : VDst) (a : Sel) (s : State) :
    NextWith (fun t => t.memories = s.memories) (execVclass g t d a s) := by
  simp [execVclass]
@[simp] theorem execVcmp_memories (g : BitVec 4) (t : Ty) (c : Cond) (p : BitVec 3) (a : Sel) (b : Sel) (s : State) :
    NextWith (fun t => t.memories = s.memories) (execVcmp g t c p a b s) := by
  simp [execVcmp]
@[simp] theorem execVcvt_memories (g : BitVec 4) (t : Ty) (u : Ty) (rc : Rc) (ns : Bool) (d : VDst) (a : Sel)
    (s : State) :
    NextWith (fun t => t.memories = s.memories) (execVcvt g t u rc ns d a s) := by
  simp [execVcvt]
@[simp] theorem execVdot4_memories (g : BitVec 4) (t : Ty) (rc : Rc) (d : VDst) (a : Sel) (b : Sel) (c : Sel)
    (s : State) :
    NextWith (fun t => t.memories = s.memories) (execVdot4 g t rc d a b c s) := by
  simp [execVdot4]
@[simp] theorem execVexp2_memories (g : BitVec 4) (rc : Rc) (d : VDst) (a : Sel) (s : State) :
    NextWith (fun t => t.memories = s.memories) (execVexp2 g rc d a s) := by
  simp [execVexp2]
@[simp] theorem execVfma_memories (g : BitVec 4) (t : Ty) (rc : Rc) (np : Bool) (nc : Bool) (d : VDst) (a : Sel)
    (b : Sel) (c : Sel) (s : State) :
    NextWith (fun t => t.memories = s.memories) (execVfma g t rc np nc d a b c s) := by
  simp [execVfma]
@[simp] theorem execVidx_memories (g : BitVec 4) (t : Ty) (d : VDst) (s : State) :
    NextWith (fun t => t.memories = s.memories) (execVidx g t d s) := by
  simp [execVidx]
@[simp] theorem execVld_memories (g : BitVec 4) (acq : Bool) (d : BitVec 6) (base : BitVec 6) (arr : BitVec 12)
    (off : Off) (s : State) :
    NextWith (fun t => t.memories = s.memories) (execVld g acq d base arr off s) := by
  simp [execVld]
@[simp] theorem execVldx_memories (g : BitVec 4) (t : Ty) (d : BitVec 6) (base : BitVec 6) (arr : BitVec 12)
    (xv : BitVec 6) (off : OffX) (s : State) :
    NextWith (fun t => t.memories = s.memories) (execVldx g t d base arr xv off s) := by
  simp [execVldx]
@[simp] theorem execVlog2_memories (g : BitVec 4) (rc : Rc) (d : VDst) (a : Sel) (s : State) :
    NextWith (fun t => t.memories = s.memories) (execVlog2 g rc d a s) := by
  simp [execVlog2]
@[simp] theorem execVmax_memories (g : BitVec 4) (t : Ty) (d : VDst) (a : Sel) (b : Sel) (s : State) :
    NextWith (fun t => t.memories = s.memories) (execVmax g t d a b s) := by
  simp [execVmax]
@[simp] theorem execVmin_memories (g : BitVec 4) (t : Ty) (d : VDst) (a : Sel) (b : Sel) (s : State) :
    NextWith (fun t => t.memories = s.memories) (execVmin g t d a b s) := by
  simp [execVmin]
@[simp] theorem execVmov_memories (g : BitVec 4) (t : Ty) (d : VDst) (a : Sel) (s : State) :
    NextWith (fun t => t.memories = s.memories) (execVmov g t d a s) := by
  simp [execVmov]
@[simp] theorem execVmul_memories (g : BitVec 4) (t : Ty) (rc : Rc) (sat : Bool) (d : VDst) (a : Sel) (b : Sel)
    (s : State) :
    NextWith (fun t => t.memories = s.memories) (execVmul g t rc sat d a b s) := by
  simp [execVmul]
@[simp] theorem execVmulh_memories (g : BitVec 4) (t : Ty) (d : VDst) (a : Sel) (b : Sel) (s : State) :
    NextWith (fun t => t.memories = s.memories) (execVmulh g t d a b s) := by
  simp [execVmulh]
@[simp] theorem execVor_memories (g : BitVec 4) (t : Ty) (d : VDst) (a : Sel) (b : Sel) (s : State) :
    NextWith (fun t => t.memories = s.memories) (execVor g t d a b s) := by
  simp [execVor]
@[simp] theorem execVpack_memories (g : BitVec 4) (t : Ty) (sat : Bool) (d : VDst) (a : Sel) (b : Sel) (s : State) :
    NextWith (fun t => t.memories = s.memories) (execVpack g t sat d a b s) := by
  simp [execVpack]
@[simp] theorem execVperm_memories (g : BitVec 4) (t : Ty) (d : VDst) (a : Sel) (b : Sel) (s : State) :
    NextWith (fun t => t.memories = s.memories) (execVperm g t d a b s) := by
  simp [execVperm]
@[simp] theorem execVquant_memories (g : BitVec 4) (t : Ty) (u : Ty) (rc : Rc) (ns : Bool) (d : VDst) (a : Sel)
    (b : Sel) (s : State) :
    NextWith (fun t => t.memories = s.memories) (execVquant g t u rc ns d a b s) := by
  simp [execVquant]
@[simp] theorem execVrcpe_memories (g : BitVec 4) (d : VDst) (a : Sel) (s : State) :
    NextWith (fun t => t.memories = s.memories) (execVrcpe g d a s) := by
  simp [execVrcpe]
@[simp] theorem execVredmax_memories (g : BitVec 4) (t : Ty) (d : VDst) (a : Sel) (s : State) :
    NextWith (fun t => t.memories = s.memories) (execVredmax g t d a s) := by
  simp [execVredmax]
@[simp] theorem execVredsum_memories (g : BitVec 4) (t : Ty) (rc : Rc) (w : Bool) (d : VDst) (a : Sel) (s : State) :
    NextWith (fun t => t.memories = s.memories) (execVredsum g t rc w d a s) := by
  simp [execVredsum]
@[simp] theorem execVrnd_memories (g : BitVec 4) (t : Ty) (rc : Rc) (d : VDst) (a : Sel) (s : State) :
    NextWith (fun t => t.memories = s.memories) (execVrnd g t rc d a s) := by
  simp [execVrnd]
@[simp] theorem execVrot_memories (g : BitVec 4) (t : Ty) (d : VDst) (a : Sel) (b : Sel) (s : State) :
    NextWith (fun t => t.memories = s.memories) (execVrot g t d a b s) := by
  simp [execVrot]
@[simp] theorem execVrsqe_memories (g : BitVec 4) (d : VDst) (a : Sel) (s : State) :
    NextWith (fun t => t.memories = s.memories) (execVrsqe g d a s) := by
  simp [execVrsqe]
@[simp] theorem execVscale_memories (g : BitVec 4) (u : Ty) (d : VDst) (a : Sel) (b : Sel) (s : State) :
    NextWith (fun t => t.memories = s.memories) (execVscale g u d a b s) := by
  simp [execVscale]
@[simp] theorem execVsel_memories (g : BitVec 4) (t : Ty) (d : VDst) (c : BitVec 4) (a : Sel) (b : Sel) (s : State) :
    NextWith (fun t => t.memories = s.memories) (execVsel g t d c a b s) := by
  simp [execVsel]
@[simp] theorem execVshl_memories (g : BitVec 4) (t : Ty) (d : VDst) (a : Sel) (b : Sel) (s : State) :
    NextWith (fun t => t.memories = s.memories) (execVshl g t d a b s) := by
  simp [execVshl]
@[simp] theorem execVshr_memories (g : BitVec 4) (t : Ty) (d : VDst) (a : Sel) (b : Sel) (s : State) :
    NextWith (fun t => t.memories = s.memories) (execVshr g t d a b s) := by
  simp [execVshr]
@[simp] theorem storeRuns_canonical (s : State) (rel : Bool) (v : Vec) (l : List (ℕ × ℕ × ℕ))
    (hs : Canonical s.memories) :
    Canonical (storeRuns s rel v l).memories := by
  unfold storeRuns
  refine foldl_canonical _ (fun a x h => ?_) _ _ (by simp [hs])
  simp [h]
@[simp] theorem execVst_canonical (g : BitVec 4) (rel : Bool) (d : Sel) (base : BitVec 6) (off : Off) (s : State)
    (hs : Canonical s.memories) :
    NextWith (fun t => Canonical t.memories) (execVst g rel d base off s) := by
  exact issueOp_canonical _ _ _ _ (fun u hu => storeRuns_canonical _ _ _ _ hu) hs
@[simp] theorem execVstx_canonical (g : BitVec 4) (t : Ty) (d : Sel) (base : BitVec 6) (xv : BitVec 6) (off : OffX)
    (s : State) (hs : Canonical s.memories) :
    NextWith (fun t => Canonical t.memories) (execVstx g t d base xv off s) := by
  exact issueOp_canonical _ _ _ _ (fun u hu => storeRuns_canonical _ _ _ _ hu) hs
@[simp] theorem execVsub_memories (g : BitVec 4) (t : Ty) (rc : Rc) (sat : Bool) (d : VDst) (a : Sel) (b : Sel)
    (s : State) :
    NextWith (fun t => t.memories = s.memories) (execVsub g t rc sat d a b s) := by
  simp [execVsub]
@[simp] theorem execVtopk_memories (g : BitVec 4) (t : Ty) (k : BitVec 7) (init : Bool) (d : BitVec 6)
    (c : BitVec 4) (a : Sel) (b : Sel) (s : State) :
    NextWith (fun t => t.memories = s.memories) (execVtopk g t k init d c a b s) := by
  simp [execVtopk]
@[simp] theorem execVunpack_memories (g : BitVec 4) (t : Ty) (hi : Bool) (d : VDst) (a : Sel) (s : State) :
    NextWith (fun t => t.memories = s.memories) (execVunpack g t hi d a s) := by
  simp [execVunpack]
@[simp] theorem execVxor_memories (g : BitVec 4) (t : Ty) (d : VDst) (a : Sel) (b : Sel) (s : State) :
    NextWith (fun t => t.memories = s.memories) (execVxor g t d a b s) := by
  simp [execVxor]
@[simp] theorem State.landTile_memories (s : State) (lat : ℕ) (d : BitVec 6) (r : Vec × Flags) :
    (State.landTile s lat d r).memories = s.memories := by
  simp [State.landTile]
@[simp] theorem execTcvt_memories (g : BitVec 4) (t : Ty) (u : Ty) (rc : Rc) (ns : Bool) (d : BitVec 3)
    (src : BitVec 3) (s : State) :
    NextWith (fun t => t.memories = s.memories) (execTcvt g t u rc ns d src s) := by
  simp [execTcvt]
@[simp] theorem execTexp_memories (g : BitVec 4) (t : Ty) (rc : Rc) (d : BitVec 3) (src : BitVec 3) (b : BitVec 6)
    (s : State) :
    NextWith (fun t => t.memories = s.memories) (execTexp g t rc d src b s) := by
  simp [execTexp]
@[simp] theorem execTld_memories (g : BitVec 4) (d : BitVec 3) (a : BitVec 6) (b : Sel) (s : State) :
    NextWith (fun t => t.memories = s.memories) (execTld g d a b s) := by
  simp [execTld]
@[simp] theorem execTmask_memories (g : BitVec 4) (t : Ty) (mode : BitVec 2) (d : BitVec 3) (a : Sel) (b : Sel)
    (c : Sel) (s : State) :
    NextWith (fun t => t.memories = s.memories) (execTmask g t mode d a b c s) := by
  simp [execTmask]
@[simp] theorem execTrd_memories (g : BitVec 4) (t : BitVec 3) (d : BitVec 6) (b : Sel) (s : State) :
    NextWith (fun t => t.memories = s.memories) (execTrd g t d b s) := by
  simp [execTrd]
@[simp] theorem execTrmax_memories (g : BitVec 4) (t : Ty) (src : BitVec 3) (d : BitVec 6) (s : State) :
    NextWith (fun t => t.memories = s.memories) (execTrmax g t src d s) := by
  simp [execTrmax]
@[simp] theorem execTrscl_memories (g : BitVec 4) (t : Ty) (rc : Rc) (d : BitVec 3) (src : BitVec 3) (b : BitVec 6)
    (s : State) :
    NextWith (fun t => t.memories = s.memories) (execTrscl g t rc d src b s) := by
  simp [execTrscl]
@[simp] theorem execTrsum_memories (g : BitVec 4) (t : Ty) (rc : Rc) (src : BitVec 3) (d : BitVec 6) (s : State) :
    NextWith (fun t => t.memories = s.memories) (execTrsum g t rc src d s) := by
  simp [execTrsum]
@[simp] theorem execTst_memories (g : BitVec 4) (d : BitVec 3) (a : BitVec 6) (b : Sel) (s : State) :
    NextWith (fun t => t.memories = s.memories) (execTst g d a b s) := by
  simp [execTst]
@[simp] theorem execTtr_memories (g : BitVec 4) (t : Ty) (d : BitVec 3) (src : BitVec 3) (s : State) :
    NextWith (fun t => t.memories = s.memories) (execTtr g t d src s) := by
  simp [execTtr]
@[simp] theorem execTwait_memories (g : BitVec 4) (tm : BitVec 8) (am : BitVec 16) (s : State) :
    NextWith (fun t => t.memories = s.memories) (execTwait g tm am s) := by
  simp [execTwait]
@[simp] theorem execTwr_memories (g : BitVec 4) (d : BitVec 3) (a : BitVec 6) (b : Sel) (s : State) :
    NextWith (fun t => t.memories = s.memories) (execTwr g d a b s) := by
  simp [execTwr]
@[simp] theorem execTzero_memories (g : BitVec 4) (d : BitVec 3) (s : State) :
    NextWith (fun t => t.memories = s.memories) (execTzero g d s) := by
  simp [execTzero]
@[simp] theorem execAccbias_memories (g : BitVec 4) (n : BitVec 4) (a : BitVec 6) (b : Sel) (s : State) :
    NextWith (fun t => t.memories = s.memories) (execAccbias g n a b s) := by
  simp [execAccbias]
@[simp] theorem execAccdef_memories (g : BitVec 4) (i32 : Bool) (n : BitVec 4) (a : Sel) (b : Sel) (c : Sel)
    (s : State) :
    NextWith (fun t => t.memories = s.memories) (execAccdef g i32 n a b c s) := by
  simp [execAccdef]
@[simp] theorem execAccld_memories (g : BitVec 4) (t : Ty) (n : BitVec 4) (a : Sel) (b : Sel) (s : State) :
    NextWith (fun t => t.memories = s.memories) (execAccld g t n a b s) := by
  simp [execAccld]
@[simp] theorem execAccmv_memories (g : BitVec 4) (t : Ty) (dir : Bool) (rc : Rc) (ns : Bool) (n : BitVec 4)
    (d : BitVec 3) (a : Sel) (b : Sel) (s : State) :
    NextWith (fun t => t.memories = s.memories) (execAccmv g t dir rc ns n d a b s) := by
  simp [execAccmv]
@[simp] theorem execAccscl_memories (g : BitVec 4) (n : BitVec 4) (a : BitVec 6) (b : Sel) (s : State) :
    NextWith (fun t => t.memories = s.memories) (execAccscl g n a b s) := by
  simp [execAccscl]
@[simp] theorem execAccst_memories (g : BitVec 4) (t : Ty) (rc : Rc) (ns : Bool) (n : BitVec 4) (a : Sel) (b : Sel)
    (s : State) :
    NextWith (fun t => t.memories = s.memories) (execAccst g t rc ns n a b s) := by
  simp [execAccst]
@[simp] theorem execAccz_memories (g : BitVec 4) (n : BitVec 4) (s : State) :
    NextWith (fun t => t.memories = s.memories) (execAccz g n s) := by
  simp [execAccz]
@[simp] theorem execMma_memories (g : BitVec 4) (f : MFmt) (acc : BitVec 4) (a : MOp) (b : MOp) (m8 : BitVec 8)
    (n16 : BitVec 8) (k16 : BitVec 12) (pa : Bool) (pb : Bool) (z : Bool) (s : State) :
    NextWith (fun t => t.memories = s.memories) (execMma g f acc a b m8 n16 k16 pa pb z s) := by
  simp [execMma]
@[simp] theorem execMmag_memories (g : BitVec 4) (f : MFmt) (acc : BitVec 4) (a : MOp) (b : MOp) (m8 : BitVec 8)
    (n16 : BitVec 8) (k16 : BitVec 12) (pa : Bool) (pb : Bool) (z : Bool) (s : State) :
    NextWith (fun t => t.memories = s.memories) (execMmag g f acc a b m8 n16 k16 pa pb z s) := by
  simp [execMmag]
@[simp] theorem execRingq_memories (g : BitVec 4) (r : BitVec 4) (d : BitVec 6) (s : State) :
    NextWith (fun t => t.memories = s.memories) (execRingq g r d s) := by
  simp [execRingq]
@[simp] theorem execRingset_memories (g : BitVec 4) (r : BitVec 4) (a : Sel) (b : Sel) (c : Sel) (s : State) :
    NextWith (fun t => t.memories = s.memories) (execRingset g r a b c s) := by
  simp [execRingset]
@[simp] theorem State.eachCore_memories (s : State) (f : State → ℕ → State)
    (h_f : ∀ z0 z1, (f z0 z1).memories = z0.memories) :
    (State.eachCore s f).memories = s.memories := by
  simp [State.eachCore, h_f]
@[simp] theorem State.eachCore_canonical (s : State) (f : State → ℕ → State)
    (h_f : ∀ z0 z1, Canonical z0.memories → Canonical (f z0 z1).memories) (hs : Canonical s.memories) :
    Canonical (State.eachCore s f).memories := by
  exact foldl_canonical _ (fun a x h => h_f _ _ h) _ _ hs
@[simp] theorem State.findRun_memories (s : State) (f : ℕ) (tier : ℕ) (k : ℕ) (n : ℕ) :
    (State.findRun s f tier k n).1.memories = s.memories := by
  simp only [State.findRun]
  split <;> simp
@[simp] theorem State.findRuns_memories (s : State) (f : ℕ) (tier : ℕ) (n : ℕ) (cores : List ℕ) :
    (State.findRuns s f tier n cores).1.memories = s.memories := by
  unfold State.findRuns
  refine (foldl_memories_fst _ (fun a x => ?_) _ _).trans rfl
  split <;> simp
@[simp] theorem State.landRent_memories (s : State) (lat : ℕ) (d : BitVec 6) (p : BitVec 3) (st : Status) (v : ℕ) :
    (State.landRent s lat d p st v).memories = s.memories := by
  simp [State.landRent]
@[simp] theorem State.newBase_memories (s : State) (l : ℕ) (tier : ℕ) (n : ℕ) (dpa : ℕ) :
    (State.newBase s l tier n dpa).1.memories = s.memories := by
  simp [State.newBase]
@[simp] theorem State.pay_memories (s : State) (l : ℕ) (c : ℕ) :
    (State.pay s l c).memories = s.memories := by
  simp [State.pay]
@[simp] theorem State.withOwn_memories (s : State) (a : Sel) (go : Region → State)
    (h_go : ∀ z0, (go z0).memories = s.memories) :
    (State.withOwn s a go).memories = s.memories := by
  unfold State.withOwn
  split <;> simp [h_go]
@[simp] theorem State.withOwn_canonical (s : State) (a : Sel) (go : Region → State)
    (h_go : ∀ z0, Canonical s.memories → Canonical (go z0).memories) (hs : Canonical s.memories) :
    Canonical (State.withOwn s a go).memories := by
  unfold State.withOwn
  split
  · exact h_go _ hs
  · exact hs
@[simp] theorem breakCells_memories (s : State) (r : Region) (b : ℕ) (n : ℕ) :
    (breakCells s r b n).memories = s.memories := by
  simp [breakCells]
@[simp] theorem breakWatches_memories (s : State) (sees : ℕ → Bool) (b : ℕ) (n : ℕ) :
    (breakWatches s sees b n).memories = s.memories := by
  simp [breakWatches]
@[simp] theorem truncOp_canonical (k : ℕ) (j : ℕ) (b : ℕ) (n : ℕ) (s : State) (o : QOp) (hs : Canonical s.memories) :
    Canonical (truncOp k j b n s o).memories := by
  simp [truncOp, hs]
@[simp] theorem truncOps_canonical (s : State) (r : Region) (b : ℕ) (n : ℕ) (hs : Canonical s.memories) :
    Canonical (truncOps s r b n).memories := by
  unfold truncOps
  repeat' (first | (simp [*]; done) | (refine foldl_canonical _ (fun a x h => ?_) _ _ ?_) | dsimp only | split)
@[simp] theorem truncCmds_memories (s : State) (r : Region) (b : ℕ) (n : ℕ) :
    (truncCmds s r b n).memories = s.memories := by
  refine State.eachCore_memories _ _ (fun s k => foldl_memories _ (fun s ch => foldl_memories _ (fun s c => ?_) _ _) _ _)
  repeat' split
  all_goals simp
@[simp] theorem endRange_canonical (s : State) (r : Region) (b : ℕ) (n : ℕ) (hs : Canonical s.memories) :
    Canonical (endRange s r b n).memories := by
  simp [endRange, hs]
@[simp] theorem scrubPieces_canonical (s : State) (tier : ℕ) (ps : List (ℕ × ℕ)) (hs : Canonical s.memories) :
    Canonical (scrubPieces s tier ps).memories := by
  refine foldl_canonical _ (fun a x h => ?_) ps { s with
    scrubs := s.scrubs.filter (fun a => !(granulesOf tier ps).contains a) ++ granulesOf tier ps } hs
  exact State.scrub_canonical _ _ _ h
@[simp] theorem settleHeld_canonical (s : State) (ds : List (ℕ × ℕ)) (keep : Bool) (hs : Canonical s.memories) :
    Canonical (settleHeld s ds keep).memories := by
  unfold settleHeld
  refine foldl_canonical _ (fun a x h => ?_) _ _ hs
  extract_lets y now u
  have hu : Canonical u.memories := by
    refine canonical_of_ite ?_ h
    exact foldl_canonical _ (fun a x h => applyPiece_canonical _ _ _ _ _ h) _ _ h
  refine canonical_of_ite hu ?_
  rw [State.updCtx_memories]
  exact hu
@[simp] theorem endRegion_canonical (s : State) (r : Region) (hs : Canonical s.memories) :
    Canonical (endRegion s r).memories := by
  have h := scrubPieces_canonical (settleHeld (endRange s r r.base r.len) r.pieces false) r.tier r.pieces (by simp [hs])
  exact h
@[simp] theorem endSublet_canonical (s : State) (r : Region) (u : Sublet) (hs : Canonical s.memories) :
    Canonical (endSublet s r u).memories := by
  simp [endSublet, hs]
@[simp] theorem freshFor_memories (s : State) (l : ℕ) (r : ℕ) :
    (freshFor s l r).memories = s.memories := by
  simp [freshFor]
@[simp] theorem passRegion_canonical (s : State) (r : Region) (l : Launch) (hs : Canonical s.memories) :
    Canonical (passRegion s r l).memories := by
  have h := foldl_canonical (fun s u => endSublet s r u) (fun a x h => endSublet_canonical _ _ _ h) r.subs s hs
  have h2 := settleHeld_canonical (endRange (r.subs.foldl (fun s u => endSublet s r u) s) r r.base r.len) r.pieces true (endRange_canonical _ _ _ _ h)
  unfold passRegion
  dsimp only
  rw [freshFor_memories, State.memories_mk, State.updRegion_mem, State.updRegion_hostMem]
  exact h2
@[simp] theorem waitHandover_memories (s : State) (r : Region) (w : Word) (a : Word) (d : BitVec 6) (p : BitVec 3) :
    (waitHandover s r w a d p).memories = s.memories := by
  unfold waitHandover
  dsimp only
  split <;> simp
@[simp] theorem endHandover_canonical (s : State) (k : ℕ) (j : ℕ) (h : Held) (r : ℕ) (w : Word) (a : Word) (d : ℕ)
    (pos : ℕ) (neg : ℕ) (hs : Canonical s.memories) :
    Canonical (endHandover s k j h r w a d pos neg).memories := by
  unfold endHandover
  dsimp only
  repeat' split
  all_goals simp [hs, passRegion_canonical]
@[simp] theorem endHandovers_canonical (s : State) (hs : Canonical s.memories) :
    Canonical (endHandovers s).memories := by
  unfold endHandovers
  refine foldl_canonical _ (fun a x h => ?_) _ _ hs
  refine canonical_of_ite h (foldl_canonical _ (fun b y hb => ?_) _ _ h)
  dsimp only
  split
  · exact hb
  · split
    · split
      · exact endHandover_canonical _ _ _ _ _ _ _ _ _ _ hb
      · exact hb
    · exact hb
@[simp] theorem execHandover_canonical (g : BitVec 4) (d : BitVec 6) (p : BitVec 3) (a : Sel) (b : Sel) (s : State)
    (hs : Canonical s.memories) :
    NextWith (fun t => Canonical t.memories) (execHandover g d p a b s) := by
  refine issueOp_canonical _ _ _ _ (fun u hu => State.withOwn_canonical _ _ _ (fun r _ => ?_) hu) hs
  split <;> simp [hu, passRegion_canonical]
@[simp] theorem execLease_memories (g : BitVec 4) (d : BitVec 6) (a : Sel) (s : State) :
    NextWith (fun t => t.memories = s.memories) (execLease g d a s) := by
  simp [execLease]
@[simp] theorem prepayEffect_memories (s : State) (r : Region) (margin : ℕ) (step : ℕ) (ceiling : ℕ) :
    (prepayEffect s r margin step ceiling).1.memories = s.memories := by
  simp [prepayEffect]
@[simp] theorem execPrepay_memories (g : BitVec 4) (d : BitVec 6) (p : BitVec 3) (a : Sel) (b : Sel) (c : Sel)
    (s : State) :
    NextWith (fun t => t.memories = s.memories) (execPrepay g d p a b c s) := by
  simp [execPrepay]
@[simp] theorem rentLow_memories (s : State) (r : Region) :
    (rentLow s r).memories = s.memories := by
  simp only [rentLow]
  split <;> simp
@[simp] theorem execPrepayRenewal_memories (region : ℕ) (s : State) :
    NextWith (fun t => t.memories = s.memories) (execPrepayRenewal region s) := by
  unfold execPrepayRenewal
  repeat' split
  all_goals simp
@[simp] theorem renewEffect_memories (s : State) (r : Region) (ticks : ℕ) :
    (renewEffect s r ticks).1.memories = s.memories := by
  simp [renewEffect]
@[simp] theorem execRenew_memories (g : BitVec 4) (d : BitVec 6) (p : BitVec 3) (a : Sel) (b : Sel) (s : State) :
    NextWith (fun t => t.memories = s.memories) (execRenew g d p a b s) := by
  simp [execRenew]
@[simp] theorem rentRuns_memories (s : State) (f : ℕ) (tier : ℕ) (n : ℕ) (home : ℕ) (spread : ℕ) :
    (rentRuns s f tier n home spread).1.memories = s.memories := by
  simp [rentRuns]
@[simp] theorem rentEffect_memories (s : State) (tier : ℕ) (kind : ℕ) (ls : Bool) (rlt : Bool) (spread : ℕ)
    (bytes : ℕ) (ticks : ℕ) (c : Word) :
    (rentEffect s tier kind ls rlt spread bytes ticks c).1.memories = s.memories := by
  unfold rentEffect
  dsimp only
  split
  · rfl
  · split
    · rfl
    · split
      · rfl
      · split
        · rfl
        · split
          · rfl
          · rename_i t runs h
            have hr := congrArg (fun x => x.1.memories) h
            simp only [rentRuns_memories] at hr
            rw [State.pay_memories, State.memories_mk, State.memories_eta, State.newBase_memories]
            exact hr.symm
@[simp] theorem execRent_memories (g : BitVec 4) (tier : BitVec 2) (kind : BitVec 2) (ls : Bool) (rlt : Bool)
    (spread : BitVec 2) (d : BitVec 6) (p : BitVec 3) (a : Sel) (b : Sel) (c : Sel) (s : State) :
    NextWith (fun t => t.memories = s.memories) (execRent g tier kind ls rlt spread d p a b c s) := by
  simp [execRent]
@[simp] theorem execRentLowEvent_memories (region : ℕ) (s : State) :
    NextWith (fun t => t.memories = s.memories) (execRentLowEvent region s) := by
  unfold execRentLowEvent
  split <;> simp
@[simp] theorem takeRentLow_memories (s : State) (k : ℕ) (j : ℕ) (partner : Bool) :
    (takeRentLow s k j partner).memories = s.memories := by
  simp only [takeRentLow]
  split <;> simp
@[simp] theorem execRentLowTrap_memories (core : ℕ) (slot : ℕ) (s : State) :
    NextWith (fun t => t.memories = s.memories) (execRentLowTrap core slot s) := by
  simp [execRentLowTrap]
@[simp] theorem execScrubComplete_memories (granule : ℕ) (s : State) :
    NextWith (fun t => t.memories = s.memories) (execScrubComplete granule s) := by
  simp [execScrubComplete]
@[simp] theorem execSublet_memories (g : BitVec 4) (l : Bool) (gr : BitVec 6) (d : BitVec 6) (p : BitVec 3)
    (a : Sel) (b : Sel) (c : Sel) (s : State) :
    NextWith (fun t => t.memories = s.memories) (execSublet g l gr d p a b c s) := by
  refine issueOp_memories _ _ _ _ (fun u => State.withOwn_memories _ _ _ (fun r => ?_))
  dsimp only
  split <;> simp
@[simp] theorem execVacate_canonical (g : BitVec 4) (subs : Bool) (d : BitVec 6) (a : Sel) (s : State)
    (hs : Canonical s.memories) :
    NextWith (fun t => Canonical t.memories) (execVacate g subs d a s) := by
  refine issueOp_canonical _ _ _ _ (fun u hu => State.withOwn_canonical _ _ _ (fun r _ => ?_) hu) hs
  split
  · simpa using foldl_canonical _ (fun a x h => endSublet_canonical _ _ _ h) _ _ hu
  · simpa using endRegion_canonical u r hu
@[simp] theorem grantSublet_memories (s : State) (region : ℕ) (base : ℕ) (len : ℕ) (until_ : ℕ) (grantee : ℕ)
    (toLaunch : Bool) :
    (grantSublet s region base len until_ grantee toLaunch).memories = s.memories := by
  unfold grantSublet
  split <;> simp
@[simp] theorem State.setOp_memories (s : State) (k : ℕ) (j : ℕ) (o : QOp) :
    (State.setOp s k j o).memories = s.memories := by
  simp [State.setOp]
@[simp] theorem freeBytes_memories (s : State) (n : ℕ) :
    (freeBytes s n).1.memories = s.memories := by
  simp [freeBytes]
@[simp] theorem engRead_memories (s : State) (k : ℕ) (j : ℕ) (swz : Bool) (a : ℕ) (n : ℕ) :
    (engRead s k j swz a n).1.memories = s.memories := by
  unfold engRead
  dsimp only
  split
  · exact (freeBytes_memories ..).trans (State.checkRead_memories ..)
  · exact (readPad_memories ..).trans (State.checkRead_memories ..)
@[simp] theorem engBytes_memories (s : State) (k : ℕ) (j : ℕ) (swz : Bool) (a : ℕ) (n : ℕ) :
    (engBytes s k j swz a n).1.memories = s.memories := by
  simp [engBytes]
@[simp] theorem accRow_memories (s : State) (k : ℕ) (j : ℕ) (b : AccBind) (i : ℕ) (c : ℕ) (n : ℕ) :
    (accRow s k j b i c n).1.memories = s.memories := by
  simp [accRow]
@[simp] theorem accRows_memories (s : State) (k : ℕ) (j : ℕ) (b : AccBind) (rows : List ℕ) (c : ℕ) (n : ℕ)
    (f : ℕ → List ℕ → List ℕ) :
    (accRows s k j b rows c n f).1.memories = s.memories := by
  simp [accRows]
@[simp] theorem rowLoad_memories (s : State) (k : ℕ) (j : ℕ) (inst : ℕ) (p : Acc) (swz : Bool) (a : ℕ) (n : ℕ) :
    (rowLoad s k j inst p swz a n).1.memories = s.memories := by
  unfold rowLoad
  refine (foldl_memories_fst _ (fun a x => ?_) _ _).trans rfl
  split
  · rfl
  · exact (engRead_memories ..).trans ((firstTouch_memories ..).trans (fillTlb_memories ..))
@[simp] theorem startTld_memories (s : State) (k : ℕ) (j : ℕ) (o : QOp) (d : ℕ) (lo : ℕ) (hi : ℕ) :
    (startTld s k j o d lo hi).1.memories = s.memories := by
  unfold startTld
  refine (foldl_memories_fst _ (fun a x => ?_) _ _).trans rfl
  dsimp only
  split <;> simp
@[simp] theorem rowStore_memories (s : State) (k : ℕ) (j : ℕ) (p : Acc) (swz : Bool) (a : ℕ) (bs : List Byte) :
    (rowStore s k j p swz a bs).1.memories = s.memories := by
  unfold rowStore
  refine (foldl_memories_fst _ (fun a x => ?_) _ _).trans rfl
  split <;> simp
@[simp] theorem startTst_memories (s : State) (k : ℕ) (j : ℕ) (o : QOp) (d : ℕ) (lo : ℕ) (hi : ℕ) :
    (startTst s k j o d lo hi).1.memories = s.memories := by
  unfold startTst
  refine (foldl_memories_fst _ (fun a x => ?_) _ _).trans rfl
  dsimp only
  split <;> simp
@[simp] theorem startAccld_memories (s : State) (k : ℕ) (j : ℕ) (o : QOp) (b : AccBind) (lo : ℕ) (hi : ℕ) :
    (startAccld s k j o b lo hi).1.memories = s.memories := by
  unfold startAccld
  refine (foldl_memories_fst _ (fun a x => ?_) _ _).trans rfl
  dsimp only
  split <;> simp
@[simp] theorem slotOp_memories (s : State) (own : ℕ) (j : ℕ) (fmts : Tbl Word) (f : MFmt) (a : ℕ) (rows : ℕ) (k : ℕ) :
    (slotOp s own j fmts f a rows k).1.memories = s.memories := by
  unfold slotOp
  dsimp only
  split
  · simp
  · rw [foldl_memories_fst]
    · simp
    · intro a x
      split <;> simp
@[simp] theorem readOperand_memories (s : State) (j : ℕ) (k : ℕ) (inst : ℕ) (fmts : Tbl Word) (f : MFmt) (x : MOp)
    (slot : Option (ℕ × ℕ)) (rows : ℕ) (kd : ℕ) :
    (readOperand s j k inst fmts f x slot rows kd).1.memories = s.memories := by
  unfold readOperand
  split <;> simp
@[simp] theorem takeSlot_memories (s : State) (k : ℕ) (o : QOp) (mmag : Bool) (isB : Bool) (x : MOp) (pop : Bool) :
    (takeSlot s k o mmag isB x pop).1.memories = s.memories := by
  simp [takeSlot]
  repeat' split
  all_goals simp
@[simp] theorem startMma_memories (s : State) (k : ℕ) (j : ℕ) (o : QOp) (mmag : Bool) (f : MFmt) (a : MOp) (b : MOp)
    (m : ℕ) (n : ℕ) (kd : ℕ) (pa : Bool) (pb : Bool) (z : Bool) :
    (startMma s k j o mmag f a b m n kd pa pb z).1.memories = s.memories := by
  simp [startMma]
  repeat' split
  all_goals simp
@[simp] theorem startAccst_memories (s : State) (k : ℕ) (j : ℕ) (o : QOp) (b : AccBind) (t : Ty) (rc : Rc) (ns : Bool)
    (lo : ℕ) (hi : ℕ) :
    (startAccst s k j o b t rc ns lo hi).1.memories = s.memories := by
  unfold startAccst
  refine (foldl_memories_fst _ (fun a x => ?_) _ _).trans rfl
  dsimp only
  split <;> simp
@[simp] theorem startAccbias_memories (s : State) (k : ℕ) (j : ℕ) (o : QOp) (b : AccBind) :
    (startAccbias s k j o b).1.memories = s.memories := by
  simp [startAccbias]
@[simp] theorem startAccmvIn_memories (s : State) (k : ℕ) (j : ℕ) (o : QOp) (b : AccBind) (t : Ty) (d : ℕ) :
    (startAccmvIn s k j o b t d).1.memories = s.memories := by
  simp [startAccmvIn]
@[simp] theorem onBind_memories (s : State) (o : QOp) (f : AccBind → State × List QWrite)
    (h_f : ∀ z0, (f z0).1.memories = s.memories) :
    (onBind s o f).1.memories = s.memories := by
  unfold onBind
  split <;> simp [h_f]
@[simp] theorem onBind_canonical (s : State) (o : QOp) (f : AccBind → State × List QWrite)
    (h_f : ∀ z0, Canonical s.memories → Canonical (f z0).1.memories) (hs : Canonical s.memories) :
    Canonical (onBind s o f).1.memories := by
  unfold onBind
  repeat' split
  all_goals simp [hs, h_f]
@[simp] theorem startAccmvOut_memories (s : State) (k : ℕ) (j : ℕ) (o : QOp) (t : Ty) (rc : Rc) (ns : Bool) (d : ℕ) :
    (startAccmvOut s k j o t rc ns d).1.memories = s.memories := by
  unfold startAccmvOut
  split <;> simp
@[simp] theorem startAccscl_memories (s : State) (k : ℕ) (j : ℕ) (o : QOp) (b : AccBind) :
    (startAccscl s k j o b).1.memories = s.memories := by
  simp [startAccscl]
@[simp] theorem startRingset_memories (s : State) (k : ℕ) (j : ℕ) (o : QOp) (r : ℕ) :
    (startRingset s k j o r).memories = s.memories := by
  simp [startRingset]
@[simp] theorem startOp_memories (s : State) (k : ℕ) (j : ℕ) (o : QOp) (lo : ℕ) (hi : ℕ) :
    (startOp s k j o lo hi).1.memories = s.memories := by
  unfold startOp
  split <;> simp
@[simp] theorem payOp_memories (s : State) (k : ℕ) (j : ℕ) (o : QOp) (n : ℕ) :
    (payOp s k j o n).1.memories = s.memories := by
  simp [payOp]
@[simp] theorem upTo_memories (s : State) (k : ℕ) (j : ℕ) (o : QOp) (n : ℕ) :
    (upTo s k j o n).1.memories = s.memories := by
  simp [upTo]
@[simp] theorem stopOp_canonical (s : State) (k : ℕ) (j : ℕ) (o : QOp) (poison : Bool) (n : ℕ) (a : ℕ)
    (hs : Canonical s.memories) :
    Canonical (stopOp s k j o poison n a).memories := by
  simp [stopOp, hs]
@[simp] theorem beginOp_canonical (s : State) (k : ℕ) (j : ℕ) (o : QOp) (hs : Canonical s.memories) :
    Canonical (beginOp s k j o).memories := by
  unfold beginOp
  split <;> simp [hs]
@[simp] theorem execQueuedOpComplete_canonical (core : ℕ) (slot : ℕ) (op : ℕ) (s : State) (hs : Canonical s.memories) :
    NextWith (fun t => Canonical t.memories) (execQueuedOpComplete core slot op s) := by
  unfold execQueuedOpComplete
  split <;> simp [hs]
@[simp] theorem execQueuedOpStart_canonical (core : ℕ) (slot : ℕ) (op : ℕ) (s : State) (hs : Canonical s.memories) :
    NextWith (fun t => Canonical t.memories) (execQueuedOpStart core slot op s) := by
  unfold execQueuedOpStart
  split <;> simp [hs]
@[simp] theorem enqueue_memories (i : Instr) (ch : BitVec 4) (s : State) :
    (enqueue i ch s).memories = s.memories := by
  simp [enqueue]
@[simp] theorem issueX_memories (i : Instr) (ch : BitVec 4) (s : State) :
    NextWith (fun t => t.memories = s.memories) (issueX i ch s) := by
  simp [issueX]
@[simp] theorem execKvalloc_memories (g : BitVec 4) (ch : BitVec 4) (a : Sel) (b : Sel) (s : State) :
    NextWith (fun t => t.memories = s.memories) (execKvalloc g ch a b s) := by
  simp [execKvalloc]
@[simp] theorem execKvappend_memories (g : BitVec 4) (adv : Bool) (ch : BitVec 4) (a : Sel) (b : Sel) (c : Sel)
    (s : State) :
    NextWith (fun t => t.memories = s.memories) (execKvappend g adv ch a b c s) := by
  simp [execKvappend]
@[simp] theorem execKvcommit_memories (g : BitVec 4) (reject : Bool) (ch : BitVec 4) (a : Sel) (b : Sel) (s : State) :
    NextWith (fun t => t.memories = s.memories) (execKvcommit g reject ch a b s) := by
  simp [execKvcommit]
@[simp] theorem execKvfree_memories (g : BitVec 4) (ch : BitVec 4) (a : Sel) (s : State) :
    NextWith (fun t => t.memories = s.memories) (execKvfree g ch a s) := by
  simp [execKvfree]
@[simp] theorem execKvget_memories (g : BitVec 4) (ch : BitVec 4) (pace : BitVec 12) (d : XDst) (b : Sel) (c : Sel)
    (s : State) :
    NextWith (fun t => t.memories = s.memories) (execKvget g ch pace d b c s) := by
  simp [execKvget]
@[simp] theorem execKvshare_memories (g : BitVec 4) (ch : BitVec 4) (a : Sel) (b : Sel) (s : State) :
    NextWith (fun t => t.memories = s.memories) (execKvshare g ch a b s) := by
  simp [execKvshare]
@[simp] theorem execKvsum_memories (g : BitVec 4) (ch : BitVec 4) (a : Sel) (b : Sel) (c : Sel) (s : State) :
    NextWith (fun t => t.memories = s.memories) (execKvsum g ch a b c s) := by
  simp [execKvsum]
@[simp] theorem execXacc_memories (g : BitVec 4) (op : BitVec 5) (esz : BitVec 2) (ch : BitVec 4) (pace : BitVec 12)
    (a : Sel) (b : Sel) (c : Sel) (s : State) :
    NextWith (fun t => t.memories = s.memories) (execXacc g op esz ch pace a b c s) := by
  simp [execXacc]
@[simp] theorem execXcas_memories (g : BitVec 4) (esz : BitVec 2) (ch : BitVec 4) (a : Sel) (b : Sel) (c : Sel)
    (res : Word) (s : State) :
    NextWith (fun t => t.memories = s.memories) (execXcas g esz ch a b c res s) := by
  simp [execXcas]
@[simp] theorem execXcoll_memories (g : BitVec 4) (op : BitVec 5) (kind : BitVec 2) (esz : BitVec 2) (ch : BitVec 4)
    (a : Sel) (b : Sel) (c : Sel) (desc : Word) (s : State) :
    NextWith (fun t => t.memories = s.memories) (execXcoll g op kind esz ch a b c desc s) := by
  simp [execXcoll]
@[simp] theorem execXcopy_memories (g : BitVec 4) (esz : BitVec 2) (ch : BitVec 4) (pace : BitVec 12) (d : XDst)
    (b : Sel) (c : Sel) (desc : Option Word) (s : State) :
    NextWith (fun t => t.memories = s.memories) (execXcopy g esz ch pace d b c desc s) := by
  simp [execXcopy]
@[simp] theorem execXexpand_memories (g : BitVec 4) (esz : BitVec 2) (ch : BitVec 4) (pace : BitVec 12) (d : XDst)
    (b : Sel) (c : Sel) (s : State) :
    NextWith (fun t => t.memories = s.memories) (execXexpand g esz ch pace d b c s) := by
  simp [execXexpand]
@[simp] theorem execXfetch_memories (g : BitVec 4) (op : BitVec 5) (esz : BitVec 2) (ch : BitVec 4) (a : Sel)
    (b : Sel) (c : Sel) (s : State) :
    NextWith (fun t => t.memories = s.memories) (execXfetch g op esz ch a b c s) := by
  simp [execXfetch]
@[simp] theorem execXfill_memories (g : BitVec 4) (esz : BitVec 2) (ch : BitVec 4) (pace : BitVec 12) (a : Sel)
    (b : Sel) (c : Sel) (s : State) :
    NextWith (fun t => t.memories = s.memories) (execXfill g esz ch pace a b c s) := by
  simp [execXfill]
@[simp] theorem execXgather_memories (g : BitVec 4) (esz : BitVec 2) (ch : BitVec 4) (pace : BitVec 12) (d : XDst)
    (b : Sel) (vi : BitVec 6) (n1 : BitVec 5) (s : State) :
    NextWith (fun t => t.memories = s.memories) (execXgather g esz ch pace d b vi n1 s) := by
  simp [execXgather]
@[simp] theorem execXorder_memories (g : BitVec 4) (esz : BitVec 2) (ch : BitVec 4) (b : Sel) (s : State) :
    NextWith (fun t => t.memories = s.memories) (execXorder g esz ch b s) := by
  simp [execXorder]
@[simp] theorem execXscatter_memories (g : BitVec 4) (esz : BitVec 2) (ch : BitVec 4) (pace : BitVec 12) (a : Sel)
    (b : Sel) (vi : BitVec 6) (n1 : BitVec 5) (s : State) :
    NextWith (fun t => t.memories = s.memories) (execXscatter g esz ch pace a b vi n1 s) := by
  simp [execXscatter]
@[simp] theorem execXsignal_memories (g : BitVec 4) (op : BitVec 5) (ch : BitVec 4) (a : Sel) (b : Sel) (s : State) :
    NextWith (fun t => t.memories = s.memories) (execXsignal g op ch a b s) := by
  simp [execXsignal]
@[simp] theorem State.tableFull_memories (s : State) :
    (State.tableFull s).1.memories = s.memories := by
  simp [State.tableFull]
@[simp] theorem State.enter_memories (s : State) (f : ℕ) (key : ℕ) (e : KvEntry) :
    (State.enter s f key e).memories = s.memories := by
  simp [State.enter]
@[simp] theorem State.freeBlock_memories (s : State) (f : ℕ) :
    (State.freeBlock s f).1.memories = s.memories := by
  unfold State.freeBlock
  refine (foldl_memories_fst _ (fun a x => ?_) _ _).trans rfl
  split <;> simp
@[simp] theorem State.updBlock_memories (s : State) (f : ℕ) (g : ℕ) (u : Block → Block) :
    (State.updBlock s f g u).memories = s.memories := by
  simp [State.updBlock]
@[simp] theorem copyBlock_canonical (s : State) (src : ℕ) (dst : ℕ) (hs : Canonical s.memories) :
    Canonical (copyBlock s src dst).memories := by
  have h : Canonical (s.checkRead src blockBytes).memories := by simpa using hs
  unfold copyBlock
  dsimp only
  rw [foldl_memories _ (fun a x => by simp), State.addPoison_memories]
  exact ⟨Memory.foldl_write_wf _ _ _ h.1, h.2⟩
@[simp] theorem dropName_memories (s : State) (f : ℕ) (key : ℕ) :
    (dropName s f key).memories = s.memories := by
  simp [dropName]
@[simp] theorem endBlock_canonical (s : State) (f : ℕ) (g : ℕ) (hs : Canonical s.memories) :
    Canonical (endBlock s f g).memories := by
  unfold endBlock
  split
  · exact hs
  · dsimp only
    rw [State.updStore_memories]
    refine scrubPieces_canonical _ _ _ ?_
    rw [State.eachCore_memories _ _ (fun s k => foldl_memories _ (fun s ch => foldl_memories _ (fun s c => ?_) _ _) _ _)]
    · exact hs
    · split <;> simp
@[simp] theorem execLeaseExpiry_canonical (region : ℕ) (sublet : Option ℕ) (s : State) (hs : Canonical s.memories) :
    NextWith (fun t => Canonical t.memories) (execLeaseExpiry region sublet s) := by
  simp [execLeaseExpiry]
  repeat' split
  all_goals simp [hs]
@[simp] theorem freeBlockBytes_canonical (s : State) (dst : ℕ) (hs : Canonical s.memories) :
    Canonical (freeBlockBytes s dst).memories := by
  unfold freeBlockBytes
  refine foldl_canonical _ (fun a x h => ?_) _ _ (by simp [hs])
  simp [h]
@[simp] theorem newBlock_canonical (s : State) (f : ℕ) (l : ℕ) (fmt : ℕ) (until_ : ℕ) (hs : Canonical s.memories) :
    Canonical (newBlock s f l fmt until_).1.memories := by
  unfold newBlock
  dsimp only
  split
  · exact hs
  · split
    · exact hs
    · split
      · simpa using hs
      · simp [hs]
/-- What a name's entry costs the local table (R234). -/
theorem entry_memories (s : State) (c : Bool) :
    (if c then (s, false) else s.tableFull).1.memories = s.memories := by split <;> simp
@[simp] theorem kvAlloc_canonical (s : State) (f : ℕ) (l : ℕ) (name : Word) (ticks : Word) (hs : Canonical s.memories) :
    Canonical (kvAlloc s f l name ticks).1.memories := by
  unfold kvAlloc
  split
  · exact hs
  · split
    · exact hs
    · dsimp only
      split
      · exact hs
      · split
        · repeat' split
          all_goals simp [hs]
        · have h := entry_memories s (s.kvEntry f (nameKey name)).isSome
          revert h
          generalize (if (s.kvEntry f (nameKey name)).isSome = true then (s, false) else s.tableFull) = x
          intro h
          have hx : Canonical x.1.memories := h ▸ hs
          split
          · exact hx
          · dsimp only
            split
            · rw [State.enter_memories]
              exact newBlock_canonical _ _ _ _ _ hx
            · exact newBlock_canonical _ _ _ _ _ hx
@[simp] theorem kvCommit_memories (s : State) (f : ℕ) (reject : Bool) (name : Word) (k : Word) :
    (kvCommit s f reject name k).1.memories = s.memories := by
  simp [kvCommit]
@[simp] theorem markBlock_canonical (s : State) (f : ℕ) (a : ℕ) (hs : Canonical s.memories) :
    Canonical (markBlock s f a).memories := by
  simp [markBlock, hs]
@[simp] theorem payBlock_memories (s : State) (f : ℕ) (a : ℕ) :
    (payBlock s f a).1.memories = s.memories := by
  simp [payBlock]
@[simp] theorem lowerRef_canonical (s : State) (f : ℕ) (g : ℕ) (hs : Canonical s.memories) :
    Canonical (lowerRef s f g).memories := by
  unfold lowerRef
  split <;> simp [hs]
@[simp] theorem kvFree_canonical (s : State) (f : ℕ) (name : Word) (hs : Canonical s.memories) :
    Canonical (kvFree s f name).1.memories := by
  unfold kvFree
  repeat' split
  all_goals simp [hs]
@[simp] theorem remoteStatus_memories (s : State) (allowed : List Status) :
    (remoteStatus s allowed).1.memories = s.memories := by
  simp [remoteStatus]
@[simp] theorem shareHere_memories (s : State) (f : ℕ) (key : ℕ) (e : KvEntry) :
    (shareHere s f key e).1.memories = s.memories := by
  unfold shareHere
  repeat' split
  all_goals simp
@[simp] theorem kvShare_memories (s : State) (f : ℕ) (dname : Word) (sname : Word) :
    (kvShare s f dname sname).1.memories = s.memories := by
  simp [kvShare]
  split <;> simp
@[simp] theorem reportNames_memories (s : State) (g : ℕ) :
    (reportNames s g).memories = s.memories := by
  simp [reportNames]
@[simp] theorem poisonBlock_memories (s : State) (f : ℕ) (g : ℕ) (us : List ℕ) :
    (poisonBlock s f g us).memories = s.memories := by
  simp [poisonBlock]
@[simp] theorem foundPoison_memories (s : State) (f : ℕ) (g : ℕ) :
    (foundPoison s f g).memories = s.memories := by
  unfold foundPoison
  split <;> simp
@[simp] theorem blockWrites_canonical (s : State) (f : ℕ) (g : ℕ) (a : ℕ) (go : State → State)
    (h_go : ∀ z0, Canonical z0.memories → Canonical (go z0).memories) (hs : Canonical s.memories) :
    Canonical (blockWrites s f g a go).memories := by
  unfold blockWrites
  dsimp only
  split <;> simp [hs, h_go]
@[simp] theorem enterCopy_canonical (s : State) (f : ℕ) (key : ℕ) (g : ℕ) (hs : Canonical s.memories) :
    Canonical (enterCopy s f key g).memories := by
  simp [enterCopy, hs]
@[simp] theorem ownBlock_canonical (s : State) (f : ℕ) (l : ℕ) (y : Layer) (key : ℕ) (hs : Canonical s.memories) :
    Canonical (ownBlock s f l y key).1.memories := by
  unfold ownBlock
  split
  · have h := entry_memories s (s.kvEntry f key).isSome
    revert h
    generalize (if (s.kvEntry f key).isSome = true then (s, false) else s.tableFull) = x
    intro h
    have hx : Canonical x.1.memories := h ▸ hs
    dsimp only
    split
    · exact hx
    · split
      · rw [State.enter_memories]
        exact newBlock_canonical _ _ _ _ _ hx
      · exact newBlock_canonical _ _ _ _ _ hx
  · split
    · exact hs
    · split
      · have hx := newBlock_canonical s.drawFree.1 f l y.fmt (s.drawFree.1.now + 1 + s.drawFree.2.toNat % 2 ^ 40)
          (by simpa using hs)
        dsimp only
        split
        · exact hx
        · refine enterCopy_canonical _ _ _ _ ?_
          rw [payBlock_memories]
          exact blockWrites_canonical _ _ _ _ _ (fun _ h => freeBlockBytes_canonical _ _ h) hx
      · split
        · exact hs
        · split
          · exact hs
          · rename_i b _ _
            have hx := newBlock_canonical s f l b.fmt b.paid hs
            dsimp only
            split
            · exact hx
            · refine enterCopy_canonical _ _ _ _ (lowerRef_canonical _ _ _ ?_)
              rw [payBlock_memories, payBlock_memories]
              have hc := blockWrites_canonical (newBlock s f l b.fmt b.paid).1 f (newBlock s f l b.fmt b.paid).2.2
                ((newBlock s f l b.fmt b.paid).2.2 * blockBytes) _
                (fun z h => copyBlock_canonical z b.paddr ((newBlock s f l b.fmt b.paid).2.2 * blockBytes) h) hx
              refine canonical_of_ite ?_ hc
              rw [foundPoison_memories, foundPoison_memories]
              exact hc
@[simp] theorem writeToken_canonical (s : State) (f : ℕ) (y : Layer) (a : ℕ) (t : ℕ) (bs : List Byte)
    (hs : Canonical s.memories) :
    Canonical (writeToken s f y a t bs).memories := by
  unfold writeToken
  refine markBlock_canonical _ _ _ (State.writeDpa_canonical _ _ _
    (foldl_canonical _ (fun a x h => State.writeDpa_canonical _ _ _ h) _ _
    (foldl_canonical _ (fun a x h => State.writeDpa_canonical _ _ _ h) _ _ ?_)))
  simpa using hs

end Sys2Proof.Machine
end

