-- ==== Sys2Proof/Laws/KeepChannel.lean ====
section
/-!
SUPPORT. What the copy channels, the KV engine and page requests do to the two memories: one lemma per function, `_memories` where it leaves both alone
and `_canonical` where it writes one and keeps the canonical form. The lemmas stand in the order of the definitions.
-/
namespace Sys2Proof.Machine
set_option Elab.async false

@[simp] theorem touchSegs_memories (s : State) (k : ℕ) (c : Cmd) (segs : List (ℕ × Hit × ℕ)) :
    (touchSegs s k c segs).memories = s.memories := by
  simp [touchSegs]
@[simp] theorem payUnits_memories (s : State) (k : ℕ) (ch : ℕ) (c : Cmd) (us : List (ℕ × ℕ)) :
    (payUnits s k ch c us).memories = s.memories := by
  simp [payUnits]
@[simp] theorem withTokens_memories (s : State) (k : ℕ) (ch : ℕ) (c : Cmd) (us : List (ℕ × ℕ)) (go : State → State)
    (h_go : ∀ z0, (go z0).memories = z0.memories) :
    (withTokens s k ch c us go).memories = s.memories := by
  unfold withTokens
  extract_lets c' u
  have h : u.memories = s.memories := memories_of_ite rfl (payUnits_memories ..)
  split
  · refine memories_of_ite h (memories_of_ite ((h_go u).trans h) ?_)
    rw [h_go, State.updCmd_memories]
    exact h
  · exact h
@[simp] theorem withTokens_canonical (s : State) (k : ℕ) (ch : ℕ) (c : Cmd) (us : List (ℕ × ℕ)) (go : State → State)
    (h_go : ∀ z0, Canonical z0.memories → Canonical (go z0).memories) (hs : Canonical s.memories) :
    Canonical (withTokens s k ch c us go).memories := by
  unfold withTokens
  extract_lets c' u
  have h : Canonical u.memories := canonical_of_ite hs (by simpa using hs)
  split
  · exact canonical_of_ite h (canonical_of_ite (h_go u h) (h_go _ (by simpa using h)))
  · exact h
@[simp] theorem readSegs_memories (s : State) (k : ℕ) (c : Cmd) (segs : List (ℕ × Hit × ℕ)) :
    (readSegs s k c segs).1.memories = s.memories := by
  unfold readSegs
  dsimp only
  rw [foldl_memories_fst _ (fun a x => fst_memories _ ((readPad_memories ..).trans (State.checkRead_memories ..)))]
@[simp] theorem checkSegs_memories (s : State) (segs : List (ℕ × Hit × ℕ)) :
    (checkSegs s segs).memories = s.memories := by
  simp [checkSegs]
@[simp] theorem writeSegs_canonical (s : State) (k : ℕ) (ch : ℕ) (c : Cmd) (a : ℕ) (segs : List (ℕ × Hit × ℕ))
    (bs : List Byte) (hs : Canonical s.memories) :
    Canonical (writeSegs s k ch c a segs bs).memories := by
  unfold writeSegs
  refine foldl_canonical _ (fun a x h => ?_) _ _ (by simp [hs])
  simp [h]
@[simp] theorem stopCmd_memories (s : State) (k : ℕ) (ch : ℕ) (c : Cmd) (st : Status) (n : ℕ) :
    (stopCmd s k ch c st n).memories = s.memories := by
  simp [stopCmd]
@[simp] theorem settleCmd_memories (s : State) (k : ℕ) (ch : ℕ) :
    (settleCmd s k ch).memories = s.memories := by
  unfold settleCmd
  split <;> simp
@[simp] theorem execCommandCompletion_memories (core : ℕ) (ch : ℕ) (s : State) :
    NextWith (fun t => t.memories = s.memories) (execCommandCompletion core ch s) := by
  unfold execCommandCompletion
  repeat' split
  all_goals simp
@[simp] theorem State.begin_memories (s : State) (k : ℕ) (ch : ℕ) (c : Cmd) (total : ℕ) (u : (Prog → Prog)) :
    (State.begin s k ch c total u).memories = s.memories := by
  simp [State.begin]
@[simp] theorem State.atOnce_memories (s : State) (k : ℕ) (ch : ℕ) (c : Cmd) (st : Status) (n : ℕ) :
    (State.atOnce s k ch c st n).memories = s.memories := by
  simp [State.atOnce]
@[simp] theorem State.beginRing_memories (s : State) (k : ℕ) (ch : ℕ) (c : Cmd) (total : ℕ) (u : (Prog → Prog)) :
    (State.beginRing s k ch c total u).memories = s.memories := by
  unfold State.beginRing
  repeat' split
  all_goals simp
@[simp] theorem readDesc_memories (s : State) (k : ℕ) (ch : ℕ) (c : Cmd) (n : ℕ) (go : State → List Byte → State)
    (h_go : ∀ z0 z1, (go z0 z1).memories = z0.memories) :
    (readDesc s k ch c n go).memories = s.memories := by
  unfold readDesc
  split
  · split
    · simp
    · exact withTokens_memories _ _ _ _ _ _ (fun u => by simp [h_go])
  all_goals simp
@[simp] theorem startPattern_memories (s : State) (k : ℕ) (ch : ℕ) (c : Cmd) :
    (startPattern s k ch c).memories = s.memories := by
  unfold startPattern
  refine readDesc_memories _ _ _ _ _ _ (fun u bs => ?_)
  dsimp only
  split
  · simp
  · repeat' split
    all_goals simp
@[simp] theorem startColl_memories (s : State) (k : ℕ) (ch : ℕ) (c : Cmd) :
    (startColl s k ch c).memories = s.memories := by
  unfold startColl
  refine readDesc_memories _ _ _ _ _ _ (fun u bs => ?_)
  dsimp only
  split
  · simp
  · rename_i g nm rank _ _
    have h : ∀ v : State, v.memories = u.memories →
        (if numAt bs 10 1 = 5 then (sendFlits v 4 ch v.routes).1 else v).memories = u.memories := by
      intro v hv
      split <;> simp [hv]
    have h1 := fun l => h { u with colls := l } rfl
    split
    · split
      · rw [stopCmd_memories]; exact h1 _
      · split
        · rw [stopCmd_memories]; exact h1 _
        · rw [State.updCmd_memories]; exact h1 _
    · exact h1 _
@[simp] theorem State.updColl_memories (s : State) (f : ℕ) (g : ℕ) (u : Coll → Coll) :
    (State.updColl s f g u).memories = s.memories := by
  unfold State.updColl
  split <;> simp
@[simp] theorem withFar_memories (s : State) (k : ℕ) (ch : ℕ) (c : Cmd) (e : ℕ) (aside : Option (Defer × (Prog → Prog)))
    (pkgs : List ℕ) (allowed : List Status) (go : State → State) (h_go : ∀ z0, (go z0).memories = z0.memories) :
    (withFar s k ch c e aside pkgs allowed go).memories = s.memories := by
  unfold withFar
  dsimp only
  repeat' split
  all_goals simp [h_go]
@[simp] theorem withFar_canonical (s : State) (k : ℕ) (ch : ℕ) (c : Cmd) (e : ℕ) (aside : Option (Defer × (Prog → Prog)))
    (pkgs : List ℕ) (allowed : List Status) (go : State → State)
    (h_go : ∀ z0, Canonical z0.memories → Canonical (go z0).memories) (hs : Canonical s.memories) :
    Canonical (withFar s k ch c e aside pkgs allowed go).memories := by
  unfold withFar
  dsimp only
  repeat' split
  all_goals simp [h_go, hs]
@[simp] theorem askSources_memories (s : State) (cs : List (ℕ × ℕ × ℕ × Cmd)) :
    (askSources s cs).memories = s.memories := by
  simp [askSources]
@[simp] theorem gatherColl_memories (s : State) (y2 : List (ℕ × ℕ × ℕ × Cmd)) :
    (gatherColl s y2).1.memories = s.memories := by
  induction y2 generalizing s with
  | nil => rfl
  | cons x l ih =>
      unfold gatherColl
      dsimp only
      rw [ih]
      have h : ∀ segs (far : Bool), (if far then freeBytes (payUnits s x.2.1 x.2.2.1 x.2.2.2 (tierUnits segs))
            x.2.2.2.c.toNat
          else readSegs (touchSegs (payUnits s x.2.1 x.2.2.1 x.2.2.2 (tierUnits segs)) x.2.1 x.2.2.2 segs) x.2.1 x.2.2.2
            segs).1.memories = s.memories := by
        intro segs far
        split <;> simp
      exact h _ _
@[simp] theorem decideColl_memories (s : State) (y : Coll) (cs : List (ℕ × ℕ × ℕ × Cmd)) :
    (decideColl s y cs).memories = s.memories := by
  unfold decideColl
  refine memories_of_ite rfl ?_
  dsimp only
  rw [foldl_memories _ (fun a x => State.updCmd_memories ..)]
  have h : (if y.far.isEmpty = true then (s, 1) else s.choose 0).1.memories = s.memories := by split <;> simp
  generalize (if y.far.isEmpty = true then (s, 1) else s.choose 0) = r at h
  exact memories_of_ite (by simp [h]) (by simp [h])
@[simp] theorem execCollectiveForm_memories (fn : ℕ) (group : ℕ) (s : State) :
    NextWith (fun t => t.memories = s.memories) (execCollectiveForm fn group s) := by
  unfold execCollectiveForm
  rw [nextWith_next]
  split
  · rfl
  · split
    · rfl
    · dsimp only
      refine memories_of_ite (by simp) ?_
      split
      · simp
      · simp
      · simp
      · refine memories_of_ite (by simp) ?_
        have h : ∀ (b : Bool) (u : State), u.memories = s.memories →
            (if b = true then u else (sendFlits u 4 0 u.routes).1).memories = s.memories := by
          intro b u hu
          split <;> simp [hu]
        rw [foldl_memories _ (fun a x => (settleCmd_memories ..).trans (State.updCmd_memories ..)),
          State.updColl_memories]
        exact h _ _ (by simp)
@[simp] theorem fillSlot_memories (s : State) (k : ℕ) (r : ℕ) :
    (fillSlot s k r).memories = s.memories := by
  simp [fillSlot]
@[simp] theorem countSlot_memories (s : State) (k : ℕ) (r : ℕ) :
    (countSlot s k r).memories = s.memories := by
  simp [countSlot]
@[simp] theorem fillSlots_memories (s : State) (k : ℕ) (ch : ℕ) :
    (fillSlots s k ch).memories = s.memories := by
  unfold fillSlots
  repeat' split
  all_goals simp
@[simp] theorem countSlots_memories (s : State) (k : ℕ) :
    (countSlots s k).memories = s.memories := by
  simp [countSlots]
@[simp] theorem delivered_memories (s : State) (k : ℕ) (ch : ℕ) (c : Cmd) (bytes : ℕ) (f : Flags) (u : Prog → Prog) :
    (delivered s k ch c bytes f u).memories = s.memories := by
  simp [delivered]
@[simp] theorem passed_memories (s : State) (k : ℕ) (ch : ℕ) (c : Cmd) (u : Prog → Prog) :
    (passed s k ch c u).memories = s.memories := by
  simp [passed]
@[simp] theorem readScales_memories (s : State) (k : ℕ) (c : Cmd) (l : List (Option ℕ)) :
    (readScales s k c l).1.memories = s.memories := by
  unfold readScales
  dsimp only
  rw [foldl_memories_fst]
  intro a x
  cases x
  · rfl
  · exact fst_memories _ ((readPad_memories ..).trans (State.checkRead_memories ..))
@[simp] theorem deferElem_memories (s : State) (k : ℕ) (ch : ℕ) (c : Cmd) (p : Defer) (u : Prog → Prog) (f : ℕ)
    (g : ℕ) (w : Bool) :
    (deferElem s k ch c p u f g w).memories = s.memories := by
  unfold deferElem
  refine memories_of_ite rfl ?_
  dsimp only
  exact memories_of_ite (by simp) (by simp)
@[simp] theorem convElems_canonical (s : State) (k : ℕ) (ch : ℕ) (c : Cmd) (t : Ty) (l : List (ℕ × Ty)) (dd : ℕ) (da : ℕ)
    (o : ℕ) (p : Defer) (u : Prog → Prog) (hs : Canonical s.memories) :
    Canonical (convElems s k ch c t l dd da o p u).memories := by
  unfold convElems
  extract_lets sn sa dn sd dr sr
  split
  · simpa using hs
  · simpa using hs
  · exact hs
  · refine canonical_of_ite hs ?_
    extract_lets ss ds
    refine withTokens_canonical _ _ _ _ _ _ (fun u hu => ?_) hs
    refine canonical_of_ite (by simpa using hu) ?_
    dsimp only
    rw [delivered_memories]
    refine foldl_canonical _ (fun a x h => writePad_canonical _ _ _ _ _ _ _ h) _ _ (writeSegs_canonical _ _ _ _ _ _ _ ?_)
    rw [readSegs_memories, touchSegs_memories, readScales_memories]
    exact hu
@[simp] theorem passRest_memories (s : State) (k : ℕ) (ch : ℕ) :
    (passRest s k ch).memories = s.memories := by
  unfold passRest
  split
  · rfl
  · dsimp only
    split <;> simp
theorem convNext_canonical (s : State) (k ch : ℕ) (c : Cmd) (p : Defer) (hs : Canonical s.memories) {t : State}
    (ht : convNext s k ch c p = some t) : Canonical t.memories := by
  unfold convNext at ht
  obtain ⟨x, -, rfl⟩ := Option.map_eq_some_iff.mp ht
  exact convElems_canonical _ _ _ _ _ _ _ _ _ _ _ hs
theorem convPattern_canonical (s : State) (k ch : ℕ) (c : Cmd) (e : ℕ) (hs : Canonical s.memories) {t : State}
    (ht : convPattern s k ch c e = some t) : Canonical t.memories := by
  unfold convPattern at ht
  dsimp only at ht
  split at ht
  · cases ht
  · obtain ⟨x, -, rfl⟩ := Option.map_eq_some_iff.mp ht
    refine canonical_of_ite ?_ ?_
    · simpa using hs
    · exact convElems_canonical _ _ _ _ _ _ _ _ _ _ _ hs
@[simp] theorem applyElem_canonical (s : State) (k : ℕ) (ch : ℕ) (c : Cmd) (e : ℕ) (rs : List (List (ℕ × Hit × ℕ)))
    (dst : Option (ℕ × List (ℕ × Hit × ℕ))) (n : ℕ) (res : Option (ℕ × List (ℕ × Hit × ℕ)))
    (hs : Canonical s.memories) :
    Canonical (applyElem s k ch c e rs dst n res).memories := by
  have h0 : ∀ (rs : List (List (ℕ × Hit × ℕ))) (p : State × List Byte), (rs.foldl (fun (acc : State × List Byte) l =>
      ((readSegs acc.1 k c l).1, (readSegs acc.1 k c l).2)) p).1.memories = p.1.memories :=
    fun rs p => foldl_memories_fst _ (fun a x => readSegs_memories ..) _ _
  have h2 : ∀ (u : State) (l : List (ℕ × Hit × ℕ)), Canonical u.memories →
      Canonical ((if readsOld c.i then readSegs u k c l else (u, [])).1).memories := by
    intro u l hu
    split
    · rw [readSegs_memories]; exact hu
    · exact hu
  have h3 : ∀ (u : State) (o : Option (ℕ × List (ℕ × Hit × ℕ))) (bs : List Byte), Canonical u.memories →
      Canonical (match o with
        | some (a, l) => writeSegs u k ch c a l bs
        | none => u).memories := by
    intro u o bs hu
    split
    · exact writeSegs_canonical _ _ _ _ _ _ _ hu
    · exact hu
  unfold applyElem
  dsimp only
  split
  · rw [stopCmd_memories]
    refine canonical_of_ite ?_ ?_ <;> simpa using hs
  · rw [delivered_memories]
    refine h3 _ _ _ (h3 _ _ _ (h2 _ _ ?_))
    rw [h0, touchSegs_memories]
    exact hs
@[simp] theorem remoteElem_canonical (s : State) (k : ℕ) (ch : ℕ) (c : Cmd) (e : ℕ) (rs : List Reach)
    (dst : Option (ℕ × List (ℕ × Hit × ℕ))) (n : ℕ) (res : Option (ℕ × List (ℕ × Hit × ℕ))) (hs : Canonical s.memories) :
    Canonical (remoteElem s k ch c e rs dst n res).memories := by
  have h3 : ∀ (u : State) (o : Option (ℕ × List (ℕ × Hit × ℕ))) (bs : List Byte), Canonical u.memories →
      Canonical (match o with
        | some (a, l) => writeSegs u k ch c a l bs
        | none => u).memories := by
    intro u o bs hu
    split
    · exact writeSegs_canonical _ _ _ _ _ _ _ hu
    · exact hu
  unfold remoteElem
  dsimp only
  split
  · simpa using hs
  · rw [delivered_memories]
    refine h3 _ _ _ (h3 _ _ _ ?_)
    split <;> simpa using hs
@[simp] theorem dataElem_canonical (s : State) (k : ℕ) (ch : ℕ) (c : Cmd) (e : ℕ) (rds : List (ℕ × ℕ))
    (hs : Canonical s.memories) :
    Canonical (dataElem s k ch c e rds).memories := by
  unfold dataElem
  extract_lets es len ring wr rs ds old re n allR
  refine canonical_of_ite (by simpa using hs) ?_
  split
  · simpa using hs
  · simpa using hs
  · exact hs
  · refine withFar_canonical _ _ _ _ _ _ _ _ _ (fun v hv => ?_) hs
    refine canonical_of_ite hv (withTokens_canonical _ _ _ _ _ _ (fun u hu => canonical_of_ite ?_ ?_) hv)
    · exact remoteElem_canonical _ _ _ _ _ _ _ _ _ hu
    · exact applyElem_canonical _ _ _ _ _ _ _ _ _ hu
@[simp] theorem copyElem_canonical (s : State) (k : ℕ) (ch : ℕ) (e : ℕ) (hs : Canonical s.memories) :
    Canonical (copyElem s k ch e).memories := by
  have h : Canonical (passRest s k ch).memories := by simpa using hs
  unfold copyElem
  dsimp only
  split
  · exact h
  · refine canonical_of_ite h ?_
    rw [passRest_memories]
    split
    · exact convNext_canonical _ _ _ _ _ h ‹_›
    · exact dataElem_canonical _ _ _ _ _ _ h
@[simp] theorem expandWith_canonical (s : State) (k : ℕ) (ch : ℕ) (c : Cmd) (e : ℕ) (m : ℕ)
    (hs : Canonical s.memories) :
    Canonical (expandWith s k ch c e m).memories := by
  unfold expandWith
  dsimp only
  split
  · simpa using hs
  · exact dataElem_canonical _ _ _ _ _ _ (by simpa using hs)
  · exact dataElem_canonical _ _ _ _ _ _ (by simpa using hs)
@[simp] theorem expandElem_canonical (s : State) (k : ℕ) (ch : ℕ) (c : Cmd) (e : ℕ) (hs : Canonical s.memories) :
    Canonical (expandElem s k ch c e).memories := by
  unfold expandElem
  split
  · exact expandWith_canonical _ _ _ _ _ _ hs
  · dsimp only
    split
    · split
      · exact dataElem_canonical _ _ _ _ _ _ hs
      · refine withTokens_canonical _ _ _ _ _ _ (fun u hu => ?_) hs
        exact expandWith_canonical _ _ _ _ _ _ (by simpa using hu)
    · refine withFar_canonical _ _ _ _ _ _ _ _ _ (fun u hu => ?_) hs
      exact expandWith_canonical _ _ _ _ _ _ (by simpa using hu)
    · exact dataElem_canonical _ _ _ _ _ _ hs
@[simp] theorem deliver_canonical (s : State) (k : ℕ) (ch : ℕ) (c : Cmd) (e : ℕ) (n : ℕ) (us : List (ℕ × ℕ))
    (pkgs : List ℕ) (get : State → State × List Byte × List ℕ) (h_get : ∀ z0, (get z0).1.memories = z0.memories)
    (hs : Canonical s.memories) :
    Canonical (deliver s k ch c e n us pkgs get).memories := by
  unfold deliver
  dsimp only
  split
  · exact hs
  · split
    · simpa using hs
    · simpa using hs
    · exact hs
    · refine withFar_canonical _ _ _ _ _ _ _ _ _ (fun v hv => ?_) hs
      refine canonical_of_ite hv (withTokens_canonical _ _ _ _ _ _ (fun u hu => ?_) hv)
      have hg : Canonical (get u).1.memories := (h_get u).symm ▸ hu
      refine canonical_of_ite (by simpa using hg) (canonical_of_ite (by simpa using hg) ?_)
      rw [delivered_memories]
      exact writeSegs_canonical _ _ _ _ _ _ _ (by simpa using hg)
@[simp] theorem blockPart_memories (f : ℕ) (g : ℕ) (off : ℕ) (n : ℕ) (pkg : ℕ) (s : State) :
    (blockPart f g off n pkg s).1.memories = s.memories := by
  simp [blockPart]
  repeat' split
  all_goals simp
@[simp] theorem kvgetElem_canonical (s : State) (k : ℕ) (ch : ℕ) (c : Cmd) (e : ℕ) (hs : Canonical s.memories) :
    Canonical (kvgetElem s k ch c e).memories := by
  exact deliver_canonical _ _ _ _ _ _ _ _ _ (fun u => blockPart_memories ..) hs
@[simp] theorem kvsumElem_canonical (s : State) (k : ℕ) (ch : ℕ) (c : Cmd) (e : ℕ) (hs : Canonical s.memories) :
    Canonical (kvsumElem s k ch c e).memories := by
  unfold kvsumElem
  dsimp only
  split
  · simpa using hs
  · split
    · simpa using hs
    · simpa using hs
    · refine canonical_of_ite (by simpa using hs) ?_
      exact deliver_canonical _ _ _ _ _ _ _ _ _ (fun u => blockPart_memories ..)
        (canonical_of_ite (by simpa using hs) hs)
@[simp] theorem appendBlock_canonical (s : State) (c : Cmd) (y : Layer) (key : ℕ) (i : ℕ) (hs : Canonical s.memories) :
    Canonical (appendBlock s c y key i).1.memories := by
  unfold appendBlock
  dsimp only
  split
  · split
    · exact hs
    · exact ownBlock_canonical _ _ _ _ _ hs
  · exact ownBlock_canonical _ _ _ _ _ hs
@[simp] theorem appendToken_canonical (s : State) (k : ℕ) (ch : ℕ) (c : Cmd) (e : ℕ) (y : Layer) (t : ℕ) (g : ℕ)
    (r : Reach) (hs : Canonical s.memories) :
    Canonical (appendToken s k ch c e y t g r).memories := by
  unfold appendToken
  dsimp only
  refine canonical_of_ite (by simpa using hs) ?_
  split
  · simpa using hs
  · rw [delivered_memories, State.updBlock_memories]
    refine blockWrites_canonical _ _ _ _ _ (fun _ h => writeToken_canonical _ _ _ _ _ _ h) ?_
    split <;> simpa using hs
@[simp] theorem kvappendElem_canonical (s : State) (k : ℕ) (ch : ℕ) (c : Cmd) (e : ℕ) (hs : Canonical s.memories) :
    Canonical (kvappendElem s k ch c e).memories := by
  unfold kvappendElem
  dsimp only
  split
  · simpa using hs
  · refine canonical_of_ite (by simpa using hs) ?_
    split
    · simpa using hs
    · simpa using hs
    · exact hs
    · refine withFar_canonical _ _ _ _ _ _ _ _ _ (fun v hv => ?_) hs
      split
      · simpa using hv
      · have hb := fun y key i => appendBlock_canonical v c y key i hv
        refine canonical_of_ite (by simpa using hb _ _ _) ?_
        refine withTokens_canonical _ _ _ _ _ _ (fun u hu => appendToken_canonical _ _ _ _ _ _ _ _ _ hu) ?_
        simpa using hb _ _ _
@[simp] theorem collGet_memories (y : Coll) (c : Cmd) (e : ℕ) (s : State) :
    (collGet y c e s).1.memories = s.memories := by
  simp [collGet]
@[simp] theorem collElemAt_canonical (s : State) (k : ℕ) (ch : ℕ) (c : Cmd) (e : ℕ) (hs : Canonical s.memories) :
    Canonical (collElemAt s k ch c e).memories := by
  unfold collElemAt
  split
  · exact hs
  · split
    · exact hs
    · exact deliver_canonical _ _ _ _ _ _ _ _ _ (fun u => collGet_memories ..) hs
@[simp] theorem elemStep_canonical (s : State) (k : ℕ) (ch : ℕ) (c : Cmd) (e : ℕ) (hs : Canonical s.memories) :
    Canonical (elemStep s k ch c e).memories := by
  have hd : ∀ c e r, Canonical (dataElem s k ch c e r).memories := fun c e r => dataElem_canonical _ _ _ _ _ _ hs
  unfold elemStep
  extract_lets lost
  split
  · simp [hs]
  · split
    · exact hs
    · split
      · exact kvgetElem_canonical _ _ _ _ _ hs
      · exact kvsumElem_canonical _ _ _ _ _ hs
      · exact kvappendElem_canonical _ _ _ _ _ hs
      · exact collElemAt_canonical _ _ _ _ _ hs
      · exact expandElem_canonical _ _ _ _ _ hs
      · split
        · exact hs
        · exact hd _ _ _
      · exact copyElem_canonical _ _ _ _ hs
      · split
        · exact convPattern_canonical _ _ _ _ _ hs ‹_›
        · exact hd _ _ _
      · exact hd _ _ _
@[simp] theorem execCommandElement_canonical (core : ℕ) (ch : ℕ) (s : State) (hs : Canonical s.memories) :
    NextWith (fun t => Canonical t.memories) (execCommandElement core ch s) := by
  unfold execCommandElement
  repeat' split
  all_goals simp [hs]
@[simp] theorem runKv_canonical (s : State) (k : ℕ) (ch : ℕ) (c : Cmd) (hs : Canonical s.memories) :
    Canonical (runKv s k ch c).memories := by
  simp [runKv]
  repeat' split
  all_goals simp [hs]
@[simp] theorem startKv_canonical (s : State) (k : ℕ) (ch : ℕ) (c : Cmd) (hs : Canonical s.memories) :
    Canonical (startKv s k ch c).memories := by
  unfold startKv
  dsimp only
  split
  · simpa using hs
  · exact withFar_canonical _ _ _ _ _ _ _ _ _ (fun v hv => runKv_canonical _ _ _ _ hv) hs
@[simp] theorem execCommandStart_canonical (core : ℕ) (ch : ℕ) (s : State) (hs : Canonical s.memories) :
    NextWith (fun t => Canonical t.memories) (execCommandStart core ch s) := by
  unfold execCommandStart
  repeat' split
  all_goals simp [hs]
@[simp] theorem dropLeaf_memories (s : State) (f : ℕ) (gpa : ℕ) :
    (dropLeaf s f gpa).memories = s.memories := by
  simp [dropLeaf]
@[simp] theorem State.eachCtxOf_memories (s : State) (f : ℕ) (g : State → ℕ → ℕ → State)
    (h_g : ∀ z0 z1 z2, (g z0 z1 z2).memories = z0.memories) :
    (State.eachCtxOf s f g).memories = s.memories := by
  simp [State.eachCtxOf, h_g]
@[simp] theorem State.eachCtxOf_canonical (s : State) (f : ℕ) (g : State → ℕ → ℕ → State)
    (h_g : ∀ z0 z1 z2, Canonical z0.memories → Canonical (g z0 z1 z2).memories) (hs : Canonical s.memories) :
    Canonical (State.eachCtxOf s f g).memories := by
  refine foldl_canonical _ (fun a x h => ?_) _ _ hs
  split
  · exact h_g _ _ _ h
  · exact h
@[simp] theorem State.eachRunning_memories (s : State) (f : ℕ) (g : State → ℕ → ℕ → Cmd → State)
    (h_g : ∀ z0 z1 z2 z3, (g z0 z1 z2 z3).memories = z0.memories) :
    (State.eachRunning s f g).memories = s.memories := by
  unfold State.eachRunning
  refine foldl_memories _ (fun a x => ?_) _ _
  split <;> simp [h_g]
@[simp] theorem State.eachRunning_canonical (s : State) (f : ℕ) (g : State → ℕ → ℕ → Cmd → State)
    (h_g : ∀ z0 z1 z2 z3, Canonical z0.memories → Canonical (g z0 z1 z2 z3).memories) (hs : Canonical s.memories) :
    Canonical (State.eachRunning s f g).memories := by
  refine foldl_canonical _ (fun a x h => ?_) _ _ hs
  repeat' split
  · exact h_g _ _ _ _ h
  · exact h
  · exact h
@[simp] theorem dropReq_memories (s : State) (f : ℕ) (n : ℕ) :
    (dropReq s f n).memories = s.memories := by
  simp [dropReq]
@[simp] theorem State.eachQueue_memories (s : State) (f : ℕ) (g : Queue → Queue) :
    (State.eachQueue s f g).memories = s.memories := by
  simp [State.eachQueue]
@[simp] theorem State.eachAsk_memories (s : State) (f : ℕ) (g : PodWait → PodWait) :
    (State.eachAsk s f g).memories = s.memories := by
  simp [State.eachAsk]
@[simp] theorem releaseReq_memories (s : State) (f : ℕ) (n : ℕ) (ok : Bool → Bool) :
    (releaseReq s f n ok).memories = s.memories := by
  simp [releaseReq]
@[simp] theorem refuseReq_canonical (s : State) (f : ℕ) (r : PageReq) (who : Bool → Bool) (hs : Canonical s.memories) :
    Canonical (refuseReq s f r who).memories := by
  unfold refuseReq
  dsimp only
  rw [State.eachAsk_memories]
  have hq : ∀ (u : State) (g : Queue → Queue), (if who false = true then u.eachQueue f g else u).memories = u.memories :=
    fun u g => by split <;> simp
  rw [hq]
  refine foldl_canonical _ (fun a x h => foldl_canonical _ (fun b y hb => by simpa using hb) _ _ h) _ _ ?_
  refine State.eachRunning_canonical _ _ _ (fun a k ch c h => ?_)
    (State.eachCtxOf_canonical _ _ _ (fun a k j h => foldl_canonical _ (fun b y hb => ?_) _ _ ?_) hs)
  · refine canonical_of_ite h (canonical_of_ite (by simpa using h) (canonical_of_ite (by simpa using h) h))
  · split
    · refine canonical_of_ite ?_ hb
      exact stopOp_canonical _ _ _ _ _ _ _ hb
    · exact hb
  · split
    · exact canonical_of_ite (by simpa using h) h
    · exact h
@[simp] theorem repoint_memories (s : State) (f : ℕ) (n : ℕ) (m : ℕ) (who : Bool → Bool) :
    (repoint s f n m who).memories = s.memories := by
  unfold repoint
  dsimp only
  rw [State.memories_mk, State.memories_eta]
  simp
@[simp] theorem askAgain_canonical (s : State) (f : ℕ) (r : PageReq) (who : Bool → Bool) (hs : Canonical s.memories) :
    Canonical (askAgain s f r who).memories := by
  unfold askAgain
  dsimp only
  refine canonical_of_ite (refuseReq_canonical _ _ _ _ hs) ?_
  split
  · exact refuseReq_canonical _ _ _ _ hs
  · rw [State.memories_mk, State.memories_eta, State.updFn_memories, repoint_memories]
    exact hs
@[simp] theorem answerReq_canonical (s : State) (f : ℕ) (r : PageReq) (code : ℕ) (hs : Canonical s.memories) :
    Canonical (answerReq s f r code).memories := by
  unfold answerReq
  dsimp only
  refine canonical_of_ite ?_ (canonical_of_ite ?_ ?_)
  · split
    · exact refuseReq_canonical _ _ _ _ (by simpa using hs)
    · exact refuseReq_canonical _ _ _ _ (by simpa using hs)
    · refine canonical_of_ite (askAgain_canonical _ _ _ _ ?_) ?_ <;> simpa using hs
  · exact refuseReq_canonical _ _ _ _ (by simpa using hs)
  · exact refuseReq_canonical _ _ _ _ (by simpa using hs)
@[simp] theorem execPrgResponse_canonical (fn : ℕ) (group : ℕ) (code : ℕ) (s : State) (hs : Canonical s.memories) :
    NextWith (fun t => Canonical t.memories) (execPrgResponse fn group code s) := by
  unfold execPrgResponse
  repeat' split
  all_goals simp [hs]
@[simp] theorem takeAnswers_canonical (s : State) (f : ℕ) (hs : Canonical s.memories) :
    Canonical (takeAnswers s f).memories := by
  unfold takeAnswers
  refine foldl_canonical _ (fun a x h => ?_) _ _ (by simpa using hs)
  split
  · exact h
  · exact answerReq_canonical _ _ _ _ h
@[simp] theorem flushOp_canonical (k : ℕ) (j : ℕ) (s : State) (o : QOp) (hs : Canonical s.memories) :
    Canonical (flushOp k j s o).memories := by
  unfold flushOp
  refine canonical_of_ite ?_ hs
  dsimp only
  rw [State.updCtx_memories]
  exact foldl_canonical _ (fun a x h => applyQ_canonical _ _ _ _ _ _ h) _ _ hs
@[simp] theorem execInvalidationComplete_canonical (fn : ℕ) (s1 : Bool) (s : State) (hs : Canonical s.memories) :
    NextWith (fun t => Canonical t.memories) (execInvalidationComplete fn s1 s) := by
  unfold execInvalidationComplete
  rw [nextWith_next]
  refine canonical_of_ite hs ?_
  extract_lets v u w
  have hw : Canonical w.memories :=
    State.eachCtxOf_canonical _ _ _ (fun a k j h => foldl_canonical _ (fun b y hb => flushOp_canonical _ _ _ _ hb) _ _ h)
      (by simpa [u] using hs)
  exact canonical_of_ite hw (canonical_of_ite (by simpa using hw) (by simpa using hw))
@[simp] theorem execInvWrite_canonical (v : Word) (s : State) (hs : Canonical s.memories) :
    NextWith (fun t => Canonical t.memories) (execInvWrite v s) := by
  simp [execInvWrite, hs]
@[simp] theorem execPrictlWrite_canonical (v : Word) (s : State) (hs : Canonical s.memories) :
    NextWith (fun t => Canonical t.memories) (execPrictlWrite v s) := by
  simp [execPrictlWrite, hs]

end Sys2Proof.Machine
end

