-- ==== Sys2Proof/Laws/KeepEvents.lean ====
section
/-!
SUPPORT. What images, placement, turns, power, the host and the pod do to the two memories: one lemma per function, `_memories` where it leaves both alone
and `_canonical` where it writes one and keeps the canonical form. The lemmas stand in the order of the definitions.
-/
namespace Sys2Proof.Machine
set_option Elab.async false

@[simp] theorem coalTest_memories (s : State) (f : ℕ) :
    (coalTest s f).memories = s.memories := by
  simp [coalTest]
@[simp] theorem execCoalDelayExpiry_memories (fn : ℕ) (s : State) :
    NextWith (fun t => t.memories = s.memories) (execCoalDelayExpiry fn s) := by
  simp [execCoalDelayExpiry]
@[simp] theorem writeRecord_canonical (s : State) (l : Launch) (st : ℕ) (hs : Canonical s.memories) :
    Canonical (writeRecord s l st).memories := by
  unfold writeRecord
  dsimp only
  split
  · exact hs
  · simp only [coalTest_memories, raiseCause_memories, State.updFn_memories]
    exact ⟨hs.1, Memory.writeBytes_wf _ _ hs.2⟩
@[simp] theorem State.updQueue_memories (s : State) (f : ℕ) (q : ℕ) (g : Queue → Queue) :
    (State.updQueue s f q g).memories = s.memories := by
  simp [State.updQueue]
@[simp] theorem execDoorbell_memories (fn : ℕ) (queue : ℕ) (wptr : BitVec 32) (s : State) :
    NextWith (fun t => t.memories = s.memories) (execDoorbell fn queue wptr s) := by
  simp [execDoorbell]
@[simp] theorem refundTo_memories (s : State) (f : ℕ) (v : ℕ) :
    (refundTo s f v).memories = s.memories := by
  simp [refundTo]
@[simp] theorem vacateAll_canonical (s : State) (l : Launch) (hs : Canonical s.memories) :
    Canonical (vacateAll s l).memories := by
  unfold vacateAll
  repeat' (first | (simp [*]; done) | (refine foldl_canonical _ (fun a x h => ?_) _ _ ?_) | dsimp only | split)
@[simp] theorem freeCode_canonical (s : State) (l : Launch) (hs : Canonical s.memories) :
    Canonical (freeCode s l).memories := by
  unfold freeCode
  split
  · exact hs
  · exact State.scrub_canonical _ _ _ hs
@[simp] theorem removeLaunch_canonical (s : State) (l : Launch) (hs : Canonical s.memories) :
    Canonical (removeLaunch s l).memories := by
  unfold removeLaunch
  rw [State.updLaunch_memories]
  exact freeCode_canonical _ _ hs
@[simp] theorem execLaunchRetire_canonical (launch : ℕ) (s : State) (hs : Canonical s.memories) :
    NextWith (fun t => Canonical t.memories) (execLaunchRetire launch s) := by
  unfold execLaunchRetire
  rw [nextWith_next]
  split
  · exact hs
  · refine canonical_of_ite hs ?_
    refine writeRecord_canonical _ _ _ (removeLaunch_canonical _ _ ?_)
    rw [refundTo_memories]
    exact vacateAll_canonical _ _ hs
@[simp] theorem failLaunch_canonical (s : State) (l : Launch) (st : ℕ) (hs : Canonical s.memories) :
    Canonical (failLaunch s l st).memories := by
  unfold failLaunch
  exact writeRecord_canonical _ _ _ (removeLaunch_canonical _ _ (vacateAll_canonical _ _ hs))
@[simp] theorem checkImage_memories (s : State) (f : ℕ) (base : ℕ) :
    (checkImage s f base).memories = s.memories := by
  unfold checkImage
  refine (foldl_memories_fst _ (fun a x => ?_) _ _).trans rfl
  split
  · rfl
  · split <;> simp
@[simp] theorem readFor_memories (s : State) (d : List Byte) (f : ℕ) (q : ℕ) (serial : ℕ) (id : ℕ) :
    (readFor s d f q serial id).memories = s.memories := by
  unfold readFor
  split <;> simp
@[simp] theorem refuseEntry_canonical (s : State) (d : List Byte) (f : ℕ) (q : ℕ) (serial : ℕ) (id : ℕ) (st : ℕ)
    (hs : Canonical s.memories) :
    Canonical (refuseEntry s d f q serial id st).memories := by
  unfold refuseEntry
  exact failLaunch_canonical _ _ _ hs
@[simp] theorem execLaunchEntryRead_canonical (fn : ℕ) (queue : ℕ) (s : State) (hs : Canonical s.memories) :
    NextWith (fun t => Canonical t.memories) (execLaunchEntryRead fn queue s) := by
  unfold execLaunchEntryRead
  rw [nextWith_next]
  refine canonical_of_ite hs ?_
  extract_lets d serial id r u t0 t
  have hu : u.memories = s.memories := readFor_memories ..
  have ht : Canonical t.memories := by
    have h0 : t0.memories = u.memories := State.updQueue_memories ..
    rw [← hu, ← h0] at hs
    exact hs
  clear_value r
  split
  · exact ht
  · exact refuseEntry_canonical _ _ _ _ _ _ _ ht
  · exact refuseEntry_canonical _ _ _ _ _ _ _ (by simpa using ht)
  · refine canonical_of_ite (refuseEntry_canonical _ _ _ _ _ _ _ ht) ?_
    simp only [State.updQueue_memories, requestPage_memories, hu]
    exact hs
theorem receiveFor_memories {s : State} {l x : Launch} {r : DirReg} {y : State × DirReg}
    (h : receiveFor s l x r = some y) : y.1.memories = s.memories := by
  unfold receiveFor at h
  dsimp only at h
  repeat' split at h
  all_goals first | cases h; simp | cases h
theorem receiveAll_memories {l : Launch} : ∀ {rs : List (Option DirReg)} {s : State} {ms : List (Option (Launch × DirReg))}
    {y : State × List DirReg}, receiveAll s l rs ms = some y → y.1.memories = s.memories
  | [], s, ms, y, h => by cases h; rfl
  | some g :: r, s, ms, y, h => by
      obtain ⟨x, hx, rfl⟩ := Option.map_eq_some_iff.mp (show (receiveAll s l r ms).map _ = some y from h)
      exact receiveAll_memories (y := x) hx
  | none :: r, s, [], y, h => receiveAll_memories (rs := r) (ms := []) h
  | none :: r, s, none :: ms, y, h => receiveAll_memories (rs := r) (ms := []) h
  | none :: r, s, some (p, g) :: ms, y, h => by
      simp only [receiveAll] at h
      split at h
      · cases h
      · rename_i u g' hu
        obtain ⟨x, hx, rfl⟩ := Option.map_eq_some_iff.mp h
        exact (receiveAll_memories (y := x) hx).trans (receiveFor_memories hu)
@[simp] theorem State.codeRun_memories (s : State) (f : ℕ) (n : ℕ) :
    (State.codeRun s f n).1.memories = s.memories := by
  unfold State.codeRun
  refine (foldl_memories_fst _ (fun a x => ?_) _ _).trans rfl
  split <;> simp
@[simp] theorem startCore_memories (s : State) (l : Launch) (k : ℕ) (n : ℕ) (pc : Word) :
    (startCore s l k n pc).memories = s.memories := by
  simp [startCore]
theorem rentFor_canonical (s : State) (l : Launch) (home : ℕ) (d : RegDir) (hs : Canonical s.memories)
    {r : State × DirReg} (hr : rentFor s l home d = some r) : Canonical r.1.memories := by
  unfold rentFor at hr
  dsimp only at hr
  split at hr
  · cases hr
  · split at hr
    · cases hr
    · rename_i u runs hu
      have hv : Canonical u.memories := by
        have := rentRuns_memories s l.fn d.tier ((d.bytes + Config.granule d.tier - 1) / Config.granule d.tier) home 1
        rw [hu] at this
        exact this ▸ hs
      cases hr
      refine foldl_canonical_fst _ (fun a x h => State.writeDpa_canonical _ _ _ h) _ _ ?_
      rw [State.pay_memories]
      exact (State.newBase_memories u _ _ _ _).symm ▸ hv
theorem rentAll_canonical (s : State) (l : Launch) (home : ℕ) (ds : List RegDir) (hs : Canonical s.memories)
    {r : State × List (Option DirReg)} (hr : rentAll s l home ds = some r) : Canonical r.1.memories := by
  induction ds generalizing s r with
  | nil => cases hr; exact hs
  | cons d ds ih =>
      unfold rentAll at hr
      split at hr
      · obtain ⟨x, hx, rfl⟩ := Option.map_eq_some_iff.mp hr
        exact ih (r := x) s hs hx
      · split at hr
        · cases hr
        · rename_i u g hu
          obtain ⟨x, hx, rfl⟩ := Option.map_eq_some_iff.mp hr
          exact ih (r := x) u (rentFor_canonical _ _ _ _ hs hu) hx
theorem placeOn_canonical (s : State) (l : Launch) (cores : List ℕ) (hs : Canonical s.memories) {t : State}
    (ht : placeOn s l cores = some (.ok t)) : Canonical t.memories := by
  unfold placeOn at ht
  dsimp only at ht
  split at ht
  · cases ht
  · split at ht
    · cases ht
    · rename_i u gs hu
      have hv : Canonical u.memories := rentAll_canonical _ _ _ _ (by simp [hs]) hu
      split at ht
      · cases ht
      · rename_i v regs hr
        have h2 : v.memories = u.memories := receiveAll_memories hr
        split at ht
        · cases ht
        · rename_i w dpa hw
          have h3 := State.codeRun_memories v l.fn (8 * l.img.text.length)
          rw [hw] at h3
          cases ht
          rw [foldl_memories _ (fun a x => startCore_memories _ _ _ _ _)]
          refine State.writeDpa_canonical _ _ _ ?_
          rw [State.newBase_memories, h3, h2]
          exact hv
theorem State.placeable_canonical (s : State) (hs : Canonical s.memories) {l : Launch} {t : State}
    (ht : (l, Except.ok t) ∈ s.placeable) : Canonical t.memories := by
  obtain ⟨p, -, hp⟩ := List.mem_filterMap.mp ht
  split at hp
  · cases hp
  · split at hp
    · cases hp
    · split at hp
      · cases hp
      · obtain ⟨r, hr, he⟩ := Option.map_eq_some_iff.mp hp
        cases he
        exact placeOn_canonical _ _ _ hs hr
@[simp] theorem placed_canonical (s : State) (l : Launch) (r : Except ℕ State) (hs : Canonical s.memories)
    (hr : ∀ t, r = .ok t → Canonical t.memories) : Canonical (placed s l r).memories := by
  unfold placed
  split
  · have := hr _ rfl
    exact this
  · rename_i st
    have := failLaunch_canonical s l st hs
    exact this
@[simp] theorem placeHead_canonical (s : State) (l : Launch) (hs : Canonical s.memories) :
    Canonical (placeHead s l).memories := by
  unfold placeHead
  refine canonical_of_ite hs ?_
  split
  · exact hs
  · split
    · exact hs
    · rename_i r h
      exact placed_canonical _ _ _ hs (fun t ht => placeOn_canonical _ _ _ hs (ht ▸ h))
@[simp] theorem execPlacement_canonical (s : State) (hs : Canonical s.memories) :
    NextWith (fun t => Canonical t.memories) (execPlacement s) := by
  unfold execPlacement
  rw [nextWith_next]
  dsimp only
  split
  · exact hs
  · rename_i x r h
    exact placed_canonical _ _ _ hs (fun t ht => State.placeable_canonical s hs (ht ▸ List.mem_of_find?_eq_some h))
@[simp] theorem moveMembers_memories (s : State) (a : ℕ) (b : ℕ) :
    (moveMembers s a b).memories = s.memories := by
  simp [moveMembers]
@[simp] theorem park_memories (s : State) (l : ℕ) (k : ℕ) :
    (park s l k).memories = s.memories := by
  simp [park]
@[simp] theorem endLate_memories (s : State) (k : ℕ) (j : ℕ) :
    (endLate s k j).memories = s.memories := by
  unfold endLate
  split <;> simp
@[simp] theorem unpark_memories (s : State) (l : ℕ) (k : ℕ) :
    (unpark s l k).memories = s.memories := by
  unfold unpark
  split <;> simp
@[simp] theorem State.countSw_memories (s : State) (k : ℕ) (lo : ℕ) :
    (State.countSw s k lo).memories = s.memories := by
  simp [State.countSw]
@[simp] theorem stopped_memories (s : State) (k : ℕ) (j : ℕ) :
    (stopped s k j).memories = s.memories := by
  simp [stopped]
@[simp] theorem stopFetch_memories (s : State) (k : ℕ) (j : ℕ) :
    (stopFetch s k j).memories = s.memories := by
  simp [stopFetch]
@[simp] theorem beginSwitch_memories (s : State) (f : ℕ) :
    (beginSwitch s f).memories = s.memories := by
  simp [beginSwitch]
@[simp] theorem execTurnEnd_memories (part : ℕ) (s : State) :
    NextWith (fun t => t.memories = s.memories) (execTurnEnd part s) := by
  unfold execTurnEnd
  split <;> simp
@[simp] theorem execSafePointSwitch_memories (core : ℕ) (slot : ℕ) (s : State) :
    NextWith (fun t => t.memories = s.memories) (execSafePointSwitch core slot s) := by
  simp [execSafePointSwitch]
@[simp] theorem settlePreempt_canonical (s : State) (l : ℕ) (hs : Canonical s.memories) :
    Canonical (settlePreempt s l).memories := by
  unfold settlePreempt
  split
  · exact hs
  · refine canonical_of_ite ?_ hs
    dsimp only
    split
    · exact placeHead_canonical _ _ (by simpa using hs)
    · simpa using hs
@[simp] theorem execFullSave_canonical (core : ℕ) (slot : ℕ) (s : State) (hs : Canonical s.memories) :
    NextWith (fun t => Canonical t.memories) (execFullSave core slot s) := by
  unfold execFullSave
  rw [nextWith_next]
  dsimp only
  exact canonical_of_ite (settlePreempt_canonical _ _ (by simpa using hs)) hs
@[simp] theorem parkAll_memories (s : State) (f : ℕ) :
    (parkAll s f).memories = s.memories := by
  simp [parkAll]
@[simp] theorem unparkAll_canonical (s : State) (f : ℕ) (hs : Canonical s.memories) :
    Canonical (unparkAll s f).memories := by
  exact takeAnswers_canonical _ _ (by simpa using hs)
@[simp] theorem callOff_memories (s : State) (f : ℕ) :
    (callOff s f).memories = s.memories := by
  unfold callOff
  refine foldl_memories _ (fun a x => ?_) _ _
  split <;> simp
@[simp] theorem execTurnBegin_canonical (part : ℕ) (s : State) (hs : Canonical s.memories) :
    NextWith (fun t => Canonical t.memories) (execTurnBegin part s) := by
  unfold execTurnBegin
  rw [nextWith_next]
  dsimp only
  split
  · exact canonical_of_ite hs hs
  · refine canonical_of_ite (foldl_canonical _ (fun a x h => unparkAll_canonical _ _ (by simpa using h)) _ _ hs) ?_
    split
    · exact hs
    · refine canonical_of_ite hs (unparkAll_canonical _ _ ?_)
      rw [State.memories_mk, State.memories_eta]
      simpa using hs
@[simp] theorem execPriorityPreemption_canonical (fn : ℕ) (queue : ℕ) (s : State) (hs : Canonical s.memories) :
    NextWith (fun t => Canonical t.memories) (execPriorityPreemption fn queue s) := by
  unfold execPriorityPreemption
  rw [nextWith_next]
  split
  · exact hs
  · refine canonical_of_ite hs ?_
    split
    · exact hs
    · refine settlePreempt_canonical _ _ ?_
      rw [foldl_memories _ (fun a x => memories_of_ite (stopFetch_memories ..) rfl), State.updLaunch_memories]
      exact hs
@[simp] theorem execPreemptedResume_canonical (launch : ℕ) (s : State) (hs : Canonical s.memories) :
    NextWith (fun t => Canonical t.memories) (execPreemptedResume launch s) := by
  unfold execPreemptedResume
  rw [nextWith_next]
  split
  · exact hs
  · exact canonical_of_ite (takeAnswers_canonical _ _ (by simpa using hs)) hs
@[simp] theorem execQuadScrubComplete_canonical (quad : ℕ) (s : State) (hs : Canonical s.memories) :
    NextWith (fun t => Canonical t.memories) (execQuadScrubComplete quad s) := by
  unfold execQuadScrubComplete
  rw [nextWith_next]
  refine canonical_of_ite hs (foldl_canonical _ (fun a x h => ?_) _ _ (by simpa using hs))
  extract_lets b
  have h2 : Canonical b.memories := foldl_canonical _ (fun b y h => State.scrub_canonical _ _ _ h) _ _ h
  clear_value b
  exact canonical_of_ite (by simpa using h2) h2
@[simp] theorem execEscalationResume_memories (core : ℕ) (slot : ℕ) (s : State) :
    NextWith (fun t => t.memories = s.memories) (execEscalationResume core slot s) := by
  simp [execEscalationResume]
@[simp] theorem execEscalationStop_memories (core : ℕ) (slot : ℕ) (s : State) :
    NextWith (fun t => t.memories = s.memories) (execEscalationStop core slot s) := by
  simp [execEscalationStop]
  split <;> simp
@[simp] theorem execFinalRound_memories (fn : ℕ) (s : State) :
    NextWith (fun t => t.memories = s.memories) (execFinalRound fn s) := by
  simp [execFinalRound]
@[simp] theorem execHeatBoardUpdate_memories (s : State) :
    NextWith (fun t => t.memories = s.memories) (execHeatBoardUpdate s) := by
  simp [execHeatBoardUpdate]
@[simp] theorem readPower_memories (s : State) :
    (readPower s).memories = s.memories := by
  simp [readPower]
@[simp] theorem execPowerAlarmRaise_memories (s : State) :
    NextWith (fun t => t.memories = s.memories) (execPowerAlarmRaise s) := by
  simp [execPowerAlarmRaise]
@[simp] theorem execPowerAlarmClear_memories (s : State) :
    NextWith (fun t => t.memories = s.memories) (execPowerAlarmClear s) := by
  simp [execPowerAlarmClear]
@[simp] theorem execTokenRefill_memories (s : State) :
    NextWith (fun t => t.memories = s.memories) (execTokenRefill s) := by
  simp [execTokenRefill]
@[simp] theorem movePatrol_memories (s : State) :
    (movePatrol s).memories = s.memories := by
  simp [movePatrol]
@[simp] theorem foundBad_memories (s : State) (u : ℕ) :
    (foundBad s u).memories = s.memories := by
  unfold foundBad
  dsimp only
  split <;> simp
@[simp] theorem execPatrol_memories (unit : ℕ) (wrongSymbols : ℕ) (s : State) :
    NextWith (fun t => t.memories = s.memories) (execPatrol unit wrongSymbols s) := by
  unfold execPatrol
  rw [nextWith_next]
  dsimp only
  repeat' (first | exact memories_of_ite rfl ?_ | refine memories_of_ite ?_ ?_)
  all_goals simp
@[simp] theorem applyUpset_memories (s : State) (e : Upset) :
    (applyUpset s e).memories = s.memories := by
  unfold applyUpset
  split
  · refine memories_of_ite rfl ?_
    split
    · rfl
    · exact memories_of_ite rfl (by simp)
  · exact memories_of_ite rfl rfl
  · exact memories_of_ite (by simp) (memories_of_ite rfl (by simp))
@[simp] theorem applyUpsets_memories (s : State) :
    (applyUpsets s).memories = s.memories := by
  unfold applyUpsets
  split <;> simp
@[simp] theorem execQpartWrite_canonical (v : Word) (s : State) (hs : Canonical s.memories) :
    NextWith (fun t => Canonical t.memories) (execQpartWrite v s) := by
  simp [execQpartWrite, hs]
@[simp] theorem execFctlWrite_canonical (v : Word) (s : State) (hs : Canonical s.memories) :
    NextWith (fun t => Canonical t.memories) (execFctlWrite v s) := by
  simp [execFctlWrite, hs]
@[simp] theorem execLqWrite_canonical (v : Word) (s : State) (hs : Canonical s.memories) :
    NextWith (fun t => Canonical t.memories) (execLqWrite v s) := by
  simp [execLqWrite, hs]
@[simp] theorem execTbktWrite_canonical (v : Word) (s : State) (hs : Canonical s.memories) :
    NextWith (fun t => Canonical t.memories) (execTbktWrite v s) := by
  simp [execTbktWrite, hs]
@[simp] theorem execLmapWrite_canonical (v : Word) (s : State) (hs : Canonical s.memories) :
    NextWith (fun t => Canonical t.memories) (execLmapWrite v s) := by
  simp [execLmapWrite, hs]
@[simp] theorem execMwdataAccess_canonical (write : Option Word) (s : State) (hs : Canonical s.memories) :
    NextWith (fun t => Canonical t.memories) (execMwdataAccess write s) := by
  unfold execMwdataAccess
  split <;> simp [hs]
@[simp] theorem dropped_memories (s : State) (f : ℕ) :
    (dropped s f).memories = s.memories := by
  simp [dropped]
@[simp] theorem execS1invWrite_memories (fn : ℕ) (v : Word) (s : State) :
    NextWith (fun t => t.memories = s.memories) (execS1invWrite fn v s) := by
  simp [execS1invWrite]
@[simp] theorem sendPending_memories (s : State) (f : ℕ) (v : ℕ) :
    (sendPending s f v).memories = s.memories := by
  simp [sendPending]
@[simp] theorem windowWrite_memories (s : State) (f : ℕ) (o : ℕ) (v : Word) :
    (windowWrite s f o v).memories = s.memories := by
  simp [windowWrite]
@[simp] theorem execRegisterWindowWrite_memories (fn : ℕ) (offset : ℕ) (size : ℕ) (v : Word) (s : State) :
    NextWith (fun t => t.memories = s.memories) (execRegisterWindowWrite fn offset size v s) := by
  simp [execRegisterWindowWrite]
@[simp] theorem answer_canonical (s : State) (f : ℕ) (st : ℕ) (fields : List (ℕ × List Byte))
    (hs : Canonical s.memories) :
    Canonical (answer s f st fields).memories := by
  unfold answer
  dsimp only
  rw [raiseCause_memories, State.updFn_memories]
  have h : ∀ (l : List (ℕ × List Byte)) (m : Memory), m.wf = true → (l.foldl (fun m (p : ℕ × List Byte) => Memory.writeBytes m ((s.fn f).mreq.toNat + p.1) p.2) m).wf = true := by
    intro l
    induction l with
    | nil => exact fun _ h => h
    | cons x r ih => exact fun m h => ih _ (Memory.writeBytes_wf _ _ h)
  exact ⟨hs.1, h _ _ (Memory.writeBytes_wf _ _ hs.2)⟩
@[simp] theorem execSetlayer_canonical (fn : ℕ) (s : State) (hs : Canonical s.memories) :
    NextWith (fun t => Canonical t.memories) (execSetlayer fn s) := by
  unfold execSetlayer
  split <;> simp [hs]
@[simp] theorem execGetlayer_canonical (fn : ℕ) (s : State) (hs : Canonical s.memories) :
    NextWith (fun t => Canonical t.memories) (execGetlayer fn s) := by
  unfold execGetlayer
  split <;> simp [hs]
@[simp] theorem execGetwindow_canonical (fn : ℕ) (s : State) (hs : Canonical s.memories) :
    NextWith (fun t => Canonical t.memories) (execGetwindow fn s) := by
  unfold execGetwindow
  split <;> simp [hs]
@[simp] theorem stopLaunch_canonical (s : State) (l : Launch) (hs : Canonical s.memories) :
    Canonical (stopLaunch s l).memories := by
  unfold stopLaunch
  rw [State.updLaunch_memories, refundTo_memories]
  exact freeCode_canonical _ _ hs
@[simp] theorem execFunctionLevelReset_canonical (fn : ℕ) (s : State) (hs : Canonical s.memories) :
    NextWith (fun t => Canonical t.memories) (execFunctionLevelReset fn s) := by
  unfold execFunctionLevelReset
  rw [nextWith_next]
  dsimp only
  rw [State.updFn_memories]
  refine foldl_canonical _ (fun a x h => endBlock_canonical _ _ _ h) _ _ (foldl_canonical _ (fun a x h => ?_) _ _ ?_)
  · split
    · exact endRegion_canonical _ _ h
    · exact h
  · exact foldl_canonical _ (fun a x h => stopLaunch_canonical _ _ h) _ _ hs
@[simp] theorem bootCores_memories (s : State) (out : List ℕ) :
    (bootCores s out).memories = s.memories := by
  simp [bootCores]
@[simp] theorem State.cold_canonical (s : State) (hs : Canonical s.memories) :
    Canonical (State.cold s).memories := by
  exact ⟨rfl, hs.2⟩
@[simp] theorem State.atStage_memories (s : State) (n : ℕ) :
    (State.atStage s n).memories = s.memories := by
  simp [State.atStage]
@[simp] theorem State.haltBoot_memories (s : State) :
    (State.haltBoot s).memories = s.memories := by
  simp [State.haltBoot]
@[simp] theorem State.loadHitik_canonical (s : State) (slot : ℕ) (i : Image) (hs : Canonical s.memories) :
    Canonical (State.loadHitik s slot i).memories := by
  exact ⟨Memory.writeBytes_wf _ _ hs.1, hs.2⟩
@[simp] theorem State.repeats_canonical (s : State) (go : State → State)
    (h_go : ∀ z0, Canonical z0.memories → Canonical (go z0).memories) (hs : Canonical s.memories) :
    Canonical (State.repeats s go).memories := by
  unfold State.repeats
  have h : Canonical (s.choose 0).1.memories := by simpa using hs
  generalize s.choose 0 = r at h
  exact canonical_of_ite h (h_go _ h)
@[simp] theorem verifySlots_canonical (s : State) (hs : Canonical s.memories) :
    Canonical (verifySlots s).memories := by
  have h := fun (b : Boot) n i => State.loadHitik_canonical { s with boot := b } n i hs
  have h2 := fun (b : Boot) => (State.haltBoot_memories { s with boot := b }).symm ▸ hs
  unfold verifySlots
  dsimp only
  split
  · refine canonical_of_ite (h _ _ _) ?_
    split
    · exact canonical_of_ite (h _ _ _) (h2 _)
    · exact h2 _
  · exact canonical_of_ite (h _ _ _) (h2 _)
  · exact h2 _
@[simp] theorem scrubAll_canonical (s : State) (hs : Canonical s.memories) :
    Canonical (scrubAll s).memories := by
  exact ⟨Memory.filter_wf _ hs.1, hs.2⟩
@[simp] theorem State.ready_memories (s : State) :
    (State.ready s).memories = s.memories := by
  unfold State.ready
  split <;> simp
@[simp] theorem bringUp_canonical (s : State) (hs : Canonical s.memories) :
    Canonical (bringUp s).memories := by
  unfold bringUp
  refine canonical_of_ite hs ?_
  split
  · exact State.repeats_canonical _ _ (fun z h => h) hs
  · exact canonical_of_ite (by simpa using hs) (by simpa using hs)
  · simpa using hs
  · exact verifySlots_canonical _ hs
  · simpa using hs
  · rw [State.atStage_memories]; exact scrubAll_canonical _ hs
  · exact State.repeats_canonical _ _ (fun z h => by simpa using h) hs
  · exact hs
@[simp] theorem execPackageReset_canonical (s : State) (hs : Canonical s.memories) :
    NextWith (fun t => Canonical t.memories) (execPackageReset s) := by
  unfold execPackageReset
  rw [nextWith_next]
  exact State.cold_canonical _ hs
@[simp] theorem execConfigurationRequest_memories (fn : ℕ) (s : State) :
    NextWith (fun t => t.memories = s.memories) (execConfigurationRequest fn s) := by
  simp [execConfigurationRequest]
@[simp] theorem State.spdmReply_memories (s : State) (r : List Byte) :
    (State.spdmReply s r).memories = s.memories := by
  simp [State.spdmReply]
@[simp] theorem execGetVersion_memories (s : State) :
    NextWith (fun t => t.memories = s.memories) (execGetVersion s) := by
  simp [execGetVersion]
@[simp] theorem execGetCapabilities_memories (s : State) :
    NextWith (fun t => t.memories = s.memories) (execGetCapabilities s) := by
  simp [execGetCapabilities]
@[simp] theorem execNegotiateAlgorithms_memories (offered : List Byte) (s : State) :
    NextWith (fun t => t.memories = s.memories) (execNegotiateAlgorithms offered s) := by
  simp [execNegotiateAlgorithms]
@[simp] theorem execGetDigests_memories (s : State) :
    NextWith (fun t => t.memories = s.memories) (execGetDigests s) := by
  simp [execGetDigests]
@[simp] theorem execGetCertificate_memories (slot : ℕ) (offset : ℕ) (length : ℕ) (s : State) :
    NextWith (fun t => t.memories = s.memories) (execGetCertificate slot offset length s) := by
  simp [execGetCertificate]
@[simp] theorem execChallenge_memories (nonce : List Byte) (s : State) :
    NextWith (fun t => t.memories = s.memories) (execChallenge nonce s) := by
  simp [execChallenge]
@[simp] theorem execGetMeasurements_memories (index : ℕ) (s : State) :
    NextWith (fun t => t.memories = s.memories) (execGetMeasurements index s) := by
  simp [execGetMeasurements]
@[simp] theorem execVendorDefinedRequest_memories (s : State) :
    NextWith (fun t => t.memories = s.memories) (execVendorDefinedRequest s) := by
  simp [execVendorDefinedRequest]
@[simp] theorem podReply_memories (s : State) (a : PodWait) (st : Status) (bs : List Byte) :
    (podReply s a st bs).memories = s.memories := by
  simp [podReply]
@[simp] theorem podRead_memories (s : State) (segs : List (ℕ × Hit × ℕ)) :
    (podRead s segs).1.memories = s.memories := by
  simp [podRead]
@[simp] theorem podWrite_canonical (s : State) (f : ℕ) (segs : List (ℕ × Hit × ℕ)) (bs : List Byte)
    (hs : Canonical s.memories) :
    Canonical (podWrite s f segs bs).memories := by
  unfold podWrite
  exact foldl_canonical _ (fun a x h => markDirty_canonical _ _ _ (writePad_canonical _ _ _ _ _ _ _ h)) _ _ hs
@[simp] theorem podRmw_canonical (s : State) (f : ℕ) (es : ℕ) (segs : List (ℕ × Hit × ℕ)) (new : ℕ → ℕ × Flags)
    (hs : Canonical s.memories) :
    Canonical (podRmw s f es segs new).1.memories := by
  unfold podRmw
  split
  · simpa using hs
  · exact podWrite_canonical _ _ _ _ (by simpa using hs)
@[simp] theorem raiseRef_memories (s : State) (f : ℕ) (g : ℕ) :
    (raiseRef s f g).1.memories = s.memories := by
  unfold raiseRef
  split
  · rfl
  · split <;> simp
@[simp] theorem serveShare_memories (s : State) (f : ℕ) (key : ℕ) (vl : ℕ) :
    (serveShare s f key vl).1.memories = s.memories := by
  unfold serveShare
  split
  · rfl
  · dsimp only
    repeat' split
    all_goals simp
@[simp] theorem serveRenew_memories (s : State) (f : ℕ) (g : ℕ) (ticks : ℕ) :
    (serveRenew s f g ticks).1.memories = s.memories := by
  unfold serveRenew
  split
  · rfl
  · split <;> simp
@[simp] theorem podEffect_canonical (s : State) (f : ℕ) (vl : ℕ) (o : Config.PodOp) (segs : List (ℕ × Hit × ℕ))
    (hs : Canonical s.memories) :
    Canonical (podEffect s f vl o segs).1.memories := by
  unfold podEffect
  repeat' split
  all_goals first
    | exact podRmw_canonical _ _ _ _ _ hs
    | exact podWrite_canonical _ _ _ _ hs
    | exact lowerRef_canonical _ _ _ hs
    | simpa using hs
@[simp] theorem serveAsk_canonical (s : State) (a : PodWait) (hs : Canonical s.memories) :
    Canonical (serveAsk s a).1.memories := by
  unfold serveAsk
  dsimp only
  split
  · simpa using hs
  · split
    · simpa using hs
    · split
      · exact hs
      · split
        · simpa using hs
        · simpa using hs
        · rename_i f _ _ _ _ segs _
          have h : ∀ b : Bool, Canonical
              ((if b = true then (s, []) else takeAll (segs.foldl (fun s g => fillFn s f g.2.1 g.1) s) f segs).1).memories := by
            intro b
            split
            · exact hs
            · simpa using hs
          have h2 := h a.paid
          generalize (if a.paid = true then (s, []) else takeAll (segs.foldl (fun s g => fillFn s f g.2.1 g.1) s) f segs) = r
            at h2
          split
          · rw [podReply_memories]
            exact podEffect_canonical _ _ _ _ _ h2
          · exact h2
        · exact hs
@[simp] theorem serveAsks_canonical (s : State) (hs : Canonical s.memories) :
    Canonical (serveAsks s).memories := by
  unfold serveAsks
  refine foldl_canonical_fst _ (fun a x h => ?_) _ _ hs
  split
  · exact h
  · exact serveAsk_canonical _ _ h
@[simp] theorem takeAsk_canonical (s : State) (port : ℕ) (h : FlitHead) (payload : List Byte)
    (hs : Canonical s.memories) :
    Canonical (takeAsk s port h payload).memories := by
  unfold takeAsk
  exact canonical_of_ite hs (serveAsks_canonical _ hs)
@[simp] theorem execReceiveFlit_canonical (port : ℕ) (bytes : List Byte) (s : State) (hs : Canonical s.memories) :
    NextWith (fun t => Canonical t.memories) (execReceiveFlit port bytes s) := by
  unfold execReceiveFlit
  rw [nextWith_next]
  dsimp only
  refine canonical_of_ite (by simpa using hs) ?_
  split
  · exact canonical_of_ite (takeAsk_canonical _ _ _ _ (by simpa using hs)) hs
  · exact canonical_of_ite (takeAsk_canonical _ _ _ _ (by simpa using hs)) hs
  · exact canonical_of_ite (by simpa using hs) hs
  · simpa using hs
  · exact hs
@[simp] theorem execNak_memories (port : ℕ) (seq : ℕ) (s : State) :
    NextWith (fun t => t.memories = s.memories) (execNak port seq s) := by
  simp [execNak]

end Sys2Proof.Machine
end

