-- ==== Sys2Proof/Laws/KeepStep.lean ====
section
/-!
SUPPORT. What landings, bundles, exec and the cycle do to the two memories: one lemma per function, `_memories` where it leaves both alone
and `_canonical` where it writes one and keeps the canonical form. The lemmas stand in the order of the definitions.
-/
namespace Sys2Proof.Machine
set_option Elab.async false

@[simp] theorem applyLand_canonical (k : ℕ) (j : ℕ) (s : State) (l : Land) (hs : Canonical s.memories) :
    Canonical (applyLand k j s l).memories := by
  unfold applyLand
  split <;> simp [hs]
@[simp] theorem State.landFlights_canonical (s : State) (k : ℕ) (j : ℕ) (now : List Flight) (hs : Canonical s.memories) :
    Canonical (State.landFlights s k j now).memories :=
  foldl_canonical _ (fun _ _ h => applyLand_canonical _ _ _ _ h) _ _ (by simpa using hs)
@[simp] theorem landMts_canonical (s : State) (k : ℕ) (hs : Canonical s.memories) :
    Canonical (landMts s k).memories :=
  foldl_canonical _ (fun _ _ h => State.landFlights_canonical _ _ _ _ (by simpa using h)) _ _ hs
@[simp] theorem landRun_canonical (s : State) (k : ℕ) (j : ℕ) (load : Bool) (hs : Canonical s.memories) :
    Canonical (landRun s k j load).memories := by
  have h := landMts_canonical s k hs
  exact canonical_of_ite h (State.landFlights_canonical _ _ _ _ (by simpa using h))
@[simp] theorem execResultLanding_canonical (core : ℕ) (slot : ℕ) (s : State) (hs : Canonical s.memories) :
    NextWith (fun t => Canonical t.memories) (execResultLanding core slot s) := by
  simp [execResultLanding, hs]
@[simp] theorem execTimedLoadLanding_canonical (core : ℕ) (slot : ℕ) (s : State) (hs : Canonical s.memories) :
    NextWith (fun t => Canonical t.memories) (execTimedLoadLanding core slot s) := by
  simp [execTimedLoadLanding, hs]
@[simp] theorem State.landNow_canonical (s : State) (k : ℕ) (j : ℕ) (hs : Canonical s.memories) :
    Canonical (State.landNow s k j).memories := by
  unfold State.landNow
  refine foldl_canonical _ (fun a x h => ?_) _ _ (by simp [hs])
  simp [h]
@[simp] theorem landShared_canonical (note : Bool) (s : State) (m : ℕ × ℕ) (hs : Canonical s.memories) :
    Canonical (landShared note s m).memories := by
  unfold landShared
  refine foldl_canonical _ (fun a x h => applyLand_canonical _ _ _ _ h) _ _ ?_
  rw [State.setCtx_memories]
  exact hs
@[simp] theorem shareBy_canonical (run : State → State) (ms : List (ℕ × ℕ)) (s : State) (hs : Canonical s.memories) :
    Canonical (shareBy run ms s).memories := by
  unfold shareBy
  dsimp only
  exact canonical_of_ite hs (foldl_canonical _ (fun a x h => landShared_canonical _ _ _ h) _ _ hs)
@[simp] theorem addWeight_memories (s : State) (k : ℕ) (w : ℕ) :
    (addWeight s k w).memories = s.memories := by
  simp [addWeight]
theorem exec_canonical (i : Instr) (s : State) (hs : Canonical s.memories) :
    NextWith (fun t => Canonical t.memories) (exec i s) := by
  cases i with
  | nop => exact ((execNop_memories ..).keeps hs)
  | add g d a b => exact ((execAdd_memories ..).keeps hs)
  | sub g d a b => exact ((execSub_memories ..).keeps hs)
  | mul g d a b => exact ((execMul_memories ..).keeps hs)
  | mulh g u d a b => exact ((execMulh_memories ..).keeps hs)
  | div g u d a b => exact ((execDiv_memories ..).keeps hs)
  | rem g u d a b => exact ((execRem_memories ..).keeps hs)
  | and g d a b => exact ((execAnd_memories ..).keeps hs)
  | or g d a b => exact ((execOr_memories ..).keeps hs)
  | xor g d a b => exact ((execXor_memories ..).keeps hs)
  | shl g d a b => exact ((execShl_memories ..).keeps hs)
  | shr g arith d a b => exact ((execShr_memories ..).keeps hs)
  | rot g d a b => exact ((execRot_memories ..).keeps hs)
  | min g u d a b => exact ((execMin_memories ..).keeps hs)
  | max g u d a b => exact ((execMax_memories ..).keeps hs)
  | clz g d a => exact ((execClz_memories ..).keeps hs)
  | popc g d a => exact ((execPopc_memories ..).keeps hs)
  | sel g d c a b => exact ((execSel_memories ..).keeps hs)
  | cmp g c p a b => exact ((execCmp_memories ..).keeps hs)
  | li g d a => exact ((execLi_memories ..).keeps hs)
  | lea g d a b sh => exact ((execLea_memories ..).keeps hs)
  | ld g sz acq d base arr off => exact ((execLd_memories ..).keeps hs)
  | st g sz rel d base off => exact execSt_canonical _ _ _ _ _ _ s hs
  | mfs g d n => exact ((execMfs_memories ..).keeps hs)
  | mts g n a => exact ((execMts_memories ..).keeps hs)
  | br g d disp => exact ((execBr_memories ..).keeps hs)
  | bri g d a => exact ((execBri_memories ..).keeps hs)
  | call g disp => exact ((execCall_memories ..).keeps hs)
  | calli g a => exact ((execCalli_memories ..).keeps hs)
  | ret g a => exact ((execRet_memories ..).keeps hs)
  | handback g => exact ((execHandback_memories ..).keeps hs)
  | tailend g => exact ((execTailend_memories ..).keeps hs)
  | jointail g p => exact ((execJointail_memories ..).keeps hs)
  | loop g d disp => exact ((execLoop_memories ..).keeps hs)
  | trap g a => exact ((execTrap_memories ..).keeps hs)
  | eret g => exact ((execEret_memories ..).keeps hs)
  | halt g => exact ((execHalt_memories ..).keeps hs)
  | fuse g n => exact ((execFuse_memories ..).keeps hs)
  | decouple g => exact ((execDecouple_memories ..).keeps hs)
  | rejoin g => exact ((execRejoin_memories ..).keeps hs)
  | rent g tier kind ls rlt spread d p a b c => exact ((execRent_memories ..).keeps hs)
  | renew g d p a b => exact ((execRenew_memories ..).keeps hs)
  | prepay g d p a b c => exact ((execPrepay_memories ..).keeps hs)
  | sublet g l gr d p a b c => exact ((execSublet_memories ..).keeps hs)
  | vacate g subs d a => exact execVacate_canonical _ _ _ _ s hs
  | handover g d p a b => exact execHandover_canonical _ _ _ _ _ s hs
  | lease g d a => exact ((execLease_memories ..).keeps hs)
  | barinit g sc p a b c => exact ((execBarinit_memories ..).keeps hs)
  | barbase g sc a b => exact ((execBarbase_memories ..).keeps hs)
  | arrive g sc a => exact execArrive_canonical _ _ _ s hs
  | wait g sc p a => exact ((execWait_memories ..).keeps hs)
  | watch g p w b => exact ((execWatch_memories ..).keeps hs)
  | fence g sc kinds dir => exact ((execFence_memories ..).keeps hs)
  | vadd g t rc sat d a b => exact ((execVadd_memories ..).keeps hs)
  | vsub g t rc sat d a b => exact ((execVsub_memories ..).keeps hs)
  | vmul g t rc sat d a b => exact ((execVmul_memories ..).keeps hs)
  | vfma g t rc np nc d a b c => exact ((execVfma_memories ..).keeps hs)
  | vmin g t d a b => exact ((execVmin_memories ..).keeps hs)
  | vmax g t d a b => exact ((execVmax_memories ..).keeps hs)
  | vabs g t sat d a => exact ((execVabs_memories ..).keeps hs)
  | vand g t d a b => exact ((execVand_memories ..).keeps hs)
  | vor g t d a b => exact ((execVor_memories ..).keeps hs)
  | vxor g t d a b => exact ((execVxor_memories ..).keeps hs)
  | vshl g t d a b => exact ((execVshl_memories ..).keeps hs)
  | vshr g t d a b => exact ((execVshr_memories ..).keeps hs)
  | vcmp g t c p a b => exact ((execVcmp_memories ..).keeps hs)
  | vsel g t d c a b => exact ((execVsel_memories ..).keeps hs)
  | vmov g t d a => exact ((execVmov_memories ..).keeps hs)
  | vcvt g t u rc ns d a => exact ((execVcvt_memories ..).keeps hs)
  | vblkmax g t d a => exact ((execVblkmax_memories ..).keeps hs)
  | vscale g u d a b => exact ((execVscale_memories ..).keeps hs)
  | vquant g t u rc ns d a b => exact ((execVquant_memories ..).keeps hs)
  | vrsqe g d a => exact ((execVrsqe_memories ..).keeps hs)
  | vrcpe g d a => exact ((execVrcpe_memories ..).keeps hs)
  | vexp2 g rc d a => exact ((execVexp2_memories ..).keeps hs)
  | vlog2 g rc d a => exact ((execVlog2_memories ..).keeps hs)
  | vredsum g t rc w d a => exact ((execVredsum_memories ..).keeps hs)
  | vredmax g t d a => exact ((execVredmax_memories ..).keeps hs)
  | vperm g t d a b => exact ((execVperm_memories ..).keeps hs)
  | vrot g t d a b => exact ((execVrot_memories ..).keeps hs)
  | vidx g t d => exact ((execVidx_memories ..).keeps hs)
  | vtopk g t k init d c a b => exact ((execVtopk_memories ..).keeps hs)
  | vdot4 g t rc d a b c => exact ((execVdot4_memories ..).keeps hs)
  | vmulh g t d a b => exact ((execVmulh_memories ..).keeps hs)
  | vclamp g t d a b c => exact ((execVclamp_memories ..).keeps hs)
  | vrnd g t rc d a => exact ((execVrnd_memories ..).keeps hs)
  | vclass g t d a => exact ((execVclass_memories ..).keeps hs)
  | vpack g t sat d a b => exact ((execVpack_memories ..).keeps hs)
  | vunpack g t hi d a => exact ((execVunpack_memories ..).keeps hs)
  | pand g na nb d a b => exact ((execPand_memories ..).keeps hs)
  | por g na nb d a b => exact ((execPor_memories ..).keeps hs)
  | pxor g na nb d a b => exact ((execPxor_memories ..).keeps hs)
  | pcnt g t d a => exact ((execPcnt_memories ..).keeps hs)
  | vld g acq d base arr off => exact ((execVld_memories ..).keeps hs)
  | vldx g t d base arr xv off => exact ((execVldx_memories ..).keeps hs)
  | vst g rel d base off => exact execVst_canonical _ _ _ _ _ s hs
  | vstx g t d base xv off => exact execVstx_canonical _ _ _ _ _ _ s hs
  | tld g d a b => exact ((execTld_memories ..).keeps hs)
  | tst g d a b => exact ((execTst_memories ..).keeps hs)
  | trd g t d b => exact ((execTrd_memories ..).keeps hs)
  | twr g d a b => exact ((execTwr_memories ..).keeps hs)
  | ttr g t d src => exact ((execTtr_memories ..).keeps hs)
  | tmask g t mode d a b c => exact ((execTmask_memories ..).keeps hs)
  | trmax g t src d => exact ((execTrmax_memories ..).keeps hs)
  | trsum g t rc src d => exact ((execTrsum_memories ..).keeps hs)
  | texp g t rc d src b => exact ((execTexp_memories ..).keeps hs)
  | trscl g t rc d src b => exact ((execTrscl_memories ..).keeps hs)
  | tcvt g t u rc ns d src => exact ((execTcvt_memories ..).keeps hs)
  | twait g tm am => exact ((execTwait_memories ..).keeps hs)
  | tzero g d => exact ((execTzero_memories ..).keeps hs)
  | mma g f acc a b m8 n16 k16 pa pb z => exact ((execMma_memories ..).keeps hs)
  | mmag g f acc a b m8 n16 k16 pa pb z => exact ((execMmag_memories ..).keeps hs)
  | accdef g i32 n a b c => exact ((execAccdef_memories ..).keeps hs)
  | accz g n => exact ((execAccz_memories ..).keeps hs)
  | accld g t n a b => exact ((execAccld_memories ..).keeps hs)
  | accmv g t dir rc ns n d a b => exact ((execAccmv_memories ..).keeps hs)
  | accst g t rc ns n a b => exact ((execAccst_memories ..).keeps hs)
  | accscl g n a b => exact ((execAccscl_memories ..).keeps hs)
  | accbias g n a b => exact ((execAccbias_memories ..).keeps hs)
  | ringset g r a b c => exact ((execRingset_memories ..).keeps hs)
  | ringq g r d => exact ((execRingq_memories ..).keeps hs)
  | xcopy g esz ch pace d b c desc => exact ((execXcopy_memories ..).keeps hs)
  | xgather g esz ch pace d b vi n1 => exact ((execXgather_memories ..).keeps hs)
  | xscatter g esz ch pace a b vi n1 => exact ((execXscatter_memories ..).keeps hs)
  | xacc g op esz ch pace a b c => exact ((execXacc_memories ..).keeps hs)
  | xfetch g op esz ch a b c => exact ((execXfetch_memories ..).keeps hs)
  | xcas g esz ch a b c res => exact ((execXcas_memories ..).keeps hs)
  | xfill g esz ch pace a b c => exact ((execXfill_memories ..).keeps hs)
  | xexpand g esz ch pace d b c => exact ((execXexpand_memories ..).keeps hs)
  | xsignal g op ch a b => exact ((execXsignal_memories ..).keeps hs)
  | xorder g esz ch b => exact ((execXorder_memories ..).keeps hs)
  | kvalloc g ch a b => exact ((execKvalloc_memories ..).keeps hs)
  | kvfree g ch a => exact ((execKvfree_memories ..).keeps hs)
  | kvshare g ch a b => exact ((execKvshare_memories ..).keeps hs)
  | kvappend g adv ch a b c => exact ((execKvappend_memories ..).keeps hs)
  | kvcommit g reject ch a b => exact ((execKvcommit_memories ..).keeps hs)
  | kvget g ch pace d b c => exact ((execKvget_memories ..).keeps hs)
  | kvsum g ch a b c => exact ((execKvsum_memories ..).keeps hs)
  | xcoll g op kind esz ch a b c desc => exact ((execXcoll_memories ..).keeps hs)
  | resultLanding core slot => exact execResultLanding_canonical _ _ s hs
  | timedLoadLanding core slot => exact execTimedLoadLanding_canonical _ _ s hs
  | queuedOpStart core slot op => exact execQueuedOpStart_canonical _ _ _ s hs
  | queuedOpComplete core slot op => exact execQueuedOpComplete_canonical _ _ _ s hs
  | commandStart core ch => exact execCommandStart_canonical _ _ s hs
  | commandElement core ch => exact execCommandElement_canonical _ _ s hs
  | commandCompletion core ch => exact ((execCommandCompletion_memories ..).keeps hs)
  | collectiveForm fn group => exact ((execCollectiveForm_memories ..).keeps hs)
  | prepayRenewal region => exact ((execPrepayRenewal_memories ..).keeps hs)
  | leaseExpiry region sublet => exact execLeaseExpiry_canonical _ _ s hs
  | rentLowEvent region => exact ((execRentLowEvent_memories ..).keeps hs)
  | rentLowTrap core slot => exact ((execRentLowTrap_memories ..).keeps hs)
  | scrubComplete granule => exact ((execScrubComplete_memories ..).keeps hs)
  | watchTimeout core slot => exact ((execWatchTimeout_memories ..).keeps hs)
  | prgResponse fn group code => exact execPrgResponse_canonical _ _ _ s hs
  | invalidationComplete fn s1 => exact execInvalidationComplete_canonical _ _ s hs
  | doorbell fn queue wptr => exact ((execDoorbell_memories ..).keeps hs)
  | launchEntryRead fn queue => exact execLaunchEntryRead_canonical _ _ s hs
  | placement => exact execPlacement_canonical s hs
  | priorityPreemption fn queue => exact execPriorityPreemption_canonical _ _ s hs
  | preemptedResume launch => exact execPreemptedResume_canonical _ s hs
  | launchRetire launch => exact execLaunchRetire_canonical _ s hs
  | coalDelayExpiry fn => exact ((execCoalDelayExpiry_memories ..).keeps hs)
  | turnEnd part => exact ((execTurnEnd_memories ..).keeps hs)
  | safePointSwitch core slot => exact ((execSafePointSwitch_memories ..).keeps hs)
  | fullSave core slot => exact execFullSave_canonical _ _ s hs
  | turnBegin part => exact execTurnBegin_canonical _ s hs
  | quadScrubComplete quad => exact execQuadScrubComplete_canonical _ s hs
  | escalationResume core slot => exact ((execEscalationResume_memories ..).keeps hs)
  | escalationStop core slot => exact ((execEscalationStop_memories ..).keeps hs)
  | heatBoardUpdate => exact ((execHeatBoardUpdate_memories ..).keeps hs)
  | powerAlarmRaise => exact ((execPowerAlarmRaise_memories ..).keeps hs)
  | powerAlarmClear => exact ((execPowerAlarmClear_memories ..).keeps hs)
  | tokenRefill => exact ((execTokenRefill_memories ..).keeps hs)
  | patrol unit wrongSymbols => exact ((execPatrol_memories ..).keeps hs)
  | qpartWrite v => exact execQpartWrite_canonical _ s hs
  | fctlWrite v => exact execFctlWrite_canonical _ s hs
  | lqWrite v => exact execLqWrite_canonical _ s hs
  | invWrite v => exact execInvWrite_canonical _ s hs
  | prictlWrite v => exact execPrictlWrite_canonical _ s hs
  | tbktWrite v => exact execTbktWrite_canonical _ s hs
  | lmapWrite v => exact execLmapWrite_canonical _ s hs
  | mwdataAccess write => exact execMwdataAccess_canonical _ s hs
  | s1invWrite fn v => exact ((execS1invWrite_memories ..).keeps hs)
  | setlayer fn => exact execSetlayer_canonical _ s hs
  | getlayer fn => exact execGetlayer_canonical _ s hs
  | getwindow fn => exact execGetwindow_canonical _ s hs
  | registerWindowWrite fn offset size v => exact ((execRegisterWindowWrite_memories ..).keeps hs)
  | functionLevelReset fn => exact execFunctionLevelReset_canonical _ s hs
  | packageReset => exact execPackageReset_canonical s hs
  | configurationRequest fn => exact ((execConfigurationRequest_memories ..).keeps hs)
  | getVersion => exact ((execGetVersion_memories ..).keeps hs)
  | getCapabilities => exact ((execGetCapabilities_memories ..).keeps hs)
  | negotiateAlgorithms offered => exact ((execNegotiateAlgorithms_memories ..).keeps hs)
  | getDigests => exact ((execGetDigests_memories ..).keeps hs)
  | getCertificate slot offset length => exact ((execGetCertificate_memories ..).keeps hs)
  | challenge nonce => exact ((execChallenge_memories ..).keeps hs)
  | getMeasurements index => exact ((execGetMeasurements_memories ..).keeps hs)
  | vendorDefinedRequest => exact ((execVendorDefinedRequest_memories ..).keeps hs)
  | receiveFlit port bytes => exact execReceiveFlit_canonical _ _ s hs
  | nak port seq => exact ((execNak_memories ..).keeps hs)
  | finalRound fn => exact ((execFinalRound_memories ..).keeps hs)
@[simp] theorem atMember_memories (s : State) (f : Issue) (h : Header) (m : Member) :
    (atMember s f h m).memories = s.memories := by
  simp [atMember]
@[simp] theorem atOp_memories (s : State) (f : Issue) (h : Header) (m : Member) (o : SlotOp) :
    (atOp s f h m o).memories = s.memories := by
  simp [atOp]
@[simp] theorem runOp_canonical (f : Issue) (h : Header) (m : Member) (s : State) (o : SlotOp)
    (hs : Canonical s.memories) :
    Canonical (runOp f h m s o).memories := by
  unfold runOp
  dsimp only
  split
  · rename_i u hu
    obtain ⟨t, ht, hc⟩ := exec_canonical o.i (atOp s { f with checked := true, soft := s.issue.soft } h m o) (by simpa using hs)
    rw [hu] at ht
    cases ht
    exact hc
  · exact hs
@[simp] theorem runPass_canonical (f : Issue) (h : Header) (ms : List Member) (s : State) (p : ℕ)
    (hs : Canonical s.memories) :
    Canonical (runPass f h ms s p).memories := by
  unfold runPass
  repeat' refine foldl_canonical _ (fun a x h => ?_) _ _ ?_
  all_goals simp [*]
@[simp] theorem advancePc_memories (s : State) (b : Bundle) (pc : Word) (rep : ℕ) (m : Member) :
    (advancePc s b pc rep m).memories = s.memories := by
  simp [advancePc]
@[simp] theorem finishIssue_memories (partner : Bool) (s : State) (m : Member) :
    (finishIssue partner s m).memories = s.memories := by
  simp [finishIssue]
@[simp] theorem countIssue_memories (s : State) (m : Member) :
    (countIssue s m).memories = s.memories := by
  simp [countIssue]
@[simp] theorem joinViews_memories (f : Issue) (s : State) (m : Member) :
    (joinViews f s m).memories = s.memories := by
  simp [joinViews]
@[simp] theorem issueBundle_canonical (s : State) (f : Issue) (b : Bundle) (ms : List Member)
    (hs : Canonical s.memories) :
    Canonical (issueBundle s f b ms).memories := by
  have hj : ∀ u : State, Canonical u.memories → Canonical (if b.hdr.vj then ms.foldl (joinViews f) u else u).memories := by
    intro u hu
    exact canonical_of_ite (by simpa using hu) hu
  have hp := fun (o : List Member) (u : State) (n : ℕ) (hu : Canonical u.memories) => runPass_canonical f b.hdr o u n hu
  have hf := fun (u : State) (hu : Canonical u.memories) => foldl_canonical (finishIssue f.partner) (fun a x h => by simp [h]) ms u hu
  have h0 : Canonical (ms.foldl (fun s m => advancePc s b f.hdr f.rep m) (ms.foldl countIssue s)).memories := by
    simpa using hs
  unfold issueBundle
  extract_lets order leads s1 s2 s3 s4 s5 s6 s7 s8 s9
  have h8 : Canonical s8.memories := hp _ _ _ (hp _ _ _ (hp _ _ _ (hj _ (hp _ _ _ (hp _ _ _ h0)))))
  rw [State.memories_mk, State.memories_eta]
  refine hf _ ?_
  unfold s9
  split
  · refine canonical_of_ite h8 ?_
    rw [State.softTrap_memories, State.memories_mk, State.memories_eta]
    exact h8
  · exact h8
@[simp] theorem clearPoison_memories (s : State) (m : Member) :
    (clearPoison s m).memories = s.memories := by
  simp [clearPoison]
@[simp] theorem faultBundle_memories (s : State) (f : Issue) (m : Member) (g : Flt) :
    (faultBundle s f m g).memories = s.memories := by
  simp [faultBundle]
@[simp] theorem noteRan_memories (s : State) (k : ℕ) (b : Bundle) (l : List SlotOp) :
    (noteRan s k b l).memories = s.memories := by
  simp [noteRan]
@[simp] theorem countDrain_memories (s : State) (x : Member × Chk) : (countDrain s x).memories = s.memories := by
  unfold countDrain
  split <;> simp
@[simp] theorem tryBundle_canonical (s : State) (k : ℕ) (f : Issue) (b : Bundle) (ms : List Member) (e : optParam Chk
    { }) (hs : Canonical s.memories) :
    Canonical (tryBundle s k f b ms e).memories := by
  simp [tryBundle]
  repeat' split
  all_goals simp [hs]
@[simp] theorem replayHold_canonical (s : State) (m : ℕ × ℕ) (hs : Canonical s.memories) :
    Canonical (replayHold s m).memories := by
  unfold replayHold
  split
  · exact hs
  · exact State.landNow_canonical _ _ _ (by simpa using hs)
@[simp] theorem replayPartner_canonical (s : State) (k : ℕ) (j : ℕ) (hs : Canonical s.memories) :
    Canonical (replayPartner s k j).memories := by
  unfold replayPartner
  split
  · exact hs
  · exact State.landNow_canonical _ _ _ (by simpa using hs)
@[simp] theorem takeEscalation_memories (s : State) (k : ℕ) (j : ℕ) (partner : Bool) (e : Bool × Word) :
    (takeEscalation s k j partner e).memories = s.memories := by
  simp [takeEscalation]
@[simp] theorem noHeader_memories (s : State) (k : ℕ) (j : ℕ) (partner : Bool) (c : Chk) :
    (noHeader s k j partner c).memories = s.memories := by
  unfold noHeader
  dsimp only
  split
  · simp
  · rw [State.memories_mk, State.memories_eta]
    exact settle_memories _ _ _ (fun u => rfl)
@[simp] theorem checkFetch_memories (s : State) (k j : ℕ) (pc : Word) (g : Got) :
    (checkFetch s k j pc g).memories = s.memories := by
  unfold checkFetch
  refine memories_of_ite rfl (foldl_memories _ (fun a x => ?_) _ _)
  split <;> simp
@[simp] theorem runBundle_canonical (s : State) (k : ℕ) (j : ℕ) (hs : Canonical s.memories) :
    Canonical (runBundle s k j).memories := by
  unfold runBundle
  dsimp only
  split
  · simpa using hs
  · split
    · exact tryBundle_canonical _ _ _ _ _ _ (by simpa using hs)
    · exact tryBundle_canonical _ _ _ _ _ _ (by simpa using hs)
    · simpa using hs
@[simp] theorem runContext_canonical (s : State) (k : ℕ) (j : ℕ) (hs : Canonical s.memories) :
    Canonical (runContext s k j).memories := by
  have h : Canonical ((s.gangSlots k j).foldl replayHold s).memories :=
    foldl_canonical _ (fun a x h => replayHold_canonical _ _ h) _ _ hs
  unfold runContext
  exact runBundle_canonical _ _ _ (canonical_of_ite (shareBy_canonical _ _ _ h) h)
theorem walkFreeze_canonical (s t : State) (k n : ℕ) (hs : Canonical s.memories) (ht : Canonical t.memories) :
    Canonical (walkFreeze s t k n).memories := by
  unfold walkFreeze
  rw [State.updCore_memories]
  exact canonical_of_ite ht (by simpa using hs)
theorem afterWalk_canonical (s t : State) (k j : ℕ) (hs : Canonical s.memories) (ht : Canonical t.memories) :
    Canonical (afterWalk s t k j).memories := by
  unfold afterWalk
  split
  · exact canonical_of_ite ht (by simpa using ht)
  · exact walkFreeze_canonical _ _ _ _ hs ht
  · split
    · exact ht
    · refine canonical_of_ite ht ?_
      split
      · exact ht
      · exact walkFreeze_canonical _ _ _ _ hs ht
@[simp] theorem runCore_canonical (s : State) (k : ℕ) (hs : Canonical s.memories) :
    Canonical (runCore s k).memories := by
  unfold runCore
  dsimp only
  refine canonical_of_ite hs ?_
  split
  · exact hs
  · exact canonical_of_ite (afterWalk_canonical _ _ _ _ hs (runContext_canonical _ _ _ hs)) hs
@[simp] theorem tryPartner_canonical (s : State) (f : Issue) (b : Bundle) (m : Member) (e : Chk)
    (hs : Canonical s.memories) :
    Canonical (tryPartner s f b m e).memories := by
  simp [tryPartner, hs]
@[simp] theorem runPartner_canonical (s : State) (k : ℕ) (j : ℕ) (mask : ℕ) (port : Bool) (hs : Canonical s.memories) :
    Canonical (runPartner s k j mask port).memories := by
  unfold runPartner
  extract_lets x g u beside
  have hu : Canonical u.memories := (checkFetch_memories ..).symm ▸ hs
  have hb : ∀ b c, Canonical (beside b c).memories :=
    fun b c => canonical_of_ite (tryPartner_canonical _ _ _ _ _ hu) hu
  clear_value g beside
  split
  · simpa using hu
  · split
    · exact hb _ _
    · exact hb _ _
    · exact canonical_of_ite hu (by simpa using hu)
@[simp] theorem partnerCore_canonical (s : State) (k : ℕ) (hs : Canonical s.memories) :
    Canonical (partnerCore s k).memories := by
  unfold partnerCore
  dsimp only
  split
  · exact hs
  · split
    · exact hs
    · refine canonical_of_ite hs (canonical_of_ite (runPartner_canonical _ _ _ _ _ hs) (canonical_of_ite ?_ hs))
      exact runPartner_canonical _ _ _ _ _ (shareBy_canonical _ _ _ (replayPartner_canonical _ _ _ hs))
@[simp] theorem runFor_canonical (s : State) (k : ℕ) (hs : Canonical s.memories) :
    Canonical (runFor s k).memories := by
  unfold runFor
  split
  · exact runCore_canonical _ _ hs
  · exact partnerCore_canonical _ _ (runCore_canonical _ _ hs)
@[simp] theorem shareAll_canonical (s : State) (hs : Canonical s.memories) :
    Canonical (shareAll s).memories :=
  canonical_of_ite hs (foldl_canonical _ (fun _ _ h => landShared_canonical _ _ _ h) _ _ hs)
@[simp] theorem landCore_memories (s : State) (k : ℕ) :
    (landCore s k).memories = s.memories := by
  simp [landCore]
@[simp] theorem wake_memories (s : State) (k : ℕ) (j : ℕ) (w : Option Wait) :
    (wake s k j w).memories = s.memories := by
  simp [wake]
@[simp] theorem wakeOne_memories (s : State) (k : ℕ) (j : ℕ) :
    (wakeOne s k j).memories = s.memories := by
  have hw : ∀ w : Option Wait, (wake s k j w).memories = s.memories := fun w => wake_memories s k j w
  have hww : (wakeWatch s k j).memories = s.memories := wakeWatch_memories s k j
  have hf : ∀ (ms : List ℕ) (w : Option Wait), (ms.foldl (fun s m => wake s m 0 w) s).memories = s.memories := fun ms w => foldl_memories _ (fun a x => wake_memories a x 0 w) ms s
  have hi : ∀ (c : Prop) [Decidable c] (a b : State), a.memories = s.memories → b.memories = s.memories → (if c then a else b).memories = s.memories := by
    intro c _ a b ha hb
    split
    · exact ha
    · exact hb
  unfold wakeOne
  refine hi _ _ _ rfl ?_
  cases (s.ctx k j).wait with
  | none => exact Eq.refl _
  | some w =>
    cases w with
    | barrier sc inst l n g b =>
      cases b with
      | none => exact hi _ _ _ (hw _) rfl
      | some b => exact Eq.refl _
    | watch c a v t b =>
      cases b with
      | none => exact hi _ _ _ hww rfl
      | some b => exact Eq.refl _
    | chan c v t b =>
      cases b with
      | none => exact hi _ _ _ hww rfl
      | some b => exact Eq.refl _
    | tails => exact hi _ _ _ (hw _) rfl
    | writes ops => exact hi _ _ _ (hw _) rfl
    | holds sp => exact hi _ _ _ rfl (hw _)
    | fuse n b =>
      cases b with
      | false => exact hi _ _ _ (hf _ _) rfl
      | true => exact Eq.refl _
    | rejoin b =>
      cases b with
      | false =>
        dsimp only
        split
        · exact Eq.refl _
        · exact hi _ _ _ (hf _ _) rfl
      | true => exact Eq.refl _
    | handover r w =>
      dsimp only
      split
      · exact hi _ _ _ rfl (hw _)
      · exact hi _ _ _ rfl (hi _ _ _ (hw _) rfl)
    | pending b => exact hi _ _ _ rfl ((wake_memories ..).trans (State.acquired_memories ..))
    | pages gs => exact hi _ _ _ (hw _) rfl
    | _ => exact Eq.refl _
@[simp] theorem wakeAll_canonical (s : State) (hs : Canonical s.memories) :
    Canonical (wakeAll s).memories := by
  unfold wakeAll
  dsimp only
  rw [foldl_memories _ (fun a x => foldl_memories _ (fun b y => wakeOne_memories ..) _ _)]
  exact endHandovers_canonical _ hs
@[simp] theorem State.mapCores_memories (s : State) (f : CoreSt → CoreSt) :
    (State.mapCores s f).memories = s.memories := by
  simp [State.mapCores]
@[simp] theorem turnFull_memories (s : State) :
    (turnFull s).memories = s.memories := by
  simp [turnFull]
@[simp] theorem tickState_memories (s : State) :
    (tickState s).memories = s.memories := by
  simp [tickState]
@[simp] theorem afterTick_memories (s : State) :
    (afterTick s).memories = s.memories := by
  simp [afterTick]
@[simp] theorem endCycle_canonical (s : State) (hs : Canonical s.memories) :
    Canonical (endCycle s).memories := by
  unfold endCycle
  have h1 := State.withPolicy_canonical _ hs
  generalize s.withPolicy = s1 at h1
  dsimp only
  have h2 : Canonical (applyUpsets { s1 with cycle := s1.cycle + 1, lag := s1.lag.drop 1 }).memories :=
    (applyUpsets_memories _).symm ▸ h1
  generalize applyUpsets { s1 with cycle := s1.cycle + 1, lag := s1.lag.drop 1 } = s2 at h2
  have h4 : Canonical ((bringUp s2).liveCores.foldl countSlots (bringUp s2)).memories :=
    (foldl_memories _ (fun a x => countSlots_memories ..) _ _).symm ▸ bringUp_canonical _ h2
  generalize (bringUp s2).liveCores.foldl countSlots (bringUp s2) = s4 at h4
  have h6 : Canonical (wakeAll ((serveAsks s4).mapCores nextCycle)).memories :=
    wakeAll_canonical _ (by simpa using serveAsks_canonical _ h4)
  generalize wakeAll ((serveAsks s4).mapCores nextCycle) = s6 at h6
  have h8 : Canonical ((turnFull s6).mapCores chooseRunning).memories := by simpa using h6
  generalize (turnFull s6).mapCores chooseRunning = s8 at h8
  rw [State.memories_mk, State.memories_eta]
  refine canonical_of_ite ?_ ?_
  · rw [afterTick_memories, State.later_memories]
    exact canonical_of_ite (by simpa using h8) h8
  · rw [State.later_memories]
    exact canonical_of_ite (by simpa using h8) h8
@[simp] theorem passTurn_canonical (s : State) (hs : Canonical s.memories) :
    Canonical (passTurn s).memories := by
  unfold passTurn
  split
  · exact hs
  · split
    · exact hs
    · exact endCycle_canonical _ hs
@[simp] theorem countCopyLoss_memories (s : State) (k : ℕ) :
    (countCopyLoss s k).memories = s.memories := by
  simp [countCopyLoss]
@[simp] theorem corePhase_canonical (s : State) (k : ℕ) (y4 : Phase) (hs : Canonical s.memories) :
    Canonical (corePhase s k y4).memories := by
  unfold corePhase
  split <;> simp [hs]
theorem advance_canonical (s : State) (hs : Canonical s.memories) :
    Canonical (advance s).memories := by
  simp [advance, hs]

end Sys2Proof.Machine
end

