-- ==== Sys2Proof/Laws/Syllable.lean ====
section
/-!
SUPPORT. What each decoding step answers on what the encoder writes: fields, selectors, offsets and the AUX of
each class (R97 to R101, R151, R178, R204, R218).
-/
namespace Sys2Proof

@[simp] theorem need_true (e : DecodeErr) : need true e = .ok () := rfl
@[simp] theorem get_some {α : Type} (x : α) (e : DecodeErr) : get (some x) e = .ok x := rfl
@[simp] theorem zero_zero (n : Nat) : zero (0#n) = .ok () := by simp [zero]
@[simp] theorem dec_bind {α β : Type} (x : α) (f : α → Dec β) : ((.ok x : Dec α) >>= f) = f x := rfl
@[simp] theorem dec_pure {α : Type} (x : α) : (pure x : Dec α) = .ok x := rfl
@[simp] theorem dec_map {α β : Type} (x : α) (f : α → β) : Except.map f (.ok x : Dec α) = .ok (f x) := rfl

@[simp] theorem F3.unpack_pack' (d a b c : BitVec 8) (x : BitVec 16) :
    F3.unpack (F3.pack ⟨d, a, b, c, x⟩) = ⟨d, a, b, c, x⟩ := F3.unpack_pack _
@[simp] theorem FM.unpack_pack' (d b : BitVec 8) (a : BitVec 12) (o : BitVec 20) :
    FM.unpack (FM.pack ⟨d, b, a, o⟩) = ⟨d, b, a, o⟩ := FM.unpack_pack _
@[simp] theorem FB.unpack_pack' (d a : BitVec 8) (x : BitVec 32) : FB.unpack (FB.pack ⟨d, a, x⟩) = ⟨d, a, x⟩ :=
  FB.unpack_pack _
@[simp] theorem FMX.unpack_pack' (c a b : BitVec 4) (m n : BitVec 8) (k : BitVec 12) (x : BitVec 8) :
    FMX.unpack (FMX.pack ⟨c, a, b, m, n, k, x⟩) = ⟨c, a, b, m, n, k, x⟩ := FMX.unpack_pack _
@[simp] theorem FXC.unpack_pack' (h : BitVec 4) (a b c : BitVec 8) (p : BitVec 12) (o : BitVec 5) (z : BitVec 3) :
    FXC.unpack (FXC.pack ⟨h, a, b, c, p, o, z⟩) = ⟨h, a, b, c, p, o, z⟩ := FXC.unpack_pack _

@[simp] theorem vdstOf_code (d : VDst) : vdstOf d.code = .ok d := by
  obtain ⟨ws, r⟩ := d
  cases ws <;> revert r <;> decide
@[simp] theorem tyOf_code (t : Ty) : tyOf t.code = .ok t := by cases t <;> rfl
@[simp] theorem rcOf_code (r : Rc) : rcOf r.code = .ok r := by cases r <;> rfl
@[simp] theorem scopeOf_code (s : Scope) : scopeOf s.code = .ok s := by cases s <;> rfl
@[simp] theorem mfmtOf_code (f : MFmt) : mfmtOf f.code = .ok f := by cases f <;> rfl
@[simp] theorem condOf_code (c : Cond) : condOf (c.code % 16) = .ok c := by cases c <;> rfl
@[simp] theorem condOf_aux (c : Cond) : condOf (c.code % 8) = .ok c := by cases c <;> rfl
@[simp] theorem auxOnly_cond (c : Cond) : auxOnly (BitVec.ofNat 16 c.code) 0x0007#16 = .ok () := by cases c <;> rfl
@[simp] theorem flagOf_mod1 (b : Bool) : flagOf (mod1 b) = .ok b := by cases b <;> rfl
@[simp] theorem zcode_esz : ∀ z : BitVec 2, eszOf (zcode z) = .ok z := by decide
@[simp] theorem mopOf_num (o : MOp) : mopOf o.isTile o.num = o := by cases o <;> rfl
@[simp] theorem ringOf_code (x : Option Word) (n : BitVec 4) : xdstOf x true (pcode n) = .ok (.ring n) := by
  revert n
  simp only [xdstOf, if_true]
  decide
@[simp] theorem offOf_short (o : BitVec 20) : offOf none o = .ok (.short o) := rfl
@[simp] theorem offOf_ext (v : Word) : offOf (some v) 0#20 = .ok (.ext v) := rfl
@[simp] theorem offXOf_short (o : BitVec 14) : offXOf none o = .ok (.short o) := rfl
@[simp] theorem offXOf_ext (v : Word) : offXOf (some v) 0#14 = .ok (.ext v) := rfl
@[simp] theorem adv_mod (b : Bool) : ((if b = true then 2#4 else 0#4) == 0#4 || (if b = true then 2#4 else 0#4) == 2#4) = true
    ∧ bit (if b = true then 2#4 else 0#4) 1 = b := by cases b <;> decide
@[simp] theorem rej_mod (b : Bool) : ((if b = true then 4#4 else 0#4) == 0#4 || (if b = true then 4#4 else 0#4) == 4#4) = true
    ∧ bit (if b = true then 4#4 else 0#4) 2 = b := by cases b <;> decide
@[simp] theorem kind_mod : ∀ k : BitVec 2, decide ((0#2 ++ k : BitVec 4).toNat < 4) = true
    ∧ (0#2 ++ k : BitVec 4).extractLsb' 0 2 = k := by decide

/-! ## Bits of a joined field -/

@[simp] theorem ofBit_eq_one (b : Bool) : (ofBit b == 1#1) = b := by cases b <;> rfl

theorem vaux_bits (hi : Bool) (u : BitVec 4) (nc np s : Bool) (rc : BitVec 3) :
    (vaux hi u nc np s rc).extractLsb' 0 3 = rc ∧ (vaux hi u nc np s rc).extractLsb' 8 4 = u
      ∧ bit (vaux hi u nc np s rc) 3 = s ∧ bit (vaux hi u nc np s rc) 4 = np
      ∧ bit (vaux hi u nc np s rc) 5 = nc ∧ bit (vaux hi u nc np s rc) 12 = hi := by
  cases hi <;> cases nc <;> cases np <;> cases s <;> revert u rc <;> decide
@[simp] theorem vaux_rc (hi : Bool) (u : BitVec 4) (nc np s : Bool) (rc : BitVec 3) :
    (vaux hi u nc np s rc).extractLsb' 0 3 = rc := (vaux_bits hi u nc np s rc).1
@[simp] theorem vaux_stype (hi : Bool) (u : BitVec 4) (nc np s : Bool) (rc : BitVec 3) :
    (vaux hi u nc np s rc).extractLsb' 8 4 = u := (vaux_bits hi u nc np s rc).2.1
@[simp] theorem vaux_s (hi : Bool) (u : BitVec 4) (nc np s : Bool) (rc : BitVec 3) :
    bit (vaux hi u nc np s rc) 3 = s := (vaux_bits hi u nc np s rc).2.2.1
@[simp] theorem vaux_np (hi : Bool) (u : BitVec 4) (nc np s : Bool) (rc : BitVec 3) :
    bit (vaux hi u nc np s rc) 4 = np := (vaux_bits hi u nc np s rc).2.2.2.1
@[simp] theorem vaux_nc (hi : Bool) (u : BitVec 4) (nc np s : Bool) (rc : BitVec 3) :
    bit (vaux hi u nc np s rc) 5 = nc := (vaux_bits hi u nc np s rc).2.2.2.2.1
@[simp] theorem vaux_hi (hi : Bool) (u : BitVec 4) (nc np s : Bool) (rc : BitVec 3) :
    bit (vaux hi u nc np s rc) 12 = hi := (vaux_bits hi u nc np s rc).2.2.2.2.2

@[simp] theorem auxOnly_rc_s (s : Bool) (rc : Rc) : auxOnly (vaux false 0#4 false false s rc.code) 0x000F#16 = .ok () := by
  cases s <;> cases rc <;> rfl
@[simp] theorem auxOnly_rc (rc : Rc) : auxOnly (vaux false 0#4 false false false rc.code) 0x0007#16 = .ok () := by
  cases rc <;> rfl
@[simp] theorem auxOnly_rc_w (w : Bool) (rc : Rc) : auxOnly (vaux false 0#4 false w false rc.code) 0x0017#16 = .ok () := by
  cases w <;> cases rc <;> rfl
@[simp] theorem auxOnly_fma (nc np : Bool) (rc : Rc) : auxOnly (vaux false 0#4 nc np false rc.code) 0x0037#16 = .ok () := by
  cases nc <;> cases np <;> cases rc <;> rfl
@[simp] theorem auxOnly_cvt (u : Ty) (ns : Bool) (rc : Rc) :
    auxOnly (vaux false u.code false false ns rc.code) 0x0F0F#16 = .ok () := by
  cases ns <;> cases rc <;> cases u <;> rfl
@[simp] theorem auxOnly_scale (u : Ty) : auxOnly (vaux false u.code false false false 0#3) 0x0F00#16 = .ok () := by
  cases u <;> rfl
@[simp] theorem auxOnly_s (s : Bool) : auxOnly (vaux false 0#4 false false s 0#3) 0x0008#16 = .ok () := by cases s <;> rfl
@[simp] theorem auxOnly_hi (hi : Bool) : auxOnly (vaux hi 0#4 false false false 0#3) 0x1000#16 = .ok () := by
  cases hi <;> rfl
@[simp] theorem auxOnly_none : auxOnly 0#16 0#16 = .ok () := rfl
@[simp] theorem rcOf_zero : rcOf 0#3 = .ok .dyn := rfl

theorem maux_bits (ns : Bool) (rc : BitVec 3) (dir : Bool) (n : BitVec 4) :
    (maux ns rc dir n).extractLsb' 0 4 = n ∧ (maux ns rc dir n).extractLsb' 5 3 = rc
      ∧ bit (maux ns rc dir n) 4 = dir ∧ bit (maux ns rc dir n) 8 = ns := by
  cases ns <;> cases dir <;> revert rc n <;> decide
@[simp] theorem maux_num (ns : Bool) (rc : BitVec 3) (dir : Bool) (n : BitVec 4) :
    (maux ns rc dir n).extractLsb' 0 4 = n := (maux_bits ns rc dir n).1
@[simp] theorem maux_rc (ns : Bool) (rc : BitVec 3) (dir : Bool) (n : BitVec 4) :
    (maux ns rc dir n).extractLsb' 5 3 = rc := (maux_bits ns rc dir n).2.1
@[simp] theorem maux_dir (ns : Bool) (rc : BitVec 3) (dir : Bool) (n : BitVec 4) :
    bit (maux ns rc dir n) 4 = dir := (maux_bits ns rc dir n).2.2.1
@[simp] theorem maux_ns (ns : Bool) (rc : BitVec 3) (dir : Bool) (n : BitVec 4) :
    bit (maux ns rc dir n) 8 = ns := (maux_bits ns rc dir n).2.2.2
@[simp] theorem auxOnly_num : ∀ n : BitVec 4, auxOnly (maux false 0#3 false n) 0x000F#16 = .ok () := by decide
@[simp] theorem auxOnly_dir_num : ∀ (d : Bool) (n : BitVec 4), auxOnly (maux false 0#3 d n) 0x001F#16 = .ok () := by decide
@[simp] theorem auxOnly_mv : ∀ (ns d : Bool) (r : BitVec 3) (n : BitVec 4),
    auxOnly (maux ns r d n) 0x01FF#16 = .ok () := by decide
@[simp] theorem auxOnly_st : ∀ (ns : Bool) (r : BitVec 3) (n : BitVec 4),
    auxOnly (maux ns r false n) 0x01EF#16 = .ok () := by decide

@[simp] theorem raux_plain : ∀ p : BitVec 3, auxPair (raux 0#10 false false p) = .ok p
    ∧ (raux 0#10 false false p).extractLsb' 4 12 = 0 := by decide
@[simp] theorem raux_rent : ∀ (sp : BitVec 2) (r l : Bool) (p : BitVec 3),
    auxPair (raux (0#8 ++ sp) r l p) = .ok p ∧ bit (raux (0#8 ++ sp) r l p) 4 = l
      ∧ bit (raux (0#8 ++ sp) r l p) 5 = r ∧ (raux (0#8 ++ sp) r l p).extractLsb' 6 2 = sp
      ∧ (raux (0#8 ++ sp) r l p).extractLsb' 8 8 = 0 := by decide
@[simp] theorem raux_sublet : ∀ (gr : BitVec 6) (l : Bool) (p : BitVec 3),
    auxPair (raux (0#4 ++ gr) false l p) = .ok p ∧ bit (raux (0#4 ++ gr) false l p) 4 = l
      ∧ (raux (0#4 ++ gr) false l p).extractLsb' 6 6 = gr ∧ (raux (0#4 ++ gr) false l p).extractLsb' 5 1 = 0
      ∧ (raux (0#4 ++ gr) false l p).extractLsb' 12 4 = 0 := by decide

@[simp] theorem six_of_aux : ∀ n : BitVec 6, (0#10 ++ n : BitVec 16).extractLsb' 0 6 = n
    ∧ (0#10 ++ n : BitVec 16).extractLsb' 6 10 = 0 := by decide
@[simp] theorem two_of_aux : ∀ n : BitVec 2, (0#14 ++ n : BitVec 16).extractLsb' 0 2 = n
    ∧ (0#14 ++ n : BitVec 16).extractLsb' 2 14 = 0 := by decide
@[simp] theorem flags_of_aux : ∀ nb na : Bool, bit (0#14 ++ ofBit nb ++ ofBit na : BitVec 16) 0 = na
    ∧ bit (0#14 ++ ofBit nb ++ ofBit na : BitVec 16) 1 = nb
    ∧ (0#14 ++ ofBit nb ++ ofBit na : BitVec 16).extractLsb' 2 14 = 0 := by decide
@[simp] theorem topk_of_aux : ∀ (i : Bool) (k : BitVec 7), (0#8 ++ ofBit i ++ k : BitVec 16).extractLsb' 0 7 = k
    ∧ bit (0#8 ++ ofBit i ++ k : BitVec 16) 7 = i ∧ auxOnly (0#8 ++ ofBit i ++ k : BitVec 16) 0x00FF#16 = .ok () := by
  decide
@[simp] theorem fence_of_aux : ∀ (d : BitVec 2) (k : BitVec 3), (0#11 ++ d ++ k : BitVec 16).extractLsb' 0 3 = k
    ∧ (0#11 ++ d ++ k : BitVec 16).extractLsb' 3 2 = d ∧ (0#11 ++ d ++ k : BitVec 16).extractLsb' 5 11 = 0 := by
  decide
@[simp] theorem mem_mod : ∀ (a : Bool) (z : BitVec 2), bit (0#1 ++ ofBit a ++ z : BitVec 4) 3 = false
    ∧ bit (0#1 ++ ofBit a ++ z : BitVec 4) 2 = a ∧ (0#1 ++ ofBit a ++ z : BitVec 4).extractLsb' 0 2 = z := by decide
@[simp] theorem rent_mod : ∀ k t : BitVec 2, (k ++ t : BitVec 4).extractLsb' 0 2 = t
    ∧ (k ++ t : BitVec 4).extractLsb' 2 2 = k := by decide
@[simp] theorem watch_mod : ∀ c : BitVec 2, ((0#2 ++ c : BitVec 4) == 8#4) = false
    ∧ decide ((0#2 ++ c : BitVec 4).toNat < 4) = true ∧ (0#2 ++ c : BitVec 4).extractLsb' 0 2 = c := by decide
@[simp] theorem fmx_flags : ∀ g tb ta z pb pa : Bool,
    let f : BitVec 8 := 0#2 ++ ofBit g ++ ofBit tb ++ ofBit ta ++ ofBit z ++ ofBit pb ++ ofBit pa
    bit f 0 = pa ∧ bit f 1 = pb ∧ bit f 2 = z ∧ bit f 3 = ta ∧ bit f 4 = tb
      ∧ f.extractLsb' 5 3 = (if g then 1 else 0) := by decide
@[simp] theorem offx_of_off (xv : BitVec 6) (o : BitVec 14) :
    BitVec.extractLsb' 0 14 (xv ++ o : BitVec 20) = o ∧ BitVec.extractLsb' 14 6 (xv ++ o : BitVec 20) = xv := by
  have key : ∀ i, (xv ++ o : BitVec 20).getLsbD i = if i < 14 then o.getLsbD i else xv.getLsbD (i - 14) :=
    fun i => BitVec.getLsbD_append (x := xv) (y := o)
  constructor <;> apply BitVec.eq_of_getLsbD_eq <;> intro i hi <;> simp only [BitVec.getLsbD_extractLsb', key, hi]
  · simp [hi]
  · simp

/-! ## Selectors and offsets of a well-formed instruction (R97, R98) -/

/-- The extension of a well-formed instruction is every value it takes from an extension. -/
theorem ext_of_wf {i : Instr} (h : i.wf) {v : Word} (hv : v ∈ i.exts) : i.ext? = some v := by
  have h2 : i.checkSrcs = none := by
    simp only [Instr.wf, Instr.check] at h
    split at h
    · cases h
    · exact h
  simp only [Instr.checkSrcs] at h2
  split at h2
  · cases h2
  · split at h2
    · cases h2
    · rename_i hn
      have := (List.any_eq_false.mp (Bool.eq_false_iff.mpr hn)) v hv
      simpa using (Decidable.not_not.mp (by simpa using this) : some v = i.ext?).symm

/-- A latch that a well-formed instruction reads exists (R98). -/
theorem latch_of_wf {i : Instr} (h : i.wf) {n : BitVec 4} (hs : .latch n ∈ i.srcs) : n.toNat ≤ 11 := by
  have h2 : i.checkSrcs = none := by
    simp only [Instr.wf, Instr.check] at h
    split at h
    · cases h
    · exact h
  simp only [Instr.checkSrcs] at h2
  split at h2
  · cases h2
  · rename_i hn
    have := (List.any_eq_false.mp (Bool.eq_false_iff.mpr hn)) _ hs
    simp at this
    exact this.2

/-- A selector of a well-formed instruction reads back (R98). -/
theorem sel_of_wf {i : Instr} (h : i.wf) {s : Sel} (hs : s ∈ i.srcs) : selOf i.ext? s.code = .ok s := by
  apply selOf_code
  · intro n hn
    exact latch_of_wf h (hn ▸ hs)
  · intro v hv
    apply ext_of_wf h
    simp only [Instr.exts, List.mem_append, List.mem_filterMap]
    exact .inr ⟨s, hs, by rw [hv]; rfl⟩

/-- A destination that is also a value source reads back where it is no extension (R98). -/
theorem data_of_wf {i : Instr} (h : i.wf) {s : Sel} (hs : s ∈ i.srcs) (hn : ∀ v, s ≠ .ext v) :
    selOf none s.code = .ok s :=
  selOf_code none s (fun n hl => latch_of_wf h (hl ▸ hs)) (fun v hv => absurd hv (hn v))

theorem check_of_wf {i : Instr} (h : i.wf) : i.checkFields = none := by
  simp only [Instr.wf, Instr.check] at h
  split at h
  · cases h
  · assumption

end Sys2Proof
end

