-- ==== Sys2Proof/Laws/PerInstr.lean ====
section
/-!
SUPPORT. Family `Encoding`: the decoder reads every well-formed instruction back from the words the encoder
writes for it, in every slot it may stand in (R93 to R103).
-/
namespace Sys2Proof.Laws.Encoding

set_option Elab.async false

/-- In every slot the instruction may stand in, its words are a syllable and its extension, if it has one, and
the decoder reads the instruction from them. -/
def Statement (i : Instr) : Prop :=
  i.wf → ∀ sl : Slot, i.slotOk sl = true →
    ∃ w, encode i = w :: i.ext?.toList ∧ hasExt w = i.ext?.isSome ∧ decodeSlot sl w (i.ext?.getD 0) = .ok i

theorem hasExt_pack (x : Bool) (op : BitVec 6) (g m : BitVec 4) (r : BitVec 48) :
    hasExt (Syl.pack ⟨0, ofBit x, op, g, m, r⟩) = x := by
  have := congrArg Syl.xt (Syl.unpack_pack ⟨0, ofBit x, op, g, m, r⟩)
  simp only [Syl.unpack] at this
  simp only [hasExt, this]
  exact ofBit_eq_one x

/-- Where the fields of an instruction decode to it, so do its words. -/
theorem of_fields {i : Instr} {op : BitVec 6} {m : BitVec 4} {r : BitVec 48} (hf : i.fields = some (op, m, r))
    (h : i.wf → ∀ sl, i.slotOk sl = true → decFields sl ⟨0, ofBit i.ext?.isSome, op, i.guard, m, r⟩ i.ext? = .ok i) :
    Statement i := by
  intro hw sl hs
  refine ⟨Syl.pack ⟨0, ofBit i.ext?.isSome, op, i.guard, m, r⟩, by simp only [encode, hf], hasExt_pack .., ?_⟩
  have hx : (if (ofBit i.ext?.isSome == 1) = true then some (i.ext?.getD 0) else none) = i.ext? := by
    cases i.ext? <;> rfl
  have hc : i.check = none := hw
  simp only [decodeSlot, Syl.unpack_pack, beq_self_eq_true, need_true, dec_bind]
  rw [hx, h hw sl hs]
  simp [decChecks, hs, hc]

theorem cls_s {sl : Slot} (h : (sl == .s0 || sl == .s1) = true) : sl.cls = .s := by cases sl <;> first | rfl | cases h
theorem cls_s1 {sl : Slot} (h : (sl == .s1) = true) : sl.cls = .s := by cases sl <;> first | rfl | cases h
theorem cls_s0 {sl : Slot} (h : (sl == .s0) = true) : sl.cls = .s := by cases sl <;> first | rfl | cases h
theorem cls_v {sl : Slot} (h : (sl.cls == .v) = true) : sl.cls = .v := by cases sl <;> first | rfl | cases h
theorem cls_m {sl : Slot} (h : (sl == .m) = true) : sl.cls = .m := by cases sl <;> first | rfl | cases h
theorem cls_t {sl : Slot} (h : (sl == .t) = true) : sl.cls = .t := by cases sl <;> first | rfl | cases h
theorem cls_x {sl : Slot} (h : (sl == .x) = true) : sl.cls = .x := by cases sl <;> first | rfl | cases h

theorem nop : Statement .nop :=
  of_fields rfl fun _ _ _ => rfl

theorem add (g : BitVec 4) (d : BitVec 6) (a b : Sel) : Statement (.add g d a b) :=
  of_fields rfl fun hw sl hs => by
    have hk := cls_s hs
    have ha := sel_of_wf hw (s := a) (by simp [Instr.srcs])
    have hb := sel_of_wf hw (s := b) (by simp [Instr.srcs])
    simp [decFields, hk, decS, dec2, ha, hb, Instr.guard]

theorem sub (g : BitVec 4) (d : BitVec 6) (a b : Sel) : Statement (.sub g d a b) :=
  of_fields rfl fun hw sl hs => by
    have hk := cls_s hs
    have ha := sel_of_wf hw (s := a) (by simp [Instr.srcs])
    have hb := sel_of_wf hw (s := b) (by simp [Instr.srcs])
    simp [decFields, hk, decS, dec2, ha, hb, Instr.guard]

theorem mul (g : BitVec 4) (d : BitVec 6) (a b : Sel) : Statement (.mul g d a b) :=
  of_fields rfl fun hw sl hs => by
    have hk := cls_s hs
    have ha := sel_of_wf hw (s := a) (by simp [Instr.srcs])
    have hb := sel_of_wf hw (s := b) (by simp [Instr.srcs])
    simp [decFields, hk, decS, dec2, ha, hb, Instr.guard]

theorem mulh (g : BitVec 4) (u : Bool) (d : BitVec 6) (a b : Sel) : Statement (.mulh g u d a b) :=
  of_fields rfl fun hw sl hs => by
    have hk := cls_s hs
    have ha := sel_of_wf hw (s := a) (by simp [Instr.srcs])
    have hb := sel_of_wf hw (s := b) (by simp [Instr.srcs])
    simp [decFields, hk, decS, dec2s, ha, hb, Instr.guard]

theorem div (g : BitVec 4) (u : Bool) (d : BitVec 6) (a b : Sel) : Statement (.div g u d a b) :=
  of_fields rfl fun hw sl hs => by
    have hk := cls_s hs
    have ha := sel_of_wf hw (s := a) (by simp [Instr.srcs])
    have hb := sel_of_wf hw (s := b) (by simp [Instr.srcs])
    simp [decFields, hk, decS, dec2s, ha, hb, Instr.guard]

theorem rem (g : BitVec 4) (u : Bool) (d : BitVec 6) (a b : Sel) : Statement (.rem g u d a b) :=
  of_fields rfl fun hw sl hs => by
    have hk := cls_s hs
    have ha := sel_of_wf hw (s := a) (by simp [Instr.srcs])
    have hb := sel_of_wf hw (s := b) (by simp [Instr.srcs])
    simp [decFields, hk, decS, dec2s, ha, hb, Instr.guard]

theorem and (g : BitVec 4) (d : BitVec 6) (a b : Sel) : Statement (.and g d a b) :=
  of_fields rfl fun hw sl hs => by
    have hk := cls_s hs
    have ha := sel_of_wf hw (s := a) (by simp [Instr.srcs])
    have hb := sel_of_wf hw (s := b) (by simp [Instr.srcs])
    simp [decFields, hk, decS, dec2, ha, hb, Instr.guard]

theorem or (g : BitVec 4) (d : BitVec 6) (a b : Sel) : Statement (.or g d a b) :=
  of_fields rfl fun hw sl hs => by
    have hk := cls_s hs
    have ha := sel_of_wf hw (s := a) (by simp [Instr.srcs])
    have hb := sel_of_wf hw (s := b) (by simp [Instr.srcs])
    simp [decFields, hk, decS, dec2, ha, hb, Instr.guard]

theorem xor (g : BitVec 4) (d : BitVec 6) (a b : Sel) : Statement (.xor g d a b) :=
  of_fields rfl fun hw sl hs => by
    have hk := cls_s hs
    have ha := sel_of_wf hw (s := a) (by simp [Instr.srcs])
    have hb := sel_of_wf hw (s := b) (by simp [Instr.srcs])
    simp [decFields, hk, decS, dec2, ha, hb, Instr.guard]

theorem shl (g : BitVec 4) (d : BitVec 6) (a b : Sel) : Statement (.shl g d a b) :=
  of_fields rfl fun hw sl hs => by
    have hk := cls_s hs
    have ha := sel_of_wf hw (s := a) (by simp [Instr.srcs])
    have hb := sel_of_wf hw (s := b) (by simp [Instr.srcs])
    simp [decFields, hk, decS, dec2, ha, hb, Instr.guard]

theorem shr (g : BitVec 4) (arith : Bool) (d : BitVec 6) (a b : Sel) : Statement (.shr g arith d a b) :=
  of_fields rfl fun hw sl hs => by
    have hk := cls_s hs
    have ha := sel_of_wf hw (s := a) (by simp [Instr.srcs])
    have hb := sel_of_wf hw (s := b) (by simp [Instr.srcs])
    simp [decFields, hk, decS, dec2s, ha, hb, Instr.guard]

theorem rot (g : BitVec 4) (d : BitVec 6) (a b : Sel) : Statement (.rot g d a b) :=
  of_fields rfl fun hw sl hs => by
    have hk := cls_s hs
    have ha := sel_of_wf hw (s := a) (by simp [Instr.srcs])
    have hb := sel_of_wf hw (s := b) (by simp [Instr.srcs])
    simp [decFields, hk, decS, dec2, ha, hb, Instr.guard]

theorem min (g : BitVec 4) (u : Bool) (d : BitVec 6) (a b : Sel) : Statement (.min g u d a b) :=
  of_fields rfl fun hw sl hs => by
    have hk := cls_s hs
    have ha := sel_of_wf hw (s := a) (by simp [Instr.srcs])
    have hb := sel_of_wf hw (s := b) (by simp [Instr.srcs])
    simp [decFields, hk, decS, dec2s, ha, hb, Instr.guard]

theorem max (g : BitVec 4) (u : Bool) (d : BitVec 6) (a b : Sel) : Statement (.max g u d a b) :=
  of_fields rfl fun hw sl hs => by
    have hk := cls_s hs
    have ha := sel_of_wf hw (s := a) (by simp [Instr.srcs])
    have hb := sel_of_wf hw (s := b) (by simp [Instr.srcs])
    simp [decFields, hk, decS, dec2s, ha, hb, Instr.guard]

theorem clz (g : BitVec 4) (d : BitVec 6) (a : Sel) : Statement (.clz g d a) :=
  of_fields rfl fun hw sl hs => by
    have hk := cls_s hs
    have ha := sel_of_wf hw (s := a) (by simp [Instr.srcs])
    simp [decFields, hk, decS, dec1, ha, Instr.guard]

theorem popc (g : BitVec 4) (d : BitVec 6) (a : Sel) : Statement (.popc g d a) :=
  of_fields rfl fun hw sl hs => by
    have hk := cls_s hs
    have ha := sel_of_wf hw (s := a) (by simp [Instr.srcs])
    simp [decFields, hk, decS, dec1, ha, Instr.guard]

theorem sel (g : BitVec 4) (d : BitVec 6) (c : BitVec 4) (a b : Sel) : Statement (.sel g d c a b) :=
  of_fields rfl fun hw sl hs => by
    have hk := cls_s hs
    have ha := sel_of_wf hw (s := a) (by simp [Instr.srcs])
    have hb := sel_of_wf hw (s := b) (by simp [Instr.srcs])
    simp [decFields, hk, decS, ha, hb, Instr.guard]

theorem cmp (g : BitVec 4) (c : Cond) (p : BitVec 3) (a b : Sel) : Statement (.cmp g c p a b) :=
  of_fields rfl fun hw sl hs => by
    have hk := cls_s hs
    have ha := sel_of_wf hw (s := a) (by simp [Instr.srcs])
    have hb := sel_of_wf hw (s := b) (by simp [Instr.srcs])
    simp [decFields, hk, decS, ha, hb, Instr.guard]

theorem li (g : BitVec 4) (d : BitVec 6) (a : Sel) : Statement (.li g d a) :=
  of_fields rfl fun hw sl hs => by
    have hk := cls_s hs
    have ha := sel_of_wf hw (s := a) (by simp [Instr.srcs])
    simp [decFields, hk, decS, dec1, ha, Instr.guard]

theorem lea (g : BitVec 4) (d : BitVec 6) (a b : Sel) (sh : BitVec 6) : Statement (.lea g d a b sh) :=
  of_fields rfl fun hw sl hs => by
    have hk := cls_s hs
    have ha := sel_of_wf hw (s := a) (by simp [Instr.srcs])
    have hb := sel_of_wf hw (s := b) (by simp [Instr.srcs])
    simp [decFields, hk, decS, ha, hb, Instr.guard]

theorem ld (g : BitVec 4) (sz : BitVec 2) (acq : Bool) (d base : BitVec 6) (arr : BitVec 12) (off : Off)
    : Statement (.ld g sz acq d base arr off) :=
  of_fields rfl fun hw sl hs => by
    have hk := cls_s hs
    cases off with
    | short o =>
        have hx : Instr.ext? (.ld g sz acq d base arr (.short o)) = none := by
          rfl
        simp [decFields, hk, decS, hx, Off.code, Instr.guard]
    | ext v =>
        have hx := ext_of_wf hw (v := v) (by simp [Instr.exts])
        simp [decFields, hk, decS, hx, Off.code, Instr.guard]

theorem st (g : BitVec 4) (sz : BitVec 2) (rel : Bool) (d base : BitVec 6) (off : Off)
    : Statement (.st g sz rel d base off) :=
  of_fields rfl fun hw sl hs => by
    have hk := cls_s hs
    cases off with
    | short o =>
        have hx : Instr.ext? (.st g sz rel d base (.short o)) = none := by
          rfl
        simp [decFields, hk, decS, hx, Off.code, Instr.guard]
    | ext v =>
        have hx := ext_of_wf hw (v := v) (by simp [Instr.exts])
        simp [decFields, hk, decS, hx, Off.code, Instr.guard]

theorem mfs (g : BitVec 4) (d : BitVec 6) (n : BitVec 16) : Statement (.mfs g d n) :=
  of_fields rfl fun hw sl hs => by
    have hk := cls_s hs
    simp [decFields, hk, decS, Instr.guard]

theorem mts (g : BitVec 4) (n : BitVec 16) (a : Sel) : Statement (.mts g n a) :=
  of_fields rfl fun hw sl hs => by
    have hk := cls_s hs
    have ha := sel_of_wf hw (s := a) (by simp [Instr.srcs])
    simp [decFields, hk, decS, ha, Instr.guard]

theorem br (g : BitVec 4) (d : BitVec 6) (disp : BitVec 32) : Statement (.br g d disp) :=
  of_fields rfl fun hw sl hs => by
    have hk := cls_s1 hs
    simp [decFields, hk, decS1, Instr.guard]

theorem bri (g : BitVec 4) (d a : BitVec 6) : Statement (.bri g d a) :=
  of_fields rfl fun hw sl hs => by
    have hk := cls_s1 hs
    simp [decFields, hk, decS1, Instr.guard]

theorem call (g : BitVec 4) (disp : BitVec 32) : Statement (.call g disp) :=
  of_fields rfl fun hw sl hs => by
    have hk := cls_s1 hs
    simp [decFields, hk, decS1, Instr.guard]

theorem calli (g : BitVec 4) (a : BitVec 6) : Statement (.calli g a) :=
  of_fields rfl fun hw sl hs => by
    have hk := cls_s1 hs
    simp [decFields, hk, decS1, Instr.guard]

theorem ret (g : BitVec 4) (a : BitVec 6) : Statement (.ret g a) :=
  of_fields rfl fun hw sl hs => by
    have hk := cls_s1 hs
    simp [decFields, hk, decS1, Instr.guard]

theorem handback (g : BitVec 4) : Statement (.handback g) :=
  of_fields rfl fun hw sl hs => by
    have hk := cls_s1 hs
    simp [decFields, hk, decS1, dec0, Instr.guard]

theorem tailend (g : BitVec 4) : Statement (.tailend g) :=
  of_fields rfl fun hw sl hs => by
    have hk := cls_s1 hs
    simp [decFields, hk, decS1, dec0, Instr.guard]

theorem jointail (g : BitVec 4) (p : BitVec 3) : Statement (.jointail g p) :=
  of_fields rfl fun hw sl hs => by
    have hk := cls_s1 hs
    simp [decFields, hk, decS1, Instr.guard]

theorem loop (g : BitVec 4) (d : BitVec 6) (disp : BitVec 32) : Statement (.loop g d disp) :=
  of_fields rfl fun hw sl hs => by
    have hk := cls_s1 hs
    simp [decFields, hk, decS1, Instr.guard]

theorem trap (g : BitVec 4) (a : Sel) : Statement (.trap g a) :=
  of_fields rfl fun hw sl hs => by
    have hk := cls_s1 hs
    have ha := sel_of_wf hw (s := a) (by simp [Instr.srcs])
    simp [decFields, hk, decS1, ha, Instr.guard]

theorem eret (g : BitVec 4) : Statement (.eret g) :=
  of_fields rfl fun hw sl hs => by
    have hk := cls_s1 hs
    simp [decFields, hk, decS1, dec0, Instr.guard]

theorem halt (g : BitVec 4) : Statement (.halt g) :=
  of_fields rfl fun hw sl hs => by
    have hk := cls_s1 hs
    simp [decFields, hk, decS1, dec0, Instr.guard]

theorem fuse (g : BitVec 4) (n : BitVec 6) : Statement (.fuse g n) :=
  of_fields rfl fun hw sl hs => by
    have hk := cls_s1 hs
    simp [decFields, hk, decS1, Instr.guard]

theorem decouple (g : BitVec 4) : Statement (.decouple g) :=
  of_fields rfl fun hw sl hs => by
    have hk := cls_s1 hs
    simp [decFields, hk, decS1, dec0, Instr.guard]

theorem rejoin (g : BitVec 4) : Statement (.rejoin g) :=
  of_fields rfl fun hw sl hs => by
    have hk := cls_s1 hs
    simp [decFields, hk, decS1, dec0, Instr.guard]

theorem rent (g : BitVec 4) (tier kind : BitVec 2) (ls rlt : Bool) (spread : BitVec 2) (d : BitVec 6) (p : BitVec 3) (a b c : Sel)
    : Statement (.rent g tier kind ls rlt spread d p a b c) :=
  of_fields rfl fun hw sl hs => by
    have hk := cls_s0 hs
    have ha := sel_of_wf hw (s := a) (by simp [Instr.srcs])
    have hb := sel_of_wf hw (s := b) (by simp [Instr.srcs])
    have hc := sel_of_wf hw (s := c) (by simp [Instr.srcs])
    simp [decFields, hk, decS0, ha, hb, hc, Instr.guard]

theorem renew (g : BitVec 4) (d : BitVec 6) (p : BitVec 3) (a b : Sel) : Statement (.renew g d p a b) :=
  of_fields rfl fun hw sl hs => by
    have hk := cls_s0 hs
    have ha := sel_of_wf hw (s := a) (by simp [Instr.srcs])
    have hb := sel_of_wf hw (s := b) (by simp [Instr.srcs])
    simp [decFields, hk, decS0, ha, hb, Instr.guard]

theorem prepay (g : BitVec 4) (d : BitVec 6) (p : BitVec 3) (a b c : Sel) : Statement (.prepay g d p a b c) :=
  of_fields rfl fun hw sl hs => by
    have hk := cls_s0 hs
    have ha := sel_of_wf hw (s := a) (by simp [Instr.srcs])
    have hb := sel_of_wf hw (s := b) (by simp [Instr.srcs])
    have hc := sel_of_wf hw (s := c) (by simp [Instr.srcs])
    simp [decFields, hk, decS0, ha, hb, hc, Instr.guard]

theorem sublet (g : BitVec 4) (l : Bool) (gr : BitVec 6) (d : BitVec 6) (p : BitVec 3) (a b c : Sel)
    : Statement (.sublet g l gr d p a b c) :=
  of_fields rfl fun hw sl hs => by
    have hk := cls_s0 hs
    have ha := sel_of_wf hw (s := a) (by simp [Instr.srcs])
    have hb := sel_of_wf hw (s := b) (by simp [Instr.srcs])
    have hc := sel_of_wf hw (s := c) (by simp [Instr.srcs])
    simp [decFields, hk, decS0, ha, hb, hc, Instr.guard]

theorem vacate (g : BitVec 4) (subs : Bool) (d : BitVec 6) (a : Sel) : Statement (.vacate g subs d a) :=
  of_fields rfl fun hw sl hs => by
    have hk := cls_s0 hs
    have ha := sel_of_wf hw (s := a) (by simp [Instr.srcs])
    simp [decFields, hk, decS0, ha, Instr.guard]

theorem handover (g : BitVec 4) (d : BitVec 6) (p : BitVec 3) (a b : Sel) : Statement (.handover g d p a b) :=
  of_fields rfl fun hw sl hs => by
    have hk := cls_s0 hs
    have ha := sel_of_wf hw (s := a) (by simp [Instr.srcs])
    have hb := sel_of_wf hw (s := b) (by simp [Instr.srcs])
    simp [decFields, hk, decS0, ha, hb, Instr.guard]

theorem lease (g : BitVec 4) (d : BitVec 6) (a : Sel) : Statement (.lease g d a) :=
  of_fields rfl fun hw sl hs => by
    have hk := cls_s0 hs
    have ha := sel_of_wf hw (s := a) (by simp [Instr.srcs])
    simp [decFields, hk, decS0, dec1, ha, Instr.guard]

theorem barinit (g : BitVec 4) (sc : Scope) (p : BitVec 3) (a b c : Sel) : Statement (.barinit g sc p a b c) :=
  of_fields rfl fun hw sl hs => by
    have hk := cls_s0 hs
    have ha := sel_of_wf hw (s := a) (by simp [Instr.srcs])
    have hb := sel_of_wf hw (s := b) (by simp [Instr.srcs])
    have hc := sel_of_wf hw (s := c) (by simp [Instr.srcs])
    simp [decFields, hk, decS0, ha, hb, hc, Instr.guard]

theorem barbase (g : BitVec 4) (sc : Scope) (a b : Sel) : Statement (.barbase g sc a b) :=
  of_fields rfl fun hw sl hs => by
    have hk := cls_s0 hs
    have ha := sel_of_wf hw (s := a) (by simp [Instr.srcs])
    have hb := sel_of_wf hw (s := b) (by simp [Instr.srcs])
    simp [decFields, hk, decS0, ha, hb, Instr.guard]

theorem arrive (g : BitVec 4) (sc : Scope) (a : Sel) : Statement (.arrive g sc a) :=
  of_fields rfl fun hw sl hs => by
    have hk := cls_s0 hs
    have ha := sel_of_wf hw (s := a) (by simp [Instr.srcs])
    simp [decFields, hk, decS0, ha, Instr.guard]

theorem wait (g : BitVec 4) (sc : Scope) (p : BitVec 3) (a : Sel) : Statement (.wait g sc p a) :=
  of_fields rfl fun hw sl hs => by
    have hk := cls_s0 hs
    have ha := sel_of_wf hw (s := a) (by simp [Instr.srcs])
    simp [decFields, hk, decS0, ha, Instr.guard]

theorem watch (g : BitVec 4) (p : BitVec 3) (w : WatchOf) (b : Sel) : Statement (.watch g p w b) := by
  cases w with
  | mem c a =>
      exact of_fields rfl fun hw sl hs => by
        have hk := cls_s0 hs
        have ha := sel_of_wf hw (s := a) (by simp [Instr.srcs])
        have hb := sel_of_wf hw (s := b) (by simp [Instr.srcs])
        simp [decFields, hk, decS0, ha, hb, Instr.guard]
  | chan ch =>
      exact of_fields rfl fun hw sl hs => by
        have hk := cls_s0 hs
        have hb := sel_of_wf hw (s := b) (by simp [Instr.srcs])
        simp [decFields, hk, decS0, hb, Instr.guard]

theorem fence (g : BitVec 4) (sc : Scope) (kinds : BitVec 3) (dir : BitVec 2)
    : Statement (.fence g sc kinds dir) :=
  of_fields rfl fun hw sl hs => by
    have hk := cls_s0 hs
    simp [decFields, hk, decS0, Instr.guard]

theorem vadd (g : BitVec 4) (t : Ty) (rc : Rc) (sat : Bool) (d : VDst) (a b : Sel)
    : Statement (.vadd g t rc sat d a b) :=
  of_fields rfl fun hw sl hs => by
    have hk := cls_v hs
    have ha := sel_of_wf hw (s := a) (by simp [Instr.srcs])
    have hb := sel_of_wf hw (s := b) (by simp [Instr.srcs])
    simp [decFields, hk, decV, decVArith, ha, hb, Instr.guard]

theorem vsub (g : BitVec 4) (t : Ty) (rc : Rc) (sat : Bool) (d : VDst) (a b : Sel)
    : Statement (.vsub g t rc sat d a b) :=
  of_fields rfl fun hw sl hs => by
    have hk := cls_v hs
    have ha := sel_of_wf hw (s := a) (by simp [Instr.srcs])
    have hb := sel_of_wf hw (s := b) (by simp [Instr.srcs])
    simp [decFields, hk, decV, decVArith, ha, hb, Instr.guard]

theorem vmul (g : BitVec 4) (t : Ty) (rc : Rc) (sat : Bool) (d : VDst) (a b : Sel)
    : Statement (.vmul g t rc sat d a b) :=
  of_fields rfl fun hw sl hs => by
    have hk := cls_v hs
    have ha := sel_of_wf hw (s := a) (by simp [Instr.srcs])
    have hb := sel_of_wf hw (s := b) (by simp [Instr.srcs])
    simp [decFields, hk, decV, decVArith, ha, hb, Instr.guard]

theorem vfma (g : BitVec 4) (t : Ty) (rc : Rc) (np nc : Bool) (d : VDst) (a b c : Sel)
    : Statement (.vfma g t rc np nc d a b c) :=
  of_fields rfl fun hw sl hs => by
    have hk := cls_v hs
    have ha := sel_of_wf hw (s := a) (by simp [Instr.srcs])
    have hb := sel_of_wf hw (s := b) (by simp [Instr.srcs])
    have hc := sel_of_wf hw (s := c) (by simp [Instr.srcs])
    simp [decFields, hk, decV, ha, hb, hc, Instr.guard]

theorem vmin (g : BitVec 4) (t : Ty) (d : VDst) (a b : Sel) : Statement (.vmin g t d a b) :=
  of_fields rfl fun hw sl hs => by
    have hk := cls_v hs
    have ha := sel_of_wf hw (s := a) (by simp [Instr.srcs])
    have hb := sel_of_wf hw (s := b) (by simp [Instr.srcs])
    simp [decFields, hk, decV, decV2, ha, hb, Instr.guard]

theorem vmax (g : BitVec 4) (t : Ty) (d : VDst) (a b : Sel) : Statement (.vmax g t d a b) :=
  of_fields rfl fun hw sl hs => by
    have hk := cls_v hs
    have ha := sel_of_wf hw (s := a) (by simp [Instr.srcs])
    have hb := sel_of_wf hw (s := b) (by simp [Instr.srcs])
    simp [decFields, hk, decV, decV2, ha, hb, Instr.guard]

theorem vabs (g : BitVec 4) (t : Ty) (sat : Bool) (d : VDst) (a : Sel) : Statement (.vabs g t sat d a) :=
  of_fields rfl fun hw sl hs => by
    have hk := cls_v hs
    have ha := sel_of_wf hw (s := a) (by simp [Instr.srcs])
    simp [decFields, hk, decV, ha, Instr.guard]

theorem vand (g : BitVec 4) (t : Ty) (d : VDst) (a b : Sel) : Statement (.vand g t d a b) :=
  of_fields rfl fun hw sl hs => by
    have hk := cls_v hs
    have ha := sel_of_wf hw (s := a) (by simp [Instr.srcs])
    have hb := sel_of_wf hw (s := b) (by simp [Instr.srcs])
    simp [decFields, hk, decV, decV2, ha, hb, Instr.guard]

theorem vor (g : BitVec 4) (t : Ty) (d : VDst) (a b : Sel) : Statement (.vor g t d a b) :=
  of_fields rfl fun hw sl hs => by
    have hk := cls_v hs
    have ha := sel_of_wf hw (s := a) (by simp [Instr.srcs])
    have hb := sel_of_wf hw (s := b) (by simp [Instr.srcs])
    simp [decFields, hk, decV, decV2, ha, hb, Instr.guard]

theorem vxor (g : BitVec 4) (t : Ty) (d : VDst) (a b : Sel) : Statement (.vxor g t d a b) :=
  of_fields rfl fun hw sl hs => by
    have hk := cls_v hs
    have ha := sel_of_wf hw (s := a) (by simp [Instr.srcs])
    have hb := sel_of_wf hw (s := b) (by simp [Instr.srcs])
    simp [decFields, hk, decV, decV2, ha, hb, Instr.guard]

theorem vshl (g : BitVec 4) (t : Ty) (d : VDst) (a b : Sel) : Statement (.vshl g t d a b) :=
  of_fields rfl fun hw sl hs => by
    have hk := cls_v hs
    have ha := sel_of_wf hw (s := a) (by simp [Instr.srcs])
    have hb := sel_of_wf hw (s := b) (by simp [Instr.srcs])
    simp [decFields, hk, decV, decV2, ha, hb, Instr.guard]

theorem vshr (g : BitVec 4) (t : Ty) (d : VDst) (a b : Sel) : Statement (.vshr g t d a b) :=
  of_fields rfl fun hw sl hs => by
    have hk := cls_v hs
    have ha := sel_of_wf hw (s := a) (by simp [Instr.srcs])
    have hb := sel_of_wf hw (s := b) (by simp [Instr.srcs])
    simp [decFields, hk, decV, decV2, ha, hb, Instr.guard]

theorem vcmp (g : BitVec 4) (t : Ty) (c : Cond) (p : BitVec 3) (a b : Sel) : Statement (.vcmp g t c p a b) :=
  of_fields rfl fun hw sl hs => by
    have hk := cls_v hs
    have ha := sel_of_wf hw (s := a) (by simp [Instr.srcs])
    have hb := sel_of_wf hw (s := b) (by simp [Instr.srcs])
    simp [decFields, hk, decV, ha, hb, Instr.guard]

theorem vsel (g : BitVec 4) (t : Ty) (d : VDst) (c : BitVec 4) (a b : Sel) : Statement (.vsel g t d c a b) :=
  of_fields rfl fun hw sl hs => by
    have hk := cls_v hs
    have ha := sel_of_wf hw (s := a) (by simp [Instr.srcs])
    have hb := sel_of_wf hw (s := b) (by simp [Instr.srcs])
    simp [decFields, hk, decV, ha, hb, Instr.guard]

theorem vmov (g : BitVec 4) (t : Ty) (d : VDst) (a : Sel) : Statement (.vmov g t d a) :=
  of_fields rfl fun hw sl hs => by
    have hk := cls_v hs
    have ha := sel_of_wf hw (s := a) (by simp [Instr.srcs])
    simp [decFields, hk, decV, decV1, ha, Instr.guard]

theorem vcvt (g : BitVec 4) (t u : Ty) (rc : Rc) (ns : Bool) (d : VDst) (a : Sel)
    : Statement (.vcvt g t u rc ns d a) :=
  of_fields rfl fun hw sl hs => by
    have hk := cls_v hs
    have ha := sel_of_wf hw (s := a) (by simp [Instr.srcs])
    simp [decFields, hk, decV, ha, Instr.guard]

theorem vblkmax (g : BitVec 4) (t : Ty) (d : VDst) (a : Sel) : Statement (.vblkmax g t d a) :=
  of_fields rfl fun hw sl hs => by
    have hk := cls_v hs
    have ha := sel_of_wf hw (s := a) (by simp [Instr.srcs])
    simp [decFields, hk, decV, decV1, ha, Instr.guard]

theorem vscale (g : BitVec 4) (u : Ty) (d : VDst) (a b : Sel) : Statement (.vscale g u d a b) :=
  of_fields rfl fun hw sl hs => by
    have hk := cls_v hs
    have ha := sel_of_wf hw (s := a) (by simp [Instr.srcs])
    have hb := sel_of_wf hw (s := b) (by simp [Instr.srcs])
    simp [decFields, hk, decV, ha, hb, Instr.guard]

theorem vquant (g : BitVec 4) (t u : Ty) (rc : Rc) (ns : Bool) (d : VDst) (a b : Sel)
    : Statement (.vquant g t u rc ns d a b) :=
  of_fields rfl fun hw sl hs => by
    have hk := cls_v hs
    have ha := sel_of_wf hw (s := a) (by simp [Instr.srcs])
    have hb := sel_of_wf hw (s := b) (by simp [Instr.srcs])
    simp [decFields, hk, decV, ha, hb, Instr.guard]

theorem vrsqe (g : BitVec 4) (d : VDst) (a : Sel) : Statement (.vrsqe g d a) :=
  of_fields rfl fun hw sl hs => by
    have hk := cls_v hs
    have ha := sel_of_wf hw (s := a) (by simp [Instr.srcs])
    simp [decFields, hk, decV, decF32, ha, Instr.guard]

theorem vrcpe (g : BitVec 4) (d : VDst) (a : Sel) : Statement (.vrcpe g d a) :=
  of_fields rfl fun hw sl hs => by
    have hk := cls_v hs
    have ha := sel_of_wf hw (s := a) (by simp [Instr.srcs])
    simp [decFields, hk, decV, decF32, ha, Instr.guard]

theorem vexp2 (g : BitVec 4) (rc : Rc) (d : VDst) (a : Sel) : Statement (.vexp2 g rc d a) :=
  of_fields rfl fun hw sl hs => by
    have hk := cls_v hs
    have ha := sel_of_wf hw (s := a) (by simp [Instr.srcs])
    simp [decFields, hk, decV, decF32, ha, Instr.guard]

theorem vlog2 (g : BitVec 4) (rc : Rc) (d : VDst) (a : Sel) : Statement (.vlog2 g rc d a) :=
  of_fields rfl fun hw sl hs => by
    have hk := cls_v hs
    have ha := sel_of_wf hw (s := a) (by simp [Instr.srcs])
    simp [decFields, hk, decV, decF32, ha, Instr.guard]

theorem vredsum (g : BitVec 4) (t : Ty) (rc : Rc) (w : Bool) (d : VDst) (a : Sel)
    : Statement (.vredsum g t rc w d a) :=
  of_fields rfl fun hw sl hs => by
    have hk := cls_v hs
    have ha := sel_of_wf hw (s := a) (by simp [Instr.srcs])
    simp [decFields, hk, decV, ha, Instr.guard]

theorem vredmax (g : BitVec 4) (t : Ty) (d : VDst) (a : Sel) : Statement (.vredmax g t d a) :=
  of_fields rfl fun hw sl hs => by
    have hk := cls_v hs
    have ha := sel_of_wf hw (s := a) (by simp [Instr.srcs])
    simp [decFields, hk, decV, decV1, ha, Instr.guard]

theorem vperm (g : BitVec 4) (t : Ty) (d : VDst) (a b : Sel) : Statement (.vperm g t d a b) :=
  of_fields rfl fun hw sl hs => by
    have hk := cls_v hs
    have ha := sel_of_wf hw (s := a) (by simp [Instr.srcs])
    have hb := sel_of_wf hw (s := b) (by simp [Instr.srcs])
    simp [decFields, hk, decV, decV2, ha, hb, Instr.guard]

theorem vrot (g : BitVec 4) (t : Ty) (d : VDst) (a b : Sel) : Statement (.vrot g t d a b) :=
  of_fields rfl fun hw sl hs => by
    have hk := cls_v hs
    have ha := sel_of_wf hw (s := a) (by simp [Instr.srcs])
    have hb := sel_of_wf hw (s := b) (by simp [Instr.srcs])
    simp [decFields, hk, decV, decV2, ha, hb, Instr.guard]

theorem vidx (g : BitVec 4) (t : Ty) (d : VDst) : Statement (.vidx g t d) :=
  of_fields rfl fun hw sl hs => by
    have hk := cls_v hs
    simp [decFields, hk, decV, Instr.guard]

theorem vtopk (g : BitVec 4) (t : Ty) (k : BitVec 7) (init : Bool) (d : BitVec 6) (c : BitVec 4) (a b : Sel)
    : Statement (.vtopk g t k init d c a b) :=
  of_fields rfl fun hw sl hs => by
    have hk := cls_v hs
    have ha := sel_of_wf hw (s := a) (by simp [Instr.srcs])
    have hb := sel_of_wf hw (s := b) (by simp [Instr.srcs])
    simp [decFields, hk, decV, ha, hb, Instr.guard]

theorem vdot4 (g : BitVec 4) (t : Ty) (rc : Rc) (d : VDst) (a b c : Sel) : Statement (.vdot4 g t rc d a b c) :=
  of_fields rfl fun hw sl hs => by
    have hk := cls_v hs
    have ha := sel_of_wf hw (s := a) (by simp [Instr.srcs])
    have hb := sel_of_wf hw (s := b) (by simp [Instr.srcs])
    have hc := sel_of_wf hw (s := c) (by simp [Instr.srcs])
    simp [decFields, hk, decV, ha, hb, hc, Instr.guard]

theorem vmulh (g : BitVec 4) (t : Ty) (d : VDst) (a b : Sel) : Statement (.vmulh g t d a b) :=
  of_fields rfl fun hw sl hs => by
    have hk := cls_v hs
    have ha := sel_of_wf hw (s := a) (by simp [Instr.srcs])
    have hb := sel_of_wf hw (s := b) (by simp [Instr.srcs])
    simp [decFields, hk, decV, decV2, ha, hb, Instr.guard]

theorem vclamp (g : BitVec 4) (t : Ty) (d : VDst) (a b c : Sel) : Statement (.vclamp g t d a b c) :=
  of_fields rfl fun hw sl hs => by
    have hk := cls_v hs
    have ha := sel_of_wf hw (s := a) (by simp [Instr.srcs])
    have hb := sel_of_wf hw (s := b) (by simp [Instr.srcs])
    have hc := sel_of_wf hw (s := c) (by simp [Instr.srcs])
    simp [decFields, hk, decV, ha, hb, hc, Instr.guard]

theorem vrnd (g : BitVec 4) (t : Ty) (rc : Rc) (d : VDst) (a : Sel) : Statement (.vrnd g t rc d a) :=
  of_fields rfl fun hw sl hs => by
    have hk := cls_v hs
    have ha := sel_of_wf hw (s := a) (by simp [Instr.srcs])
    simp [decFields, hk, decV, ha, Instr.guard]

theorem vclass (g : BitVec 4) (t : Ty) (d : VDst) (a : Sel) : Statement (.vclass g t d a) :=
  of_fields rfl fun hw sl hs => by
    have hk := cls_v hs
    have ha := sel_of_wf hw (s := a) (by simp [Instr.srcs])
    simp [decFields, hk, decV, decV1, ha, Instr.guard]

theorem vpack (g : BitVec 4) (t : Ty) (sat : Bool) (d : VDst) (a b : Sel) : Statement (.vpack g t sat d a b) :=
  of_fields rfl fun hw sl hs => by
    have hk := cls_v hs
    have ha := sel_of_wf hw (s := a) (by simp [Instr.srcs])
    have hb := sel_of_wf hw (s := b) (by simp [Instr.srcs])
    simp [decFields, hk, decV, ha, hb, Instr.guard]

theorem vunpack (g : BitVec 4) (t : Ty) (hi : Bool) (d : VDst) (a : Sel) : Statement (.vunpack g t hi d a) :=
  of_fields rfl fun hw sl hs => by
    have hk := cls_v hs
    have ha := sel_of_wf hw (s := a) (by simp [Instr.srcs])
    simp [decFields, hk, decV, ha, Instr.guard]

theorem pand (g : BitVec 4) (na nb : Bool) (d a b : BitVec 4) : Statement (.pand g na nb d a b) :=
  of_fields rfl fun hw sl hs => by
    have hk := cls_v hs
    simp [decFields, hk, decV, decP, Instr.guard]

theorem por (g : BitVec 4) (na nb : Bool) (d a b : BitVec 4) : Statement (.por g na nb d a b) :=
  of_fields rfl fun hw sl hs => by
    have hk := cls_v hs
    simp [decFields, hk, decV, decP, Instr.guard]

theorem pxor (g : BitVec 4) (na nb : Bool) (d a b : BitVec 4) : Statement (.pxor g na nb d a b) :=
  of_fields rfl fun hw sl hs => by
    have hk := cls_v hs
    simp [decFields, hk, decV, decP, Instr.guard]

theorem pcnt (g : BitVec 4) (t : Ty) (d : BitVec 6) (a : BitVec 4) : Statement (.pcnt g t d a) :=
  of_fields rfl fun hw sl hs => by
    have hk := cls_v hs
    simp [decFields, hk, decV, Instr.guard]

theorem vld (g : BitVec 4) (acq : Bool) (d base : BitVec 6) (arr : BitVec 12) (off : Off)
    : Statement (.vld g acq d base arr off) :=
  of_fields rfl fun hw sl hs => by
    have hk := cls_v hs
    cases off with
    | short o =>
        have hx : Instr.ext? (.vld g acq d base arr (.short o)) = none := by
          rfl
        simp [decFields, hk, decV, hx, Off.code, Instr.guard]
    | ext v =>
        have hx := ext_of_wf hw (v := v) (by simp [Instr.exts])
        simp [decFields, hk, decV, hx, Off.code, Instr.guard]

theorem vldx (g : BitVec 4) (t : Ty) (d base : BitVec 6) (arr : BitVec 12) (xv : BitVec 6) (off : OffX)
    : Statement (.vldx g t d base arr xv off) :=
  of_fields rfl fun hw sl hs => by
    have hk := cls_v hs
    cases off with
    | short o =>
        have hx : Instr.ext? (.vldx g t d base arr xv (.short o)) = none := by
          rfl
        simp [decFields, hk, decV, hx, OffX.code, Instr.guard]
    | ext v =>
        have hx := ext_of_wf hw (v := v) (by simp [Instr.exts])
        simp [decFields, hk, decV, hx, OffX.code, Instr.guard]

theorem vst (g : BitVec 4) (rel : Bool) (d : Sel) (base : BitVec 6) (off : Off)
    : Statement (.vst g rel d base off) :=
  of_fields rfl fun hw sl hs => by
    have hk := cls_v hs
    have hn : ∀ v, d ≠ .ext v := by
      rintro v rfl
      have h := check_of_wf hw
      simp only [Instr.checkFields] at h
      cases h
    have hd := data_of_wf hw (s := d) (by simp [Instr.srcs]) hn
    cases off with
    | short o =>
        have hx : Instr.ext? (.vst g rel d base (.short o)) = none := by
          cases d with
          | ext v => exact absurd rfl (hn v)
          | reg _ | latch _ | bc | imm _ => rfl
        simp [decFields, hk, decV, hd, hx, Off.code, Instr.guard]
    | ext v =>
        have hx := ext_of_wf hw (v := v) (by simp [Instr.exts])
        simp [decFields, hk, decV, hd, hx, Off.code, Instr.guard]

theorem vstx (g : BitVec 4) (t : Ty) (d : Sel) (base : BitVec 6) (xv : BitVec 6) (off : OffX)
    : Statement (.vstx g t d base xv off) :=
  of_fields rfl fun hw sl hs => by
    have hk := cls_v hs
    have hn : ∀ v, d ≠ .ext v := by
      rintro v rfl
      have h := check_of_wf hw
      simp only [Instr.checkFields] at h
      split at h <;> cases h
    have hd := data_of_wf hw (s := d) (by simp [Instr.srcs]) hn
    cases off with
    | short o =>
        have hx : Instr.ext? (.vstx g t d base xv (.short o)) = none := by
          cases d with
          | ext v => exact absurd rfl (hn v)
          | reg _ | latch _ | bc | imm _ => rfl
        simp [decFields, hk, decV, hd, hx, OffX.code, Instr.guard]
    | ext v =>
        have hx := ext_of_wf hw (v := v) (by simp [Instr.exts])
        simp [decFields, hk, decV, hd, hx, OffX.code, Instr.guard]

theorem tld (g : BitVec 4) (d : BitVec 3) (a : BitVec 6) (b : Sel) : Statement (.tld g d a b) :=
  of_fields rfl fun hw sl hs => by
    have hk := cls_t hs
    have hb := sel_of_wf hw (s := b) (by simp [Instr.srcs])
    simp [decFields, hk, decT, hb, Instr.guard]

theorem tst (g : BitVec 4) (d : BitVec 3) (a : BitVec 6) (b : Sel) : Statement (.tst g d a b) :=
  of_fields rfl fun hw sl hs => by
    have hk := cls_t hs
    have hb := sel_of_wf hw (s := b) (by simp [Instr.srcs])
    simp [decFields, hk, decT, hb, Instr.guard]

theorem trd (g : BitVec 4) (t : BitVec 3) (d : BitVec 6) (b : Sel) : Statement (.trd g t d b) :=
  of_fields rfl fun hw sl hs => by
    have hk := cls_t hs
    have hb := sel_of_wf hw (s := b) (by simp [Instr.srcs])
    simp [decFields, hk, decT, hb, Instr.guard]

theorem twr (g : BitVec 4) (d : BitVec 3) (a : BitVec 6) (b : Sel) : Statement (.twr g d a b) :=
  of_fields rfl fun hw sl hs => by
    have hk := cls_t hs
    have hb := sel_of_wf hw (s := b) (by simp [Instr.srcs])
    simp [decFields, hk, decT, hb, Instr.guard]

theorem ttr (g : BitVec 4) (t : Ty) (d s : BitVec 3) : Statement (.ttr g t d s) :=
  of_fields rfl fun hw sl hs => by
    have hk := cls_t hs
    simp [decFields, hk, decT, Instr.guard]

theorem tmask (g : BitVec 4) (t : Ty) (mode : BitVec 2) (d : BitVec 3) (a b c : Sel)
    : Statement (.tmask g t mode d a b c) :=
  of_fields rfl fun hw sl hs => by
    have hk := cls_t hs
    have ha := sel_of_wf hw (s := a) (by simp [Instr.srcs])
    have hb := sel_of_wf hw (s := b) (by simp [Instr.srcs])
    have hc := sel_of_wf hw (s := c) (by simp [Instr.srcs])
    simp [decFields, hk, decT, ha, hb, hc, Instr.guard]

theorem trmax (g : BitVec 4) (t : Ty) (s : BitVec 3) (d : BitVec 6) : Statement (.trmax g t s d) :=
  of_fields rfl fun hw sl hs => by
    have hk := cls_t hs
    simp [decFields, hk, decT, Instr.guard]

theorem trsum (g : BitVec 4) (t : Ty) (rc : Rc) (s : BitVec 3) (d : BitVec 6) : Statement (.trsum g t rc s d) :=
  of_fields rfl fun hw sl hs => by
    have hk := cls_t hs
    simp [decFields, hk, decT, Instr.guard]

theorem texp (g : BitVec 4) (t : Ty) (rc : Rc) (d s : BitVec 3) (b : BitVec 6)
    : Statement (.texp g t rc d s b) :=
  of_fields rfl fun hw sl hs => by
    have hk := cls_t hs
    simp [decFields, hk, decT, Instr.guard]

theorem trscl (g : BitVec 4) (t : Ty) (rc : Rc) (d s : BitVec 3) (b : BitVec 6)
    : Statement (.trscl g t rc d s b) :=
  of_fields rfl fun hw sl hs => by
    have hk := cls_t hs
    simp [decFields, hk, decT, Instr.guard]

theorem tcvt (g : BitVec 4) (t u : Ty) (rc : Rc) (ns : Bool) (d s : BitVec 3)
    : Statement (.tcvt g t u rc ns d s) :=
  of_fields rfl fun hw sl hs => by
    have hk := cls_t hs
    simp [decFields, hk, decT, Instr.guard]

theorem twait (g : BitVec 4) (tm : BitVec 8) (am : BitVec 16) : Statement (.twait g tm am) :=
  of_fields rfl fun hw sl hs => by
    have hk := cls_t hs
    simp [decFields, hk, decT, Instr.guard]

theorem tzero (g : BitVec 4) (d : BitVec 3) : Statement (.tzero g d) :=
  of_fields rfl fun hw sl hs => by
    have hk := cls_t hs
    simp [decFields, hk, decT, Instr.guard]

theorem mma (g : BitVec 4) (f : MFmt) (acc : BitVec 4) (a b : MOp) (m8 n16 : BitVec 8) (k16 : BitVec 12) (pa pb z : Bool)
    : Statement (.mma g f acc a b m8 n16 k16 pa pb z) :=
  of_fields rfl fun hw sl hs => by
    have hk := cls_m hs
    simp [decFields, hk, decM, encFMX, Instr.guard]

theorem mmag (g : BitVec 4) (f : MFmt) (acc : BitVec 4) (a b : MOp) (m8 n16 : BitVec 8) (k16 : BitVec 12) (pa pb z : Bool)
    : Statement (.mmag g f acc a b m8 n16 k16 pa pb z) :=
  of_fields rfl fun hw sl hs => by
    have hk := cls_m hs
    simp [decFields, hk, decM, encFMX, Instr.guard]

theorem accdef (g : BitVec 4) (i32 : Bool) (n : BitVec 4) (a b c : Sel) : Statement (.accdef g i32 n a b c) :=
  of_fields rfl fun hw sl hs => by
    have hk := cls_m hs
    have ha := sel_of_wf hw (s := a) (by simp [Instr.srcs])
    have hb := sel_of_wf hw (s := b) (by simp [Instr.srcs])
    have hc := sel_of_wf hw (s := c) (by simp [Instr.srcs])
    simp [decFields, hk, decM, ha, hb, hc, Instr.guard]

theorem accz (g : BitVec 4) (n : BitVec 4) : Statement (.accz g n) :=
  of_fields rfl fun hw sl hs => by
    have hk := cls_m hs
    simp [decFields, hk, decM, Instr.guard]

theorem accld (g : BitVec 4) (t : Ty) (n : BitVec 4) (a b : Sel) : Statement (.accld g t n a b) :=
  of_fields rfl fun hw sl hs => by
    have hk := cls_m hs
    have ha := sel_of_wf hw (s := a) (by simp [Instr.srcs])
    have hb := sel_of_wf hw (s := b) (by simp [Instr.srcs])
    simp [decFields, hk, decM, ha, hb, Instr.guard]

theorem accmv (g : BitVec 4) (t : Ty) (dir : Bool) (rc : Rc) (ns : Bool) (n : BitVec 4) (d : BitVec 3) (a b : Sel)
    : Statement (.accmv g t dir rc ns n d a b) :=
  of_fields rfl fun hw sl hs => by
    have hk := cls_m hs
    have ha := sel_of_wf hw (s := a) (by simp [Instr.srcs])
    have hb := sel_of_wf hw (s := b) (by simp [Instr.srcs])
    simp [decFields, hk, decM, ha, hb, Instr.guard]

theorem accst (g : BitVec 4) (t : Ty) (rc : Rc) (ns : Bool) (n : BitVec 4) (a b : Sel)
    : Statement (.accst g t rc ns n a b) :=
  of_fields rfl fun hw sl hs => by
    have hk := cls_m hs
    have ha := sel_of_wf hw (s := a) (by simp [Instr.srcs])
    have hb := sel_of_wf hw (s := b) (by simp [Instr.srcs])
    simp [decFields, hk, decM, ha, hb, Instr.guard]

theorem accscl (g : BitVec 4) (n : BitVec 4) (a : BitVec 6) (b : Sel) : Statement (.accscl g n a b) :=
  of_fields rfl fun hw sl hs => by
    have hk := cls_m hs
    have hb := sel_of_wf hw (s := b) (by simp [Instr.srcs])
    simp [decFields, hk, decM, hb, Instr.guard]

theorem accbias (g : BitVec 4) (n : BitVec 4) (a : BitVec 6) (b : Sel) : Statement (.accbias g n a b) :=
  of_fields rfl fun hw sl hs => by
    have hk := cls_m hs
    have hb := sel_of_wf hw (s := b) (by simp [Instr.srcs])
    simp [decFields, hk, decM, hb, Instr.guard]

theorem ringset (g : BitVec 4) (r : BitVec 4) (a b c : Sel) : Statement (.ringset g r a b c) :=
  of_fields rfl fun hw sl hs => by
    have hk := cls_m hs
    have ha := sel_of_wf hw (s := a) (by simp [Instr.srcs])
    have hb := sel_of_wf hw (s := b) (by simp [Instr.srcs])
    have hc := sel_of_wf hw (s := c) (by simp [Instr.srcs])
    simp [decFields, hk, decM, ha, hb, hc, Instr.guard]

theorem ringq (g : BitVec 4) (r : BitVec 4) (d : BitVec 6) : Statement (.ringq g r d) :=
  of_fields rfl fun hw sl hs => by
    have hk := cls_m hs
    simp [decFields, hk, decM, Instr.guard]

theorem xcopy (g : BitVec 4) (esz : BitVec 2) (ch : BitVec 4) (pace : BitVec 12) (d : XDst) (b c : Sel) (desc : Option Word)
    : Statement (.xcopy g esz ch pace d b c desc) := by
  cases d with
  | addr a =>
      exact of_fields rfl fun hw sl hs => by
        have hk := cls_x hs
        have ha := sel_of_wf hw (s := a) (by simp [Instr.srcs])
        have hb := sel_of_wf hw (s := b) (by simp [Instr.srcs])
        have hc := sel_of_wf hw (s := c) (by simp [Instr.srcs])
        have hx : (Instr.xcopy g esz ch pace (.addr a) b c desc).ext? = desc := by
          have h := check_of_wf hw
          cases desc with
          | some v => rfl
          | none =>
              simp only [Instr.checkFields] at h
              split at h
              · cases h
              · split at h
                · cases h
                · split at h
                  · cases h
                  · rename_i hn
                    simp only [Instr.ext?]
                    generalize hl : (Instr.xcopy g esz ch pace (.addr a) b c none).exts = l at hn
                    cases l with
                    | nil => rfl
                    | cons v r => simp at hn
        rw [hx] at ha hb hc
        simp [decFields, hk, decX, ha, hb, hc, hx, xdstOf, XDst.code, XDst.modBit, flagOf, Instr.guard]
  | ring n =>
      exact of_fields rfl fun hw sl hs => by
        have hk := cls_x hs
        have hb := sel_of_wf hw (s := b) (by simp [Instr.srcs])
        have hc := sel_of_wf hw (s := c) (by simp [Instr.srcs])
        have hx : (Instr.xcopy g esz ch pace (.ring n) b c desc).ext? = desc := by
          have h := check_of_wf hw
          cases desc with
          | some v => rfl
          | none =>
              simp only [Instr.checkFields] at h
              split at h
              · cases h
              · split at h
                · cases h
                · split at h
                  · cases h
                  · rename_i hn
                    simp only [Instr.ext?]
                    generalize hl : (Instr.xcopy g esz ch pace (.ring n) b c none).exts = l at hn
                    cases l with
                    | nil => rfl
                    | cons v r => simp at hn
        rw [hx] at hb hc
        simp [decFields, hk, decX, hb, hc, hx, XDst.code, XDst.modBit, flagOf, Instr.guard]

theorem xgather (g : BitVec 4) (esz : BitVec 2) (ch : BitVec 4) (pace : BitVec 12) (d : XDst) (b : Sel) (vi : BitVec 6) (n1 : BitVec 5)
    : Statement (.xgather g esz ch pace d b vi n1) := by
  cases d with
  | addr a =>
      exact of_fields rfl fun hw sl hs => by
        have hk := cls_x hs
        have ha := sel_of_wf hw (s := a) (by simp [Instr.srcs])
        have hb := sel_of_wf hw (s := b) (by simp [Instr.srcs])
        simp [decFields, hk, decX, ha, hb, xdstOf, XDst.code, XDst.modBit, flagOf, Instr.guard]
  | ring n =>
      exact of_fields rfl fun hw sl hs => by
        have hk := cls_x hs
        have hb := sel_of_wf hw (s := b) (by simp [Instr.srcs])
        simp [decFields, hk, decX, hb, XDst.code, XDst.modBit, flagOf, Instr.guard]

theorem xscatter (g : BitVec 4) (esz : BitVec 2) (ch : BitVec 4) (pace : BitVec 12) (a b : Sel) (vi : BitVec 6) (n1 : BitVec 5)
    : Statement (.xscatter g esz ch pace a b vi n1) :=
  of_fields rfl fun hw sl hs => by
    have hk := cls_x hs
    have ha := sel_of_wf hw (s := a) (by simp [Instr.srcs])
    have hb := sel_of_wf hw (s := b) (by simp [Instr.srcs])
    simp [decFields, hk, decX, ha, hb, Instr.guard]

theorem xacc (g : BitVec 4) (op : BitVec 5) (esz : BitVec 2) (ch : BitVec 4) (pace : BitVec 12) (a b c : Sel)
    : Statement (.xacc g op esz ch pace a b c) :=
  of_fields rfl fun hw sl hs => by
    have hk := cls_x hs
    have ha := sel_of_wf hw (s := a) (by simp [Instr.srcs])
    have hb := sel_of_wf hw (s := b) (by simp [Instr.srcs])
    have hc := sel_of_wf hw (s := c) (by simp [Instr.srcs])
    simp [decFields, hk, decX, ha, hb, hc, Instr.guard]

theorem xfetch (g : BitVec 4) (op : BitVec 5) (esz : BitVec 2) (ch : BitVec 4) (a b c : Sel)
    : Statement (.xfetch g op esz ch a b c) :=
  of_fields rfl fun hw sl hs => by
    have hk := cls_x hs
    have ha := sel_of_wf hw (s := a) (by simp [Instr.srcs])
    have hb := sel_of_wf hw (s := b) (by simp [Instr.srcs])
    have hc := sel_of_wf hw (s := c) (by simp [Instr.srcs])
    simp [decFields, hk, decX, ha, hb, hc, Instr.guard]

theorem xcas (g : BitVec 4) (esz : BitVec 2) (ch : BitVec 4) (a b c : Sel) (res : Word)
    : Statement (.xcas g esz ch a b c res) :=
  of_fields rfl fun hw sl hs => by
    have hk := cls_x hs
    have ha := sel_of_wf hw (s := a) (by simp [Instr.srcs])
    have hb := sel_of_wf hw (s := b) (by simp [Instr.srcs])
    have hc := sel_of_wf hw (s := c) (by simp [Instr.srcs])
    have hx := ext_of_wf hw (v := res) (by simp [Instr.exts])
    rw [hx] at ha hb hc
    simp [decFields, hk, decX, ha, hb, hc, hx, Instr.guard]

theorem xfill (g : BitVec 4) (esz : BitVec 2) (ch : BitVec 4) (pace : BitVec 12) (a b c : Sel)
    : Statement (.xfill g esz ch pace a b c) :=
  of_fields rfl fun hw sl hs => by
    have hk := cls_x hs
    have ha := sel_of_wf hw (s := a) (by simp [Instr.srcs])
    have hb := sel_of_wf hw (s := b) (by simp [Instr.srcs])
    have hc := sel_of_wf hw (s := c) (by simp [Instr.srcs])
    simp [decFields, hk, decX, ha, hb, hc, Instr.guard]

theorem xexpand (g : BitVec 4) (esz : BitVec 2) (ch : BitVec 4) (pace : BitVec 12) (d : XDst) (b c : Sel)
    : Statement (.xexpand g esz ch pace d b c) := by
  cases d with
  | addr a =>
      exact of_fields rfl fun hw sl hs => by
        have hk := cls_x hs
        have ha := sel_of_wf hw (s := a) (by simp [Instr.srcs])
        have hb := sel_of_wf hw (s := b) (by simp [Instr.srcs])
        have hc := sel_of_wf hw (s := c) (by simp [Instr.srcs])
        simp [decFields, hk, decX, ha, hb, hc, xdstOf, XDst.code, XDst.modBit, flagOf, Instr.guard]
  | ring n =>
      exact of_fields rfl fun hw sl hs => by
        have hk := cls_x hs
        have hb := sel_of_wf hw (s := b) (by simp [Instr.srcs])
        have hc := sel_of_wf hw (s := c) (by simp [Instr.srcs])
        simp [decFields, hk, decX, hb, hc, XDst.code, XDst.modBit, flagOf, Instr.guard]

theorem xsignal (g : BitVec 4) (op : BitVec 5) (ch : BitVec 4) (a b : Sel) : Statement (.xsignal g op ch a b) :=
  of_fields rfl fun hw sl hs => by
    have hk := cls_x hs
    have ha := sel_of_wf hw (s := a) (by simp [Instr.srcs])
    have hb := sel_of_wf hw (s := b) (by simp [Instr.srcs])
    simp [decFields, hk, decX, ha, hb, Instr.guard]

theorem xorder (g : BitVec 4) (esz : BitVec 2) (ch : BitVec 4) (b : Sel) : Statement (.xorder g esz ch b) :=
  of_fields rfl fun hw sl hs => by
    have hk := cls_x hs
    have hb := sel_of_wf hw (s := b) (by simp [Instr.srcs])
    simp [decFields, hk, decX, hb, Instr.guard]

theorem kvalloc (g : BitVec 4) (ch : BitVec 4) (a b : Sel) : Statement (.kvalloc g ch a b) :=
  of_fields rfl fun hw sl hs => by
    have hk := cls_x hs
    have ha := sel_of_wf hw (s := a) (by simp [Instr.srcs])
    have hb := sel_of_wf hw (s := b) (by simp [Instr.srcs])
    simp [decFields, hk, decX, ha, hb, Instr.guard]

theorem kvfree (g : BitVec 4) (ch : BitVec 4) (a : Sel) : Statement (.kvfree g ch a) :=
  of_fields rfl fun hw sl hs => by
    have hk := cls_x hs
    have ha := sel_of_wf hw (s := a) (by simp [Instr.srcs])
    simp [decFields, hk, decX, ha, Instr.guard]

theorem kvshare (g : BitVec 4) (ch : BitVec 4) (a b : Sel) : Statement (.kvshare g ch a b) :=
  of_fields rfl fun hw sl hs => by
    have hk := cls_x hs
    have ha := sel_of_wf hw (s := a) (by simp [Instr.srcs])
    have hb := sel_of_wf hw (s := b) (by simp [Instr.srcs])
    simp [decFields, hk, decX, ha, hb, Instr.guard]

theorem kvappend (g : BitVec 4) (adv : Bool) (ch : BitVec 4) (a b c : Sel)
    : Statement (.kvappend g adv ch a b c) :=
  of_fields rfl fun hw sl hs => by
    have hk := cls_x hs
    have ha := sel_of_wf hw (s := a) (by simp [Instr.srcs])
    have hb := sel_of_wf hw (s := b) (by simp [Instr.srcs])
    have hc := sel_of_wf hw (s := c) (by simp [Instr.srcs])
    simp [decFields, hk, decX, ha, hb, hc, Instr.guard]

theorem kvcommit (g : BitVec 4) (reject : Bool) (ch : BitVec 4) (a b : Sel)
    : Statement (.kvcommit g reject ch a b) :=
  of_fields rfl fun hw sl hs => by
    have hk := cls_x hs
    have ha := sel_of_wf hw (s := a) (by simp [Instr.srcs])
    have hb := sel_of_wf hw (s := b) (by simp [Instr.srcs])
    simp [decFields, hk, decX, ha, hb, Instr.guard]

theorem kvget (g : BitVec 4) (ch : BitVec 4) (pace : BitVec 12) (d : XDst) (b c : Sel)
    : Statement (.kvget g ch pace d b c) := by
  cases d with
  | addr a =>
      exact of_fields rfl fun hw sl hs => by
        have hk := cls_x hs
        have ha := sel_of_wf hw (s := a) (by simp [Instr.srcs])
        have hb := sel_of_wf hw (s := b) (by simp [Instr.srcs])
        have hc := sel_of_wf hw (s := c) (by simp [Instr.srcs])
        simp [decFields, hk, decX, ha, hb, hc, xdstOf, XDst.code, XDst.modBit, flagOf, Instr.guard]
  | ring n =>
      exact of_fields rfl fun hw sl hs => by
        have hk := cls_x hs
        have hb := sel_of_wf hw (s := b) (by simp [Instr.srcs])
        have hc := sel_of_wf hw (s := c) (by simp [Instr.srcs])
        simp [decFields, hk, decX, hb, hc, XDst.code, XDst.modBit, flagOf, Instr.guard]

theorem kvsum (g : BitVec 4) (ch : BitVec 4) (a b c : Sel) : Statement (.kvsum g ch a b c) :=
  of_fields rfl fun hw sl hs => by
    have hk := cls_x hs
    have ha := sel_of_wf hw (s := a) (by simp [Instr.srcs])
    have hb := sel_of_wf hw (s := b) (by simp [Instr.srcs])
    have hc := sel_of_wf hw (s := c) (by simp [Instr.srcs])
    simp [decFields, hk, decX, ha, hb, hc, Instr.guard]

theorem xcoll (g : BitVec 4) (op : BitVec 5) (kind : BitVec 2) (esz : BitVec 2) (ch : BitVec 4) (a b c : Sel) (desc : Word)
    : Statement (.xcoll g op kind esz ch a b c desc) :=
  of_fields rfl fun hw sl hs => by
    have hk := cls_x hs
    have ha := sel_of_wf hw (s := a) (by simp [Instr.srcs])
    have hb := sel_of_wf hw (s := b) (by simp [Instr.srcs])
    have hc := sel_of_wf hw (s := c) (by simp [Instr.srcs])
    have hx := ext_of_wf hw (v := desc) (by simp [Instr.exts])
    rw [hx] at ha hb hc
    simp [decFields, hk, decX, ha, hb, hc, hx, Instr.guard]

theorem resultLanding (core slot : Nat) : Statement (.resultLanding core slot) := fun _ sl hs => by cases sl <;> cases hs

theorem timedLoadLanding (core slot : Nat) : Statement (.timedLoadLanding core slot) := fun _ sl hs => by cases sl <;> cases hs

theorem queuedOpStart (core slot op : Nat) : Statement (.queuedOpStart core slot op) := fun _ sl hs => by cases sl <;> cases hs

theorem queuedOpComplete (core slot op : Nat) : Statement (.queuedOpComplete core slot op) := fun _ sl hs => by cases sl <;> cases hs

theorem commandStart (core ch : Nat) : Statement (.commandStart core ch) := fun _ sl hs => by cases sl <;> cases hs

theorem commandElement (core ch : Nat) : Statement (.commandElement core ch) := fun _ sl hs => by cases sl <;> cases hs

theorem commandCompletion (core ch : Nat) : Statement (.commandCompletion core ch) := fun _ sl hs => by cases sl <;> cases hs

theorem collectiveForm (fn group : Nat) : Statement (.collectiveForm fn group) := fun _ sl hs => by cases sl <;> cases hs

theorem prepayRenewal (region : Nat) : Statement (.prepayRenewal region) := fun _ sl hs => by cases sl <;> cases hs

theorem leaseExpiry (region : Nat) (sublet : Option Nat) : Statement (.leaseExpiry region sublet) := fun _ sl hs => by cases sl <;> cases hs

theorem rentLowEvent (region : Nat) : Statement (.rentLowEvent region) := fun _ sl hs => by cases sl <;> cases hs

theorem rentLowTrap (core slot : Nat) : Statement (.rentLowTrap core slot) := fun _ sl hs => by cases sl <;> cases hs

theorem scrubComplete (granule : Nat) : Statement (.scrubComplete granule) := fun _ sl hs => by cases sl <;> cases hs

theorem watchTimeout (core slot : Nat) : Statement (.watchTimeout core slot) := fun _ sl hs => by cases sl <;> cases hs

theorem prgResponse (fn group code : Nat) : Statement (.prgResponse fn group code) := fun _ sl hs => by cases sl <;> cases hs

theorem invalidationComplete (fn : Nat) (s1 : Bool) : Statement (.invalidationComplete fn s1) := fun _ sl hs => by cases sl <;> cases hs

theorem doorbell (fn queue : Nat) (wptr : BitVec 32) : Statement (.doorbell fn queue wptr) := fun _ sl hs => by cases sl <;> cases hs

theorem launchEntryRead (fn queue : Nat) : Statement (.launchEntryRead fn queue) := fun _ sl hs => by cases sl <;> cases hs

theorem placement : Statement .placement := fun _ sl hs => by cases sl <;> cases hs

theorem priorityPreemption (fn queue : Nat) : Statement (.priorityPreemption fn queue) := fun _ sl hs => by cases sl <;> cases hs

theorem preemptedResume (launch : Nat) : Statement (.preemptedResume launch) := fun _ sl hs => by cases sl <;> cases hs

theorem launchRetire (launch : Nat) : Statement (.launchRetire launch) := fun _ sl hs => by cases sl <;> cases hs

theorem coalDelayExpiry (fn : Nat) : Statement (.coalDelayExpiry fn) := fun _ sl hs => by cases sl <;> cases hs

theorem turnEnd (part : Nat) : Statement (.turnEnd part) := fun _ sl hs => by cases sl <;> cases hs

theorem safePointSwitch (core slot : Nat) : Statement (.safePointSwitch core slot) := fun _ sl hs => by cases sl <;> cases hs

theorem fullSave (core slot : Nat) : Statement (.fullSave core slot) := fun _ sl hs => by cases sl <;> cases hs

theorem turnBegin (part : Nat) : Statement (.turnBegin part) := fun _ sl hs => by cases sl <;> cases hs

theorem quadScrubComplete (quad : Nat) : Statement (.quadScrubComplete quad) := fun _ sl hs => by cases sl <;> cases hs

theorem escalationResume (core slot : Nat) : Statement (.escalationResume core slot) := fun _ sl hs => by cases sl <;> cases hs

theorem escalationStop (core slot : Nat) : Statement (.escalationStop core slot) := fun _ sl hs => by cases sl <;> cases hs

theorem heatBoardUpdate : Statement .heatBoardUpdate := fun _ sl hs => by cases sl <;> cases hs

theorem powerAlarmRaise : Statement .powerAlarmRaise := fun _ sl hs => by cases sl <;> cases hs

theorem powerAlarmClear : Statement .powerAlarmClear := fun _ sl hs => by cases sl <;> cases hs

theorem tokenRefill : Statement .tokenRefill := fun _ sl hs => by cases sl <;> cases hs

theorem patrol (unit : Nat) (wrongSymbols : Nat) : Statement (.patrol unit wrongSymbols) := fun _ sl hs => by cases sl <;> cases hs

theorem qpartWrite (v : Word) : Statement (.qpartWrite v) := fun _ sl hs => by cases sl <;> cases hs

theorem fctlWrite (v : Word) : Statement (.fctlWrite v) := fun _ sl hs => by cases sl <;> cases hs

theorem lqWrite (v : Word) : Statement (.lqWrite v) := fun _ sl hs => by cases sl <;> cases hs

theorem invWrite (v : Word) : Statement (.invWrite v) := fun _ sl hs => by cases sl <;> cases hs

theorem prictlWrite (v : Word) : Statement (.prictlWrite v) := fun _ sl hs => by cases sl <;> cases hs

theorem tbktWrite (v : Word) : Statement (.tbktWrite v) := fun _ sl hs => by cases sl <;> cases hs

theorem lmapWrite (v : Word) : Statement (.lmapWrite v) := fun _ sl hs => by cases sl <;> cases hs

theorem mwdataAccess (write : Option Word) : Statement (.mwdataAccess write) := fun _ sl hs => by cases sl <;> cases hs

theorem s1invWrite (fn : Nat) (v : Word) : Statement (.s1invWrite fn v) := fun _ sl hs => by cases sl <;> cases hs

theorem setlayer (fn : Nat) : Statement (.setlayer fn) := fun _ sl hs => by cases sl <;> cases hs

theorem getlayer (fn : Nat) : Statement (.getlayer fn) := fun _ sl hs => by cases sl <;> cases hs

theorem getwindow (fn : Nat) : Statement (.getwindow fn) := fun _ sl hs => by cases sl <;> cases hs

theorem registerWindowWrite (fn offset size : Nat) (v : Word)
    : Statement (.registerWindowWrite fn offset size v) := fun _ sl hs => by cases sl <;> cases hs

theorem functionLevelReset (fn : Nat) : Statement (.functionLevelReset fn) := fun _ sl hs => by cases sl <;> cases hs

theorem packageReset : Statement .packageReset := fun _ sl hs => by cases sl <;> cases hs

theorem configurationRequest (fn : Nat) : Statement (.configurationRequest fn) := fun _ sl hs => by cases sl <;> cases hs

theorem getVersion : Statement .getVersion := fun _ sl hs => by cases sl <;> cases hs

theorem getCapabilities : Statement .getCapabilities := fun _ sl hs => by cases sl <;> cases hs

theorem negotiateAlgorithms (offered : List Byte) : Statement (.negotiateAlgorithms offered) := fun _ sl hs => by cases sl <;> cases hs

theorem getDigests : Statement .getDigests := fun _ sl hs => by cases sl <;> cases hs

theorem getCertificate (slot offset length : Nat) : Statement (.getCertificate slot offset length) := fun _ sl hs => by cases sl <;> cases hs

theorem challenge (nonce : List Byte) : Statement (.challenge nonce) := fun _ sl hs => by cases sl <;> cases hs

theorem getMeasurements (index : Nat) : Statement (.getMeasurements index) := fun _ sl hs => by cases sl <;> cases hs

theorem vendorDefinedRequest : Statement .vendorDefinedRequest := fun _ sl hs => by cases sl <;> cases hs

theorem receiveFlit (port : Nat) (bytes : List Byte) : Statement (.receiveFlit port bytes) := fun _ sl hs => by cases sl <;> cases hs

theorem nak (port seq : Nat) : Statement (.nak port seq) := fun _ sl hs => by cases sl <;> cases hs

theorem finalRound (fn : Nat) : Statement (.finalRound fn) := fun _ sl hs => by cases sl <;> cases hs

end Sys2Proof.Laws.Encoding
end

