-- ==== Sys2Proof/Tests/Slice0.lean ====
section
/-!
SUPPORT. Tests of the model: words written out from the encodings of the spec, an ill-formed term for each check of
`Instr.check`, single operations on small states, and for each statement states and operands that meet its hypotheses.
-/
set_option Elab.async false
namespace Sys2Proof.Tests
open Sys2Proof Sys2Proof.Machine

/-! ## Words -/

/-- Words of the scalar operations (R126 to R133), from the encodings of R96 to R102. -/
theorem test_words_scalar_1 :
    decodeSlot .s0 0x0000000000000000 0x0 = .ok (.nop) ∧
    decodeSlot .s0 0x01200405FF000000 0x0 = .ok (.add 2 4 (.reg 5) (.imm 127)) ∧
    decodeSlot .s1 0x42003F7F01000000 0x123456789 = .ok (.sub 0 63 (.ext 0x123456789) (.reg 1)) ∧
    decodeSlot .s0 0x03F0014C02000000 0x0 = .ok (.mul 15 1 .bc (.reg 2)) ∧
    decodeSlot .s0 0x0401010203000000 0x0 = .ok (.mulh 0 true 1 (.reg 2) (.reg 3)) ∧
    decodeSlot .s0 0x0500010203000000 0x0 = .ok (.div 0 false 1 (.reg 2) (.reg 3)) ∧
    decodeSlot .s1 0x0601010203000000 0x0 = .ok (.rem 0 true 1 (.reg 2) (.reg 3)) ∧
    decodeSlot .s0 0x0700070809000000 0x0 = .ok (.and 0 7 (.reg 8) (.reg 9)) ∧
    decodeSlot .s0 0x0800070809000000 0x0 = .ok (.or 0 7 (.reg 8) (.reg 9)) ∧
    decodeSlot .s0 0x0900070809000000 0x0 = .ok (.xor 0 7 (.reg 8) (.reg 9)) ∧
    decodeSlot .s0 0x0A000708BF000000 0x0 = .ok (.shl 0 7 (.reg 8) (.imm 63)) ∧
    decodeSlot .s0 0x0B01070883000000 0x0 = .ok (.shr 0 true 7 (.reg 8) (.imm 3)) ∧
    decodeSlot .s0 0x0C00070883000000 0x0 = .ok (.rot 0 7 (.reg 8) (.imm 3)) ∧
    decodeSlot .s0 0x0D01070809000000 0x0 = .ok (.min 0 true 7 (.reg 8) (.reg 9)) ∧
    decodeSlot .s0 0x0E00070809000000 0x0 = .ok (.max 0 false 7 (.reg 8) (.reg 9)) ∧
    decodeSlot .s0 0x0F00070800000000 0x0 = .ok (.clz 0 7 (.reg 8)) := by decide

/-- Words of the scalar operations (R126 to R133), from the encodings of R96 to R102. -/
theorem test_words_scalar_2 :
    decodeSlot .s0 0x1000070800000000 0x0 = .ok (.popc 0 7 (.reg 8)) ∧
    decodeSlot .s0 0x1100078180050000 0x0 = .ok (.sel 0 7 5 (.imm 1) (.imm 0)) ∧
    decodeSlot .s0 0x1204040809000000 0x0 = .ok (.cmp 0 .ltn 2 (.reg 8) (.reg 9)) ∧
    decodeSlot .s1 0x13000CA800000000 0x0 = .ok (.li 0 12 (.imm 40)) ∧
    decodeSlot .s0 0x53001A7F00000000 0xA0 = .ok (.li 0 26 (.ext 0xA0)) ∧
    decodeSlot .s0 0x140007080900003F 0x0 = .ok (.lea 0 7 (.reg 8) (.reg 9) 63) ∧
    decodeSlot .s0 0x1503061401800048 0x0 = .ok (.ld 0 3 false 6 20 24 (.short 72)) ∧
    decodeSlot .s0 0x15060102FFFFFFFF 0x0 = .ok (.ld 0 2 true 1 2 4095 (.short 0xFFFFF)) ∧
    decodeSlot .s0 0x1607141E00000000 0x0 = .ok (.st 0 3 true 20 30 (.short 0)) ∧
    decodeSlot .s0 0x5600050600000000 0x10000 = .ok (.st 0 0 false 5 6 (.ext 0x10000)) ∧
    decodeSlot .s0 0x17000E0000000005 0x0 = .ok (.mfs 0 14 0x005) ∧
    decodeSlot .s0 0x1800000900000066 0x0 = .ok (.mts 0 0x066 (.reg 9)) := by decide

/-- Words of the S1-only operations (R137 to R149), from the encodings of R96 to R102. -/
theorem test_words_control :
    decodeSlot .s1 0x20003D00FFFFFFF8 0x0 = .ok (.br 0 61 0xFFFFFFF8) ∧
    decodeSlot .s1 0x21003D0500000000 0x0 = .ok (.bri 0 61 5) ∧
    decodeSlot .s1 0x22003E0000000100 0x0 = .ok (.call 0 0x100) ∧
    decodeSlot .s1 0x23403E0500000000 0x0 = .ok (.calli 4 5) ∧
    decodeSlot .s1 0x2400003E00000000 0x0 = .ok (.ret 0 62) ∧
    decodeSlot .s1 0x2500000000000000 0x0 = .ok (.handback 0) ∧
    decodeSlot .s1 0x2600000000000000 0x0 = .ok (.tailend 0) ∧
    decodeSlot .s1 0x27000E0000000000 0x0 = .ok (.jointail 0 7) ∧
    decodeSlot .s1 0x28000D00FFFFFF38 0x0 = .ok (.loop 0 13 0xFFFFFF38) ∧
    decodeSlot .s1 0x2930008100000000 0x0 = .ok (.trap 3 (.imm 1)) ∧
    decodeSlot .s1 0x2A00000000000000 0x0 = .ok (.eret 0) ∧
    decodeSlot .s1 0x2B30000000000000 0x0 = .ok (.halt 3) ∧
    decodeSlot .s1 0x2C00000000000020 0x0 = .ok (.fuse 0 32) ∧
    decodeSlot .s1 0x2D00000000000000 0x0 = .ok (.decouple 0) ∧
    decodeSlot .s1 0x2E00000000000000 0x0 = .ok (.rejoin 0) := by decide

/-- Words of the S0-only operations (R218 to R226), from the encodings of R96 to R102. -/
theorem test_words_rent_and_wait :
    decodeSlot .s0 0x3005140A0BFF0006 0x0 = .ok (.rent 0 1 1 false false 0 20 3 (.reg 10) (.reg 11) (.imm 127)) ∧
    decodeSlot .s0 0x30020102030400B2 0x0 = .ok (.rent 0 2 0 true true 2 1 1 (.reg 2) (.reg 3) (.reg 4)) ∧
    decodeSlot .s0 0x3100010203000008 0x0 = .ok (.renew 0 1 4 (.reg 2) (.reg 3)) ∧
    decodeSlot .s0 0x3200010203040008 0x0 = .ok (.prepay 0 1 4 (.reg 2) (.reg 3) (.reg 4)) ∧
    decodeSlot .s0 0x730016147F0D0308 0x80 = .ok (.sublet 0 false 12 22 4 (.reg 20) (.ext 128) (.reg 13)) ∧
    decodeSlot .s0 0x3401050600000000 0x0 = .ok (.vacate 0 true 5 (.reg 6)) ∧
    decodeSlot .s0 0x350001020300000A 0x0 = .ok (.handover 0 1 5 (.reg 2) (.reg 3)) ∧
    decodeSlot .s0 0x3600010200000000 0x0 = .ok (.lease 0 1 (.reg 2)) ∧
    decodeSlot .s0 0x3702048515820000 0x0 = .ok (.barinit 0 .clus 2 (.imm 5) (.reg 21) (.imm 2)) ∧
    decodeSlot .s0 0x3A00008082000000 0x0 = .ok (.barbase 0 .core (.imm 0) (.imm 2)) ∧
    decodeSlot .s0 0x3802008500000000 0x0 = .ok (.arrive 0 .clus (.imm 5)) ∧
    decodeSlot .s0 0x3902048500000000 0x0 = .ok (.wait 0 .clus 2 (.imm 5)) ∧
    decodeSlot .s0 0x3B0802001A000000 0x0 = .ok (.watch 0 1 (.chan 0) (.reg 26)) ∧
    decodeSlot .s0 0x3B01021E80000000 0x0 = .ok (.watch 0 1 (.mem 1 (.reg 30)) (.imm 0)) ∧
    decodeSlot .s0 0x3C02000000000002 0x0 = .ok (.fence 0 .clus 2 0) ∧
    decodeSlot .s0 0x3C05000000000017 0x0 = .ok (.fence 0 .pod 7 2) := by decide

/-- Words of the vector operations, 0x01 to 0x1F (R152 to R166), from the encodings of R96 to R102. -/
theorem test_words_vector_1 :
    decodeSlot .v0 0x0109050607000001 0x0 = .ok (.vadd 0 .bf16 .rne false ⟨false, 5⟩ (.reg 6) (.reg 7)) ∧
    decodeSlot .v1 0x020085064B000008 0x0 = .ok (.vsub 0 .i8 .dyn true ⟨true, 5⟩ (.reg 6) (.latch 11)) ∧
    decodeSlot .v2 0x03070506C0000000 0x0 = .ok (.vmul 0 .n64 .dyn false ⟨false, 5⟩ (.reg 6) (.imm 64)) ∧
    decodeSlot .v0 0x44780D0D7F4C0010 0x3F000000 = .ok (.vfma 7 .f32 .dyn true false ⟨false, 13⟩ (.reg 13) (.ext 0x3F000000) .bc) ∧
    decodeSlot .v0 0x0501050607000000 0x0 = .ok (.vmin 0 .i16 ⟨false, 5⟩ (.reg 6) (.reg 7)) ∧
    decodeSlot .v0 0x060A050607000000 0x0 = .ok (.vmax 0 .f16 ⟨false, 5⟩ (.reg 6) (.reg 7)) ∧
    decodeSlot .v0 0x0702050600000008 0x0 = .ok (.vabs 0 .i32 true ⟨false, 5⟩ (.reg 6)) ∧
    decodeSlot .v0 0x0805050607000000 0x0 = .ok (.vand 0 .n16 ⟨false, 5⟩ (.reg 6) (.reg 7)) ∧
    decodeSlot .v0 0x0906050607000000 0x0 = .ok (.vor 0 .n32 ⟨false, 5⟩ (.reg 6) (.reg 7)) ∧
    decodeSlot .v0 0x0A03050607000000 0x0 = .ok (.vxor 0 .i64 ⟨false, 5⟩ (.reg 6) (.reg 7)) ∧
    decodeSlot .v0 0x0B040B0A81000000 0x0 = .ok (.vshl 0 .n8 ⟨false, 11⟩ (.reg 10) (.imm 1)) ∧
    decodeSlot .v0 0x0C00050607000000 0x0 = .ok (.vshr 0 .i8 ⟨false, 5⟩ (.reg 6) (.reg 7)) ∧
    decodeSlot .v0 0x0D04040B4C000004 0x0 = .ok (.vcmp 0 .n8 .ltn 2 (.reg 11) .bc) ∧
    decodeSlot .v0 0x0E0B050607090000 0x0 = .ok (.vsel 0 .e4m3 ⟨false, 5⟩ 9 (.reg 6) (.reg 7)) ∧
    decodeSlot .v0 0x0F0C050600000000 0x0 = .ok (.vmov 0 .e5m2 ⟨false, 5⟩ (.reg 6)) ∧
    decodeSlot .v0 0x1009020100000800 0x0 = .ok (.vcvt 0 .bf16 .f32 .dyn false ⟨false, 2⟩ (.reg 1)) := by decide

/-- Words of the vector operations, 0x01 to 0x1F (R152 to R166), from the encodings of R96 to R102. -/
theorem test_words_vector_2 :
    decodeSlot .v0 0x1108802100000000 0x0 = .ok (.vblkmax 0 .f32 ⟨true, 0⟩ (.reg 33)) ∧
    decodeSlot .v1 0x120E80404C000800 0x0 = .ok (.vscale 0 .f32 ⟨true, 0⟩ (.latch 0) .bc) ∧
    decodeSlot .v2 0x130D082144000800 0x0 = .ok (.vquant 0 .e2m1 .f32 .dyn false ⟨false, 8⟩ (.reg 33) (.latch 4)) ∧
    decodeSlot .v0 0x14780C0A00000000 0x0 = .ok (.vrsqe 7 ⟨false, 12⟩ (.reg 10)) ∧
    decodeSlot .v0 0x1508050600000000 0x0 = .ok (.vrcpe 0 ⟨false, 5⟩ (.reg 6)) ∧
    decodeSlot .v0 0x1608050600000002 0x0 = .ok (.vexp2 0 .rtz ⟨false, 5⟩ (.reg 6)) ∧
    decodeSlot .v0 0x1708050600000003 0x0 = .ok (.vlog2 0 .rup ⟨false, 5⟩ (.reg 6)) ∧
    decodeSlot .v0 0x1809050600000014 0x0 = .ok (.vredsum 0 .bf16 .rdn true ⟨false, 5⟩ (.reg 6)) ∧
    decodeSlot .v0 0x1908050600000000 0x0 = .ok (.vredmax 0 .f32 ⟨false, 5⟩ (.reg 6)) ∧
    decodeSlot .v0 0x1A04050607000000 0x0 = .ok (.vperm 0 .n8 ⟨false, 5⟩ (.reg 6) (.reg 7)) ∧
    decodeSlot .v0 0x1B04050607000000 0x0 = .ok (.vrot 0 .n8 ⟨false, 5⟩ (.reg 6) (.reg 7)) ∧
    decodeSlot .v0 0x1C040A0000000000 0x0 = .ok (.vidx 0 .n8 ⟨false, 10⟩) ∧
    decodeSlot .v0 0x1D080406070300A0 0x0 = .ok (.vtopk 0 .f32 32 true 4 3 (.reg 6) (.reg 7)) ∧
    decodeSlot .v0 0x1E0B050607080001 0x0 = .ok (.vdot4 0 .e4m3 .rne ⟨false, 5⟩ (.reg 6) (.reg 7) (.reg 8)) ∧
    decodeSlot .v0 0x1F03050607000000 0x0 = .ok (.vmulh 0 .i64 ⟨false, 5⟩ (.reg 6) (.reg 7)) := by decide

/-- Words of the vector operations, 0x20 to 0x2C (R153 to R171), from the encodings of R96 to R102. -/
theorem test_words_vector_rest :
    decodeSlot .v0 0x2000050607080000 0x0 = .ok (.vclamp 0 .i8 ⟨false, 5⟩ (.reg 6) (.reg 7) (.reg 8)) ∧
    decodeSlot .v0 0x2108050600000004 0x0 = .ok (.vrnd 0 .f32 .rdn ⟨false, 5⟩ (.reg 6)) ∧
    decodeSlot .v0 0x220A050600000000 0x0 = .ok (.vclass 0 .f16 ⟨false, 5⟩ (.reg 6)) ∧
    decodeSlot .v0 0x2300050607000008 0x0 = .ok (.vpack 0 .i8 true ⟨false, 5⟩ (.reg 6) (.reg 7)) ∧
    decodeSlot .v0 0x2405050600001000 0x0 = .ok (.vunpack 0 .n16 true ⟨false, 5⟩ (.reg 6)) ∧
    decodeSlot .v0 0x2500070704000000 0x0 = .ok (.pand 0 false false 7 7 4) ∧
    decodeSlot .v0 0x2600070809000001 0x0 = .ok (.por 0 true false 7 8 9) ∧
    decodeSlot .v0 0x2700070809000002 0x0 = .ok (.pxor 0 false true 7 8 9) ∧
    decodeSlot .v0 0x2804210800000000 0x0 = .ok (.pcnt 0 .n8 33 8) ∧
    decodeSlot .v0 0x2900201E00600000 0x0 = .ok (.vld 0 false 32 30 6 (.short 0)) ∧
    decodeSlot .v1 0x2B06040500727FFF 0x0 = .ok (.vldx 0 .n32 4 5 7 9 (.short 0x3FFF)) ∧
    decodeSlot .v0 0x2A60441D00000000 0x0 = .ok (.vst 6 false (.latch 4) 29 (.short 0)) ∧
    decodeSlot .v2 0x2C03040500024008 0x0 = .ok (.vstx 0 .i64 (.reg 4) 5 9 (.short 8)) := by decide

/-- Words of the tile operations (R190), from the encodings of R96 to R102. -/
theorem test_words_tile :
    decodeSlot .t 0x0100070809000000 0x0 = .ok (.tld 0 7 8 (.reg 9)) ∧
    decodeSlot .t 0x0200060809000000 0x0 = .ok (.tst 0 6 8 (.reg 9)) ∧
    decodeSlot .t 0x030005089F000000 0x0 = .ok (.trd 0 5 8 (.imm 31)) ∧
    decodeSlot .t 0x0400040809000000 0x0 = .ok (.twr 0 4 8 (.reg 9)) ∧
    decodeSlot .t 0x0509030200000000 0x0 = .ok (.ttr 0 .bf16 3 2) ∧
    decodeSlot .t 0x0608020A0BA00001 0x0 = .ok (.tmask 0 .f32 1 2 (.reg 10) (.reg 11) (.imm 32)) ∧
    decodeSlot .t 0x0708032100000000 0x0 = .ok (.trmax 0 .f32 3 33) ∧
    decodeSlot .t 0x0808032100000002 0x0 = .ok (.trsum 0 .f32 .rtz 3 33) ∧
    decodeSlot .t 0x0908030221000001 0x0 = .ok (.texp 0 .f32 .rne 3 2 33) ∧
    decodeSlot .t 0x0A09030221000000 0x0 = .ok (.trscl 0 .bf16 .dyn 3 2 33) ∧
    decodeSlot .t 0x0B0B03020000080D 0x0 = .ok (.tcvt 0 .e4m3 .f32 .sr true 3 2) ∧
    decodeSlot .t 0x0C00000000000001 0x0 = .ok (.twait 0 0 1) ∧
    decodeSlot .t 0x0D00030000000000 0x0 = .ok (.tzero 0 3) := by decide

/-- Words of the matrix operations (R178 to R188), from the encodings of R96 to R102. -/
theorem test_words_matrix :
    decodeSlot .m 0x0100001020100107 0x0 = .ok (.mma 0 .bf16 0 (.ring 0) (.ring 1) 2 1 1 true true true) ∧
    decodeSlot .m 0x0204123041000828 0x0 = .ok (.mmag 0 .i8 1 (.tile 2) (.ring 3) 4 16 8 false false false) ∧
    decodeSlot .m 0x0300001790900000 0x0 = .ok (.accdef 0 false 0 (.reg 23) (.imm 16) (.imm 16)) ∧
    decodeSlot .m 0x040000000000000F 0x0 = .ok (.accz 0 15) ∧
    decodeSlot .m 0x0502000203000003 0x0 = .ok (.accld 0 .i32 3 (.reg 2) (.reg 3)) ∧
    decodeSlot .m 0x0609018080000000 0x0 = .ok (.accmv 0 .bf16 false .dyn false 0 1 (.imm 0) (.imm 0)) ∧
    decodeSlot .m 0x060B0102030001A4 0x0 = .ok (.accmv 0 .e4m3 false .sr true 4 1 (.reg 2) (.reg 3)) ∧
    decodeSlot .m 0x470800187F000000 0x40 = .ok (.accst 0 .f32 .dyn false 0 (.reg 24) (.ext 64)) ∧
    decodeSlot .m 0x0800000203000005 0x0 = .ok (.accscl 0 5 2 (.reg 3)) ∧
    decodeSlot .m 0x0900000203000005 0x0 = .ok (.accbias 0 5 2 (.reg 3)) ∧
    decodeSlot .m 0x0A0000160C810001 0x0 = .ok (.ringset 0 1 (.reg 22) (.reg 12) (.imm 1)) ∧
    decodeSlot .m 0x0B00090000000002 0x0 = .ok (.ringq 0 2 9) := by decide

/-- Words of the copy and cache commands (R205, R217), from the encodings of R96 to R102. -/
theorem test_words_copy_and_cache_1 :
    decodeSlot .x 0x010001C1B1A00003 0x0 = .ok (.xcopy 0 3 0 0 (.addr (.reg 28)) (.reg 27) (.reg 26) none) ∧
    decodeSlot .x 0x0101003190C00003 0x0 = .ok (.xcopy 0 3 0 0 (.ring 3) (.reg 25) (.reg 12) none) ∧
    decodeSlot .x 0x0100114181900803 0x0 = .ok (.xcopy 0 3 1 8 (.addr (.reg 20)) (.reg 24) (.reg 25) none) ∧
    decodeSlot .x 0x4101102030000402 0x1000 = .ok (.xcopy 0 2 1 4 (.ring 2) (.reg 3) (.reg 0) (some 0x1000)) ∧
    decodeSlot .x 0x02002030405000FA 0x0 = .ok (.xgather 0 2 2 0 (.addr (.reg 3)) (.reg 4) 5 31) ∧
    decodeSlot .x 0x030020304050087B 0x0 = .ok (.xscatter 0 3 2 8 (.reg 3) (.reg 4) 5 15) ∧
    decodeSlot .x 0x0400203040500011 0x0 = .ok (.xacc 0 2 1 2 0 (.reg 3) (.reg 4) (.reg 5)) ∧
    decodeSlot .x 0x0500203040500043 0x0 = .ok (.xfetch 0 8 3 2 (.reg 3) (.reg 4) (.reg 5)) ∧
    decodeSlot .x 0x4600203040500002 0x2000 = .ok (.xcas 0 2 2 (.reg 3) (.reg 4) (.reg 5) 0x2000) ∧
    decodeSlot .x 0x07002030405FFF03 0x0 = .ok (.xfill 0 3 2 0xFFF (.reg 3) (.reg 4) (.reg 5)) ∧
    decodeSlot .x 0x080120F040500001 0x0 = .ok (.xexpand 0 1 2 0 (.ring 15) (.reg 4) (.reg 5)) ∧
    decodeSlot .x 0x0900203040000013 0x0 = .ok (.xsignal 0 2 2 (.reg 3) (.reg 4)) ∧
    decodeSlot .x 0x0A00200040000003 0x0 = .ok (.xorder 0 3 2 (.reg 4)) ∧
    decodeSlot .x 0x0B00203040000000 0x0 = .ok (.kvalloc 0 2 (.reg 3) (.reg 4)) ∧
    decodeSlot .x 0x0C00203000000000 0x0 = .ok (.kvfree 0 2 (.reg 3)) ∧
    decodeSlot .x 0x0D00203040000000 0x0 = .ok (.kvshare 0 2 (.reg 3) (.reg 4)) := by decide

/-- Words of the copy and cache commands (R205, R217), from the encodings of R96 to R102. -/
theorem test_words_copy_and_cache_2 :
    decodeSlot .x 0x0E02203040500000 0x0 = .ok (.kvappend 0 true 2 (.reg 3) (.reg 4) (.reg 5)) ∧
    decodeSlot .x 0x0F04203040000000 0x0 = .ok (.kvcommit 0 true 2 (.reg 3) (.reg 4)) ∧
    decodeSlot .x 0x1001301168000000 0x0 = .ok (.kvget 0 3 0 (.ring 1) (.reg 22) (.imm 0)) ∧
    decodeSlot .x 0x1100203040500000 0x0 = .ok (.kvsum 0 2 (.reg 3) (.reg 4) (.reg 5)) ∧
    decodeSlot .x 0x5203203040500022 0x3000 = .ok (.xcoll 0 4 3 2 2 (.reg 3) (.reg 4) (.reg 5) 0x3000) := by decide

/-! ## Refusals of the decoder and of the well-formedness check -/

/-- One ill-formed term for each check (R8, R80, R97 to R103, R139 to R226), each refused by its name. -/
theorem test_ill_formed :
    (Instr.add 0 1 (.latch 3) (.reg 0)).check = some .latch ∧
    (Instr.vmov 0 .f32 ⟨false, 1⟩ (.latch 12)).check = some .latch ∧
    (Instr.add 0 1 (.ext 1) (.ext 2)).check = some .extension ∧
    (Instr.cmp 0 .eq 0 (.reg 1) (.reg 2)).check = some .pair ∧
    (Instr.vfma 0 .i8 .dyn false false ⟨false, 1⟩ (.reg 1) (.reg 1) (.reg 1)).check = some .type ∧
    (Instr.vadd 0 .f32 .sr false ⟨false, 1⟩ (.reg 1) (.reg 1)).check = some .rounding ∧
    (Instr.vadd 0 .i8 .rne false ⟨false, 1⟩ (.reg 1) (.reg 1)).check = some .rounding ∧
    (Instr.vadd 0 .f32 .dyn true ⟨false, 1⟩ (.reg 1) (.reg 1)).check = some .option ∧
    (Instr.br 0 0 4).check = some .displacement ∧
    (Instr.loop 0 0 8).check = some .loopCount ∧
    (Instr.fuse 0 3).check = some .gangSize ∧
    (Instr.rent 0 3 0 false false 0 1 1 (.reg 1) (.reg 2) (.reg 3)).check = some .rentField ∧
    (Instr.rent 0 1 0 false false 1 1 1 (.reg 1) (.reg 2) (.reg 3)).check = some .rentField ∧
    (Instr.fence 0 .pkg 0 0).check = some .fenceField := by decide

/-- The same, for the checks of the vector, tile, matrix and copy forms. -/
theorem test_ill_formed_engines :
    (Instr.vtopk 0 .f32 33 false 4 3 (.reg 1) (.reg 2)).check = some .topk ∧
    (Instr.vtopk 0 .f32 32 false 5 3 (.reg 1) (.reg 2)).check = some .topk ∧
    (Instr.vst 0 false (.imm 1) 2 (.short 0)).check = some .dataSelector ∧
    (Instr.tmask 0 .f32 3 1 (.reg 1) (.reg 2) (.reg 3)).check = some .maskMode ∧
    (Instr.mma 0 .bf16 0 (.ring 0) (.ring 1) 33 1 1 false false false).check = some .matrix ∧
    (Instr.mma 0 .fp4 0 (.ring 0) (.ring 1) 1 1 1 false false false).check = some .matrix ∧
    (Instr.xacc 0 2 2 0 0 (.reg 1) (.reg 2) (.reg 3)).check = some .command ∧
    (Instr.xfill 0 3 0 7 (.reg 1) (.reg 2) (.reg 3)).check = some .command ∧
    (Instr.xcopy 0 3 0 0 (.ring 1) (.reg 2) (.reg 3) (some 0)).check = some .count := by decide

/-- The decoder refuses by name: a header in a slot, the wrong slot, an unlisted opcode, MOD and selector, a register
number of R99, a field that is not zero, a missing and an idle extension. -/
theorem test_decoder_refuses :
    decodeSlot .s0 0xE000000000000000 0 = .error .headerInSlot ∧
    decodeSlot .s0 0x2400003E00000000 0 = .error .slot ∧
    decodeSlot .s1 0x3C02000000000002 0 = .error .slot ∧
    decodeSlot .s0 0x1900000000000000 0 = .error .opcode ∧
    decodeSlot .s0 0x0101000000000000 0 = .error .mod ∧
    decodeSlot .s0 0x0100014D00000000 0 = .error .selector ∧
    decodeSlot .s0 0x0100010000000001 0 = .error .unused ∧
    decodeSlot .s0 0x0100400000000000 0 = .error .register ∧
    decodeSlot .s1 0x2200000000000000 0 = .error .register ∧
    decodeSlot .s0 0x13001A7F00000000 0 = .error .extMissing ∧
    decodeSlot .s0 0x4100040481000000 0 = .error .extNotTaken ∧
    decodeSlot .v0 0x0F0F010200000000 0 = .error .mod ∧
    decodeSlot .s0 0x1200000102000000 0 = .error (.ill .pair) := by decide

/-- The headers of the listings of chapters 12 to 14, and the two disagreements of R95. -/
theorem test_headers :
    decodeHeader 0xE000000000000000 = .ok ⟨0xC0, 0, .none, false, false, false, 16⟩ ∧
    decodeHeader 0xEC00602060100000 = .ok ⟨0xD8, 0, .f32 0x40C0, false, false, true, 16⟩ ∧
    decodeHeader 0xE000000000000001 = .error .header ∧
    decodeHeader 0xE000000800000000 = .error .header ∧
    decodeHeader 0x6000000000000000 = .error .headerExpected := by decide

/-! ## A small state -/

/-- A tier 1 region of core 0, a tier 2 region and a tier 0 region, rented by context 0 of launch 1. -/
def pad : Region := { id := 1, fn := 1, owner := 1, renter := 0, renterLaunch := 1, renterAt := (0, 0), launchScope := false
                      base := 0x40C000000000, len := 65536, tier := 1, home := 0, kind := 0, until_ := 1000
                      rltrap := true, pieces := [(0xC000000000, 65536)] }
def hbm : Region := { pad with id := 2, base := 0x600000000000, tier := 2, until_ := 2000, pieces := [(0x100000, 65536)] }
def slate : Region := { pad with id := 3, base := 0x40C200000000, tier := 0, len := 8192, pieces := [(0xC200000000, 8192)] }

/-- s1 the tier 1 region, s2 the tier 2 region, s3 the tier 0 region, s4 = 128, s5 = 16, s6 = -1, s7 = 0, s8 = 1,
s9 = 100, s10 = 4096, s11 = the trap vector's bundle, s12 = the launch's own number. -/
def regs : Tbl Word := [(1, 0x40C000000000), (2, 0x600000000000), (3, 0x40C200000000), (4, 128), (5, 16),
  (6, -1), (8, 1), (9, 100), (10, 4096), (11, 0x10000), (12, 1)]

/-- The issuing context: slot 0 of core 0, with an f32 and an i32 binding. -/
def ctx0 : Ctx := { state := .running, launch := 1, pc := 0x10000
                    bank := { s := regs, acc := [(0, some ⟨0x40C200000000, 16, 16, false, 0xC200000000, false⟩),
                      (1, some ⟨0x40C200001000, 16, 16, true, 0xC200001000, false⟩)] } }

/-- A placed launch with its code at 0x10000. -/
def lau : Launch := { id := 1, fn := 1, purse := 10000000, cores := [0], code := (0x10000, 4096, 0x200000)
                      occCh := List.replicate 16 4, occRing := List.replicate 16 4 }

/-- The core, with ring 0 and ring 1 set. -/
def core0 : CoreSt := { ctx := [(0, ctx0)], launch := some 1
                        ring := [(0, { set := true, base := 0x40C000000000, dpa := 0xC000000000, slotb := 512, slots := 2
                                       full := 2 }),
                                 (1, { set := true, base := 0x40C000001000, dpa := 0xC000001000, slotb := 512, slots := 2
                                       full := 2 })] }

/-- Stage 8, one context issuing its first bundle. -/
def st : State := { State.reset with
  boot := { State.reset.boot with stage := 8 }, cycle := 33000, cores := [(0, core0)], launches := [lau]
  regions := [pad, hbm, slate], fns := [(1, { en := true })], quads := [(0, { valid := true })], nextId := 4, turn := { core := 0, phase := .run }
  issue := { hdr := 0x10000, syl := 0x10008, next := 0x10010, bps := 1 } }

/-- `st` issuing in the slot. -/
def at_ (sl : Slot) : State := { st with issue := { st.issue with slot := sl } }

/-- `st` with the issuing context and its core changed. -/
def with_ (sl : Slot) (f : Ctx → Ctx) (h : CoreSt → CoreSt := id) : State :=
  { at_ sl with cores := [(0, { h core0 with ctx := [(0, f ctx0)] })] }

/-- The bundle of a `trap 1` in S1 at 0x10000: a header with S1 present, and the word of R149 without its guard. -/
def code : Memory := Memory.writeBytes [] 0x200000 (toBytes 8 0xA000000000000000 ++ toBytes 8 0x2900008100000000)

/-- The state after an operation. -/
def after (o : Host.Outcome State Fault Refusal) : State :=
  match o with
  | .next t => t
  | _ => State.reset

/-- One instance of every operation, by slot. -/
def scalarOps : List Instr := [.nop, .add 0 1 (.reg 2) (.reg 3), .sub 0 1 (.reg 2) (.reg 3), .mul 0 1 (.reg 2) (.reg 3),
  .mulh 0 false 1 (.reg 2) (.reg 3), .mulh 0 true 1 (.reg 2) (.reg 3), .div 0 false 1 (.reg 2) (.reg 3),
  .div 0 true 1 (.reg 2) (.reg 7), .rem 0 false 1 (.reg 2) (.reg 7), .rem 0 true 1 (.reg 2) (.reg 3),
  .and 0 1 (.reg 2) (.reg 3), .or 0 1 (.reg 2) (.reg 3), .xor 0 1 (.reg 2) (.reg 3), .shl 0 1 (.reg 2) (.reg 3),
  .shr 0 false 1 (.reg 2) (.reg 3), .shr 0 true 1 (.reg 2) (.reg 3), .rot 0 1 (.reg 2) (.reg 3),
  .min 0 false 1 (.reg 2) (.reg 3), .min 0 true 1 (.reg 2) (.reg 3), .max 0 false 1 (.reg 2) (.reg 3),
  .max 0 true 1 (.reg 2) (.reg 3), .clz 0 1 (.reg 2), .popc 0 1 (.reg 2), .sel 0 1 0 (.reg 2) (.reg 3),
  .sel 0 1 1 (.reg 2) (.reg 3), .cmp 0 .ltn 1 (.reg 2) (.reg 3), .li 0 1 .bc, .lea 0 1 (.reg 2) (.reg 3) 63,
  .ld 0 3 true 1 1 24 (.short 0), .ld 0 0 false 1 2 24 (.ext 65535), .st 0 3 true 1 1 (.short 8),
  .st 0 1 false 1 2 (.ext 3), .mfs 0 1 5, .mts 0 0x13 (.reg 9)]
def controlOps : List Instr := [.br 0 0 16, .bri 0 61 11, .call 0 16, .calli 0 11, .ret 0 11, .handback 0, .jointail 0 1, .loop 0 9 0,
  .loop 0 8 0, .trap 0 (.reg 9), .halt 0]
def rentOps : List Instr := [.rent 0 1 1 false true 0 1 1 (.reg 10) (.reg 9) (.reg 6), .renew 0 1 1 (.reg 1) (.reg 9),
  .prepay 0 1 1 (.reg 1) (.reg 9) (.reg 10), .sublet 0 false 8 1 1 (.reg 1) (.reg 4) (.reg 9), .vacate 0 false 1 (.reg 1),
  .handover 0 1 1 (.reg 1) (.reg 12), .lease 0 1 (.reg 1),
  .barinit 0 .core 1 (.reg 8) (.reg 1) (.reg 5), .barbase 0 .core (.reg 8) (.reg 8),
  .watch 0 1 (.mem 0 (.reg 1)) (.reg 7), .watch 0 1 (.chan 0) (.reg 7), .fence 0 .core 7 0]
def vectorOps : List Instr :=
  let d : VDst := ⟨false, 1⟩
  let a : Sel := .reg 2
  [.vadd 0 .f32 .dyn false d a a, .vsub 0 .i8 .dyn true d a a, .vmul 0 .bf16 .rtz false d a a,
  .vfma 0 .f32 .dyn true true d a a a, .vmin 0 .f32 d a a, .vmax 0 .n8 d a a, .vabs 0 .i16 true d a,
  .vand 0 .n64 d a a, .vor 0 .n64 d a a, .vxor 0 .n64 d a a, .vshl 0 .n64 d a a, .vshr 0 .i64 d a a,
  .vcmp 0 .f32 .lt 1 a a, .vsel 0 .f32 d 2 a a, .vmov 0 .f32 d a, .vcvt 0 .e4m3 .f32 .sr true d a,
  .vblkmax 0 .f32 d a, .vscale 0 .f32 d a a, .vquant 0 .e2m1 .f32 .dyn false d a a, .vrsqe 0 d a, .vrcpe 0 d a,
  .vexp2 0 .dyn d a, .vlog2 0 .dyn d a, .vredsum 0 .f32 .dyn false d a, .vredmax 0 .f32 d a, .vperm 0 .n8 d a a,
  .vrot 0 .n8 d a a, .vidx 0 .n8 d, .vtopk 0 .f32 8 true 4 2 a a, .vdot4 0 .i8 .dyn d a a a, .vmulh 0 .i32 d a a,
  .vclamp 0 .i32 d a a a, .vrnd 0 .f32 .dyn d a, .vclass 0 .f32 d a, .vpack 0 .i8 true d a a, .vunpack 0 .n16 true d a,
  .pand 0 true false 3 4 5, .por 0 false true 3 4 5, .pxor 0 false false 3 4 5, .pcnt 0 .n8 1 3,
  .vld 0 true 4 1 24 (.short 0), .vldx 0 .n32 4 1 24 2 (.short 0), .vst 0 true (.reg 4) 1 (.short 0),
  .vstx 0 .n32 (.reg 4) 1 2 (.short 0)]
def tileOps : List Instr := [.tld 0 1 1 (.reg 4), .tst 0 1 1 (.reg 4), .trd 0 1 2 (.reg 5), .twr 0 1 2 (.reg 5),
  .ttr 0 .bf16 1 2, .tmask 0 .f32 1 1 (.reg 5) (.reg 5) (.reg 5), .trmax 0 .f32 1 2, .trsum 0 .f32 .dyn 1 2,
  .texp 0 .f32 .dyn 1 2 3, .trscl 0 .f32 .dyn 1 2 3, .tcvt 0 .bf16 .f32 .dyn false 1 2, .twait 0 0xFF 0xFFFF, .tzero 0 1]
def matrixOps : List Instr := [.ringset 0 2 (.reg 1) (.reg 10) (.reg 5), .ringq 0 0 1,
  .mma 0 .bf16 0 (.ring 0) (.ring 1) 2 1 1 true true true,
  .accdef 0 false 2 (.reg 3) (.reg 5) (.reg 5), .accz 0 0, .accld 0 .f32 0 (.reg 2) (.reg 4),
  .accst 0 .bf16 .dyn false 0 (.reg 2) (.reg 4), .accmv 0 .f32 true .dyn false 0 1 (.reg 7) (.reg 7),
  .accmv 0 .bf16 false .dyn false 0 1 (.reg 7) (.reg 7), .accscl 0 0 2 (.reg 7), .accbias 0 1 2 (.reg 7)]
def copyOps : List Instr := [.xcopy 0 3 0 8 (.addr (.reg 1)) (.reg 2) (.reg 4) none,
  .xcopy 0 3 0 8 (.ring 0) (.reg 2) (.reg 0) (some 0x600000000000), .xgather 0 3 0 0 (.addr (.reg 1)) (.reg 2) 3 15,
  .xscatter 0 3 0 0 (.reg 1) (.reg 2) 3 15, .xacc 0 9 3 0 0 (.reg 1) (.reg 2) (.reg 4),
  .xfetch 0 8 3 0 (.reg 1) (.reg 8) (.reg 2), .xcas 0 3 0 (.reg 1) (.reg 8) (.reg 9) 0x40C000000000,
  .xfill 0 3 0 0 (.reg 1) (.reg 2) (.reg 4), .xexpand 0 1 0 0 (.addr (.reg 1)) (.reg 2) (.reg 4),
  .xsignal 0 0 0 (.reg 1) (.reg 8), .xorder 0 0 0 (.reg 7), .kvalloc 0 0 (.reg 8) (.reg 9), .kvfree 0 0 (.reg 8),
  .kvshare 0 0 (.reg 8) (.reg 9), .kvappend 0 false 0 (.reg 8) (.reg 2) (.reg 9), .kvcommit 0 false 0 (.reg 8) (.reg 9),
  .kvget 0 0 0 (.addr (.reg 1)) (.reg 8) (.reg 7), .kvsum 0 0 (.reg 1) (.reg 8) (.reg 7),
  .xcoll 0 1 0 1 0 (.reg 1) (.reg 2) (.reg 4) 0x40C000000000]
/-! ## Operations that issue in the small state, with every check made -/

/-- Statements about S-class results, moves, loads, stores and system registers are about something. -/
theorem witness_scalars : ∀ i ∈ scalarOps, i.wf ∧ Issues i (at_ .s0) := by decide +kernel
theorem witness_controls : ∀ i ∈ controlOps, i.wf ∧ Issues i (at_ .s1) := by decide +kernel
theorem witness_rents : ∀ i ∈ rentOps, i.wf ∧ Issues i (at_ .s0) := by decide +kernel
theorem witness_vectors : ∀ i ∈ vectorOps, i.wf ∧ Issues i (at_ .v0) := by decide +kernel
theorem witness_tiles : ∀ i ∈ tileOps, i.wf ∧ Issues i (at_ .t) := by decide +kernel
theorem witness_matrices : ∀ i ∈ matrixOps, i.wf ∧ Issues i (at_ .m) := by decide +kernel
theorem witness_copies : ∀ i ∈ copyOps, i.wf ∧ Issues i (at_ .x) := by decide +kernel

/-! ## What meets the hypotheses of the statements -/

/-- DecodeEncode, EncodeDecode, TableWordDecodes. -/
theorem witness_encodings :
    (Instr.vfma 7 .f32 .dyn true false ⟨false, 13⟩ (.reg 13) (.ext 1) .bc).wf ∧
    (Instr.vfma 7 .f32 .dyn true false ⟨false, 13⟩ (.reg 13) (.ext 1) .bc).slotOk .v2 = true ∧
    decodeSlot .s1 0x2900008100000000 0 = .ok (.trap 0 (.imm 1)) := by decide +kernel

/-- A bundle at 0x10000 with REP 0, with REP 1 before its one-shot operation, and with a header R95 refuses. -/
def coded (h : Nat) : State := { st with
  mem := Memory.writeBytes [] 0x200000 (toBytes 8 h ++ toBytes 8 0x2900008100000000) }
/-- The bundle of `coded`. -/
def trapBundle (rep : BitVec 8) : Bundle :=
  { hdr := ⟨0x40, rep, .none, false, false, false, 16⟩, ops := [(.s1, .trap 0 (.imm 1), 0x10008)], next := 0x10010 }

/-- HeaderValidity: each of its clauses. -/
theorem witness_headers :
    isHeader 0xA000000000000000 = true ∧
    fetch (coded 0xA000000000000000) 0 0 0x10000 = .word 0xA000000000000000 ∧
    decodeHeader 0xA000000000000000 = .ok (trapBundle 0).hdr ∧
    fetchSlots (coded 0xA000000000000000) 0 0 (trapBundle 0).hdr [] Slot.all 0x10008 = .bundle (trapBundle 0) ∧
    fetch (coded 0xA000800000000000) 0 0 0x10000 = .word 0xA000800000000000 ∧
    decodeHeader 0xA000800000000000 = .ok (trapBundle 1).hdr ∧
    fetchSlots (coded 0xA000800000000000) 0 0 (trapBundle 1).hdr [] Slot.all 0x10008 = .bundle (trapBundle 1) ∧
    (trapBundle 1).hdr.rep ≠ 0 ∧ (trapBundle 1).ops.any (fun o => o.2.1.oneShot) = true ∧
    fetch (coded 0xA000000000000001) 0 0 0x10000 = .word 0xA000000000000001 ∧
    decodeHeader 0xA000000000000001 = .error .header := by decide +kernel

/-- StepKeepsInv, ExecAnswers, StepTakesEvent: an event that is due, a halted package and one that is reset. -/
theorem witness_events_due :
    State.Inv st ∧ step { st with agenda := [.scrubComplete 0] } = .next { st with agenda := [] } ∧
    st.boot.halted = false ∧
    step { st with boot := { st.boot with halted := true, stage := 4 } } = .fault (.bootHalted 4) := by
  exact ⟨And.intro (by decide +kernel) (by decide +kernel), rfl, rfl, rfl⟩

/-- StepRunsBundle, and the first half of StepRunsDecoded. -/
theorem witness_step_bundle :
    let s := coded 0xA000000000000000
    s.agenda = [] ∧ s.boot.halted = false ∧ s.boot.stage = 8 ∧ s.turn = { core := 0, phase := .run } ∧
    s.liveCores.contains 0 = true ∧ (s.core 0).frozen = false ∧ (s.core 0).stopped = false ∧ (s.core 0).gang = none ∧
    (s.core 0).runningSlot = some 0 ∧ (s.ctx 0 0).notBefore ≤ (s.core 0).ic ∧ (s.ctx 0 0).hold = none ∧
    (s.ctx 0 0).escNext = none ∧ fetchBundle s 0 0 (s.ctx 0 0).pc = .bundle (trapBundle 0) ∧
    (trapBundle 0).hdr.only = some .s1 ∧ fetch s 0 0 0x10008 = .word 0x2900008100000000 ∧
    isHeader 0x2900008100000000 = false ∧ hasExt 0x2900008100000000 = false ∧
    (s.core 0).walk = none ∧ s.walks = [] := by decide +kernel

/-- The second half of StepRunsDecoded: an `li`, which is early, and a `st`, which is late, each alone in its bundle, with
VJ and without. -/
theorem witness_step_decoded :
    ∀ vj : Bool, ∀ i ∈ [Instr.li 0 9 (.imm 40), Instr.st 0 3 false 1 1 (.short 8)],
    let b : Bundle := { hdr := ⟨0x40, 0, .none, false, vj, false, 16⟩, ops := [(.s1, i, 0x10008)], next := 0x10010 }
    let f := frameOf 0 0 b 0x10000 0 false
    let o : SlotOp := { slot := .s1, i := i, k := 0, syl := 0x10008 }
    let m : Member := { core := 0, slot := 0, ops := [o] }
    let u := advancePc (countIssue st m) b f.hdr f.rep m
    let v := if b.hdr.vj && !decide (passOf i < 2) then joinViews f u m else u
    f.partner = false ∧ fitsWindow st 0 (weightOf [o]) = true ∧ (b.hdr.sp && f.rep == 0 && notDrained st m) = false ∧
    stopsHere st f b m = false ∧ skewed st b.hdr m = false ∧ issueChk st f b m = {} ∧ (st.ctx 0 0).rentLow = [] ∧
    st.issue.soft = none ∧
    (match exec i (atOp v { f with checked := true, soft := v.issue.soft } b.hdr m o) with
      | .next t => t.issue.soft.isNone
      | _ => false) = true ∧ decide (passOf i < 2) = (i == .li 0 9 (.imm 40)) := by decide +kernel

/-- NonStoringFrame. -/
theorem witness_non_storing :
    (Instr.add 0 1 (.reg 2) (.reg 3)).isEvent = false ∧
    exec (.add 0 1 (.reg 2) (.reg 3)) (at_ .s0) = .next ((at_ .s0).landS 1 1 0xA0C200000000) := by
  exact ⟨rfl, rfl⟩

/-- DivRem: both divisors, and the corner of the most negative dividend. -/
theorem witness_div_rem :
    (at_ .s0).src (.reg 3) ≠ 0 ∧ (at_ .s0).src (.reg 7) = 0 ∧
    (0x8000000000000000 : Word).toInt = -2 ^ 63 ∧ (0xFFFFFFFFFFFFFFFF : Word).toInt = -1 := by decide +kernel

/-- CompareResults: each condition holds somewhere and fails somewhere, on either side of equality and of the sign. -/
theorem witness_compare :
    let s := (at_ .s0)
    let x := s.src (.reg 6)
    let y := s.src (.reg 8)
    x ≠ y ∧ x = x ∧ x.toInt < y.toInt ∧ ¬ y.toInt ≤ x.toInt ∧ y.toNat < x.toNat ∧ ¬ x.toNat ≤ y.toNat := by decide +kernel

/-- SelectResult: a set predicate, a clear one, a clear guard of a checked operation, and a word of SEL. -/
theorem witness_select :
    let s := at_ .s0
    (s.pred 0).getLsbD 0 = true ∧ (s.pred 1).getLsbD 0 = false ∧
    ({ s with issue := { s.issue with checked := true } } : State).issue.checked = true ∧
    field (0x1100078180050000 : Word) 56 6 = 0x11 ∧ decodeSlot .s1 0x1100078180050000 0 = .ok (.sel 0 7 5 (.imm 1) (.imm 0)) := by
  decide +kernel

/-- Landings: results that are due, of each kind, with one that is not; a result and the MTS of its cycle; nothing due. -/
theorem witness_landings :
    (∀ load : Bool,
      let f (due : Nat) (l : Bool) : Flight := { due := due, lands := [.s 5 7 (BitVec.allOnes 64)], load := l }
      let s := with_ .s0 (fun x => { x with flight := [f 0 load, f 1 false] })
      (s.ctx 0 0).flight = [f 0 load] ++ [f 1 false] ∧ (s.core 0).ic < 1 ∧
      (f 0 load).lands.all (fun y => y.isLocal && !y.isMts) = true ∧
      (List.range 4).all (fun i => i == 0 || (s.dueFlights 0 i).isEmpty) = true ∧
      (after (exec (if load then .timedLoadLanding 0 0 else .resultLanding 0 0) s)).me.bank.getS 5 = 7 ∧
      (after (exec (if load then .resultLanding 0 0 else .timedLoadLanding 0 0) s)).me.bank.getS 5 = 16) ∧
    (let f : Flight := { due := 0, lands := [.flags 1] }
     let g : Flight := { due := 0, lands := [.mts 6 0x20] }
     let s := with_ .s0 (fun x => { x with flight := [f, g] })
     (s.ctx 0 0).flight = [f, g] ∧ f.lands.all (fun y => y.isLocal && !y.isMts) = true ∧
     (List.range 4).all (fun i => i == 0 || (s.dueFlights 0 i).isEmpty) = true ∧
     (after (exec (.resultLanding 0 0) s)).me.bank.fpflags = 0x21) ∧
    (∀ f ∈ (st.ctx 0 0).flight, (st.core 0).ic < f.due) := by decide +kernel

/-- LoadResult and StoreFrame: no poison, nothing held back, no unjoined view, and a store of eight bytes into one
segment, with an address outside it and no dirty map. -/
theorem witness_memory :
    let s := at_ .s0
    s.poison = [] ∧ s.badWrites = [] ∧ s.me.held = [] ∧ s.myCore.xview = [] ∧ s.Inv ∧ s.me.pendingStores = [] ∧
    (∃ h, segsOf s 0 (s.who 0 0) .bundle true 0x40C000000000 8 = [(0x40C000000000, h, 8)]) ∧
    Outside 0xC000000008 (segsOf s 0 (s.who 0 0) .bundle true 0x40C000000000 8) ∧ bit (s.fn 1).dirty 0 = false := by
  refine ⟨rfl, rfl, rfl, rfl, And.intro (by decide +kernel) (by decide +kernel), by decide +kernel, ⟨_, rfl⟩, ?_, by decide +kernel⟩
  intro g hg
  have : g ∈ segsOf (at_ .s0) 0 ((at_ .s0).who 0 0) .bundle true 0x40C000000000 8 → within 0xC000000008 g.2.1.dpa g.2.2 = false := by
    revert g; decide +kernel
  exact this hg

/-- SystemRegisters and the privilege rules: a register that is there, and the first and last numbers of each range. -/
theorem witness_system_registers :
    sysRead (at_ .s0) 0 0 0x005 = some 0 ∧ isHitik 0 = false ∧ (at_ .s0).issue.checked = false ∧
    ((at_ .s0).pred 0).getLsbD 0 = true ∧
    ([0x015, 0x01F, 0x06A, 0x7FF, 0x800, 0xFFFF].all (fun n =>
      (after (exec (.mfs 0 9 n) (at_ .s0))).hevents.map (·.cause) == [1])) = true ∧
    ([0x000, 0x005].all (fun n => (after (exec (.mts 0 n (.reg 8)) (at_ .s0))).hevents.map (·.cause) == [1])) = true := by
  decide +kernel

/-- ReservedWriteIllegal: s2 has a bit above 31, s9 = 100 sets bit 6, and s4 = 128 sets bit 7 of FPFLAGS. -/
theorem witness_reserved_writes :
    field ((at_ .s0).me.bank.getS 2) 32 32 ≠ 0 ∧ field ((at_ .s0).me.bank.getS 9) 6 2 ≠ 0 ∧
    (after (exec (.mts 0 0x013 (.reg 2)) (at_ .s0))).hevents.map (·.cause) = [1] ∧
    (after (exec (.mts 0 0x006 (.reg 9)) (at_ .s0))).hevents.map (·.cause) = [1] := by decide +kernel

/-- BranchTaken: a target with a header, one without, and one that is not aligned. -/
theorem witness_branch_targets :
    let s := coded 0xA000000000000000
    s.myCore.gang = none ∧ badTarget s 0 0 0x10000 = false ∧ badTarget s 0 0 0x10008 = true ∧ field (0x10001 : Word) 0 3 ≠ 0 := by
  decide +kernel

/-- LoopResult: a count that ends and one that goes on. -/
theorem witness_loop :
    (at_ .s1).me.bank.getS 8 - 1 = 0 ∧ (at_ .s1).me.bank.getS 9 - 1 ≠ 0 := by decide +kernel

/-- The bank of a caller. -/
def view : CallerView := { bank := {}, trap := {}, flight := [], inst := 0, rentLow := [] }
/-- `st` where the context is a tail. -/
def tail (v : Option CallerView) : State := with_ .s1 (fun x => { x with tail := some ⟨0, 1, false, v⟩ })

/-- Tails: a slot that is Empty, none, and the two ends of a tail. -/
theorem witness_tails :
    (at_ .s1).myCore.emptySlot = some 1 ∧ (at_ .s1).myCore.tails.length ≠ 3 ∧
    (let s := { at_ .s1 with cores := [(0, { core0 with ctx := [(0, ctx0), (1, ctx0), (2, ctx0), (3, ctx0)] })] }
     Issues (.handback 0) s ∧ s.myCore.emptySlot = none) ∧
    Issues (.tailend 0) (tail none) ∧ Issues (.tailend 0) (tail (some view)) := by decide +kernel

/-- HaltEnds: the operation issues with its checks made. -/
theorem witness_halt : (at_ .s1).issue.checked = false ∧ Issues (.halt 0) (at_ .s1) := by decide +kernel

/-- `st` in a launch of gangs of two. -/
def duo (c : Ctx → Ctx) (h : CoreSt → CoreSt) (k : Nat) : State :=
  { with_ .s1 c h with launches := [{ lau with cpg := 2, cores := [0, 1] }]
                       issue := { (at_ .s1).issue with core := k }
                       cores := [(0, { h core0 with ctx := [(0, c ctx0)] }), (1, { h core0 with ctx := [(0, c ctx0)] })] }

/-- GangControl: a complete FUSE, a complete REJOIN, DECOUPLE of rank 0, and of another member. -/
theorem witness_gangs :
    Issues (.fuse 0 2) (duo (fun x => { x with wait := some (.fuse 2 true) }) id 0) ∧
    Issues (.rejoin 0) (duo (fun x => { x with wait := some (.rejoin true) }) (fun c => { c with lastGang := some (0, 2) }) 0) ∧
    (let s := duo id (fun c => { c with gang := some (0, 2) }) 0
     Issues (.decouple 0) s ∧ s.isLead = true ∧
       (s.gangOf 0).all (fun m => ((s.ctx m 0).bank.getP 0).getLsbD 0) = true) ∧
    (let s := duo id (fun c => { c with gang := some (0, 2) }) 1
     Issues (.decouple 0) s ∧ s.isLead = false) := by decide +kernel

/-- SoftwareTrap and SoftwareTrapGang: alone, as rank 0, and as another member with and without a TCODE noted. -/
theorem witness_traps :
    (at_ .s1).myCore.gang = none ∧
    (let s := duo id (fun c => { c with gang := some (0, 2) }) 1
     Issues (.trap 0 (.imm 1)) s ∧ s.isLead = false ∧ s.issue.soft = none ∧
       Issues (.trap 0 (.imm 1)) { s with issue := { s.issue with soft := some (0, 1) } }) := by decide +kernel

/-- TrapEntry and Escalation: outside a handler with a vector, inside one, without a vector, and in a tail. -/
theorem witness_trap_entry :
    (let s := with_ .s1 (fun x => { x with trap := { x.trap with vec := 0x10000 } })
     (s.ctx 0 0).undo = none ∧ (s.ctx 0 0).trap.isIn = false ∧ (s.ctx 0 0).trap.vec ≠ 0 ∧ (s.ctx 0 0).tail = none) ∧
    (let s := with_ .s1 (fun x => { x with trap := { x.trap with vec := 0x10000 }, tail := some ⟨0, 1, false, none⟩ })
     (s.ctx 0 0).undo = none ∧ (s.ctx 0 0).trap.isIn = false ∧ (s.ctx 0 0).trap.vec ≠ 0 ∧ (s.ctx 0 0).tail.isSome) ∧
    (isHitik 0 = false ∧ (st.ctx 0 0).undo = none ∧ (st.ctx 0 0).trap.vec = 0) ∧
    (with_ .s1 (fun x => { x with trap := { x.trap with isIn := true } })).me.trap.isIn = true := by decide +kernel

/-- `coded` in a handler with a snapshot. -/
def handler (pc : Word) (q : List Flight) : State :=
  let s := coded 0xA000000000000000
  { s with issue := { s.issue with slot := .s1 }
           cores := [(0, { core0 with ctx := [(0, { ctx0 with flight := q
                                                              trap := { vec := 0x10000, isIn := true, pc := pc }
                                                              snap := some ⟨[], [], [], 0, pc, 0⟩ })] })] }

/-- TrapReturn: a good and a bad TRAPPC, IN = 0, and a result in flight. -/
theorem witness_trap_return :
    (let s := handler 0x10000 []
     Issues (.eret 0) s ∧ badTarget (returnFromTrap s 0 0) 0 0 0x10000 = false ∧ s.issue.partner = false) ∧
    (let s := handler 0x10008 []
     Issues (.eret 0) s ∧ (returnFromTrap s 0 0).isLead = true ∧ badTarget (returnFromTrap s 0 0) 0 0 0x10008 = true) ∧
    ((at_ .s1).issue.checked = false ∧ isHitik 0 = false ∧ ((at_ .s1).pred 0).getLsbD 0 = true ∧
      (at_ .s1).me.trap.isIn = false) ∧
    (let s := handler 0x10000 [{ due := 9, lands := [] }]
     s.me.trap.isIn = true ∧ s.me.flight ≠ [] ∧ field ((after (exec (.eret 0) s)).core 0).freeze 16 16 = 1) := by decide +kernel

/-- FaultCancels: a load from an address no range has. -/
theorem witness_fault :
    let i : Instr := .ld 0 3 false 9 9 24 (.short 0)
    let s := { at_ .s0 with issue := { (at_ .s0).issue with hdr := 0x10000 } }
    i.isEvent = false ∧ s.issue.checked = false ∧ s.myCore.gang = none ∧ (opChk i (checkOf i) s).stall = none ∧
    (opChk i (checkOf i) s).fault = some (s.flt .xlate 100) ∧ (s.flt .xlate 100).report = none := by decide +kernel

/-- A launch of function 1 that names launch 1 as its predecessor. -/
def next_ : Launch := { lau with id := 2, serial := 5, deps := [(0, 1)], state := .read, cores := [] }
/-- `st` with a successor. -/
def followed : State := { at_ .s0 with launches := [lau, next_] }

/-- RentForms: each outcome of each form, with its checks made. -/
theorem witness_rent_forms :
    (leaseAt (at_ .s0) (at_ .s0).whoMe 0x40C000000000).isSome ∧
    (at_ .s0).ownAt (at_ .s0).whoMe 0x40C000000000 = .own pad ∧
    ((at_ .s0).src (.reg 7)).toNat = 0 ∧ ¬ (2 ^ 40 < ((at_ .s0).src (.reg 9)).toNat) ∧
    65536 * 100 * (at_ .s0).rate 1 > (at_ .s0).purse 1 ∧ 65536 * 1 * (at_ .s0).rate 1 ≤ (at_ .s0).purse 1 ∧
    pad.until_ + 1 ≤ 2 ^ 48 - 1 ∧
    subletStatus (at_ .s0) pad false 0x40C000000000 128 100 0 = 0 ∧
    (at_ .s0).granteeOf pad false 0 = some 0 ∧ subletStatus (at_ .s0) pad false 0x40C000000000 128 100 1 = 4 ∧
    handoverStatus followed followed.me.quiet pad 0x100000005 = some (0, some next_) ∧
    handoverStatus (at_ .s0) (at_ .s0).me.quiet pad 0x200000005 = some (7, none) ∧
    Issues (.handover 0 1 1 (.reg 1) (.ext 0x100000005)) followed := by decide +kernel

/-- A region with a sublet at its base. -/
def subletted : State := { at_ .s0 with
  regions := [{ pad with subs := [⟨0x40C000000000, 128, 100, 0, false, true⟩] }, hbm, slate] }

/-- VACATE of sublets, RentEffect with and without enough in the purse, and LeaseEnd. -/
theorem witness_vacate_rent :
    Issues (.vacate 0 true 1 (.reg 1)) subletted ∧
    (rentEffect (at_ .s0) 1 0 false false 0 4096 100 (-1)).2.1 = 0 ∧
    (rentEffect (at_ .s0) 1 0 false false 0 65536 1000 (-1)).2.1 = 1 ∧
    (rentEffect (at_ .s0) 1 0 false false 0 0 1000 (-1)).2.1 = 4 := by decide +kernel

/-- `st` at tick `t` with the first region changed. -/
def clock (t : Nat) (f : Region → Region) : State := { st with cycle := 3300 * t, rlowm := 16, regions := [f pad, hbm] }

/-- RentClock: prepay with time left, due and paid, due and not paid; rent-low due and not; expiry at its tick and
before it, of a region and of a sublet. -/
theorem witness_rent_clock :
    (clock 900 id).now = 900 ∧ (clock 900 id).region? 1 = some pad ∧ (1 : Nat) < 2 ^ 40 ∧
    (let r (c : Nat) : Region := { pad with prepay := some ⟨100, 1, c⟩ }
     100 ≤ (r 524288).until_ - (clock 900 id).now ∧ (r 0).until_ - (clock 901 id).now < 100 ∧
     65536 * 1 * (clock 901 id).rate 1 = 524288 ∧ 524288 ≤ (clock 901 id).purse 1) ∧
    (pad.prepay = none ∧ pad.rlow = false ∧ pad.until_ - (clock 985 id).now < (clock 985 id).rlowm ∧
      (clock 984 id).rlowm ≤ pad.until_ - (clock 984 id).now) ∧
    (pad.until_ ≤ (clock 1000 id).now ∧ ¬ pad.until_ ≤ (clock 999 id).now) ∧
    (after (exec (.leaseExpiry 1 none) (clock 1000 id))).regions = [hbm] := by decide +kernel

/-- `st` with a barrier cell at the start of the first region, EXP 2. -/
def barred (w : Nat) (c : Ctx → Ctx) (broken : Bool) : State := { with_ .s0 c with
  mem := Memory.writeBytes [] 0xC000000000 (toBytes 8 w)
  barriers := [{ sc := 0, inst := 0, launch := 1, n := 0, cell := 0x40C000000000, dpa := 0xC000000000, region := 1
                 broken := broken }] }
/-- A store that has not started. -/
def storeOp : QOp := { id := 0, i := .tst 0 1 1 (.reg 4) }

/-- Waiting: a bound number and a free one, a count of 0 and the ends of its range, an arrival that counts and one
held back, a WAIT and a WATCH that are over, and a FENCE behind a store. -/
theorem witness_waiting :
    (let s := barred 2 id false
     (s.barrier? 1 0 0 0).isSome ∧ Issues (.barinit 0 .core 1 (.reg 7) (.reg 1) (.reg 7)) s ∧
       Issues (.barinit 0 .core 1 (.reg 7) (.reg 1) (.reg 8)) s ∧ Issues (.arrive 0 .core (.reg 7)) s ∧
       s.me.pendingStores = [] ∧ s.me.myHeld s.me.inst = [] ∧ s.badWrites = [] ∧ s.mem.wf = true ∧ s.hostMem.wf = true ∧
       (s.barriers.find? (fun y => y.sc == 0 && y.inst == scopeInst 0 0 && y.launch == s.me.launch
         && y.n == s.barNum .core (.reg 7))).any (fun x => !x.broken) = true) ∧
    ((at_ .s0).barrier? 1 0 0 1 = none ∧ Issues (.barinit 0 .core 1 (.reg 8) (.reg 1) (.ext 65535)) (at_ .s0) ∧
      Issues (.barinit 0 .core 1 (.reg 8) (.reg 1) (.ext 65536)) (at_ .s0) ∧
      (match xlate (at_ .s0) ((at_ .s0).who 0 0) 0x40C000000000 true with
        | .hit h => h.tier == 1 && h.region != none
        | _ => false) = true) ∧
    (let s := barred 2 (fun x => { x with queue := [storeOp], issues := 1 }) false
     s.me.pendingStores ≠ [] ∧ Issues (.arrive 0 .core (.reg 7)) s ∧ Issues (.fence 0 .core 7 0) s) ∧
    (field (2 : Word) 0 16 ≠ 0 ∧ field (2 : Word) 16 16 < field (2 : Word) 0 16 ∧ (barred 2 id false).mem.wf = true) ∧
    Issues (.wait 0 .core 1 (.reg 7)) (barred 2 (fun x => { x with wait := some (.barrier 0 0 1 0 0 (some true)) }) false) ∧
    Issues (.watch 0 1 (.mem 1 (.reg 1)) (.reg 7)) (barred 2 (fun x => { x with wait := some (.watch 1 0 0 0 (some true)) }) false) := by
  decide +kernel

/-- IntegerElements: the ends of a signed and of an unsigned type, and counts on both sides of the width. -/
theorem witness_integer_elements :
    Ty.i8.isInt = true ∧ Ty.n64.isInt = true ∧ 128 < 2 ^ Ty.i8.width ∧ 255 < 2 ^ Ty.i8.width ∧
    7 < Ty.i8.width ∧ Ty.i8.width ≤ 8 := by decide +kernel

/-- MatrixOperations: both directions of ACCMV are in `matrixOps`; MMAG in a gang of two. -/
theorem witness_mmag :
    Issues (.mmag 0 .bf16 0 (.ring 0) (.ring 1) 2 1 1 true true true)
      { duo id (fun c => { c with gang := some (0, 2) }) 0 with issue := { (at_ .m).issue with slot := .m } } := by
  decide +kernel

/-- The state once ACCZ is queued, and an accumulator load whose pages are not there. -/
def queued : State := after (exec (.accz 0 0) (at_ .m))
/-- ACCZ, then ACCZ once more. -/
def queued2 : State := after (exec (.accz 0 0) (queued.updCtx 0 0 (fun x => { x with issues := 1 })))
/-- An ACCLD of a range that stage 1 maps and stage 2 does not. -/
def missing : State := { with_ .m (fun x => { x with queue :=
    [{ id := 0, i := .accld 0 .f32 0 (.reg 4) (.reg 5), a := 4096, b := 64, bind_ := some ⟨0x40C200000000, 16, 16, false, 0xC200000000, false⟩ }] }) with
  fns := [(1, { en := true, s1root := 0x1001, priEn := true, priAlloc := 4 })] }

/-- An operation that has started and pops ring 0 of its core, which it did last `n` cycles from now. -/
def popping (n : Nat) : State := with_ .m (fun x => { x with queue :=
    [{ id := 0, i := .accz 0 0, started := true, writes := [.pop 0 0] }] })
  (fun c => { c with ring := [(0, { set := true, slots := 2, full := 2, popAt := st.cycle + n })] })

/-- QueuedOperations: none of the number, one that is ready, one that is not, one that misses, one that is over. -/
theorem witness_queued :
    queued.op? 0 0 1 = none ∧
    ((queued.op? 0 0 0).any (fun o =>
      opReady queued 0 0 o && firstHeld queued 0 (queued.who 0 0) (skipRngs o.ranges o.done) o.done == none && !o.started)) = true ∧
    ((queued2.op? 0 0 1).any (fun o => !opReady queued2 0 0 o)) = true ∧
    ((missing.op? 0 0 0).any (fun o => opReady missing 0 0 o && !missing.noPages 1 &&
      (match firstHeld missing 0 (missing.who 0 0) (skipRngs o.ranges o.done) o.done with
        | some (_, _, .miss 1 _ _) => true
        | _ => false))) = true ∧
    (let s := after (exec (.queuedOpStart 0 0 0) queued)
     (s.op? 0 0 0).any (fun o => o.started && o.page == none && popsFree s o 0) = true) ∧
    (let s := popping 0
     let u := popping 1
     (s.op? 0 0 0).any (fun o => o.started && o.page == none && popsFree s o 0) = true ∧
       (u.op? 0 0 0).any (fun o => o.started && !popsFree u o 0) = true) ∧
    ((popping 0).ctx 0 0).queue.any (fun o => !(((queued2.op? 0 0 1).map (fun p => p.issue == o.issue)).getD true)) = true := by
  decide +kernel

/-- `st` with a command at the head of channel 0. -/
def command (i : Instr) : State := after (exec i (at_ .x))
/-- The command at the head of channel 0, with its progress changed. -/
def progress (i : Instr) (f : Prog → Prog) : State :=
  let s := command i
  match s.headCmd 0 0 with
  | some c => s.updCmd 0 0 c.serial (fun c => { c with prog := f c.prog })
  | none => s

/-- CommandEvents: the commands named there are ready; one goes on, one is over, one has been stopped. -/
theorem witness_commands :
    cmdReady (at_ .x) 0 0 = false ∧ (at_ .x).headCmd 0 0 = none ∧
    ([Instr.xorder 0 0 0 (.reg 7), .xorder 0 0 0 (.reg 6), .xcopy 0 3 0 8 (.addr (.reg 1)) (.reg 2) (.reg 4) none,
      .xcopy 0 3 0 8 (.ring 0) (.reg 2) (.reg 0) (some 0x600000000000), .xacc 0 9 3 0 0 (.reg 1) (.reg 2) (.reg 4),
      .xsignal 0 0 0 (.reg 1) (.reg 8), .xcoll 0 1 0 1 0 (.reg 1) (.reg 2) (.reg 4) 0x40C000000000,
      .kvalloc 0 0 (.reg 8) (.reg 9)].all (fun i => cmdReady (command i) 0 0)) = true ∧
    (let s := progress (.xacc 0 9 3 0 0 (.reg 1) (.reg 2) (.reg 4)) (fun p => { p with started := true, total := 2 })
     (s.headCmd 0 0).any (fun c =>
       c.prog.started && c.prog.stop == none && c.prog.wants == none && s.nextElem c == some 0 && !c.finished) = true) ∧
    (let s := progress (.xacc 0 9 3 0 0 (.reg 1) (.reg 2) (.reg 4)) (fun p => { p with started := true, total := 2, e := 2 })
     (s.headCmd 0 0).any (fun c => c.finished && !s.collWaits 0 0) = true) ∧
    (let s := progress (.xacc 0 9 3 0 0 (.reg 1) (.reg 2) (.reg 4)) (fun p => { p with stop := some (5, 0) })
     (s.headCmd 0 0).any (fun c => c.prog.stop == some (5, 0) && !c.prog.started) = true) := by decide +kernel

/-- Two members of a collective at the heads of channels 0 and 1 of the core, the second with a C of its own. -/
def members (c : Sel) (y : Coll → Coll) : State :=
  let s := { command (.xcoll 0 1 0 1 0 (.reg 1) (.reg 2) (.reg 4) 0x40C000000000) with issue := (at_ .x).issue }
  { after (exec (.xcoll 0 1 0 1 1 (.reg 1) (.reg 2) c 0x40C000000000) s) with
    colls := [y { fn := 1, group := 7, nmemb := 2, members := [(0, 0, 0), (1, 0, 1)] }] }

/-- CommandEvents: no collective; one whose members disagree; one whose sources are there, with its form to choose, with a
reduction context and with none; one that has chosen; one that waits for a page; one whose commands are gone. -/
theorem witness_collective :
    (at_ .x).wholeColl 1 7 = none ∧
    (let t := members (.reg 5) id
     (t.wholeColl 1 7).any (fun y => match y.cmds t with
        | m :: r => (m :: r).any (fun z => collKey z.2.2.2 != collKey m.2.2.2)
        | [] => false) = true) ∧
    ([0, 1].all (fun n =>
      let t := { members (.reg 4) id with fns := [(1, { en := true, rctxCount := n })] }
      (t.wholeColl 1 7).any (fun y => !y.decided && (match y.cmds t with
        | m :: r =>
            let u := decideColl t y (m :: r)
            !(m :: r).any (fun z => collKey z.2.2.2 != collKey m.2.2.2) && (m :: r).all (fun z =>
              let q := reach u z.2.1 z.2.2.2 false z.2.2.2.b.toNat z.2.2.2.c.toNat
              q == .ok q.segs)
        | [] => false)))) = true ∧
    ((members (.reg 4) (fun y => { y with decided := true })).wholeColl 1 7).any (·.decided) = true ∧
    ({ members (.reg 4) (fun y => { y with page := some 3 }) with
        fns := [(1, { en := true, reqs := [{ id := 3, group := 4, page := 0, write := false }] })] } : State).wholeColl 1 7 = none ∧
    (let t := { at_ .x with colls := [{ fn := 1, group := 7, nmemb := 2, members := [(0, 0, 0), (1, 0, 1)] }] }
     (t.wholeColl 1 7).any (fun y => (y.cmds t).isEmpty) = true) := by decide +kernel

/-- A function with an outstanding request for page 0, and stage-2 tables that map the first GiB. -/
def paged : State := { st with
  mem := Memory.writeBytes (Memory.writeBytes [] 0x300000 (toBytes 8 0x301001)) 0x301000 (toBytes 8 0x19F)
  fns := [(1, { en := true, s2root := 0x300001, window := 0x4000000000, reqs := [{ id := 1, group := 3, page := 0, write := true }]
                invBusy := true, s1invBusy := true, priEn := true, priAlloc := 4 })] }

/-- `paged` with a leaf that gives no right to write, and a context that waits to write there. -/
def narrow : State := { paged with
  mem := Memory.writeBytes paged.mem 0x301000 (toBytes 8 0x9F)
  cores := [(0, { core0 with ctx := [(0, { ctx0 with state := .waiting, wait := some (.pages [(1, true)]) })] })] }

/-- Translation: a response without and with a request, a leaf that gives the right, and an invalidation under way. -/
theorem witness_translation :
    (paged.fn 1).reqs.find? (fun r => r.group == 2) = none ∧
    (paged.fn 1).reqs.find? (fun r => r.group == 3) = some { id := 1, group := 3, page := 0, write := true } ∧
    paged.away 1 = false ∧
    ({ paged with cores := [(0, { core0 with ctx := [(0, { ctx0 with out := true })] })] } : State).away 1 = true ∧
    (match walk2 (dropLeaf paged 1 0) 1 0 with
      | .leaf e => e.wr && !(releaseReq (dropLeaf paged 1 0) 1 1 (fun w => if w then e.wr else e.rd)).waitsOn 1 1
          (fun w => !(if w then e.wr else e.rd))
      | _ => false) = true ∧
    (match walk2 (dropLeaf narrow 1 0) 1 0 with
      | .leaf e => (releaseReq (dropLeaf narrow 1 0) 1 1 (fun w => if w then e.wr else e.rd)).waitsOn 1 1
          (fun w => !(if w then e.wr else e.rd))
      | _ => false) = true ∧
    (paged.fn 1).invBusy = true ∧ (paged.fn 1).s1invBusy = true ∧ paged.opsRunning 1 = false ∧
    ({ paged with cores := missing.cores } : State).opsRunning 1 = false ∧
    (after (exec (.queuedOpStart 0 0 0) { missing with fns := [(1, { en := true })], regions := [{ hbm with base := 4096 }] })).opsRunning 1 = true ∧
    mtsMgmtOk { st with sel := 0x100 } 0x808 0 = true ∧ mtsMgmtOk { st with sel := 0x100 } 0x807 4 = true ∧
    invOk 0 = true ∧ invOk 1 = false ∧ (st.fn 1).s1invBusy = false := by decide +kernel

/-- An image of one bundle (`halt` in S1), and the record of a launch of it, as R272 and R285 lay them out. -/
def imageBytes : List Byte :=
  toBytes 8 0x0001000131494347 ++ toBytes 8 128 ++ toBytes 8 0 ++ toBytes 8 0x01010001 ++ List.replicate 96 0 ++
  toBytes 8 1 ++ toBytes 8 160 ++ toBytes 8 16 ++ toBytes 8 0 ++ toBytes 8 0xA000000000000000 ++ toBytes 8 0x2B00000000000000
def recordBytes (image : Nat) (shape : Nat) : List Byte :=
  toBytes 8 shape ++ toBytes 8 image ++ toBytes 8 0 ++ List.replicate 40 0

/-- A queue of function 0 with one entry available, its tables mapping the first GiB. -/
def entered (image shape ahead : Nat) (s2 : Bool) : State := { State.reset with
  boot := { State.reset.boot with stage := 8 }
  mem := Memory.writeBytes (Memory.writeBytes (Memory.writeBytes [] 0x300000 (toBytes 8 0x301001)) 0x301000 (toBytes 8 0x19F))
    0x400000 imageBytes
  hostMem := Memory.writeBytes [] 0x1000 (recordBytes image shape), quads := [(0, { valid := true })]
  fns := [(if s2 then 1 else 0, { en := true, s1root := 0x300001, window := 0x4000000000, priEn := true, priAlloc := 4
                                  queues := [(0, { ldepth := 4, en := true, wptr := BitVec.ofNat 32 ahead, qbase := 0x1000 })] })] }

/-- Launches: a doorbell past the depth and at it, an entry that loads, one that is no record's image, one whose page
stage 2 misses, and a queue with nothing ahead. -/
theorem witness_launch_entries :
    (let s := entered 0x400000 0x01010001 1 false
     let d := Memory.bytes s.hostMem 0x1000 64
     ((s.fn 0).q 0).available = true ∧ ((loaderChecks s d 0 0 0 1).toOption).isSome = true) ∧
    (let s := entered 0x400008 0x01010001 1 false
     let d := Memory.bytes s.hostMem 0x1000 64
     loaderChecks s d 0 0 0 1 = .error (.fail 3) ∧ (recordOf d 0 0 0 1).isSome = true) ∧
    (let s := entered 0x400000 0x01010001 1 true
     let d := Memory.bytes s.hostMem 0x1000 64
     ((s.fn 1).q 0).available = true ∧ loaderChecks s d 1 0 0 1 = .error (.miss 0x300000)) ∧
    (((entered 0x400000 0x01010001 0 false).fn 0).q 0).available = false ∧
    (let x := ((entered 0x400000 0x01010001 17 false).fn 0).q 0
     x.en = true ∧ 2 ^ x.ldepth < (x.wptr - x.read).toNat) ∧
    (let x := ((entered 0x400000 0x01010001 16 false).fn 0).q 0
     (x.wptr - x.read).toNat = 2 ^ x.ldepth ∧ x.available = true) := by decide +kernel

/-- `st` with a launch that waits in a queue, a free core in its partition, and a region directive. -/
def waiting (regs : List RegDir) : State := { st with
  launches := [{ next_ with deps := [], img := { text := [0xA000000000000000, 0x2B00000000000000], regs := regs } }]
  cores := [], regions := [], quads := [(0, { valid := true })]
  fns := [(1, { en := true, window := 0x4000000000 })] }

/-- Launches: nothing to place, a placement that succeeds, one that fails, a launch that can retire and one that
cannot, and a completion that is due. -/
theorem witness_placements :
    st.placeable = [] ∧
    ((waiting []).placeable.any (fun x => x.2.toOption.isSome)) = true ∧
    ((waiting [⟨1, false, 4096, 0, []⟩]).placeable.any (fun x => !x.2.toOption.isSome)) = true ∧
    st.launch? 1 = some lau ∧ st.alive 1 = true ∧ lau.state = .placed ∧
    (let s := { st with cores := [(0, { core0 with ctx := [] })] }
     s.alive 1 = false ∧ s.hasCmds 1 = false) ∧
    (st.fn 1).coalDue 10 = false ∧ (({ coal := 1, coalP := 1 } : Fn).coalDue 10) = true ∧
    ((({ coal := 1, coalP := 1 } : Fn).vector 0).mask) = false := by decide +kernel

/-- Two tenants of partition 0, function 1 in its turn since tick 0, with a turn of 10 ticks. -/
def shared (next : Option Nat) (c : Ctx → Ctx) : State := { coded 0xA000000000400000 with
  cores := [(0, { core0 with ctx := [(0, c ctx0)] })]
  fns := [(1, { en := true, turn := 10 }), (2, { en := true, turn := 10 })], turns := [(0, { fn := 1, began := 0, next := next, len := 10 })] }

/-- Scheduling: a turn that ends and one that goes on, a switch whose contexts are out and one whose are not, no turn
yet, and the two switches of a context. -/
theorem witness_turns :
    1 < ((shared none id).tenants 0).length ∧
    (Tbl.find (shared none id).turns 0).any (fun t => t.next == none && t.began + t.len ≤ (shared none id).now) = true ∧
    (let s := { shared none id with turns := [(0, { fn := 1, began := 1, len := 10 })] }
     s.now = 10 ∧ (Tbl.find s.turns 0).any (fun t => decide (s.now < t.began + t.len)) = true) ∧
    (let s := { st with turns := [(0, { fn := 1, began := 0 })] }
     (s.tenants 0).length ≤ 1 ∧ (Tbl.find s.turns 0).isSome = true) ∧ (shared (some 2) id).allOut 1 = false ∧
    (shared (some 2) (fun x => { x with out := true })).allOut 1 = true ∧ Tbl.find st.turns 0 = none ∧
    (let s := shared (some 2) (fun x => { x with switch := .safePoint })
     (s.ctx 0 0).out = false ∧ s.gangSlots 0 0 = [(0, 0)] ∧ s.atSafePoint 0 0 = true) ∧
    (let s := shared (some 2) (fun x => { x with switch := .full })
     (s.ctx 0 0).out = false ∧ s.gangSlots 0 0 = [(0, 0)] ∧ s.enginesQuiet 0 0 = true ∧ (s.ctx 0 0).switch ≠ .safePoint) ∧
    ((shared none id).ctx 0 0).switch ≠ .full := by decide +kernel

/-- `st` with a waiting launch of higher priority, PRE as given. -/
def contended (pre : Bool) : State := { st with
  launches := [lau, { next_ with deps := [], prio := 3 }], fns := [(1, { en := true, pre := pre })] }

/-- Scheduling: a victim, none, a launch that can resume, a quad that is scrubbed and one that is not, and the two ends
of an escalation. -/
theorem witness_preemption :
    (contended true).headOf 1 0 = some { next_ with deps := [], prio := 3 } ∧ ((contended true).fn 1).pre = true ∧
    (let s : State := { contended true with quads := [] }
     let l : Launch := { next_ with deps := [], prio := 3 }
     s.headOf 1 0 = some l ∧ (s.fn 1).pre = true ∧ s.mayPlace l = true ∧ s.pickCores l = none ∧ s.preemptRuns 1 = false ∧
     (s.victim l).isSome = true) ∧
    ((contended false).fn 1).pre = false ∧
    (let l := { lau with state := .preempted }
     let s := { st with launches := [l], cores := [(0, {}), (parkKey 1 0, core0)] }
     s.launch? 1 = some l ∧ s.canResume l = true) ∧
    (st.quad 0).scrub = false ∧ ({ st with quads := [(0, { scrub := true })] } : State).quad 0 = { scrub := true } ∧
    ((with_ .s0 (fun x => { x with wait := some .escalated })).ctx 0 0).stopped = true ∧ (st.ctx 0 0).stopped = false ∧
    (with_ .s0 (fun x => { x with wait := some .escalated })).me.tail = none := by decide +kernel

/-- BoardAndManagement: each band of temperature, a unit that is patrolled, poisoned and not, and writes that pass. -/
theorem witness_management :
    (let c (t : Nat) : CoreSt := { temps := [t, 20, 20, 20], hot := true }
     st.heatHigh < (c 96).temps.foldl max 0 ∧ (c 95).temps.foldl max 0 ≤ st.heatHigh ∧
     st.heatLow ≤ (c 85).temps.foldl max 0 ∧ (c 84).temps.foldl max 0 < st.heatLow ∧ (c 0).excluded = false ∧
     (c 0).fused ≠ 15) ∧
    st.patrolled 0xC000000000 = false ∧
    ({ st with patrolR := 0xFFFFFFFFFFFF } : State).patrolled 0xC000000000 = true ∧
    (let s := { st with patrolR := 0xFFFFFFFFFFFF }
     s.symbolsWrong 0xC000000000 = 0 ∧ ({ s with poison := [0xC000000000] } : State).symbolsWrong 0xC000000000 = 2 ∧
     ({ s with wrong := [(0xC000000000, 3)] } : State).symbolsWrong 0xC000000000 = 1 ∧ s.blockOf 0xC000000000 = none ∧
     (let u := s.updStore 1 (fun d => { d with blocks := [(0, { paddr := 0x100000, fmt := 0, paid := 9, ref := 1 })] })
      u.patrolled 0x100000 = true ∧ u.blockOf 0x100000 = some (1, 0))) ∧
    mtsMgmtOk { st with sel := 1 } 0x801 0x40 = true ∧ mtsMgmtOk { st with sel := 0x100 } 0x801 0x40 = true ∧
    mtsMgmtOk { st with sel := 0x200, fns := [(2, { s2root := 1, window := 0x1000000 })] } 0x802 0xA0040 = true ∧
    mtsMgmtOk { st with sel := 0x100 } 0x804 0x24 = true ∧ mtsMgmtOk { st with sel := 0x100 } 0x824 0x100010 = true ∧
    mtsMgmtOk st 0x820 0 = true ∧
    mtsMgmtOk { with_ .s0 (fun x => { x with wait := some .escalated }) with mwsel := 0x10000000 } 0x832 0 = true ∧
    mtsMgmtOk st 0xFFF 0 = false := by decide +kernel

/-- A service request of function 1 in the host's memory. -/
def asked (op layer : Nat) (d : Nat) (r : Nat) : State := { st with
  hostMem := Memory.writeBytes [] 0x1000 (toBytes 8 (op + layer * 65536) ++ toBytes 16 d ++ toBytes 8 r)
  fns := [(1, { en := true, mreq := 0x1000, mreqBusy := true })] }

/-- HostAndPod: no request, one of each operation, one with a reserved byte set, an operation that is none. -/
theorem witness_requests :
    st.request? 1 (· == 1) = none ∧ ((asked 1 0 0 0).request? 1 (· == 1)).any (fun b =>
      allZero (part b 0x18 40) && numAt b 2 1 == 0) = true ∧ (asked 1 0 0 0).layerUsed 1 0 = false ∧
    field (0 : BitVec 128) 48 8 = 0 ∧
    ((asked 1 0 0 1).request? 1 (· == 1)).any (fun b => !allZero (part b 0x18 40)) = true ∧
    ((asked 2 0 0 0).request? 1 (· == 2)).any (fun b => allZero (part b 0x18 40)) = true ∧
    ((asked 3 0 0 0).request? 1 (fun o => o != 1 && o != 2)).any (fun b =>
      numAt b 0 2 == 3 && numAt b 2 1 == 0 && allZero (part b 0x18 40)) = true ∧
    ((asked 4 0 0 0).request? 1 (fun o => o != 1 && o != 2)).any (fun b => numAt b 0 2 != 3) = true ∧
    ((asked 1 0 0 0).fn 1).en = true := by decide +kernel

/-- A boot slot's image whose header is as R350 lays it out but for its LENGTH, which is under 1 MiB, and one of a newer
format; and fuses. -/
def bootImage (format : Nat) : Image :=
  { bytes := toBytes 4 format ++ toBytes 4 1 ++ toBytes 8 8 ++ List.replicate 4080 0 ++ List.replicate 8 1, readable := true }
def keyed (u : Fuses) (stage : Nat) : State := { State.reset with fuses := u, boot := { stage := stage } }

/-- HostAndPod: bring-up at each stage, with fuses that read and that do not, with no slot that is accepted, and at stage
7 with an image. What R350's checks find in slots is open in the model where it rests on the hash and the verification
(log 9): an image they accept meets the two accepting cases. -/
theorem witness_bring_up :
    (keyed {} 1).boot.halted = false ∧ (keyed {} 1).boot.stage = 1 ∧ (keyed { readable := false } 2).fuses.readable = false ∧
    (keyed {} 2).fuses.readable = true ∧ (keyed {} 4).boot.stage = 4 ∧
    ({} : Fuses).slotCode none = 1 ∧ ({} : Fuses).slotCode (some (bootImage 2)) = 1 ∧
    ({} : Fuses).slotCode (some (bootImage 1)) = 5 ∧
    (∀ i : Image, i.format = 1 → i.zeros = true → i.svn ≤ 255 → i.reads = true →
      Config.mlDsa44Verify i.pubkey i.sig i.digest = true →
      ({ keyA := Config.sha3_256 i.pubkey } : Fuses).slotCode (some i) = 0) ∧
    (keyed {} 6).boot.stage = 6 ∧ (keyed { slotA := some (bootImage 1) } 7).booted = some (bootImage 1) ∧
    ({ keyed {} 4 with boot := { stage := 4, halted := true } } : State).boot.halted = true := by
  refine ⟨rfl, rfl, rfl, rfl, rfl, rfl, by decide +kernel, by decide +kernel, ?_, rfl, rfl, rfl⟩
  intro i h1 h2 h3 h4 h5
  have h6 : ({ keyA := Config.sha3_256 i.pubkey } : Fuses).keySlot i = some 0 := by simp [Fuses.keySlot]
  simp [Fuses.slotCode, h1, h2, h4, h5, Nat.not_lt.2 h3]
  exact fun h => absurd (h6.symm.trans h) (by simp)

/-- HostAndPod: measurements are there at stage 8, a flit either passes its check or does not, each type of flit has a
header, and a flit is still to be acknowledged. -/
theorem witness_pod :
    (({ st with boot := { st.boot with meas := [1, 2, 3, 4] } } : State).boot.meas[4 - 1]? = some 4) ∧ st.boot.stage = 8 ∧
    (∀ bytes, crcOk (Config.flitCorrect bytes) = true ∨ crcOk (Config.flitCorrect bytes) = false) ∧
    ([1, 2, 3, 4].all (fun t =>
      let h := flitHead (toBytes 8 (put [(28, 3), (24, t), (20, 0), (10, 2), (0, 1)]).toNat ++ noPayload)
      h.type == t && h.seq == 3)) = true ∧
    (st.port 0).expect ≠ 3 ∧ (({ st with ports := [(0, { expect := 3 })] } : State).port 0).expect = 3 ∧
    (({ st with ports := [(0, { sent := [(3, [])] })] } : State).port 0).sent.any (fun x => x.1 == 3) = true := by
  exact ⟨rfl, rfl, fun b => by cases crcOk (Config.flitCorrect b) <;> simp, by decide +kernel, by decide +kernel, rfl, rfl⟩

/-- LoadResult: a load of eight bytes that lies in one segment, with its checks made. -/
theorem witness_load :
    let s := at_ .s0
    Issues (.ld 0 3 false 9 1 0 (.short 0)) s ∧ isHitik s.issue.core = false ∧
    (s.ea 1 (offVal (.short 0))).toNat = 0x40C000000000 ∧
    (∃ h, segsOf s 0 (s.who 0 0) .bundle false 0x40C000000000 8 = [(0x40C000000000, h, 8)]) := by
  exact ⟨by decide +kernel, by decide +kernel, by decide +kernel, ⟨_, rfl⟩⟩

/-- An operation that has not started, issued at bundle `n`. -/
def waitingOp (n : Nat) : QOp := { id := n, i := .tzero 0 3, dsts := [3], issue := n }
/-- SystemRegisters: operations that have started and one that has not, frames held, a tail, and the registers a write goes to. -/
theorem witness_special_registers :
    (let s := with_ .s0 (fun x => { x with queue := [{ storeOp with started := true }, waitingOp 2], issues := 5
                                           holds := [⟨1, 64, 128⟩, ⟨2, 32, 64⟩]
                                           tail := some ⟨17, 1, true, none⟩, tfault := true })
     let own := s.me.queue.filter (fun o => o.inst == s.me.inst)
     own = [{ storeOp with started := true }] ++ waitingOp 2 :: [] ∧
     [{ storeOp with started := true }].all (·.started) = true ∧ (waitingOp 2).started = false ∧ s.me.holds ≠ [] ∧
     sysRead s 0 0 0x00B = some 2 ∧ sysRead s 0 0 0x011 = some 32 ∧ sysRead s 0 0 0x012 = some 0xF1011) ∧
    sysRead (at_ .s0) 0 0 0x00B = some 0 ∧ sysRead (at_ .s0) 0 0 0x00A = some 0xFFFFFF ∧ (at_ .s0).me.holds = [] ∧
    (∀ n ∈ [6, 7, 8, 0xC, 0xE, 0x12, 0x13, 0x14, 0x30, 0x4F, 0x62, 0x69], mtsUserOk n 0 = true) ∧
    mtsUserOk 8 (-1) = true ∧ (at_ .s0).policy = [] := by decide +kernel

/-- SystemRegisterPrivilege: the ends of each range of read-only registers. -/
theorem witness_read_only_registers :
    ([0x000, 0x005, 0x009, 0x00A, 0x00B, 0x00D, 0x00F, 0x010, 0x011, 0x020, 0x02F, 0x050, 0x061].all (fun n =>
      (after (exec (.mts 0 n (.reg 8)) (at_ .s0))).hevents.map (·.cause) == [1])) = true := by decide +kernel

/-- Tails: a bundle with a write of its own under way, and one with none. -/
theorem witness_tail_sides :
    let s := with_ .s1 (fun x => { x with queue := [storeOp] })
    s.me.pendingStores = [0] ∧ (at_ .s1).me.pendingStores = [] ∧
    ((cloneTail s 1).ctx 0 1).wait = some (.writes [(0, 0)]) ∧ ((cloneTail (at_ .s1) 1).ctx 0 1).state = .ready := by
  decide +kernel

/-- TrapEntry: a tail whose spawner has no TFAULT yet. -/
theorem witness_tail_trap :
    let s := with_ .s1 (fun x => { x with trap := { x.trap with vec := 0x10000 }, tail := some ⟨0, 1, false, none⟩ })
    (s.ctx 0 1).tfault = false ∧ (s.flt .xlate 0).cause ≠ .soft ∧ (s.flt .xlate 0).cause ≠ .brk := by decide +kernel

/-- RentForms: a HANDOVER behind a write of its own bundle. -/
theorem witness_handover_waits :
    let s := { followed with issue := { followed.issue with checked := true }
                             cores := [(0, { core0 with ctx := [(0, { ctx0 with queue := [storeOp] })] })] }
    handoverStatus s s.me.quiet pad 0x100000005 = none ∧ Issues (.handover 0 1 1 (.reg 1) (.ext 0x100000005)) s := by
  decide +kernel

/-- Waiting: a FENCE behind a read to come and with nothing before it, and an arrival of scope `.pod`. -/
theorem witness_fences :
    (let s := with_ .s0 (fun x => { x with queue := [{ storeOp with i := .tld 0 1 1 (.reg 4), a := 0x40C000000000 }], issues := 1 })
     s.me.pendingStores = [] ∧ s.fenced 7 0 = [0] ∧ s.fenced 7 1 = [0] ∧ Issues (.fence 0 .core 7 0) s) ∧
    (let s := at_ .s0
     s.fenced 7 0 = [] ∧ s.fenced 7 2 = [] ∧ Issues (.fence 0 .pod 7 2) s) ∧
    (let s := { barred 2 id false with barriers := [{ sc := 5, inst := scopeInst 5 0, launch := 1, n := 0, cell := 0x40C000000000
                                                      dpa := 0xC000000000, region := 1, broken := false }] }
     Issues (.arrive 0 .pod (.reg 7)) s ∧ (s.barrier? 1 5 0 0).isSome = true) := by decide +kernel

/-- QueuedOperations: a miss where no page can be asked for, and one that waits for its page. -/
theorem witness_missing_pages :
    let s := { missing with fns := [(1, { en := true, s1root := 0x1001 })] }
    s.noPages 1 = true ∧ ((s.op? 0 0 0).any (fun o => opReady s 0 0 o &&
      (match firstHeld s 0 (s.who 0 0) (skipRngs o.ranges o.done) o.done with
        | some (_, _, .miss 1 _ _) => true
        | _ => false))) = true ∧
    (let t := after (exec (.queuedOpStart 0 0 0) missing)
     (t.op? 0 0 0).any (fun o => o.started && o.page.isSome) = true) := by decide +kernel

/-- Whether the first element of a command that goes on is one that CommandEvents gives a whole step to. -/
def plainElem (i : Instr) : Bool :=
  let s := progress i (fun p => { p with started := true, total := 2 })
  match s.headCmd 0 0 with
  | none => false
  | some c => match elemWrite s c 0 with
    | none => false
    | some (wa, n) =>
        let ok (q : Reach) : Bool := q == .ok q.segs
        let rs := (elemReads s c 0).map (fun r => reach s 0 c false r.1 r.2)
        let w := reach s 0 c true wa n
        let o := reach s 0 c false wa n
        let es := esOf c.i
        let segs := (rs.map Reach.segs).flatten
        (ringDst c.i).isNone && !behindDeferred s c 0 && c.prog.due.isEmpty && (podPkgs s c 0).isEmpty && !signalWaits s 0 c
          && rs.all ok && ok w && (!readsOld c.i || (ok o && (tierUnits o.segs).isEmpty))
          && ((elemResult c).map (fun w => reach s 0 c true w.1 w.2)).all (fun q => ok q && (tierUnits q.segs).isEmpty)
          && (tierUnits (segs ++ w.segs)).isEmpty
          && (!alignedOnly c.i || (wa % es == 0 && (elemReads s c 0).all (fun r => r.1 % es == 0)))
          && poisonSegs s (segs ++ (if readsOld c.i then w.segs else [])) == none && paceLets s c n
          && c.prog.wants.isNone && s.nextElem c == some 0

/-- CommandEvents: elements whose whole step is stated, with a result to write and without. -/
theorem witness_elements : [Instr.xgather 0 3 0 0 (.addr (.reg 1)) (.reg 1) 3 15, .xscatter 0 3 0 0 (.reg 1) (.reg 1) 3 15,
    .xacc 0 9 3 0 0 (.reg 1) (.reg 1) (.reg 4), .xfetch 0 8 3 0 (.reg 1) (.reg 8) (.reg 3),
    .xcas 0 3 0 (.reg 1) (.reg 8) (.reg 9) 0x40C000000040, .xfill 0 3 0 0 (.reg 1) (.reg 2) (.reg 4),
    .xsignal 0 0 0 (.reg 1) (.reg 8)].all plainElem = true := by decide +kernel

/-- `command`, with bytes at the start of the first region. -/
def described (i : Instr) (bs : List Byte) : State := { command i with mem := Memory.writeBytes [] 0xC000000000 bs }
/-- What a descriptor at the start of the first region is read as: the range that holds it, without tokens. -/
def descOf (s : State) (n : Nat) : Option (List Byte) :=
  (s.headCmd 0 0).bind (fun c => let q := reach s 0 c false c.x.toNat n
    if q == .ok q.segs && poisonSegs s q.segs == none && (tierUnits q.segs).isEmpty && c.prog.due.isEmpty && c.dead.isEmpty
      && (ringDst c.i).isNone then some (readSegs (touchSegs s 0 c q.segs) 0 c q.segs).2 else none)
/-- CommandEvents: a descriptor of each kind that is one, and one of zeros. -/
theorem witness_descriptors :
    (let i : Instr := .xcopy 0 3 0 8 (.addr (.reg 1)) (.reg 2) (.reg 4) (some 0x40C000000000)
     let one := (toBytes 4 1 ++ toBytes 4 1 ++ toBytes 4 1 ++ toBytes 4 1) ++ List.replicate 112 0
     ((descOf (described i one) 128).bind (fun d => patternOf d 8)).isSome = true ∧
     (descOf (command i) 128).map (fun d => (patternOf d 8).isNone) = some true) ∧
    (let i : Instr := .xcoll 0 1 0 1 0 (.reg 1) (.reg 2) (.reg 4) 0x40C000000000
     let two := toBytes 4 7 ++ toBytes 2 2 ++ List.replicate 58 0
     (descOf (described i two) 64).bind (fun d => collOf d false) = some (7, 2, 0, 0) ∧
     (descOf (command i) 64).map (fun d => (collOf d false).isNone) = some true) := by decide +kernel

/-- A layer of one head of 32 elements, sixteen tokens to a block and one tick to a block's lease. -/
def layer_ : BitVec 128 := BitVec.ofNat 128 (2 + 1 * 2 ^ 16 + 16 * 2 ^ 32 + 2 ^ 48 + 2 ^ 64)
/-- `command` in a function whose block store has layer 0 and block 1, of the package given. -/
def stored (i : Instr) (pkg : Nat) : State := { command i with
  fns := [(1, { en := true, store := { layers := [(0, layer_)], stage1 := [(1, { pkg := pkg, gbn := 0 })]
                                       blocks := [(0, { paddr := 0x200000, fmt := 2, paid := 9, ref := 1 })] } })] }
/-- What CommandEvents asks of a command of the block store: the head of its channel, ready, no bad table, no package
asked; with whether its sequence is bad, its layer absent, its name live and reached, and its count. -/
def kvCase (s : State) : Option (Bool × Bool × Option Bool × Nat) :=
  (s.headCmd 0 0).bind (fun c =>
    if cmdReady s 0 0 && ((startNames c.i c).findSome? (s.badTable 1)).isNone && !s.routes.contains (askedPkg s 1 c) then
      some (field c.b 52 12 != 0, (s.layer 1 (field c.b 20 8)).isNone,
        (s.kvLive 1 (field c.b 0 52)).map s.kvReach, c.c.toNat)
    else none)
/-- CommandEvents: KVALLOC, KVFREE, KVSHARE and KVCOMMIT, with no bad table and no package asked. -/
theorem witness_kv_names : [Instr.kvalloc 0 0 (.reg 8) (.reg 9), .kvfree 0 0 (.reg 8), .kvshare 0 0 (.reg 8) (.reg 9),
    .kvcommit 0 false 0 (.reg 8) (.reg 9)].all (fun i => (kvCase (stored i 0)).isSome) = true := by decide +kernel
/-- KVGET, KVAPPEND and KVSUM of a name and a count. -/
def kvget_ (b : BitVec 6) (c : Sel) : Instr := .kvget 0 0 0 (.addr (.reg 1)) (.reg b) c
def kvappend_ (b c : BitVec 6) : Instr := .kvappend 0 false 0 (.reg 1) (.reg b) (.reg c)
def kvsum_ (b c : BitVec 6) : Instr := .kvsum 0 0 (.reg 1) (.reg b) (.reg c)
/-- A KVGET of more than a block, in a launch of many ring slots. -/
def long : State := { after (exec (.kvget 0 0 0 (.ring 0) (.reg 8) (.ext 66048))
    { at_ .x with launches := [{ lau with occRing := List.replicate 16 200 }] }) with fns := (stored .nop 0).fns }
/-- CommandEvents: each case of KVGET. -/
theorem witness_kvget :
    [kvCase (stored (kvget_ 6 (.reg 7)) 0), kvCase (command (kvget_ 8 (.reg 7))), kvCase long,
      kvCase (stored (kvget_ 9 (.reg 7)) 0), kvCase (stored (kvget_ 8 (.reg 7)) 0), kvCase (stored (kvget_ 8 (.reg 7)) 5)] ==
    [some (true, true, none, 0), some (false, true, none, 0), some (false, false, some true, 66048),
      some (false, false, none, 0), some (false, false, some true, 0), some (false, false, some false, 0)] := by
  decide +kernel
/-- CommandEvents: each case of KVAPPEND and of KVSUM. -/
theorem witness_kvappend_kvsum :
    [kvCase (stored (kvappend_ 6 8) 0), kvCase (command (kvappend_ 8 8)), kvCase (stored (kvappend_ 8 7) 0),
      kvCase (stored (kvappend_ 8 8) 0), kvCase (stored (kvsum_ 6 8) 0), kvCase (command (kvsum_ 8 8)),
      kvCase (stored (kvsum_ 8 10) 0), kvCase (stored (kvsum_ 8 8) 0)] ==
    [some (true, true, none, 1), some (false, true, none, 1), some (false, false, some true, 0),
      some (false, false, some true, 1), some (true, true, none, 1), some (false, true, none, 1),
      some (false, false, some true, 4096), some (false, false, some true, 1)] := by decide +kernel

/-- CommandEvents: every command is ready at the head of its channel; and a ring that is set, and one that is not. -/
theorem witness_ready :
    (copyOps.all (fun i => cmdReady (command i) 0 0)) = true ∧
    (((command (.xfill 0 3 0 0 (.reg 1) (.reg 2) (.reg 4))).core 0).rng 0).set = true ∧
    (((command (.xfill 0 3 0 0 (.reg 1) (.reg 2) (.reg 4))).core 0).rng 5).set = false ∧
    ringDst (.xcopy 0 3 0 8 (.ring 0) (.reg 2) (.reg 4) none) = some 0 ∧ (8 : Nat) % 512 ≠ 0 := by decide +kernel

/-- Launches: a page the loader misses that was refused before, one that was not, a table that is poisoned, and a queue that
waits for a page. -/
theorem witness_loader_pages :
    (let s := entered 0x400000 0x01010001 1 true
     let q : Queue := { ldepth := 4, en := true, wptr := 1, qbase := 0x1000, refused := [0x300] }
     let u : State := { s with fns := [(1, { s.fn 1 with queues := [(0, q)] })] }
     let d := Memory.bytes u.hostMem 0x1000 64
     ((s.fn 1).q 0).refused = [] ∧ loaderChecks u d 1 0 0 1 = .error (.miss 0x300000) ∧
     (((u.fn 1).q 0).refused.contains (0x300000 / 4096)) = true ∧ ((u.fn 1).q 0).available = true) ∧
    (let s := { entered 0x400000 0x01010001 1 false with poison := [0x300000] }
     let d := Memory.bytes s.hostMem 0x1000 64
     (match loaderChecks s d 0 0 0 1 with
      | .error (.bad _) => true
      | _ => false) = true ∧ ((s.fn 0).q 0).available = true) ∧
    (let f : Fn := { reqs := [{ id := 3, group := 0, page := 0, write := false }] }
     ({ st with fns := [(1, f)] } : State).answered 1 3 = false ∧ st.answered 1 3 = true) ∧
    recordOf (Memory.bytes [] 0 64) 0 0 0 1 = none := by decide +kernel

/-- Scheduling: a context that waits and one that does not, each alone in its gang, as a switch begins; a core to put aside
and one put aside; a single launch; and a launch that is pre-empted, by another and by none. -/
theorem witness_switches :
    (let s := with_ .s0 (fun x => { x with state := .waiting, wait := some .escalated })
     (0, 0) ∈ s.live 1 ∧ (s.ctx 0 0).out = false ∧ s.gangSlots 0 0 = [(0, 0)] ∧ (s.ctx 0 0).state = .waiting) ∧
    ((0, 0) ∈ st.live 1 ∧ (1, 0) ∉ st.live 1 ∧ (st.ctx 0 0).out = false ∧ st.gangSlots 0 0 = [(0, 0)] ∧
      (st.ctx 0 0).state ≠ .waiting ∧ (st.ctx 0 0).blocked = false) ∧
    (let u := park st 1 0
     (0 : Nat) < 1024 ∧ (Tbl.find u.cores (parkKey 1 0)).map (·.ctx) = some [(0, ctx0)] ∧
     (ctx0.timedOut u.now) = false ∧ ((unpark u 1 0).ctx 0 0).state = .ready) ∧
    (st.launches = [lau] ∧ lau.fn = 1 ∧ lau.cores = [0] ∧ (st.core 0).launch = some lau.id ∧ st.placedOf 1 = [lau] ∧
      (st.fn 1).answers = []) ∧
    (let l : Launch := { lau with state := .preempted, by_ := some 2 }
     let s : State := { shared none (fun x => { x with out := true }) with launches := [l, next_] }
     s.launch? 1 = some l ∧ (s.core 0).launch = some 1 ∧
     (s.slots.all (fun m => (s.ctx m.1 m.2).launch != 1 || (s.ctx m.1 m.2).out)) = true ∧
     (park s 1 0).launch? 2 = some next_) := by decide +kernel

/-- BoardAndManagement: a bucket, a block that a poisoned unit lies in, and the items that MWSEL names. -/
theorem witness_board :
    0 ≤ (st.bucket 1 0).tokens ∧ 0 ∈ quadCores ({ st with sel := 0x100 } : State).selQuad ∧
    (let s := ({ st with patrolR := 0xFFFFFFFFFFFF, poison := [0x100000] } : State).updStore 1 (fun d => { d with
       blocks := [(0, { paddr := 0x100000, fmt := 0, paid := 9, ref := 1 })] })
     s.patrolled 0x100000 = true ∧ 2 ≤ s.symbolsWrong 0x100000 ∧ s.blockOf 0x100000 = some (1, 0)) ∧
    ([0x007, 0x012, 0x1000, 0x1001, 0x1100, 0x1200, 0x1202, 0x1300, 0x1400].all (fun it =>
      let s := { with_ .s0 (fun x => { x with wait := some .escalated }) with mwsel := BitVec.ofNat 64 (it * 65536) }
      s.target == some (0, 0) && mtsMgmtOk s 0x832 0)) = true := by decide +kernel

/-- HostAndPod: what another package asks: of no tenant, of one whose page is there, is missing, and is refused. -/
theorem witness_pod_asks :
    (let a (o : Config.PodOp) : PodWait := { port := 0, src := 5, vl := 0, ask := ⟨9, o⟩ }
     let s (s2 : Bool) : State :=
       let t := entered 0x400000 0x01010001 1 s2
       { t with fns := t.fns.map (fun f => (f.1, { f.2 with podId := 9 })) }
     st.tenantFn ⟨9, .nothing⟩ = none ∧ (s false).tenantFn (a .nothing).ask = some 0 ∧ (a .nothing).bad = false ∧
     (a .nothing).req = none ∧ (a .nothing).due = [] ∧
     (match podReach (s false) 0 (.read 0x1000 8) with
      | .ok segs => segs.length == 1
      | _ => false) = true ∧
     podReach (s false) 0 (.bytes 7 0 8) = .stop 9 none ∧
     (match podReach (s true) 1 (.read 0x1000 8) with
      | .miss 1 _ false => true
      | _ => false) = true) ∧
    st.tenantFn ⟨0, .nothing⟩ ≠ none ∧ st.oracle = [] ∧
    (keyed {} 1).oracle = [] ∧ ({ keyed {} 7 with oracle := [1] } : State).oracle = 1 :: [] := by decide +kernel

/-! ## Single operations, with results worked out from the spec -/

/-- What an operation of `sl` puts in flight in the small state. -/
def lands (sl : Slot) (i : Instr) : List Land := (after (exec i (at_ sl))).me.flight.flatMap (·.lands)
/-- The value of the vector an operation puts in flight. -/
def vectorOf (i : Instr) (v2 : Vec) (v3 : Vec := 0) : Vec :=
  let s := with_ .v0 (fun x => { x with bank := { x.bank with v := [(2, v2), (3, v3)] } })
  match ((after (exec i s)).me.flight.flatMap (·.lands)).head? with
  | some (Land.v _ x _) => x
  | _ => 0
/-- The flags it raises. -/
def flagsOf (i : Instr) (v2 : Vec) (v3 : Vec := 0) : List Word :=
  let s := with_ .v0 (fun x => { x with bank := { x.bank with v := [(2, v2), (3, v3)] } })
  ((after (exec i s)).me.flight.flatMap (·.lands)).filterMap (fun l => match l with
    | Land.flags f => some f
    | _ => none)

/-- R126: sums are modulo 2^64, and a high product has the sign of its operands. -/
theorem test_scalar_wrap :
    lands .s0 (.add 0 1 (.reg 6) (.reg 8)) = [.s 1 0 (BitVec.allOnes 64)] ∧
    lands .s0 (.mulh 0 false 1 (.reg 6) (.reg 8)) = [.s 1 (-1) (BitVec.allOnes 64)] ∧
    lands .s0 (.mulh 0 true 1 (.reg 6) (.reg 8)) = [.s 1 0 (BitVec.allOnes 64)] := by decide +kernel
/-- R127: -2^63 / -1 gives -2^63, and a divisor of zero gives all ones with IDZ. -/
theorem test_div_corners :
    lands .s0 (.div 0 false 1 (.ext 0x8000000000000000) (.reg 6)) = [.s 1 0x8000000000000000 (BitVec.allOnes 64)] ∧
    lands .s0 (.rem 0 true 1 (.reg 6) (.reg 7)) = [.s 1 (-1) (BitVec.allOnes 64), .flags 32] := by decide +kernel
/-- R126: shifts and rotates take the count modulo 64; a narrow immediate is sign-extended (R98). -/
theorem test_shifts :
    lands .s0 (.shr 0 true 1 (.ext 0x8000000000000000) (.imm 65)) = [.s 1 0xC000000000000000 (BitVec.allOnes 64)] ∧
    lands .s0 (.rot 0 1 (.ext 0x8000000000000001) (.imm 1)) = [.s 1 3 (BitVec.allOnes 64)] ∧
    lands .s0 (.li 0 1 (.imm 127)) = [.s 1 (-1) (BitVec.allOnes 64)] := by decide +kernel
/-- R128: `-1 < 1` signed and not unsigned. -/
theorem test_compare :
    lands .s0 (.cmp 0 .lt 1 (.reg 6) (.reg 8)) = [.p 2 (BitVec.allOnes 128) (BitVec.allOnes 128), .p 3 0 (BitVec.allOnes 128)] ∧
    lands .s0 (.cmp 0 .ltn 1 (.reg 6) (.reg 8)) = [.p 2 0 (BitVec.allOnes 128), .p 3 (BitVec.allOnes 128) (BitVec.allOnes 128)] := by
  decide +kernel
/-- R131, R132: a store of four bytes is little-endian and a load of two is zero-extended. -/
theorem test_store_load :
    (let s := after (exec (.st 0 2 false 6 1 (.short 6)) (at_ .s0))
     Memory.bytes s.mem 0xC000000004 8 = [0, 0, 0xFF, 0xFF, 0xFF, 0xFF, 0, 0] ∧
       ((after (exec (.ld 0 1 false 9 1 40 (.short 5)) s)).me.flight.map (fun f => (f.due, f.lands)) =
         [(40, [.s 9 0xFF00 (BitVec.allOnes 64)])])) := by decide +kernel
/-- R112: from its own scratchpad a load lands after 6 cycles, from tier 2 after 760, or at a later ARRIVAL. -/
theorem test_load_arrival :
    (after (exec (.ld 0 3 false 9 1 0 (.short 3)) (at_ .s0))).me.flight.map (·.due) = [6] ∧
    (after (exec (.ld 0 3 false 9 2 0 (.short 3)) (at_ .s0))).me.flight.map (·.due) = [760] ∧
    (after (exec (.ld 0 3 false 9 2 761 (.short 3)) (at_ .s0))).me.flight.map (·.due) = [761] := by decide +kernel
/-- R138, R139: the link is the next bundle's address; LOOP counts down and goes back while the count is not zero. -/
theorem test_branches :
    ((after (exec (.br 0 61 0) { coded 0xA000000000000000 with issue := (at_ .s1).issue })).me.flight.map (·.lands)) =
      [[.s 61 0x10010 (BitVec.allOnes 64)]] ∧
    (after (exec (.loop 0 9 0) { coded 0xA000000000000000 with issue := (at_ .s1).issue })).me.pc = 0x10000 ∧
    lands .s1 (.loop 0 8 0) = [.s 8 0 (BitVec.allOnes 64), .rotate] := by decide +kernel
/-- R146, R149: TRAP saves the next bundle's address, SOFT and the code in TRAPINFO, and goes to TRAPVEC. -/
theorem test_trap_entry :
    (let s := with_ .s1 (fun x => { x with trap := { x.trap with vec := 0x10040 } })
     let t := (after (exec (.trap 0 (.imm 5)) s)).me
     t.pc = 0x10040 ∧ t.trap.pc = 0x10010 ∧ t.trap.isIn = true ∧ t.trap.cause = 10) := by decide +kernel
/-- R54, R55: 4,096 bytes of tier 1 for 100 ticks at rate 8 cost 3,276,800. -/
theorem test_rent_charge :
    (after (exec (.rent 0 1 0 false false 0 13 1 (.reg 10) (.reg 9) (.reg 6)) (at_ .s0))).purse 1 = 10000000 - 3276800 := by
  decide +kernel
/-- R60: a region vacated at tick 10 of 1,000 returns (1000 - 10 - 1) ticks of 65,536 bytes at rate 8. -/
theorem test_vacate_refund :
    lands .s0 (.vacate 0 false 13 (.reg 1)) = [.s 13 (BitVec.ofNat 64 (989 * 65536 * 8)) (BitVec.allOnes 64)] := by
  decide +kernel
/-- R223: the second of two arrivals changes the phase. -/
theorem test_barrier_phase :
    cellArrive 2 = 0x10002 ∧ cellArrive 0x10002 = 0x100000002 ∧ cellArrive 0xFFFFFFFF00000001 = 1 := by decide +kernel
/-- R153: i8 sums wrap, and with `.sat` they stop at 127. -/
theorem test_vector_integers :
    vectorOf (.vadd 0 .i8 .dyn false ⟨false, 1⟩ (.reg 2) (.reg 2)) 0x64 = 0xC8 ∧
    vectorOf (.vadd 0 .i8 .dyn true ⟨false, 1⟩ (.reg 2) (.reg 2)) 0x64 = 0x7F ∧
    flagsOf (.vadd 0 .i8 .dyn true ⟨false, 1⟩ (.reg 2) (.reg 2)) 0x64 = [] := by decide +kernel
/-- R154: 1.0 + 2^-24 is a tie that goes to the even 1.0 and is inexact (NX is bit 4 of FPFLAGS). -/
theorem test_vector_add_f32 :
    flagsOf (.vadd 0 .f32 .dyn false ⟨true, 1⟩ (.reg 2) (.reg 3)) 0x3F800000 0x33800000 = [16] ∧
    vectorOf (.vadd 0 .f32 .rne false ⟨false, 1⟩ (.reg 2) (.reg 3)) 0x3F800000 0x33800000 = 0x3F800000 ∧
    vectorOf (.vadd 0 .f32 .rup false ⟨false, 1⟩ (.reg 2) (.reg 3)) 0x3F800000 0x33800000 = 0x3F800001 := by decide +kernel
/-- R156: (1 + 2^-23)^2 - (1 + 2^-22) is 2^-46 in one rounding. -/
theorem test_vector_fma :
    elem 32 0 (vectorOf (.vfma 0 .f32 .dyn false true ⟨false, 1⟩ (.reg 2) (.reg 2) (.reg 3)) 0x3F800001 0x3F800002) = 0x28800000 := by
  decide +kernel
/-- R159: f32 1.00390625 is a tie between two bf16 values and goes to the even one; 1.01171875 goes up. -/
theorem test_convert_bf16 :
    elem 16 0 (vectorOf (.vcvt 0 .bf16 .f32 .dyn false ⟨false, 1⟩ (.reg 2)) 0x3F808000) = 0x3F80 ∧
    elem 16 0 (vectorOf (.vcvt 0 .bf16 .f32 .dyn false ⟨false, 1⟩ (.reg 2)) 0x3F818000) = 0x3F82 := by decide +kernel
/-- R157: a compare with a NaN is false but for NE. -/
theorem test_vector_compare_nan :
    (vcmpE .f32 .eq 0x7FC00000 0x7FC00000).1 = false ∧ (vcmpE .f32 .ne 0x7FC00000 0x7FC00000).1 = true ∧
    (vcmpE .f32 .le 0x7FC00000 0).1 = false := by decide +kernel
/-- R161, R167: element i of VROT is element i + n, and of VIDX it is i. -/
theorem test_vector_moves :
    elem 8 0 (vectorOf (.vrot 0 .n8 ⟨false, 1⟩ (.reg 2) (.reg 3)) 0x030201 1) = 2 ∧
    elem 8 127 (vectorOf (.vidx 0 .n8 ⟨false, 1⟩) 0) = 127 := by decide +kernel
/-- R178, R179: RINGQ reads SET in bit 63, the slots, and FULL. -/
theorem test_ring_word : lands .m (.ringq 0 0 1) = [.s 1 0x8002000000000002 (BitVec.allOnes 64)] := by decide +kernel
/-- R198: a command enters its channel's queue, which its issue counts. -/
theorem test_command_queued :
    ((after (exec (.xfill 0 3 2 0 (.reg 1) (.reg 2) (.reg 4)) (at_ .x))).core 0 |>.chn 2).issued = 1 := by decide +kernel
/-- R318, R320: a core hotter than HEAT.HIGH is HOT. -/
theorem test_heat : (heatColumn st { temps := [96, 0, 0, 0] }).hot = true ∧ (heatColumn st { temps := [95, 0, 0, 0] }).hot = false := by
  decide +kernel
/-- R328, R330: a load of a unit with one wrong symbol puts it right and counts it in CE. -/
theorem test_load_corrects :
    (let t := after (exec (.ld 0 3 false 9 1 0 (.short 1)) { at_ .s0 with wrong := [(0xC000000000, 2)] })
     t.wrong = [] ∧ t.errCe = 1 ∧ t.errUe = 0) := by decide +kernel
/-- R331: a register-file word that can be corrected counts in CE; one that cannot escalates with POISON, TRAPADDR 0. -/
theorem test_register_file_word :
    (applyUpset st (.word 0 0 false)).errCe = 1 ∧ ((applyUpset st (.word 0 0 true)).ctx 0 0).escNext = some (true, 0) := by
  decide +kernel
/-- A bundle placed where the next step fetches it is what the next step runs. -/
theorem test_fetch_word :
    (after (step (State.reset.withFetchWord 128 (0xA000000000000000 + 0x13000CA800000000 * 2 ^ 64)))).me.flight.map (·.lands) =
      [[.s 12 40 (BitVec.allOnes 64)]] := by decide +kernel


end Sys2Proof.Tests
end

section
/-!
PROOFS. Scalar arithmetic, selection and traps (R127, R129, R147, R149): what a division, SEL and TRAP do when they
issue, what the decoder asks of a SEL, and what an escalation leaves.
-/
namespace Sys2Proof

/-! ## The decoder's steps, read backwards -/

/-- Where two decoding steps in a row answer, the first one answers what the second goes on from. -/
theorem dec_bind_eq_ok {α β : Type} {x : Dec α} {f : α → Dec β} {b : β} :
    (x >>= f) = .ok b ↔ ∃ a, x = .ok a ∧ f a = .ok b := by
  cases x with
  | error e => exact ⟨(nomatch ·), fun ⟨_, h, _⟩ => nomatch h⟩
  | ok a => simp

/-- A syllable the decoder accepts has fields of its class. -/
theorem decodeSlot_eq_ok {sl : Slot} {w n : Word} {i : Instr} (h : decodeSlot sl w n = .ok i) :
    ∃ x i', decFields sl (Syl.unpack w) x = .ok i' := by
  obtain ⟨_, _, h⟩ := dec_bind_eq_ok.mp h
  obtain ⟨i', hf, _⟩ := dec_bind_eq_ok.mp h
  exact ⟨_, i', hf⟩

/-- In a slot of the S class the opcodes 0x01 to 0x1F are those of the general S class (R102). -/
theorem decFields_general {sl : Slot} (y : Syl) (x : Option Word) (hs : sl.cls = .s) (h0 : y.op.toNat ≠ 0)
    (h : y.op.toNat < 0x20) : decFields sl y x = decS y.op.toNat y.g y.mod x y.rest := by
  have hop : y.op ≠ 0 := fun he => h0 (by rw [he]; rfl)
  simp only [decFields, beq_eq_false_iff_ne.mpr hop, hs, h, if_true, Bool.false_eq_true, if_false]

/-- A predicate field names a predicate (R99). -/
theorem predOf_eq_ok {f : BitVec 8} {p : BitVec 4} (h : predOf f = .ok p) : f.toNat < 16 := by
  unfold predOf at h
  split at h
  · assumption
  · cases h

/-- A SEL that decodes has a predicate in its field C (R129). -/
theorem decS_sel_pred {g m : BitVec 4} {x : Option Word} {r : BitVec 48} {i : Instr} (h : decS 0x11 g m x r = .ok i) :
    (F3.unpack r).c.toNat < 16 := by
  obtain ⟨_, _, h⟩ := dec_bind_eq_ok.mp h
  obtain ⟨_, _, h⟩ := dec_bind_eq_ok.mp h
  obtain ⟨_, hc, _⟩ := dec_bind_eq_ok.mp h
  exact predOf_eq_ok hc

theorem Syl.unpack_op_toNat (w : Word) : (Syl.unpack w).op.toNat = Machine.field w 56 6 := by
  simp [Syl.unpack, Machine.field, Nat.shiftRight_eq_div_pow]

theorem F3.unpack_rest_c_toNat (w : Word) : (F3.unpack (Syl.unpack w).rest).c.toNat = Machine.field w 16 8 := by
  simp only [F3.unpack, Syl.unpack, Machine.field, BitVec.extractLsb'_toNat, Nat.shiftRight_eq_div_pow]
  omega

end Sys2Proof

namespace Sys2Proof.Machine

/-! ## Issue -/

/-- SEL is guarded by bit 0 of the issuing context's own predicate, in a gang too (R8, R34). -/
theorem guardOn_sel (s : State) (g : BitVec 4) (d : BitVec 6) (c : BitVec 4) (a b : Sel) :
    s.guardOn (.sel g d c a b) = (s.pred g).getLsbD 0 := by
  have hb : s.guardBank (.sel g d c a b) = s.me.bank := by
    unfold State.guardBank
    split <;> rfl
  simp only [State.guardOn, hb]
  rfl

/-! ## Division (R127) -/

theorem quotient_zero (u : Bool) (x : Word) : quotient u x 0 = BitVec.allOnes 64 := rfl
theorem remainder_zero (u : Bool) (x : Word) : remainder u x 0 = BitVec.allOnes 64 := rfl

theorem quotient_of_ne_zero (u : Bool) (x : Word) {y : Word} (h : y ≠ 0) : quotient u x y =
    if u then BitVec.ofNat 64 (x.toNat / y.toNat) else BitVec.ofInt 64 (x.toInt.tdiv y.toInt) := if_neg h

/-- The signed remainder is what the truncated quotient leaves. -/
theorem remainder_of_ne_zero (u : Bool) (x : Word) {y : Word} (h : y ≠ 0) : remainder u x y =
    if u then BitVec.ofNat 64 (x.toNat % y.toNat)
    else BitVec.ofInt 64 (x.toInt - x.toInt.tdiv y.toInt * y.toInt) := by
  rw [remainder, if_neg h, Int.tmod_def, Int.mul_comm]

/-- What a division puts in flight: the value, and IDZ for a divisor of zero. -/
def divLands (d : BitVec 6) (v y : Word) : List Land :=
  .s d.toNat v (BitVec.allOnes 64) :: if y = 0 then [.flags 32] else []

theorem divLands_zero (d : BitVec 6) (v : Word) :
    divLands d v 0 = [.s d.toNat v (BitVec.allOnes 64), .flags 32] := rfl
theorem divLands_of_ne_zero (d : BitVec 6) (v : Word) {y : Word} (h : y ≠ 0) :
    divLands d v y = [.s d.toNat v (BitVec.allOnes 64)] := by rw [divLands, if_neg h]

theorem completes_div (s : State) (g : BitVec 4) (u : Bool) (d : BitVec 6) (a b : Sel) :
    Completes (.div g u d a b) s (s.land 20 (divLands d (quotient u (s.src a) (s.src b)) (s.src b))) :=
  fun h => exec_issues h rfl rfl
theorem completes_rem (s : State) (g : BitVec 4) (u : Bool) (d : BitVec 6) (a b : Sel) :
    Completes (.rem g u d a b) s (s.land 20 (divLands d (remainder u (s.src a) (s.src b)) (s.src b))) :=
  fun h => exec_issues h rfl rfl

/-- The one signed quotient that does not fit wraps to the dividend, and leaves nothing. -/
theorem tdiv_overflow {x y : Word} (hx : x.toInt = -2 ^ 63) (hy : y.toInt = -1) :
    BitVec.ofInt 64 (x.toInt.tdiv y.toInt) = x ∧
    BitVec.ofInt 64 (x.toInt - x.toInt.tdiv y.toInt * y.toInt) = 0 := by
  have hx' : x = BitVec.ofInt 64 (-2 ^ 63) := by rw [← hx, BitVec.ofInt_toInt]
  rw [hx, hy, hx']
  decide

/-! ## SEL (R129) -/

theorem completes_sel (s : State) (g : BitVec 4) (d : BitVec 6) (c : BitVec 4) (a b : Sel) :
    Completes (.sel g d c a b) s (s.landS 1 d (if (s.pred c).getLsbD 0 then s.src a else s.src b)) :=
  fun h => exec_issues h rfl rfl

/-- A SEL of a checked bundle whose guard is clear writes nothing. -/
theorem exec_sel_guard_clear {s : State} {g : BitVec 4} (hc : s.issue.checked = true)
    (hg : (s.pred g).getLsbD 0 = false) (d : BitVec 6) (c : BitVec 4) (a b : Sel) :
    exec (.sel g d c a b) s = .next s :=
  issueOp_guard (c := noChk) (.inl hc) (by rw [guardOn_sel, hg])

/-! ## Traps -/

/-- Outside a gang, a trap that reports nothing beside itself is the entry of its own context. -/
theorem trap_of_no_gang {s : State} {k : Nat} (j : Nat) (late partner : Bool) {f : Flt} (pc : Word) (rep : Nat)
    (hg : (s.core k).gang = none) (hu : f.ue = none) (hr : f.report = none) :
    s.trap k j late partner f pc rep =
      enterTrap s k j ((s.core k).ic + if late then 1 else 0) partner f pc rep := by
  simp only [State.trap, State.report, hu, hr, hg]

theorem isLead_of_no_gang {s : State} (hg : s.myCore.gang = none) : s.isLead = true := by
  simp only [State.isLead, hg]

/-- Outside a gang TRAP is the SOFT trap of its context (R149). -/
theorem completes_trap_of_no_gang {s : State} (g : BitVec 4) (a : Sel) (hg : s.myCore.gang = none) :
    Completes (.trap g a) s (s.softTrap s.issue.core s.issue.ctx (s.src a)) :=
  fun h => exec_issues h rfl (if_pos (isLead_of_no_gang hg))

theorem softTrap_of_no_gang {s : State} (hg : s.myCore.gang = none) (v : Word) :
    s.softTrap s.issue.core s.issue.ctx v =
      enterTrap s s.issue.core s.issue.ctx (s.myCore.ic + 1) s.issue.partner
        { cause := .soft, addr := 0, slot := 1, tcode := field v 0 32 } s.issue.next 0 :=
  trap_of_no_gang _ true _ _ _ hg rfl rfl

/-! ## Escalation (R147) -/

/-- An update of a core that keeps its contexts changes no context. -/
theorem State.ctx_updCore_of_ctx {s : State} {k : Nat} {f : CoreSt → CoreSt} (hf : (f (s.core k)).ctx = (s.core k).ctx)
    (m i : Nat) : (s.updCore k f).ctx m i = s.ctx m i := by
  simp only [State.ctx, State.core_updCore]
  split
  · next h => rw [h, CoreSt.slot, hf]; rfl
  · rfl

theorem State.ctx_updLaunch (s : State) (l : Nat) (g : Launch → Launch) (m i : Nat) :
    (s.updLaunch l g).ctx m i = s.ctx m i := rfl
theorem State.ctx_hevent (s : State) (e : HEvent) (m i : Nat) : (s.hevent e).ctx m i = s.ctx m i := rfl

theorem undoLandings_of_none {s : State} {k j : Nat} (f : Nat) (partner : Bool) (h : (s.ctx k j).undo = none) :
    undoLandings s k j f partner = s := by
  have h' : ((s.core k).slot j).undo = none := h
  simp only [undoLandings, h']

/-- Inside a handler or without a vector, a trap with no landing to undo is an escalation. -/
theorem enterTrap_escalates {s : State} {k j : Nat} (f : Nat) (partner : Bool) (flt : Flt) (pc : Word)
    (rep grank : Nat) (other : Bool) (hu : (s.ctx k j).undo = none)
    (h : (s.ctx k j).trap.isIn = true ∨ (s.ctx k j).trap.vec = 0) :
    enterTrap s k j f partner flt pc rep grank other = escalate s k j f partner flt pc rep := by
  simp only [enterTrap, undoLandings_of_none f partner hu]
  exact if_pos (by simpa using h)

/-- A context that waits for Hitik, with what it had in flight in the hold bank `b`. -/
def Ctx.escalated (x : Ctx) (b : Saved) (cause : Cause) (pc : Word) (rep : Nat) : Ctx :=
  { x with state := .waiting, wait := some .escalated, hold := some b, pc := pc, rep := rep, flight := []
           undo := none, badPages := [], blocked := false, bpSkip := cause = .brk, escd := true }

/-- An escalation on a user core changes the context that escalates, and no other. -/
theorem ctx_escalate {k : Nat} (hk : isHitik k = false) (s : State) (j f : Nat) (partner : Bool) (flt : Flt)
    (pc : Word) (rep m i : Nat) : (escalate s k j f partner flt pc rep).ctx m i =
      if m = k ∧ i = j then (s.ctx k j).escalated (saveBank s k j f partner pc rep) flt.cause pc rep
      else s.ctx m i := by
  simp only [escalate, hk, Bool.false_eq_true, if_false, State.ctx_hevent]
  have key : ∀ u : State, ((if partner then u else u.updCore k fun c => { c with latches := [] }).ctx m i) =
      u.ctx m i := fun u => by
    cases partner
    · exact State.ctx_updCore_of_ctx (f := fun c => { c with latches := [] }) rfl m i
    · rfl
  rw [key, apply_ite (fun u : State => u.ctx m i), State.ctx_updLaunch, ite_self, State.ctx_setCtx]
  rfl

/-- The report of an escalation on a user core (R307). -/
theorem hevents_escalate {k : Nat} (hk : isHitik k = false) (s : State) (j f : Nat) (partner : Bool) (flt : Flt)
    (pc : Word) (rep : Nat) : ∃ fn serial, (escalate s k j f partner flt pc rep).hevents = s.hevents ++
      [{ type := 1, fn, ctxid := ctxidLow k j, serial, cause := flt.cause.code
         inCause := if (s.ctx k j).trap.isIn then (s.ctx k j).trap.cause else 0, resume := pc, addr := flt.addr }] := by
  simp only [escalate, hk, Bool.false_eq_true, if_false, State.hevent]
  refine ⟨_, _, congrArg (· ++ _) ?_⟩
  cases partner <;> cases (s.ctx k j).escd <;> rfl

/-! ## The statements -/

/-- Settles O14: a division is one landing at latency 20, whose value and IDZ depend on whether the divisor is zero. -/
theorem divRem : Obligations.DivRem := by
  intro s g u d a b x y ones q r
  have hdiv : Completes (.div g u d a b) s (s.land 20 (divLands d (quotient u x y) y)) := completes_div s g u d a b
  have hrem : Completes (.rem g u d a b) s (s.land 20 (divLands d (remainder u x y) y)) := completes_rem s g u d a b
  refine ⟨fun hy => ?_, fun hy => ?_, fun hy => ?_, fun hy => ?_, fun hx hy hu => ?_, rfl, rfl⟩
  · rwa [divLands_of_ne_zero _ _ hy, quotient_of_ne_zero _ _ hy] at hdiv
  · rwa [divLands_of_ne_zero _ _ hy, remainder_of_ne_zero _ _ hy] at hrem
  · rwa [hy, quotient_zero, divLands_zero] at hdiv
  · rwa [hy, remainder_zero, divLands_zero] at hrem
  · subst hu
    exact tdiv_overflow hx hy

/-- Settles O16: the chosen source lands, a clear guard writes nothing, and the decoder takes a predicate in C alone. -/
theorem selectResult : Obligations.SelectResult := by
  refine ⟨fun s g d c a b => ?_, fun sl w n i hs hop h => ?_⟩
  · have hsel := completes_sel s g d c a b
    refine ⟨fun hc => ?_, fun hc => ?_, fun hk hg => exec_sel_guard_clear hk hg d c a b⟩
    · rwa [if_pos hc] at hsel
    · rwa [if_neg (Bool.eq_false_iff.mp hc)] at hsel
  · obtain ⟨x, i', hf⟩ := decodeSlot_eq_ok h
    rw [← Syl.unpack_op_toNat] at hop
    rw [decFields_general _ _ hs (by omega) (by omega), hop] at hf
    rw [← F3.unpack_rest_c_toNat]
    exact decS_sel_pred hf

/-- Settles O34: outside a gang TRAP is the SOFT trap of its own context, entered one issue cycle on. -/
theorem softwareTrap : Obligations.SoftwareTrap := by
  refine ⟨fun s g a hg => ?_, fun _ _ => rfl, by decide⟩
  rw [← softTrap_of_no_gang hg]
  exact completes_trap_of_no_gang g a hg

/-- Settles O37: such a trap is an escalation, which replaces the one context and adds one report. -/
theorem escalation : Obligations.Escalation := by
  intro s k j f flt pc rep grank other hk hu hin t
  have ht : t = escalate s k j f false flt pc rep := enterTrap_escalates f false flt pc rep grank other hu hin
  have hx : t.ctx k j = (s.ctx k j).escalated (saveBank s k j f false pc rep) flt.cause pc rep := by
    rw [ht, ctx_escalate hk, if_pos ⟨rfl, rfl⟩]
  have hothers : ∀ m n, (m ≠ k ∨ n ≠ j) → t.ctx m n = s.ctx m n := fun m n hmn => by
    rw [ht, ctx_escalate hk, if_neg (by omega)]
  obtain ⟨fn, serial, he⟩ := hevents_escalate hk s j f false flt pc rep
  rw [hx]
  exact ⟨rfl, rfl, rfl, rfl, rfl, rfl, rfl, hothers, enterTrap_memories .., _, ht ▸ he, rfl, rfl, rfl, rfl⟩

end Sys2Proof.Machine
end

section
/-!
PROOFS. Encodings (R93 to R103): each step of the decoder read backwards, so that a syllable the decoder accepts is the
encoding of what it reads.
-/
namespace Sys2Proof

/-! ## What a decoding step can answer -/

/-- `P` holds of whatever the decoding step answers. -/
def Reads {α : Type} (x : Dec α) (P : α → Prop) : Prop := ∀ a, x = .ok a → P a

@[simp] theorem reads_bind {α β : Type} {x : Dec α} {f : α → Dec β} {P : β → Prop} :
    Reads (x >>= f) P ↔ Reads x (fun a => Reads (f a) P) := by
  simp only [Reads, dec_bind_eq_ok]
  exact ⟨fun h a ha b hb => h b ⟨a, ha, hb⟩, fun h b ⟨a, ha, hb⟩ => h a ha b hb⟩
@[simp] theorem reads_ok {α : Type} {a : α} {P : α → Prop} : Reads (.ok a) P ↔ P a :=
  ⟨fun h => h a rfl, fun h _ hb => Except.ok.inj hb ▸ h⟩
@[simp] theorem reads_pure {α : Type} {a : α} {P : α → Prop} : Reads (pure a) P ↔ P a := reads_ok
@[simp] theorem reads_error {α : Type} {e : DecodeErr} {P : α → Prop} : Reads (.error e) P ↔ True :=
  iff_true_intro fun _ h => nomatch h
@[simp] theorem reads_ite {α : Type} {c : Prop} [Decidable c] {x y : Dec α} {P : α → Prop} :
    Reads (if c then x else y) P ↔ (c → Reads x P) ∧ (¬c → Reads y P) := by
  split <;> rename_i h <;> simp [h]

/-- What a step answers is told by the condition `E`. -/
theorem reads_of_iff {α : Type} {x : Dec α} {E P : α → Prop} (h : ∀ a, x = .ok a ↔ E a) :
    Reads x P ↔ ∀ a, E a → P a := by simp only [Reads, h]

@[simp] theorem reads_need {b : Bool} {e : DecodeErr} {P : Unit → Prop} : Reads (need b e) P ↔ (b = true → P ()) := by
  cases b <;> simp [need, reads_ok, reads_error]
@[simp] theorem reads_zero {n : Nat} {f : BitVec n} {P : Unit → Prop} : Reads (zero f) P ↔ (f = 0#n → P ()) := by
  simp only [zero, reads_need, beq_iff_eq]
  rfl
@[simp] theorem reads_get {α : Type} {o : Option α} {e : DecodeErr} {P : α → Prop} :
    Reads (get o e) P ↔ ∀ x, o = some x → P x :=
  reads_of_iff fun x => by cases o <;> simp [get]

/-- Whether `p` holds of what a decoding step answers, where it answers. -/
def okAll {α : Type} (x : Dec α) (p : α → Bool) : Bool :=
  match x with
  | .ok a => p a
  | .error _ => true

theorem of_okAll {α : Type} {x : Dec α} {p : α → Bool} {a : α} (h : okAll x p = true) (hx : x = .ok a) :
    p a = true := by subst hx; exact h

/-- A field that reads back what was written, and is rewritten as what was read, is told by its code. -/
theorem reads_code {α β : Type} [DecidableEq β] {dec : β → Dec α} {code : α → β} {P : α → Prop} {f : β}
    (h : okAll (dec f) (fun a => code a == f) = true) (hc : ∀ a, dec (code a) = .ok a) :
    Reads (dec f) P ↔ ∀ a, f = code a → P a :=
  reads_of_iff fun a => ⟨fun hx => (beq_iff_eq.mp (of_okAll (p := fun a => code a == f) h hx)).symm, fun hf => hf ▸ hc a⟩

/-! ## Fields (R98, R99, R101) -/

@[simp] theorem reads_regOf {f : BitVec 8} {P : BitVec 6 → Prop} : Reads (regOf f) P ↔ ∀ r, f = rcode r → P r :=
  reads_code (by revert f; decide) regOf_rcode
@[simp] theorem reads_predOf {f : BitVec 8} {P : BitVec 4 → Prop} : Reads (predOf f) P ↔ ∀ p, f = pcode p → P p :=
  reads_code (by revert f; decide) predOf_pcode
@[simp] theorem reads_pairOf {f : BitVec 8} {P : BitVec 3 → Prop} : Reads (pairOf f) P ↔ ∀ p, f = pairCode p → P p :=
  reads_code (by revert f; decide) pairOf_pairCode
@[simp] theorem reads_tileOf {f : BitVec 8} {P : BitVec 3 → Prop} : Reads (tileOf f) P ↔ ∀ t, f = tcode t → P t :=
  reads_code (by revert f; decide) tileOf_tcode
@[simp] theorem reads_vdstOf {f : BitVec 8} {P : VDst → Prop} : Reads (vdstOf f) P ↔ ∀ d, f = d.code → P d :=
  reads_code (by revert f; decide) vdstOf_code
@[simp] theorem reads_tyOf {m : BitVec 4} {P : Ty → Prop} : Reads (tyOf m) P ↔ ∀ t, m = t.code → P t :=
  reads_code (by revert m; decide) tyOf_code
@[simp] theorem reads_rcOf {r : BitVec 3} {P : Rc → Prop} : Reads (rcOf r) P ↔ ∀ c, r = c.code → P c :=
  reads_code (by revert r; decide) rcOf_code
@[simp] theorem reads_scopeOf {m : BitVec 4} {P : Scope → Prop} : Reads (scopeOf m) P ↔ ∀ s, m = s.code → P s :=
  reads_code (by revert m; decide) scopeOf_code
@[simp] theorem reads_mfmtOf {m : BitVec 4} {P : MFmt → Prop} : Reads (mfmtOf m) P ↔ ∀ f, m = f.code → P f :=
  reads_code (by revert m; decide) mfmtOf_code
@[simp] theorem reads_flagOf {m : BitVec 4} {P : Bool → Prop} : Reads (flagOf m) P ↔ ∀ b, m = mod1 b → P b :=
  reads_code (by revert m; decide) flagOf_mod1
@[simp] theorem reads_eszOf {e : BitVec 3} {P : BitVec 2 → Prop} : Reads (eszOf e) P ↔ ∀ z, e = zcode z → P z :=
  reads_code (by revert e; decide) zcode_esz
@[simp] theorem reads_condOf {m : BitVec 4} {P : Cond → Prop} :
    Reads (condOf m.toNat) P ↔ ∀ c, m = BitVec.ofNat 4 c.code → P c :=
  reads_code (dec := fun m : BitVec 4 => condOf m.toNat) (by revert m; decide) (fun c => by cases c <;> rfl)
@[simp] theorem reads_condOf_aux {m : BitVec 3} {P : Cond → Prop} :
    Reads (condOf m.toNat) P ↔ ∀ c, m = BitVec.ofNat 3 c.code → P c :=
  reads_code (dec := fun m : BitVec 3 => condOf m.toNat) (by revert m; decide) (fun c => by cases c <;> rfl)

/-- A selector that the syllable admits: its latch exists, and its extension is the syllable's (R98). -/
def Sel.From (x : Option Word) : Sel → Prop
  | .latch n => n.toNat ≤ 11
  | .ext v => x = some v
  | _ => True

@[simp] theorem reads_selOf {x : Option Word} {f : BitVec 8} {P : Sel → Prop} :
    Reads (selOf x f) P ↔ ∀ s, f = s.code → s.From x → P s := by
  refine (reads_of_iff (E := fun s => f = s.code ∧ s.From x) fun s => ⟨fun h => ?_, fun ⟨hf, hx⟩ => ?_⟩).trans
    (by simp only [and_imp])
  · have hreg : ∀ f : BitVec 8, f.toNat < 0x40 → f = 0#2 ++ f.extractLsb' 0 6 := by decide
    have hlatch : ∀ f : BitVec 8, ¬f.toNat < 0x40 → f.toNat < 0x4C →
        f = 4#4 ++ f.extractLsb' 0 4 ∧ (f.extractLsb' 0 4).toNat ≤ 11 := by decide
    have himm : ∀ f : BitVec 8, ¬f.toNat < 0x7F → f ≠ 0x7F → f = 1#1 ++ f.extractLsb' 0 7 := by decide
    unfold selOf at h
    split at h
    · cases h; exact ⟨hreg f ‹_›, trivial⟩
    · split at h
      · cases h; exact hlatch f ‹_› ‹_›
      · split at h
        · cases h; exact ⟨beq_iff_eq.mp ‹_›, trivial⟩
        · split at h
          · cases h
          · split at h
            · cases x with
              | none => cases h
              | some v => cases h; exact ⟨beq_iff_eq.mp ‹_›, rfl⟩
            · cases h; exact ⟨himm f ‹_› (by simpa using ‹¬(f == 0x7F) = true›), trivial⟩
  · subst hf
    exact selOf_code x s (fun n hn => by subst hn; exact hx) (fun v hv => by subst hv; exact hx)

@[simp] theorem reads_offOf {x : Option Word} {o : BitVec 20} {P : Off → Prop} :
    Reads (offOf x o) P ↔ (∀ v, x = some v → o = 0#20 → P (.ext v)) ∧ (x = none → P (.short o)) := by
  cases x <;> simp [offOf, reads_ok, reads_ite, reads_error]
@[simp] theorem reads_offXOf {x : Option Word} {o : BitVec 14} {P : OffX → Prop} :
    Reads (offXOf x o) P ↔ (∀ v, x = some v → o = 0#14 → P (.ext v)) ∧ (x = none → P (.short o)) := by
  cases x <;> simp [offXOf, reads_ok, reads_ite, reads_error]
@[simp] theorem reads_map {α β : Type} {f : α → β} {x : Dec α} {P : β → Prop} :
    Reads (x.map f) P ↔ Reads x (fun a => P (f a)) := by
  cases x <;> simp [Except.map, reads_ok, reads_error]
@[simp] theorem reads_xdstOf {x : Option Word} {ring : Bool} {f : BitVec 8} {P : XDst → Prop} :
    Reads (xdstOf x ring f) P ↔ (∀ a, ring = false → f = a.code → a.From x → P (.addr a)) ∧
      (∀ n, ring = true → f = pcode n → P (.ring n)) := by
  cases ring
  · simp [xdstOf, reads_map, reads_selOf]
  · have h : Reads (xdstOf x true f) P ↔ Reads (predOf f) (fun n => P (.ring n)) := by
      simp only [xdstOf, predOf, if_true, reads_ite, reads_ok, reads_error]
    simp [h, reads_predOf]

/-! ## Formats and AUX, joined again (R96, R97, R151, R178, R218) -/

theorem Syl.pack_unpack (w : Word) : (Syl.unpack w).pack = w := by
  apply BitVec.eq_of_getLsbD_eq
  intro i hi
  have key : (Syl.unpack w).pack.getLsbD i = BitVec.getLsbD (w := 1 + 1 + 6 + 4 + 4 + 48) (w.extractLsb' 63 1 ++
    w.extractLsb' 62 1 ++ w.extractLsb' 56 6 ++ w.extractLsb' 52 4 ++ w.extractLsb' 48 4 ++ w.extractLsb' 0 48) i := rfl
  rw [key]
  simp only [BitVec.getLsbD_append, BitVec.getLsbD_extractLsb']
  grind
theorem F3.pack_unpack (r : BitVec 48) : (F3.unpack r).pack = r := by
  apply BitVec.eq_of_getLsbD_eq
  intro i hi
  have key : (F3.unpack r).pack.getLsbD i = BitVec.getLsbD (w := 8 + 8 + 8 + 8 + 16) (r.extractLsb' 40 8 ++
    r.extractLsb' 32 8 ++ r.extractLsb' 24 8 ++ r.extractLsb' 16 8 ++ r.extractLsb' 0 16) i := rfl
  rw [key]
  simp only [BitVec.getLsbD_append, BitVec.getLsbD_extractLsb']
  grind
theorem FM.pack_unpack (r : BitVec 48) : (FM.unpack r).pack = r := by
  apply BitVec.eq_of_getLsbD_eq
  intro i hi
  have key : (FM.unpack r).pack.getLsbD i = BitVec.getLsbD (w := 8 + 8 + 12 + 20) (r.extractLsb' 40 8 ++
    r.extractLsb' 32 8 ++ r.extractLsb' 20 12 ++ r.extractLsb' 0 20) i := rfl
  rw [key]
  simp only [BitVec.getLsbD_append, BitVec.getLsbD_extractLsb']
  grind
theorem FB.pack_unpack (r : BitVec 48) : (FB.unpack r).pack = r := by
  apply BitVec.eq_of_getLsbD_eq
  intro i hi
  have key : (FB.unpack r).pack.getLsbD i = BitVec.getLsbD (w := 8 + 8 + 32) (r.extractLsb' 40 8 ++
    r.extractLsb' 32 8 ++ r.extractLsb' 0 32) i := rfl
  rw [key]
  simp only [BitVec.getLsbD_append, BitVec.getLsbD_extractLsb']
  grind
theorem FMX.pack_unpack (r : BitVec 48) : (FMX.unpack r).pack = r := by
  apply BitVec.eq_of_getLsbD_eq
  intro i hi
  have key : (FMX.unpack r).pack.getLsbD i = BitVec.getLsbD (w := 4 + 4 + 4 + 8 + 8 + 12 + 8) (r.extractLsb' 44 4 ++
    r.extractLsb' 40 4 ++ r.extractLsb' 36 4 ++ r.extractLsb' 28 8 ++ r.extractLsb' 20 8 ++ r.extractLsb' 8 12 ++
    r.extractLsb' 0 8) i := rfl
  rw [key]
  simp only [BitVec.getLsbD_append, BitVec.getLsbD_extractLsb']
  grind
theorem FXC.pack_unpack (r : BitVec 48) : (FXC.unpack r).pack = r := by
  apply BitVec.eq_of_getLsbD_eq
  intro i hi
  have key : (FXC.unpack r).pack.getLsbD i = BitVec.getLsbD (w := 4 + 8 + 8 + 8 + 12 + 5 + 3) (r.extractLsb' 44 4 ++
    r.extractLsb' 36 8 ++ r.extractLsb' 28 8 ++ r.extractLsb' 20 8 ++ r.extractLsb' 8 12 ++ r.extractLsb' 3 5 ++
    r.extractLsb' 0 3) i := rfl
  rw [key]
  simp only [BitVec.getLsbD_append, BitVec.getLsbD_extractLsb']
  grind

/-- A field whose high part is known is that part joined to its low part. -/
theorem append_low {n k : Nat} {f : BitVec (n + k)} {hi : BitVec n} (h : f.extractLsb' k n = hi) :
    hi ++ f.extractLsb' 0 k = f := by
  subst h
  apply BitVec.eq_of_getLsbD_eq
  intro i hi
  simp only [BitVec.getLsbD_append, BitVec.getLsbD_extractLsb']
  grind

@[simp] theorem getElem_ofBit (b : Bool) : (ofBit b)[0] = b := by cases b <;> rfl
@[simp] theorem and_ones_3 : ∀ x : BitVec 3, x &&& 7#3 = x := by decide
@[simp] theorem and_ones_4 : ∀ x : BitVec 4, x &&& 15#4 = x := by decide

/-- The bits of an AUX outside a mask are zero (R151). -/
def AuxIn (aux m : BitVec 16) : Prop := aux &&& ~~~m = 0#16

@[simp] theorem reads_auxOnly {aux m : BitVec 16} {P : Unit → Prop} : Reads (auxOnly aux m) P ↔ (AuxIn aux m → P ()) :=
  reads_zero

/-- An AUX whose bits outside a mask are zero is the part of it in the mask. -/
theorem and_mask {aux m : BitVec 16} (h : AuxIn aux m) : aux &&& m = aux := by
  apply BitVec.eq_of_getLsbD_eq
  intro i hi
  have hb := congrArg (·.getLsbD i) h
  simp only [BitVec.getLsbD_and, BitVec.getLsbD_not, hi] at hb ⊢
  grind

/-- The AUX of R151 from its fields, those that a mask admits. -/
theorem eq_vaux {aux m : BitVec 16} (h : AuxIn aux m) (hm : m &&& 0xE0C0#16 = 0#16) :
    vaux (bit aux 12 && bit m 12) (aux.extractLsb' 8 4 &&& m.extractLsb' 8 4) (bit aux 5 && bit m 5)
      (bit aux 4 && bit m 4) (bit aux 3 && bit m 3) (aux.extractLsb' 0 3 &&& m.extractLsb' 0 3) = aux := by
  have hz : ∀ i, (m &&& 0xE0C0#16).getLsbD i = false := fun i => by rw [hm]; simp
  have ha : ∀ i, (aux &&& m).getLsbD i = aux.getLsbD i := fun i => by rw [and_mask h]
  apply BitVec.eq_of_getLsbD_eq
  intro i hi
  rw [← ha]
  specialize hz i
  simp only [vaux, bit, BitVec.getLsbD_append, BitVec.getLsbD_extractLsb', BitVec.getLsbD_and] at hz ⊢
  interval_cases i <;> simp_all

/-- The AUX of R178 from its fields, those that a mask admits. -/
theorem eq_maux {aux m : BitVec 16} (h : AuxIn aux m) (hm : m &&& 0xFE00#16 = 0#16) :
    maux (bit aux 8 && bit m 8) (aux.extractLsb' 5 3 &&& m.extractLsb' 5 3) (bit aux 4 && bit m 4)
      (aux.extractLsb' 0 4 &&& m.extractLsb' 0 4) = aux := by
  have hz : ∀ i, (m &&& 0xFE00#16).getLsbD i = false := fun i => by rw [hm]; simp
  have ha : ∀ i, (aux &&& m).getLsbD i = aux.getLsbD i := fun i => by rw [and_mask h]
  apply BitVec.eq_of_getLsbD_eq
  intro i hi
  rw [← ha]
  specialize hz i
  simp only [maux, bit, BitVec.getLsbD_append, BitVec.getLsbD_extractLsb', BitVec.getLsbD_and] at hz ⊢
  interval_cases i <;> simp_all

/-- A rent form's AUX from its fields (R218). -/
theorem eq_raux {aux : BitVec 16} (h : bit aux 0 = false) :
    raux (aux.extractLsb' 6 10) (bit aux 5) (bit aux 4) (aux.extractLsb' 1 3) = aux := by
  apply BitVec.eq_of_getLsbD_eq
  intro i hi
  simp only [raux, bit, ofBit, BitVec.getLsbD_append, BitVec.getLsbD_extractLsb'] at *
  grind

section
variable {aux : BitVec 16} {rc : BitVec 3} {u : BitVec 4}

theorem vaux_none (h : AuxIn aux 0) : aux = 0#16 := by simpa using (and_mask h).symm
theorem vaux_rc_s (h : AuxIn aux 0x000F) (hr : aux.extractLsb' 0 3 = rc) :
    vaux false 0 false false (bit aux 3) rc = aux := by
  rw [← hr]; simpa [bit] using eq_vaux h (by decide)
theorem vaux_rc_only (h : AuxIn aux 0x0007) (hr : aux.extractLsb' 0 3 = rc) :
    vaux false 0 false false false rc = aux := by
  rw [← hr]; simpa [bit] using eq_vaux h (by decide)
theorem vaux_rc_n (h : AuxIn aux 0x0037) (hr : aux.extractLsb' 0 3 = rc) :
    vaux false 0 (bit aux 5) (bit aux 4) false rc = aux := by
  rw [← hr]; simpa [bit] using eq_vaux h (by decide)
theorem vaux_rc_w (h : AuxIn aux 0x0017) (hr : aux.extractLsb' 0 3 = rc) :
    vaux false 0 false (bit aux 4) false rc = aux := by
  rw [← hr]; simpa [bit] using eq_vaux h (by decide)
theorem vaux_s_only (h : AuxIn aux 0x0008) : vaux false 0 false false (bit aux 3) 0 = aux := by
  simpa [bit] using eq_vaux h (by decide)
theorem vaux_hi_only (h : AuxIn aux 0x1000) : vaux (bit aux 12) 0 false false false 0 = aux := by
  simpa [bit] using eq_vaux h (by decide)
theorem vaux_cvt (h : AuxIn aux 0x0F0F) (hu : aux.extractLsb' 8 4 = u) (hr : aux.extractLsb' 0 3 = rc) :
    vaux false u false false (bit aux 3) rc = aux := by
  rw [← hr, ← hu]; simpa [bit] using eq_vaux h (by decide)
theorem vaux_stype_only (h : AuxIn aux 0x0F00) (hu : aux.extractLsb' 8 4 = u) :
    vaux false u false false false 0 = aux := by
  rw [← hu]; simpa [bit] using eq_vaux h (by decide)

theorem maux_num_only (h : AuxIn aux 0x000F) : maux false 0 false (aux.extractLsb' 0 4) = aux := by
  simpa [bit] using eq_maux h (by decide)
theorem maux_dir_only (h : AuxIn aux 0x001F) : maux false 0 (bit aux 4) (aux.extractLsb' 0 4) = aux := by
  simpa [bit] using eq_maux h (by decide)
theorem maux_mv (h : AuxIn aux 0x01FF) (hr : aux.extractLsb' 5 3 = rc) :
    maux (bit aux 8) rc (bit aux 4) (aux.extractLsb' 0 4) = aux := by
  rw [← hr]; simpa [bit] using eq_maux h (by decide)
theorem maux_st (h : AuxIn aux 0x01EF) (hr : aux.extractLsb' 5 3 = rc) :
    maux (bit aux 8) rc false (aux.extractLsb' 0 4) = aux := by
  rw [← hr]; simpa [bit] using eq_maux h (by decide)

theorem topk_aux (h : AuxIn aux 0x00FF) : (0#8 ++ ofBit (bit aux 7) ++ aux.extractLsb' 0 7 : BitVec 16) = aux := by
  apply BitVec.eq_of_getLsbD_eq
  intro i hi
  rw [← and_mask h]
  simp only [bit, BitVec.getLsbD_append, BitVec.getLsbD_extractLsb', BitVec.getLsbD_and]
  interval_cases i <;> simp
theorem cond_aux {c : Cond} (h : AuxIn aux 0x0007) (hc : aux.extractLsb' 0 3 = BitVec.ofNat 3 c.code) :
    BitVec.ofNat 16 c.code = aux := by
  rw [← vaux_rc_only h hc]
  cases c <;> rfl

end

theorem extract_extract {w k n i l : Nat} (f : BitVec w) (h : i + l ≤ n) :
    (f.extractLsb' k n).extractLsb' i l = f.extractLsb' (k + i) l := by
  apply BitVec.eq_of_getLsbD_eq
  intro j hj
  simp [hj, Nat.add_assoc]
  omega

/-- A bit of a field that is zero. -/
theorem getLsbD_of_zero {w k n : Nat} {f : BitVec w} (h : f.extractLsb' k n = 0#n) {i : Nat} (h1 : k ≤ i) (h2 : i < k + n) :
    f.getLsbD i = false := by
  have hb := congrArg (·.getLsbD (i - k)) h
  simpa [BitVec.getLsbD_extractLsb', show i - k < n by omega, Nat.add_sub_cancel' h1] using hb

section
variable {aux : BitVec 16} (h : bit aux 0 = false)
include h

theorem raux_spread (hz : aux.extractLsb' 8 8 = 0#8) :
    raux (0#8 ++ aux.extractLsb' 6 2) (bit aux 5) (bit aux 4) (aux.extractLsb' 1 3) = aux := by
  conv_rhs => rw [← eq_raux h]
  congr 1
  rw [← show (aux.extractLsb' 6 10).extractLsb' 0 2 = aux.extractLsb' 6 2 from extract_extract aux (by omega)]
  exact append_low (n := 8) (k := 2) (f := aux.extractLsb' 6 10) (hi := 0#8) ((extract_extract aux (by omega)).trans hz)
theorem raux_pair (hz : aux.extractLsb' 4 12 = 0#12) : raux 0 false false (aux.extractLsb' 1 3) = aux := by
  have z : ∀ i, 4 ≤ i → i < 16 → aux.getLsbD i = false := fun i h1 h2 => getLsbD_of_zero hz h1 h2
  conv_rhs => rw [← eq_raux h]
  have h10 : aux.extractLsb' 6 10 = 0#10 := by
    apply BitVec.eq_of_getLsbD_eq
    intro i hi
    simp [hi, z (6 + i) (by omega) (by omega)]
  simp only [bit, z 5 (by omega) (by omega), z 4 (by omega) (by omega), h10]
  rfl
theorem raux_grantee (hz : aux.extractLsb' 5 1 = 0#1) (hz' : aux.extractLsb' 12 4 = 0#4) :
    raux (0#4 ++ aux.extractLsb' 6 6) false (bit aux 4) (aux.extractLsb' 1 3) = aux := by
  have h5 : bit aux 5 = false := getLsbD_of_zero hz (by omega) (by omega)
  conv_rhs => rw [← eq_raux h, h5]
  congr 1
  rw [← show (aux.extractLsb' 6 10).extractLsb' 0 6 = aux.extractLsb' 6 6 from extract_extract aux (by omega)]
  exact append_low (n := 4) (k := 6) (f := aux.extractLsb' 6 10) (hi := 0#4) ((extract_extract aux (by omega)).trans hz')

end

@[simp] theorem reads_auxPair {aux : BitVec 16} {P : BitVec 3 → Prop} :
    Reads (auxPair aux) P ↔ (bit aux 0 = false → P (aux.extractLsb' 1 3)) := by
  simp [auxPair, reads_ite, reads_ok, reads_error]

/-! ## The classes, read backwards (R102) -/

/-- The encoding of `i` has the opcode, guard, MOD and operands given, and its extensions are `x`. -/
structure Encodes (op : Nat) (g m : BitVec 4) (x : Option Word) (r : BitVec 48) (i : Instr) : Prop where
  fields : i.fields = some (BitVec.ofNat 6 op, m, r)
  guard : i.guard = g
  exts : ∀ v ∈ i.exts, x = some v

theorem from_of_extVal {x : Option Word} {s : Sel} {v : Word} (hs : s.From x) (hv : s.extVal? = some v) :
    x = some v := by
  cases s with
  | ext w => cases hv; exact hs
  | _ => cases hv

/-- The extensions of an instruction that takes them in its value sources alone. -/
theorem exts_from {i : Instr} {x : Option Word} (hi : i.exts = i.srcs.filterMap Sel.extVal?)
    (h : ∀ s ∈ i.srcs, s.From x) : ∀ v ∈ i.exts, x = some v := by
  intro v hv
  rw [hi, List.mem_filterMap] at hv
  obtain ⟨s, hs, hv⟩ := hv
  exact from_of_extVal (h s hs) hv

/-- The same where the instruction also has an extension of its own. -/
theorem exts_own {i : Instr} {v : Word} (hi : i.exts = v :: i.srcs.filterMap Sel.extVal?)
    (h : ∀ s ∈ i.srcs, s.From (some v)) : ∀ w ∈ i.exts, some v = some w := by
  intro w hw
  rw [hi, List.mem_cons, List.mem_filterMap] at hw
  obtain rfl | ⟨s, hs, hw⟩ := hw
  · rfl
  · exact from_of_extVal (h s hs) hw

theorem exists_F3 (r : BitVec 48) : ∃ d a b c aux, r = F3.pack ⟨d, a, b, c, aux⟩ :=
  ⟨_, _, _, _, _, (F3.pack_unpack r).symm⟩
theorem exists_FM (r : BitVec 48) : ∃ d b a o, r = FM.pack ⟨d, b, a, o⟩ := ⟨_, _, _, _, (FM.pack_unpack r).symm⟩
theorem exists_FB (r : BitVec 48) : ∃ d a o, r = FB.pack ⟨d, a, o⟩ := ⟨_, _, _, (FB.pack_unpack r).symm⟩
theorem exists_FMX (r : BitVec 48) : ∃ c a b m n k x, r = FMX.pack ⟨c, a, b, m, n, k, x⟩ :=
  ⟨_, _, _, _, _, _, _, (FMX.pack_unpack r).symm⟩
theorem exists_FXC (r : BitVec 48) : ∃ c a b d p o z, r = FXC.pack ⟨c, a, b, d, p, o, z⟩ :=
  ⟨_, _, _, _, _, _, _, (FXC.pack_unpack r).symm⟩

theorem mem_mod_fields : ∀ m : BitVec 4, bit m 3 = false → 0#1 ++ ofBit (bit m 2) ++ m.extractLsb' 0 2 = m := by
  decide

theorem decS_encodes (op : Nat) (g m : BitVec 4) (x : Option Word) (r : BitVec 48) :
    Reads (decS op g m x r) (Encodes op g m x r) := by
  unfold decS
  split
  case h_20 =>
    obtain ⟨d, a, b, c, aux, rfl⟩ := exists_F3 r
    simp
    rintro rfl d rfl a rfl ha b rfl hb rfl hx
    exact ⟨by simp only [Instr.fields, append_low hx]; rfl, rfl, exts_from rfl (by simp [Instr.srcs, *])⟩
  case h_21 =>
    obtain ⟨d, b, a, o, rfl⟩ := exists_FM r
    simp
    intro hm d hd b hb
    subst hd hb
    refine ⟨fun v hx ho => ⟨?_, rfl, by simp [Instr.exts, Instr.srcs, hx]⟩, fun hx => ⟨?_, rfl, nofun⟩⟩
    · subst ho; simp only [Instr.fields, mem_mod_fields m hm]; rfl
    · simp only [Instr.fields, mem_mod_fields m hm]; rfl
  case h_22 =>
    obtain ⟨d, b, a, o, rfl⟩ := exists_FM r
    simp
    intro hm d hd b hb ha
    subst hd hb ha
    refine ⟨fun v hx ho => ⟨?_, rfl, by simp [Instr.exts, Instr.srcs, hx]⟩, fun hx => ⟨?_, rfl, nofun⟩⟩
    · subst ho; simp only [Instr.fields, mem_mod_fields m hm]; rfl
    · simp only [Instr.fields, mem_mod_fields m hm]; rfl
  case h_25 => simp
  all_goals
    obtain ⟨d, a, b, c, aux, rfl⟩ := exists_F3 r
    simp [dec2, dec2s, dec1, -Bool.forall_bool]
    intros
    subst_vars
    exact ⟨rfl, rfl, exts_from rfl (by simp [Instr.srcs, *])⟩

theorem decS1_encodes (op : Nat) (g m : BitVec 4) (x : Option Word) (r : BitVec 48) :
    Reads (decS1 op g m x r) (Encodes op g m x r) := by
  unfold decS1
  split
  case h_1 | h_3 | h_9 =>
    obtain ⟨d, a, o, rfl⟩ := exists_FB r
    simp
    intros
    subst_vars
    exact ⟨rfl, rfl, nofun⟩
  case h_6 | h_7 | h_11 | h_12 | h_14 | h_15 =>
    simp [dec0]
    intros
    subst_vars
    exact ⟨rfl, rfl, nofun⟩
  case h_13 =>
    obtain ⟨d, a, b, c, aux, rfl⟩ := exists_F3 r
    simp
    rintro rfl rfl rfl rfl rfl hx
    exact ⟨by simp only [Instr.fields, append_low hx]; rfl, rfl, nofun⟩
  case h_16 => simp
  all_goals
    obtain ⟨d, a, b, c, aux, rfl⟩ := exists_F3 r
    simp
    intros
    subst_vars
    exact ⟨rfl, rfl, exts_from rfl (by simp [Instr.srcs, *])⟩

theorem rent_mod_fields (m : BitVec 4) : (m.extractLsb' 2 2 ++ m.extractLsb' 0 2 : BitVec 4) = m := append_low rfl
theorem watch_mod_fields : ∀ m : BitVec 4, m.toNat < 4 → (0#2 ++ m.extractLsb' 0 2 : BitVec 4) = m := by decide
theorem fence_aux_fields {aux : BitVec 16} (h : aux.extractLsb' 5 11 = 0#11) :
    (0#11 ++ aux.extractLsb' 3 2 ++ aux.extractLsb' 0 3 : BitVec 16) = aux := by
  have z : ∀ i, 5 ≤ i → i < 16 → aux.getLsbD i = false := fun i h1 h2 => getLsbD_of_zero h h1 h2
  apply BitVec.eq_of_getLsbD_eq
  intro i hi
  simp only [BitVec.getLsbD_append, BitVec.getLsbD_extractLsb']
  grind

theorem decS0_encodes (op : Nat) (g m : BitVec 4) (x : Option Word) (r : BitVec 48) :
    Reads (decS0 op g m x r) (Encodes op g m x r) := by
  unfold decS0
  split
  case h_14 => simp
  all_goals obtain ⟨d, a, b, c, aux, rfl⟩ := exists_F3 r
  case h_1 =>
    simp
    rintro d rfl h0 a rfl ha b rfl hb c rfl hc hz
    exact ⟨by simp only [Instr.fields, rent_mod_fields, raux_spread h0 hz]; rfl, rfl,
      exts_from rfl (by simp [Instr.srcs, *])⟩
  case h_2 | h_6 =>
    simp
    rintro rfl d rfl h0 a rfl ha b rfl hb rfl hz
    exact ⟨by simp only [Instr.fields, raux_pair h0 hz]; rfl, rfl, exts_from rfl (by simp [Instr.srcs, *])⟩
  case h_3 =>
    simp
    rintro rfl d rfl h0 a rfl ha b rfl hb c rfl hc hz
    exact ⟨by simp only [Instr.fields, raux_pair h0 hz]; rfl, rfl, exts_from rfl (by simp [Instr.srcs, *])⟩
  case h_4 =>
    simp
    rintro rfl d rfl h0 a rfl ha b rfl hb c rfl hc hz hz'
    exact ⟨by simp only [Instr.fields, raux_grantee h0 hz hz']; rfl, rfl, exts_from rfl (by simp [Instr.srcs, *])⟩
  case h_12 =>
    simp [reads_ite]
    rintro p rfl rfl rfl
    refine ⟨?_, fun h8 hm a ha hfa b hb hfb => ?_⟩
    · rintro rfl ch rfl b rfl hb
      exact ⟨rfl, rfl, exts_from rfl (by simp [Instr.srcs, *])⟩
    · subst ha hb
      exact ⟨by simp only [Instr.fields, watch_mod_fields m hm]; rfl, rfl, exts_from rfl (by simp [Instr.srcs, *])⟩
  case h_13 =>
    simp
    rintro sc rfl rfl rfl rfl rfl hx
    exact ⟨by simp only [Instr.fields, fence_aux_fields hx]; rfl, rfl, nofun⟩
  all_goals
    simp [dec1, -Bool.forall_bool]
    intros
    subst_vars
    exact ⟨rfl, rfl, exts_from rfl (by simp [Instr.srcs, *])⟩

theorem flag_aux_fields {aux : BitVec 16} (h : aux.extractLsb' 2 14 = 0#14) :
    (0#14 ++ ofBit (bit aux 1) ++ ofBit (bit aux 0) : BitVec 16) = aux := by
  have z : ∀ i, 2 ≤ i → i < 16 → aux.getLsbD i = false := fun i h1 h2 => getLsbD_of_zero h h1 h2
  apply BitVec.eq_of_getLsbD_eq
  intro i hi
  simp only [bit, ofBit, BitVec.getLsbD_append]
  grind
theorem offx_fields {o : BitVec 20} {lo : BitVec 14} (h : o.extractLsb' 0 14 = lo) :
    (o.extractLsb' 14 6 ++ lo : BitVec 20) = o := by
  subst h
  exact append_low (n := 6) (k := 14) rfl

theorem decV_encodes (op : Nat) (g m : BitVec 4) (x : Option Word) (r : BitVec 48) :
    Reads (decV op g m x r) (Encodes op g m x r) := by
  unfold decV
  split
  case h_45 => simp
  case h_41 =>
    obtain ⟨d, b, a, o, rfl⟩ := exists_FM r
    simp [-Bool.forall_bool]
    rintro acq rfl d rfl b rfl
    exact ⟨fun v hx ho => ⟨by subst ho; rfl, rfl, by simp [Instr.exts, Instr.srcs, hx]⟩, fun hx => ⟨rfl, rfl, nofun⟩⟩
  case h_42 =>
    obtain ⟨d, b, a, o, rfl⟩ := exists_FM r
    simp [-Bool.forall_bool]
    rintro rel rfl d rfl hd b rfl rfl
    have hn : ∀ v, d.extVal? ≠ some v := fun v hv => nomatch from_of_extVal hd hv
    refine ⟨fun v hx ho => ⟨by subst ho; rfl, rfl, ?_⟩, fun hx => ⟨rfl, rfl, ?_⟩⟩
    · simp [Instr.exts, Instr.srcs, List.mem_filterMap, hn, hx]
    · simp [Instr.exts, Instr.srcs, List.mem_filterMap, hn]
  case h_43 =>
    obtain ⟨d, b, a, o, rfl⟩ := exists_FM r
    simp
    rintro t rfl d rfl b rfl
    refine ⟨fun v hx ho => ⟨?_, rfl, by simp [Instr.exts, Instr.srcs, hx]⟩, fun hx => ⟨?_, rfl, nofun⟩⟩
    · simp only [Instr.fields, OffX.code, offx_fields (lo := 0) ho]; rfl
    · simp only [Instr.fields, OffX.code, offx_fields rfl]; rfl
  case h_44 =>
    obtain ⟨d, b, a, o, rfl⟩ := exists_FM r
    simp
    rintro t rfl d rfl hd b rfl rfl
    have hn : ∀ v, d.extVal? ≠ some v := fun v hv => nomatch from_of_extVal hd hv
    refine ⟨fun v hx ho => ⟨?_, rfl, ?_⟩, fun hx => ⟨?_, rfl, ?_⟩⟩
    · simp only [Instr.fields, OffX.code, offx_fields (lo := 0) ho]; rfl
    · simp [Instr.exts, Instr.srcs, List.mem_filterMap, hn, hx]
    · simp only [Instr.fields, OffX.code, offx_fields rfl]; rfl
    · simp [Instr.exts, Instr.srcs, List.mem_filterMap, hn]
  all_goals obtain ⟨d, a, b, c, aux, rfl⟩ := exists_F3 r
  case h_1 | h_2 | h_3 =>
    simp [decVArith]
    rintro t rfl d rfl a rfl ha b rfl hb rfl hx rc hr
    exact ⟨by simp only [Instr.fields, vaux_rc_s hx hr]; rfl, rfl, exts_from rfl (by simp [Instr.srcs, *])⟩
  case h_4 =>
    simp
    rintro t rfl d rfl a rfl ha b rfl hb c rfl hc hx rc hr
    exact ⟨by simp only [Instr.fields, vaux_rc_n hx hr]; rfl, rfl, exts_from rfl (by simp [Instr.srcs, *])⟩
  case h_7 =>
    simp
    rintro t rfl d rfl a rfl ha rfl rfl hx
    exact ⟨by simp only [Instr.fields, vaux_s_only hx]; rfl, rfl, exts_from rfl (by simp [Instr.srcs, *])⟩
  case h_13 =>
    simp [-BitVec.extractLsb'_toNat]
    rintro t rfl p rfl a rfl ha b rfl hb rfl hx c hc
    exact ⟨by simp only [Instr.fields, cond_aux hx hc]; rfl, rfl, exts_from rfl (by simp [Instr.srcs, *])⟩
  case h_16 =>
    simp
    rintro t rfl d rfl a rfl ha rfl rfl hx u hu rc hr
    exact ⟨by simp only [Instr.fields, vaux_cvt hx hu hr]; rfl, rfl, exts_from rfl (by simp [Instr.srcs, *])⟩
  case h_18 =>
    simp
    rintro rfl d rfl a rfl ha b rfl hb rfl hx u hu
    exact ⟨by simp only [Instr.fields, vaux_stype_only hx hu]; rfl, rfl, exts_from rfl (by simp [Instr.srcs, *])⟩
  case h_19 =>
    simp
    rintro t rfl d rfl a rfl ha b rfl hb rfl hx u hu rc hr
    exact ⟨by simp only [Instr.fields, vaux_cvt hx hu hr]; rfl, rfl, exts_from rfl (by simp [Instr.srcs, *])⟩
  case h_20 | h_21 =>
    simp [decF32]
    rintro rfl d rfl a rfl ha rfl rfl hx _ _
    exact ⟨by rw [vaux_none hx]; rfl, rfl, exts_from rfl (by simp [Instr.srcs, *])⟩
  case h_22 | h_23 =>
    simp [decF32]
    rintro rfl d rfl a rfl ha rfl rfl hx rc hr
    exact ⟨by simp only [Instr.fields, vaux_rc_only hx hr]; rfl, rfl, exts_from rfl (by simp [Instr.srcs, *])⟩
  case h_24 =>
    simp
    rintro t rfl d rfl a rfl ha rfl rfl hx rc hr
    exact ⟨by simp only [Instr.fields, vaux_rc_w hx hr]; rfl, rfl, exts_from rfl (by simp [Instr.srcs, *])⟩
  case h_29 =>
    simp
    rintro t rfl d rfl a rfl ha b rfl hb c rfl hx
    exact ⟨by simp only [Instr.fields, topk_aux hx]; rfl, rfl, exts_from rfl (by simp [Instr.srcs, *])⟩
  case h_30 =>
    simp
    rintro t rfl d rfl a rfl ha b rfl hb c rfl hc hx rc hr
    exact ⟨by simp only [Instr.fields, vaux_rc_only hx hr]; rfl, rfl, exts_from rfl (by simp [Instr.srcs, *])⟩
  case h_33 =>
    simp
    rintro t rfl d rfl a rfl ha rfl rfl hx rc hr
    exact ⟨by simp only [Instr.fields, vaux_rc_only hx hr]; rfl, rfl, exts_from rfl (by simp [Instr.srcs, *])⟩
  case h_35 =>
    simp
    rintro t rfl d rfl a rfl ha b rfl hb rfl hx
    exact ⟨by simp only [Instr.fields, vaux_s_only hx]; rfl, rfl, exts_from rfl (by simp [Instr.srcs, *])⟩
  case h_36 =>
    simp
    rintro t rfl d rfl a rfl ha rfl rfl hx
    exact ⟨by simp only [Instr.fields, vaux_hi_only hx]; rfl, rfl, exts_from rfl (by simp [Instr.srcs, *])⟩
  case h_37 | h_38 | h_39 =>
    simp [decP]
    rintro rfl d rfl a rfl b rfl rfl hx
    exact ⟨by simp only [Instr.fields, flag_aux_fields hx]; rfl, rfl, nofun⟩
  all_goals
    simp [decV1, decV2]
    intros
    subst_vars
    exact ⟨rfl, rfl, exts_from rfl (by simp [Instr.srcs, *])⟩

theorem decT_encodes (op : Nat) (g m : BitVec 4) (x : Option Word) (r : BitVec 48) :
    Reads (decT op g m x r) (Encodes op g m x r) := by
  unfold decT
  split
  case h_14 => simp
  all_goals obtain ⟨d, a, b, c, aux, rfl⟩ := exists_F3 r
  case h_6 =>
    simp
    rintro t rfl d rfl a rfl ha b rfl hb c rfl hc hx
    exact ⟨by simp only [Instr.fields, append_low (n := 14) (k := 2) hx]; rfl, rfl, exts_from rfl (by simp [Instr.srcs, *])⟩
  case h_8 =>
    simp
    rintro t rfl s rfl d rfl rfl rfl hx rc hr
    exact ⟨by simp only [Instr.fields, vaux_rc_only hx hr]; rfl, rfl, nofun⟩
  case h_9 | h_10 =>
    simp
    rintro t rfl d rfl a rfl b rfl rfl hx rc hr
    exact ⟨by simp only [Instr.fields, vaux_rc_only hx hr]; rfl, rfl, nofun⟩
  case h_11 =>
    simp
    rintro t rfl d rfl a rfl rfl rfl hx u hu rc hr
    exact ⟨by simp only [Instr.fields, vaux_cvt hx hu hr]; rfl, rfl, nofun⟩
  all_goals
    simp
    intros
    subst_vars
    exact ⟨rfl, rfl, exts_from rfl (by simp [Instr.srcs, *])⟩

theorem mopOf_keeps_num (t : Bool) (n : BitVec 4) : (mopOf t n).num = n := by cases t <;> rfl
theorem mopOf_isTile (t : Bool) (n : BitVec 4) : (mopOf t n).isTile = t := by cases t <;> rfl
theorem fmx_flag_fields {f : BitVec 8} {b : Bool} (h : f.extractLsb' 5 3 = if b then 1 else 0) :
    (0#2 ++ ofBit b ++ ofBit (bit f 4) ++ ofBit (bit f 3) ++ ofBit (bit f 2) ++ ofBit (bit f 1) ++ ofBit (bit f 0) :
      BitVec 8) = f := by
  revert f b
  decide

theorem decM_encodes (op : Nat) (g m : BitVec 4) (x : Option Word) (r : BitVec 48) :
    Reads (decM op g m x r) (Encodes op g m x r) := by
  unfold decM
  split
  case h_12 => simp
  case h_1 =>
    obtain ⟨acc, a, b, m8, n16, k16, f, rfl⟩ := exists_FMX r
    simp
    rintro t rfl hf
    exact ⟨by simp only [Instr.fields, encFMX, mopOf_keeps_num, mopOf_isTile, fmx_flag_fields (b := false) hf]; rfl, rfl, nofun⟩
  case h_2 =>
    obtain ⟨acc, a, b, m8, n16, k16, f, rfl⟩ := exists_FMX r
    simp
    rintro t rfl hf
    exact ⟨by simp only [Instr.fields, encFMX, mopOf_keeps_num, mopOf_isTile, fmx_flag_fields (b := true) hf]; rfl, rfl, nofun⟩
  all_goals obtain ⟨d, a, b, c, aux, rfl⟩ := exists_F3 r
  case h_3 =>
    simp
    rintro rfl rfl a rfl ha b rfl hb c rfl hc hx
    exact ⟨by simp only [Instr.fields, maux_dir_only hx]; rfl, rfl, exts_from rfl (by simp [Instr.srcs, *])⟩
  case h_6 =>
    simp
    rintro t rfl d rfl a rfl ha b rfl hb rfl hx rc hr
    exact ⟨by simp only [Instr.fields, maux_mv hx hr]; rfl, rfl, exts_from rfl (by simp [Instr.srcs, *])⟩
  case h_7 =>
    simp
    rintro t rfl rfl a rfl ha b rfl hb rfl hx rc hr
    exact ⟨by simp only [Instr.fields, maux_st hx hr]; rfl, rfl, exts_from rfl (by simp [Instr.srcs, *])⟩
  all_goals
    simp
    intros
    subst_vars
    exact ⟨by simp only [Instr.fields, maux_num_only ‹_›]; rfl, rfl, exts_from rfl (by simp [Instr.srcs, *])⟩

theorem adv_mod_fields : ∀ m : BitVec 4, m = 0 ∨ m = 2 → (if bit m 1 = true then 2 else 0) = m := by decide
theorem rej_mod_fields : ∀ m : BitVec 4, m = 0 ∨ m = 4 → (if bit m 2 = true then 4 else 0) = m := by decide

theorem decX_encodes (op : Nat) (g m : BitVec 4) (x : Option Word) (r : BitVec 48) :
    Reads (decX op g m x r) (Encodes op g m x r) := by
  unfold decX
  split
  case h_19 => simp
  all_goals obtain ⟨ch, a, b, c, pace, ops, esz, rfl⟩ := exists_FXC r
  case h_1 =>
    simp [-Bool.forall_bool]
    rintro ring rfl rfl z rfl
    refine ⟨fun d hr hd hdf b hb hbf c hc hcf => ?_, fun n hr hn b hb hbf c hc hcf => ?_⟩ <;> subst_vars
    · refine ⟨rfl, rfl, ?_⟩
      cases x with
      | none => exact exts_from rfl (by simp [Instr.srcs, *])
      | some v => exact exts_own rfl (by simp [Instr.srcs, *])
    · refine ⟨rfl, rfl, ?_⟩
      cases x with
      | none => exact exts_from rfl (by simp [Instr.srcs, *])
      | some v => exact exts_own rfl (by simp [Instr.srcs, *])
  case h_2 =>
    simp [-Bool.forall_bool]
    rintro ring rfl z rfl
    refine ⟨fun d hr hd hdf b hb hbf c hc => ?_, fun n hr hn b hb hbf c hc => ?_⟩ <;> subst_vars
    · exact ⟨rfl, rfl, exts_from rfl (by simp [Instr.srcs, *])⟩
    · exact ⟨rfl, rfl, exts_from rfl (by simp [Instr.srcs, *])⟩
  case h_6 =>
    simp
    rintro rfl rfl rfl z rfl a rfl ha b rfl hb c rfl hc v rfl
    exact ⟨rfl, rfl, exts_own rfl (by simp [Instr.srcs, *])⟩
  case h_8 =>
    simp [-Bool.forall_bool]
    rintro ring rfl rfl z rfl
    refine ⟨fun d hr hd hdf b hb hbf c hc hcf => ?_, fun n hr hn b hb hbf c hc hcf => ?_⟩ <;> subst_vars
    · exact ⟨rfl, rfl, exts_from rfl (by simp [Instr.srcs, *])⟩
    · exact ⟨rfl, rfl, exts_from rfl (by simp [Instr.srcs, *])⟩
  case h_14 =>
    simp
    rintro hm rfl rfl rfl a rfl ha b rfl hb c rfl hc
    exact ⟨by simp only [Instr.fields, adv_mod_fields m hm]; rfl, rfl, exts_from rfl (by simp [Instr.srcs, *])⟩
  case h_15 =>
    simp
    rintro hm rfl rfl rfl a rfl ha b rfl hb rfl
    exact ⟨by simp only [Instr.fields, rej_mod_fields m hm]; rfl, rfl, exts_from rfl (by simp [Instr.srcs, *])⟩
  case h_16 =>
    simp [-Bool.forall_bool]
    rintro ring rfl rfl rfl
    refine ⟨fun d hr hd hdf b hb hbf c hc hcf => ?_, fun n hr hn b hb hbf c hc hcf => ?_⟩ <;> subst_vars
    · exact ⟨rfl, rfl, exts_from rfl (by simp [Instr.srcs, *])⟩
    · exact ⟨rfl, rfl, exts_from rfl (by simp [Instr.srcs, *])⟩
  case h_18 =>
    simp
    rintro hm rfl z rfl a rfl ha b rfl hb c rfl hc v rfl
    exact ⟨by simp only [Instr.fields, watch_mod_fields m hm]; rfl, rfl, exts_own rfl (by simp [Instr.srcs, *])⟩
  all_goals
    simp
    intros
    subst_vars
    exact ⟨rfl, rfl, exts_from rfl (by simp [Instr.srcs, *])⟩

/-! ## Syllables -/

theorem decFields_encodes (sl : Slot) (y : Syl) (x : Option Word) :
    Reads (decFields sl y x) (Encodes y.op.toNat y.g y.mod x y.rest) := by
  obtain ⟨h, xt, op, g, m, r⟩ := y
  unfold decFields
  split
  case isTrue h0 =>
    obtain rfl : op = 0 := beq_iff_eq.mp h0
    split
    case isTrue hz =>
      simp only [Bool.and_eq_true, beq_iff_eq] at hz
      obtain ⟨⟨rfl, rfl⟩, rfl⟩ := hz
      exact reads_ok.mpr ⟨rfl, rfl, nofun⟩
    case isFalse => exact reads_error.mpr trivial
  case isFalse =>
    split
    · split
      · exact decS_encodes _ _ _ _ _
      · split
        · exact decS1_encodes _ _ _ _ _
        · exact decS0_encodes _ _ _ _ _
    · exact decV_encodes _ _ _ _ _
    · exact decM_encodes _ _ _ _ _
    · exact decT_encodes _ _ _ _ _
    · exact decX_encodes _ _ _ _ _

/-- The extension of a decoded syllable. -/
def sylExt (w n : Word) : Option Word := if hasExt w then some n else none

theorem need_eq_ok {b : Bool} {e : DecodeErr} {u : Unit} : need b e = .ok u ↔ b = true := by cases b <;> simp [need]

/-- The checks pass an instruction on as it is, or refuse it. -/
theorem decChecks_eq_ok {sl : Slot} {x : Option Word} {i j : Instr} : decChecks sl x j = .ok i ↔
    j = i ∧ i.slotOk sl = true ∧ (x = i.ext? ∨ i.exts ≠ []) ∧ i.wf := by
  simp only [decChecks, dec_bind_eq_ok, need_eq_ok, Bool.or_eq_true, beq_iff_eq, bne_iff_ne, exists_and_left,
    exists_const]
  split
  · next e he =>
    refine ⟨fun ⟨_, _, h⟩ => (nomatch h), ?_⟩
    rintro ⟨rfl, _, _, hw⟩
    rw [Instr.wf, he] at hw
    cases hw
  · next hn =>
    constructor
    · rintro ⟨h1, h2, h3⟩; cases h3; exact ⟨rfl, h1, h2, hn⟩
    · rintro ⟨rfl, h1, h2, _⟩; exact ⟨h1, h2, rfl⟩

/-- What a syllable that the decoder accepts is: fields that decode, and checks that pass. -/
theorem decodeSlot_eq_ok_iff {sl : Slot} {w n : Word} {i : Instr} : decodeSlot sl w n = .ok i ↔
    (Syl.unpack w).h = 0 ∧ decFields sl (Syl.unpack w) (sylExt w n) = .ok i ∧ i.slotOk sl = true ∧
      (sylExt w n = i.ext? ∨ i.exts ≠ []) ∧ i.wf := by
  have hx : (if ((Syl.unpack w).xt == 1) = true then some n else none) = sylExt w n := rfl
  simp only [decodeSlot, hx]
  simp only [dec_bind_eq_ok, need_eq_ok, decChecks_eq_ok, beq_iff_eq, exists_and_left, exists_const]
  constructor
  · rintro ⟨h1, j, h2, rfl, h3⟩; exact ⟨h1, h2, h3⟩
  · rintro ⟨h1, h2, h3⟩; exact ⟨h1, i, h2, rfl, h3⟩

/-- The extensions of an instruction being the syllable's, its extension is. -/
theorem ext?_eq {i : Instr} {x : Option Word} (he : ∀ v ∈ i.exts, x = some v) (h : x = i.ext? ∨ i.exts ≠ []) :
    i.ext? = x := by
  rcases h with h | h
  · exact h.symm
  · cases hl : i.exts with
    | nil => exact absurd hl h
    | cons v l => rw [Instr.ext?, hl, he v (by simp [hl])]; rfl

/-- A syllable without an extension is read alike whatever follows it. -/
theorem decodeSlot_of_no_ext {sl : Slot} {w : Word} (h : hasExt w = false) (n m : Word) :
    decodeSlot sl w n = decodeSlot sl w m := by
  have hx : ((Syl.unpack w).xt == 1) = false := h
  simp only [decodeSlot, hx, Bool.false_eq_true, if_false]

end Sys2Proof

namespace Sys2Proof.Machine

theorem statement_all : ∀ i : Instr, Laws.Encoding.Statement i
  | .nop => Laws.Encoding.nop
  | .add .. => Laws.Encoding.add _ _ _ _
  | .sub .. => Laws.Encoding.sub _ _ _ _
  | .mul .. => Laws.Encoding.mul _ _ _ _
  | .mulh .. => Laws.Encoding.mulh _ _ _ _ _
  | .div .. => Laws.Encoding.div _ _ _ _ _
  | .rem .. => Laws.Encoding.rem _ _ _ _ _
  | .and .. => Laws.Encoding.and _ _ _ _
  | .or .. => Laws.Encoding.or _ _ _ _
  | .xor .. => Laws.Encoding.xor _ _ _ _
  | .shl .. => Laws.Encoding.shl _ _ _ _
  | .shr .. => Laws.Encoding.shr _ _ _ _ _
  | .rot .. => Laws.Encoding.rot _ _ _ _
  | .min .. => Laws.Encoding.min _ _ _ _ _
  | .max .. => Laws.Encoding.max _ _ _ _ _
  | .clz .. => Laws.Encoding.clz _ _ _
  | .popc .. => Laws.Encoding.popc _ _ _
  | .sel .. => Laws.Encoding.sel _ _ _ _ _
  | .cmp .. => Laws.Encoding.cmp _ _ _ _ _
  | .li .. => Laws.Encoding.li _ _ _
  | .lea .. => Laws.Encoding.lea _ _ _ _ _
  | .ld .. => Laws.Encoding.ld _ _ _ _ _ _ _
  | .st .. => Laws.Encoding.st _ _ _ _ _ _
  | .mfs .. => Laws.Encoding.mfs _ _ _
  | .mts .. => Laws.Encoding.mts _ _ _
  | .br .. => Laws.Encoding.br _ _ _
  | .bri .. => Laws.Encoding.bri _ _ _
  | .call .. => Laws.Encoding.call _ _
  | .calli .. => Laws.Encoding.calli _ _
  | .ret .. => Laws.Encoding.ret _ _
  | .handback .. => Laws.Encoding.handback _
  | .tailend .. => Laws.Encoding.tailend _
  | .jointail .. => Laws.Encoding.jointail _ _
  | .loop .. => Laws.Encoding.loop _ _ _
  | .trap .. => Laws.Encoding.trap _ _
  | .eret .. => Laws.Encoding.eret _
  | .halt .. => Laws.Encoding.halt _
  | .fuse .. => Laws.Encoding.fuse _ _
  | .decouple .. => Laws.Encoding.decouple _
  | .rejoin .. => Laws.Encoding.rejoin _
  | .rent .. => Laws.Encoding.rent _ _ _ _ _ _ _ _ _ _ _
  | .renew .. => Laws.Encoding.renew _ _ _ _ _
  | .prepay .. => Laws.Encoding.prepay _ _ _ _ _ _
  | .sublet .. => Laws.Encoding.sublet _ _ _ _ _ _ _ _
  | .vacate .. => Laws.Encoding.vacate _ _ _ _
  | .handover .. => Laws.Encoding.handover _ _ _ _ _
  | .lease .. => Laws.Encoding.lease _ _ _
  | .barinit .. => Laws.Encoding.barinit _ _ _ _ _ _
  | .barbase .. => Laws.Encoding.barbase _ _ _ _
  | .arrive .. => Laws.Encoding.arrive _ _ _
  | .wait .. => Laws.Encoding.wait _ _ _ _
  | .watch .. => Laws.Encoding.watch _ _ _ _
  | .fence .. => Laws.Encoding.fence _ _ _ _
  | .vadd .. => Laws.Encoding.vadd _ _ _ _ _ _ _
  | .vsub .. => Laws.Encoding.vsub _ _ _ _ _ _ _
  | .vmul .. => Laws.Encoding.vmul _ _ _ _ _ _ _
  | .vfma .. => Laws.Encoding.vfma _ _ _ _ _ _ _ _ _
  | .vmin .. => Laws.Encoding.vmin _ _ _ _ _
  | .vmax .. => Laws.Encoding.vmax _ _ _ _ _
  | .vabs .. => Laws.Encoding.vabs _ _ _ _ _
  | .vand .. => Laws.Encoding.vand _ _ _ _ _
  | .vor .. => Laws.Encoding.vor _ _ _ _ _
  | .vxor .. => Laws.Encoding.vxor _ _ _ _ _
  | .vshl .. => Laws.Encoding.vshl _ _ _ _ _
  | .vshr .. => Laws.Encoding.vshr _ _ _ _ _
  | .vcmp .. => Laws.Encoding.vcmp _ _ _ _ _ _
  | .vsel .. => Laws.Encoding.vsel _ _ _ _ _ _
  | .vmov .. => Laws.Encoding.vmov _ _ _ _
  | .vcvt .. => Laws.Encoding.vcvt _ _ _ _ _ _ _
  | .vblkmax .. => Laws.Encoding.vblkmax _ _ _ _
  | .vscale .. => Laws.Encoding.vscale _ _ _ _ _
  | .vquant .. => Laws.Encoding.vquant _ _ _ _ _ _ _ _
  | .vrsqe .. => Laws.Encoding.vrsqe _ _ _
  | .vrcpe .. => Laws.Encoding.vrcpe _ _ _
  | .vexp2 .. => Laws.Encoding.vexp2 _ _ _ _
  | .vlog2 .. => Laws.Encoding.vlog2 _ _ _ _
  | .vredsum .. => Laws.Encoding.vredsum _ _ _ _ _ _
  | .vredmax .. => Laws.Encoding.vredmax _ _ _ _
  | .vperm .. => Laws.Encoding.vperm _ _ _ _ _
  | .vrot .. => Laws.Encoding.vrot _ _ _ _ _
  | .vidx .. => Laws.Encoding.vidx _ _ _
  | .vtopk .. => Laws.Encoding.vtopk _ _ _ _ _ _ _ _
  | .vdot4 .. => Laws.Encoding.vdot4 _ _ _ _ _ _ _
  | .vmulh .. => Laws.Encoding.vmulh _ _ _ _ _
  | .vclamp .. => Laws.Encoding.vclamp _ _ _ _ _ _
  | .vrnd .. => Laws.Encoding.vrnd _ _ _ _ _
  | .vclass .. => Laws.Encoding.vclass _ _ _ _
  | .vpack .. => Laws.Encoding.vpack _ _ _ _ _ _
  | .vunpack .. => Laws.Encoding.vunpack _ _ _ _ _
  | .pand .. => Laws.Encoding.pand _ _ _ _ _ _
  | .por .. => Laws.Encoding.por _ _ _ _ _ _
  | .pxor .. => Laws.Encoding.pxor _ _ _ _ _ _
  | .pcnt .. => Laws.Encoding.pcnt _ _ _ _
  | .vld .. => Laws.Encoding.vld _ _ _ _ _ _
  | .vldx .. => Laws.Encoding.vldx _ _ _ _ _ _ _
  | .vst .. => Laws.Encoding.vst _ _ _ _ _
  | .vstx .. => Laws.Encoding.vstx _ _ _ _ _ _
  | .tld .. => Laws.Encoding.tld _ _ _ _
  | .tst .. => Laws.Encoding.tst _ _ _ _
  | .trd .. => Laws.Encoding.trd _ _ _ _
  | .twr .. => Laws.Encoding.twr _ _ _ _
  | .ttr .. => Laws.Encoding.ttr _ _ _ _
  | .tmask .. => Laws.Encoding.tmask _ _ _ _ _ _ _
  | .trmax .. => Laws.Encoding.trmax _ _ _ _
  | .trsum .. => Laws.Encoding.trsum _ _ _ _ _
  | .texp .. => Laws.Encoding.texp _ _ _ _ _ _
  | .trscl .. => Laws.Encoding.trscl _ _ _ _ _ _
  | .tcvt .. => Laws.Encoding.tcvt _ _ _ _ _ _ _
  | .twait .. => Laws.Encoding.twait _ _ _
  | .tzero .. => Laws.Encoding.tzero _ _
  | .mma .. => Laws.Encoding.mma _ _ _ _ _ _ _ _ _ _ _
  | .mmag .. => Laws.Encoding.mmag _ _ _ _ _ _ _ _ _ _ _
  | .accdef .. => Laws.Encoding.accdef _ _ _ _ _ _
  | .accz .. => Laws.Encoding.accz _ _
  | .accld .. => Laws.Encoding.accld _ _ _ _ _
  | .accmv .. => Laws.Encoding.accmv _ _ _ _ _ _ _ _ _
  | .accst .. => Laws.Encoding.accst _ _ _ _ _ _ _
  | .accscl .. => Laws.Encoding.accscl _ _ _ _
  | .accbias .. => Laws.Encoding.accbias _ _ _ _
  | .ringset .. => Laws.Encoding.ringset _ _ _ _ _
  | .ringq .. => Laws.Encoding.ringq _ _ _
  | .xcopy .. => Laws.Encoding.xcopy _ _ _ _ _ _ _ _
  | .xgather .. => Laws.Encoding.xgather _ _ _ _ _ _ _ _
  | .xscatter .. => Laws.Encoding.xscatter _ _ _ _ _ _ _ _
  | .xacc .. => Laws.Encoding.xacc _ _ _ _ _ _ _ _
  | .xfetch .. => Laws.Encoding.xfetch _ _ _ _ _ _ _
  | .xcas .. => Laws.Encoding.xcas _ _ _ _ _ _ _
  | .xfill .. => Laws.Encoding.xfill _ _ _ _ _ _ _
  | .xexpand .. => Laws.Encoding.xexpand _ _ _ _ _ _ _
  | .xsignal .. => Laws.Encoding.xsignal _ _ _ _ _
  | .xorder .. => Laws.Encoding.xorder _ _ _ _
  | .kvalloc .. => Laws.Encoding.kvalloc _ _ _ _
  | .kvfree .. => Laws.Encoding.kvfree _ _ _
  | .kvshare .. => Laws.Encoding.kvshare _ _ _ _
  | .kvappend .. => Laws.Encoding.kvappend _ _ _ _ _ _
  | .kvcommit .. => Laws.Encoding.kvcommit _ _ _ _ _
  | .kvget .. => Laws.Encoding.kvget _ _ _ _ _ _
  | .kvsum .. => Laws.Encoding.kvsum _ _ _ _ _
  | .xcoll .. => Laws.Encoding.xcoll _ _ _ _ _ _ _ _ _
  | .resultLanding .. => Laws.Encoding.resultLanding _ _
  | .timedLoadLanding .. => Laws.Encoding.timedLoadLanding _ _
  | .queuedOpStart .. => Laws.Encoding.queuedOpStart _ _ _
  | .queuedOpComplete .. => Laws.Encoding.queuedOpComplete _ _ _
  | .commandStart .. => Laws.Encoding.commandStart _ _
  | .commandElement .. => Laws.Encoding.commandElement _ _
  | .commandCompletion .. => Laws.Encoding.commandCompletion _ _
  | .collectiveForm .. => Laws.Encoding.collectiveForm _ _
  | .prepayRenewal .. => Laws.Encoding.prepayRenewal _
  | .leaseExpiry .. => Laws.Encoding.leaseExpiry _ _
  | .rentLowEvent .. => Laws.Encoding.rentLowEvent _
  | .rentLowTrap .. => Laws.Encoding.rentLowTrap _ _
  | .scrubComplete .. => Laws.Encoding.scrubComplete _
  | .watchTimeout .. => Laws.Encoding.watchTimeout _ _
  | .prgResponse .. => Laws.Encoding.prgResponse _ _ _
  | .invalidationComplete .. => Laws.Encoding.invalidationComplete _ _
  | .doorbell .. => Laws.Encoding.doorbell _ _ _
  | .launchEntryRead .. => Laws.Encoding.launchEntryRead _ _
  | .placement => Laws.Encoding.placement
  | .priorityPreemption .. => Laws.Encoding.priorityPreemption _ _
  | .preemptedResume .. => Laws.Encoding.preemptedResume _
  | .launchRetire .. => Laws.Encoding.launchRetire _
  | .coalDelayExpiry .. => Laws.Encoding.coalDelayExpiry _
  | .turnEnd .. => Laws.Encoding.turnEnd _
  | .safePointSwitch .. => Laws.Encoding.safePointSwitch _ _
  | .fullSave .. => Laws.Encoding.fullSave _ _
  | .turnBegin .. => Laws.Encoding.turnBegin _
  | .quadScrubComplete .. => Laws.Encoding.quadScrubComplete _
  | .escalationResume .. => Laws.Encoding.escalationResume _ _
  | .escalationStop .. => Laws.Encoding.escalationStop _ _
  | .heatBoardUpdate => Laws.Encoding.heatBoardUpdate
  | .powerAlarmRaise => Laws.Encoding.powerAlarmRaise
  | .powerAlarmClear => Laws.Encoding.powerAlarmClear
  | .tokenRefill => Laws.Encoding.tokenRefill
  | .patrol .. => Laws.Encoding.patrol _ _
  | .qpartWrite .. => Laws.Encoding.qpartWrite _
  | .fctlWrite .. => Laws.Encoding.fctlWrite _
  | .lqWrite .. => Laws.Encoding.lqWrite _
  | .invWrite .. => Laws.Encoding.invWrite _
  | .prictlWrite .. => Laws.Encoding.prictlWrite _
  | .tbktWrite .. => Laws.Encoding.tbktWrite _
  | .lmapWrite .. => Laws.Encoding.lmapWrite _
  | .mwdataAccess .. => Laws.Encoding.mwdataAccess _
  | .s1invWrite .. => Laws.Encoding.s1invWrite _ _
  | .setlayer .. => Laws.Encoding.setlayer _
  | .getlayer .. => Laws.Encoding.getlayer _
  | .getwindow .. => Laws.Encoding.getwindow _
  | .registerWindowWrite .. => Laws.Encoding.registerWindowWrite _ _ _ _
  | .functionLevelReset .. => Laws.Encoding.functionLevelReset _
  | .packageReset => Laws.Encoding.packageReset
  | .configurationRequest .. => Laws.Encoding.configurationRequest _
  | .getVersion => Laws.Encoding.getVersion
  | .getCapabilities => Laws.Encoding.getCapabilities
  | .negotiateAlgorithms .. => Laws.Encoding.negotiateAlgorithms _
  | .getDigests => Laws.Encoding.getDigests
  | .getCertificate .. => Laws.Encoding.getCertificate _ _ _
  | .challenge .. => Laws.Encoding.challenge _
  | .getMeasurements .. => Laws.Encoding.getMeasurements _
  | .vendorDefinedRequest => Laws.Encoding.vendorDefinedRequest
  | .receiveFlit .. => Laws.Encoding.receiveFlit _ _
  | .nak .. => Laws.Encoding.nak _ _
  | .finalRound .. => Laws.Encoding.finalRound _

end Sys2Proof.Machine

open Sys2Proof Sys2Proof.Machine

/-- Settles O1, instruction by instruction: each constructor's own round trip. -/
theorem decodeEncode : Obligations.DecodeEncode := fun i sl hw hs => statement_all i hw sl hs

/-- Settles O2: the decoder's steps read backwards give the fields, and its checks the rest. -/
theorem encodeDecode : Obligations.EncodeDecode := by
  intro sl w n i h
  obtain ⟨hh, hf, hs, hx, hw⟩ := decodeSlot_eq_ok_iff.mp h
  obtain ⟨hfields, hguard, hexts⟩ := decFields_encodes _ _ _ _ hf
  have hext : i.ext? = sylExt w n := ext?_eq hexts hx
  have hxt : ofBit (sylExt w n).isSome = (Syl.unpack w).xt := by
    have hb : ∀ b : BitVec 1, ofBit (b == 1) = b := by decide
    rw [← hb (Syl.unpack w).xt, sylExt]
    change ofBit (if hasExt w then some n else none).isSome = ofBit (hasExt w)
    cases hasExt w <;> rfl
  refine ⟨hw, hs, ?_⟩
  simp only [encode, hfields, hext, hguard, hxt, BitVec.ofNat_toNat, BitVec.setWidth_eq]
  rw [← hh]
  refine congrArg₂ _ (Syl.pack_unpack w) ?_
  simp only [sylExt]
  cases hasExt w <;> rfl

end

section
/-!
PROOFS. Bundles of one instruction and headers (R94, R95, log 11): their words are read back one by one, and a header is
valid exactly where its fields agree.
-/
namespace Sys2Proof
/-! ## Headers (R94, R95, log 11) -/

/-- The header of the one-slot bundle names its slot, and its broadcast port is there. -/
theorem headerFor_decodes (sl : Slot) :
    ∃ h, decodeHeader (headerFor sl) = .ok h ∧ h.only = some sl ∧ (h.bps == .none) = false := by
  cases sl <;> exact ⟨_, rfl, by decide, by decide⟩

theorem wordAt_zero (w : Word) (n : Nat) : wordAt (w.toNat + 2 ^ 64 * n) 0 = w := by
  apply BitVec.eq_of_toNat_eq
  have := w.isLt
  simp only [wordAt, BitVec.toNat_ofNat]
  omega
theorem wordAt_succ (w : Word) (n k : Nat) : wordAt (w.toNat + 2 ^ 64 * n) (k + 1) = wordAt n k := by
  have h : (w.toNat + 2 ^ 64 * n) / 2 ^ 64 = n := by have := w.isLt; omega
  rw [wordAt, wordAt, show 64 * (k + 1) = 64 + 64 * k by ring, pow_add, ← Nat.div_div_eq_div_mul, h]

/-- Words put together into one number, the first lowest. -/
def joinWords (l : List Word) : Nat := l.foldr (fun w acc => w.toNat + 2 ^ 64 * acc) 0

theorem joinWords_lt : ∀ l : List Word, joinWords l < 2 ^ (64 * l.length)
  | [] => by simp [joinWords]
  | w :: l => by
      have ih := joinWords_lt l
      have hw := w.isLt
      have hp : 2 ^ (64 * (l.length + 1)) = 2 ^ 64 * 2 ^ (64 * l.length) := by rw [← pow_add]; ring_nf
      simp only [joinWords, List.foldr_cons, List.length_cons, hp] at ih ⊢
      omega
theorem wordAt_joinWords : ∀ (l : List Word) (k : Nat), wordAt (joinWords l) k = l.getD k 0
  | [], k => by simp [joinWords, wordAt]
  | w :: l, 0 => wordAt_zero w _
  | w :: l, k + 1 => (wordAt_succ w _ k).trans (wordAt_joinWords l k)
end Sys2Proof
namespace Sys2Proof.Machine

theorem field_eq_zero {w : Nat} (x : BitVec w) (lo n : Nat) : field x lo n = 0 ↔ x.extractLsb' lo n = 0#n := by
  rw [← BitVec.toNat_inj]
  simp [field, Nat.shiftRight_eq_div_pow]

theorem field_eq {w : Nat} (x : BitVec w) (lo n : Nat) : field x lo n = (x.extractLsb' lo n).toNat := by
  simp [field, Nat.shiftRight_eq_div_pow]

end Sys2Proof.Machine
open Sys2Proof Sys2Proof.Machine

/-- Settles O3: the bundle's words are read back one by one, and its slot is the header's only one. -/
theorem tableWordDecodes : Obligations.TableWordDecodes := by
  intro i sl hw hs
  obtain ⟨w, he, -, hd⟩ := statement_all i hw sl hs
  obtain ⟨h, hh, hsl, hb⟩ := headerFor_decodes sl
  have hbits : bundleBits sl i = joinWords (headerFor sl :: w :: i.ext?.toList) := by rw [bundleBits, he]; rfl
  have hlt : joinWords (headerFor sl :: w :: i.ext?.toList) < 2 ^ 192 :=
    (joinWords_lt _).trans_le (Nat.pow_le_pow_right (by omega) (by cases i.ext? <;> simp))
  have hn : (headerFor sl :: w :: i.ext?.toList).getD 2 0 = i.ext?.getD 0 := by cases i.ext? <;> rfl
  simp only [decodeTableWord, hbits, Nat.mod_eq_of_lt hlt, wordAt_joinWords, hn]
  simp only [List.getD_cons_zero, List.getD_cons_succ, hh, hsl, hd, hb, Bool.and_false, Bool.false_eq_true, if_false]

/-- Settles O4, word by word. -/
theorem wordsOfTheSpec : Obligations.WordsOfTheSpec := by
  unfold Obligations.WordsOfTheSpec
  decide

namespace Sys2Proof.Machine
theorem bpsOf_eq_ok {w : Word} : (∃ b, bpsOf w = .ok b) ↔
    (field w 45 2 = 0 → field w 39 6 = 0 ∧ field w 23 16 = 0) ∧ (field w 45 2 = 1 → field w 23 16 = 0) ∧
      (2 ≤ field w 45 2 → field w 39 6 = 0) := by
  have hlt : (w.extractLsb' 45 2).toNat < 4 := (w.extractLsb' 45 2).isLt
  simp only [field_eq_zero w 39 6, field_eq_zero w 23 16, field_eq w 45 2, bpsOf]
  generalize (w.extractLsb' 45 2).toNat = n at hlt ⊢
  obtain rfl | rfl | rfl | rfl : n = 0 ∨ n = 1 ∨ n = 2 ∨ n = 3 := by omega
  · by_cases h : w.extractLsb' 39 6 = 0#6 <;> by_cases h' : w.extractLsb' 23 16 = 0#16 <;> simp [h, h']
  · by_cases h : w.extractLsb' 23 16 = 0#16 <;> simp [h]
  · by_cases h : w.extractLsb' 39 6 = 0#6 <;> simp [h]
  · by_cases h : w.extractLsb' 39 6 = 0#6 <;> simp [h]

theorem decodeHeader_eq_ok {w : Word} (hw : isHeader w = true) : (∃ h, decodeHeader w = .ok h) ↔
    field w 0 16 = 0 ∧ ∃ b, bpsOf w = .ok b := by
  simp only [decodeHeader, hw, need_true, dec_bind, dec_bind_eq_ok, need_eq_ok, field_eq_zero, beq_iff_eq]
  constructor
  · rintro ⟨h, _, h0, b, hb, _⟩; exact ⟨h0, b, hb⟩
  · rintro ⟨h0, b, hb⟩; exact ⟨_, (), h0, b, hb, rfl⟩

theorem withSyl_word {s : State} {k j : Nat} {a w : Word} (h : fetch s k j a = .word w) (sl : Slot)
    (part : Option Bundle) (go : Word → Got) : withSyl s k j a sl part go = go w := by simp only [withSyl, h]

/-- The bundle behind a word that is no valid header. -/
theorem fetchBundle_of_bad_header {s : State} {k j : Nat} {pc w : Word} (hf : fetch s k j pc = .word w)
    (hd : ∀ h, decodeHeader w ≠ .ok h) :
    fetchBundle s k j pc = .stop { fault := some (illegalAt pc .s0) } none := by
  rw [fetchBundle, withSyl_word hf]
  split
  · rfl
  · next h hh => exact absurd hh (hd h)

/-- The bundle behind a valid header whose slots decode: refused where it repeats a one-shot operation. -/
theorem fetchBundle_of_slots {s : State} {k j : Nat} {pc w : Word} {h : Header} {b : Bundle}
    (hf : fetch s k j pc = .word w) (hd : decodeHeader w = .ok h)
    (hb : fetchSlots s k j h [] Slot.all (pc + 8) = .bundle b) :
    fetchBundle s k j pc = if h.rep ≠ 0 ∧ b.ops.any (fun o => o.2.1.oneShot) then
      .stop { fault := some (illegalAt pc .s0) } (some b) else .bundle b := by
  simp only [fetchBundle, withSyl_word hf, hd, hb]

end Sys2Proof.Machine

/-- Settles O5: what the header's decoding asks field by field, and what the fetch makes of its answer. -/
theorem headerValidity : Obligations.HeaderValidity := by
  refine ⟨fun w hw => (decodeHeader_eq_ok hw).trans (and_congr_right' bpsOf_eq_ok), fun s k j pc w hf => ?_⟩
  refine ⟨fetchBundle_of_bad_header hf, fun h b hd hb => ⟨fun hr ho => ?_, fun hn => ?_⟩⟩
  · rw [fetchBundle_of_slots hf hd hb, if_pos ⟨hr, ho⟩]
  · rw [fetchBundle_of_slots hf hd hb, if_neg]
    rintro ⟨hr, ho⟩
    rcases hn with hn | hn
    · exact hr hn
    · rw [ho] at hn; cases hn

end

section
/-!
PROOFS. The step (R28, R30, log 1): every instruction has an outcome, both memories stay canonical, what an operation writes
when it issues, and how the move of a core reaches the meaning of the one operation its bundle holds.
-/
open Sys2Proof Sys2Proof.Machine

/-- Settles O6: an event that is due keeps the canonical form, and so does a move. -/
theorem stepKeepsInv : Obligations.StepKeepsInv := by
  intro s t hs h
  unfold step at h
  split at h
  · next i r _ =>
    obtain ⟨u, hu, hc⟩ := exec_canonical i { s with agenda := r } hs
    rw [hu] at h
    cases h
    exact hc
  · split at h
    · cases h
    · cases h
      exact advance_canonical s hs

/-- Settles O7: each field's initial value. -/
theorem resetState : Obligations.ResetState := by
  refine ⟨⟨rfl, rfl⟩, rfl, rfl, rfl, rfl, rfl, rfl, rfl, rfl, rfl, fun k j => rfl, ?_⟩
  intro l n j ic pc x
  refine ⟨fun r => ⟨?_, rfl, fun hr => ?_⟩, fun t r => rfl, rfl, rfl, rfl, rfl, rfl, rfl, rfl, rfl, rfl⟩
  · rw [Bank.getS]; split <;> rfl
  · simp only [Bank.physP, if_neg (show r ≠ 0 by omega), if_neg (show r ≠ 1 by omega)]
    rfl

namespace Sys2Proof.Machine

/-- Every meaning answers a next state. -/
theorem exec_answers (i : Instr) (s : State) : ∃ t, exec i s = .next t := by
  cases i
  all_goals exact ⟨_, rfl⟩

end Sys2Proof.Machine

/-- Settles O8: a step is an event's, a move, or the stop of a halted package. -/
theorem execAnswers : Obligations.ExecAnswers := by
  refine ⟨exec_answers, fun s => ?_⟩
  unfold step
  split
  · exact .inl (exec_answers ..)
  · next ha =>
    split
    · next hb => exact .inr ⟨hb, ha, rfl⟩
    · exact .inl ⟨_, rfl⟩

namespace Sys2Proof.Machine

/-- The operations whose issue may write memory (R131, R170, R171, R63, R61, R222). -/
def mayWrite : Instr → Bool
  | .st .. | .vst .. | .vstx .. | .arrive .. | .vacate .. | .handover .. => true
  | _ => false

/-- An operation that writes no memory when it issues leaves both memories alone. -/
theorem exec_memories {i : Instr} (s : State) (he : i.isEvent = false) (hw : mayWrite i = false) :
    NextWith (fun t => t.memories = s.memories) (exec i s) := by
  cases i with
  | st | vst | vstx | arrive | vacate | handover => cases hw
  | nop => exact execNop_memories ..
  | add g d a b => exact execAdd_memories ..
  | sub g d a b => exact execSub_memories ..
  | mul g d a b => exact execMul_memories ..
  | mulh g u d a b => exact execMulh_memories ..
  | div g u d a b => exact execDiv_memories ..
  | rem g u d a b => exact execRem_memories ..
  | and g d a b => exact execAnd_memories ..
  | or g d a b => exact execOr_memories ..
  | xor g d a b => exact execXor_memories ..
  | shl g d a b => exact execShl_memories ..
  | shr g arith d a b => exact execShr_memories ..
  | rot g d a b => exact execRot_memories ..
  | min g u d a b => exact execMin_memories ..
  | max g u d a b => exact execMax_memories ..
  | clz g d a => exact execClz_memories ..
  | popc g d a => exact execPopc_memories ..
  | sel g d c a b => exact execSel_memories ..
  | cmp g c p a b => exact execCmp_memories ..
  | li g d a => exact execLi_memories ..
  | lea g d a b sh => exact execLea_memories ..
  | ld g sz acq d base arr off => exact execLd_memories ..
  | mfs g d n => exact execMfs_memories ..
  | mts g n a => exact execMts_memories ..
  | br g d disp => exact execBr_memories ..
  | bri g d a => exact execBri_memories ..
  | call g disp => exact execCall_memories ..
  | calli g a => exact execCalli_memories ..
  | ret g a => exact execRet_memories ..
  | handback g => exact execHandback_memories ..
  | tailend g => exact execTailend_memories ..
  | jointail g p => exact execJointail_memories ..
  | loop g d disp => exact execLoop_memories ..
  | trap g a => exact execTrap_memories ..
  | eret g => exact execEret_memories ..
  | halt g => exact execHalt_memories ..
  | fuse g n => exact execFuse_memories ..
  | decouple g => exact execDecouple_memories ..
  | rejoin g => exact execRejoin_memories ..
  | rent g tier kind ls rlt spread d p a b c => exact execRent_memories ..
  | renew g d p a b => exact execRenew_memories ..
  | prepay g d p a b c => exact execPrepay_memories ..
  | sublet g l gr d p a b c => exact execSublet_memories ..
  | lease g d a => exact execLease_memories ..
  | barinit g sc p a b c => exact execBarinit_memories ..
  | barbase g sc a b => exact execBarbase_memories ..
  | wait g sc p a => exact execWait_memories ..
  | watch g p w b => exact execWatch_memories ..
  | fence g sc kinds dir => exact execFence_memories ..
  | vadd g t rc sat d a b => exact execVadd_memories ..
  | vsub g t rc sat d a b => exact execVsub_memories ..
  | vmul g t rc sat d a b => exact execVmul_memories ..
  | vfma g t rc np nc d a b c => exact execVfma_memories ..
  | vmin g t d a b => exact execVmin_memories ..
  | vmax g t d a b => exact execVmax_memories ..
  | vabs g t sat d a => exact execVabs_memories ..
  | vand g t d a b => exact execVand_memories ..
  | vor g t d a b => exact execVor_memories ..
  | vxor g t d a b => exact execVxor_memories ..
  | vshl g t d a b => exact execVshl_memories ..
  | vshr g t d a b => exact execVshr_memories ..
  | vcmp g t c p a b => exact execVcmp_memories ..
  | vsel g t d c a b => exact execVsel_memories ..
  | vmov g t d a => exact execVmov_memories ..
  | vcvt g t u rc ns d a => exact execVcvt_memories ..
  | vblkmax g t d a => exact execVblkmax_memories ..
  | vscale g u d a b => exact execVscale_memories ..
  | vquant g t u rc ns d a b => exact execVquant_memories ..
  | vrsqe g d a => exact execVrsqe_memories ..
  | vrcpe g d a => exact execVrcpe_memories ..
  | vexp2 g rc d a => exact execVexp2_memories ..
  | vlog2 g rc d a => exact execVlog2_memories ..
  | vredsum g t rc w d a => exact execVredsum_memories ..
  | vredmax g t d a => exact execVredmax_memories ..
  | vperm g t d a b => exact execVperm_memories ..
  | vrot g t d a b => exact execVrot_memories ..
  | vidx g t d => exact execVidx_memories ..
  | vtopk g t k init d c a b => exact execVtopk_memories ..
  | vdot4 g t rc d a b c => exact execVdot4_memories ..
  | vmulh g t d a b => exact execVmulh_memories ..
  | vclamp g t d a b c => exact execVclamp_memories ..
  | vrnd g t rc d a => exact execVrnd_memories ..
  | vclass g t d a => exact execVclass_memories ..
  | vpack g t sat d a b => exact execVpack_memories ..
  | vunpack g t hi d a => exact execVunpack_memories ..
  | pand g na nb d a b => exact execPand_memories ..
  | por g na nb d a b => exact execPor_memories ..
  | pxor g na nb d a b => exact execPxor_memories ..
  | pcnt g t d a => exact execPcnt_memories ..
  | vld g acq d base arr off => exact execVld_memories ..
  | vldx g t d base arr xv off => exact execVldx_memories ..
  | tld g d a b => exact execTld_memories ..
  | tst g d a b => exact execTst_memories ..
  | trd g t d b => exact execTrd_memories ..
  | twr g d a b => exact execTwr_memories ..
  | ttr g t d src => exact execTtr_memories ..
  | tmask g t mode d a b c => exact execTmask_memories ..
  | trmax g t src d => exact execTrmax_memories ..
  | trsum g t rc src d => exact execTrsum_memories ..
  | texp g t rc d src b => exact execTexp_memories ..
  | trscl g t rc d src b => exact execTrscl_memories ..
  | tcvt g t u rc ns d src => exact execTcvt_memories ..
  | twait g tm am => exact execTwait_memories ..
  | tzero g d => exact execTzero_memories ..
  | mma g f acc a b m8 n16 k16 pa pb z => exact execMma_memories ..
  | mmag g f acc a b m8 n16 k16 pa pb z => exact execMmag_memories ..
  | accdef g i32 n a b c => exact execAccdef_memories ..
  | accz g n => exact execAccz_memories ..
  | accld g t n a b => exact execAccld_memories ..
  | accmv g t dir rc ns n d a b => exact execAccmv_memories ..
  | accst g t rc ns n a b => exact execAccst_memories ..
  | accscl g n a b => exact execAccscl_memories ..
  | accbias g n a b => exact execAccbias_memories ..
  | ringset g r a b c => exact execRingset_memories ..
  | ringq g r d => exact execRingq_memories ..
  | xcopy g esz ch pace d b c desc => exact execXcopy_memories ..
  | xgather g esz ch pace d b vi n1 => exact execXgather_memories ..
  | xscatter g esz ch pace a b vi n1 => exact execXscatter_memories ..
  | xacc g op esz ch pace a b c => exact execXacc_memories ..
  | xfetch g op esz ch a b c => exact execXfetch_memories ..
  | xcas g esz ch a b c res => exact execXcas_memories ..
  | xfill g esz ch pace a b c => exact execXfill_memories ..
  | xexpand g esz ch pace d b c => exact execXexpand_memories ..
  | xsignal g op ch a b => exact execXsignal_memories ..
  | xorder g esz ch b => exact execXorder_memories ..
  | kvalloc g ch a b => exact execKvalloc_memories ..
  | kvfree g ch a => exact execKvfree_memories ..
  | kvshare g ch a b => exact execKvshare_memories ..
  | kvappend g adv ch a b c => exact execKvappend_memories ..
  | kvcommit g reject ch a b => exact execKvcommit_memories ..
  | kvget g ch pace d b c => exact execKvget_memories ..
  | kvsum g ch a b c => exact execKvsum_memories ..
  | xcoll g op kind esz ch a b c desc => exact execXcoll_memories ..
  | _ => cases he

/-- An operation that is none of those that may write memory. -/
theorem mayWrite_eq_false {i : Instr} (hst : ∀ g z r d b o, i ≠ .st g z r d b o) (hvst : ∀ g r d b o, i ≠ .vst g r d b o)
    (hvstx : ∀ g y d b x o, i ≠ .vstx g y d b x o) (har : ∀ g c a, i ≠ .arrive g c a)
    (hva : ∀ g u d a, i ≠ .vacate g u d a) (hho : ∀ g d p a b, i ≠ .handover g d p a b) : mayWrite i = false := by
  unfold mayWrite
  split
  · exact (hst _ _ _ _ _ _ rfl).elim
  · exact (hvst _ _ _ _ _ rfl).elim
  · exact (hvstx _ _ _ _ _ _ rfl).elim
  · exact (har _ _ _ rfl).elim
  · exact (hva _ _ _ _ rfl).elim
  · exact (hho _ _ _ _ _ rfl).elim
  · rfl

end Sys2Proof.Machine

/-- Settles O9: each other operation leaves both memories as they are. -/
theorem nonStoringFrame : Obligations.NonStoringFrame := by
  intro i s t he hst hvst hvstx har hva hho h
  obtain ⟨u, hu, hm⟩ := exec_memories s he (mayWrite_eq_false hst hvst hvstx har hva hho)
  rw [hu] at h
  cases h
  exact hm

/-- Settles O10: the step looks at the agenda first. -/
theorem stepTakesEvent : Obligations.StepTakesEvent := fun s i r h => by rw [step, h]

namespace Sys2Proof.Machine

/-! ## The run phase (R28, R30, log 2) -/

@[simp] theorem State.correct_cores (s : State) (u : Nat) : (s.correct u).cores = s.cores := by
  unfold State.correct
  split <;> rfl

/-- Looking at the units of a fetch changes no core. -/
theorem checkFetch_cores (s : State) (k j : Nat) (pc : Word) (g : Got) : (checkFetch s k j pc g).cores = s.cores := by
  unfold checkFetch
  split
  · rfl
  · generalize unitsOf pc.toNat (fetchedBytes s k j pc g) = l
    suffices ∀ t : State, t.cores = s.cores → (l.foldl (fun t u => match dpaOf s k (s.who k j) .bundle false u.1 with
        | some h => t.correct (h.dpa / 64 * 64)
        | none => t) t).cores = s.cores from this s rfl
    induction l with
    | nil => exact fun t ht => ht
    | cons u l ih =>
      intro t ht
      refine ih _ ?_
      dsimp only
      split
      · rw [State.correct_cores, ht]
      · exact ht
theorem checkFetch_core (s : State) (k j : Nat) (pc : Word) (g : Got) (m : Nat) :
    (checkFetch s k j pc g).core m = s.core m := by
  rw [State.core, checkFetch_cores, State.core]
theorem checkFetch_of_no_wrong {s : State} (h : s.wrong = []) (k j : Nat) (pc : Word) (g : Got) :
    checkFetch s k j pc g = s := by rw [checkFetch, h]; rfl

theorem gangSlots_of_no_gang {s : State} {k : Nat} (h : (s.core k).gang = none) (j : Nat) :
    s.gangSlots k j = [(k, j)] := by
  unfold State.gangSlots State.gangOf
  split
  · next hj => rw [h, hj]; rfl
  · rfl

/-- A Running slot's context is Running and not switched out. -/
theorem runningSlot_spec {c : CoreSt} {j : Nat} (h : c.runningSlot = some j) :
    (c.slot j).state = .running ∧ (c.slot j).out = false := by
  simpa using List.find?_some h

theorem gangReady_of_no_gang {s : State} {k j : Nat} (hg : (s.core k).gang = none) (hf : (s.core k).frozen = false)
    (hr : (s.core k).runningSlot = some j) (hn : (s.ctx k j).notBefore ≤ (s.core k).ic) : s.gangReady k j = true := by
  obtain ⟨h1, h2⟩ := runningSlot_spec hr
  have hn' : ((s.core k).slot j).notBefore ≤ (s.core k).ic := hn
  simp [State.gangReady, gangSlots_of_no_gang hg, hf, h1, h2, hn']

/-- The issue of a context outside a gang has one member. -/
theorem membersOf_of_no_gang {s : State} {k : Nat} (h : (s.core k).gang = none) (j : Nat) (b : Bundle) (rep : Nat) :
    s.membersOf k j b rep = [{ core := k, slot := j, ops := (s.ctx k j).repOps b rep }] := by
  rw [State.membersOf, gangSlots_of_no_gang h, List.map_singleton]

theorem runContext_of_no_hold {s : State} {k j : Nat} (hg : (s.core k).gang = none) (hh : (s.ctx k j).hold = none) :
    runContext s k j = runBundle s k j := by
  have hr : replayHold s (k, j) = s := by rw [replayHold, hh]
  simp only [runContext, gangSlots_of_no_gang hg, List.foldl_cons, List.foldl_nil, hr, List.any_cons, List.any_nil, hh,
    Option.isSome_none, Bool.or_false, Bool.false_eq_true, if_false]

/-- A context outside a gang, with an empty hold bank and no escalation to come, tries the bundle it fetches. -/
theorem runContext_bundle {s : State} {k j : Nat} {b : Bundle} (hg : (s.core k).gang = none)
    (hh : (s.ctx k j).hold = none) (he : (s.ctx k j).escNext = none)
    (hb : fetchBundle s k j (s.ctx k j).pc = .bundle b) : runContext s k j =
      tryBundle (checkFetch s k j (s.ctx k j).pc (.bundle b)) k (frameOf k j b (s.ctx k j).pc (s.ctx k j).rep false) b
        [{ core := k, slot := j, ops := (s.ctx k j).repOps b (s.ctx k j).rep }] := by
  have hc := checkFetch_core s k j (s.ctx k j).pc (.bundle b)
  have hg' : ((checkFetch s k j (s.ctx k j).pc (.bundle b)).core k).gang = none := by rw [hc, hg]
  have hx : (checkFetch s k j (s.ctx k j).pc (.bundle b)).ctx k j = s.ctx k j := by
    rw [State.ctx, hc, State.ctx]
  rw [runContext_of_no_hold hg hh, runBundle, gangSlots_of_no_gang hg]
  simp only [List.findSome?_cons, List.findSome?_nil, he, Option.map_none, hb, membersOf_of_no_gang hg', hx]

theorem afterWalk_of_no_walk {s : State} {k : Nat} (h : (s.core k).walk = none) (hw : s.walks = []) (t : State) (j : Nat) :
    afterWalk s t k j = t := by simp only [afterWalk, h, hw]

end Sys2Proof.Machine

/-- Settles O11: in the run phase the move of a core is its Running context's, which tries its bundle. -/
theorem stepRunsBundle : Obligations.StepRunsBundle := by
  intro s k j b ha hhalt hturn hlive hfr hst hg hr hn hh he hb u t
  have hadv : advance s = passTurn (afterWalk s t k j) := by
    have hrun : runCore s k = afterWalk s t k j := by
      simp only [runCore, hfr, hst, hg, hr, gangReady_of_no_gang hg hfr hr hn, runContext_bundle hg hh he hb]
      rfl
    simp only [advance, hturn, hlive, if_true, corePhase, hrun]
  have hstep : step s = .next (passTurn (afterWalk s t k j)) := by
    simp only [step, ha, hhalt, hadv, Bool.false_eq_true, if_false]
  exact ⟨hstep, fun hw => checkFetch_of_no_wrong hw .., fun h1 h2 => by rw [hstep, afterWalk_of_no_walk h1 h2]⟩

namespace Sys2Proof.Machine

/-! ## A bundle of one operation -/

theorem fetchSlots_of_no_slot {s : State} {k j : Nat} {h : Header} : ∀ {l : List Slot} (acc : List (Slot × Instr × Word))
    (a : Word), l.filter h.has = [] →
    fetchSlots s k j h acc l a = .bundle { hdr := h, ops := acc.reverse, next := a }
  | [], _, _, _ => rfl
  | sl :: r, acc, a, hl => by
      obtain ⟨hs, hr⟩ : ¬ h.has sl ∧ r.filter h.has = [] := by
        rw [List.filter_cons] at hl
        split at hl
        · cases hl
        · next hs => exact ⟨hs, hl⟩
      rw [fetchSlots, if_pos (by simpa using hs), fetchSlots_of_no_slot acc a hr]

/-- The fetch of the one slot that is present. -/
theorem fetchSlots_of_one {s : State} {k j : Nat} {h : Header} {sl : Slot} {i : Instr} {w n : Word} {a : Word}
    (hw : fetch s k j a = .word w) (hh : isHeader w = false) (hn : hasExt w = true → fetch s k j (a + 8) = .word n)
    (hd : decodeSlot sl w n = .ok i) : ∀ {l : List Slot}, l.filter h.has = [sl] →
    fetchSlots s k j h [] l a =
      .bundle { hdr := h, ops := [(sl, i, a)], next := if hasExt w then a + 16 else a + 8 }
  | [], hl => by cases hl
  | y :: r, hl => by
      by_cases hx : h.has y = true
      · obtain ⟨rfl, hr⟩ : y = sl ∧ r.filter h.has = [] := by simpa [List.filter_cons, hx] using hl
        rw [fetchSlots, if_neg (by simp [hx]), withSyl_word hw, if_neg (by simp [hh])]
        cases hext : hasExt w with
        | true => simp only [if_true, withSyl_word (hn hext), hd, fetchSlots_of_no_slot _ _ hr, List.reverse_singleton]
        | false =>
          simp only [Bool.false_eq_true, if_false, decodeSlot_of_no_ext hext 0 n, hd, fetchSlots_of_no_slot _ _ hr,
            List.reverse_singleton]
      · have hr : r.filter h.has = [sl] := by simpa [List.filter_cons, hx] using hl
        rw [fetchSlots, if_pos (by simpa using hx), fetchSlots_of_one hw hh hn hd hr]

theorem filter_of_only {h : Header} {sl : Slot} (ho : h.only = some sl) : Slot.all.filter h.has = [sl] := by
  unfold Header.only at ho
  split at ho
  · next hx => cases ho; exact hx
  · cases ho

/-- The bundle behind a header that names one slot. -/
theorem fetchBundle_of_only {s : State} {k j : Nat} {pc hw w n : Word} {h : Header} {sl : Slot} {i : Instr}
    (hf : fetch s k j pc = .word hw) (hd : decodeHeader hw = .ok h) (ho : h.only = some sl)
    (hw' : fetch s k j (pc + 8) = .word w) (hh : isHeader w = false)
    (hn : hasExt w = true → fetch s k j (pc + 16) = .word n) (hi : decodeSlot sl w n = .ok i)
    (hr : h.rep = 0 ∨ i.oneShot = false) : fetchBundle s k j pc =
      .bundle { hdr := h, ops := [(sl, i, pc + 8)], next := if hasExt w then pc + 24 else pc + 16 } := by
  have h16 : pc + 8 + 8 = pc + 16 := by rw [BitVec.add_assoc]; rfl
  have h24 : pc + 8 + 16 = pc + 24 := by rw [BitVec.add_assoc]; rfl
  rw [fetchBundle_of_slots hf hd (fetchSlots_of_one hw' hh (h16 ▸ hn) hi (filter_of_only ho)), if_neg, h16, h24]
  rcases hr with hr | hr <;> simp [hr]

/-! ## The issue of one operation -/

theorem runPass_of_pass {f : Issue} {h : Header} {m : Member} {s t : State} {o : SlotOp} (hm : m.ops = [o])
    (he : exec o.i (atOp s { f with checked := true, soft := s.issue.soft } h m o) = .next t) :
    runPass f h [m] s (passOf o.i) = t := by
  simp only [runPass, List.foldl_cons, List.foldl_nil, hm, List.filter_cons, List.filter_nil, beq_self_eq_true, if_true,
    runOp, he]

theorem runPass_of_other_pass {f : Issue} {h : Header} {m : Member} {o : SlotOp} {p : Nat} (hm : m.ops = [o])
    (hp : passOf o.i ≠ p) (s : State) : runPass f h [m] s p = s := by
  simp only [runPass, List.foldl_cons, List.foldl_nil, hm, List.filter_cons, List.filter_nil, beq_iff_eq, hp, if_false]

/-- Passes that are not the operation's leave the state as it is. -/
theorem runPasses_of_not_mem {f : Issue} {h : Header} {m : Member} {o : SlotOp} (hm : m.ops = [o]) :
    ∀ {l : List Nat} (s : State), passOf o.i ∉ l → l.foldl (runPass f h [m]) s = s
  | [], _, _ => rfl
  | p :: l, s, hl => by
      obtain ⟨hp, hl⟩ := List.ne_and_not_mem_of_not_mem_cons hl
      rw [List.foldl_cons, runPass_of_other_pass hm hp, runPasses_of_not_mem hm s hl]

/-- Passes that take the operation's in once run it. -/
theorem runPasses_of_mem {f : Issue} {h : Header} {m : Member} {s t : State} {o : SlotOp} (hm : m.ops = [o])
    (he : exec o.i (atOp s { f with checked := true, soft := s.issue.soft } h m o) = .next t) :
    ∀ {l : List Nat}, l.Nodup → passOf o.i ∈ l → l.foldl (runPass f h [m]) s = t
  | p :: l, hn, hl => by
      obtain ⟨hnp, hn⟩ := List.nodup_cons.1 hn
      by_cases hp : passOf o.i = p
      · subst hp
        rw [List.foldl_cons, runPass_of_pass hm he, runPasses_of_not_mem hm t hnp]
      · rw [List.foldl_cons, runPass_of_other_pass hm hp,
          runPasses_of_mem hm he hn ((List.mem_cons.1 hl).resolve_left hp)]

theorem passOf_le (i : Instr) : passOf i ≤ 4 := by
  unfold passOf
  repeat' split
  all_goals omega

theorem addWeight_issue (s : State) (k w : Nat) : (addWeight s k w).issue = s.issue := by
  unfold addWeight
  split <;> rfl
theorem countIssue_issue (s : State) (m : Member) : (countIssue s m).issue = s.issue := by
  simp only [countIssue]
  split
  · exact addWeight_issue ..
  · exact addWeight_issue ..

/-- The end of an issue after its passes: a TRAP of another member, the count, and the frame reset. -/
def endIssue (f : Issue) (leads : Bool) (m : Member) (s : State) : State :=
  let s := match s.issue.soft with
    | some (k, t) => if leads then s else ({ s with issue := { f with core := k, ctx := 0 } } : State).softTrap k 0 t
    | none => s
  { finishIssue f.partner s m with issue := {} }

theorem endIssue_of_no_soft {s : State} (h : s.issue.soft = none) (f : Issue) (leads : Bool) (m : Member) :
    endIssue f leads m s = { finishIssue f.partner s m with issue := {} } := by
  simp only [endIssue, h]

/-- The issue of one member: the passes before the view join, the join, and those after it. -/
theorem issueBundle_singleton {s w x : State} {f : Issue} {b : Bundle} {m : Member}
    (hw : [0, 1].foldl (runPass f b.hdr [m]) (advancePc (countIssue s m) b f.hdr f.rep m) = w)
    (hx : [2, 3, 4].foldl (runPass f b.hdr [m]) (if b.hdr.vj then joinViews f w m else w) = x) :
    issueBundle s f b [m] = endIssue f (([m].take 1).any (takesTrap s f b.hdr)) m x := by
  subst hx hw
  unfold issueBundle endIssue
  rfl

/-- The issue of a bundle of one operation. -/
theorem issueBundle_of_one {s : State} {f : Issue} {b : Bundle} {k j : Nat} {o : SlotOp} {t : State}
    (hp : f.partner = false) :
    let m : Member := { core := k, slot := j, ops := [o] }
    let u := advancePc (countIssue s m) b f.hdr f.rep m
    let early := decide (passOf o.i < 2)
    let v := if b.hdr.vj && !early then joinViews f u m else u
    exec o.i (atOp v { f with checked := true, soft := v.issue.soft } b.hdr m o) = .next t → t.issue.soft = none →
    issueBundle s f b [m] =
      { finishIssue false (if b.hdr.vj && early then joinViews f t m else t) m with issue := {} } := by
  intro m u early v he ht
  have h4 := passOf_le o.i
  have hmem : passOf o.i ∈ [0, 1] ↔ early = true := by simp [early]; omega
  have hmem' : passOf o.i ∈ [2, 3, 4] ↔ early = false := by simp [early]; omega
  cases hearly : early with
  | true =>
    have hv : v = u := by simp [v, hearly]
    rw [hv] at he
    have hj : (if b.hdr.vj then joinViews f t m else t).issue.soft = none := by
      split
      · exact ht
      · exact ht
    rw [issueBundle_singleton (runPasses_of_mem rfl he (by decide) (hmem.2 hearly))
      (runPasses_of_not_mem rfl _ (by simp [hmem', hearly])), endIssue_of_no_soft hj, hp, Bool.and_true]
  | false =>
    have hv : v = if b.hdr.vj then joinViews f u m else u := by simp [v, hearly]
    rw [hv] at he
    rw [issueBundle_singleton (runPasses_of_not_mem rfl u (by simp [hmem, hearly]))
      (runPasses_of_mem rfl he (by decide) (hmem'.2 hearly)), endIssue_of_no_soft ht, hp, Bool.and_false,
      if_neg Bool.false_ne_true]

/-- A lone bundle of one operation that nothing stands against issues. -/
theorem tryBundle_of_one {s : State} {f : Issue} {b : Bundle} {k j : Nat} {o : SlotOp} :
    let m : Member := { core := k, slot := j, ops := [o] }
    f.partner = false → fitsWindow s k (weightOf [o]) = true →
    (b.hdr.sp && f.rep == 0 && notDrained s m) = false → stopsHere s f b m = false → skewed s b.hdr m = false →
    issueChk s f b m = {} → ((s.ctx k j).rentLow = [] ∨ (s.ctx k j).trap.isIn = true) →
    tryBundle s k f b [m] = noteRan (issueBundle s f b [m]) k b [o] := by
  intro m hp hw hd hst hsk hc hr
  have hrent : [m].find? (fun m => !(s.ctx m.core m.slot).rentLow.isEmpty && !(s.ctx m.core m.slot).trap.isIn) =
      none := by
    rcases hr with h | h
    · simp [m, h]
    · simp [m, h]
  have hc' : (issueChk s f b m).and {} = {} := by rw [hc]; rfl
  have hwide : [m].filter (fun m => !fitsWindow s m.core (weightOf m.ops)) = [] := by simp [m, hw]
  have hany (p : Member → Bool) : [m].any p = p m := by simp
  simp only [tryBundle, hwide, hany, hd, hst, List.map_cons, List.map_nil, hc', hrent]
  simp [hsk, worstFault, firstWith, hp, m]

end Sys2Proof.Machine

open Sys2Proof Sys2Proof.Machine in
/-- Settles O12: the one slot is fetched, and of the passes only the operation's own runs. -/
theorem stepRunsDecoded : Obligations.StepRunsDecoded := by
  refine ⟨fun s k j pc hw w n h sl i hf hd ho hw' hh hn hi hr => fetchBundle_of_only hf hd ho hw' hh hn hi hr, ?_⟩
  intro s f b k j o t m u early v hp hw hd hst hsk hc hr _ he ht
  rw [tryBundle_of_one hp hw hd hst hsk hc hr, issueBundle_of_one hp he ht]

end

section
/-!
PROOFS. Scalar results and landings (R12, R19, R104, R105, R126, R128, R130): the values of the integer operations, what a
result in flight leaves alone, what its landing writes, and the order of the landing events.
-/
namespace Sys2Proof.Machine

/-! ## Integer operations (R126, R128) -/

theorem Completes.congr {i : Instr} {s t u : State} (h : Completes i s t) (e : t = u) : Completes i s u := e ▸ h

theorem shiftCount_eq (b : Word) : shiftCount b = b.toNat % 64 := by simp [shiftCount, field]

theorem minW_signed (x y : Word) : minW false x y = if x.toInt ≤ y.toInt then x else y := by
  simp only [minW, Bool.false_eq_true, if_false, BitVec.slt, decide_eq_true_eq]
  split
  · rw [if_neg (by omega)]
  · rw [if_pos (by omega)]
theorem minW_unsigned (x y : Word) : minW true x y = if x.toNat ≤ y.toNat then x else y := by
  simp only [minW, if_true, BitVec.ult, decide_eq_true_eq]
  split
  · rw [if_neg (by omega)]
  · rw [if_pos (by omega)]
/-- Where the two are equal it does not matter which of them is the larger. -/
theorem maxW_signed (x y : Word) : maxW false x y = if x.toInt ≤ y.toInt then y else x := by
  simp only [maxW, Bool.false_eq_true, if_false, BitVec.slt, decide_eq_true_eq]
  rcases lt_trichotomy x.toInt y.toInt with h | h | h
  · rw [if_pos h, if_pos h.le]
  · rw [if_neg (by omega), if_pos (by omega), BitVec.toInt_inj.1 h]
  · rw [if_neg (by omega), if_neg (by omega)]
theorem maxW_unsigned (x y : Word) : maxW true x y = if x.toNat ≤ y.toNat then y else x := by
  simp only [maxW, if_true, BitVec.ult, decide_eq_true_eq]
  rcases lt_trichotomy x.toNat y.toNat with h | h | h
  · rw [if_pos h, if_pos h.le]
  · rw [if_neg (by omega), if_pos (by omega), BitVec.toNat_inj.1 h]
  · rw [if_neg (by omega), if_neg (by omega)]

theorem popcount_eq (x : Word) : popcount x = ((List.range 64).filter (fun i => x.getLsbD i)).length := by
  rw [popcount, ← List.countP_eq_length_filter]
  suffices ∀ (l : List Nat) (n : Nat),
      l.foldl (fun n i => if x.getLsbD i then n + 1 else n) n = n + l.countP (fun i => x.getLsbD i) by
    simpa using this (List.range 64) 0
  intro l
  induction l with
  | nil => simp
  | cons i l ih =>
    intro n
    rw [List.foldl_cons, ih, List.countP_cons]
    split <;> omega

theorem condHolds_iff (c : Cond) (x y : Word) : condHolds c x y = true ↔ match c with
    | .eq => x = y
    | .ne => x ≠ y
    | .lt => x.toInt < y.toInt
    | .le => x.toInt ≤ y.toInt
    | .ltn => x.toNat < y.toNat
    | .len => x.toNat ≤ y.toNat := by
  cases c <;> simp [condHolds, BitVec.slt, BitVec.sle, BitVec.ult, BitVec.ule]

theorem completes_cmp (s : State) (g : BitVec 4) (c : Cond) (p : BitVec 3) (a b : Sel) :
    Completes (.cmp g c p a b) s (s.land 1 (s.pairLands p (condHolds c (s.src a) (s.src b)))) :=
  fun h => exec_issues h rfl rfl

end Sys2Proof.Machine
open Sys2Proof Sys2Proof.Machine

/-- Settles O13: each value is the model's, operation by operation. -/
theorem scalarResults : Obligations.ScalarResults := by
  intro s g d a b x y n
  have hn : n = shiftCount y := (shiftCount_eq y).symm
  refine ⟨fun h => exec_issues h rfl rfl, fun h => exec_issues h rfl rfl, fun h => exec_issues h rfl rfl,
    fun h => exec_issues h rfl rfl, fun h => exec_issues h rfl rfl, fun h => exec_issues h rfl rfl,
    fun h => exec_issues h rfl rfl, fun h => exec_issues h rfl rfl, fun h => exec_issues h rfl rfl, ?shl, ?shr, ?sar, ?rot,
    ?min, ?minn, ?max, ?maxn, ?clz, ?popc⟩
  case shl => rw [hn]; exact fun h => exec_issues h rfl rfl
  case shr => rw [hn]; exact fun h => exec_issues h rfl rfl
  case sar => rw [hn]; exact fun h => exec_issues h rfl rfl
  case rot => rw [hn]; exact fun h => exec_issues h rfl rfl
  case min => rw [← minW_signed]; exact fun h => exec_issues h rfl rfl
  case minn => rw [← minW_unsigned]; exact fun h => exec_issues h rfl rfl
  case max => rw [← maxW_signed]; exact fun h => exec_issues h rfl rfl
  case maxn => rw [← maxW_unsigned]; exact fun h => exec_issues h rfl rfl
  case clz =>
    have hz : (if x = 0 then (64 : Word) else BitVec.ofNat 64 (63 - x.toNat.log2)) = BitVec.ofNat 64 (leadingZeros x) := by
      rw [leadingZeros]; split <;> rfl
    rw [hz]
    exact fun h => exec_issues h rfl rfl
  case popc => rw [← popcount_eq]; exact fun h => exec_issues h rfl rfl

/-- Settles O15: the pair takes the condition and its complement. -/
theorem compareResults : Obligations.CompareResults := by
  intro s g c p a b x y holds rb ones res
  have hc : condHolds c x y = true ↔ holds := condHolds_iff c x y
  have h := completes_cmp s g c p a b
  constructor
  · intro hh
    rw [show condHolds c (s.src a) (s.src b) = true from hc.2 hh] at h
    exact h
  · intro hh
    rw [show condHolds c (s.src a) (s.src b) = false from Bool.eq_false_iff.2 (mt hc.1 hh)] at h
    exact h

/-- Settles O17. -/
theorem loadImmediate : Obligations.LoadImmediate :=
  fun _ _ _ _ _ _ => ⟨fun h => exec_issues h rfl rfl, fun h => exec_issues h rfl rfl⟩

/-- Settles O20, from what a read of each constant register gives. -/
theorem hardwiredRegisters : Obligations.HardwiredRegisters :=
  fun b x _ => ⟨b.getS_zero, b.physP_zero, b.physP_one, rfl, rfl, b.setS_zero x, rfl, rfl⟩

namespace Sys2Proof.Machine

/-! ## Results in flight and their landings (R12, R105) -/

/-- Changing a context changes nothing else of a core. -/
theorem State.core_updCtx_but_ctx (s : State) (k j m : Nat) (f : Ctx → Ctx) :
    { (s.updCtx k j f).core m with ctx := (s.core m).ctx } = s.core m := by
  rw [State.updCtx, State.core_setCtx]
  split
  · next h => subst h; rfl
  · rfl

theorem Bank.setS_but_s (b : Bank) (n : Nat) (x : Word) : { b.setS n x with s := b.s } = b := by
  unfold Bank.setS; split <;> rfl
theorem Bank.setP_but_p (b : Bank) (n : Nat) (x : Pred) : { b.setP n x with p := b.p } = b := by
  unfold Bank.setP; split <;> rfl

end Sys2Proof.Machine

/-- Settles O18. -/
theorem landFrame : Obligations.LandFrame := by
  refine fun s lat ls => ⟨fun k j => ?_, fun k => State.core_updCtx_but_ctx .., rfl⟩
  rw [State.land, State.ctx_fly]
  split
  · next h => obtain ⟨rfl, rfl⟩ := h; rfl
  · rfl

/-- Settles O19: the banks before and after, register by register. -/
theorem landingWrites : Obligations.LandingWrites := by
  refine fun s k j => ⟨fun r v m => ⟨_, rfl, fun n => ?_, Bank.setS_but_s ..⟩,
    fun r v m => ⟨_, rfl, fun n => ?_, Bank.setP_but_p ..⟩, fun r v m => ⟨_, rfl, fun n => Tbl.getD_set .., rfl⟩,
    fun f => rfl⟩
  · exact Bank.getS_setS ..
  · rw [Bank.physP_setP]
    exact if_congr (by omega) rfl rfl

namespace Sys2Proof.Machine

/-! ## The landing events (R105) -/

theorem insertFlight_same_slot (p : Nat × Flight) : ∀ {l : List (Nat × Flight)}, (∀ q ∈ l, q.1 = p.1) →
    insertFlight p l = l ++ [p]
  | [], _ => rfl
  | q :: l, h => by
      have hq : p.1 = q.1 := (h q (List.mem_cons_self ..)).symm
      simp only [insertFlight, hq, bne_self_eq_false, Bool.false_and, Bool.false_eq_true, if_false,
        insertFlight_same_slot p (fun r hr => h r (List.mem_cons_of_mem _ hr)), List.cons_append]

/-- Due flights of one slot keep their order. -/
theorem insertFlights_same_slot (j : Nat) : ∀ (l : List Flight) (acc : List (Nat × Flight)), (∀ q ∈ acc, q.1 = j) →
    (l.map (fun f => (j, f))).foldl (fun acc p => insertFlight p acc) acc = acc ++ l.map (fun f => (j, f))
  | [], acc, _ => by simp
  | f :: l, acc, h => by
      rw [List.map_cons, List.foldl_cons, insertFlight_same_slot (j, f) h, insertFlights_same_slot j l]
      · simp
      · simp only [List.mem_append, List.mem_singleton]
        rintro q (hq | rfl)
        · exact h q hq
        · rfl

/-- No other slot of the core has results due. -/
def State.OnlyDue (s : State) (k j : Nat) : Prop := j < 4 ∧ ∀ i, i < 4 → i ≠ j → s.dueFlights k i = []

theorem State.OnlyDue.dueOrder {s : State} {k j : Nat} (h : s.OnlyDue k j) :
    s.dueOrder k [0, 1, 2, 3] = (s.dueFlights k j).map (fun f => (j, f)) := by
  obtain ⟨hj, ho⟩ := h
  have hl : [0, 1, 2, 3].flatMap (fun i => (s.dueFlights k i).map (fun f => (i, f))) =
      (s.dueFlights k j).map (fun f => (j, f)) := by
    obtain rfl | rfl | rfl | rfl : j = 0 ∨ j = 1 ∨ j = 2 ∨ j = 3 := by omega
    · simp [ho 1, ho 2, ho 3]
    · simp [ho 0, ho 2, ho 3]
    · simp [ho 0, ho 1, ho 3]
    · simp [ho 0, ho 1, ho 2]
  rw [State.dueOrder, hl, insertFlights_same_slot j _ _ (by simp), List.nil_append]

theorem State.OnlyDue.landable {s : State} {k j : Nat} (h : s.OnlyDue k j) (load : Bool) :
    s.landable k j load = (s.dueFlights k j).takeWhile (fun f => f.load == load) := by
  have ho : ([0, 1, 2, 3].filter (· != j)).flatMap (s.dueFlights k) = [] := by
    simp only [List.flatMap_eq_nil_iff, List.mem_filter, bne_iff_ne]
    rintro i ⟨hi, hne⟩
    exact h.2 i (by simp at hi; omega) hne
  simp only [State.landable, ho, List.any_nil, Bool.not_false, Bool.and_true]

/-- Where no due result is an MTS, none lands first. -/
theorem State.OnlyDue.landMts_eq {s : State} {k j : Nat} (h : s.OnlyDue k j)
    (hm : ∀ f ∈ s.dueFlights k j, ∀ y ∈ f.lands, (y.isLocal && y.isMts) = false) : landMts s k = s := by
  have hl : ((s.dueFlights k j).map (fun f => (j, f))).filter (fun p => p.2.lands.any (fun x => x.isLocal && x.isMts)) =
      [] := by
    simp only [List.filter_eq_nil_iff, List.mem_map, List.any_eq_true]
    rintro _ ⟨f, hf, rfl⟩ ⟨y, hy, hc⟩
    rw [hm f hf y hy] at hc
    cases hc
  simp only [landMts, h.dueOrder, hl, List.foldl_nil]

/-- A result of one kind that lands on its own core alone, and is no poisoned load. -/
structure Flight.Plain (f : Flight) (load : Bool) : Prop where
  kind : f.load = load
  clean : f.poison = none
  isLocal : ∀ y ∈ f.lands, y.isLocal = true

namespace Flight.Plain
variable {f : Flight} {load : Bool} (h : f.Plain load)
include h

theorem own_eq : f.own = f := by
  rw [Flight.own, List.filter_eq_self.2 h.isLocal]
theorem shared_isShared : f.shared.isShared = false := by
  have : f.lands.filter (fun l => !l.isLocal) = [] := by
    simp only [List.filter_eq_nil_iff, Bool.not_eq_true', Bool.not_eq_false]; exact h.isLocal
  simp [Flight.isShared, Flight.shared, this]
theorem isShared_eq : f.isShared = false := by
  cases hl : f.lands with
  | nil => simp [Flight.isShared, hl]
  | cons y l => simp [Flight.isShared, hl, h.isLocal y (by simp [hl])]
end Flight.Plain

theorem poisonOf_of_clean : ∀ {l : List Flight}, (∀ f ∈ l, f.poison = none) → poisonOf l = none := by
  intro l h
  unfold poisonOf
  induction l with
  | nil => rfl
  | cons f l ih =>
    rw [List.foldl_cons, h f (List.mem_cons_self ..)]
    exact ih (fun g hg => h g (List.mem_cons_of_mem _ hg))

theorem firstPoison_none (x : Option (Nat × Nat)) : firstPoison x none = x := by cases x <;> rfl

/-- The due flights of a context whose flights are plain up to those that are not due. -/
theorem dueFlights_of_plain {s : State} {k j : Nat} {load : Bool} {l r : List Flight} (hx : (s.ctx k j).flight = l ++ r)
    (hl : ∀ f ∈ l, f.due ≤ (s.core k).ic ∧ f.Plain load) (hr : ∀ f ∈ r, (s.core k).ic < f.due) :
    s.dueFlights k j = l := by
  rw [State.dueFlights, hx, List.filter_append, List.filter_eq_self.2, List.filter_eq_nil_iff.2, List.append_nil]
  · intro f hf
    simp [hr f hf]
  · intro f hf
    simp [(hl f hf).1, (hl f hf).2.isShared_eq]

/-- Plain results of one kind that are due all land, in their order. -/
theorem landRun_of_plain {s : State} {k j : Nat} {load : Bool} {l r : List Flight} (h : s.OnlyDue k j)
    (hm : landMts s k = s) (hx : (s.ctx k j).flight = l ++ r) (hne : l ≠ [])
    (hl : ∀ f ∈ l, f.due ≤ (s.core k).ic ∧ f.Plain load) (hr : ∀ f ∈ r, (s.core k).ic < f.due) :
    landRun s k j load = (s.updCtx k j (fun y => { y with flight := r })).landFlights k j l := by
  have hdue := dueFlights_of_plain hx hl hr
  have hrun : s.landable k j load = l := by
    rw [h.landable, hdue, List.takeWhile_eq_self_iff.2]
    intro f hf
    simp [(hl f hf).2.kind]
  have hshared : (l.map Flight.shared).filter Flight.isShared = [] := by
    simp only [List.filter_eq_nil_iff, List.mem_map]
    rintro _ ⟨f, hf, rfl⟩
    simp [(hl f hf).2.shared_isShared]
  have hleft : (l ++ r).filter (fun f => decide ((s.core k).ic < f.due) || f.isShared) = r := by
    rw [List.filter_append, List.filter_eq_nil_iff.2, List.filter_eq_self.2, List.nil_append]
    · intro f hf
      simp [hr f hf]
    · intro f hf
      simp [(hl f hf).1, (hl f hf).2.isShared_eq]
  have hown : l.map Flight.own = l := List.map_congr_left (fun f hf => (hl f hf).2.own_eq) |>.trans (List.map_id _)
  have hpo : poisonOf l = none := poisonOf_of_clean (fun f hf => (hl f hf).2.clean)
  have hempty : l.isEmpty = false := by simpa using hne
  simp only [landRun, hm, hrun, hempty, Bool.false_eq_true, if_false, hdue, hown, hpo, firstPoison_none, hshared,
    List.drop_length, List.nil_append]
  simp only [State.updCtx, hx, hleft]

end Sys2Proof.Machine

namespace Sys2Proof.Machine

/-- Landings of a context that are no acquire, binding or sublet leave what is in flight, and the issue cycle. -/
structure SameFlights (s t : State) : Prop where
  flight : ∀ m i, (t.ctx m i).flight = (s.ctx m i).flight
  ic : ∀ m, (t.core m).ic = (s.core m).ic

theorem SameFlights.refl (s : State) : SameFlights s s := ⟨fun _ _ => rfl, fun _ => rfl⟩
theorem SameFlights.trans {s t u : State} (h : SameFlights s t) (h' : SameFlights t u) : SameFlights s u :=
  ⟨fun m i => (h'.flight m i).trans (h.flight m i), fun m => (h'.ic m).trans (h.ic m)⟩
theorem sameFlights_updCtx (s : State) (k j : Nat) (f : Ctx → Ctx) (h : (f (s.ctx k j)).flight = (s.ctx k j).flight) :
    SameFlights s (s.updCtx k j f) := by
  refine ⟨fun m i => ?_, fun m => ?_⟩
  · rw [State.ctx_updCtx]
    split
    · next hm => rw [h, hm.1, hm.2]
    · rfl
  · rw [State.updCtx, State.core_setCtx]
    split
    · next hm => subst hm; rfl
    · rfl
theorem sameFlights_updCore (s : State) (k : Nat) (f : CoreSt → CoreSt) (h : (f (s.core k)).ctx = (s.core k).ctx)
    (hi : (f (s.core k)).ic = (s.core k).ic) : SameFlights s (s.updCore k f) := by
  refine ⟨fun m i => ?_, fun m => ?_⟩
  · rw [State.ctx, State.core_updCore]
    split
    · next hm => subst hm; simp only [CoreSt.slot, h, State.ctx]
    · rfl
  · rw [State.core_updCore]
    split
    · next hm => subst hm; exact hi
    · rfl

theorem SameFlights.ite {s a b : State} {c : Prop} [Decidable c] (ha : SameFlights s a) (hb : SameFlights s b) :
    SameFlights s (if c then a else b) := by
  split
  · exact ha
  · exact hb

theorem sameFlights_mtsUser (s : State) (k j n : Nat) (v : Word) : SameFlights s (mtsUser s k j n v) :=
  have hx (f : Ctx → Ctx) (h : ∀ x, (f x).flight = x.flight) : SameFlights s (s.updCtx k j f) :=
    sameFlights_updCtx s k j f (h _)
  have hc (f : CoreSt → CoreSt) (h : ∀ c, (f c).ctx = c.ctx ∧ (f c).ic = c.ic) : SameFlights s (s.updCore k f) :=
    sameFlights_updCore s k f (h _).1 (h _).2
  .ite (hx _ fun _ => rfl) <| .ite (hx _ fun _ => rfl) <| .ite (hc _ fun _ => ⟨rfl, rfl⟩) <| .ite (hx _ fun _ => rfl) <|
  .ite (hx _ fun _ => rfl) <| .ite (.ite (hx _ fun _ => rfl) (.refl s)) <| .ite (hx _ fun _ => rfl) <|
  .ite (hc _ fun _ => ⟨rfl, rfl⟩) <| .ite (hc _ fun _ => ⟨rfl, rfl⟩) <| .ite (hx _ fun _ => rfl) (.refl s)

/-- The landing of an MTS of a user register leaves what is in flight. -/
theorem sameFlights_landFlights_mts (s : State) (k j : Nat) {g : Flight} {n : Nat} {v : Word} (hn : n < 0x800)
    (hg : g.lands = [.mts n v]) : SameFlights s (s.landFlights k j [g]) := by
  have h1 := sameFlights_updCtx s k j (fun x => { x with undo := some (noteUndo (s.core k) x [g]) }) rfl
  refine (h1.trans (sameFlights_updCore _ k (fun c => c.noteLands j g.lands) rfl rfl)).trans ?_
  have hs : s.landFlights k j [g] = mtsUser ((s.updCtx k j (fun x => { x with
      undo := some (noteUndo (s.core k) x [g]) })).updCore k (fun c => c.noteLands j g.lands)) k j n v := by
    simp only [State.landFlights, List.flatMap_singleton, hg, List.foldl_cons, List.foldl_nil, applyLand, sysWrite,
      if_neg (show ¬ 0x800 ≤ n by omega)]
  rw [hs]
  exact sameFlights_mtsUser ..

theorem SameFlights.dueFlights {s t : State} (h : SameFlights s t) (k j : Nat) : t.dueFlights k j = s.dueFlights k j := by
  rw [State.dueFlights, State.dueFlights, h.flight, h.ic]

theorem isMts_isLocal_of_lt {n : Nat} (h : n < 0x800) (v : Word) :
    (Land.mts n v).isLocal = true ∧ (Land.mts n v).isMts = true := ⟨by simpa [Land.isLocal] using h, rfl⟩

theorem dueFlights_updCtx_other (s : State) (k : Nat) {j i : Nat} (f : Ctx → Ctx) (h : i ≠ j) :
    (s.updCtx k j f).dueFlights k i = s.dueFlights k i := by
  rw [State.dueFlights, State.ctx_updCtx, if_neg (by simp [h]), State.updCtx, State.setCtx_core_ic, State.dueFlights]

/-- An MTS lands before a result of its cycle that stands earlier; it leaves nothing of its flight to land. -/
theorem landMts_of_mts_second {s : State} {k j : Nat} {f g : Flight} {n : Nat} {v : Word} (h : s.OnlyDue k j)
    (hx : (s.ctx k j).flight = [f, g]) (hf : f.due ≤ (s.core k).ic) (hg : g.due ≤ (s.core k).ic) (hload : g.load = false)
    (hp : g.poison = none) (hn : n < 0x800) (hm : g.lands = [.mts n v])
    (hl : ∀ y ∈ f.lands, y.isLocal = true ∧ y.isMts = false) (hfp : f.Plain false) :
    landMts s k = (s.updCtx k j (fun y => { y with flight := [f, { g with lands := [] }] })).landFlights k j [g] := by
  obtain ⟨hml, hmm⟩ := isMts_isLocal_of_lt hn v
  have hgp : g.Plain false := ⟨hload, hp, by simp [hm, hml]⟩
  have hdue : s.dueFlights k j = [f, g] := by
    refine dueFlights_of_plain (load := false) (r := []) (by rw [hx, List.append_nil]) ?_ (by simp)
    simp only [List.mem_cons, List.not_mem_nil, or_false]
    rintro x (rfl | rfl)
    · exact ⟨hf, hfp⟩
    · exact ⟨hg, hgp⟩
  have hno : f.lands.any (fun x => x.isLocal && x.isMts) = false := by
    simp only [List.any_eq_false]; intro y hy; simp [(hl y hy).2]
  have hnf : f.noMts = f := by
    have : f.lands.filter (fun l => !(l.isLocal && l.isMts)) = f.lands := by
      rw [List.filter_eq_self]; intro y hy; simp [(hl y hy).2]
    rw [Flight.noMts, this]
  have hng : g.noMts = { g with lands := [] } := by simp [Flight.noMts, hm, hml, hmm]
  have hgm : g.mts = g := by
    have : g.lands.filter (fun l => l.isLocal && l.isMts) = g.lands := by simp [hm, hml, hmm]
    rw [Flight.mts, this, ← hload, ← hp]
  simp only [landMts, h.dueOrder, hdue, List.map_cons, List.map_nil, List.filter_cons, hno, hm, List.any_cons, List.any_nil,
    hml, hmm, Bool.and_self, Bool.or_false, Bool.false_eq_true, if_false, if_true, List.filter_nil, List.foldl_cons,
    List.foldl_nil, hgm]
  simp only [State.updCtx, hx, List.map_cons, List.map_nil, if_pos hf, if_pos hg, hnf, hng]

/-- The result that stands before an MTS of its cycle lands after it. -/
theorem landRun_of_mts_second {s : State} {k j : Nat} {f g : Flight} {n : Nat} {v : Word} (h : s.OnlyDue k j)
    (hx : (s.ctx k j).flight = [f, g]) (hf : f.due ≤ (s.core k).ic) (hg : g.due ≤ (s.core k).ic) (hload : g.load = false)
    (hp : g.poison = none) (hn : n < 0x800) (hm : g.lands = [.mts n v])
    (hl : ∀ y ∈ f.lands, y.isLocal = true ∧ y.isMts = false) (hfp : f.Plain false) :
    let g' := { g with lands := [] }
    let t := (s.updCtx k j (fun y => { y with flight := [f, g'] })).landFlights k j [g]
    landRun s k j false = (t.updCtx k j (fun y => { y with flight := [] })).landFlights k j [f, g'] := by
  intro g' t
  have hmts : landMts s k = t := landMts_of_mts_second h hx hf hg hload hp hn hm hl hfp
  have hgp : g'.Plain false := ⟨hload, hp, by simp [g']⟩
  have hst := sameFlights_landFlights_mts (s.updCtx k j (fun y => { y with flight := [f, g'] })) k j hn hm
  have hic : (t.core k).ic = (s.core k).ic := (hst.ic k).trans (State.setCtx_core_ic ..)
  have htx : (t.ctx k j).flight = [f, g'] := (hst.flight k j).trans (by simp)
  have hto : t.OnlyDue k j := ⟨h.1, fun i hi hne => by
    rw [hst.dueFlights, dueFlights_updCtx_other _ _ _ hne, h.2 i hi hne]⟩
  have hall : ∀ x ∈ [f, g'], x.due ≤ (t.core k).ic ∧ x.Plain false := by
    simp only [List.mem_cons, List.not_mem_nil, or_false, hic]
    rintro x (rfl | rfl)
    · exact ⟨hf, hfp⟩
    · exact ⟨hg, hgp⟩
  have htd : t.dueFlights k j = [f, g'] :=
    dueFlights_of_plain (r := []) (by rw [htx, List.append_nil]) hall (by simp)
  have htm : landMts t k = t := hto.landMts_eq (by
    rw [htd]
    simp only [List.mem_cons, List.not_mem_nil, or_false]
    rintro x (rfl | rfl) y hy
    · simp [(hl y hy).2]
    · simp [g'] at hy)
  rw [← landRun_of_plain (r := []) hto htm (by rw [htx, List.append_nil]) (by simp) hall (by simp)]
  simp only [landRun, hmts, htm]

end Sys2Proof.Machine

/-- Settles O21: with no other slot of the core concerned, the due flights keep their order, and an MTS goes first. -/
theorem landings : Obligations.Landings := by
  intro s k j load x ic ev
  have hev : exec ev s = .next (landRun s k j load) := by cases load <;> rfl
  refine ⟨hev, fun l => rfl, fun hj ho => ⟨fun l r hx hne hr hl => ?_, ?_, fun hx => ?_⟩⟩
  · have hplain : ∀ f ∈ l, f.due ≤ ic ∧ f.Plain load := fun f hf => by
      obtain ⟨h1, h2, h3, h4⟩ := hl f hf
      exact ⟨h1, h2, h3, fun y hy => (h4 y hy).1⟩
    have hm : landMts s k = s := State.OnlyDue.landMts_eq ⟨hj, ho⟩ (by
      rw [dueFlights_of_plain hx hplain hr]
      intro f hf y hy
      simp [((hl f hf).2.2.2 y hy).2])
    rw [hev, landRun_of_plain ⟨hj, ho⟩ hm hx hne hplain hr]
  · intro f g n v hload hx hf hg hfl hgl hfp hgp hn hm hl g' t
    rw [hev, hload, landRun_of_mts_second ⟨hj, ho⟩ hx hf hg hgl hgp hn hm hl ⟨hfl, hfp, fun y hy => (hl y hy).1⟩]
  · have hdue : s.dueFlights k j = [] := dueFlights_of_plain (load := load) (l := []) (r := x.flight) rfl (by simp) hx
    have ho' : s.OnlyDue k j := ⟨hj, ho⟩
    have hm : landMts s k = s := ho'.landMts_eq (by simp [hdue])
    rw [hev]
    simp only [landRun, hm, ho'.landable, hdue, List.takeWhile_nil, List.isEmpty_nil, if_true]

end

section
/-!
PROOFS. Memory accesses (R68, R131, R132, R309, R311, R329): what a load and a store leave alone, what a load reads, and where
the bytes of a store go.
-/
namespace Sys2Proof.Machine

/-! ## What the accesses of a core leave alone (R131, R132) -/

/-- An access of a core changes no register and nothing of a context but the handed-over regions it has touched. -/
structure Accesses (s t : State) : Prop where
  issue : t.issue = s.issue
  launches : t.launches = s.launches
  dirty : ∀ f, (t.fn f).dirty = (s.fn f).dirty
  hostMem : t.hostMem = s.hostMem
  ic : ∀ m, (t.core m).ic = (s.core m).ic
  ctx : ∀ m i, ∃ fr, t.ctx m i = { s.ctx m i with fresh := fr }

/-- One that reads also leaves memory, the poisoned units, the writes that arrive uncorrectable, and a core on which both
views are joined. -/
structure ReadsOnly (s t : State) : Prop extends Accesses s t where
  mem : t.mem = s.mem
  poison : t.poison = s.poison
  badWrites : t.badWrites = s.badWrites
  xview : ∀ m, (s.core m).xview = [] → (t.core m).xview = []

namespace Accesses

theorem refl (s : State) : Accesses s s := ⟨rfl, rfl, fun _ => rfl, rfl, fun _ => rfl, fun _ _ => ⟨_, rfl⟩⟩

theorem trans {s t u : State} (h : Accesses s t) (h' : Accesses t u) : Accesses s u where
  issue := h'.issue.trans h.issue
  launches := h'.launches.trans h.launches
  dirty f := (h'.dirty f).trans (h.dirty f)
  hostMem := h'.hostMem.trans h.hostMem
  ic m := (h'.ic m).trans (h.ic m)
  ctx m i := by
    obtain ⟨a, ha⟩ := h.ctx m i
    obtain ⟨b, hb⟩ := h'.ctx m i
    exact ⟨b, by rw [hb, ha]⟩

theorem foldl {α : Type} (g : State → α → State) (h : ∀ s x, Accesses s (g s x)) : ∀ (l : List α) (s : State),
    Accesses s (l.foldl g s)
  | [], s => refl s
  | x :: l, s => (h s x).trans (foldl g h l _)

/-- Updates of a core that keep its contexts and its issue cycle. -/
theorem updCore (s : State) (k : Nat) (f : CoreSt → CoreSt) (hc : (f (s.core k)).ctx = (s.core k).ctx)
    (hi : (f (s.core k)).ic = (s.core k).ic) : Accesses s (s.updCore k f) where
  issue := rfl
  launches := rfl
  dirty _ := rfl
  hostMem := rfl
  ic m := by
    rw [State.core_updCore]; split
    · next h => rw [h, hi]
    · rfl
  ctx m i := ⟨_, State.ctx_updCore_of_ctx hc m i⟩

/-- Updates of a function that keep its dirty map. -/
theorem updFn (s : State) (f : Nat) (g : Fn → Fn) (h : (g (s.fn f)).dirty = (s.fn f).dirty) :
    Accesses s (s.updFn f g) where
  issue := rfl
  launches := rfl
  dirty m := by
    rw [State.fn_updFn]; split
    · next hm => rw [hm, h]
    · rfl
  hostMem := rfl
  ic _ := rfl
  ctx _ _ := ⟨_, rfl⟩

theorem fnOf {s t : State} (h : Accesses s t) (l : Nat) : t.fnOf l = s.fnOf l := by
  rw [State.fnOf, State.launch?, h.launches]; rfl

theorem me {s t : State} (h : Accesses s t) : ∃ fr, t.me = { s.me with fresh := fr } := by
  rw [State.me, h.issue]; exact h.ctx ..

end Accesses

namespace ReadsOnly

theorem refl (s : State) : ReadsOnly s s := ⟨.refl s, rfl, rfl, rfl, fun _ h => h⟩

/-- Where all that an access could change is the same. -/
theorem of_eq {s t : State} (hi : t.issue = s.issue) (hl : t.launches = s.launches) (hf : t.fns = s.fns)
    (hh : t.hostMem = s.hostMem) (hc : t.cores = s.cores) (hm : t.mem = s.mem) (hp : t.poison = s.poison)
    (hb : t.badWrites = s.badWrites) : ReadsOnly s t where
  issue := hi
  launches := hl
  dirty f := by rw [State.fn, State.fn, hf]
  hostMem := hh
  ic m := by rw [State.core, State.core, hc]
  ctx m i := ⟨_, by rw [State.ctx, State.core, hc]; rfl⟩
  mem := hm
  poison := hp
  badWrites := hb
  xview m h := by rw [State.core, hc]; exact h

theorem trans {s t u : State} (h : ReadsOnly s t) (h' : ReadsOnly t u) : ReadsOnly s u where
  toAccesses := h.toAccesses.trans h'.toAccesses
  mem := h'.mem.trans h.mem
  poison := h'.poison.trans h.poison
  badWrites := h'.badWrites.trans h.badWrites
  xview m hm := h'.xview m (h.xview m hm)

theorem foldl {α : Type} (g : State → α → State) (h : ∀ s x, ReadsOnly s (g s x)) : ∀ (l : List α) (s : State),
    ReadsOnly s (l.foldl g s)
  | [], s => refl s
  | x :: l, s => (h s x).trans (foldl g h l _)
theorem foldl_fst {α β : Type} (g : State × β → α → State × β) (h : ∀ a x, ReadsOnly a.1 (g a x).1) :
    ∀ (l : List α) (a : State × β), ReadsOnly a.1 (l.foldl g a).1
  | [], a => refl a.1
  | x :: l, a => (h a x).trans (foldl_fst g h l _)

theorem ite {s a b : State} {c : Prop} [Decidable c] (ha : ReadsOnly s a) (hb : ReadsOnly s b) :
    ReadsOnly s (if c then a else b) := by
  split
  · exact ha
  · exact hb

theorem updCore (s : State) (k : Nat) (f : CoreSt → CoreSt) (hc : (f (s.core k)).ctx = (s.core k).ctx)
    (hi : (f (s.core k)).ic = (s.core k).ic) (hx : (s.core k).xview = [] → (f (s.core k)).xview = []) :
    ReadsOnly s (s.updCore k f) where
  toAccesses := .updCore s k f hc hi
  mem := rfl
  poison := rfl
  badWrites := rfl
  xview m h := by
    rw [State.core_updCore]; split
    · next hm => exact hx (hm ▸ h)
    · exact h

/-- The state of a pair. -/
theorem fst {s t : State} {β : Type} (b : β) (h : ReadsOnly s t) : ReadsOnly s (t, b).1 := h

/-- Updates of a function that keep its dirty map. -/
theorem updFn (s : State) (f : Nat) (g : Fn → Fn) (h : (g (s.fn f)).dirty = (s.fn f).dirty) :
    ReadsOnly s (s.updFn f g) :=
  ⟨.updFn s f g h, rfl, rfl, rfl, fun _ h => h⟩

/-- A region touched for the first time. -/
theorem updFresh (s : State) (k j : Nat) (g : List Nat → List Nat) :
    ReadsOnly s (s.updCtx k j (fun x => { x with fresh := g x.fresh })) where
  issue := rfl
  launches := rfl
  dirty _ := rfl
  hostMem := rfl
  ic m := State.setCtx_core_ic ..
  ctx m i := by
    rw [State.ctx_updCtx]; split
    · next h => rw [h.1, h.2]; exact ⟨_, rfl⟩
    · exact ⟨_, rfl⟩
  mem := rfl
  poison := rfl
  badWrites := rfl
  xview m h := by rw [State.updCtx, State.setCtx_core_xview]; exact h

end ReadsOnly

/-! ### The parts of an access -/

theorem correct_readsOnly (s : State) (u : Nat) : ReadsOnly s (s.correct u) := by
  unfold State.correct
  exact .ite (.of_eq rfl rfl rfl rfl rfl rfl rfl rfl) (.refl s)
theorem countUe_readsOnly (s : State) (u : Nat) : ReadsOnly s (s.countUe u) :=
  .of_eq rfl rfl rfl rfl rfl rfl rfl rfl
theorem drawFree_readsOnly (s : State) : ReadsOnly s s.drawFree.1 := .of_eq rfl rfl rfl rfl rfl rfl rfl rfl
theorem checkRead_readsOnly (s : State) (a n : Nat) : ReadsOnly s (s.checkRead a n) :=
  .ite (.refl s) (.foldl _ (fun s _ => .ite (countUe_readsOnly s _) (correct_readsOnly s _)) _ s)
theorem checkEntries_readsOnly (s : State) (l : List Nat) : ReadsOnly s (checkEntries s l) :=
  .ite (.refl s) (.foldl _ (fun s _ => correct_readsOnly s _) _ s)
theorem fillTlb_readsOnly (s : State) (w : Who) (h : Hit) (va : Nat) : ReadsOnly s (fillTlb s w h va) :=
  .ite (.refl s) ((checkEntries_readsOnly s _).trans (.updFn _ _ _ rfl))
theorem fillAll_readsOnly (s : State) (w : Who) (segs : List (Nat × Hit × Nat)) : ReadsOnly s (fillAll s w segs) :=
  .foldl (α := Nat × Hit × Nat) _ (fun _ _ => fillTlb_readsOnly ..) segs s
theorem acquired_readsOnly (s : State) (k : Nat) : ReadsOnly s (s.acquired k) :=
  .updCore s k _ rfl rfl (fun h => by simp [h])
theorem firstTouch_readsOnly (s : State) (k j : Nat) (h : Hit) : ReadsOnly s (firstTouch s k j h) := by
  unfold firstTouch
  split
  · exact .refl s
  · exact .ite ((acquired_readsOnly s k).trans (.updFresh _ k j _)) (.refl s)
theorem touchAll_readsOnly (s : State) (k j : Nat) (segs : List (Nat × Hit × Nat)) : ReadsOnly s (touchAll s k j segs) :=
  .ite (.refl s) (.foldl _ (fun s g => firstTouch_readsOnly s k j g.2.1) segs s)
theorem takeTokens_readsOnly (s : State) (f k n : Nat) : ReadsOnly s (takeTokens s f k n).1 := by
  unfold takeTokens
  split
  · exact .refl s
  · exact .updCore s k (fun c => { c with tokens := _ }) rfl rfl id
theorem takeAll_readsOnly (s : State) (f : Nat) (segs : List (Nat × Hit × Nat)) : ReadsOnly s (takeAll s f segs).1 := by
  refine .foldl_fst _ (fun a g => ?_) segs (s, [])
  dsimp only
  split
  · exact takeTokens_readsOnly ..
  · exact .refl a.1
theorem readUnit_readsOnly (s : State) (k j u : Nat) (swz : Bool) : ReadsOnly s (readUnit s k j u swz).1 := by
  unfold readUnit
  split
  · exact .refl s
  · dsimp only
    split
    · exact .refl s
    · exact (drawFree_readsOnly s).trans (.updCore s.drawFree.1 k (fun c => { c with xview := c.xview.map _ }) rfl rfl
        (fun h => by simp only [h, List.map_nil]))
theorem readPad_readsOnly (s : State) (k j a n : Nat) (swz : Bool) : ReadsOnly s (readPad s k j a n swz).1 := by
  unfold readPad
  split
  · exact .refl s
  · exact ReadsOnly.foldl_fst (fun (acc : State × List Byte) u =>
      ((readUnit acc.1 k j u swz).1, acc.2 ++ (readUnit acc.1 k j u swz).2))
      (fun acc u => readUnit_readsOnly acc.1 k j u swz) (units8 a n) (s, [])

/-- What an access does before it reads or writes: it caches leaves, acquires what was handed over, and takes tokens. -/
def beforeAccess (s : State) (k j : Nat) (w : Who) (segs : List (Nat × Hit × Nat)) : State × List Ticket :=
  let t := touchAll (if isHitik k then s else fillAll s w segs) k j segs
  if isHitik k then (t, []) else takeAll t (t.fnOf w.launch) segs

theorem beforeAccess_readsOnly (s : State) (k j : Nat) (w : Who) (segs : List (Nat × Hit × Nat)) :
    ReadsOnly s (beforeAccess s k j w segs).1 := by
  have h : ReadsOnly s (touchAll (if isHitik k then s else fillAll s w segs) k j segs) :=
    (ReadsOnly.ite (.refl s) (fillAll_readsOnly s w segs)).trans (touchAll_readsOnly ..)
  have key (t : State) (ht : ReadsOnly s t) :
      ReadsOnly s (if isHitik k then (t, ([] : List Ticket)) else takeAll t (t.fnOf w.launch) segs).1 := by
    split
    · exact ht
    · exact ht.trans (takeAll_readsOnly ..)
  exact key _ h

end Sys2Proof.Machine

namespace Sys2Proof.Machine

/-! ### Loads (R131) -/

theorem readPad_of_joined {s : State} {k : Nat} (h : (s.core k).xview = []) (j a n : Nat) (swz : Bool) :
    readPad s k j a n swz = (s, Memory.bytes s.mem a n) := by
  rw [readPad, h, List.isEmpty_nil, Bool.or_true, if_pos rfl]

/-- One segment of a load of slot `j` of core `k` in state `u`: its bytes after those before it. -/
def loadSeg (k j : Nat) (u : State) (acc : State × List Byte) (g : Nat × Hit × Nat) : State × List Byte :=
  let r := readPad (acc.1.checkRead g.2.1.dpa g.2.2) k j g.2.1.dpa g.2.2 false
  let l := overHeld ((u.ctx k j).myHeld (u.ctx k j).inst) g.2.1.dpa r.2
  (r.1, acc.2 ++ (if isHitik k then u.overTables g.2.1.dpa l else l))

theorem loadSeg_readsOnly (k j : Nat) (u : State) (acc : State × List Byte) (g : Nat × Hit × Nat) :
    ReadsOnly acc.1 (loadSeg k j u acc g).1 := by
  unfold loadSeg
  exact .fst _ ((checkRead_readsOnly acc.1 g.2.1.dpa g.2.2).trans (readPad_readsOnly ..))

/-- A load is its preparation and then its segments in turn. -/
theorem loadVa_eq (s : State) (k j : Nat) (w : Who) (p : Acc) (a n : Nat) :
    let segs := segsOf s k w p false a n
    let u := beforeAccess s k j w segs
    let r := segs.foldl (loadSeg k j u.1) (u.1, [])
    loadVa s k j w p a n = (r.1, r.2, u.2, poisonRange s k w p a n, poisonMask r.1 a segs) := by
  intro segs u r
  have hu : beforeAccess s k j w segs = (u.1, u.2) := rfl
  simp only [beforeAccess, segs] at hu
  simp only [loadVa, hu]
  rfl

theorem loadVa_readsOnly (s : State) (k j : Nat) (w : Who) (p : Acc) (a n : Nat) :
    ReadsOnly s (loadVa s k j w p a n).1 := by
  rw [loadVa_eq]
  exact (beforeAccess_readsOnly ..).trans (.foldl_fst _ (loadSeg_readsOnly k j _) _ (_, []))

/-- Without held stores and unjoined views a load of a user core reads memory as it stands. -/
theorem loadSegs_bytes {s : State} {k j : Nat} {u : State} (hk : isHitik k = false) (hh : (u.ctx k j).held = [])
    (hx : (s.core k).xview = []) : ∀ (segs : List (Nat × Hit × Nat)) (acc : State × List Byte), ReadsOnly s acc.1 →
    (segs.foldl (loadSeg k j u) acc).2 = acc.2 ++ segs.flatMap (fun g => Memory.bytes s.mem g.2.1.dpa g.2.2)
  | [], acc, _ => by simp
  | g :: segs, acc, h => by
      have hc := h.trans (checkRead_readsOnly acc.1 g.2.1.dpa g.2.2)
      have hg : loadSeg k j u acc g = (acc.1.checkRead g.2.1.dpa g.2.2, acc.2 ++ Memory.bytes s.mem g.2.1.dpa g.2.2) := by
        simp only [loadSeg, readPad_of_joined (hc.xview k hx), hc.mem, Ctx.myHeld, hh, List.filter_nil, hk,
          Bool.false_eq_true, if_false, overHeld, List.foldl_nil]
      rw [List.foldl_cons, hg, loadSegs_bytes hk hh hx segs _ hc, List.flatMap_cons, List.append_assoc]

theorem Accesses.held {s t : State} (h : Accesses s t) (m i : Nat) : (t.ctx m i).held = (s.ctx m i).held := by
  obtain ⟨fr, hf⟩ := h.ctx m i
  rw [hf]

theorem loadVa_bytes {s : State} {k j : Nat} (hk : isHitik k = false) (hh : (s.ctx k j).held = [])
    (hx : (s.core k).xview = []) (w : Who) (p : Acc) (a n : Nat) :
    (loadVa s k j w p a n).2.1 = readRange s k w p a n := by
  have hu := beforeAccess_readsOnly s k j w (segsOf s k w p false a n)
  rw [loadVa_eq]
  exact (loadSegs_bytes hk ((hu.held k j).trans hh) hx _ (_, []) hu).trans (List.nil_append _)

theorem badBytes_zero (v free : Word) : badBytes v free 0 = v := if_pos rfl

/-- A load in flight changes the flights of the issuing context, beside a free value it may take. -/
theorem flyLoad_spec (s : State) (arrival least : Nat) (arr : List Ticket) (po : Option Nat) (l : Word → List Land) :
    ∃ (u : State) (v : Word), ReadsOnly s u ∧ s.flyLoad arrival least arr po l = u.fly
      { due := u.myCore.ic + max arrival least, lands := l v, load := true, poison := po, arrive := arr } := by
  unfold State.flyLoad
  cases po
  · exact ⟨s, 0, .refl s, rfl⟩
  · exact ⟨_, _, drawFree_readsOnly s, rfl⟩

/-- A load whose reads are done changes the flights of the issuing context alone. -/
theorem flyLoad_after_reads {s r : State} (h : ReadsOnly s r) (arrival least : Nat) (arr : List Ticket)
    (po : Option Nat) (l : Word → List Land) : ∃ v : Word,
    (r.flyLoad arrival least arr po l).memories = s.memories ∧ (r.flyLoad arrival least arr po l).me.bank = s.me.bank ∧
    (r.flyLoad arrival least arr po l).me.flight = addFlight s.me.flight
      { due := s.myCore.ic + max arrival least, at_ := s.myCore.ic, slot := s.issue.slot.num, lands := l v, load := true
        poison := po, arrive := arr, partner := s.issue.partner } := by
  obtain ⟨u, v, hu, hfly⟩ := flyLoad_spec r arrival least arr po l
  have hsu := h.trans hu
  obtain ⟨fr, hme⟩ := hsu.me
  have hic : u.myCore.ic = s.myCore.ic := by rw [State.myCore, hsu.issue, hsu.ic]; rfl
  refine ⟨v, ?_, ?_, ?_⟩
  · rw [hfly, State.fly_memories, State.memories, hsu.mem, hsu.hostMem]; rfl
  · rw [hfly, State.me, State.fly_ctx_bank]
    change u.me.bank = s.me.bank
    rw [hme]
  · rw [hfly, State.me, State.ctx_fly, State.fly_issue, if_pos ⟨rfl, rfl⟩, State.flightOf, hsu.issue, hic, hme]

/-- What LD does where it issues. -/
theorem completes_ld (s : State) (g : BitVec 4) (sz : BitVec 2) (acq : Bool) (d base : BitVec 6) (arr : BitVec 12)
    (off : Off) :
    let w := s.who s.issue.core s.issue.ctx
    let a := (s.ea base (offVal off)).toNat
    let r := loadVa s s.issue.core s.issue.ctx w .bundle a (2 ^ sz.toNat)
    Completes (.ld g sz acq d base arr off) s (r.1.flyLoad arr.toNat
      (rangeMin s s.issue.core w .bundle a (2 ^ sz.toNat)) r.2.2.1 r.2.2.2.1 (fun v =>
        .s d.toNat (badBytes (BitVec.ofNat 64 (ofBytes r.2.1)) v r.2.2.2.2) (BitVec.allOnes 64) :: acquireLand acq)) :=
  fun h => exec_issues h rfl rfl

end Sys2Proof.Machine

open Sys2Proof Sys2Proof.Machine

/-- Settles O22: the load leaves all but the flights, and without what can stand before memory it reads memory. -/
theorem loadResult : Obligations.LoadResult := by
  intro s g sz acq d base arr off k w a n hi
  have hload := loadVa_eq s k s.issue.ctx w .bundle a n
  have hbytes := fun hk hh hx => loadVa_bytes (s := s) (k := k) (j := s.issue.ctx) hk hh hx w .bundle a n
  have hro := loadVa_readsOnly s k s.issue.ctx w .bundle a n
  have hex := completes_ld s g sz acq d base arr off hi
  obtain ⟨v, hmem, hbank, hflight⟩ := flyLoad_after_reads hro arr.toNat (rangeMin s k w .bundle a n) _ _ _
  refine ⟨_, _, _, _, hex, hmem, hbank, hflight, fun hk hp hh hx => ?_⟩
  have hpo : poisonRange s k w .bundle a n = none := by rw [poisonRange, hp]; rfl
  have hbad : (loadVa s k s.issue.ctx w .bundle a n).2.2.2.2 = 0 := by
    have hpm : (loadVa s k s.issue.ctx w .bundle a n).2.2.2.2 =
      poisonMask (loadVa s k s.issue.ctx w .bundle a n).1 a (segsOf s k w .bundle false a n) := by rw [hload]
    rw [hpm, poisonMask, hro.poison, hp]; rfl
  have hb := hbytes hk hh hx
  refine ⟨by rw [hload]; exact hpo, ?_, fun h hs => ?_⟩
  · rw [hbad, badBytes_zero, hb]
  · rw [hbad, badBytes_zero, hb, readRange, hs, List.flatMap_singleton]

/-- Settles O23. -/
theorem storeResult : Obligations.StoreResult := fun _ _ _ _ _ _ _ h => exec_issues h rfl rfl

namespace Sys2Proof.Machine

/-! ### Stores (R131, R132, R309, R329) -/

theorem within_eq_true {a b n : Nat} : within a b n = true ↔ b ≤ a ∧ a < b + n := by simp [within]

/-- The units of a range cover it. -/
theorem exists_unitsOf {a n x : Nat} (h : within x a n = true) : ∃ u ∈ unitsOf a n, within x u.1 u.2 = true := by
  obtain ⟨h1, h2⟩ := within_eq_true.1 h
  have hn : n ≠ 0 := by omega
  simp only [unitsOf, if_neg hn, List.mem_map, List.mem_range]
  refine ⟨_, ⟨x / 64 - a / 64, by omega, rfl⟩, ?_⟩
  rw [within_eq_true]
  dsimp only
  omega

/-- A unit of a range lies in it. -/
theorem within_of_unitsOf {a n : Nat} {u : Nat × Nat} (h : u ∈ unitsOf a n) : a ≤ u.1 ∧ u.1 + u.2 ≤ a + n := by
  unfold unitsOf at h
  split at h
  · cases h
  · simp only [List.mem_map, List.mem_range] at h
    obtain ⟨i, hi, rfl⟩ := h
    dsimp only
    omega

theorem putBytes_read {s : State} (h : s.mem.wf = true) (a : Nat) (bs : List Byte) (x : Nat) :
    Memory.read (s.putBytes a bs).mem x = if within x a bs.length then bs.getD (x - a) 0 else Memory.read s.mem x := by
  rw [State.putBytes, Memory.read_writeBytes h]
  exact if_congr within_eq_true.symm rfl rfl

/-- Bytes put into the array change memory and the poisoned units. -/
theorem putBytes_accesses (s : State) (a : Nat) (bs : List Byte) : Accesses s (s.putBytes a bs) :=
  ⟨rfl, rfl, fun _ => rfl, rfl, fun _ => rfl, fun _ _ => ⟨_, rfl⟩⟩

/-- A write within a unit is dropped, where it arrives uncorrectable, or puts its bytes. -/
theorem writeUnit_cases (s : State) (a : Nat) (bs : List Byte) :
    (s.badWrites ≠ [] ∧ Accesses s (s.writeUnit a bs) ∧ (s.writeUnit a bs).mem = s.mem) ∨
    ∃ t, ReadsOnly s t ∧ s.writeUnit a bs = t.putBytes a bs := by
  unfold State.writeUnit
  dsimp only
  split
  · next h =>
    refine .inl ⟨fun hn => ?_, ⟨rfl, rfl, fun _ => rfl, rfl, fun _ => rfl, fun _ _ => ⟨_, rfl⟩⟩, rfl⟩
    rw [hn] at h
    cases h
  · refine .inr ⟨_, ?_, rfl⟩
    have h : ReadsOnly s (if bs.length < 64 then s.correct (a / 64 * 64) else s) := .ite (correct_readsOnly ..) (.refl s)
    exact h.trans (.of_eq rfl rfl rfl rfl rfl rfl rfl rfl)

theorem writeUnit_accesses (s : State) (a : Nat) (bs : List Byte) : Accesses s (s.writeUnit a bs) := by
  obtain ⟨-, h, -⟩ | ⟨t, ht, h⟩ := writeUnit_cases s a bs
  · exact h
  · rw [h]
    exact ht.toAccesses.trans (putBytes_accesses t a bs)

/-- A write within a unit changes no other byte. -/
theorem writeUnit_read_outside {s : State} (h : Canonical s.memories) {a : Nat} {bs : List Byte} {x : Nat}
    (hx : within x a bs.length = false) : Memory.read (s.writeUnit a bs).mem x = Memory.read s.mem x := by
  obtain ⟨-, -, hm⟩ | ⟨t, ht, hu⟩ := writeUnit_cases s a bs
  · rw [hm]
  · rw [hu, putBytes_read (by rw [ht.mem]; exact h.1), hx, if_neg Bool.false_ne_true, ht.mem]

/-- Where no write arrives uncorrectable, a write within a unit puts its bytes. -/
theorem writeUnit_read {s : State} (h : Canonical s.memories) (hb : s.badWrites = []) (a : Nat) (bs : List Byte) (x : Nat) :
    Memory.read (s.writeUnit a bs).mem x = (if within x a bs.length then bs.getD (x - a) 0 else Memory.read s.mem x) ∧
      (s.writeUnit a bs).badWrites = [] := by
  obtain ⟨hn, -⟩ | ⟨t, ht, hu⟩ := writeUnit_cases s a bs
  · exact absurd hb hn
  · refine ⟨by rw [hu, putBytes_read (by rw [ht.mem]; exact h.1), ht.mem], ?_⟩
    rw [hu]
    exact ht.badWrites.trans hb

theorem writeDpa_accesses (s : State) (a : Nat) (bs : List Byte) : Accesses s (s.writeDpa a bs) := by
  unfold State.writeDpa
  split
  · exact putBytes_accesses s a bs
  · exact .foldl _ (fun s u => writeUnit_accesses s _ _) _ s

/-- The bytes of one unit of a write of some bytes at an address. -/
theorem unit_bytes {a x : Nat} {bs : List Byte} {u : Nat × Nat} (hu : a ≤ u.1 ∧ u.1 + u.2 ≤ a + bs.length) :
    ((bs.drop (u.1 - a)).take u.2).length = u.2 ∧
      (within x u.1 u.2 = true → ((bs.drop (u.1 - a)).take u.2).getD (x - u.1) 0 = bs.getD (x - a) 0) := by
  refine ⟨by rw [List.length_take, List.length_drop]; omega, fun h => ?_⟩
  obtain ⟨h1, h2⟩ := within_eq_true.1 h
  rw [List.getD_eq_getElem?_getD, List.getD_eq_getElem?_getD, List.getElem?_take_of_lt (by omega), List.getElem?_drop,
    show u.1 - a + (x - u.1) = x - a by omega]

/-- A write changes no byte outside its range. -/
theorem writeDpa_read_outside {s : State} (h : Canonical s.memories) {a : Nat} {bs : List Byte} {x : Nat}
    (hx : within x a bs.length = false) : Memory.read (s.writeDpa a bs).mem x = Memory.read s.mem x := by
  unfold State.writeDpa
  split
  · rw [putBytes_read h.1, hx, if_neg Bool.false_ne_true]
  · suffices ∀ (l : List (Nat × Nat)), (∀ u ∈ l, a ≤ u.1 ∧ u.1 + u.2 ≤ a + bs.length) → ∀ t : State, Canonical t.memories →
        Memory.read (l.foldl (fun s u => s.writeUnit u.1 ((bs.drop (u.1 - a)).take u.2)) t).mem x =
          Memory.read t.mem x from this _ (fun _ => within_of_unitsOf) s h
    intro l
    induction l with
    | nil => exact fun _ t _ => rfl
    | cons u l ih =>
      intro hl t ht
      have hu := hl u (List.mem_cons_self ..)
      have hxu : within x u.1 ((bs.drop (u.1 - a)).take u.2).length = false := by
        rw [(unit_bytes (x := x) hu).1, Bool.eq_false_iff, Ne, within_eq_true]
        rw [Bool.eq_false_iff, Ne, within_eq_true] at hx
        omega
      rw [List.foldl_cons, ih (fun v hv => hl v (List.mem_cons_of_mem _ hv)) _ (State.writeUnit_canonical _ _ _ ht),
        writeUnit_read_outside ht hxu]

/-- Where no write arrives uncorrectable, a write puts its bytes. -/
theorem writeDpa_read_inside {s : State} (h : Canonical s.memories) (hb : s.badWrites = []) {a : Nat} {bs : List Byte}
    {x : Nat} (hx : within x a bs.length = true) : Memory.read (s.writeDpa a bs).mem x = bs.getD (x - a) 0 := by
  unfold State.writeDpa
  split
  · rw [putBytes_read h.1, hx, if_pos rfl]
  · suffices ∀ (l : List (Nat × Nat)), (∀ u ∈ l, a ≤ u.1 ∧ u.1 + u.2 ≤ a + bs.length) → ∀ t : State, Canonical t.memories →
        t.badWrites = [] → (∃ u ∈ l, within x u.1 u.2 = true) ∨ Memory.read t.mem x = bs.getD (x - a) 0 →
        Memory.read (l.foldl (fun s u => s.writeUnit u.1 ((bs.drop (u.1 - a)).take u.2)) t).mem x = bs.getD (x - a) 0 from
      this _ (fun _ => within_of_unitsOf) s h hb (.inl (exists_unitsOf hx))
    intro l
    induction l with
    | nil => simp
    | cons u l ih =>
      intro hl t ht htb hor
      have hu := unit_bytes (x := x) (hl u (List.mem_cons_self ..))
      obtain ⟨hr, hb'⟩ := writeUnit_read ht htb u.1 ((bs.drop (u.1 - a)).take u.2) x
      refine ih (fun v hv => hl v (List.mem_cons_of_mem _ hv)) _ (State.writeUnit_canonical _ _ _ ht) hb' ?_
      rw [hr, hu.1]
      by_cases hxu : within x u.1 u.2 = true
      · rw [if_pos hxu]; exact .inr (hu.2 hxu)
      · rw [if_neg hxu]
        refine hor.imp_left fun ⟨v, hv, hxv⟩ => ?_
        rcases List.mem_cons.1 hv with rfl | hv
        · exact absurd hxv hxu
        · exact ⟨v, hv, hxv⟩

end Sys2Proof.Machine

namespace Sys2Proof.Machine

theorem noteUnit_accesses (s : State) (h u : Nat) (old : Word) (w : XWrite) : Accesses s (noteUnit s h u old w) := by
  unfold noteUnit
  refine .updCore s h _ ?_ ?_
  · split
    · rfl
    · split <;> rfl
  · split
    · rfl
    · split <;> rfl

theorem writePad_accesses (s : State) (k a : Nat) (swz : Bool) (bs : List Byte) (ch : Option Nat) (joined : Bool) :
    Accesses s (writePad s k a swz bs ch joined) := by
  unfold writePad
  split
  · exact writeDpa_accesses s a bs
  · exact (writeDpa_accesses s a bs).trans (.foldl _ (fun _ _ => noteUnit_accesses ..) _ _)

/-- A view of a scratchpad notes a write; memory is written as without it. -/
theorem writePad_memories (s : State) (k a : Nat) (swz : Bool) (bs : List Byte) (ch : Option Nat) (joined : Bool) :
    (writePad s k a swz bs ch joined).memories = (s.writeDpa a bs).memories := by
  unfold writePad
  split
  · rfl
  · exact foldl_memories _ (fun _ _ => noteUnit_memories ..) _ _

theorem markDirty_accesses (s : State) (f : Nat) (h : Hit) : Accesses s (markDirty s f h) := by
  unfold markDirty
  dsimp only
  split
  · exact .refl s
  · split
    · exact .refl s
    · exact writeDpa_accesses ..

/-- The dirty map alone is written. -/
theorem markDirty_read {s : State} (hs : Canonical s.memories) {f x : Nat} (hx : s.noDirtyByte f x) (h : Hit) :
    Memory.read (markDirty s f h).mem x = Memory.read s.mem x := by
  unfold markDirty
  dsimp only
  split
  · rfl
  · next hd =>
    split
    · rfl
    · next g _ =>
      refine writeDpa_read_outside hs ?_
      rw [Bool.eq_false_iff, Ne, within_eq_true, List.length_singleton]
      rcases hx with hx | hx
      · simp [hx] at hd
      · have := hx g
        omega

theorem setTableByte_accesses (s : State) (a : Nat) (b : Byte) : Accesses s (s.setTableByte a b) := by
  have hset (w : Config.KvWord) (v : Word) : Accesses s (s.setKvWord w v) := by
    unfold State.setKvWord
    split
    · exact .refl s
    · exact .updFn s _ _ rfl
    · exact .updFn s _ _ rfl
  unfold State.setTableByte
  split
  · exact .refl s
  · exact hset ..
theorem intoTables_accesses (s : State) (a : Nat) (bs : List Byte) : Accesses s (s.intoTables a bs) :=
  .foldl (fun (s : State) (x : Byte × Nat) => s.setTableByte (a + x.2) x.1) (fun _ _ => setTableByte_accesses ..) _ s

/-- What a piece of a store does beyond its bytes: the dirty map, or the tables of the block store (R233, R311). -/
theorem applyPiece_spec {s : State} (hs : Canonical s.memories) (k f : Nat) (joined : Bool)
    (p : Nat × List Byte × Option Nat) : Accesses s (applyPiece k f joined s p) ∧ (∀ x, s.noDirtyByte f x →
      Memory.read (applyPiece k f joined s p).mem x = Memory.read (s.writeDpa p.1 p.2.1).mem x) := by
  have hw := writePad_accesses s k p.1 false p.2.1 none joined
  have hm := writePad_memories s k p.1 false p.2.1 none joined
  have hmem : (writePad s k p.1 false p.2.1 none joined).mem = (s.writeDpa p.1 p.2.1).mem := congrArg Prod.fst hm
  have hc : Canonical (writePad s k p.1 false p.2.1 none joined).memories := writePad_canonical _ _ _ _ _ _ _ hs
  unfold applyPiece
  dsimp only
  split
  · next t h _ =>
    by_cases hk : isHitik k = true
    · rw [if_pos hk]
      refine ⟨hw.trans (intoTables_accesses ..), fun x _ => ?_⟩
      rw [← hmem]
      exact congrArg (Memory.read · x) (congrArg Prod.fst (State.intoTables_memories ..))
    · rw [if_neg hk]
      refine ⟨hw.trans (markDirty_accesses ..), fun x hx => ?_⟩
      rw [markDirty_read hc, hmem]
      rw [State.noDirtyByte, hw.dirty]
      exact hx
  · exact ⟨hw, fun x _ => by rw [hmem]⟩

theorem Accesses.noDirtyByte {s t : State} (h : Accesses s t) {f x : Nat} (hx : s.noDirtyByte f x) : t.noDirtyByte f x := by
  rw [State.noDirtyByte, h.dirty]; exact hx

/-- Pieces of a store change the bytes of the pieces and the dirty map. -/
theorem applyPieces_frame (k f : Nat) (joined : Bool) : ∀ (ps : List (Nat × List Byte × Option Nat)) (s : State),
    Canonical s.memories → Accesses s (ps.foldl (applyPiece k f joined) s) ∧
      ∀ x, s.noDirtyByte f x → (∀ p ∈ ps, within x p.1 p.2.1.length = false) →
        Memory.read (ps.foldl (applyPiece k f joined) s).mem x = Memory.read s.mem x
  | [], s, _ => ⟨.refl s, fun _ _ _ => rfl⟩
  | p :: ps, s, hs => by
      obtain ⟨hp, hpr⟩ := applyPiece_spec hs k f joined p
      obtain ⟨hr, hrr⟩ := applyPieces_frame k f joined ps _ (applyPiece_canonical k f joined s p hs)
      refine ⟨hp.trans hr, fun x hx ho => ?_⟩
      rw [List.foldl_cons, hrr x (hp.noDirtyByte hx) (fun q hq => ho q (List.mem_cons_of_mem _ hq)), hpr x hx,
        writeDpa_read_outside hs (ho p (List.mem_cons_self ..))]

/-- The pieces of a store: each segment with its bytes. -/
def storePieces (a : Nat) (bs : List Byte) (segs : List (Nat × Hit × Nat)) : List (Nat × List Byte × Option Nat) :=
  segs.map (fun g => (g.2.1.dpa, (bs.drop (g.1 - a)).take g.2.2, g.2.1.gpa))

/-- What a store of a context waits for. -/
def storePend (s : State) (k j : Nat) (rel : Bool) (segs : List (Nat × Hit × Nat)) : List Nat :=
  if rel then (s.ctx k j).pendingStores
  else if (segs.map (fun g => g.2.1.kind)).contains 0 then s.pendingSo k j else []

/-- A store is its preparation, and then its pieces take effect or are held back. -/
theorem storeVa_eq (s : State) (k j : Nat) (w : Who) (p : Acc) (rel : Bool) (a : Nat) (bs : List Byte) :
    let segs := segsOf s k w p true a bs.length
    let u := (beforeAccess s k j w segs).1
    let hs := (u.ctx k j).myHeld (u.ctx k j).inst
    let ps := storePieces a bs segs
    storeVa s k j w p rel a bs =
      if (storePend u k j rel segs).isEmpty && (if rel then hs.isEmpty else
          !hs.any (fun h => h.eff.before ps (segs.map (fun g => g.2.1.kind)))) then
        ps.foldl (applyPiece k (u.fnOf w.launch) false) u
      else holdEff u k j (storePend u k j rel segs) (.store ps ((segs.map (fun g => g.2.1.kind)).contains 0) none) := by
  intro segs u hs ps
  have hu : (let t := touchAll (if isHitik k then s else fillAll s w segs) k j segs
      if isHitik k then t else (takeAll t (t.fnOf w.launch) segs).1) = u := by
    simp only [u, beforeAccess]
    split <;> rfl
  simp only [segs] at hu
  simp only [storeVa, hu]
  rfl

end Sys2Proof.Machine

namespace Sys2Proof.Machine

/-- What a store, made or held back, leaves of a context. -/
def Ctx.sameAcross (x y : Ctx) : Prop := y.bank = x.bank ∧ y.trap = x.trap ∧ y.pc = x.pc ∧ y.flight = x.flight

theorem Accesses.sameAcross {s t : State} (h : Accesses s t) (m i : Nat) : (s.ctx m i).sameAcross (t.ctx m i) := by
  obtain ⟨fr, hf⟩ := h.ctx m i
  rw [hf]
  exact ⟨rfl, rfl, rfl, rfl⟩

theorem holdEff_sameAcross (s : State) (k j : Nat) (after : List Nat) (e : HeldEff) (m i : Nat) :
    (s.ctx m i).sameAcross ((holdEff s k j after e).ctx m i) := by
  rw [holdEff, State.ctx_updCtx]
  split
  · next h => rw [h.1, h.2]; exact ⟨rfl, rfl, rfl, rfl⟩
  · exact ⟨rfl, rfl, rfl, rfl⟩

theorem Ctx.sameAcross.trans {x y z : Ctx} (h : x.sameAcross y) (h' : y.sameAcross z) : x.sameAcross z :=
  ⟨h'.1.trans h.1, h'.2.1.trans h.2.1, h'.2.2.1.trans h.2.2.1, h'.2.2.2.trans h.2.2.2⟩

/-- A piece lies in its segment. -/
theorem storePieces_outside {a x : Nat} {bs : List Byte} {segs : List (Nat × Hit × Nat)} (h : Outside x segs) :
    ∀ p ∈ storePieces a bs segs, within x p.1 p.2.1.length = false := by
  intro p hp
  obtain ⟨g, hg, rfl⟩ := List.mem_map.1 hp
  have hx := h g hg
  rw [Bool.eq_false_iff, Ne, within_eq_true] at hx ⊢
  dsimp only
  rw [List.length_take]
  omega

/-- An operation without a writing range makes no SO write. -/
theorem QOp.so_write_of_no_write {o : QOp} (h : o.ranges.any (·.write) = false) (s : State) (k j : Nat) :
    o.so s k j true = false := by
  rw [List.any_eq_false] at h
  rw [QOp.so, List.any_eq_false]
  intro r hr
  simp [h r hr]

/-- A store into one segment that no earlier write holds back waits for nothing. -/
theorem storePend_eq_nil {s : State} {k j : Nat} {rel : Bool} {g : Nat × Hit × Nat}
    (hr : rel = true → (s.ctx k j).pendingStores = []) (hn : rel = false → g.2.1.kind = 0 →
      ∀ o ∈ (s.ctx k j).mine, o.issue < (s.ctx k j).issues → o.ranges.any (·.write) = false) :
    storePend s k j rel [g] = [] := by
  unfold storePend
  cases rel with
  | true => exact hr rfl
  | false =>
    simp only [Bool.false_eq_true, if_false, List.map_cons, List.map_nil]
    split
    · next hk =>
      have hk : g.2.1.kind = 0 := by simpa [eq_comm] using hk
      rw [State.pendingSo, List.map_eq_nil_iff, List.filter_eq_nil_iff]
      intro o ho
      simp only [Bool.and_eq_true, decide_eq_true_eq, not_and, Bool.not_eq_true]
      exact fun hi => QOp.so_write_of_no_write (hn rfl hk o ho hi) s k j
    · rfl

end Sys2Proof.Machine

/-- Settles O24: pieces write their segments, and a single piece that nothing holds back writes its bytes. -/
theorem storeFrame : Obligations.StoreFrame := by
  intro s k j w p rel a bs hinv segs t
  let u := (beforeAccess s k j w segs).1
  have hu : ReadsOnly s u := beforeAccess_readsOnly s k j w segs
  have hcan : Canonical u.memories := by rw [State.memories, hu.mem, hu.hostMem]; exact hinv
  obtain ⟨hacc, hread⟩ := applyPieces_frame k (u.fnOf w.launch) false (storePieces a bs segs) u hcan
  have ht := storeVa_eq s k j w p rel a bs
  have hcases : t = (storePieces a bs segs).foldl (applyPiece k (u.fnOf w.launch) false) u ∨
      ∃ l e, t = holdEff u k j l e := by
    have hite (c : Prop) [Decidable c] (x y : State) (h : t = if c then x else y) : t = x ∨ t = y := by
      split at h
      · exact .inl h
      · exact .inr h
    exact (hite _ _ _ ht).imp_right fun h => ⟨_, _, h⟩
  refine ⟨fun x hx hd => ?_, ?_, fun m n => (hu.sameAcross m n).trans ?_, ?_⟩
  · rw [← hu.mem]
    rcases hcases with h | ⟨l, e, h⟩
    · rw [h]
      exact hread x (hu.fnOf _ ▸ hu.noDirtyByte hd) (storePieces_outside hx)
    · rw [h]
      rfl
  · rw [← hu.hostMem]
    rcases hcases with h | ⟨l, e, h⟩
    · rw [h]
      exact hacc.hostMem
    · rw [h]
      rfl
  · rcases hcases with h | ⟨l, e, h⟩
    · rw [h]
      exact hacc.sameAcross m n
    · rw [h]
      exact holdEff_sameAcross ..
  · intro h hsegs hb hheld hr hn i hi hd
    obtain ⟨fr, hctx⟩ := hu.ctx k j
    have hpend : storePend u k j rel segs = [] := by
      rw [hsegs]
      exact storePend_eq_nil (by rw [hctx]; exact hr) (by rw [hctx]; exact hn)
    have hps : storePieces a bs segs = [(h.dpa, bs, h.gpa)] := by
      rw [storePieces, hsegs, List.map_singleton, Nat.sub_self, List.drop_zero, List.take_length]
    have hmine : (u.ctx k j).myHeld (u.ctx k j).inst = [] := by rw [Ctx.myHeld, hu.held, hheld]; rfl
    have hin : within (h.dpa + i) h.dpa bs.length = true := within_eq_true.2 ⟨by omega, by omega⟩
    have hto : t = applyPiece k (u.fnOf w.launch) false u (h.dpa, bs, h.gpa) := by
      simp only [t, ht]
      rw [if_pos, hps]
      · rfl
      · change ((storePend u k j rel segs).isEmpty && (if rel then ((u.ctx k j).myHeld (u.ctx k j).inst).isEmpty else
          !((u.ctx k j).myHeld (u.ctx k j).inst).any _)) = true
        rw [hpend, hmine]
        cases rel <;> rfl
    rw [hto, (applyPiece_spec hcan ..).2 _ (hu.fnOf _ ▸ hu.noDirtyByte hd),
      writeDpa_read_inside hcan (hu.badWrites.trans hb) hin, Nat.add_sub_cancel_left]
    exact List.getD_eq_getElem _ _ hi

end

section
/-!
PROOFS. System registers (R22, R41, R49, R83, R115, R118, R119, R133, R134, R203, R225): what they report, what an MTS changes,
and what a user context may not touch.
-/
namespace Sys2Proof.Machine

/-! ## Words from fields -/

theorem field_ofNat {N lo n : Nat} (h : lo + n ≤ 64) : field (BitVec.ofNat 64 N) lo n = N / 2 ^ lo % 2 ^ n := by
  have hp : 2 ^ 64 = 2 ^ lo * 2 ^ (64 - lo) := by rw [← pow_add]; congr 1; omega
  have hd : 2 ^ n ∣ 2 ^ (64 - lo) := pow_dvd_pow 2 (by omega)
  rw [field, BitVec.toNat_ofNat, hp, Nat.mod_mul_right_div_self, Nat.mod_mod_of_dvd _ hd]

theorem getLsbD_ofNat {N i : Nat} (h : i < 64) : (BitVec.ofNat 64 N).getLsbD i = N.testBit i := by
  rw [BitVec.getLsbD, BitVec.toNat_ofNat, Nat.testBit_mod_two_pow, decide_eq_true h, Bool.true_and]

/-- A bit of a number whose parts do not meet. -/
theorem testBit_add_mul_two_pow {a b m i : Nat} (ha : a < 2 ^ m) :
    (a + b * 2 ^ m).testBit i = if i < m then a.testBit i else b.testBit (i - m) := by
  rw [Nat.add_comm, Nat.mul_comm, Nat.testBit_two_pow_mul_add _ ha]

/-- One bit for each number below `n` of which a predicate holds. -/
def maskBelow (p : Nat → Bool) (n : Nat) : Nat := (List.range n).foldl (fun a i => if p i then a + 2 ^ i else a) 0

theorem maskBelow_succ (p : Nat → Bool) (n : Nat) :
    maskBelow p (n + 1) = maskBelow p n + (p n).toNat * 2 ^ n := by
  rw [maskBelow, List.range_succ, List.foldl_append, List.foldl_cons, List.foldl_nil, ← maskBelow]
  cases p n <;> simp

theorem maskBelow_lt (p : Nat → Bool) : ∀ n, maskBelow p n < 2 ^ n
  | 0 => Nat.one_pos
  | n + 1 => by
      have ih := maskBelow_lt p n
      have hb : (p n).toNat ≤ 1 := Bool.toNat_le _
      rw [maskBelow_succ, pow_succ]
      nlinarith [Nat.mul_le_mul_right (2 ^ n) hb]

theorem maskBelow_testBit (p : Nat → Bool) : ∀ {n i : Nat}, i < n → (maskBelow p n).testBit i = p i
  | n + 1, i, h => by
      rw [maskBelow_succ, testBit_add_mul_two_pow (maskBelow_lt p n)]
      split
      · next hi => exact maskBelow_testBit p hi
      · have : i = n := by omega
        subst this
        rw [Nat.sub_self]
        cases p i <;> rfl

theorem tagBits_eq (x : Ctx) (from_ n : Nat) : x.tagBits from_ n = maskBelow (fun i => x.tag (from_ + i)) n := rfl

/-- One bit for each slot of a core of which a predicate holds. -/
theorem slotBits_filter (p : Nat → Bool) : slotBits ([0, 1, 2, 3].filter p) = maskBelow p 4 := by
  rw [slotBits, List.foldl_filter]
  rfl

/-! ## What the registers of a context report (R22, R41, R118, R119, R203) -/

/-- The slots of a core that hold a tail. -/
def CoreSt.tailSlots (c : CoreSt) : List Nat := [0, 1, 2, 3].filter (fun i => (c.slot i).state != .empty && (c.slot i).tail.isSome)

theorem tails_map_fst (c : CoreSt) (p : Nat × Tail → Bool) : (c.tails.filter p).map (·.1) =
    [0, 1, 2, 3].filter (fun i => (c.slot i).state != .empty && (c.slot i).tail.any (fun t => p (i, t))) := by
  unfold CoreSt.tails
  generalize [0, 1, 2, 3] = l
  induction l with
  | nil => rfl
  | cons i l ih =>
    rw [List.filterMap_cons, List.filter_cons, ← ih]
    cases hs : (c.slot i).state == .empty with
    | true => simp [bne, hs]
    | false =>
      cases ht : (c.slot i).tail with
      | none => simp [ht]
      | some t => cases hp : p (i, t) <;> simp [ht, bne, hs, hp]

theorem tails_slots (c : CoreSt) : c.tails.map (·.1) = c.tailSlots := by
  have h := tails_map_fst c (fun _ => true)
  rw [List.filter_true] at h
  rw [h, CoreSt.tailSlots]
  refine List.filter_congr fun i _ => ?_
  cases (c.slot i).tail <;> rfl

theorem tails_length (c : CoreSt) : c.tails.length = c.tailSlots.length := by rw [← tails_slots, List.length_map]

/-- Whether the tail in a slot was spawned by another slot's context. -/
def CoreSt.spawnedBy (c : CoreSt) (j i : Nat) : Bool :=
  (c.slot j).tail.isNone && (c.slot i).state != .empty && (c.slot i).tail.any (fun t => i != j && t.spawner == j)

theorem tailsOf_eq (c : CoreSt) (j : Nat) : c.tailsOf j = [0, 1, 2, 3].filter (c.spawnedBy j) := by
  unfold CoreSt.tailsOf
  cases h : (c.slot j).tail with
  | none =>
    rw [Option.isSome_none, if_neg Bool.false_ne_true, tails_map_fst]
    congr 1
    funext i
    simp [CoreSt.spawnedBy, h]
  | some t => simp [CoreSt.spawnedBy, h]

theorem b2n_eq (b : Bool) : b2n b = b.toNat := by cases b <;> rfl

theorem mem_tailSlots {c : CoreSt} {i : Nat} (h : i < 4) :
    i ∈ c.tailSlots ↔ ((c.slot i).state != .empty && (c.slot i).tail.isSome) = true := by
  rw [CoreSt.tailSlots, List.mem_filter, and_iff_right]
  simp only [List.mem_cons, List.not_mem_nil, or_false]
  omega

theorem tailsWord_bits (c : CoreSt) (j : Nat) :
    field (tailsWord c j) 4 2 = min 3 c.tailSlots.length ∧
    ((tailsWord c j).getLsbD 12 = true ↔ (c.slot j).tfault = true ∧ (c.slot j).tfaultFrom ≤ c.ic) ∧
    field (tailsWord c j) 16 4 = ((c.slot j).tail.map (fun t => min 15 t.depth)).getD 0 ∧
    (∀ i, i < 4 → ((tailsWord c j).getLsbD i = true ↔ i ∈ c.tailSlots)) ∧
    (∀ i, i < 4 → (tailsWord c j).getLsbD (8 + i) = c.spawnedBy j i) := by
  let d := ((c.slot j).tail.map (fun t => min 15 t.depth)).getD 0
  let f := (c.slot j).tfault && decide ((c.slot j).tfaultFrom ≤ c.ic)
  let m0 := maskBelow (fun i => (c.slot i).state != .empty && (c.slot i).tail.isSome) 4
  let m8 := maskBelow (c.spawnedBy j) 4
  have h0 : m0 < 2 ^ 4 := maskBelow_lt _ 4
  have h8 : m8 < 2 ^ 4 := maskBelow_lt _ 4
  have hd : d < 16 := by
    simp only [d]
    cases (c.slot j).tail with
    | none => simp
    | some t => simp
  have hf : f.toNat ≤ 1 := Bool.toNat_le _
  have hw : tailsWord c j = BitVec.ofNat 64 (m0 + (min 3 c.tailSlots.length + (m8 + (f.toNat + d * 2 ^ 4) * 2 ^ 4) * 2 ^ 4) * 2 ^ 4) := by
    have hd' : tailsWord c j = put [(16, d), (12, b2n f), (8, slotBits (c.tailsOf j)), (4, min 3 c.tails.length),
        (0, slotBits (c.tails.map (·.1)))] := by
      simp only [tailsWord, d, f]
      cases (c.slot j).tail <;> rfl
    rw [hd', tails_slots, tailsOf_eq, CoreSt.tailSlots, slotBits_filter, slotBits_filter, b2n_eq, tails_length, CoreSt.tailSlots]
    simp only [put, List.foldl_cons, List.foldl_nil, m0, m8]
    congr 1
    ring
  rw [hw]
  generalize hn : min 3 c.tailSlots.length = n
  have hn3 : n ≤ 3 := hn ▸ Nat.min_le_left ..
  refine ⟨?_, ?_, ?_, fun i hi => ?_, fun i hi => ?_⟩
  · rw [field_ofNat (by omega)]
    omega
  · rw [getLsbD_ofNat (by omega), testBit_add_mul_two_pow h0, if_neg (by omega), testBit_add_mul_two_pow (by omega),
      if_neg (by omega), testBit_add_mul_two_pow h8, if_neg (by omega), testBit_add_mul_two_pow (by omega), if_pos (by omega)]
    have hbit : f.toNat.testBit 0 = f := by cases f <;> rfl
    rw [show 12 - 4 - 4 - 4 = 0 by rfl, hbit]
    simp [f]
  · rw [field_ofNat (by omega)]
    omega
  · rw [getLsbD_ofNat (by omega), testBit_add_mul_two_pow h0, if_pos hi, maskBelow_testBit _ hi, mem_tailSlots hi]
  · rw [getLsbD_ofNat (by omega), testBit_add_mul_two_pow h0, if_neg (by omega), testBit_add_mul_two_pow (by omega),
      if_neg (by omega), show 8 + i - 4 - 4 = i by omega, testBit_add_mul_two_pow h8, if_pos hi, maskBelow_testBit _ hi]

theorem tagsWord_bits (x : Ctx) :
    field (tagsWord x) 32 8 = x.pend % 256 ∧ (∀ i, i < 8 → (tagsWord x).getLsbD i = x.tag i) ∧
    (∀ i, i < 16 → (tagsWord x).getLsbD (8 + i) = x.tag (8 + i)) := by
  let m0 := maskBelow (fun i => x.tag (0 + i)) 8
  let m8 := maskBelow (fun i => x.tag (8 + i)) 16
  have h0 : m0 < 2 ^ 8 := maskBelow_lt _ 8
  have h8 : m8 < 2 ^ 16 := maskBelow_lt _ 16
  have hw : tagsWord x = BitVec.ofNat 64 (m0 + (m8 + (x.pend * 2 ^ 8) * 2 ^ 16) * 2 ^ 8) := by
    simp only [tagsWord, put, tagBits_eq, List.foldl_cons, List.foldl_nil, m0, m8]
    congr 1
    ring
  rw [hw]
  refine ⟨?_, fun i hi => ?_, fun i hi => ?_⟩
  · rw [field_ofNat (by omega)]
    omega
  · rw [getLsbD_ofNat (by omega), testBit_add_mul_two_pow h0, if_pos hi, maskBelow_testBit _ hi, Nat.zero_add]
  · rw [getLsbD_ofNat (by omega), testBit_add_mul_two_pow h0, if_neg (by omega), show 8 + i - 8 = i by omega,
      testBit_add_mul_two_pow h8, if_pos hi, maskBelow_testBit _ hi]

/-- FRAMEHOLD is the lowest held start. -/
theorem frameHold_spec {x : Ctx} (h : x.holds ≠ []) :
    ∃ y ∈ x.holds, frameHold x = y.start ∧ ∀ z ∈ x.holds, y.start.toNat ≤ z.start.toNat := by
  unfold frameHold
  -- The fold keeps the least start so far, which is the start value or that of an entry.
  suffices ∀ (l : List Hold) (a : Word),
      let r := l.foldl (fun a h => if h.start.ult a then h.start else a) a
      (r = a ∨ ∃ y ∈ l, r = y.start) ∧ r.toNat ≤ a.toNat ∧ ∀ z ∈ l, r.toNat ≤ z.start.toNat by
    obtain ⟨hr, -, hz⟩ := this x.holds (BitVec.allOnes 64)
    rcases hr with hr | ⟨y, hy, hr⟩
    · obtain ⟨y, hy⟩ := List.exists_mem_of_ne_nil _ h
      have hy1 := hz y hy
      have hy2 := y.start.isLt
      rw [hr, BitVec.toNat_allOnes] at hy1
      have : y.start = BitVec.allOnes 64 := BitVec.eq_of_toNat_eq (by rw [BitVec.toNat_allOnes]; omega)
      exact ⟨y, hy, hr.trans this.symm, fun z hz' => by rw [this, ← hr]; exact hz z hz'⟩
    · exact ⟨y, hy, hr, fun z hz' => hr ▸ hz z hz'⟩
  intro l
  induction l with
  | nil => exact fun a => ⟨.inl rfl, le_refl _, by simp⟩
  | cons y l ih =>
    intro a
    obtain ⟨hr, hle, hz⟩ := ih (if y.start.ult a then y.start else a)
    rw [List.foldl_cons]
    have hy : (if y.start.ult a then y.start else a).toNat ≤ y.start.toNat ∧
        (if y.start.ult a then y.start else a).toNat ≤ a.toNat := by
      split
      · next hu => simp [BitVec.ult] at hu; omega
      · next hu => simp [BitVec.ult] at hu; omega
    refine ⟨?_, hle.trans hy.2, ?_⟩
    · rcases hr with hr | ⟨z, hz', hr⟩
      · rw [hr]
        split
        · exact .inr ⟨y, List.mem_cons_self .., rfl⟩
        · exact .inl rfl
      · exact .inr ⟨z, List.mem_cons_of_mem _ hz', hr⟩
    · intro z hz'
      rcases List.mem_cons.1 hz' with rfl | hz'
      · exact hle.trans hy.1
      · exact hz z hz'

end Sys2Proof.Machine

namespace Sys2Proof.Machine

/-! ## What an MTS changes (R133) -/

/-- The parts of a core and a context that an MTS of a user register can change. -/
structure UserRegs where
  fpflags : Word
  rbase : Word
  freeze : Word
  vec : Word
  pc : Word
  pcWritten : Bool
  tfault : Bool
  watchto : Word
  exclcnt : Word
  bankfmt : Tbl Word
  step : Tbl Word

/-- Them, in a state. -/
def userRegs (s : State) (k j : Nat) : UserRegs :=
  let c := s.core k
  let x := c.slot j
  { fpflags := x.bank.fpflags, rbase := x.bank.rbase, freeze := c.freeze, vec := x.trap.vec, pc := x.trap.pc
    pcWritten := x.trap.pcWritten, tfault := x.tfault, watchto := x.bank.watchto, exclcnt := c.exclcnt
    bankfmt := c.bankfmt, step := x.bank.step }

/-- The context with them replaced. -/
def UserRegs.inCtx (r : UserRegs) (x : Ctx) : Ctx :=
  { x with
    bank := { x.bank with fpflags := r.fpflags, rbase := r.rbase, watchto := r.watchto, step := r.step }
    trap := { x.trap with vec := r.vec, pc := r.pc, pcWritten := r.pcWritten }
    tfault := r.tfault }

/-- The core, but for its contexts, with them replaced. -/
def UserRegs.inCore (r : UserRegs) (c : CoreSt) : CoreSt :=
  { c with freeze := r.freeze, exclcnt := r.exclcnt, bankfmt := r.bankfmt }

/-- A state in which nothing but these parts of one context and its core differs. -/
structure UserFrame (s : State) (k j : Nat) (r : UserRegs) (t : State) : Prop where
  rest : { t with cores := s.cores } = s
  core : { t.core k with ctx := (s.core k).ctx } = r.inCore (s.core k)
  slot : ∀ i, (t.core k).slot i = if i = j then r.inCtx (s.ctx k j) else s.ctx k i
  others : ∀ m i, (m ≠ k ∨ i ≠ j) → t.ctx m i = s.ctx m i

theorem UserFrame.refl (s : State) (k j : Nat) : UserFrame s k j (userRegs s k j) s where
  rest := rfl
  core := rfl
  slot i := by
    split
    · next h => subst h; rfl
    · rfl
  others _ _ _ := rfl

/-- What one of them reads as by number, if it is one of them and no flag of TAILS. -/
def UserRegs.read (r : UserRegs) (n : Nat) : Option Word :=
  if n = 0x006 then some r.fpflags
  else if n = 0x007 then some r.rbase
  else if n = 0x008 then some r.freeze
  else if n = 0x00C then some r.vec
  else if n = 0x00E then some r.pc
  else if n = 0x013 then some r.watchto
  else if n = 0x014 then some r.exclcnt
  else if 0x030 ≤ n ∧ n < 0x050 then some (Tbl.getD r.bankfmt (n - 0x030) 0)
  else if 0x062 ≤ n ∧ n < 0x06A then some (Tbl.getD r.step (n - 0x062) 0)
  else none

theorem UserRegs.read_bankfmt (r : UserRegs) {n : Nat} (h : 0x030 ≤ n ∧ n < 0x050) :
    r.read n = some (Tbl.getD r.bankfmt (n - 0x030) 0) := by
  unfold UserRegs.read
  iterate 7 rw [if_neg (by omega)]
  rw [if_pos h]
theorem UserRegs.read_step (r : UserRegs) {n : Nat} (h : 0x062 ≤ n ∧ n < 0x06A) :
    r.read n = some (Tbl.getD r.step (n - 0x062) 0) := by
  unfold UserRegs.read
  iterate 8 rw [if_neg (by omega)]
  rw [if_pos h]

/-- An MTS of number `n` on them (R133). -/
def UserRegs.write (r : UserRegs) (n : Nat) (v : Word) (inHandler : Bool) : UserRegs :=
  if n = 0x006 then { r with fpflags := v }
  else if n = 0x007 then { r with rbase := v }
  else if n = 0x008 then { r with freeze := v }
  else if n = 0x00C then { r with vec := v }
  else if n = 0x00E then { r with pc := v, pcWritten := inHandler }
  else if n = 0x012 then { r with tfault := r.tfault && !v.getLsbD 12 }
  else if n = 0x013 then { r with watchto := v }
  else if n = 0x014 then { r with exclcnt := v }
  else if 0x030 ≤ n ∧ n < 0x050 then { r with bankfmt := Tbl.set r.bankfmt (n - 0x030) v }
  else if 0x062 ≤ n ∧ n < 0x06A then { r with step := Tbl.set r.step (n - 0x062) v }
  else r

theorem UserRegs.read_write_same {r : UserRegs} {n : Nat} {v : Word} {b : Bool} (h : mtsUserOk n v = true)
    (hn : n ≠ 0x012) : (r.write n v b).read n = some v := by
  unfold UserRegs.write
  split_ifs with h6 h7 h8 hc he h13 h14 h30 h62
  case neg =>
    have : mtsUserOk n v = (0x062 ≤ n && n < 0x06A) := by simp only [mtsUserOk]; simp [*]
    simp [this] at h
    omega
  all_goals simp [UserRegs.read, *]

/-- A write of one number leaves what the others read. -/
theorem UserRegs.read_write_ne {r : UserRegs} {n m : Nat} (v : Word) (b : Bool) (h : m ≠ n) :
    (r.write n v b).read m = r.read m := by
  unfold UserRegs.write
  split_ifs
  all_goals
    subst_vars
    simp only [UserRegs.read, if_neg h]
  · iterate 7 refine ite_congr rfl (fun _ => rfl) fun _ => ?_
    exact ite_congr rfl (fun hm => by rw [Tbl.getD_set_ne _ _ _ (show m - 0x030 ≠ n - 0x030 by omega)]) fun _ => rfl
  · iterate 8 refine ite_congr rfl (fun _ => rfl) fun _ => ?_
    exact ite_congr rfl (fun hm => by rw [Tbl.getD_set_ne _ _ _ (show m - 0x062 ≠ n - 0x062 by omega)]) fun _ => rfl
theorem UserRegs.write_tfault (r : UserRegs) (n : Nat) (v : Word) (b : Bool) :
    (r.write n v b).tfault = if n = 0x012 then r.tfault && !v.getLsbD 12 else r.tfault := by
  unfold UserRegs.write
  split_ifs
  any_goals rfl
  all_goals omega

theorem userFrame_updCtx {s : State} {k j : Nat} {f : Ctx → Ctx} {r : UserRegs} (hx : f (s.ctx k j) = r.inCtx (s.ctx k j))
    (hc : r.inCore (s.core k) = s.core k) : UserFrame s k j r (s.updCtx k j f) where
  rest := rfl
  core := by rw [State.core_updCtx_but_ctx, hc]
  slot i := by
    change (s.updCtx k j f).ctx k i = _
    rw [State.ctx_updCtx, hx]
    exact if_congr (by simp) rfl rfl
  others m i h := by rw [State.ctx_updCtx, if_neg (by omega)]

theorem userFrame_updCore {s : State} {k j : Nat} {f : CoreSt → CoreSt} {r : UserRegs} (hc : f (s.core k) = r.inCore (s.core k))
    (hx : r.inCtx (s.ctx k j) = s.ctx k j) : UserFrame s k j r (s.updCore k f) where
  rest := rfl
  core := by rw [State.core_updCore, if_pos rfl, hc]; rfl
  slot i := by
    have h := State.ctx_updCore_of_ctx (s := s) (k := k) (f := f) (by rw [hc]; rfl) k i
    rw [hx]
    refine h.trans ?_
    split
    · next hi => rw [hi]
    · rfl
  others m i _ := State.ctx_updCore_of_ctx (by rw [hc]; rfl) m i

theorem UserFrame.ite {s a b : State} {k j : Nat} {r q : UserRegs} {c : Prop} [Decidable c] (ha : UserFrame s k j r a)
    (hb : UserFrame s k j q b) : UserFrame s k j (if c then r else q) (if c then a else b) := by
  split
  · exact ha
  · exact hb

theorem mtsUser_frame (s : State) (k j n : Nat) (v : Word) :
    UserFrame s k j ((userRegs s k j).write n v (s.ctx k j).trap.isIn) (mtsUser s k j n v) := by
  unfold mtsUser UserRegs.write
  have hx {r : UserRegs} {f : Ctx → Ctx} (h : f (s.ctx k j) = r.inCtx (s.ctx k j))
      (h' : r.inCore (s.core k) = s.core k) : UserFrame s k j r (s.updCtx k j f) := userFrame_updCtx h h'
  have hc {r : UserRegs} {f : CoreSt → CoreSt} (h : f (s.core k) = r.inCore (s.core k))
      (h' : r.inCtx (s.ctx k j) = s.ctx k j) : UserFrame s k j r (s.updCore k f) := userFrame_updCore h h'
  refine .ite (hx ?_ ?_) <| .ite (hx ?_ ?_) <| .ite (hc ?_ ?_) <| .ite (hx ?_ ?_) <| .ite (hx ?_ ?_) <| .ite ?tails <|
    .ite (hx ?_ ?_) <| .ite (hc ?_ ?_) <| .ite (hc ?_ ?_) <| .ite (hx ?_ ?_) (.refl s k j)
  case tails =>
    have hb : v.getLsbD 12 = bit v 12 := rfl
    rw [hb]
    cases bit v 12 with
    | true =>
      rw [Bool.not_true, Bool.and_false, if_pos rfl]
      exact hx rfl rfl
    | false =>
      rw [Bool.not_false, Bool.and_true, if_neg Bool.false_ne_true]
      exact .refl s k j
  all_goals rfl
section
variable {s t : State} {k j : Nat} {r : UserRegs} (h : UserFrame s k j r t)
include h

theorem UserFrame.tails : (t.core k).tails = (s.core k).tails := by
  have hslot (i : Nat) : ((t.core k).slot i).state = (s.ctx k i).state ∧ ((t.core k).slot i).tail = (s.ctx k i).tail := by
    rw [h.slot]
    split
    · next hi => subst hi; exact ⟨rfl, rfl⟩
    · exact ⟨rfl, rfl⟩
  unfold CoreSt.tails
  refine List.filterMap_congr fun i _ => ?_
  simp only [(hslot i).1, (hslot i).2]
  rfl

theorem UserFrame.tailsWord_eq (hr : r.tfault = (s.ctx k j).tfault) : tailsWord (t.core k) j = tailsWord (s.core k) j := by
  have hx : (t.core k).slot j = r.inCtx (s.ctx k j) := by rw [h.slot, if_pos rfl]
  have hic : (t.core k).ic = (s.core k).ic := (congrArg CoreSt.ic h.core :)
  simp only [tailsWord, CoreSt.tailsOf, h.tails, hx, hic, UserRegs.inCtx, hr]
  rfl

/-- A register that none of them is reads as before, and so does one of them that is as before. -/
theorem UserFrame.mfsUser_eq {m : Nat} (hm : m ≠ 0x012) (hr : r.read m = (userRegs s k j).read m) :
    mfsUser t k j m = mfsUser s k j m := by
  have hx : (t.core k).slot j = r.inCtx (s.ctx k j) := by rw [h.slot, if_pos rfl]
  have hfr : (t.core k).freeze = r.freeze := (congrArg CoreSt.freeze h.core :)
  have hex : (t.core k).exclcnt = r.exclcnt := (congrArg CoreSt.exclcnt h.core :)
  have hbf : (t.core k).bankfmt = r.bankfmt := (congrArg CoreSt.bankfmt h.core :)
  have hch : (t.core k).chan = (s.core k).chan := (congrArg CoreSt.chan h.core :)
  have hga : (t.core k).gang = (s.core k).gang := (congrArg CoreSt.gang h.core :)
  have hla : t.launches = s.launches := (congrArg State.launches h.rest :)
  have hcy : t.cycle = s.cycle := (congrArg State.cycle h.rest :)
  have hgov : govWord t k = govWord s k := by
    have hq : t.quads = s.quads := (congrArg State.quads h.rest :)
    have hal : t.alarm = s.alarm := (congrArg State.alarm h.rest :)
    have hai : t.alarmInForce = s.alarmInForce := (congrArg State.alarmInForce h.rest :)
    simp only [govWord, State.narrow, State.quad, hq, hal, hai]
  have hctxid : ctxid t k j = ctxid s k j := by
    simp only [ctxid, CoreSt.rank, hga, hx]
    rfl
  unfold mfsUser
  have hchn (n : Nat) : (t.core k).chn n = (s.core k).chn n := by simp only [CoreSt.chn, hch]
  simp only [hchn, hx, hfr, hex, hbf, hcy, hgov, hctxid, State.launch?, hla, State.now]
  -- The registers in the order of their numbers: those an MTS changes read as `hr` says.
  iterate 6 refine ite_congr rfl (fun _ => rfl) fun _ => ?_
  iterate 3 refine ite_congr rfl (fun e => by subst e; exact hr) fun _ => ?_
  iterate 3 refine ite_congr rfl (fun _ => rfl) fun _ => ?_
  refine ite_congr rfl (fun e => by subst e; exact hr) fun _ => ite_congr rfl (fun _ => rfl) fun _ => ?_
  refine ite_congr rfl (fun e => by subst e; exact hr) fun _ => ?_
  iterate 3 refine ite_congr rfl (fun _ => rfl) fun _ => ?_
  refine ite_congr rfl (fun e => absurd e hm) fun _ => ?_
  iterate 2 refine ite_congr rfl (fun e => by subst e; exact hr) fun _ => ?_
  refine ite_congr rfl (fun _ => rfl) fun _ => ite_congr rfl (fun e => ?_) fun _ => ?_
  · rwa [UserRegs.read_bankfmt r e, UserRegs.read_bankfmt _ e] at hr
  · iterate 3 refine ite_congr rfl (fun _ => rfl) fun _ => ?_
    refine ite_congr rfl (fun e => ?_) fun _ => rfl
    rwa [UserRegs.read_step r e, UserRegs.read_step _ e] at hr

/-- One of them reads as its value. -/
theorem UserFrame.mfsUser_of_read {m : Nat} {v : Word} (hr : r.read m = some v) : mfsUser t k j m = some v := by
  have hx : (t.core k).slot j = r.inCtx (s.ctx k j) := by rw [h.slot, if_pos rfl]
  have hfr : (t.core k).freeze = r.freeze := (congrArg CoreSt.freeze h.core :)
  have hex : (t.core k).exclcnt = r.exclcnt := (congrArg CoreSt.exclcnt h.core :)
  have hbf : (t.core k).bankfmt = r.bankfmt := (congrArg CoreSt.bankfmt h.core :)
  by_cases h30 : 0x030 ≤ m ∧ m < 0x050
  · rw [r.read_bankfmt h30] at hr
    unfold mfsUser
    iterate 22 rw [if_neg (by omega)]
    rw [if_pos h30, ← hr, hbf]
  by_cases h62 : 0x062 ≤ m ∧ m < 0x06A
  · rw [r.read_step h62] at hr
    unfold mfsUser
    iterate 26 rw [if_neg (by omega)]
    rw [if_pos h62, ← hr, hx]
    rfl
  unfold UserRegs.read at hr
  split_ifs at hr
  all_goals
    subst_vars
    rw [← hr]
    simp [mfsUser, hx, hfr, hex, UserRegs.inCtx]

end

end Sys2Proof.Machine

namespace Sys2Proof.Machine

/-! ## The registers of a user core -/

theorem sysRead_user {s : State} {k : Nat} (hk : isHitik k = false) (j : Nat) {n : Nat} (hn : n < 0x800) :
    sysRead s k j n = mfsUser s k j n := by rw [sysRead, hk, if_neg Bool.false_ne_true, if_pos hn]

theorem ctxid_eq (s : State) (k j : Nat) :
    let c := s.core k
    let x := s.ctx k j
    ctxid s k j = BitVec.ofNat 64 (j + k % 48 * 2 ^ 2 + k / 48 * 2 ^ 8 + (c.rank k).1 * 2 ^ 12
      + ((c.rank k).2 - 1) * 2 ^ 17 + b2n x.tail.isSome * 2 ^ 22 + b2n (x.tail.any (·.deferred)) * 2 ^ 23
      + x.lindex * 2 ^ 32) := by
  intro c x
  have h : ctxid s k j = put [(32, x.lindex), (23, b2n (x.tail.any (·.deferred))), (22, b2n x.tail.isSome),
      (17, (c.rank k).2 - 1), (12, (c.rank k).1), (0, ctxidLow k j)] := by
    unfold ctxid
    simp only [x, State.ctx]
    cases ((s.core k).slot j).tail <;> rfl
  rw [h]
  simp only [put, List.foldl_cons, List.foldl_nil, ctxidLow, clusterOf]
  congr 1
  ring

theorem chstat_eq (h : Chan) : chstat h = BitVec.ofNat 64 (h.done % 256 + h.queue.length * 2 ^ 8 + b2n h.ep * 2 ^ 23
    + h.lstat * 2 ^ 24 + h.lcount % 2 ^ 32 * 2 ^ 32) := by
  simp only [chstat, put, List.foldl_cons, List.foldl_nil]
  congr 1
  ring

theorem tag_iff (x : Ctx) (n : Nat) : x.tag n = true ↔ ∀ o ∈ x.mine, n ∉ o.dsts := by
  simp [Ctx.tag]

theorem skew_of_started {x : Ctx} (h : x.mine.all (·.started) = true) : x.skew = 0 := by
  have hf : x.mine.find? (fun o => !o.started) = none := by
    simpa using h
  rw [Ctx.skew, hf]
theorem skew_of_first {x : Ctx} {l r : List QOp} {o : QOp} (h : x.mine = l ++ o :: r) (hl : l.all (·.started) = true)
    (ho : o.started = false) : x.skew = x.issues - o.issue - 1 := by
  have hf : x.mine.find? (fun o => !o.started) = some o := by
    rw [h, List.find?_append, List.find?_eq_none.2 (by simpa using hl), List.find?_cons_of_pos (by simp [ho])]
    rfl
  rw [Ctx.skew, hf]

theorem put_low (v : Nat) : put [(0, v)] = BitVec.ofNat 64 v := by
  simp only [put, List.foldl_cons, List.foldl_nil, pow_zero, Nat.mul_one, Nat.zero_add]

theorem mfsUser_chan (s : State) (k j : Nat) {n : Nat} (hn : n < 16) :
    mfsUser s k j (0x020 + n) = some ((s.core k).chn n).wpos ∧
    mfsUser s k j (0x050 + n) = some (chstat ((s.core k).chn n)) := by
  constructor
  · unfold mfsUser
    iterate 21 rw [if_neg (by omega)]
    rw [if_pos (by omega), Nat.add_sub_cancel_left]
  · unfold mfsUser
    iterate 23 rw [if_neg (by omega)]
    rw [if_pos (by omega), Nat.add_sub_cancel_left]

theorem completes_mts (s : State) (g : BitVec 4) (n : BitVec 16) (a : Sel) :
    Completes (.mts g n a) s (s.land 1 [.mts n.toNat (s.src a)]) := fun h => exec_issues h rfl rfl

theorem completes_mfs {s : State} {n : BitVec 16} {v : Word} (hv : sysRead s s.issue.core s.issue.ctx n.toNat = some v)
    (g : BitVec 4) (d : BitVec 6) : Completes (.mfs g d n) s (s.landS 1 d v) :=
  fun h => exec_issues h rfl (by rw [hv]; rfl)

theorem applyLand_mts_mgmt (s : State) (k j n : Nat) (v : Word) (h : 0x800 ≤ n) :
    applyLand k j s (.mts n v) = { s with policy := s.policy ++ [(n, v)] } := if_pos h

theorem withPolicy_of_one {s : State} (h : s.policy = []) (n : Nat) (v : Word) :
    ({ s with policy := s.policy ++ [(n, v)] } : State).withPolicy = mtsMgmt s n v := by
  have hs : { s with policy := [] } = s := by rw [← h]
  simp only [State.withPolicy, h, List.nil_append, List.foldl_cons, List.foldl_nil, hs]

end Sys2Proof.Machine

open Sys2Proof Sys2Proof.Machine

/-- Settles O25: what MFS and MTS put in flight, what the registers report, and what an MTS leaves. -/
theorem systemRegisters : Obligations.SystemRegisters := by
  refine ⟨?_, ?_, ?_⟩
  · intro s g d n a
    refine ⟨fun v hv => completes_mfs hv g d, completes_mts s g n a, fun k j v hn => if_neg (by omega), fun k j v hn => ?_⟩
    rw [applyLand_mts_mgmt s k j n.toNat v hn]
    exact ⟨rfl, fun h => withPolicy_of_one h n.toNat v⟩
  · intro s k j hk c x own bit_ gang tails
    have hu {n : Nat} (hn : n < 0x800) : sysRead s k j n = mfsUser s k j n := sysRead_user hk j hn
    have hown : own = x.mine := rfl
    obtain ⟨hw4, hw12, hw16, hwt, hwo⟩ := tailsWord_bits c j
    obtain ⟨hp, ht0, ht8⟩ := tagsWord_bits x
    refine ⟨?_, ?_, ?_, ⟨tagsWord x, hu (by omega), hp, fun i hi => ?_, fun i hi => ?_⟩, fun h => ?_, fun l o r h hl ho => ?_,
      fun h => ?_, fun h => ?_, ⟨tailsWord c j, hu (by omega), hw4, hw12, hw16, hwt, fun i hi => ?_⟩, fun n hn => ?_⟩
    · rw [hu (by omega)]
      exact congrArg some (ctxid_eq s k j)
    · rw [hu (by omega)]
      refine congrArg (fun n => some (BitVec.ofNat 64 n)) ?_
      change ((s.launch? x.launch).getD { id := 0, fn := 0 }).purse = ((s.launch? x.launch).map (·.purse)).getD 0
      cases s.launch? x.launch <;> rfl
    · rw [hu (by omega)]
      rfl
    · rw [ht0 i hi]; exact tag_iff x i
    · rw [ht8 i hi]; exact tag_iff x (8 + i)
    · have hs : x.skew = 0 := skew_of_started h
      rw [hu (by omega)]
      refine congrArg some ((put_low _).trans ?_)
      change BitVec.ofNat 64 (min 16 x.skew) = 0
      rw [hs]; rfl
    · rw [hu (by omega)]
      refine congrArg some ((put_low _).trans ?_)
      change BitVec.ofNat 64 (min 16 x.skew) = _
      rw [skew_of_first h hl ho]
    · rw [hu (by omega)]
      refine congrArg some ?_
      change frameHold x = _
      rw [frameHold, h]; rfl
    · obtain ⟨y, hy, hs, hz⟩ := frameHold_spec h
      refine ⟨y, hy, ?_, hz⟩
      rw [hu (by omega), ← hs]
      rfl
    · rw [hwo i hi, CoreSt.spawnedBy, Bool.and_eq_true, Bool.and_eq_true]
      change (_ ∧ _) ∧ _ ↔ _ ∧ i ∈ c.tailSlots ∧ _
      rw [mem_tailSlots hi, Option.isNone_iff_eq_none]
      cases (c.slot i).tail with
      | none => simp
      | some t => simp; tauto
    · obtain ⟨h1, h2⟩ := mfsUser_chan s k j hn
      rw [hu (by omega), hu (by omega), h1, h2]
      exact ⟨rfl, congrArg some (chstat_eq _)⟩
  · intro s k j n v hn hv t
    have hf : UserFrame s k j _ t := mtsUser_frame s k j n v
    have hx : t.ctx k j = ((userRegs s k j).write n v (s.ctx k j).trap.isIn).inCtx (s.ctx k j) :=
      (hf.slot j).trans (if_pos rfl)
    refine ⟨fun h12 => hf.mfsUser_of_read (UserRegs.read_write_same hv h12), fun h12 => ?_, fun m hm => ?_, hf.others, ?_⟩
    · rw [hx]
      exact (UserRegs.write_tfault ..).trans (if_pos h12)
    · by_cases hm12 : m = 0x012
      · subst hm12
        have hn12 : ((userRegs s k j).write n v (s.ctx k j).trap.isIn).tfault = (s.ctx k j).tfault :=
          (UserRegs.write_tfault ..).trans (if_neg (Ne.symm hm))
        exact congrArg some (hf.tailsWord_eq hn12)
      · exact hf.mfsUser_eq hm12 (UserRegs.read_write_ne v _ hm)
    · rw [hx]
      exact ⟨rfl, rfl, rfl, rfl, rfl, rfl, mtsUser_memories ..⟩

namespace Sys2Proof.Machine

/-! ## What a user context may not touch (R83, R119, R133, R225) -/

/-- An operation whose own check faults, with nothing else against it. -/
theorem issueOp_own_fault {i : Instr} {c : State → Chk} {eff : State → State} {s : State} {f : Flt}
    (h : s.issue.checked = false) (hb : baseChk i s = {}) (hg : s.guardOn i = true) (hc : c s = { fault := some f }) :
    issueOp i c eff s = .next (s.raise f) := by
  have ho : opChk i c s = { fault := some f } := by rw [opChk, hb, hg, if_pos rfl, hc]; rfl
  exact issueOp_fault h (by rw [ho]) (by rw [ho])

/-- An operation outside the V class and gang control whose own predicate guards it acts. -/
theorem guardOn_of_pred {s : State} {i : Instr} (hc : isGangControl i = false) (h : (s.pred i.guard).getLsbD 0 = true) :
    s.guardOn i = true := by
  have hb : s.guardBank i = s.me.bank := by
    unfold State.guardBank
    split
    · rw [if_neg (by simp [hc])]
    · rfl
  rw [State.guardOn, hb, Bool.or_eq_true]
  exact .inr h

section
variable {s : State} (hk : isHitik s.issue.core = false) (hu : s.issue.checked = false) {g : BitVec 4}
  (hg : (s.pred g).getLsbD 0 = true)
include hk hu hg

theorem exec_mfs_illegal (d : BitVec 6) {n : BitVec 16} (h : sysRead s s.issue.core s.issue.ctx n.toNat = none) :
    exec (.mfs g d n) s = .next (s.raise s.illegal) :=
  issueOp_own_fault hu (baseChk_clear rfl hk rfl) (guardOn_of_pred rfl hg)
    (by rw [mfsChk, h]; rfl)

theorem exec_mts_illegal {n : BitVec 16} {x : BitVec 6}
    (h : sysWriteOk s s.issue.core n.toNat (s.me.bank.getS x.toNat) = false) :
    exec (.mts g n (.reg x)) s = .next (s.raise s.illegal) :=
  issueOp_own_fault hu (baseChk_clear rfl hk rfl) (guardOn_of_pred rfl hg)
    (by rw [mtsChk, show s.src (.reg x) = s.me.bank.getS x.toNat from rfl, h]; rfl)

end

theorem mfsUser_none (s : State) (k j : Nat) {n : Nat} (h : (0x015 ≤ n ∧ n ≤ 0x01F) ∨ 0x06A ≤ n) : mfsUser s k j n = none := by
  unfold mfsUser
  iterate 27 rw [if_neg (by omega)]

theorem mtsUserOk_false {n : Nat} (v : Word) (h : n ≤ 0x005 ∨ n = 0x009 ∨ n = 0x00A ∨ n = 0x00B ∨ n = 0x00D ∨
    n = 0x00F ∨ n = 0x010 ∨ n = 0x011 ∨ (0x015 ≤ n ∧ n < 0x030) ∨ (0x050 ≤ n ∧ n < 0x062) ∨ 0x06A ≤ n) :
    mtsUserOk n v = false := by
  unfold mtsUserOk
  iterate 8 rw [if_neg (by omega)]
  rw [Bool.and_eq_false_iff, decide_eq_false_iff_not, decide_eq_false_iff_not]
  omega

end Sys2Proof.Machine

/-- Settles O26: the tables of the registers a user context reads and of those it may write. -/
theorem systemRegisterPrivilege : Obligations.SystemRegisterPrivilege := by
  intro s g d n x hk hu hg none_
  refine ⟨fun h => exec_mfs_illegal hk hu hg d ?_, ?_⟩
  · by_cases hn : n.toNat < 0x800
    · rw [sysRead_user hk _ hn]
      exact mfsUser_none _ _ _ (by omega)
    · rw [sysRead, hk, if_neg Bool.false_ne_true, if_neg hn]
  · intro readOnly h
    refine exec_mts_illegal hk hu hg ?_
    rw [sysWriteOk, hk, if_neg Bool.false_ne_true]
    rcases Nat.lt_or_ge n.toNat 0x800 with hn | hn
    · rw [mtsUserOk_false _ (by omega), Bool.and_false]
    · rw [decide_eq_false (by omega), Bool.false_and]

/-- Settles O27: the registers' checks of their reserved fields. -/
theorem reservedWriteIllegal : Obligations.ReservedWriteIllegal := by
  intro s g x hk hu hg v
  refine ⟨fun h => exec_mts_illegal hk hu hg ?_, fun h => exec_mts_illegal hk hu hg ?_⟩
  · have hv : mtsUserOk 0x013 v = (field v 32 32 == 0) := rfl
    rw [sysWriteOk, hk, if_neg Bool.false_ne_true]
    change (_ && mtsUserOk 0x013 v) = false
    rw [hv, beq_false_of_ne h, Bool.and_false]
  · rw [sysWriteOk, hk, if_neg Bool.false_ne_true]
    change (_ && fpflagsOk v) = false
    rw [Bool.and_eq_false_iff]
    refine .inr ?_
    rw [fpflagsOk, Bool.and_eq_false_iff, Bool.and_eq_false_iff, beq_eq_false_iff_ne, beq_eq_false_iff_ne,
      decide_eq_false_iff_not]
    omega

end

section
/-!
PROOFS. Control (R33 to R40, R106, R121, R122, R137 to R149): branches, loops, tails, the ends of contexts, gangs, traps and
returns from them.
-/
namespace Sys2Proof.Machine

theorem State.gang_updCtx (s : State) (k j m : Nat) (f : Ctx → Ctx) : ((s.updCtx k j f).core m).gang = (s.core m).gang :=
  (congrArg CoreSt.gang (State.core_updCtx_but_ctx s k j m f) :)

theorem State.ic_updCtx (s : State) (k j m : Nat) (f : Ctx → Ctx) : ((s.updCtx k j f).core m).ic = (s.core m).ic :=
  (congrArg CoreSt.ic (State.core_updCtx_but_ctx s k j m f) :)

/-! ## Branches (R106, R137, R138) -/

/-- Outside a gang a taken branch moves its own context, and a bad target is a late trap there. -/
theorem branchTo_of_no_gang {s : State} (hg : s.myCore.gang = none) (t : Word) (n : Nat) :
    let u := s.updMe (fun x => { x with
      pc := t, notBefore := s.myCore.ic + n, sticky := [], rep := 0, target := true })
    s.branchTo t n = if badTarget u s.issue.core s.issue.ctx t then
      u.trap s.issue.core s.issue.ctx true s.issue.partner (s.flt .target t) t 0 else u := by
  simp only [State.branchTo, isLead_of_no_gang hg, Bool.not_true, Bool.false_eq_true, if_false,
      gangSlots_of_no_gang hg, List.foldl_cons, List.foldl_nil]
  rfl

end Sys2Proof.Machine
open Sys2Proof Sys2Proof.Machine

/-- Settles O28: each effect is read off the operation's meaning. -/
theorem branches : Obligations.Branches := fun _ _ _ _ _ =>
  ⟨fun h => exec_issues h rfl rfl, fun h => exec_issues h rfl rfl, fun h => exec_issues h rfl rfl,
    fun h => exec_issues h rfl rfl, fun h => exec_issues h rfl rfl⟩

/-- Settles O29: outside a gang the branch moves one context, and a bad target is the entry of a late trap there. -/
theorem branchTaken : Obligations.BranchTaken := by
  intro s t n hg u
  have hbranch := branchTo_of_no_gang hg t n
  have hgang : (u.core s.issue.core).gang = none := (State.gang_updCtx ..).trans hg
  have hic : (u.core s.issue.core).ic = s.myCore.ic := State.ic_updCtx ..
  refine ⟨fun h => hbranch.trans (if_neg (by rw [h]; decide)), fun h => ?_, fun k j h => if_pos h⟩
  refine (hbranch.trans (if_pos h)).trans ((trap_of_no_gang s.issue.ctx true _ t 0 hgang rfl rfl).trans ?_)
  rw [hic]
  rfl

namespace Sys2Proof.Machine

/-! ## Fields of a word that one field of is replaced -/

theorem add_mul_lt_mul {a A c C : Nat} (ha : a < A) (hc : c < C) : a + A * c < A * C := by
  calc a + A * c < A + A * c := by omega
    _ = A * (c + 1) := by ring
    _ ≤ A * C := Nat.mul_le_mul_left A hc

theorem setField_toNat (x : Word) {lo n : Nat} (v : Nat) (h : lo + n ≤ 64) : (setField x lo n v).toNat =
    x.toNat % 2 ^ lo + 2 ^ lo * (v % 2 ^ n + 2 ^ n * (x.toNat / 2 ^ (lo + n))) := by
  have hp : 2 ^ 64 = 2 ^ lo * (2 ^ n * 2 ^ (64 - (lo + n))) := by rw [← pow_add, ← pow_add]; congr 1; omega
  have hx : x.toNat = x.toNat % 2 ^ lo + 2 ^ lo * (field x lo n + 2 ^ n * (x.toNat / 2 ^ (lo + n))) := by
    rw [field, pow_add, ← Nat.div_div_eq_div_mul, Nat.mod_add_div, Nat.mod_add_div]
  have hb : x.toNat / 2 ^ (lo + n) < 2 ^ (64 - (lo + n)) := by
    rw [Nat.div_lt_iff_lt_mul (by positivity), ← pow_add, Nat.sub_add_cancel h]; exact x.isLt
  have hlo := Nat.mod_lt x.toNat (show 0 < 2 ^ lo by positivity)
  have hlt : x.toNat % 2 ^ lo + 2 ^ lo * (v % 2 ^ n + 2 ^ n * (x.toNat / 2 ^ (lo + n))) < 2 ^ 64 :=
    hp ▸ add_mul_lt_mul hlo (add_mul_lt_mul (Nat.mod_lt v (by positivity)) hb)
  have hw : setField x lo n v =
      BitVec.ofNat 64 (x.toNat % 2 ^ lo + 2 ^ lo * (v % 2 ^ n + 2 ^ n * (x.toNat / 2 ^ (lo + n)))) := by
    have hx' : x = BitVec.ofNat 64 (x.toNat % 2 ^ lo + 2 ^ lo * (field x lo n + 2 ^ n * (x.toNat / 2 ^ (lo + n)))) := by
      rw [← hx, BitVec.ofNat_toNat, BitVec.setWidth_eq]
    rw [setField, sub_add_eq_add_sub, sub_eq_iff_eq_add]
    nth_rewrite 1 [hx']
    rw [← BitVec.ofNat_add, ← BitVec.ofNat_add]
    congr 1
    ring
  rw [hw, BitVec.toNat_ofNat, Nat.mod_eq_of_lt hlt]

theorem field_setField_same (x : Word) {lo n : Nat} (v : Nat) (h : lo + n ≤ 64) :
    field (setField x lo n v) lo n = v % 2 ^ n := by
  rw [field, setField_toNat x v h, Nat.add_mul_div_left _ _ (by positivity),
    Nat.div_eq_of_lt (Nat.mod_lt _ (by positivity)), Nat.zero_add, Nat.add_mul_mod_self_left, Nat.mod_mod]

theorem field_setField_above (x : Word) {lo n lo' : Nat} (n' v : Nat) (h : lo + n ≤ 64) (h' : lo + n ≤ lo') :
    field (setField x lo n v) lo' n' = field x lo' n' := by
  have hb : (setField x lo n v).toNat / 2 ^ (lo + n) = x.toNat / 2 ^ (lo + n) := by
    rw [setField_toNat x v h, pow_add, ← Nat.div_div_eq_div_mul, Nat.add_mul_div_left _ _ (by positivity),
      Nat.div_eq_of_lt (Nat.mod_lt _ (by positivity)), Nat.zero_add, Nat.add_mul_div_left _ _ (by positivity),
      Nat.div_eq_of_lt (Nat.mod_lt _ (by positivity)), Nat.zero_add]
  obtain ⟨m, rfl⟩ := Nat.exists_eq_add_of_le h'
  rw [field, field, pow_add 2 (lo + n), ← Nat.div_div_eq_div_mul, ← Nat.div_div_eq_div_mul, hb]

theorem field_setField_below (x : Word) {lo n lo' n' : Nat} (v : Nat) (h : lo + n ≤ 64) (h' : lo' + n' ≤ lo) :
    field (setField x lo n v) lo' n' = field x lo' n' := by
  have hlow : ∀ y : Word, field y lo' n' = y.toNat % 2 ^ lo % 2 ^ (lo' + n') / 2 ^ lo' := fun y => by
    rw [Nat.mod_mod_of_dvd _ (pow_dvd_pow 2 h'), pow_add, Nat.mod_mul_right_div_self, field]
  rw [hlow, hlow, setField_toNat x v h, Nat.add_mul_mod_self_left, Nat.mod_mod]

theorem field_lt {w : Nat} (x : BitVec w) (lo n : Nat) : field x lo n < 2 ^ n := Nat.mod_lt _ (by positivity)

/-- The register bases after a rotation (R110, R139). -/
theorem rotated_fields (b : Word) :
    field (rotated b) 0 5 = (field b 0 5 + 31) % 32 ∧ field (rotated b) 8 2 = (field b 8 2 + 3) % 4 ∧
      field (rotated b) 16 16 = (field b 16 16 + 1) % 65536 ∧ field (rotated b) 5 3 = field b 5 3 ∧
      field (rotated b) 10 6 = field b 10 6 ∧ field (rotated b) 32 32 = field b 32 32 := by
  unfold rotated
  refine ⟨?_, ?_, ?_, ?_, ?_, ?_⟩
  · rw [field_setField_below _ _ (by decide) (by decide), field_setField_below _ _ (by decide) (by decide),
      field_setField_same _ _ (by decide)]; rfl
  · rw [field_setField_below _ _ (by decide) (by decide), field_setField_same _ _ (by decide)]; rfl
  · exact field_setField_same _ _ (by decide)
  · rw [field_setField_below _ _ (by decide) (by decide), field_setField_below _ _ (by decide) (by decide),
      field_setField_above _ _ _ (by decide) (by decide)]
  · rw [field_setField_below _ _ (by decide) (by decide), field_setField_above _ _ _ (by decide) (by decide),
      field_setField_above _ _ _ (by decide) (by decide)]
  · rw [field_setField_above _ _ _ (by decide) (by decide), field_setField_above _ _ _ (by decide) (by decide),
      field_setField_above _ _ _ (by decide) (by decide)]

end Sys2Proof.Machine

/-- Settles O30: the effect read off the meaning, and the fields of the rotated bases. -/
theorem loopResult : Obligations.LoopResult := fun _ _ _ _ =>
  ⟨fun hc h => exec_issues h rfl (if_pos hc), fun hc h => exec_issues h rfl (if_neg hc), rotated_fields⟩

namespace Sys2Proof.Machine

theorem Ctx.behind_eq (x : Ctx) (ops : List (Nat × Nat)) :
    x.behind ops = if ops = [] then x else { x with state := .waiting, wait := some (.writes ops) } := by
  cases ops <;> rfl

theorem State.ctx_updMe (s : State) (f : Ctx → Ctx) (m i : Nat) :
    (s.updMe f).ctx m i = if m = s.issue.core ∧ i = s.issue.ctx then f s.me else s.ctx m i := State.ctx_updCtx ..

/-- The context that HANDBACK makes in slot `j` (R36, R37). -/
def tailCopy (s : State) (j : Nat) : Ctx :=
  let x := s.me
  let y := s.ctx s.issue.core j
  { state := .ready, launch := x.launch, lindex := x.lindex, inst := s.nextId, bank := x.bank, pc := s.issue.next
    trap := { vec := x.trap.vec }, notBefore := s.myCore.ic + 1
    tail := some { depth := 0, spawner := s.issue.ctx, deferred := false, view := none }
    flight := sharedFlight y.flight ++ ownFlight x.flight
    queue := y.queue, held := y.held, issues := y.issues, staged := y.staged, heldSeq := y.heldSeq, fresh := x.fresh
    left := some (y.inst, y.bank) }

/-- The state in which the tail stands in slot `j`, and the caller behind its own writes (R36, R37). -/
def putTail (s : State) (j : Nat) : State :=
  (({ s with nextId := s.nextId + 1 } : State).setCtx s.issue.core j ((tailCopy s j).behind s.ownWrites)).updMe
    (fun x => x.behind s.ownWrites)

/-- The frame the caller must not overwrite, where it is not empty (R40). -/
def frameHolds (s : State) (j : Nat) (l : List Hold) : List Hold :=
  if (s.me.bank.getS 63).toNat < (s.me.bank.getS 61).toNat then
    l ++ [{ slot := j, start := s.me.bank.getS 63, stop := s.me.bank.getS 61 }]
  else l

/-- The state of HANDBACK's branch to s62 where slot `j` takes the tail. -/
def spawnTail (s : State) (j : Nat) : State :=
  if (s.me.bank.getS 63).ult (s.me.bank.getS 61) then
    (putTail s j).updMe (fun x => { x with
      holds := x.holds ++ [{ slot := j, start := s.me.bank.getS 63, stop := s.me.bank.getS 61 }] })
  else putTail s j

theorem cloneTail_eq (s : State) (j : Nat) : cloneTail s j = (spawnTail s j).branchTo (s.me.bank.getS 62) := rfl

theorem spawnTail_memories (s : State) (j : Nat) : (spawnTail s j).memories = s.memories := by
  unfold spawnTail
  split <;> rfl

theorem ctx_putTail (s : State) {j : Nat} (h : j ≠ s.issue.ctx) (m i : Nat) : (putTail s j).ctx m i =
    if m = s.issue.core ∧ i = s.issue.ctx then s.me.behind s.ownWrites
    else if m = s.issue.core ∧ i = j then (tailCopy s j).behind s.ownWrites else s.ctx m i := by
  have hx : (({ s with nextId := s.nextId + 1 } : State).setCtx s.issue.core j ((tailCopy s j).behind s.ownWrites)).me
      = s.me := (State.ctx_setCtx ..).trans (if_neg (fun hh => h hh.2.symm))
  rw [putTail, State.ctx_updMe, hx]
  refine ite_congr rfl (fun _ => rfl) (fun _ => State.ctx_setCtx ..)

theorem ctx_spawnTail (s : State) {j : Nat} (h : j ≠ s.issue.ctx) (m i : Nat) : (spawnTail s j).ctx m i =
    if m = s.issue.core ∧ i = s.issue.ctx then
      ({ s.me with holds := frameHolds s j s.me.holds } : Ctx).behind s.ownWrites
    else if m = s.issue.core ∧ i = j then (tailCopy s j).behind s.ownWrites else s.ctx m i := by
  have hme : (putTail s j).me = s.me.behind s.ownWrites := (ctx_putTail s h ..).trans (if_pos ⟨rfl, rfl⟩)
  have hiss : (putTail s j).issue = s.issue := rfl
  by_cases hf : (s.me.bank.getS 63).toNat < (s.me.bank.getS 61).toNat
  · rw [spawnTail, if_pos (by simpa [BitVec.ult] using hf), State.ctx_updMe, hiss, hme, frameHolds, if_pos hf,
      ctx_putTail s h]
    split
    · cases s.ownWrites <;> rfl
    · rfl
  · rw [spawnTail, if_neg (by simpa [BitVec.ult] using hf), frameHolds, if_neg hf, ctx_putTail s h]

/-- The state of the branch of a deferred TAILEND. -/
def callerBack (s : State) (v : CallerView) : State :=
  (if s.ownWrites.isEmpty || s.issue.partner then s
    else s.updMyCore (fun c => { c with latches := [] })).updMe (fun x => ({ x with
    tail := none, inst := v.inst, rentLow := v.rentLow, escNext := v.escNext, bank := v.bank, trap := v.trap
    flight := v.flight ++ sharedFlight x.flight } : Ctx).behind s.ownWrites)

theorem resumeCaller_eq (s : State) (v : CallerView) : resumeCaller s v = (callerBack s v).branchTo (v.bank.getS 62) := rfl

theorem callerBack_memories (s : State) (v : CallerView) : (callerBack s v).memories = s.memories := by
  unfold callerBack
  split <;> rfl

theorem ctx_callerBack (s : State) (v : CallerView) (m i : Nat) : (callerBack s v).ctx m i =
    if m = s.issue.core ∧ i = s.issue.ctx then ({ s.me with
      tail := none, inst := v.inst, rentLow := v.rentLow, escNext := v.escNext, bank := v.bank, trap := v.trap
      flight := v.flight ++ sharedFlight s.me.flight } : Ctx).behind s.ownWrites
    else s.ctx m i := by
  unfold callerBack
  split
  · exact State.ctx_updMe ..
  · have hc := State.ctx_updCore_of_ctx (s := s) (k := s.issue.core) (f := fun c => { c with latches := [] }) rfl
    have hme : (s.updMyCore (fun c => { c with latches := [] })).me = s.me := hc ..
    rw [State.ctx_updMe, hme]
    exact ite_congr rfl (fun _ => rfl) (fun _ => hc m i)

theorem latches_callerBack {s : State} (h : s.ownWrites = []) (v : CallerView) (m : Nat) :
    ((callerBack s v).core m).latches = (s.core m).latches := by
  rw [callerBack, if_pos (by rw [h]; rfl)]
  exact (congrArg CoreSt.latches (State.core_updCtx_but_ctx s s.issue.core s.issue.ctx m _) :)

/-- HANDBACK once the latches are invalid and sticky state is reset: cloned or deferred (R36). -/
def handBack (u : State) : State :=
  match u.myCore.emptySlot with
  | none => deferTail u
  | some j => if u.myCore.tails.length = 3 then deferTail u else cloneTail u j

theorem handBack_clone {u : State} {j : Nat} (hj : u.myCore.emptySlot = some j) (ht : u.myCore.tails.length ≠ 3) :
    handBack u = cloneTail u j := by
  simp only [handBack, hj, if_neg ht]

theorem handBack_defer {u : State} (h : u.myCore.emptySlot = none ∨ u.myCore.tails.length = 3) :
    handBack u = deferTail u := by
  rcases h with h | h
  · simp only [handBack, h]
  · cases he : u.myCore.emptySlot <;> simp only [handBack, he, if_pos h]

theorem completes_handback (s : State) (g : BitVec 4) : Completes (.handback g) s
    (handBack ((s.updMyCore (fun c => { c with latches := [] })).updMe (fun x => { x with sticky := [] }))) :=
  fun h => exec_issues h rfl rfl

theorem completes_tailend_deferred {s : State} (g : BitVec 4) {t : Tail} {v : CallerView} (ht : s.me.tail = some t)
    (hv : t.view = some v) : Completes (.tailend g) s (resumeCaller s v) :=
  fun h => exec_issues h rfl (by simp only [ht, hv])

theorem completes_tailend_cloned {s : State} (g : BitVec 4) {t : Tail} (ht : s.me.tail = some t) (hv : t.view = none) :
    Completes (.tailend g) s ((s.updCtx s.issue.core t.spawner (fun x => { x with
      holds := x.holds.filter (fun h => h.slot != s.issue.ctx), joins := x.joins ++ s.ownWrites })).endCtx
        s.issue.core s.issue.ctx) :=
  fun h => exec_issues h rfl (by simp only [ht, hv])

end Sys2Proof.Machine

/-- Settles O31: the meanings of the three forms, and the contexts that a new tail, a deferred one and a resumed caller
leave. -/
theorem tails : Obligations.Tails := by
  constructor
  · intro s g p u
    refine ⟨fun j hj ht => ?_, fun hd => ?_, fun t v ht hv => completes_tailend_deferred g ht hv,
      fun t ht hv => completes_tailend_cloned g ht hv, fun h => exec_issues h rfl rfl⟩
    · rw [← handBack_clone hj ht]
      exact completes_handback s g
    · rw [← handBack_defer hd]
      exact completes_handback s g
  · intro s j v k i x ops waits sp fp
    have hw : ∀ y : Ctx, y.behind ops = waits y := fun y => y.behind_eq ops
    have hcaller := ctx_callerBack s v
    refine ⟨fun hj => ?_, ⟨rfl, fun m n hmn => ?_, ?_⟩,
      ⟨callerBack s v, resumeCaller_eq s v, callerBack_memories s v,
      ?_, fun ho => latches_callerBack ho v k, fun m n hmn => ?_⟩⟩
    · have hspawn := ctx_spawnTail s hj
      refine ⟨spawnTail s j, cloneTail_eq s j, spawnTail_memories s j, ?_, ?_, fun m n hmn => ?_⟩
      · rw [hspawn, if_neg (fun h => hj h.2), if_pos ⟨rfl, rfl⟩]
        exact hw _
      · rw [hspawn, if_pos ⟨rfl, rfl⟩]
        exact hw _
      · rw [hspawn, if_neg (by omega), if_neg (by omega)]
    · have hne : ¬ (m = k ∧ n = i) := by omega
      exact (State.ctx_updMe ..).trans (if_neg hne)
    · exact (State.ctx_updMe ..).trans ((if_pos ⟨rfl, rfl⟩).trans (hw _))
    · rw [hcaller, if_pos ⟨rfl, rfl⟩]
      exact hw _
    · rw [hcaller, if_neg (by omega)]

namespace Sys2Proof.Machine

/-! ## Checks that stand against nothing -/

theorem worseStall_eq_none {a b : Option Stall} (h : worseStall a b = none) : a = none ∧ b = none := by
  unfold worseStall at h
  split at h
  case h_7 => exact ⟨rfl, h⟩
  all_goals cases h

theorem worse_eq_none {a b : Option Flt} (h : worse a b = none) : a = none ∧ b = none := by
  unfold worse at h
  split at h
  · exact ⟨rfl, h⟩
  · cases h
    exact ⟨rfl, rfl⟩
  · split at h <;> cases h

theorem Chk.and_eq_clear {a b : Chk} : a.and b = {} ↔ a = {} ∧ b = {} := by
  constructor
  · intro h
    rcases a with ⟨as, af, ap, ab⟩
    rcases b with ⟨bs, bf, bp, bb⟩
    simp only [Chk.and, Chk.mk.injEq, List.append_eq_nil_iff] at h
    obtain ⟨hs, hf, ⟨rfl, rfl⟩, hb⟩ := h
    obtain ⟨rfl, rfl⟩ := worseStall_eq_none hs
    obtain ⟨rfl, rfl⟩ := worse_eq_none hf
    obtain ⟨rfl, rfl⟩ := (Option.orElse_eq_none ..).mp hb
    exact ⟨rfl, rfl⟩
  · rintro ⟨rfl, rfl⟩
    rfl

theorem faultIf_eq_clear {c : Bool} {f : Flt} : faultIf c f = {} ↔ c = false := by cases c <;> simp [faultIf]
theorem blockIf_eq_clear {c : Bool} : blockIf c = {} ↔ c = false := by cases c <;> simp [blockIf]
theorem joinTails_eq_clear {s : State} : s.joinTails = {} ↔ s.tailsDone = true := by
  unfold State.joinTails
  cases s.tailsDone <;> simp

/-- An operation that issues on its own has nothing of its own against it. -/
theorem Issues.own_clear {i : Instr} {s : State} (h : Issues i s) (hc : s.issue.checked = false) : checkOf i s = {} := by
  obtain ⟨h, hg⟩ := h
  have ho := h.resolve_left (by rw [hc]; decide)
  rw [opChk, if_pos hg] at ho
  exact (Chk.and_eq_clear.mp ho).2

theorem State.later_ctx (s : State) (es : List Instr) (m i : Nat) : (s.later es).ctx m i = s.ctx m i := rfl

theorem endCtx_state (s : State) (k j : Nat) : ((s.endCtx k j).ctx k j).state = .empty := by
  have hl : ∀ u : State, (u.updCore k (fun c => { c with latches := [] })).ctx k j = u.ctx k j :=
    fun u => State.ctx_updCore_of_ctx (f := fun c => { c with latches := [] }) rfl k j
  simp only [State.endCtx, apply_ite (fun u : State => (u.ctx k j).state), State.later_ctx, hl, ite_self,
    State.ctx_setCtx, and_self, if_true]

end Sys2Proof.Machine

/-- Settles O32: what stands against a HALT that issues is nothing, so each thing it waits for is over. -/
theorem haltEnds : Obligations.HaltEnds := by
  refine fun s g => ⟨fun h => exec_issues h rfl rfl, fun k j => ⟨endCtx_state s k j, State.endCtx_memories s k j⟩,
    fun hc hi => ?_⟩
  have hchk : haltChk s = {} := hi.own_clear hc
  simp only [haltChk, Chk.and_eq_clear, State.inGang, faultIf_eq_clear, joinTails_eq_clear, blockIf_eq_clear,
    State.tailsDone, State.tailsOver, State.unfinished, Bool.and_eq_true, Bool.or_eq_false_iff, Bool.not_eq_false',
    List.isEmpty_iff, Option.isSome_eq_false_iff, Option.isNone_iff_eq_none] at hchk
  obtain ⟨⟨⟨hgang, htail⟩, htails, -⟩, ⟨⟨hflight, hmine⟩, hheld⟩, hcmd⟩ := hchk
  exact ⟨hgang, htail, htails, hflight, hmine, hheld, hcmd⟩

namespace Sys2Proof.Machine

/-! ## Trap entry (R146) -/

/-- A context at the first bundle of its handler. -/
def Ctx.trapped (x : Ctx) (b : Saved) (f : Nat) (flt : Flt) (pc : Word) (rep grank : Nat) (other : Bool) : Ctx :=
  { x with snap := some b, sticky := [], flight := [], rep := 0, pc := x.trap.vec, notBefore := f + 3, wait := none
           undo := none, badPages := [], blocked := false, target := false
           trap := { x.trap with isIn := true, cause := flt.cause.code, pc := pc &&& ~~~7
                                 info := trapInfo flt rep grank other, addr := flt.addr, pcWritten := false } }

section
variable {s : State} {k j : Nat} (f : Nat) (flt : Flt) (pc : Word) (rep grank : Nat) (other : Bool)

/-- The state of a trap entry before the spawner's TFAULT. -/
def intoHandler (s : State) (k j f : Nat) (flt : Flt) (pc : Word) (rep grank : Nat) (other : Bool) : State :=
  (s.setCtx k j ((s.ctx k j).trapped (saveBank s k j f false pc rep) f flt pc rep grank other)).updCore k
    (fun c => { c with latches := [] })

theorem ctx_intoHandler (m i : Nat) : (intoHandler s k j f flt pc rep grank other).ctx m i =
    if m = k ∧ i = j then (s.ctx k j).trapped (saveBank s k j f false pc rep) f flt pc rep grank other
    else s.ctx m i := by
  have hl := State.ctx_updCore_of_ctx (f := fun c : CoreSt => { c with latches := [] }) (k := k)
    (s := s.setCtx k j ((s.ctx k j).trapped (saveBank s k j f false pc rep) f flt pc rep grank other)) rfl m i
  exact hl.trans (State.ctx_setCtx ..)

theorem latches_intoHandler : ((intoHandler s k j f flt pc rep grank other).core k).latches = [] := by
  rw [intoHandler, State.core_updCore, if_pos rfl]

/-- Outside a handler, with a vector and no landing to undo, a trap goes into the handler. -/
theorem enterTrap_eq (hu : (s.ctx k j).undo = none) (hin : (s.ctx k j).trap.isIn = false)
    (hv : (s.ctx k j).trap.vec ≠ 0) : enterTrap s k j f false flt pc rep grank other =
      match (s.ctx k j).tail with
      | some tl =>
          if flt.cause = .soft ∨ flt.cause = .brk then intoHandler s k j f flt pc rep grank other
          else (intoHandler s k j f flt pc rep grank other).updCtx k tl.spawner
            (fun y => { y with tfault := true, tfaultFrom := if y.tfault then y.tfaultFrom else f + 1 })
      | none => intoHandler s k j f flt pc rep grank other := by
  simp only [enterTrap, undoLandings_of_none f false hu]
  rw [if_neg (by simpa [hin] using hv)]
  rfl

end
end Sys2Proof.Machine

/-- Settles O36: the entry of the handler, and TFAULT of the spawner where a fault ends a tail's bundle. -/
theorem trapEntry : Obligations.TrapEntry := by
  intro s k j f flt pc rep grank other hu hin hv t x
  have ht := enterTrap_eq f flt pc rep grank other hu hin hv
  have hctx : ∀ m i, _ := ctx_intoHandler (s := s) (k := k) (j := j) f flt pc rep grank other
  have hlat := latches_intoHandler (s := s) (k := k) (j := j) f flt pc rep grank other
  refine ⟨enterTrap_memories .., ?_, fun hq => ?_, fun tl htl hs hb => ?_⟩
  · have hupd : ∀ i g, (((intoHandler s k j f flt pc rep grank other).updCtx k i g).core k).latches = [] := fun i g =>
      (congrArg CoreSt.latches (State.core_updCtx_but_ctx _ k i k g) :).trans hlat
    show ((enterTrap s k j f false flt pc rep grank other).core k).latches = []
    rw [ht]
    split
    · split
      · exact hlat
      · exact hupd ..
    · exact hlat
  · have he : t = intoHandler s k j f flt pc rep grank other := by
      refine ht.trans ?_
      cases htl : (s.ctx k j).tail with
      | none => rfl
      | some tl => exact if_pos (hq.resolve_left (fun hn => nomatch htl.symm.trans hn))
    rw [he]
    refine ⟨(hctx ..).trans (if_pos ⟨rfl, rfl⟩), fun m n hmn => (hctx ..).trans (if_neg (by omega))⟩
  · have he : t = (intoHandler s k j f flt pc rep grank other).updCtx k tl.spawner
        (fun y => { y with tfault := true, tfaultFrom := if y.tfault then y.tfaultFrom else f + 1 }) := by
      refine ht.trans ?_
      rw [show (s.ctx k j).tail = some tl from htl]
      exact if_neg (not_or.mpr ⟨hs, hb⟩)
    have htf : ((intoHandler s k j f flt pc rep grank other).ctx k tl.spawner).tfault = (s.ctx k tl.spawner).tfault := by
      rw [hctx]
      split
      · next h => rw [h.2]; rfl
      · rfl
    have hjj := (hctx k j).trans (if_pos ⟨rfl, rfl⟩)
    rw [he]
    simp only [State.ctx_updCtx, true_and, if_true]
    refine ⟨fun hf => ?_, ?_⟩
    · rw [htf, hf]; rfl
    · split
      · next h => rw [← h, hjj]; exact ⟨rfl, rfl, rfl, rfl⟩
      · rw [hjj]; exact ⟨rfl, rfl, rfl, rfl⟩

namespace Sys2Proof.Machine

/-- Each member leaves the gang at the same next bundle: a member's leaving does not move it. -/
theorem leaveGang_foldl (n : Word) : ∀ (ms : List Nat) (s : State), s.issue.next = n →
    ms.foldl (fun s m => leaveGang s m s.issue.next) s = ms.foldl (fun t m => leaveGang t m n) s
  | [], _, _ => rfl
  | m :: ms, s, h => by
      rw [List.foldl_cons, List.foldl_cons, h]
      exact leaveGang_foldl n ms (leaveGang s m n) h

end Sys2Proof.Machine

/-- Settles O33: the effects of the meanings, by whether DECOUPLE ends the gang. -/
theorem gangControl : Obligations.GangControl := by
  refine fun s g n => ⟨fun h => exec_issues h rfl rfl, fun h => exec_issues h rfl rfl, fun hl ha h => ?_, fun hn h => ?_⟩
  · have hall : (s.isLead && (s.gangOf s.issue.core).all (fun m => ((s.ctx m 0).bank.getP g.toNat).getLsbD 0)) = true := by
      rw [hl, ha]
      rfl
    exact exec_issues h rfl ((if_pos hall).trans (leaveGang_foldl s.issue.next _ s rfl))
  · refine exec_issues h rfl (if_neg ?_)
    rw [Bool.and_eq_true]
    rintro ⟨hl, ha⟩
    rcases hn with hn | hn
    · exact absurd (hn.symm.trans hl) (by decide)
    · exact absurd (hn.symm.trans ha) (by decide)

/-- Settles O35: the three branches of TRAP's meaning. -/
theorem softwareTrapGang : Obligations.SoftwareTrapGang := by
  refine fun s g a => ⟨fun hl h => exec_issues h rfl (if_pos hl), fun hl hs h => ?_, fun hl hs h => ?_⟩
  · exact exec_issues h rfl ((if_neg (by rw [hl]; decide)).trans (if_pos hs))
  · exact exec_issues h rfl ((if_neg (by rw [hl]; decide)).trans (if_neg (by rw [hs]; decide)))

namespace Sys2Proof.Machine

/-! ## ERET (R148) -/

section
variable {s : State} {k j : Nat} {b : Saved}

/-- The registers of a context back from its handler: the random state is the snapshot's (R148). -/
def Ctx.backBank (x : Ctx) (b : Saved) : Bank :=
  { x.bank with fpflags := setField x.bank.fpflags 32 32 b.srstate.toNat }

/-- The context back at TRAPPC with registers `r`, before the snapshot's flights go on. -/
def Ctx.returned (x : Ctx) (ic : Nat) (b : Saved) (r : Bank) : Ctx :=
  { x with snap := none, trap := { x.trap with isIn := false }, pc := x.trap.pc
           sticky := if x.trap.pcWritten then [] else b.sticky, rep := if x.trap.pcWritten then 0 else b.rep
           notBefore := ic + 3, target := true, bpSkip := !x.trap.pcWritten && x.trap.cause == 11
           bank := r }

theorem Ctx.returned_flight (x : Ctx) (ic : Nat) (r : Bank) : (x.returned ic b r).flight = x.flight := rfl

theorem returnFromTrap_eq (h : (s.ctx k j).snap = some b) : returnFromTrap s k j =
    replay (s.setCtx k j ((s.ctx k j).returned (s.core k).ic b ((s.ctx k j).backBank b)))
      k j ((s.core k).ic + 3) b (!s.issue.partner) := by
  have h' : ((s.core k).slot j).snap = some b := h
  simp only [returnFromTrap, h']
  rfl

theorem ctx_replay (f : Nat) (latches : Bool) : (replay s k j f b latches).ctx k j =
    { s.ctx k j with flight := (s.ctx k j).flight ++ absFlight f b.flight } := by
  have hx : (s.updCtx k j (fun x => { x with flight := x.flight ++ absFlight f b.flight })).ctx k j =
      { s.ctx k j with flight := (s.ctx k j).flight ++ absFlight f b.flight } :=
    (State.ctx_updCtx ..).trans (if_pos ⟨rfl, rfl⟩)
  cases latches
  · exact hx
  · exact (State.ctx_updCore_of_ctx (s := s.updCtx k j _) (f := fun c => { c with
      latches := b.latches
      note := c.note.map (fun n => { n with
        latches := b.latches, entered := n.entered.filter (fun p => !p.2.isLatch) }) }) rfl k j).trans hx

theorem latches_replay (f : Nat) (latches : Bool) : ((replay s k j f b latches).core k).latches =
    if latches then b.latches else (s.core k).latches := by
  unfold replay
  cases latches
  · exact (congrArg CoreSt.latches (State.core_updCtx_but_ctx s k j k
      (fun x => { x with flight := x.flight ++ absFlight f b.flight })) :)
  · rw [if_pos rfl, State.core_updCore, if_pos rfl]
    rfl

theorem ctx_returnFromTrap (h : (s.ctx k j).snap = some b) : (returnFromTrap s k j).ctx k j =
    { (s.ctx k j).returned (s.core k).ic b ((s.ctx k j).backBank b) with
      flight := (s.ctx k j).flight ++ absFlight ((s.core k).ic + 3) b.flight } := by
  have hx : (s.setCtx k j ((s.ctx k j).returned (s.core k).ic b ((s.ctx k j).backBank b))).ctx k j =
      (s.ctx k j).returned (s.core k).ic b ((s.ctx k j).backBank b) :=
    (State.ctx_setCtx ..).trans (if_pos ⟨rfl, rfl⟩)
  rw [returnFromTrap_eq h, ctx_replay, hx, (s.ctx k j).returned_flight]

theorem latches_returnFromTrap (h : (s.ctx k j).snap = some b) : ((returnFromTrap s k j).core k).latches =
    if s.issue.partner then (s.core k).latches else b.latches := by
  rw [returnFromTrap_eq h, latches_replay, State.core_setCtx, if_pos rfl]
  cases s.issue.partner <;> rfl

end

/-- An operation that only waits to drain counts a drain cycle (R104, R115). -/
theorem issueOp_drain {i : Instr} {c : State → Chk} {eff : State → State} {s : State}
    (h : s.issue.checked = false) (hb : baseChk i s = {}) (hg : s.guardOn i = true) (hc : c s = { stall := some .safe }) :
    issueOp i c eff s = .next (s.countFreeze s.issue.core 16) := by
  have ho : opChk i c s = { stall := some .safe } := by rw [opChk, hb, hg, if_pos rfl, hc]; rfl
  simp only [issueOp, h, settle, ho, State.stall, Bool.false_eq_true, if_false]

end Sys2Proof.Machine

theorem completes_eret_good {s : State} (g : BitVec 4)
    (h : (returnFromTrap s s.issue.core s.issue.ctx).isLead = false ∨
      badTarget (returnFromTrap s s.issue.core s.issue.ctx) s.issue.core s.issue.ctx
        ((returnFromTrap s s.issue.core s.issue.ctx).ctx s.issue.core s.issue.ctx).pc = false) :
    Completes (.eret g) s (returnFromTrap s s.issue.core s.issue.ctx) := by
  refine fun hi => exec_issues hi rfl (if_neg ?_)
  rw [Bool.and_eq_true]
  rintro ⟨hl, hb⟩
  rcases h with hn | hn
  · exact absurd (hn.symm.trans hl) (by decide)
  · exact absurd (hn.symm.trans hb) (by decide)

theorem completes_eret_bad {s : State} (g : BitVec 4) (hl : (returnFromTrap s s.issue.core s.issue.ctx).isLead = true)
    (hb : badTarget (returnFromTrap s s.issue.core s.issue.ctx) s.issue.core s.issue.ctx
      ((returnFromTrap s s.issue.core s.issue.ctx).ctx s.issue.core s.issue.ctx).pc = true) :
    Completes (.eret g) s ((returnFromTrap s s.issue.core s.issue.ctx).trap s.issue.core s.issue.ctx true
      (returnFromTrap s s.issue.core s.issue.ctx).issue.partner
      ((returnFromTrap s s.issue.core s.issue.ctx).flt .target
        ((returnFromTrap s s.issue.core s.issue.ctx).ctx s.issue.core s.issue.ctx).pc)
      ((returnFromTrap s s.issue.core s.issue.ctx).ctx s.issue.core s.issue.ctx).pc 0) :=
  fun hi => exec_issues hi rfl (if_pos (by rw [Bool.and_eq_true]; exact ⟨hl, hb⟩))

theorem exec_eret_illegal {s : State} (g : BitVec 4) (hu : s.issue.checked = false) (hk : isHitik s.issue.core = false)
    (hg : (s.pred g).getLsbD 0 = true) (hin : s.me.trap.isIn = false) : exec (.eret g) s = .next (s.raise s.illegal) := by
  refine issueOp_own_fault (c := eretChk) hu (baseChk_clear rfl hk rfl) (guardOn_of_pred rfl hg) ?_
  rw [eretChk, hin]; rfl

theorem exec_eret_drain {s : State} (g : BitVec 4) (hu : s.issue.checked = false) (hk : isHitik s.issue.core = false)
    (hg : (s.pred g).getLsbD 0 = true) (hin : s.me.trap.isIn = true) (hw : s.me.flight ≠ [] ∨ s.me.mine ≠ []) :
    exec (.eret g) s = .next (s.countFreeze s.issue.core 16) := by
  refine issueOp_drain (c := eretChk) hu (baseChk_clear rfl hk rfl) (guardOn_of_pred rfl hg) ?_
  rw [eretChk, hin, if_neg (by decide), if_pos (by simpa [List.isEmpty_iff] using hw)]

/-- Settles O38: ERET's meaning, its two checks, and the context and the latches after the replay. -/
theorem trapReturn : Obligations.TrapReturn := by
  intro s g k j u
  refine ⟨completes_eret_good g, completes_eret_bad g, exec_eret_illegal g, exec_eret_drain g, fun k j b hb => ?_⟩
  · have hx := ctx_returnFromTrap hb
    exact ⟨(congrArg Ctx.pc hx :), (congrArg Ctx.target hx :), (congrArg Ctx.trap hx :), (congrArg Ctx.snap hx :),
      (congrArg Ctx.notBefore hx :), (congrArg Ctx.sticky hx :), (congrArg Ctx.rep hx :), (congrArg Ctx.flight hx :),
      latches_returnFromTrap hb, (congrArg Ctx.bank hx :)⟩

/-- Settles O39: the codes by evaluation; which fault of two is reported is the definition's own condition. -/
theorem causeCodes : Obligations.CauseCodes :=
  ⟨by decide, fun _ _ => rfl, by decide, by decide, by decide, by decide, by decide, by decide, by decide, by decide,
    by decide, by decide, by decide⟩

namespace Sys2Proof.Machine

/-- Every instruction's meaning has one frame, with the checks that belong to it. -/
theorem exec_eq_issueOp {i : Instr} (h : i.isEvent = false) : ∃ eff, ∀ s, exec i s = issueOp i (checkOf i) eff s := by
  cases i with
  | st | vst | vstx | arrive | vacate | handover | nop | add | sub | mul | mulh | div | rem | and | or | xor | shl |
    shr | rot | min | max | clz | popc | sel | cmp | li | lea | ld | mfs | mts | br | bri | call | calli | ret |
    handback | tailend | jointail | loop | trap | eret | halt | fuse | decouple | rejoin | rent | renew | prepay |
    sublet | lease | barinit | barbase | wait | watch | fence | vadd | vsub | vmul | vfma | vmin | vmax | vabs | vand
    | vor | vxor | vshl | vshr | vcmp | vsel | vmov | vcvt | vblkmax | vscale | vquant | vrsqe | vrcpe | vexp2 | vlog2
    | vredsum | vredmax | vperm | vrot | vidx | vtopk | vdot4 | vmulh | vclamp | vrnd | vclass | vpack | vunpack |
    pand | por | pxor | pcnt | vld | vldx | tld | tst | trd | twr | ttr | tmask | trmax | trsum | texp | trscl | tcvt
    | twait | tzero | mma | mmag | accdef | accz | accld | accmv | accst | accscl | accbias | ringset | ringq | xcopy
    | xgather | xscatter | xacc | xfetch | xcas | xfill | xexpand | xsignal | xorder | kvalloc | kvfree | kvshare |
    kvappend | kvcommit | kvget | kvsum | xcoll => exact ⟨_, fun _ => rfl⟩
  | _ => cases h

theorem State.report_cores (s : State) (r : Option (Nat × Nat × Nat)) : (s.report r).cores = s.cores := by
  cases r with
  | none => rfl
  | some r =>
      obtain ⟨t, f, u⟩ := r
      simp only [State.report, State.hevent]
      split <;> rfl

theorem State.report_issue (s : State) (r : Option (Nat × Nat × Nat)) : (s.report r).issue = s.issue := by
  cases r with
  | none => rfl
  | some r =>
      obtain ⟨t, f, u⟩ := r
      simp only [State.report, State.hevent]
      split <;> rfl

/-- A state after what a fault has counted and reported (R307, R330). -/
def State.noted (s : State) (f : Flt) : State :=
  (match f.ue with
    | some a => s.countUe a
    | none => s).report f.report

theorem State.noted_core (s : State) (f : Flt) (k : Nat) : (s.noted f).core k = s.core k := by
  have h : (s.noted f).cores = s.cores := by
    rw [State.noted, State.report_cores]
    cases f.ue <;> rfl
  simp only [State.core, h]

/-- Outside a gang a fault is counted and reported, and its own context traps at the header (R121, R146). -/
theorem raise_of_no_gang {s : State} (hg : s.myCore.gang = none) (f : Flt) : s.raise f =
    enterTrap (s.noted f) s.issue.core s.issue.ctx s.myCore.ic s.issue.partner f s.issue.hdr s.issue.rep := by
  have hc := s.noted_core f s.issue.core
  cases hue : f.ue with
  | none | some a =>
      simp only [State.noted, hue] at hc
      simp only [State.raise, State.trap, State.noted, hue, hc, show (s.core s.issue.core).gang = none from hg]
      rfl

end Sys2Proof.Machine

/-- Settles O40: the frame of every meaning raises the fault, and outside a gang that is a trap at the header. -/
theorem faultCancels : Obligations.FaultCancels := by
  intro i s f he hu hg hs hf u
  obtain ⟨eff, hi⟩ := exec_eq_issueOp he
  rw [hi, issueOp_fault hu hs hf, raise_of_no_gang hg]
  rfl

end

section
/-!
PROOFS. Rented storage (R48 to R66, R218, R219): the rent forms, what a RENT takes, what the end of a lease leaves, and the
events of the rent clock.
-/
namespace Sys2Proof.Machine

/-! ## The rent forms (R54 to R62, R218, R219) -/

/-- What a rent form on a region does once it issues, where its address names region `r`. -/
theorem completes_own {i : Instr} {a : Sel} {go : State → Region → State} {s : State} {r : Region}
    (he : exec i s = issueOp i (checkOf i) (fun s => s.withOwn a (go s)) s)
    (hr : s.ownAt s.whoMe (s.src a).toNat = .own r) : Completes i s (go s r) := fun h => by
  refine exec_issues h he ?_
  simp only [State.withOwn, hr]

theorem canPay_eq_false {s : State} {l c : Nat} : s.canPay l c = false ↔ 2 ^ 64 ≤ c ∨ s.purse l < c := by
  simp only [State.canPay, Bool.and_eq_false_iff, decide_eq_false_iff_not]
  omega

theorem canPay_eq_true {s : State} {l c : Nat} : s.canPay l c = true ↔ c < 2 ^ 64 ∧ c ≤ s.purse l := by
  simp only [State.canPay, Bool.and_eq_true, decide_eq_true_eq]

section
variable {s : State} {r : Region} {n : Nat}

theorem renewEffect_limit (h : n = 0 ∨ 2 ^ 40 < n ∨ lastTick < r.until_ + n) : renewEffect s r n = (s, 4, 0) := if_pos h

theorem renewEffect_purse (h : ¬ (n = 0 ∨ 2 ^ 40 < n ∨ lastTick < r.until_ + n))
    (hp : s.canPay r.owner (s.charge r.tier r.len n) = false) : renewEffect s r n = (s, 1, 0) :=
  (if_neg h).trans (if_pos (by rw [hp]; rfl))

theorem renewEffect_paid (h : ¬ (n = 0 ∨ 2 ^ 40 < n ∨ lastTick < r.until_ + n))
    (hp : s.canPay r.owner (s.charge r.tier r.len n) = true) : renewEffect s r n =
      ((s.updRegion r.id (fun x => { x with until_ := x.until_ + n, rlow := false })).pay r.owner (s.charge r.tier r.len n),
        0, r.until_ + n) :=
  (if_neg h).trans (if_neg (by rw [hp]; decide))

end

/-- What a SUBLET of region `r` does once it issues. -/
def subletTo (l : Bool) (gr d : BitVec 6) (p : BitVec 3) (a b c : Sel) (s : State) (r : Region) : State :=
  let w := s.me.bank.getS gr.toNat
  match subletStatus s r l (s.src a).toNat (s.src b).toNat (s.src c).toNat w, s.granteeOf r l w with
  | 0, some x =>
      ((s.updRegion r.id (fun y => { y with subs := y.subs ++
        [{ base := (s.src a).toNat, len := (s.src b).toNat, until_ := (s.src c).toNat, grantee := x, toLaunch := l }]
          })).land 4
        [.sublet r.id (s.src a).toNat (s.src b).toNat (s.src c).toNat x l]).landRent 4 d p 0 (s.src a).toNat
  | _, _ => s.landRent 4 d p (subletStatus s r l (s.src a).toNat (s.src b).toNat (s.src c).toNat w) 0

/-- What a HANDOVER of region `r` does once it issues. -/
def handOver (d : BitVec 6) (p : BitVec 3) (a b : Sel) (s : State) (r : Region) : State :=
  match handoverStatus s s.me.quiet r (s.src b) with
  | some (st, some l) => (passRegion s r l).landRent 1 d p st 0
  | some (st, none) => s.landRent 1 d p st 0
  | none => waitHandover s r (s.src b) (s.src a) d p

section
variable {s : State} {r : Region} {a b c : Sel} (g : BitVec 4) (l : Bool) (gr d : BitVec 6) (p : BitVec 3)
  (hr : s.ownAt s.whoMe (s.src a).toNat = .own r)
include hr

theorem completes_renew : Completes (.renew g d p a b) s
    ((renewEffect s r (s.src b).toNat).1.landRent 4 d p (renewEffect s r (s.src b).toNat).2.1
      (renewEffect s r (s.src b).toNat).2.2) :=
  completes_own (go := fun s r => (renewEffect s r (s.src b).toNat).1.landRent 4 d p (renewEffect s r (s.src b).toNat).2.1
      (renewEffect s r (s.src b).toNat).2.2) rfl hr

theorem completes_sublet : Completes (.sublet g l gr d p a b c) s (subletTo l gr d p a b c s r) :=
  completes_own (go := subletTo l gr d p a b c) rfl hr

theorem completes_handover : Completes (.handover g d p a b) s (handOver d p a b s r) :=
  completes_own (go := handOver d p a b) rfl hr

end

section
variable {s : State} {r : Region} {l : Bool} {gr : BitVec 6} (d : BitVec 6) (p : BitVec 3) {a b c : Sel}

theorem subletTo_refused
    (h : subletStatus s r l (s.src a).toNat (s.src b).toNat (s.src c).toNat (s.me.bank.getS gr.toNat) ≠ 0) :
    subletTo l gr d p a b c s r = s.landRent 4 d p
      (subletStatus s r l (s.src a).toNat (s.src b).toNat (s.src c).toNat (s.me.bank.getS gr.toNat)) 0 := by
  unfold subletTo
  dsimp only
  split
  · next h0 _ => exact absurd h0 h
  · rfl

theorem subletTo_granted {x : Nat}
    (h : subletStatus s r l (s.src a).toNat (s.src b).toNat (s.src c).toNat (s.me.bank.getS gr.toNat) = 0)
    (hx : s.granteeOf r l (s.me.bank.getS gr.toNat) = some x) : subletTo l gr d p a b c s r =
      ((s.updRegion r.id (fun y => { y with subs := y.subs ++
        [{ base := (s.src a).toNat, len := (s.src b).toNat, until_ := (s.src c).toNat, grantee := x, toLaunch := l }]
          })).land 4
        [.sublet r.id (s.src a).toNat (s.src b).toNat (s.src c).toNat x l]).landRent 4 d p 0 (s.src a).toNat := by
  simp only [subletTo, h, hx]

end

theorem completes_rent (s : State) (g : BitVec 4) (tier kind sp : BitVec 2) (ls rlt : Bool) (d : BitVec 6) (p : BitVec 3)
    (a b c : Sel) :
    let e := rentEffect s tier.toNat kind.toNat ls rlt sp.toNat (s.src a).toNat (s.src b).toNat (s.src c)
    Completes (.rent g tier kind ls rlt sp d p a b c) s (e.1.landRent 4 d p e.2.1 e.2.2) :=
  fun h => exec_issues h rfl rfl

end Sys2Proof.Machine
open Sys2Proof Sys2Proof.Machine

/-- Settles O41: each form is its meaning at the region the address names, by the case its status gives. -/
theorem rentForms : Obligations.RentForms := by
  intro s g d p a b c n a0
  refine ⟨fun tier kind sp ls rlt => completes_rent s g tier kind sp ls rlt d p a b c, fun _ _ _ => rfl,
    fun w hw h => ?_, fun r hr => ⟨⟨fun hl => ?_, fun hl hp => ?_, fun hl hp => ?_⟩, ?_, fun l gr => ⟨fun hs => ?_,
      fun x hs hx => ?_⟩, ⟨?_, ?_⟩, fun st l hst => ?_, fun st hst => ?_, fun hst => ?_⟩⟩
  · exact exec_issues h rfl (congrArg (s.landS 4 d) (by rw [hw]; rfl))
  · have hr' := completes_renew (b := b) g d p hr
    rwa [renewEffect_limit hl] at hr'
  · have hr' := completes_renew (b := b) g d p hr
    rwa [renewEffect_purse hl (canPay_eq_false.mpr hp)] at hr'
  · have hr' := completes_renew (b := b) g d p hr
    have hpay : s.canPay r.owner (s.charge r.tier r.len n) = true := by
      rw [← Bool.not_eq_false, canPay_eq_false]
      exact hp
    rwa [renewEffect_paid hl hpay] at hr'
  · exact completes_own (go := fun s r =>
      (prepayEffect s r (field (s.src b) 0 32) (field (s.src b) 32 32) (s.src c).toNat).1.landRent 4 d p
        (prepayEffect s r (field (s.src b) 0 32) (field (s.src b) 32 32) (s.src c).toNat).2 0) rfl hr
  · rw [← subletTo_refused d p hs]
    exact completes_sublet g l gr d p hr
  · rw [← subletTo_granted d p hs hx]
    exact completes_sublet g l gr d p hr
  · exact completes_own (go := fun s r => ((endRegion s r).updLaunch r.owner (fun l => { l with
      purse := l.purse + s.refundOf r })).landS 4 d (BitVec.ofNat 64 (s.refundOf r))) rfl hr
  · exact completes_own (i := .vacate g true d a) (go := fun s r =>
      ((r.subs.filter (fun u => u.base == (s.src a).toNat)).foldl (fun s u => endSublet s r u) s).landS 4 d 0) rfl hr
  · have hh := completes_handover (b := b) g d p hr
    simpa only [handOver, hst] using hh
  · have hh := completes_handover (b := b) g d p hr
    simpa only [handOver, hst] using hh
  · have hh := completes_handover (b := b) g d p hr
    simpa only [handOver, hst] using hh

namespace Sys2Proof.Machine

/-! ## RENT (R48, R51, R55) -/

/-- Finding granules for a region consumes choices, and moves the next base: nothing else changes. -/
def Chooses (s t : State) : Prop := ∃ o v, t = { s with oracle := o, nextVa := v }

namespace Chooses

theorem refl (s : State) : Chooses s s := ⟨s.oracle, s.nextVa, rfl⟩

theorem trans {s t u : State} (h : Chooses s t) (h' : Chooses t u) : Chooses s u := by
  obtain ⟨o, v, rfl⟩ := h
  obtain ⟨o', v', rfl⟩ := h'
  exact ⟨o', v', rfl⟩

theorem choose (s : State) (d : Nat) : Chooses s (s.choose d).1 := by
  unfold State.choose
  cases s.oracle with
  | nil => exact refl s
  | cons x r => exact ⟨r, s.nextVa, rfl⟩

theorem findRun (s : State) (f tier k n : Nat) : Chooses s (s.findRun f tier k n).1 := by
  simp only [State.findRun]
  split
  · exact refl s
  · exact choose ..

theorem foldl {α β : Type} (g : State × β → α → State × β) (h : ∀ a x, Chooses a.1 (g a x).1) :
    ∀ (l : List α) (a : State × β), Chooses a.1 (l.foldl g a).1
  | [], a => refl a.1
  | x :: l, a => (h a x).trans (foldl g h l _)

theorem findRuns (s : State) (f tier n : Nat) (cores : List Nat) : Chooses s (s.findRuns f tier n cores).1 := by
  refine foldl _ (fun a c => ?_) _ _
  dsimp only
  split
  · exact refl _
  · split
    · exact refl _
    · exact findRun ..

theorem rentRuns (s : State) (f tier n home spread : Nat) : Chooses s (Machine.rentRuns s f tier n home spread).1 := by
  unfold Machine.rentRuns
  split
  · exact refl s
  · split
    · exact findRuns ..
    · split
      · exact findRuns ..
      · exact refl s

theorem newBase (s : State) (l tier n dpa : Nat) : Chooses s (s.newBase l tier n dpa).1 := by
  unfold State.newBase
  split
  · exact choose ..
  · exact (choose s s.nextVa).trans ⟨_, _, rfl⟩

end Chooses

theorem purse_pay (s : State) (l c : Nat) : (s.pay l c).purse l = s.purse l - c := by
  have hf : (s.pay l c).launch? l = (s.launch? l).map (fun x => { x with purse := x.purse - c }) := by
    simp only [State.pay, State.updLaunch, State.launch?, List.find?_map]
    have hid : ((fun x : Launch => x.id == l) ∘ fun x => if x.id == l then { x with purse := x.purse - c } else x) =
        fun x => x.id == l := by
      funext x
      simp only [Function.comp]
      split <;> rfl
    rw [hid]
    cases hl : s.launches.find? (fun x => x.id == l) with
    | none => rfl
    | some x =>
      have hx := List.find?_some hl
      simp only [Option.map_some, hx, if_true]
  simp only [State.purse, hf]
  cases s.launch? l with
  | none => exact (Nat.zero_sub c).symm
  | some x => rfl

/-- A RENT that fails changes nothing; one that succeeds draws its charge, and adds a region (R55). -/
theorem rentEffect_cases (s : State) (tier kind : Nat) (ls rlt : Bool) (sp bytes ticks : Nat) (c : Word) :
    (∃ st, st ≠ 0 ∧ rentEffect s tier kind ls rlt sp bytes ticks c = (s, st, 0)) ∨
    s.canPay s.me.launch (s.charge tier bytes ticks) = true ∧ ∃ (home : Nat) (u v : State) (runs : List Nat) (base : Nat)
        (ended : List Ended), Chooses s u ∧ Chooses u v ∧
      rentEffect s tier kind ls rlt sp bytes ticks c = (({ v with
        regions := v.regions ++ [{
          id := v.nextId, fn := s.fnOf s.me.launch, owner := s.me.launch, renter := v.me.lindex,
          renterLaunch := s.me.launch, renterAt := (s.issue.core, v.issue.ctx), renterInst := v.me.inst,
          launchScope := ls, base := base,
          len := (bytes + Config.granule tier - 1) / Config.granule tier * Config.granule tier, tier := tier,
          home := home, kind := kind, until_ := v.now + ticks, rltrap := rlt,
          pieces := piecesOf tier ((bytes + Config.granule tier - 1) / Config.granule tier) runs,
          gpa := v.newGpa (s.fnOf s.me.launch) tier }],
        nextId := v.nextId + 1, ended := ended } : State).pay s.me.launch (s.charge tier bytes ticks), 0, base) := by
  unfold rentEffect
  dsimp only
  split
  · exact .inl ⟨4, by decide, rfl⟩
  split
  · exact .inl ⟨4, by decide, rfl⟩
  split
  · exact .inl ⟨3, by decide, rfl⟩
  split
  · exact .inl ⟨1, by decide, rfl⟩
  next home _ _ _ hpay =>
  split
  · exact .inl ⟨2, by decide, rfl⟩
  next u runs hruns =>
  refine .inr ⟨by simpa using hpay, home, u, _, runs, _, _, ?_, Chooses.newBase u s.me.launch tier
    ((bytes + Config.granule tier - 1) / Config.granule tier * Config.granule tier) (runs.headD 0), rfl⟩
  have hc := Chooses.rentRuns s (s.fnOf s.me.launch) tier ((bytes + Config.granule tier - 1) / Config.granule tier) home sp
  rwa [hruns] at hc

end Sys2Proof.Machine

/-- Settles O42: the two ways a RENT ends. -/
theorem rentEffect : Obligations.RentEffect := by
  intro s tier kind sp bytes ticks ls rlt c e g cost l
  obtain ⟨st, hst, he⟩ | ⟨hpay, home, u, v, runs, base, ended, hu, hv, he⟩ :=
    rentEffect_cases s tier kind ls rlt sp bytes ticks c
  · have he' : e = (s, st, 0) := he
    rw [he']
    exact ⟨fun _ => ⟨rfl, rfl⟩, fun h => absurd h hst⟩
  · obtain ⟨o, n, rfl⟩ := hu.trans hv
    have he' : e = _ := he
    rw [he']
    obtain ⟨hlt, hle⟩ := canPay_eq_true.mp hpay
    refine ⟨fun h => absurd rfl h, fun _ => ⟨hlt, hle, purse_pay _ _ _, rfl, rfl, _, rfl, rfl, rfl, rfl, rfl, rfl, rfl, rfl,
      rfl, rfl, rfl, rfl, rfl, rfl, rfl⟩⟩

namespace Sys2Proof.Machine

/-! ## The rent clock (R57, R58, R63) -/

section
variable {s : State} {n : Nat} {r : Region} (hr : s.region? n = some r)
include hr

/-- PREPAY_RENEWAL of a region with an order (R57). -/
theorem exec_prepayRenewal {o : Prepay} (ho : r.prepay = some o) : exec (.prepayRenewal n) s = .next (
    if o.margin ≤ r.until_ - s.now then s
    else if s.canPay r.owner (s.charge r.tier r.len o.step) && s.charge r.tier r.len o.step ≤ o.ceiling
        && r.until_ + o.step ≤ lastTick then
      (s.updRegion n (fun x => { x with
        until_ := x.until_ + o.step, prepay := some { o with ceiling := o.ceiling - s.charge r.tier r.len o.step } })).pay
        r.owner (s.charge r.tier r.len o.step)
    else rentLow (s.updRegion n (fun x => { x with prepay := none })) r) := by
  show execPrepayRenewal n s = _
  simp only [execPrepayRenewal, hr, ho]

/-- RENT_LOW_EVENT of a region (R58). -/
theorem exec_rentLowEvent : exec (.rentLowEvent n) s = .next (
    if r.prepay.isNone && !r.rlow && r.until_ - s.now < s.rlowm then rentLow s r else s) := by
  show execRentLowEvent n s = _
  simp only [execRentLowEvent, hr]

/-- LEASE_EXPIRY of a region or of one of its sublets (R63). -/
theorem exec_leaseExpiry (hn : n < 2 ^ 40) (sub : Option Nat) : exec (.leaseExpiry n sub) s = .next (
    match sub with
    | none => if r.until_ ≤ s.now then endRegion s r else s
    | some i => match r.subs[i]? with
      | some u => if u.until_ ≤ s.now then endSublet s r u else s
      | none => s) := by
  show execLeaseExpiry n sub s = _
  rw [execLeaseExpiry, if_neg (Nat.not_le.mpr hn), hr] <;> rfl

end

end Sys2Proof.Machine

/-- Settles O44: each event is its meaning at the region it names, in the case its condition gives. -/
theorem rentClock : Obligations.RentClock := by
  intro s n
  refine ⟨fun r o hr ho => ?_, fun r hr => ⟨fun hp hl hm => ?_, fun h => ?_, fun hn => exec_leaseExpiry hr hn none,
    fun hn i u hu => ?_⟩, fun _ _ => rfl, rfl, fun _ _ => rfl⟩
  · intro cost fits
    have hfits : (s.canPay r.owner cost && cost ≤ o.ceiling && r.until_ + o.step ≤ lastTick) = true ↔ fits := by
      simp only [Bool.and_eq_true, canPay_eq_true, decide_eq_true_eq, and_assoc]
      rfl
    rw [exec_prepayRenewal hr ho]
    refine ⟨fun hm => congrArg _ (if_pos hm), fun hm hf => ?_, fun hm hf => ?_⟩
    · exact congrArg _ ((if_neg (Nat.not_le.mpr hm)).trans (if_pos (hfits.mpr hf)))
    · exact congrArg _ ((if_neg (Nat.not_le.mpr hm)).trans (if_neg (fun h => hf (hfits.mp h))))
  · rw [exec_rentLowEvent hr]
    exact congrArg _ (if_pos (by simp [hp, hl, hm]))
  · rw [exec_rentLowEvent hr]
    refine congrArg _ (if_neg ?_)
    simp only [Bool.and_eq_true, Option.isNone_iff_eq_none, Bool.not_eq_true', decide_eq_true_eq]
    rintro ⟨⟨hp, hl⟩, hm⟩
    rcases h with h | h | h
    · exact h hp
    · rw [hl] at h; cases h
    · omega
  · rw [exec_leaseExpiry hr hn]
    simp only [hu]

namespace Sys2Proof.Machine

/-! ## What the end of a lease leaves of the regions, the launches and the accesses that wait -/

/-- The regions and launches of a state, and the accesses of other packages that wait. -/
def State.standing (s : State) : List Region × List Launch × List PodWait := (s.regions, s.launches, s.asks)

theorem foldl_standing {α : Type} {g : State → α → State} (h : ∀ s x, (g s x).standing = s.standing) :
    ∀ (l : List α) (s : State), (l.foldl g s).standing = s.standing
  | [], _ => rfl
  | x :: l, s => (foldl_standing h l _).trans (h s x)

theorem ite_standing {c : Prop} [Decidable c] {a b s : State} (ha : a.standing = s.standing) (hb : b.standing = s.standing) :
    (if c then a else b).standing = s.standing := by
  split
  · exact ha
  · exact hb

theorem correct_standing (s : State) (u : Nat) : (s.correct u).standing = s.standing := ite_standing rfl rfl

theorem writeUnit_standing (s : State) (a : Nat) (bs : List Byte) : (s.writeUnit a bs).standing = s.standing :=
  ite_standing rfl (ite_standing (c := bs.length < 64) (correct_standing s _) (rfl : s.standing = s.standing))

theorem writeDpa_standing (s : State) (a : Nat) (bs : List Byte) : (s.writeDpa a bs).standing = s.standing :=
  ite_standing rfl (foldl_standing (fun s _ => writeUnit_standing s ..) _ s)

theorem writePad_standing (s : State) (k a : Nat) (swz : Bool) (bs : List Byte) (ch : Option Nat) (joined : Bool) :
    (writePad s k a swz bs ch joined).standing = s.standing := by
  unfold writePad
  split
  · exact writeDpa_standing ..
  · refine (foldl_standing (fun _ _ => ?_) _ _).trans (writeDpa_standing ..)
    rfl

theorem markDirty_standing (s : State) (f : Nat) (h : Hit) : (markDirty s f h).standing = s.standing := by
  unfold markDirty
  refine ite_standing rfl ?_
  dsimp only
  split
  · rfl
  · exact writeDpa_standing ..

theorem setTableByte_standing (s : State) (a : Nat) (b : Byte) : (s.setTableByte a b).standing = s.standing := by
  unfold State.setTableByte
  split
  · rfl
  · unfold State.setKvWord
    split <;> rfl

theorem applyPiece_standing (k f : Nat) (joined : Bool) (s : State) (p : Nat × List Byte × Option Nat) :
    (applyPiece k f joined s p).standing = s.standing := by
  have hpad := writePad_standing s k p.1 false p.2.1 none joined
  unfold applyPiece
  dsimp only
  split
  · refine (ite_standing (s := writePad s k p.1 false p.2.1 none joined) ?_ (markDirty_standing ..)).trans hpad
    exact foldl_standing (fun s x => setTableByte_standing s ..) _ _
  · exact hpad

theorem noteArrival_standing (s : State) (k j who sc inst l n : Nat) :
    (noteArrival s k j who sc inst l n).standing = s.standing := by
  unfold noteArrival
  split <;> rfl

theorem countArrival_standing (s : State) (k j who sc inst l n : Nat) :
    (countArrival s k j who sc inst l n).standing = s.standing := by
  unfold countArrival
  split
  · rfl
  · exact (writeDpa_standing ..).trans (noteArrival_standing ..)

theorem applyHeld_standing (s : State) (k j n : Nat) (e : HeldEff) : (applyHeld s k j n e).standing = s.standing := by
  cases e with
  | store ps so joined => exact foldl_standing (fun s p => applyPiece_standing k _ joined.isSome s p) ps s
  | arrive sc inst l m =>
      exact (countArrival_standing ..).trans (foldl_standing (fun t i => noteArrival_standing t ..) _ s)
  | fence kinds full => exact ite_standing rfl rfl
  | handover => rfl

theorem drainHeld_standing (k j : Nat) : ∀ (n : Nat) (s : State), (drainHeld k j n s).standing = s.standing
  | 0, _ => rfl
  | n + 1, s => by
      unfold drainHeld
      split
      · rfl
      · exact (drainHeld_standing k j n _).trans (applyHeld_standing ..)

theorem applyQ_standing (k j inst : Nat) (swz : Bool) (s : State) (w : QWrite) :
    (applyQ k j inst swz s w).standing = s.standing := by
  cases w with
  | mem c a g bs =>
      unfold applyQ
      dsimp only
      split
      · exact (markDirty_standing ..).trans (writePad_standing ..)
      · exact writePad_standing ..
  | tileRow | pop | readDone | flags | done => rfl

theorem finishOp_standing (s : State) (k j : Nat) (o : QOp) : (s.finishOp k j o).standing = s.standing :=
  (drainHeld_standing ..).trans (foldl_standing (fun s w => applyQ_standing k j o.inst _ s w) o.writes s)

theorem wakeWatch_standing (s : State) (k j : Nat) : (wakeWatch s k j).standing = s.standing := by
  unfold wakeWatch
  dsimp only
  split
  · exact ite_standing rfl rfl
  · rfl

theorem breakChanWatches_standing (s : State) (k n : Nat) : (breakChanWatches s k n).standing = s.standing := by
  refine foldl_standing (fun s j => ?_) _ s
  split
  · exact ite_standing (wakeWatch_standing ..) rfl
  · rfl

theorem leaveColl_standing (s : State) (k n : Nat) : (leaveColl s k n).standing = s.standing := by
  refine (foldl_standing (fun _ _ => ?_) _ _).trans ?_
  · rfl
  · rfl

theorem endCmd_standing (s : State) (k n : Nat) (c : Cmd) (st : Status) (count : Nat) :
    (s.endCmd k n c st count).standing = s.standing := by
  have hflags : ∀ u : State, (if (u.ctx k c.slot).state == .empty then u
      else u.engineFlags k c.slot c.inst c.prog.flags).standing = u.standing := fun u => ite_standing rfl rfl
  unfold State.endCmd
  dsimp only
  refine ite_standing ?_ ((breakChanWatches_standing ..).trans ?_)
  all_goals
    split
    · exact (leaveColl_standing ..).trans (hflags _)
    · exact hflags _

theorem truncCmds_standing (s : State) (r : Region) (b n : Nat) : (truncCmds s r b n).standing = s.standing := by
  refine foldl_standing (fun s k => foldl_standing (fun s ch => foldl_standing (fun s c => ?_) _ _) _ _) _ s
  refine ite_standing rfl (ite_standing (endCmd_standing ..) (ite_standing (ite_standing (endCmd_standing ..) rfl) ?_))
  split
  · exact ite_standing rfl rfl
  · exact ite_standing rfl rfl
  · rfl

theorem truncOp_standing (k j b n : Nat) (s : State) (o : QOp) : (truncOp k j b n s o).standing = s.standing := by
  unfold truncOp
  dsimp only
  refine ite_standing (ite_standing ?_ (finishOp_standing ..)) rfl
  exact (finishOp_standing ..).trans rfl

theorem truncOps_standing (s : State) (r : Region) (b n : Nat) : (truncOps s r b n).standing = s.standing := by
  have hq : ∀ (s : State) (p : Nat × Nat), ((s.ctx p.1 p.2).queue.foldl (truncOp p.1 p.2 b n) s).standing = s.standing :=
    fun s p => foldl_standing (fun s o => truncOp_standing p.1 p.2 b n s o) _ s
  have hslot : ∀ (s : State) (p : Nat × Nat), (if !r.seenBy (s.ctx p.1 p.2).launch then s
      else if r.tier ≠ 0 then (s.ctx p.1 p.2).queue.foldl (truncOp p.1 p.2 b n) s
      else ((s.ctx p.1 p.2).queue.foldl (truncOp p.1 p.2 b n) s).updCtx p.1 p.2 (fun x => { x with
        bank := x.bank.loseAcc b n, tail := x.tail.map (fun t => t.loseAcc b n) })).standing = s.standing := fun s p =>
    ite_standing rfl (ite_standing (hq s p) (hq s p))
  unfold truncOps
  dsimp only
  refine ite_standing (foldl_standing hslot _ s) ((foldl_standing (fun _ _ => ?_) _ _).trans (foldl_standing hslot _ s))
  rfl

theorem breakCells_standing (s : State) (r : Region) (b n : Nat) : (breakCells s r b n).standing = s.standing := by
  refine foldl_standing (g := breakWaiters) (fun _ _ => ?_) _ s
  refine foldl_standing (fun _ _ => ?_) _ _
  rfl

theorem endRange_standing (s : State) (r : Region) (b n : Nat) : (endRange s r b n).standing = s.standing := by
  have hw : ∀ u : State, (breakWatches u r.seenBy b n).standing = u.standing := fun u => by
    refine foldl_standing (fun _ _ => ?_) _ u
    rfl
  exact (hw _).trans ((breakCells_standing ..).trans ((truncOps_standing ..).trans (truncCmds_standing ..)))

theorem settleHeld_standing (s : State) (ds : List (Nat × Nat)) (keep : Bool) :
    (settleHeld s ds keep).standing = s.standing := by
  refine foldl_standing (fun s k => ?_) _ s
  dsimp only
  have hp : ∀ l : List (Bool × Nat × List Byte × Option Nat), (if keep then
      l.foldl (fun t p => applyPiece k.1 (t.fnOf (s.ctx k.1 k.2).launch) p.1 t p.2) s else s).standing = s.standing := fun l =>
    ite_standing (foldl_standing (fun t p => applyPiece_standing k.1 _ p.1 t p.2) l s) rfl
  exact ite_standing (hp _) (hp _)

/-! ## What a scrub leaves in memory (R66) -/

/-- Where no cell has an address, its byte reads zero. -/
theorem read_of_no_cell {a : Nat} : ∀ {m : Memory}, (∀ c ∈ m, c.1 ≠ a) → Memory.read m a = 0
  | [], _ => rfl
  | (b, x) :: r, h => by
      rw [Memory.read, if_neg (h _ List.mem_cons_self)]
      split
      · rfl
      · exact read_of_no_cell (fun c hc => h c (List.mem_cons_of_mem _ hc))

theorem scrub_mem (s : State) (a n : Nat) : (s.scrub a n).mem = Memory.clear s.mem a (a + n) := by
  unfold State.scrub
  dsimp only
  split <;> rfl

/-- Scrubs in a row leave only cells that stood before and lie in none of their ranges. -/
theorem mem_scrubs : ∀ (ps : List (Nat × Nat)) (s : State) (c : Host.Cell),
    c ∈ (ps.foldl (fun s p => s.scrub p.1 p.2) s).mem → c ∈ s.mem ∧ ∀ q ∈ ps, ¬ (q.1 ≤ c.1 ∧ c.1 < q.1 + q.2)
  | [], _, _, h => ⟨h, fun _ hq => nomatch hq⟩
  | p :: ps, s, c, h => by
      obtain ⟨hc, hps⟩ := mem_scrubs ps _ c h
      rw [scrub_mem, Memory.clear, List.mem_filter, Bool.or_eq_true, decide_eq_true_eq, decide_eq_true_eq] at hc
      obtain ⟨hm, hout⟩ := hc
      refine ⟨hm, fun q hq => ?_⟩
      rcases List.mem_cons.mp hq with rfl | hq
      · omega
      · exact hps q hq

end Sys2Proof.Machine

/-- Settles O43: the ended region is filtered out, its scrubs leave no cell in its pieces, and what the end of a sublet
changes of a region is its list of sublets. -/
theorem leaseEnd : Obligations.LeaseEnd := by
  constructor
  · refine fun s r => ⟨fun x hx => ?_, fun q hq a ha hb => read_of_no_cell fun c hc => ?_⟩
    · simpa using (List.mem_filter.mp hx).2
    · obtain ⟨-, hout⟩ := mem_scrubs r.pieces _ c hc
      rintro rfl
      exact hout q hq ⟨ha, hb⟩
  · intro s r u
    have hu : (endSublet s r u).regions =
        s.regions.map (fun x => if x.id == r.id then { x with subs := x.subs.erase u } else x) := by
      have hs : (settleHeld (endRange s r u.base u.len) (r.dpas u.base u.len) true).regions = s.regions :=
        congrArg Prod.fst ((settleHeld_standing ..).trans (endRange_standing ..))
      unfold endSublet
      dsimp only
      split
      all_goals exact congrArg _ hs
    rw [hu, List.map_map]
    refine List.map_congr_left fun x _ => ?_
    simp only [Function.comp]
    split <;> rfl

end

section
/-!
PROOFS. Barriers, waits, watches and fences (R220 to R226): what each does at issue, and what an arrival does to its cell.
-/
namespace Sys2Proof.Machine

/-! ## What sending flits leaves alone (R344) -/

/-- Flits leave by the ports, with a free payload and by a chosen route: nothing else changes. -/
def Sends (s t : State) : Prop := ∃ o f p, t = { s with oracle := o, free := f, ports := p }

namespace Sends

theorem refl (s : State) : Sends s s := ⟨s.oracle, s.free, s.ports, rfl⟩

theorem trans {s t u : State} (h : Sends s t) (h' : Sends t u) : Sends s u := by
  obtain ⟨o, f, p, rfl⟩ := h
  obtain ⟨o', f', p', rfl⟩ := h'
  exact ⟨o', f', p', rfl⟩

theorem freeWords : ∀ (n : Nat) (s : State), Sends s (Machine.freeWords s n).1
  | 0, s => refl s
  | n + 1, s => trans ⟨s.oracle, s.free + 1, s.ports, rfl⟩ (freeWords n s.drawFree.1)

theorem choose (s : State) (d : Nat) : Sends s (s.choose d).1 := by
  unfold State.choose
  cases s.oracle with
  | nil => exact refl s
  | cons x r => exact ⟨r, s.free, s.ports, rfl⟩

theorem sendFlit (s : State) (type vl pkg : Nat) : Sends s (Machine.sendFlit s type vl pkg).1 :=
  (choose s 0).trans ((freeWords 29 _).trans ⟨_, _, _, rfl⟩)

theorem sendFlits (s : State) (type vl : Nat) (pkgs : List Nat) : Sends s (Machine.sendFlits s type vl pkgs).1 := by
  have h : ∀ (l : List Nat) (acc : State × List (Nat × Nat)), Sends acc.1 (l.foldl (fun acc p =>
      let r := Machine.sendFlit acc.1 type vl p
      (r.1, acc.2 ++ [r.2])) acc).1 := fun l => by
    induction l with
    | nil => exact fun acc => refl acc.1
    | cons p l ih => exact fun acc => (sendFlit acc.1 type vl p).trans (ih _)
  exact h _ (s, [])

theorem podFlits (sc : Scope) (s : State) : Sends s (Machine.podFlits sc s) := by
  unfold Machine.podFlits
  split
  · exact sendFlits ..
  · exact refl s

section
variable {s t : State} (h : Sends s t)
include h

theorem issue : t.issue = s.issue := by obtain ⟨_, _, _, rfl⟩ := h; rfl
theorem me : t.me = s.me := by obtain ⟨_, _, _, rfl⟩ := h; rfl
theorem src (a : Sel) : t.src a = s.src a := by obtain ⟨_, _, _, rfl⟩ := h; cases a <;> rfl
theorem barNum (sc : Scope) (a : Sel) : t.barNum sc a = s.barNum sc a := by
  rw [State.barNum, State.barNum, h.me, h.src]
theorem pairLands (p : BitVec 3) (c : Bool) : t.pairLands p c = s.pairLands p c := by
  obtain ⟨_, _, _, rfl⟩ := h; rfl

end
end Sends

/-! ## Barriers, waits and fences (R220 to R226) -/

/-- Whether the number a BARINIT names is bound, and not broken (R221). -/
def State.isBound (s : State) (sc : Scope) (a : Sel) : Bool :=
  ((s.barrier? s.me.launch sc.code.toNat s.issue.core (s.src a).toNat).map (fun x => !x.broken)).getD false

/-- Whether the cell a BARINIT names lies in a held tier 1 region (R221). -/
def State.holdsCell (s : State) (b : Sel) : Bool :=
  match xlate s (s.who s.issue.core s.issue.ctx) (s.src b).toNat true with
  | .hit h => h.tier == 1 && h.region.isSome
  | _ => false

theorem isBound_of_unbroken {s : State} {sc : Scope} {a : Sel} {x : Barrier}
    (hx : s.barrier? s.me.launch sc.code.toNat s.issue.core (s.src a).toNat = some x) (hb : x.broken = false) :
    s.isBound sc a = true := by
  simp only [State.isBound, hx, Option.map_some, hb]
  rfl

theorem isBound_of_none {s : State} {sc : Scope} {a : Sel}
    (hx : s.barrier? s.me.launch sc.code.toNat s.issue.core (s.src a).toNat = none) : s.isBound sc a = false := by
  simp only [State.isBound, hx]
  rfl

theorem holdsCell_of_hit {s : State} {b : Sel} {h : Hit}
    (hh : xlate s (s.who s.issue.core s.issue.ctx) (s.src b).toNat true = .hit h) (ht : h.tier = 1) (hr : h.region ≠ none) :
    s.holdsCell b = true := by
  simp only [State.holdsCell, hh, ht, Option.isSome_iff_ne_none.mpr hr]
  rfl

/-- The value of BARINIT (R221). -/
def barinitLands (s : State) (sc : Scope) (p : BitVec 3) (a b c : Sel) : List Land :=
  let inst := scopeInst sc.code.toNat s.issue.core
  let n := (s.src a).toNat
  let at_ := (s.src b).toNat
  let count := (s.src c).toNat
  if count = 0 then
    if s.isBound sc a then .barUnbind sc.code.toNat inst s.me.launch n :: s.pairLands p true else s.pairLands p false
  else if s.isBound sc a || 65535 < count || at_ % 8 ≠ 0 || !s.holdsCell b then s.pairLands p false
  else .barBind sc.code.toNat inst s.me.launch n at_ count :: s.pairLands p true

theorem completes_barinit (s : State) (g : BitVec 4) (sc : Scope) (p : BitVec 3) (a b c : Sel) :
    Completes (.barinit g sc p a b c) s (s.land 2 (barinitLands s sc p a b c)) := fun h => by
  refine exec_issues h rfl ?_
  simp only [barinitLands, apply_ite (s.land 2)]
  rfl

theorem completes_arrive (s : State) (g : BitVec 4) (sc : Scope) (a : Sel) : Completes (.arrive g sc a) s
    (if s.me.pendingStores.isEmpty && (s.me.myHeld s.me.inst).isEmpty then
      countArrival (podFlits sc s) s.issue.core s.issue.ctx s.me.inst sc.code.toNat (scopeInst sc.code.toNat s.issue.core)
        s.me.launch (s.barNum sc a)
    else holdEff (podFlits sc s) s.issue.core s.issue.ctx s.me.pendingStores
      (.arrive sc.code.toNat (scopeInst sc.code.toNat s.issue.core) s.me.launch (s.barNum sc a))) := fun h => by
  have hs := Sends.podFlits sc s
  refine exec_issues h rfl ?_
  simp only [hs.me, hs.issue, hs.barNum]

theorem completes_wait (s : State) (g : BitVec 4) (sc : Scope) (p : BitVec 3) (a : Sel) : Completes (.wait g sc p a) s
    (((if s.me.waitRes.getD true then (podFlits sc s).acquired s.issue.core else podFlits sc s).land 1
      (s.pairLands p (s.me.waitRes.getD true))).updMe (fun x => { x with
        wait := none, bank := { x.bank with arrGen := Tbl.erase x.bank.arrGen (genKey sc.code.toNat (s.barNum sc a)) } })) :=
  fun h => by
  have hs := Sends.podFlits sc s
  refine exec_issues h rfl ?_
  simp only [hs.me, hs.issue, hs.barNum, hs.pairLands]

theorem completes_fence (s : State) (g : BitVec 4) (sc : Scope) (kinds : BitVec 3) (dir : BitVec 2) :
    Completes (.fence g sc kinds dir) s
      (if ((podFlits sc s).fenced kinds dir).isEmpty ∧ (dir = 1 ∨ (s.me.myHeld s.me.inst).isEmpty) then
        (if dir = 2 then podFlits sc s else (podFlits sc s).acquired s.issue.core)
      else holdEff (if dir = 2 then podFlits sc s else (podFlits sc s).acquired s.issue.core) s.issue.core s.issue.ctx
        ((podFlits sc s).fenced kinds dir) (.fence kinds.toNat (dir != 2))) := fun h => by
  have hs := Sends.podFlits sc s
  refine exec_issues h rfl ?_
  simp only [hs.me, hs.issue]

/-- A cell's word after an arrival that does not go past its count (R223). -/
theorem cellArrive_eq {w : Word} (h : field w 16 16 < field w 0 16) : cellArrive w =
    if field w 16 16 + 1 = field w 0 16 then BitVec.ofNat 64 ((field w 32 32 + 1) % 2 ^ 32 * 2 ^ 32 + field w 0 16)
    else w + 0x10000 := by
  have hlt := field_lt w 0 16
  refine ite_congr rfl (fun _ => ?_) (fun _ => ?_)
  · simp [put, cellGen, cellExp]
  · have hc : (cellArr w + 1) % 2 ^ 16 = field w 16 16 + 1 :=
      Nat.mod_eq_of_lt (show field w 16 16 + 1 < 2 ^ 16 by omega)
    have hd : BitVec.ofNat 64 ((field w 16 16 + 1) * 2 ^ 16) = BitVec.ofNat 64 (field w 16 16 * 2 ^ 16) + 0x10000 := by
      rw [Nat.add_mul, BitVec.ofNat_add]
      rfl
    rw [setField, hc, hd, ← add_assoc, sub_add_cancel]

theorem Tbl.find_insert_same {α : Type} (k : Nat) (v : α) : ∀ {t : Tbl α}, (∀ e ∈ t, e.1 ≠ k) →
    Tbl.find (Tbl.insert t k v) k = some v
  | [], _ => by rw [Tbl.insert, Tbl.find, if_pos rfl]
  | (j, x) :: r, h => by
      rw [Tbl.insert]
      split
      · rw [Tbl.find, if_pos rfl]
      · rw [Tbl.find, if_neg (h (j, x) List.mem_cons_self)]
        exact find_insert_same k v (fun e he => h e (List.mem_cons_of_mem _ he))

theorem Tbl.find_set_same {α : Type} (t : Tbl α) (k : Nat) (v : α) : Tbl.find (Tbl.set t k v) k = some v :=
  Tbl.find_insert_same k v (Tbl.erase_ne t k)

/-- The cell, its bytes and the generation of an arrival that is counted (R223). -/
theorem countArrival_counts {s : State} (hs : s.Inv) {sc inst m : Nat} {x : Barrier}
    (hx : s.barriers.find? (fun y => y.sc == sc && y.inst == inst && y.launch == s.me.launch && y.n == m) = some x)
    (hb : x.broken = false) :
    let t := countArrival s s.issue.core s.issue.ctx s.me.inst sc inst s.me.launch m
    (s.badWrites = [] → Memory.bytes t.mem x.dpa 8 = toBytes 8 (cellArrive (s.unitWord x.dpa)).toNat) ∧
    (∀ v, within v x.dpa 8 = false → Memory.read t.mem v = Memory.read s.mem v) ∧
    Tbl.find t.me.bank.arrGen (genKey sc m) = some (field (s.unitWord x.dpa) 32 32) := by
  intro t
  have hlive : s.liveBarrier? sc inst s.me.launch m = some x := by
    rw [State.liveBarrier?, hx, Option.filter_some, if_pos (by rw [hb]; rfl)]
  let y : State := s.updCtx s.issue.core s.issue.ctx (fun z => z.updBankOf s.me.inst (fun b =>
    { b with arrGen := Tbl.set b.arrGen (genKey sc m) (cellGen (s.unitWord x.dpa)) }))
  have ht : t = y.writeDpa x.dpa (toBytes 8 (cellArrive (s.unitWord x.dpa)).toNat) := by
    show countArrival s _ _ _ _ _ _ _ = _
    simp only [countArrival, noteArrival, hlive]
    rfl
  have hlen : (toBytes 8 (cellArrive (s.unitWord x.dpa)).toNat).length = 8 := by simp [toBytes]
  refine ⟨fun hbad => ?_, fun v hv => ?_, ?_⟩
  · refine List.ext_getElem (by simp [Memory.bytes, toBytes]) fun i hi hi' => ?_
    have hin : within (x.dpa + i) x.dpa (toBytes 8 (cellArrive (s.unitWord x.dpa)).toNat).length = true :=
      within_eq_true.mpr ⟨by omega, by omega⟩
    have hr := writeDpa_read_inside (s := y) hs hbad hin
    rw [Nat.add_sub_cancel_left, List.getD_eq_getElem _ _ hi'] at hr
    rw [← hr, ht]
    simp [Memory.bytes]
  · rw [ht]
    exact writeDpa_read_outside (s := y) hs (by rw [hlen]; exact hv)
  · obtain ⟨fr, hfr⟩ := (writeDpa_accesses y x.dpa (toBytes 8 (cellArrive (s.unitWord x.dpa)).toNat)).me
    have hy : y.me.bank.arrGen = Tbl.set s.me.bank.arrGen (genKey sc m) (cellGen (s.unitWord x.dpa)) := by
      have hz : y.me = s.me.updBankOf s.me.inst (fun b =>
        { b with arrGen := Tbl.set b.arrGen (genKey sc m) (cellGen (s.unitWord x.dpa)) }) :=
        (State.ctx_updCtx ..).trans (if_pos ⟨rfl, rfl⟩)
      rw [hz, Ctx.updBankOf, if_pos rfl]
    rw [ht, hfr]
    show Tbl.find y.me.bank.arrGen _ = _
    rw [hy, Tbl.find_set_same]
    rfl

end Sys2Proof.Machine
open Sys2Proof Sys2Proof.Machine


/-- Settles O45: each form is its meaning in the case its conditions give, and flits leave alone what they look at. -/
theorem waiting : Obligations.Waiting := by
  intro s g sc p a b c k n at_ count inst m o
  have hbarinit := completes_barinit s g sc p a b c
  have harrive := completes_arrive s g sc a
  have hme : o.me = s.me := (Sends.podFlits sc s).me
  refine ⟨fun x hx hb => ⟨fun hc => ?_, fun hc => ?_⟩, fun hx => ⟨fun hc => ?_, fun h hc hlt hat hh ht hr => ?_⟩,
    fun h => exec_issues h rfl rfl, fun hp hh => ?_, fun hph => ?_, fun x hx hb hi => countArrival_counts hi hx hb,
    fun w _ hlt => cellArrive_eq hlt, ⟨completes_wait s g sc p a, fun w h => exec_issues h rfl rfl⟩,
    fun kinds dir => ⟨fun ha hd => ?_, fun hah => ?_, fun hd i hi => ?_, fun hm => ?_⟩⟩
  · have hl : barinitLands s sc p a b c = .barUnbind sc.code.toNat inst s.me.launch n :: s.pairLands p true :=
      (if_pos hc).trans (if_pos (isBound_of_unbroken hx hb))
    rwa [hl] at hbarinit
  · have hl : barinitLands s sc p a b c = s.pairLands p false :=
      (if_neg hc).trans (if_pos (by rw [isBound_of_unbroken hx hb]; rfl))
    rwa [hl] at hbarinit
  · have hl : barinitLands s sc p a b c = s.pairLands p false := by
      by_cases h0 : count = 0
      · exact (if_pos h0).trans (if_neg (by rw [isBound_of_none hx]; decide))
      · refine (if_neg h0).trans (if_pos ?_)
        rcases hc.resolve_left h0 with h | h
        · have hlt : decide (65535 < count) = true := decide_eq_true h
          rw [hlt, Bool.or_true, Bool.true_or, Bool.true_or]
        · have hne : decide (at_ % 8 ≠ 0) = true := decide_eq_true h
          rw [hne, Bool.or_true, Bool.true_or]
    rwa [hl] at hbarinit
  · have hl : barinitLands s sc p a b c =
        .barBind sc.code.toNat inst s.me.launch n at_ count :: s.pairLands p true := by
      refine (if_neg hc).trans (if_neg ?_)
      have hnlt : ¬ 65535 < count := Nat.not_lt.mpr hlt
      rw [isBound_of_none hx, holdsCell_of_hit hh ht hr, decide_eq_false hnlt, decide_eq_false (not_not.mpr hat)]
      decide
    rwa [hl] at hbarinit
  · rwa [if_pos (by simp [hp, hh])] at harrive
  · rwa [if_neg (by simpa [List.isEmpty_iff, imp_iff_not_or] using hph)] at harrive
  · have hf := completes_fence s g sc kinds dir
    rwa [if_pos ⟨List.isEmpty_iff.mpr ha, hd.imp_right List.isEmpty_iff.mpr⟩] at hf
  · have hf := completes_fence s g sc kinds dir
    have hah' : ¬ ((o.fenced kinds dir).isEmpty = true ∧ (dir = 1 ∨ (s.me.myHeld s.me.inst).isEmpty = true)) := by
      simpa only [List.isEmpty_iff, not_and_or, not_or] using hah
    exact fun h => (hf h).trans (congrArg _ (if_neg hah'))
  · refine List.mem_append_left _ ?_
    rw [if_neg hd, hme]
    exact hi
  · have hst : s.me.pendingStores = [] := by rw [Ctx.pendingStores, hm]; rfl
    show o.fenced kinds dir = []
    rw [State.fenced, hme, hst, hm, ite_self]
    rfl

end

section
/-!
PROOFS. The V class (R108, R150 to R172): arithmetic, integer elements, moves, conversions, loads and stores.
-/
open Sys2Proof Sys2Proof.Machine

/-- Settles O46: each result is its meaning's. -/
theorem vectorArithmetic : Obligations.VectorArithmetic := by
  intro s g t rc sat np nc d a b c m w md x y z f put1 putF put2 put3
  refine ⟨fun h => exec_issues h rfl rfl, fun h => exec_issues h rfl rfl, fun h => exec_issues h rfl rfl,
    fun h => exec_issues h rfl rfl, fun h => exec_issues h rfl rfl, fun h => exec_issues h rfl rfl,
    fun h => exec_issues h rfl rfl, fun h => exec_issues h rfl rfl, fun h => exec_issues h rfl rfl,
    fun h => exec_issues h rfl rfl, fun h => exec_issues h rfl rfl, fun h => exec_issues h rfl rfl,
    fun h => exec_issues h rfl rfl, fun h => exec_issues h rfl rfl, fun h => exec_issues h rfl rfl,
    fun h => exec_issues h rfl rfl, fun h => exec_issues h rfl rfl, fun lat v q => rfl,
    fun h => exec_issues h rfl rfl⟩

namespace Sys2Proof.Machine

/-! ## Integer elements (R72, R153, R155) -/

section
variable {t : Ty} {x : Nat}

/-- An integer and its code agree modulo 2^w. -/
theorem intOf_emod (t : Ty) (x : Nat) : intOf t x % 2 ^ t.width = (x : Int) % 2 ^ t.width := by
  unfold intOf
  split
  · exact Int.sub_emod_right ..
  · rfl

theorem codeOf_intOf (hx : x < 2 ^ t.width) : codeOf t (intOf t x) = x := by
  rw [codeOf, intOf_emod, Int.emod_eq_of_lt (by positivity) (by exact_mod_cast hx), Int.toNat_natCast]

theorem intOf_lt (hx : x < 2 ^ t.width) : intOf t x < 2 ^ t.width := by
  have hx' : (x : Int) < 2 ^ t.width := by exact_mod_cast hx
  unfold intOf
  split <;> omega

theorem neg_le_intOf (x : Nat) : -2 ^ t.width ≤ intOf t x := by
  unfold intOf
  split
  · omega
  · have : (0 : Int) < 2 ^ t.width := by positivity
    omega

/-- The smaller or larger of two elements is one of them. -/
theorem minMaxE_int (ht : t.isInt = true) {a b : Nat} (ha : a < 2 ^ t.width) (hb : b < 2 ^ t.width) (m : Bool) :
    minMaxE t m a b = (if intOf t a ≤ intOf t b then (if m then b else a) else (if m then a else b), 0) := by
  have hi : minMaxE t m a b = (codeOf t (if m then max (intOf t a) (intOf t b) else min (intOf t a) (intOf t b)), 0) := by
    rw [minMaxE, if_pos ht]
    rfl
  rw [hi]
  cases m
  · simp only [Bool.false_eq_true, if_false]
    split
    · next h => rw [min_eq_left h, codeOf_intOf ha]
    · next h => rw [min_eq_right (by omega), codeOf_intOf hb]
  · simp only [if_true]
    split
    · next h => rw [max_eq_right h, codeOf_intOf hb]
    · next h => rw [max_eq_left (by omega), codeOf_intOf ha]

/-- A shift by w or more leaves the sign alone. -/
theorem codeOf_sign (hx : x < 2 ^ t.width) :
    codeOf t (intOf t x / 2 ^ t.width) = if intOf t x < 0 then 2 ^ t.width - 1 else 0 := by
  have hp : (0 : Int) < 2 ^ t.width := by positivity
  have hlt := intOf_lt hx
  have hle := neg_le_intOf (t := t) x
  split
  · next h =>
    have hd : intOf t x / 2 ^ t.width = -1 := by
      rw [Int.ediv_eq_iff_of_pos hp]
      omega
    have hm : (-1 : Int) % 2 ^ t.width = ((2 ^ t.width - 1 : Nat) : Int) := by
      rw [← Int.add_emod_right, Int.emod_eq_of_lt (by omega) (by omega), Nat.cast_sub Nat.one_le_two_pow]
      push_cast
      ring
    rw [codeOf, hd, hm, Int.toNat_natCast]
  · next h =>
    rw [codeOf, Int.ediv_eq_zero_of_lt (by omega) hlt]
    rfl

end

end Sys2Proof.Machine

/-- Settles O47: an integer operation is exact on the values of its codes, and wraps or clamps the exact result. -/
theorem integerElements : Obligations.IntegerElements := by
  intro s t rc sat a b c ht ha hb hc w val low high wrap
  have hval : ∀ x, intOf t x = val x := fun x => by
    simp only [intOf, val, Bool.and_eq_true, decide_eq_true_eq, ge_iff_le]
    rfl
  have hr : intRange t = (low, high) := by
    simp only [intRange, low, high]
    split <;> rfl
  have hop : ∀ q (f : Int → Int → Int) x y, intOp2 t q f x y = wrap q (f (val x) (val y)) := fun q f x y => by
    simp only [intOp2, hval, clampInt, hr, wrap]
    rfl
  have hmin := minMaxE_int ht ha hb false
  have hmax := minMaxE_int ht ha hb true
  simp only [hval] at hmin hmax
  refine ⟨(if_pos ht).trans (hop ..), (if_pos ht).trans (hop ..), (if_pos ht).trans (hop ..), hop .., hmin, hmax, ?_, ?_, rfl,
    fun hlt => ?_, fun hle => ?_, ?_⟩
  · have hm : (if val a ≤ val b then b else a) < 2 ^ w := by split <;> assumption
    have hv : val (if val a ≤ val b then b else a) = max (val a) (val b) := by
      split
      · next h => exact (max_eq_right h).symm
      · next h => exact (max_eq_left (by omega)).symm
    have hclamp : vclampE t a b c = minMaxE t false (if val a ≤ val b then b else a) c := by
      rw [vclampE, hmax]
      exact Prod.ext rfl (Nat.zero_or _)
    rw [hclamp, ← hv]
    exact (if_pos ht).trans (hop ..)
  · have habs : ((val a).natAbs : Int) = if val a < 0 then -val a else val a := by split <;> omega
    rw [← habs]
    exact (if_pos ht).trans (hop ..)
  · rw [vshrE, Nat.min_eq_left (Nat.le_of_lt hlt), hval]
    rfl
  · rw [vshrE, Nat.min_eq_right hle, codeOf_sign ha, hval]
  · have hmul : (vmulE t rc false s a b).1 = (intOf t a * intOf t b % 2 ^ t.width).toNat := by
      rw [vmulE, if_pos ht]
      rfl
    rw [hmul, Int.mul_emod, intOf_emod, intOf_emod, ← Int.mul_emod]
    exact_mod_cast rfl

namespace Sys2Proof.Machine

/-! ## Moves (R158, R161, R167 to R169) -/

theorem elems_length (w : Nat) (v : Vec) : (elems w v).length = 1024 / w := by simp [elems, elemsOf]

theorem elems_getElem {w : Nat} {v : Vec} {j : Nat} (h : j < (elems w v).length) : (elems w v)[j] = elem w j v := by
  simp [elems, elemsOf, elem]

/-- What VPERM takes for an index: the element, or zero past the last one. -/
theorem elems_getD (w : Nat) (v : Vec) (j : Nat) : ((elems w v)[j]?).getD 0 = if j < 1024 / w then elem w j v else 0 := by
  split
  · next h =>
    have hj : j < (elems w v).length := by rwa [elems_length]
    rw [List.getElem?_eq_getElem hj, elems_getElem hj]
    rfl
  · next h =>
    rw [List.getElem?_eq_none (by rw [elems_length]; omega)]
    rfl

/-- VROT takes each element from `r` places up, around the end. -/
theorem elems_rotate (w : Nat) (v : Vec) {r : Nat} (hr : r < 1024 / w) : (elems w v).drop r ++ (elems w v).take r =
    (List.range (1024 / w)).map (fun i => elem w ((i + r) % (1024 / w)) v) := by
  have hl := elems_length w v
  refine List.ext_getElem (by simp [hl]; omega) fun i hi hi' => ?_
  rw [List.length_map, List.length_range] at hi'
  rw [List.getElem_map, List.getElem_range, List.getElem_append]
  split
  · next h =>
    rw [List.length_drop, hl] at h
    rw [List.getElem_drop, elems_getElem, Nat.mod_eq_of_lt (by omega), Nat.add_comm]
  · next h =>
    rw [List.length_drop, hl] at h
    rw [List.getElem_take, elems_getElem, Nat.mod_eq_sub_mod (by omega), Nat.mod_eq_of_lt (by omega), List.length_drop, hl]
    congr 1
    omega

/-- A vector holds elements of every type. -/
theorem elements_pos (t : Ty) : 0 < 1024 / t.width := by cases t <;> decide

end Sys2Proof.Machine

/-- Settles O48: each result is its meaning's, and the list forms of VPERM and VROT name the elements by their places. -/
theorem vectorMoves : Obligations.VectorMoves := by
  intro s g t d a b w x res wide idx rot
  refine ⟨fun h => exec_issues h rfl rfl, fun h => exec_issues h rfl rfl, fun h => exec_issues h rfl rfl,
    fun c h => exec_issues h rfl rfl, fun h => exec_issues h rfl rfl, fun h => exec_issues h rfl rfl,
    fun h => exec_issues h rfl ?_, fun h => exec_issues h rfl ?_, fun h => exec_issues h rfl rfl,
    fun h => exec_issues h rfl rfl, fun hi h => exec_issues h rfl rfl, fun na nb q i j =>
    ⟨fun h => exec_issues h rfl rfl, fun h => exec_issues h rfl rfl, fun h => exec_issues h rfl rfl⟩,
    fun r i h => exec_issues h rfl rfl⟩
  · have hl : (elems w idx).map (fun j => ((elems w x)[j]?).getD 0) =
        (elems w idx).map (fun j => if j < 1024 / w then elem w j x else 0) :=
      List.map_congr_left fun j _ => elems_getD w x j
    exact congrArg (fun l => res 3 (ofElems w l)) hl
  · exact congrArg (fun l => res 3 (ofElems w l)) (elems_rotate w x (Nat.mod_lt _ (elements_pos t)))

namespace Sys2Proof.Machine

/-- Draws move the random state alone: memory and the scalar registers stay (R82). -/
theorem draws_leaves (s : State) (rc : Rc) (n : Nat) :
    (s.draws rc n).1.memories = s.memories ∧ (s.draws rc n).1.me.bank.s = s.me.bank.s := by
  have hme : ∀ f : Ctx → Ctx, (s.updMe f).me = f s.me := fun f => (State.ctx_updMe s f _ _).trans (if_pos ⟨rfl, rfl⟩)
  have hbank : ∀ v, ({ s.me with bank := { s.me.bank with fpflags := v } } : Ctx).bank.s = s.me.bank.s := fun _ => rfl
  unfold State.draws
  split
  · exact ⟨rfl, rfl⟩
  · refine ⟨rfl, ?_⟩
    exact (congrArg (fun x : Ctx => x.bank.s) (hme _)).trans (hbank _)

end Sys2Proof.Machine

/-- Settles O49: each result is its meaning's, and draws move the random state alone. -/
theorem vectorConversions : Obligations.VectorConversions := by
  intro s g t u rc ns w d a b m md
  refine ⟨fun c p h => exec_issues h rfl rfl, fun h => exec_issues h rfl rfl, fun h => exec_issues h rfl rfl,
    fun h => exec_issues h rfl rfl, fun h => exec_issues h rfl rfl, fun h => exec_issues h rfl rfl,
    fun h => exec_issues h rfl rfl, fun k init e c h => exec_issues h rfl ?_, draws_leaves s rc _⟩
  cases t <;> rfl

namespace Sys2Proof.Machine

/-! ## Vector stores (R170, R171) -/

theorem applyPiece_accesses (k f : Nat) (joined : Bool) (s : State) (p : Nat × List Byte × Option Nat) :
    Accesses s (applyPiece k f joined s p) := by
  have hpad := writePad_accesses s k p.1 false p.2.1 none joined
  unfold applyPiece
  dsimp only
  split
  · split
    · exact hpad.trans (intoTables_accesses ..)
    · exact hpad.trans (markDirty_accesses ..)
  · exact hpad

/-- A store's pieces take effect, or are held back. -/
theorem storeVa_cases (s : State) (k j : Nat) (w : Who) (p : Acc) (rel : Bool) (a : Nat) (bs : List Byte) :
    let segs := segsOf s k w p true a bs.length
    let u := (beforeAccess s k j w segs).1
    storeVa s k j w p rel a bs = (storePieces a bs segs).foldl (applyPiece k (u.fnOf w.launch) false) u ∨
      ∃ l e, storeVa s k j w p rel a bs = holdEff u k j l e := by
  have hite (c : Prop) [Decidable c] (t x y : State) (h : t = if c then x else y) : t = x ∨ t = y := by
    split at h
    · exact .inl h
    · exact .inr h
  exact (hite _ _ _ _ (storeVa_eq s k j w p rel a bs)).imp_right fun h => ⟨_, _, h⟩

/-- A store leaves the issuing operation, and what `Ctx.sameAcross` names of each context. -/
theorem storeVa_leaves (s : State) (k j : Nat) (w : Who) (p : Acc) (rel : Bool) (a : Nat) (bs : List Byte) :
    (storeVa s k j w p rel a bs).issue = s.issue ∧
    ∀ m i, (s.ctx m i).sameAcross ((storeVa s k j w p rel a bs).ctx m i) := by
  have hu := beforeAccess_readsOnly s k j w (segsOf s k w p true a bs.length)
  rcases storeVa_cases s k j w p rel a bs with h | ⟨l, e, h⟩
  · have hp : Accesses s (storeVa s k j w p rel a bs) := by
      rw [h]
      exact hu.toAccesses.trans (Accesses.foldl _ (applyPiece_accesses k _ false) _ _)
    exact ⟨hp.issue, hp.sameAcross⟩
  · rw [h]
    exact ⟨hu.issue, fun m i => (hu.sameAcross m i).trans (holdEff_sameAcross ..)⟩

theorem storeRuns_cons (s : State) (rel : Bool) (v : Vec) (r : Nat × Nat × Nat) (l : List (Nat × Nat × Nat)) :
    storeRuns s rel v (r :: l) =
      storeRuns (storeVa s s.issue.core s.issue.ctx (s.who s.issue.core s.issue.ctx) .bundle rel r.1
        (((vecBytes v).drop r.2.1).take r.2.2)) rel v l := by
  have hi := (storeVa_leaves s s.issue.core s.issue.ctx (s.who s.issue.core s.issue.ctx) .bundle rel r.1
        (((vecBytes v).drop r.2.1).take r.2.2)).1
  rw [storeRuns, List.foldl_cons, storeRuns, hi]

theorem storeRuns_sameAcross (rel : Bool) (v : Vec) (m i : Nat) : ∀ (l : List (Nat × Nat × Nat)) (s : State),
    (s.ctx m i).sameAcross ((storeRuns s rel v l).ctx m i)
  | [], _ => ⟨rfl, rfl, rfl, rfl⟩
  | r :: l, s => by
      rw [storeRuns_cons]
      exact ((storeVa_leaves ..).2 m i).trans (storeRuns_sameAcross rel v m i l _)

/-! ## Runs of guarded bytes (R170) -/

/-- The bytes that some of the runs cover. -/
def Covered (x : Nat) (l : List (Nat × Nat)) : Prop := ∃ r ∈ l, r.1 ≤ x ∧ x < r.1 + r.2

theorem covered_cons {x : Nat} {r : Nat × Nat} {l : List (Nat × Nat)} :
    Covered x (r :: l) ↔ (r.1 ≤ x ∧ x < r.1 + r.2) ∨ Covered x l := by
  simp only [Covered, List.mem_cons, exists_eq_or_imp]

theorem not_covered_nil {x : Nat} : ¬ Covered x [] := fun ⟨_, h, _⟩ => nomatch h

/-- A guarded byte before the runs joins them. -/
theorem covered_runsFrom_succ {m : Pred} {n i : Nat} (h : m.getLsbD i = true) (x : Nat) :
    Covered x (runsFrom m (n + 1) i) ↔ x = i ∨ Covered x (runsFrom m n (i + 1)) := by
  rw [runsFrom, if_pos h]
  split
  · next o c l hl =>
    rw [hl]
    split
    · next ho =>
      have hhead : (i ≤ x ∧ x < i + (c + 1)) ↔ x = i ∨ (o ≤ x ∧ x < o + c) := by omega
      rw [covered_cons, covered_cons, hhead, or_assoc]
    · have hhead : (i ≤ x ∧ x < i + 1) ↔ x = i := by omega
      rw [covered_cons, hhead]
  · next hl =>
    have hhead : (i ≤ x ∧ x < i + 1) ↔ x = i := by omega
    rw [hl, covered_cons, hhead]

/-- The runs found from a place on cover the guarded bytes from there on, and no other. -/
theorem covered_runsFrom (m : Pred) : ∀ (n i x : Nat), Covered x (runsFrom m n i) ↔
    i ≤ x ∧ x < i + n ∧ m.getLsbD x = true
  | 0, i, x => ⟨fun h => absurd h not_covered_nil, fun h => by omega⟩
  | n + 1, i, x => by
      have ih := covered_runsFrom m n (i + 1) x
      cases hi : m.getLsbD i with
      | true =>
        rw [covered_runsFrom_succ hi, ih]
        by_cases hx : x = i
        · subst hx
          exact ⟨fun _ => ⟨Nat.le_refl x, by omega, hi⟩, fun _ => .inl rfl⟩
        · constructor
          · rintro (h | ⟨hle, hlt, hm⟩)
            · exact absurd h hx
            · exact ⟨by omega, by omega, hm⟩
          · rintro ⟨hle, hlt, hm⟩
            exact .inr ⟨by omega, by omega, hm⟩
      | false =>
        rw [runsFrom, if_neg (by rw [hi]; decide), ih]
        constructor
        · rintro ⟨hle, hlt, hm⟩
          exact ⟨by omega, by omega, hm⟩
        · rintro ⟨hle, hlt, hm⟩
          have hx : x ≠ i := by
            rintro rfl
            rw [hi] at hm
            cases hm
          exact ⟨by omega, by omega, hm⟩

theorem covered_runs (m : Pred) {x : Nat} (hx : x < 128) : Covered x (runs m) ↔ m.getLsbD x = true := by
  unfold runs
  split
  · next h =>
    rw [covered_cons, h, BitVec.getLsbD_allOnes]
    simp [hx]
  · rw [covered_runsFrom]
    simp [hx]

end Sys2Proof.Machine

/-- Settles O50: the four meanings, the stores one run after another, and the runs of a guard. -/
theorem vectorMemory : Obligations.VectorMemory := by
  intro s g t d base xv arr sel f off ofx ea rs l
  refine ⟨fun h => exec_issues h rfl rfl, fun h => exec_issues h rfl rfl, fun h => exec_issues h rfl rfl,
    fun h => exec_issues h rfl rfl, fun acq rs' mask n => State.flyVec_memories .., fun rel v r rs' =>
    ⟨rfl, storeRuns_cons s rel v r rs'⟩, fun rel v rs' m n => ?_, fun p i hi => (covered_runs p hi).symm⟩
  obtain ⟨hbank, htrap, hpc, -⟩ := storeRuns_sameAcross rel v m n rs' s
  exact ⟨hbank, htrap, hpc⟩

end

section
/-!
PROOFS. Tile, matrix and X operations: what each does at issue (R173 to R198); the life of a queued operation (R117, R176, R189, R304).
-/
namespace Sys2Proof.Machine

/-- A staged operation clears the tags of its destinations (R117). -/
theorem tag_stage (s : State) (o : QOp) {n : Nat} (hn : n ∈ o.dsts) : (s.stage o).me.tag n = false := by
  have hme : (s.stage o).me = { s.me with
      queue := s.me.queue ++ [{ o with id := s.me.staged, inst := s.me.inst, fence := s.me.heldSeq, issue := s.me.issues
                                       gid := s.issueKey, gang := s.myCore.gang, rm := rmOf s.me.bank.fpflags }]
      staged := s.me.staged + 1 } := (State.ctx_updCtx ..).trans (if_pos ⟨rfl, rfl⟩)
  rw [hme, Bool.eq_false_iff, Ne, tag_iff]
  refine fun h => h { o with id := s.me.staged, inst := s.me.inst, fence := s.me.heldSeq, issue := s.me.issues
                             gid := s.issueKey, gang := s.myCore.gang, rm := rmOf s.me.bank.fpflags } ?_ hn
  exact List.mem_filter.mpr ⟨List.mem_append_right _ List.mem_cons_self, beq_self_eq_true _⟩

end Sys2Proof.Machine
open Sys2Proof Sys2Proof.Machine

/-- Settles O51: each operation's meaning, and the tags of what is staged. -/
theorem tileOperations : Obligations.TileOperations := by
  intro s g t u rc ns d q r a b c md dst src op
  refine ⟨fun h => exec_issues h rfl rfl, fun h => exec_issues h rfl rfl, fun h => exec_issues h rfl rfl,
    fun h => exec_issues h rfl rfl, fun h => exec_issues h rfl rfl, fun m h => exec_issues h rfl rfl,
    fun h => exec_issues h rfl rfl, fun h => exec_issues h rfl rfl, fun h => exec_issues h rfl rfl,
    fun h => exec_issues h rfl rfl, fun h => exec_issues h rfl rfl, fun tm am h => exec_issues h rfl rfl,
    fun h => exec_issues h rfl rfl, fun o => rfl, fun o n hn => tag_stage s o hn⟩

namespace Sys2Proof.Machine

/-- The tags an MMA reads are those of its accumulator and of both operands, which stand on its own core (R117, R182). -/
theorem mmaSrcs_own (s : State) (n : BitVec 4) (x y : MOp) :
    s.mmaSrcs false n x y = [accTag n.toNat, mopTag x, mopTag y] := by
  have hk : ∀ isB, ringCore false s.issue.core s.myCore.gang isB = s.issue.core := fun isB => rfl
  cases x <;> cases y <;> simp [State.mmaSrcs, hk]

/-- An ACCDEF of base, rows and columns 0 unbinds its name (R179). -/
theorem accdefBind_eq (s : State) (i32 : Bool) (a b c : Sel) : accdefBind i32 a b c s =
    if s.src a = 0 ∧ (s.src b).toNat = 0 ∧ (s.src c).toNat = 0 then none else
      some { base := (s.src a).toNat, rows := (s.src b).toNat, cols := (s.src c).toNat, i32 := i32
             dpa := s.dpaHere (s.src a).toNat } := by
  have h0 : (s.src a).toNat = 0 ↔ s.src a = 0 := by rw [BitVec.toNat_eq]; rfl
  simp only [accdefBind, h0]

theorem completes_accdef (s : State) (g : BitVec 4) (i32 : Bool) (n : BitVec 4) (a b c : Sel) :
    Completes (.accdef g i32 n a b c) s ((s.stage {
      id := 0, i := .accdef g i32 n a b c, bind_ := accdefBind i32 a b c s, dsts := [accTag n.toNat] }).updMe (fun x =>
        { x with bank := { x.bank with acc := Tbl.set x.bank.acc n.toNat (accdefBind i32 a b c s) } })) :=
  fun h => exec_issues h rfl rfl

theorem completes_mma (s : State) (g : BitVec 4) (f : MFmt) (n : BitVec 4) (x y : MOp) (m8 n16 : BitVec 8)
    (k16 : BitVec 12) (pa pb z : Bool) : Completes (.mma g f n x y m8 n16 k16 pa pb z) s (s.stage {
      id := 0, i := .mma g f n x y m8 n16 k16 pa pb z, bind_ := s.binding n.toNat, dsts := [accTag n.toNat],
      fmts := s.myCore.bankfmt, fmtsB := s.myCore.bankfmt, srcs := s.mmaSrcs false n x y }) :=
  fun h => exec_issues h rfl rfl

end Sys2Proof.Machine

/-- Settles O52: each operation's meaning, with the tags of an MMA's operands and the binding of an ACCDEF written out. -/
theorem matrixOperations : Obligations.MatrixOperations := by
  intro s g f t rc n r x y m8 n16 k16 pa pb z ns i32 dir v d a b c bd acc op near rows cols newBind
  refine ⟨fun h => exec_issues h rfl rfl, fun h => exec_issues h rfl rfl, ?_, fun h => exec_issues h rfl rfl, ?_,
    fun h => exec_issues h rfl rfl, fun h => exec_issues h rfl rfl, fun h => exec_issues h rfl rfl, fun hd h => ?_,
    fun hd h => ?_, fun h => exec_issues h rfl rfl, fun h => exec_issues h rfl rfl⟩
  · have hm := completes_mma s g f n x y m8 n16 k16 pa pb z
    rwa [mmaSrcs_own] at hm
  · have hd := completes_accdef s g i32 n a b c
    rwa [accdefBind_eq] at hd
  · subst hd
    exact exec_issues h rfl rfl
  · subst hd
    exact exec_issues h rfl rfl

namespace Sys2Proof.Machine

/-! ## The queues while held effects go on (R189) -/

/-- Every context has the operations in its queue that it had. -/
structure QueuesKept (s t : State) : Prop where
  queue : ∀ k j, (t.ctx k j).queue = (s.ctx k j).queue

namespace QueuesKept

theorem refl (s : State) : QueuesKept s s := ⟨fun _ _ => rfl⟩

theorem trans {s t u : State} (h : QueuesKept s t) (h' : QueuesKept t u) : QueuesKept s u :=
  ⟨fun k j => (h'.queue k j).trans (h.queue k j)⟩

theorem of_accesses {s t : State} (h : Accesses s t) : QueuesKept s t where
  queue k j := by
    obtain ⟨fr, hf⟩ := h.ctx k j
    rw [hf]

theorem foldl {α : Type} {g : State → α → State} (hg : ∀ s a, QueuesKept s (g s a)) :
    ∀ (l : List α) (s : State), QueuesKept s (l.foldl g s)
  | [], s => refl s
  | a :: l, s => (hg s a).trans (foldl hg l (g s a))

theorem updCtx (s : State) (k j : Nat) (f : Ctx → Ctx) (hf : (f (s.ctx k j)).queue = (s.ctx k j).queue) :
    QueuesKept s (s.updCtx k j f) where
  queue m n := by
    rw [State.ctx_updCtx]
    split
    · next h => obtain ⟨rfl, rfl⟩ := h; exact hf
    · rfl

end QueuesKept

theorem Ctx.queue_updBankOf (x : Ctx) (n : Nat) (f : Bank → Bank) : (x.updBankOf n f).queue = x.queue := by
  unfold Ctx.updBankOf
  split <;> rfl

theorem noteArrival_queues (s : State) (k j who sc inst l n : Nat) :
    QueuesKept s (noteArrival s k j who sc inst l n) := by
  unfold noteArrival
  split
  · exact QueuesKept.refl s
  · exact QueuesKept.updCtx s k j _ (Ctx.queue_updBankOf ..)

theorem countArrival_queues (s : State) (k j who sc inst l n : Nat) :
    QueuesKept s (countArrival s k j who sc inst l n) := by
  unfold countArrival
  split
  · exact QueuesKept.refl s
  · exact (noteArrival_queues ..).trans (.of_accesses (writeDpa_accesses ..))

theorem applyHeld_queues (s : State) (k j n : Nat) (e : HeldEff) : QueuesKept s (applyHeld s k j n e) := by
  cases e with
  | store ps so joined => exact QueuesKept.foldl (fun s p => .of_accesses (applyPiece_accesses ..)) ps s
  | arrive sc inst l m =>
      exact (QueuesKept.foldl (fun s i => noteArrival_queues ..) _ s).trans (countArrival_queues ..)
  | fence d full =>
      cases full
      · exact QueuesKept.refl s
      · exact .of_accesses (acquired_readsOnly s k).toAccesses
  | handover => exact QueuesKept.refl s

theorem drainHeld_queues (k j : Nat) : ∀ (f : Nat) (s : State), QueuesKept s (drainHeld k j f s)
  | 0, s => .refl s
  | f + 1, s => by
      unfold drainHeld
      split
      · exact .refl s
      · exact ((QueuesKept.updCtx s k j _ rfl).trans (applyHeld_queues ..)).trans (drainHeld_queues k j f _)

/-- A completed operation leaves its queue (R117). -/
theorem finishOp_leaves (s : State) (k j : Nat) (o : QOp) :
    ∀ p ∈ ((s.finishOp k j o).ctx k j).queue, p.id ≠ o.id := fun p hp => by
  unfold State.finishOp State.drain at hp
  rw [(drainHeld_queues ..).queue, State.ctx_updCtx, if_pos ⟨rfl, rfl⟩] at hp
  simpa using (List.mem_filter.mp hp).2

/-! ## Starting and completing an operation (R117) -/

section
variable {s : State} {k j n : Nat} {o : QOp}

theorem queuedOpStart_eq (h : s.op? k j n = some o) :
    exec (.queuedOpStart k j n) s = .next (if opReady s k j o then beginOp s k j o else s) := by
  show execQueuedOpStart k j n s = _
  rw [execQueuedOpStart, h]

theorem queuedOpComplete_eq (h : s.op? k j n = some o) : exec (.queuedOpComplete k j n) s =
    .next (if o.started && o.page.isNone && popsFree s o k then s.finishOp k j o else s) := by
  show execQueuedOpComplete k j n s = _
  rw [execQueuedOpComplete, h]

/-- An older operation of the context that has not started holds a later one back (R117). -/
theorem mayStart_false {p : QOp} (hp : p ∈ (s.ctx k j).queue) (hi : p.inst = o.inst) (hlt : p.issue < o.issue)
    (hn : p.started = false) : s.mayStart k j o = false := by
  have hb : p.holdsBack o = true := by simp [QOp.holdsBack, hi, hlt, hn]
  have ha : (s.ctx k j).queue.any (fun p => p.holdsBack o) = true := List.any_eq_true.mpr ⟨p, hp, hb⟩
  simp [State.mayStart, ha]

end

end Sys2Proof.Machine

/-- Settles O53: the start and the completion of an operation, case by case, and what stands in the queue after one. -/
theorem queuedOperations : Obligations.QueuedOperations := by
  intro s k j n
  refine ⟨fun h => ⟨?_, ?_⟩, fun o ho => ⟨fun hr => ?_, ?_, fun m => rfl, fun hs hp hf => ?_, fun hn => ?_⟩,
    finishOp_leaves s k j, fun t r v m => ?_, fun o p hp hi hlt hn => mayStart_false hp hi hlt hn⟩
  · show execQueuedOpStart k j n s = _
    rw [execQueuedOpStart, h]
  · show execQueuedOpComplete k j n s = _
    rw [execQueuedOpComplete, h]
  · rw [queuedOpStart_eq ho, hr]
    rfl
  · intro held
    refine ⟨fun hr hh => ?_, fun m a w f q hr hh => ?_⟩
    · change firstHeld s k (s.who k j) (skipRngs o.ranges o.done) o.done = none at hh
      rw [queuedOpStart_eq ho, hr, if_pos rfl, beginOp, hh]
    · change firstHeld s k (s.who k j) (skipRngs o.ranges o.done) o.done = some (m, a, .miss f q w) at hh
      rw [queuedOpStart_eq ho, hr, if_pos rfl, beginOp, hh]
      exact ⟨fun hp => congrArg _ (if_neg (by rw [hp]; exact Bool.false_ne_true)), fun hp => congrArg _ (if_pos hp)⟩
  · rw [queuedOpComplete_eq ho, hs, hp, hf]
    rfl
  · rw [queuedOpComplete_eq ho, if_neg]
    rintro hc
    simp only [Bool.and_eq_true, Option.isNone_iff_eq_none] at hc
    obtain ⟨⟨hs, hp⟩, hf⟩ := hc
    rcases hn with h | h | h
    · exact Bool.false_ne_true (h.symm.trans hs)
    · exact h hp
    · exact Bool.false_ne_true (h.symm.trans hf)
  · show ((s.updCtx k j _).ctx k j) = _
    rw [State.ctx_updCtx, if_pos ⟨rfl, rfl⟩, Ctx.updBankOf, if_pos rfl]

/-- Settles O54: every X command issues as `enqueue`, whose entry is written out. -/
theorem commandIssue : Obligations.CommandIssue := by
  refine ⟨fun s g ch e op pace d v n f kind x o a b c => ?_, fun s i ch => ?_⟩
  · intro q
    exact ⟨fun h => exec_issues h rfl rfl, fun h => exec_issues h rfl rfl, fun h => exec_issues h rfl rfl,
      fun h => exec_issues h rfl rfl, fun h => exec_issues h rfl rfl, fun h => exec_issues h rfl rfl,
      fun h => exec_issues h rfl rfl, fun h => exec_issues h rfl rfl, fun h => exec_issues h rfl rfl,
      fun h => exec_issues h rfl rfl, fun h => exec_issues h rfl rfl, fun h => exec_issues h rfl rfl,
      fun h => exec_issues h rfl rfl, fun h => exec_issues h rfl rfl, fun h => exec_issues h rfl rfl,
      fun h => exec_issues h rfl rfl, fun h => exec_issues h rfl rfl, fun h => exec_issues h rfl rfl⟩
  · exact ⟨_, _, rfl, rfl, rfl, rfl, rfl, rfl, rfl, rfl, rfl, rfl, rfl, rfl, rfl⟩

end

section
/-!
PROOFS. The life of a command and of a collective (R197 to R217, R317, R348).
-/
namespace Sys2Proof.Machine

/-! ## Channels and their head commands (R197) -/

theorem State.chn_updChan (s : State) (k n m i : Nat) (f : Chan → Chan) : ((s.updChan k n f).core m).chn i =
    if m = k ∧ i = n then f ((s.core k).chn n) else (s.core m).chn i := by
  simp only [State.updChan, State.core_updCore]
  split
  · next hm =>
    subst hm
    simp only [CoreSt.chn, Tbl.upd, Tbl.getD_set]
    split
    · next hi => rw [if_pos ⟨trivial, hi⟩]
    · next hi => rw [if_neg (fun h => hi h.2)]
  · next hm => rw [if_neg (fun h => hm h.1)]

section
variable {s : State} {k ch : Nat} {c : Cmd} (hc : s.headCmd k ch = some c)
include hc

theorem headCmd_updCmd (f : Cmd → Cmd) : (s.updCmd k ch c.serial f).headCmd k ch = some (f c) := by
  have hq : ((s.core k).chn ch).queue.head? = some c := hc
  rw [State.headCmd, State.updCmd, State.chn_updChan, if_pos ⟨rfl, rfl⟩]
  show (((s.core k).chn ch).queue.map _).head? = _
  rw [List.head?_map, hq]
  simp

theorem headCmd_stopCmd (st : Status) (n : Nat) :
    (stopCmd s k ch c st n).headCmd k ch = some { c with prog := { c.prog with stop := some (st, n) } } :=
  headCmd_updCmd hc _

end

@[simp] theorem State.headCmd_push (s : State) (l : List Instr) (k ch : Nat) :
    (s.push l).headCmd k ch = s.headCmd k ch := rfl

theorem headCmd_settleCmd (s : State) (k ch : Nat) : (settleCmd s k ch).headCmd k ch = s.headCmd k ch := by
  unfold settleCmd
  split
  · split <;> rfl
  · rfl

end Sys2Proof.Machine
open Sys2Proof Sys2Proof.Machine

namespace Sys2Proof.Machine

/-! ## How a command starts (R204 to R217) -/

/-- What a command that may start does then. -/
def startCmd (s : State) (k ch : Nat) (c : Cmd) : State :=
  match c.i with
  | .xcopy _ _ _ _ _ _ _ (some _) => startPattern s k ch c
  | .xcopy .. | .xacc .. | .xfill .. => s.beginRing k ch c (c.c.toNat / esOf c.i)
  | .xexpand .. => s.beginRing k ch c (c.c.toNat / esOf c.i)
  | .xgather _ _ _ _ _ _ _ n | .xscatter _ _ _ _ _ _ _ n => s.beginRing k ch c (n.toNat + 1)
  | .xfetch .. | .xcas .. | .xsignal .. => s.begin k ch c 1
  | .xorder .. => if field c.b 16 48 ≠ 0 then s.atOnce k ch c stDesc 0 else s.atOnce k ch c 0 0
  | .xcoll .. => startColl s k ch c
  | _ => startKv s k ch c

section
variable {s : State} {k ch : Nat} {c : Cmd}

theorem commandStart_eq (hc : s.headCmd k ch = some c) (hr : cmdReady s k ch = true) :
    exec (.commandStart k ch) s = .next (startCmd s k ch c) := by
  show execCommandStart k ch s = _
  rw [execCommandStart, hr, hc]
  rfl

theorem commandStart_of_not_ready (hr : cmdReady s k ch = false) : exec (.commandStart k ch) s = .next s := by
  show execCommandStart k ch s = _
  rw [execCommandStart, hr]
  rfl

/-- A block-store command whose table entries can be read, and that asks no other package, runs at its start. -/
theorem startKv_eq_runKv (ht : (startNames c.i c).findSome? (s.badTable (s.fnOf c.launch)) = none)
    (hp : s.routes.contains (askedPkg s (s.fnOf c.launch) c) = false) : startKv s k ch c = runKv s k ch c := by
  rw [startKv, ht, hp]
  rfl

theorem runKv_kvappend {g v x a b n} (hi : c.i = .kvappend g v x a b n) : runKv s k ch c =
    if field c.b 52 12 ≠ 0 ∨ field c.b 28 24 ≠ 0 then s.atOnce k ch c 9 0
    else if s.layer (s.fnOf c.launch) (field c.b 20 8) = none then s.atOnce k ch c 5 0
    else if c.c = 0 ∨ 65536 < c.c.toNat then s.atOnce k ch c 10 0
    else s.begin k ch c c.c.toNat (fun p => { p with p0 := (s.lengths (s.fnOf c.launch) (field c.b 0 20)).2 }) := by
  rw [runKv, hi]
  simp only [badName, nameBlk, nameLayer, Bool.or_eq_true, bne_iff_ne, Option.isNone_iff_eq_none]
  rfl

theorem runKv_kvget {g x p d b n} (hi : c.i = .kvget g x p d b n) : runKv s k ch c =
    if field c.b 52 12 ≠ 0 then s.atOnce k ch c 9 0
    else if s.layer (s.fnOf c.launch) (field c.b 20 8) = none then s.atOnce k ch c 5 0
    else if 65536 < c.c.toNat then s.atOnce k ch c 10 0
    else match s.kvLive (s.fnOf c.launch) (field c.b 0 52) with
      | none => s.atOnce k ch c 9 0
      | some e =>
          if s.kvReach e = false then s.atOnce k ch c 3 0
          else s.beginRing k ch c (kvgetLen c.c / 128) (fun p => { p with
            p0 := if e.pkg = s.pkg then e.gbn + 1 else 0 }) := by
  rw [runKv, hi]
  simp only [badName, nameLayer, bne_iff_ne, Option.isNone_iff_eq_none, Bool.not_eq_true']
  rfl

theorem runKv_kvsum {g x a b n} (hi : c.i = .kvsum g x a b n) : runKv s k ch c =
    if field c.b 52 12 ≠ 0 then s.atOnce k ch c 9 0
    else if s.layer (s.fnOf c.launch) (field c.b 20 8) = none then s.atOnce k ch c 5 0
    else if c.c = 0 ∨ 256 < c.c.toNat then s.atOnce k ch c 10 0
    else s.begin k ch c c.c.toNat := by
  rw [runKv, hi]
  simp only [badName, nameLayer, bne_iff_ne, Option.isNone_iff_eq_none]
  rfl

end

/-! ## Beginning, stopping and completing (R202, R208, R209) -/

section
variable {s : State} {k ch : Nat} {c : Cmd}

theorem headCmd_begin (hc : s.headCmd k ch = some c) (n : Nat) (u : Prog → Prog) :
    (s.begin k ch c n u).headCmd k ch = some { c with
      prog := u { c.prog with started := true, total := n, tick := s.now, page := none } } := by
  rw [State.begin, headCmd_settleCmd, headCmd_updCmd hc]

theorem beginRing_of_no_ring (hr : ringDst c.i = none) (n : Nat) (u : Prog → Prog) :
    s.beginRing k ch c n u = s.begin k ch c n u := by
  simp only [State.beginRing, ringStatus, hr]
  rfl

/-- What a command delivers into its ring, where its operands or its number of elements say (R204, R209). -/
theorem beginRing_stops {n : Nat} {u : Prog → Prog} {st : Status}
    (h : ringStatus s k c.i ((xCount c.i c.args).getD (n * esOf c.i)) = st) (hst : st ≠ 0) :
    s.beginRing k ch c n u = stopCmd s k ch c st 0 := by
  unfold State.beginRing
  cases hx : xCount c.i c.args <;> rw [hx, Option.getD] at h <;> simp only [h, ne_eq, hst, not_false_eq_true, if_true]

end

end Sys2Proof.Machine

namespace Sys2Proof.Machine

/-! ## Reading what a command reaches (R199, R200, R330) -/

theorem touchSegs_readsOnly (s : State) (k : Nat) (c : Cmd) (segs : List (Nat × Hit × Nat)) :
    ReadsOnly s (touchSegs s k c segs) := by
  have hf := ReadsOnly.foldl (fun s (g : Nat × Hit × Nat) => fillTlb s c.who g.2.1 (g.1 % 2 ^ 48))
    (fun s g => fillTlb_readsOnly s _ _ _) segs s
  unfold touchSegs
  exact .ite (hf.trans (touchAll_readsOnly ..)) hf

theorem readSegs_readsOnly (s : State) (k : Nat) (c : Cmd) (segs : List (Nat × Hit × Nat)) :
    ReadsOnly s (readSegs s k c segs).1 := by
  unfold readSegs
  refine ReadsOnly.foldl_fst _ (fun a g => ?_) segs (s, [])
  exact .fst _ ((checkRead_readsOnly a.1 g.2.1.dpa g.2.2).trans (readPad_readsOnly ..))

/-- Without poison, wrong symbols or unjoined views, a range is read as it stands in memory, with the context's held
stores over it (R200). -/
theorem readSegs_clear {s : State} {k : Nat} (c : Cmd) (hp : s.poison = []) (hw : s.wrong = []) (hx : (s.core k).xview = [])
    (a : Nat) (h : Hit) (n : Nat) : readSegs s k c [(a, h, n)] =
      (s, overHeld ((s.ctx k c.slot).myHeld c.inst) h.dpa (Memory.bytes s.mem h.dpa n)) := by
  have hr : s.checkRead h.dpa n = s := by rw [State.checkRead, hp, hw]; rfl
  have hd : readPad s k c.slot h.dpa n false = (s, Memory.bytes s.mem h.dpa n) :=
    if_pos (by rw [hx]; exact Bool.or_true _)
  show ((readPad (s.checkRead h.dpa n) k c.slot h.dpa n false).1, [] ++ overHeld _ h.dpa _) = _
  rw [hr, hd]
  rfl

theorem eraseDups_eq_nil {α : Type} [BEq α] {l : List α} : l.eraseDups = [] ↔ l = [] := by
  cases l <;> simp [List.eraseDups_cons]

theorem tierUnits_eq_nil {segs : List (Nat × Hit × Nat)} : tierUnits segs = [] ↔ ∀ g ∈ segs, g.2.1.tier ≠ 2 := by
  simp [tierUnits, eraseDups_eq_nil]

section
variable {s : State} {k ch : Nat} {c : Cmd} (hc : s.headCmd k ch = some c) (hd : c.prog.due = [])
include hc hd

/-- A command that waits for no tokens, and whose step takes none, goes on (R342). -/
theorem withTokens_free (go : State → State) : withTokens s k ch c [] go = go s := by
  simp [withTokens, hc, hd]

/-- A descriptor in memory of tier 1 that can be read is taken at the start (R206, R216). -/
theorem readDesc_reached {n : Nat} {segs : List (Nat × Hit × Nat)} (hr : reach s k c false c.x.toNat n = .ok segs)
    (hp : poisonSegs s segs = none) (ht : tierUnits segs = []) (go : State → List Byte → State) :
    readDesc s k ch c n go =
      go (readSegs (touchSegs s k c segs) k c segs).1 (readSegs (touchSegs s k c segs) k c segs).2 := by
  unfold readDesc
  rw [hr]
  dsimp only
  rw [hp]
  dsimp only
  rw [ht, withTokens_free hc hd]

end

/-! ## Collectives that form (R216, R348) -/

/-- A member that reaches its router is in a collective of its group and function (R216). -/
theorem mem_joinColl (f g n : Nat) (sc : Nat × Nat) (m : Nat × Nat × Nat) : ∀ (skip : Nat) (l : List Coll),
    ∃ y ∈ joinColl f g n sc m skip l, y.fn = f ∧ y.group = g ∧ m ∈ y.members := by
  intro skip l
  induction skip, l using joinColl.induct f g sc m with
  | case1 => exact ⟨_, by rw [joinColl]; exact List.mem_cons_self, rfl, rfl, List.mem_singleton_self m⟩
  | case2 skip ih =>
    obtain ⟨y, hy, h⟩ := ih
    exact ⟨y, by rw [joinColl]; exact List.mem_cons_of_mem _ hy, h⟩
  | case3 c r h =>
    refine ⟨{ c with nmemb := _, members := c.members ++ [m] }, by rw [joinColl, if_pos h]; exact List.mem_cons_self, h.1,
      h.2.1, List.mem_append_right _ (List.mem_singleton_self m)⟩
  | case4 c r h skip ih =>
    obtain ⟨y, hy, h'⟩ := ih
    exact ⟨y, by rw [joinColl, if_pos h]; exact List.mem_cons_of_mem _ hy, h'⟩
  | case5 skip c r h ih =>
    obtain ⟨y, hy, h'⟩ := ih
    refine ⟨y, ?_, h'⟩
    cases skip <;> rw [joinColl, if_neg h] <;> exact List.mem_cons_of_mem _ hy

end Sys2Proof.Machine

namespace Sys2Proof.Machine

section
variable {s : State} {k ch : Nat} {c : Cmd}

/-- What a patterned copy does once its descriptor is read (R206, R207, R209). -/
theorem startPattern_reached (hc : s.headCmd k ch = some c) (hd : c.prog.due = []) {segs : List (Nat × Hit × Nat)}
    (hr : reach s k c false c.x.toNat 128 = .ok segs) (hp : poisonSegs s segs = none) (ht : tierUnits segs = []) :
    let r := readSegs (touchSegs s k c segs) k c segs
    let d := { c with prog := { c.prog with desc := r.2 } }
    let t := r.1.updCmd k ch c.serial (fun c => { c with prog := { c.prog with desc := r.2 } })
    (patternOf r.2 (esOf c.i) = none → startPattern s k ch c = stopCmd t k ch d 5 0) ∧
    (∀ p, patternOf r.2 (esOf c.i) = some p → c.dead = [] → ringDst c.i = none →
      startPattern s k ch c = t.beginRing k ch d p.total) := by
  intro r d t
  rw [startPattern, readDesc_reached hc hd hr hp ht]
  refine ⟨fun h => ?_, fun p h hdead hring => ?_⟩
  · dsimp only
    rw [h]
    rfl
  · dsimp only
    rw [h]
    dsimp only
    rw [hdead, hring]
    rfl

theorem Sends.colls {s t : State} (h : Sends s t) : t.colls = s.colls := by
  obtain ⟨_, _, _, rfl⟩ := h
  rfl

/-- An XCOLL whose descriptor is read joins a collective of its function and group, and writes nothing (R216). -/
theorem startColl_joins (hc : s.headCmd k ch = some c) (hd : c.prog.due = []) {segs : List (Nat × Hit × Nat)}
    (hr : reach s k c false c.x.toNat 64 = .ok segs) (hp : poisonSegs s segs = none) (ht : tierUnits segs = []) :
    let r := readSegs (touchSegs s k c segs) k c segs
    (collOf r.2 ((collKey c).1 == 3) = none → startColl s k ch c = stopCmd r.1 k ch c 5 0) ∧
    (∀ g nm rank root, collOf r.2 ((collKey c).1 == 3) = some (g, nm, rank, root) →
      (startColl s k ch c).memories = r.1.memories ∧
      ∃ y ∈ (startColl s k ch c).colls, y.fn = s.fnOf c.launch ∧ y.group = g ∧ (rank, k, ch) ∈ y.members) := by
  intro r
  have hfn : r.1.fnOf c.launch = s.fnOf c.launch :=
    ((touchSegs_readsOnly s k c segs).trans (readSegs_readsOnly _ k c segs)).toAccesses.fnOf c.launch
  refine ⟨fun h => ?_, fun g nm rank root h => ⟨by simp [r], ?_⟩⟩
  all_goals
    rw [startColl, readDesc_reached hc hd hr hp ht]
    change collOf (readSegs (touchSegs s k c segs) k c segs).2 ((collKey c).1 == 3) = _ at h
    generalize collKey c = q at h ⊢
    obtain ⟨kind, op, n⟩ := q
    dsimp only at h ⊢
    rw [h]
  · rfl
  · dsimp only
    set sc := numAt r.2 10 1
    set l := joinColl (r.1.fnOf c.launch) g nm (sc, scopeInst sc k) (rank, k, ch)
      (collsBefore r.1 k c g sc) r.1.colls with hl
    set t := if sc = 5 then (sendFlits { r.1 with colls := l } 4 ch { r.1 with colls := l }.routes).1
      else { r.1 with colls := l } with ht
    have htl : t.colls = l := by
      rw [ht]
      split
      · exact (Sends.sendFlits ..).colls
      · rfl
    obtain ⟨y, hy, hm⟩ := mem_joinColl (r.1.fnOf c.launch) g nm (sc, scopeInst sc k) (rank, k, ch)
      (collsBefore r.1 k c g sc) r.1.colls
    refine ⟨y, ?_, hfn ▸ hm⟩
    have hy' : y ∈ t.colls := by rw [htl]; exact hy
    split
    · split
      · exact hy'
      · split <;> exact hy'
    · exact hy'

end

end Sys2Proof.Machine

namespace Sys2Proof.Machine

/-! ## One element whose bytes are all reached (R199 to R214) -/

theorem firstHeldUp_ok : ∀ l : List (List (Nat × Hit × Nat)), firstHeldUp (l.map .ok) = none
  | [] => rfl
  | _ :: l => firstHeldUp_ok l

theorem contains_remote_ok (l : List (List (Nat × Hit × Nat))) : (l.map Reach.ok).contains .remote = false := by
  simp [List.contains_eq_mem]

theorem map_segs_ok (l : List (List (Nat × Hit × Nat))) : (l.map Reach.ok).map Reach.segs = l := by
  simp [Function.comp_def, Reach.segs]

theorem flatMap_segs_ok (l : List (List (Nat × Hit × Nat))) : (l.map Reach.ok).flatMap Reach.segs = l.flatten := by
  rw [List.flatMap_def, map_segs_ok]

/-- The forms whose element is one read, one write, or both, each at an address of its own (R205, R211 to R214). -/
def plainForm (s : State) (k : Nat) (c : Cmd) : Bool :=
  match c.i with
  | .xgather .. | .xscatter .. | .xacc .. | .xfetch .. | .xcas .. | .xfill .. => true
  | .xsignal .. => !signalWaits s k c
  | _ => false

section
variable {s : State} {k ch : Nat} {c : Cmd} {e : Nat}

theorem elemReads_length_le (hp : plainForm s k c = true) : (elemReads s c e).length ≤ 1 := by
  unfold plainForm at hp
  split at hp <;> simp_all [elemReads]

theorem elemStep_plain (hp : plainForm s k c = true) (hr : ringDst c.i = none) (hb : behindDeferred s c e = false) :
    elemStep s k ch c e = dataElem s k ch c e (elemReads s c e) := by
  unfold elemStep
  rw [hr, hb]
  unfold plainForm at hp
  split at hp <;> simp_all [elemReads]

variable {rs : List (List (Nat × Hit × Nat))} {wa n : Nat} {ds old : List (Nat × Hit × Nat)}
  {res : Option (Nat × List (Nat × Hit × Nat))}

/-- An element that is reached, in memory of tier 1, aligned and within the pace, is applied. -/
theorem dataElem_reached (hc : s.headCmd k ch = some c) (hring : ringDst c.i = none) (hd : c.prog.due = [])
    (hpod : ∀ p ∈ podPkgs s c e, p = s.pkg)
    (hrs : (elemReads s c e).map (fun r => reach s k c false r.1 r.2) = rs.map Reach.ok)
    (hw : elemWrite s c e = some (wa, n)) (hds : reach s k c true wa n = .ok ds)
    (hold : readsOld c.i = true → reach s k c false wa n = .ok old ∧ tierUnits old = [])
    (hres : (elemResult c).map (fun w => (w.1, reach s k c true w.1 w.2)) = res.map (fun w => (w.1, Reach.ok w.2)))
    (htr : ∀ w, res = some w → tierUnits w.2 = []) (ht : tierUnits (rs.flatten ++ ds) = [])
    (hal : alignedOnly c.i = true → wa % esOf c.i = 0 ∧ ∀ r ∈ elemReads s c e, r.1 % esOf c.i = 0)
    (hpace : paceLets s c n = true) :
    dataElem s k ch c e (elemReads s c e) = applyElem s k ch c e rs (some (wa, ds)) n res := by
  have hno :
      (alignedOnly c.i && (elemReads s c e ++ (elemWrite s c e).toList).any (fun r => r.1 % esOf c.i != 0)) = false := by
    cases ha : alignedOnly c.i with
    | false => rfl
    | true =>
      obtain ⟨hwa, hra⟩ := hal ha
      simp only [hw, Bool.true_and, List.any_eq_false, List.mem_append, Option.toList_some, List.mem_singleton, bne_iff_ne,
        ne_eq, not_not]
      rintro r (h | rfl)
      · exact hra r h
      · exact hwa
  let olds : List (List (Nat × Hit × Nat)) := if readsOld c.i then [old] else []
  have holds : (if readsOld c.i then (elemWrite s c e).toList.map (fun w => reach s k c false w.1 w.2) else []) =
      olds.map Reach.ok := by
    cases ho : readsOld c.i with
    | false => simp [olds, ho]
    | true => simp [olds, ho, hw, (hold ho).1]
  have hall : (elemReads s c e).map (fun r => reach s k c false r.1 r.2) ++
      (if readsOld c.i then (elemWrite s c e).toList.map (fun w => reach s k c false w.1 w.2) else []) ++
      [reach s k c true wa n] ++
      (((elemResult c).map (fun w => (w.1, reach s k c true w.1 w.2))).map (·.2)).toList =
      (rs ++ olds ++ [ds] ++ (res.map (·.2)).toList).map Reach.ok := by
    rw [hrs, holds, hds, hres]
    cases res <;> simp
  have htier : tierUnits (rs ++ olds ++ [ds] ++ (res.map (·.2)).toList).flatten = [] := by
    rw [tierUnits_eq_nil] at ht ⊢
    intro g hg
    simp only [List.flatten_append, List.mem_append] at hg ht
    rcases hg with ((h | h) | h) | h
    · exact ht g (.inl h)
    · cases ho : readsOld c.i with
      | false => simp [olds, ho] at h
      | true => exact tierUnits_eq_nil.mp (hold ho).2 g (by simpa [olds, ho] using h)
    · exact ht g (.inr (by simpa using h))
    · cases res with
      | none => simp at h
      | some w => exact tierUnits_eq_nil.mp (htr w rfl) g (by simpa using h)
  have hfar : (podPkgs s c e).filter (· != s.pkg) = [] := by
    rw [List.filter_eq_nil_iff]
    intro p hp
    simp [hpod p hp]
  unfold dataElem
  simp only [hring, hw, Option.map_none, Option.map_some, Option.toList_some] at hno hall ⊢
  rw [hno, hall, firstHeldUp_ok]
  simp only [withFar, hfar, hpace, flatMap_segs_ok, htier, contains_remote_ok, withTokens_free hc hd, hrs, map_segs_ok, hres,
    hds]
  cases res <;> rfl

end

end Sys2Proof.Machine

namespace Sys2Proof.Machine

/-! ## Completions (R202, R203) -/

/-- Where two states have the same channels. -/
def SameChans (s t : State) : Prop := ∀ m, (t.core m).chan = (s.core m).chan

namespace SameChans

theorem refl (s : State) : SameChans s s := fun _ => rfl

theorem trans {s t u : State} (h : SameChans s t) (h' : SameChans t u) : SameChans s u := fun m => (h' m).trans (h m)

theorem of_cores {s t : State} (h : t.cores = s.cores) : SameChans s t := fun m => by rw [State.core, State.core, h]

theorem setCtx (s : State) (k j : Nat) (x : Ctx) : SameChans s (s.setCtx k j x) := fun m => by
  show ((s.updCore k _).core m).chan = _
  rw [State.core_updCore]
  split
  · next h => rw [h]; rfl
  · rfl

theorem ite {s a b : State} {p : Prop} [Decidable p] (ha : SameChans s a) (hb : SameChans s b) :
    SameChans s (if p then a else b) := by
  split
  · exact ha
  · exact hb

theorem foldl {α : Type} {g : State → α → State} (hg : ∀ s a, SameChans s (g s a)) :
    ∀ (l : List α) (s : State), SameChans s (l.foldl g s)
  | [], s => refl s
  | a :: l, s => (hg s a).trans (foldl hg l (g s a))

theorem leaveColl (s : State) (k n : Nat) : SameChans s (leaveColl s k n) :=
  trans (of_cores (t := { s with colls := _ }) rfl) (foldl (fun t (c : Coll) => of_cores (State.updFn_cores t c.fn _)) _ _)

theorem wakeWatch (s : State) (k j : Nat) : SameChans s (wakeWatch s k j) := by
  unfold Machine.wakeWatch
  dsimp only
  split
  · split
    · exact setCtx s k j _
    · exact refl s
  · exact refl s

theorem breakChanWatches (s : State) (k n : Nat) : SameChans s (breakChanWatches s k n) := by
  refine foldl (fun s j => ?_) _ s
  split
  · split
    · exact wakeWatch s k j
    · exact refl s
  · exact refl s

end SameChans

/-- A completed command has left its queue, and its channel reports its status and its count (R202). -/
theorem chn_endCmd (s : State) (k n : Nat) (c : Cmd) (st : Status) (count : Nat) :
    ((s.endCmd k n c st count).core k).chn n = { (s.core k).chn n with
      queue := ((s.core k).chn n).queue.filter (fun q => q.serial != c.serial), lcount := count, lstat := st
      ep := c.prog.ep, done := ((s.core k).chn n).done + 1 } := by
  have hflags (t : State) : SameChans t (if (t.ctx k c.slot).state == .empty then t else
      t.engineFlags k c.slot c.inst c.prog.flags) := .ite (.refl t) (.setCtx t k c.slot _)
  have hcoll (t : State) : SameChans t (match c.i with
      | .xcoll .. => leaveColl t k n
      | _ => t) := by
    split
    · exact .leaveColl t k n
    · exact .refl t
  have hbreak (t : State) : SameChans t (if st = 0 then t else breakChanWatches t k n) :=
    .ite (.refl t) (.breakChanWatches t k n)
  have hsame : SameChans (s.updChan k n (fun h => { h with
      queue := h.queue.filter (fun q => q.serial != c.serial), lcount := count, lstat := st, ep := c.prog.ep
      done := h.done + 1 })) (s.endCmd k n c st count) := ((hflags _).trans (hcoll _)).trans (hbreak _)
  rw [CoreSt.chn, hsame k]
  exact (State.chn_updChan s k n k n _).trans (if_pos ⟨rfl, rfl⟩)

end Sys2Proof.Machine

namespace Sys2Proof.Machine

/-! ## A whole collective (R348) -/

/-- Where every source is on this package, no member asks another for it. -/
theorem askSources_local : ∀ (cs : List (Nat × Nat × Nat × Cmd)) (s : State),
    (∀ z ∈ cs, isPod z.2.2.2.b.toNat = false) → askSources s cs = s
  | [], _, _ => rfl
  | z :: cs, s, h => by
    have hz : podPkg z.2.2.2.b.toNat = none := by rw [podPkg, h z List.mem_cons_self]; rfl
    have hs : withFar s z.2.1 z.2.2.1 z.2.2.2 z.2.2.2.wholeKey none (podPkg z.2.2.2.b.toNat).toList
        [stRights, stNomap, stPoison] id = s := by rw [hz]; rfl
    show askSources (withFar s z.2.1 z.2.2.1 z.2.2.2 z.2.2.2.wholeKey none (podPkg z.2.2.2.b.toNat).toList
        [stRights, stNomap, stPoison] id) cs = s
    rw [hs]
    exact askSources_local cs s (fun y hy => h y (List.mem_cons_of_mem _ hy))

theorem sourceHere_local (s : State) {c : Cmd} (h : isPod c.b.toNat = false) : c.sourceHere s = true := by
  rw [Cmd.sourceHere, podPkg, h]
  rfl

theorem foldl_updCmd_fn (f : Nat) (u : Cmd → Cmd) : ∀ (cs : List (Nat × Nat × Nat × Cmd)) (s : State),
    (cs.foldl (fun s m => s.updCmd m.2.1 m.2.2.1 m.2.2.2.serial u) s).fn f = s.fn f
  | [], _ => rfl
  | m :: cs, s => (foldl_updCmd_fn f u cs (s.updCmd m.2.1 m.2.2.1 m.2.2.2.serial u)).trans rfl

theorem updColl_fn (s : State) (f g n : Nat) (u : Coll → Coll) : (s.updColl f g u).fn n = s.fn n := by
  unfold State.updColl
  split <;> rfl

/-- A collective of one package takes a reduction context of its function, if one is free (R348). -/
theorem rctxInuse_decideColl {s : State} {y : Coll} (hd : y.decided = false) (hf : y.far = [])
    (cs : List (Nat × Nat × Nat × Cmd)) : ((decideColl s y cs).fn y.fn).rctxInuse =
      if (s.fn y.fn).rctxInuse < (s.fn y.fn).rctxCount then (s.fn y.fn).rctxInuse + 1 else (s.fn y.fn).rctxInuse := by
  unfold decideColl
  rw [hd, hf, if_neg Bool.false_ne_true]
  dsimp only
  rw [foldl_updCmd_fn]
  by_cases hlt : (s.fn y.fn).rctxInuse < (s.fn y.fn).rctxCount
  · simp [hlt, updColl_fn]
  · simp [hlt, updColl_fn]

section
variable {s : State} {fn group : Nat} {y : Coll} {m : Nat × Nat × Nat × Cmd} {r : List (Nat × Nat × Nat × Cmd)}

theorem collectiveForm_disagree (hy : s.wholeColl fn group = some y) (hm : y.cmds s = m :: r)
    (h : (m :: r).any (fun z => collKey z.2.2.2 != collKey m.2.2.2) = true) : exec (.collectiveForm fn group) s =
      .next ((m :: r).foldl (fun s z => stopCmd s z.2.1 z.2.2.1 z.2.2.2 5 0) s) := by
  show execCollectiveForm fn group s = _
  rw [execCollectiveForm, hy]
  dsimp only
  rw [hm]
  dsimp only
  rw [h]
  rfl

theorem collectiveForm_agree (hy : s.wholeColl fn group = some y) (hm : y.cmds s = m :: r) (hf : y.far = [])
    (h : (m :: r).any (fun z => collKey z.2.2.2 != collKey m.2.2.2) = false)
    (hz : ∀ z ∈ m :: r, isPod z.2.2.2.b.toNat = false ∧
      ∃ q, reach (decideColl s y (m :: r)) z.2.1 z.2.2.2 false z.2.2.2.b.toNat z.2.2.2.c.toNat = .ok q)
    (hl : ∀ z ∈ y.cmds (decideColl s y (m :: r)), isPod z.2.2.2.b.toNat = false) :
    let t := decideColl s y (m :: r)
    let u := gatherColl (t.updColl fn group (fun y => { y with page := none })) (m :: r)
    exec (.collectiveForm fn group) s =
      .next ((m :: r).foldl (fun s z => settleCmd (s.updCmd z.2.1 z.2.2.1 z.2.2.2.serial (fun c => { c with
        prog := { c.prog with due := u.2.2.2 } })) z.2.1 z.2.2.1)
        (u.1.updColl fn group (fun y => { y with formed := true, data := y.sources u.2.1, bad := u.2.2.1 }))) := by
  intro t u
  show execCollectiveForm fn group s = _
  rw [execCollectiveForm, hy]
  dsimp only
  rw [hm]
  dsimp only
  rw [h, hf]
  have hfree (f : Nat × Nat × Nat × Cmd → Option ((Nat × Nat × Nat × Cmd) × Reach)) {x}
      (hf : ∀ z q, reach t z.2.1 z.2.2.2 false z.2.2.2.b.toNat z.2.2.2.c.toNat = .ok q → f z = none)
      (hx : (m :: r).findSome? f = some x) : False := by
    obtain ⟨z, hzm, hzx⟩ := List.exists_of_findSome?_eq_some hx
    obtain ⟨q, hq⟩ := (hz z hzm).2
    exact absurd ((hf z q hq).symm.trans hzx) nofun
  have hask : askSources t (m :: r) = t := askSources_local _ t (fun z hzm => (hz z hzm).1)
  have hhere : (y.cmds t).all (fun m => m.2.2.2.sourceHere t) = true :=
    List.all_eq_true.mpr (fun z hzm => sourceHere_local t (hl z hzm))
  refine congrArg Host.Outcome.next ?_
  rw [List.any_nil, Bool.or_false, if_neg Bool.false_ne_true]
  split
  · next hx => exact (hfree _ (fun z q hq => by rw [show reach _ z.2.1 z.2.2.2 false _ _ = _ from hq]) hx).elim
  · next hx => exact (hfree _ (fun z q hq => by rw [show reach _ z.2.1 z.2.2.2 false _ _ = _ from hq]) hx).elim
  · next hx => exact (hfree _ (fun z q hq => by rw [show reach _ z.2.1 z.2.2.2 false _ _ = _ from hq]) hx).elim
  · rw [hask, hhere]
    rfl

end

end Sys2Proof.Machine

namespace Sys2Proof.Machine

section
variable {s : State} {k ch : Nat} {c : Cmd} (hc : s.headCmd k ch = some c)
include hc

theorem commandElement_waits (h : c.prog.started = false ∨ c.prog.stop ≠ none) :
    exec (.commandElement k ch) s = .next s := by
  show execCommandElement k ch s = _
  rw [execCommandElement, hc]
  refine congrArg _ (if_pos ?_)
  rcases h with h | h
  · rw [h]; rfl
  · rw [Option.isSome_iff_ne_none.mpr h, Bool.or_true]

theorem commandElement_goes {e : Nat} (hst : c.prog.started = true) (hstop : c.prog.stop = none)
    (hw : c.prog.wants = none) (he : s.nextElem c = some e) :
    exec (.commandElement k ch) s = .next (elemStep s k ch c e) := by
  show execCommandElement k ch s = _
  rw [execCommandElement, hc]
  dsimp only
  rw [hst, hstop, he, hw]
  rfl

theorem commandCompletion_stopped {st : Status} {n : Nat} (h : c.prog.stop = some (st, n)) :
    exec (.commandCompletion k ch) s = .next (s.endCmd k ch c st n) := by
  show execCommandCompletion k ch s = _
  rw [execCommandCompletion, hc]
  dsimp only
  rw [h]

theorem commandCompletion_unfinished (h : c.prog.stop = none) (hf : c.finished = false) :
    exec (.commandCompletion k ch) s = .next s := by
  show execCommandCompletion k ch s = _
  rw [execCommandCompletion, hc]
  dsimp only
  rw [h, hf]
  rfl

theorem commandCompletion_finished (h : c.prog.stop = none) (hf : c.finished = true) (hw : s.collWaits k ch = false)
    (hk : ∀ g f x a b n, c.i ≠ .kvappend g f x a b n) :
    exec (.commandCompletion k ch) s = .next (s.endCmd k ch c 0 c.prog.e) := by
  have hcount : okCount s c = c.prog.e := by
    unfold okCount
    split
    · next hi => exact (hk _ _ _ _ _ _ hi).elim
    · rfl
  show execCommandCompletion k ch s = _
  rw [execCommandCompletion, hc]
  dsimp only
  rw [h, hf, hw]
  refine congrArg Host.Outcome.next ((if_neg Bool.false_ne_true).trans ?_)
  split
  · next hi => exact (hk _ _ _ _ _ _ hi).elim
  · rw [hcount]

end

/-- An element whose reads and writes are all reached delivers what its rule gives (R205, R211 to R214). -/
theorem applyElem_unpoisoned {s : State} {k ch e wa n : Nat} {c : Cmd} {rs : List (List (Nat × Hit × Nat))}
    {ds : List (Nat × Hit × Nat)} {res : Option (Nat × List (Nat × Hit × Nat))} (hl : rs.length ≤ 1)
    (hp : poisonSegs s (rs.flatten ++ if readsOld c.i then ds else []) = none) :
    let t := touchSegs s k c (rs.flatten ++ (if readsOld c.i then ds else []) ++ ds ++ (res.map (·.2)).getD [])
    let r := match rs with
      | l :: _ => readSegs t k c l
      | [] => (t, [])
    let o := if readsOld c.i then readSegs r.1 k c ds else (r.1, [])
    let v := elemValue o.1 k ch c (ofBytes r.2) (ofBytes o.2)
    let w := writeSegs o.1 k ch c wa ds (toBytes n v.1)
    let x := match res with
      | some p => writeSegs w k ch c p.1 p.2 o.2
      | none => w
    applyElem s k ch c e rs (some (wa, ds)) n res = delivered x k ch c n v.2 (Prog.past c e) := by
  unfold applyElem
  simp only [Option.map_some, Option.getD_some]
  rw [hp]
  match rs, hl with
  | [], _ => cases res <;> rfl
  | [l], _ => cases res <;> rfl

end Sys2Proof.Machine

/-- Settles O55: starts by form, descriptors, elements, completions, and a whole collective, each by its lemma. -/
theorem commandEvents : Obligations.CommandEvents := by
  refine ⟨fun s k ch => ⟨commandStart_of_not_ready, fun h => ⟨?_, ?_⟩, fun c hc => ?_⟩,
    fun s k n c st count => ⟨chn_endCmd s k n c st count, State.endCmd_memories s k n c st count⟩,
    fun s fn group => ⟨fun h => ?_, fun y hy => ⟨fun h => ?_, fun m r hm => ⟨collectiveForm_disagree hy hm,
      fun hf ha hz hl => collectiveForm_agree hy hm hf ha hz hl, fun hd hf => rctxInuse_decideColl hd hf _,
      fun hd => if_pos hd⟩⟩⟩⟩
  · show execCommandElement k ch s = _
    rw [execCommandElement, h]
  · show execCommandCompletion k ch s = _
    rw [execCommandCompletion, h]
  · intro es f starts
    refine ⟨fun hr => ?_, fun n u => ⟨headCmd_begin hc n u, ?_, fun h => beginRing_of_no_ring h n u, fun r h hs => ?_,
        fun r h hs hn => ?_⟩, fun st n => ⟨rfl, headCmd_stopCmd hc st n, rfl⟩, fun bytes segs hr hp ht hd => ?_,
      commandElement_waits hc, fun e hst hstop hw he => commandElement_goes hc hst hstop hw he, fun e rd old => ?_,
      fun e rs wa n ds old res => ?_, fun a h n hp hw hx => readSegs_clear c hp hw hx a h n,
      fun st n h => commandCompletion_stopped hc h, commandCompletion_unfinished hc,
      commandCompletion_finished hc⟩
    · have hs {t : State} (h : startCmd s k ch c = t) : starts t := (commandStart_eq hc hr).trans (congrArg _ h)
      refine ⟨fun g e x b hi => hs ?_, fun g e x p d b n v hi => hs (by simp only [startCmd, hi]),
        fun g e x p d b n hi => hs (by simp only [startCmd, hi, es]),
        fun g e x p d b v n hi => hs (by simp only [startCmd, hi]),
        fun g e x p a b v n hi => hs (by simp only [startCmd, hi]),
        fun g p e x q a b n hi => hs (by simp only [startCmd, hi, es]),
        fun g e x p a b n hi => hs (by simp only [startCmd, hi, es]),
        fun g e x p d b n hi => hs (by simp only [startCmd, hi, es]),
        fun g p e x a b n hi => hs (by simp only [startCmd, hi]),
        fun g e x a b n v hi => hs (by simp only [startCmd, hi]), fun g p x a b hi => hs (by simp only [startCmd, hi]),
        fun g p e z x a b n v hi => hs (by simp only [startCmd, hi]), fun ht hp => ?_⟩
      · simp only [startCmd, hi]
        split <;> rfl
      · intro badSeq noLayer live one
        have hkv {t : State} (hf : startCmd s k ch c = startKv s k ch c) (h : runKv s k ch c = t) : starts t :=
          hs (hf.trans ((startKv_eq_runKv ht hp).trans h))
        refine ⟨fun g x a b hi => hkv (by simp only [startCmd, hi]) (by simp only [runKv, hi]; rfl),
          fun g x a hi => hkv (by simp only [startCmd, hi]) (by simp only [runKv, hi]; rfl),
          fun g x a b hi => hkv (by simp only [startCmd, hi]) (by simp only [runKv, hi]; rfl),
          fun g r x a b hi => hkv (by simp only [startCmd, hi]) (by simp only [runKv, hi]; rfl),
          fun g v x a b n hi => ?_, fun g x p d b n hi => ?_, fun g x a b n hi => ?_⟩
        · have hkv' {t : State} := hkv (t := t) (by simp only [startCmd, hi])
          rw [runKv_kvappend hi] at hkv'
          have hname (h1 : ¬badSeq) (h2 : field c.b 28 24 = 0) : ¬(field c.b 52 12 ≠ 0 ∨ field c.b 28 24 ≠ 0) :=
            not_or.mpr ⟨h1, not_not.mpr h2⟩
          exact ⟨fun h => hkv' (if_pos h), fun h1 h2 h3 => hkv' ((if_neg (hname h1 h2)).trans (if_pos h3)),
            fun h1 h2 h3 h4 => hkv' ((if_neg (hname h1 h2)).trans ((if_neg h3).trans (if_pos h4))),
            fun h1 h2 h3 h4 h5 => hkv' ((if_neg (hname h1 h2)).trans ((if_neg h3).trans
              (if_neg (not_or.mpr ⟨h4, Nat.not_lt.mpr h5⟩))))⟩
        · intro len
          have hkv' {t : State} := hkv (t := t) (by simp only [startCmd, hi])
          rw [runKv_kvget hi] at hkv'
          refine ⟨fun h => hkv' (if_pos h), fun h1 h2 => hkv' ((if_neg h1).trans (if_pos h2)),
            fun h1 h2 h3 => hkv' ((if_neg h1).trans ((if_neg h2).trans (if_pos h3))),
            fun h1 h2 h3 h4 => hkv' ((if_neg h1).trans ((if_neg h2).trans ((if_neg (Nat.not_lt.mpr h3)).trans ?_))),
            fun y h1 h2 h3 h4 => ⟨fun h5 => hkv' ((if_neg h1).trans ((if_neg h2).trans
              ((if_neg (Nat.not_lt.mpr h3)).trans ?_))), fun h5 => hkv' ((if_neg h1).trans ((if_neg h2).trans
              ((if_neg (Nat.not_lt.mpr h3)).trans ?_)))⟩⟩
          · rw [show s.kvLive _ (field c.b 0 52) = none from h4]
          · rw [show s.kvLive _ (field c.b 0 52) = some y from h4]
            exact if_pos h5
          · rw [show s.kvLive _ (field c.b 0 52) = some y from h4]
            exact if_neg (by rw [h5]; exact Bool.true_eq_false_eq_False)
        · have hkv' {t : State} := hkv (t := t) (by simp only [startCmd, hi])
          rw [runKv_kvsum hi] at hkv'
          exact ⟨fun h => hkv' (if_pos h), fun h1 h2 => hkv' ((if_neg h1).trans (if_pos h2)),
            fun h1 h2 h3 => hkv' ((if_neg h1).trans ((if_neg h2).trans (if_pos h3))),
            fun h1 h2 h3 h4 => hkv' ((if_neg h1).trans ((if_neg h2).trans
              (if_neg (not_or.mpr ⟨h3, Nat.not_lt.mpr h4⟩))))⟩
    · exact State.begin_memories ..
    · exact beginRing_stops (by rw [ringStatus, h]; dsimp only; rw [hs]; rfl) (by decide)
    · exact beginRing_stops (by rw [ringStatus, h]; dsimp only; rw [hs]; exact if_pos hn) (by decide)
    · refine ⟨fun hb => ?_, fun hb => ?_⟩
      · subst hb
        exact startPattern_reached hc hd hr hp ht
      · subst hb
        exact startColl_joins hc hd hr hp ht
    · intro at_ idx m val does
      refine ⟨fun g z x p d b v n hi hring => ⟨?_, ?_, ?_⟩, fun g z x p a b v n hi => ⟨?_, ?_, ?_⟩,
        fun g o z x p a b n hi => ⟨?_, ?_, ?_⟩, fun g o z x a b n hi => ⟨⟨?_, ?_, ?_⟩, ?_⟩,
        fun g z x a b n v hi => ⟨⟨?_, ?_, ?_⟩, ?_⟩, fun g z x p a b n hi => ⟨?_, ?_, ?_⟩, fun g o x a b hi => ⟨?_, ?_, ?_⟩⟩
      case refine_2 =>
        rw [elemWrite, hring]
        simp [hi, es, at_, Cmd.args]
      all_goals simp [elemReads, elemWrite, elemResult, elemValue, ringDst, idxOff, Cmd.args, hi, val, es, m, idx, at_]
    · intro was hform hring hb hd hpod hrs hw hds hold hres htr ht hal hp hpace
      have hplain : plainForm s k c = true := hform
      have hlen : rs.length ≤ 1 := by
        have h := congrArg List.length hrs
        rw [List.length_map, List.length_map] at h
        exact h ▸ elemReads_length_le hplain
      have helem : elemStep s k ch c e = applyElem s k ch c e rs (some (wa, ds)) n res :=
        (elemStep_plain hplain hring hb).trans (dataElem_reached hc hring hd hpod hrs hw hds hold hres htr ht hal hpace)
      exact helem.trans (applyElem_unpoisoned hlen hp)
  · show execCollectiveForm fn group s = _
    rw [execCollectiveForm, h]
  · show execCollectiveForm fn group s = _
    rw [execCollectiveForm, hy]
    dsimp only
    rw [h]

end

section
/-!
PROOFS. Answers to page requests, invalidations and window writes (R299 to R301, R334 to R336); launch queues (R271 to R288).
-/
namespace Sys2Proof.Machine

/-! ## Answers, invalidations and window writes (R299 to R301, R334 to R336) -/

section
variable {s : State} {f g code : Nat} {r : PageReq} (hr : (s.fn f).reqs.find? (fun r => r.group == g) = some r)
include hr

theorem prgResponse_away (ha : s.away f = true) : exec (.prgResponse f g code) s =
    .next (s.updFn f (fun d => { d with answers := d.answers ++ [(g, code)] })) := by
  show execPrgResponse f g code s = _
  rw [execPrgResponse, hr]
  exact congrArg _ (if_pos ha)

theorem prgResponse_here (ha : s.away f = false) : exec (.prgResponse f g code) s = .next (answerReq s f r code) := by
  show execPrgResponse f g code s = _
  rw [execPrgResponse, hr]
  exact congrArg _ (if_neg (by rw [ha]; exact Bool.false_ne_true))

end

/-- Success where the page is there: what the leaf serves goes on, and what it does not asks again (R301, R316). -/
theorem answerReq_success {s : State} {f : Nat} {r : PageReq} {e : TlbEntry}
    (hw : walk2 (dropLeaf (dropReq s f r.id) f (r.page * 4096)) f (r.page * 4096) = .leaf e) :
    let ok (w : Bool) : Bool := if w then e.wr else e.rd
    let v := releaseReq (dropLeaf (dropReq s f r.id) f (r.page * 4096)) f r.id ok
    answerReq s f r 0 = if v.waitsOn f r.id (fun w => !ok w) then askAgain v f r (fun w => !ok w) else v := by
  intro ok v
  unfold answerReq
  rw [if_pos rfl]
  dsimp only
  rw [hw]

theorem answerReq_failure {s : State} {f code : Nat} {r : PageReq} (hc : 2 ≤ code) : answerReq s f r code =
    refuseReq (((dropReq s f r.id).updFn f (fun d => { d with priStop := true })).hevent
      { type := 5, fn := f, ctxid := 0, serial := 0, cause := 0, inCause := 0, resume := 0, addr := 0 })
      f r (fun _ => true) := by
  have h0 : code ≠ 0 := by omega
  have h1 : code ≠ 1 := by omega
  unfold answerReq
  rw [if_neg h0, if_neg h1]

/-- The cached translations that an invalidation names are dropped, and paused operations write what they have in hand
(R299). -/
def invalidated (s : State) (f : Nat) (v : Word) (s1 : Bool) : State :=
  (s.updFn f (fun d => { d with tlb := d.tlb.filter (fun e => !e.named v s1) })).eachCtxOf f
    (fun s k j => (s.ctx k j).queue.foldl (flushOp k j) s)

theorem exec_invalidationComplete (s : State) (f : Nat) : exec (.invalidationComplete f false) s = .next (
    if (s.fn f).invBusy = false then s
    else
      let t := invalidated s f (s.fn f).inv false
      if t.opsRunning f = true then t else t.updFn f (fun d => { d with invBusy := false })) := by
  show execInvalidationComplete f false s = _
  rw [execInvalidationComplete]
  dsimp only
  cases (s.fn f).invBusy <;> rfl

theorem exec_invalidationComplete_s1 (s : State) (f : Nat) : exec (.invalidationComplete f true) s = .next (
    if (s.fn f).s1invBusy = false then s
    else
      let t := invalidated s f (s.fn f).s1inv true
      if t.opsRunning f = true then t else t.updFn f (fun d => { d with s1invBusy := false })) := by
  show execInvalidationComplete f true s = _
  rw [execInvalidationComplete]
  dsimp only
  cases (s.fn f).s1invBusy <;> rfl

theorem registerWindowWrite_word {s : State} {f o : Nat} {v : Word} (ho : o % 8 = 0) :
    exec (.registerWindowWrite f o 8 v) s = .next (windowWrite s f o v) := by
  show execRegisterWindowWrite f o 8 v s = _
  rw [execRegisterWindowWrite, if_pos (by simp [ho])]

theorem registerWindowWrite_dropped {s : State} {f o n : Nat} {v : Word} (h8 : ¬(n = 8 ∧ o % 8 = 0))
    (h4 : ¬(n = 4 ∧ o % 4 = 0)) : exec (.registerWindowWrite f o n v) s = .next (raiseCause s f 2) := by
  show execRegisterWindowWrite f o n v s = _
  rw [execRegisterWindowWrite, if_neg (by simpa using h8), if_neg (by simpa using h4)]
  rfl

end Sys2Proof.Machine
open Sys2Proof Sys2Proof.Machine

/-- Settles O56: the answers of a request, the two invalidations, and the writes that belong to them. -/
theorem translation : Obligations.Translation := by
  intro s f g code v
  refine ⟨fun h => ?_, fun r hr => ?_, fun k j o h => ?_, ?_, ?_, fun h => ?_, fun h => ?_, ?_, fun o h8 h => ?_,
    fun o h8 hlo hhi => ?_, ?_, fun o n h8 h4 => registerWindowWrite_dropped h8 h4⟩
  · show execPrgResponse f g code s = _
    rw [execPrgResponse, h]
  · intro u t
    refine ⟨prgResponse_away hr, fun ha => ?_⟩
    rw [prgResponse_here hr ha]
    refine ⟨fun e hc hw => ?_, fun hc => ?_, fun hc => congrArg _ (answerReq_failure hc)⟩
    · subst hc
      intro ok v
      rw [answerReq_success hw]
      exact ⟨fun h => congrArg _ (if_neg (by rw [h]; exact Bool.false_ne_true)), fun h => congrArg _ (if_pos h)⟩
    · subst hc
      rfl
  · exact if_neg (by rw [h]; exact Bool.false_ne_true)
  · intro t
    rw [exec_invalidationComplete]
    exact ⟨fun hb h => congrArg _ ((if_neg (by simp [hb])).trans
        (if_neg (by rw [show (invalidated s f _ false).opsRunning f = false from h]; exact Bool.false_ne_true))),
      fun hb h => congrArg _ ((if_neg (by simp [hb])).trans (if_pos h)),
      fun hb => congrArg _ (if_pos hb)⟩
  · intro t hb h
    rw [exec_invalidationComplete_s1]
    exact congrArg _ ((if_neg (by simp [hb])).trans
        (if_neg (by rw [show (invalidated s f _ true).opsRunning f = false from h]; exact Bool.false_ne_true)))
  · show Host.Outcome.next (mtsMgmt s 0x808 v) = _
    rw [mtsMgmt, h]
    rfl
  · show Host.Outcome.next (mtsMgmt s 0x807 v) = _
    rw [mtsMgmt, h]
    rfl
  · intro w
    refine ⟨fun hb hok => ?_, fun h => ?_⟩
    · exact congrArg _ (if_neg (by rw [hb, show invOk w = true from hok]; decide))
    · exact congrArg _ (if_pos (by rcases h with h | h <;> simp [h, show invOk (v &&& invBits) = invOk w from rfl]))
  · rw [registerWindowWrite_word h8, windowWrite, if_pos h]
    rfl
  · rw [registerWindowWrite_word h8, windowWrite, if_neg (by omega), if_pos hhi]
  · exact registerWindowWrite_word (by decide)

namespace Sys2Proof.Machine

/-! ## Launch queues (R271, R272, R335) -/

theorem exec_doorbell (s : State) (f q : Nat) (p : BitVec 32) : exec (.doorbell f q p) s = .next (
    let t := s.updQueue f q (fun x => { x with wptr := p })
    let x := (t.fn f).q q
    if x.en = true ∧ 2 ^ x.ldepth < (x.wptr - x.read).toNat then
      raiseCause (t.updQueue f q (fun x => { x with ovr := true, stop := true })) f 1
    else t) :=
  congrArg Host.Outcome.next
    (if_congr ((Bool.and_eq_true_iff ..).trans (and_congr Iff.rfl decide_eq_true_iff)) rfl rfl)

/-- The bytes of the next entry of a queue (R335). -/
def State.nextEntry (s : State) (f q : Nat) : List Byte :=
  let x := (s.fn f).q q
  Memory.bytes s.hostMem (x.qbase.toNat + x.read.toNat % 2 ^ x.ldepth * 64) 64

/-- The serial of the next entry of a queue. -/
def State.nextSerial (s : State) (f q : Nat) : Nat := q * 2 ^ 24 + ((s.fn f).q q).read.toNat % 2 ^ 24

/-- The state in which the next entry of a queue is read, and READ has advanced past it. -/
def State.entryRead (s : State) (f q : Nat) : State :=
  let u := readFor s (s.nextEntry f q) f q (s.nextSerial f q) s.nextId
  { u.updQueue f q (fun x => { x with read := x.read + 1, page := none, refused := [] }) with nextId := u.nextId + 1 }

/-- What the loader's checks say decides what becomes of an entry (R282, R301). -/
def entryOutcome (s : State) (f q : Nat) (r : Except LoadErr Launch) : State :=
  let x := (s.fn f).q q
  let d := s.nextEntry f q
  let n := s.nextSerial f q
  let t := s.entryRead f q
  match r with
  | .ok l => { t with launches := t.launches ++ [l] }
  | .error (.fail st) => refuseEntry t d f q n s.nextId st
  | .error (.bad rep) => refuseEntry (t.report (some rep)) d f q n s.nextId lsImage
  | .error (.miss g) =>
      if x.refused.contains (g / 4096) then refuseEntry t d f q n s.nextId lsImage
      else
        let p := requestPage (readFor s d f q n s.nextId) f g false
        p.1.updQueue f q (fun x => { x with page := some p.2 })

section
variable {s : State} {f q : Nat}

theorem launchEntryRead_waits
    (h : ((s.fn f).q q).available = false ∨ ((s.fn f).q q).page.all (s.answered f) = false) :
    exec (.launchEntryRead f q) s = .next s :=
  congrArg Host.Outcome.next (if_pos (by rcases h with h | h <;> simp [h]))

theorem launchEntryRead_reads (ha : ((s.fn f).q q).available = true) (hp : ((s.fn f).q q).page.all (s.answered f) = true) :
    exec (.launchEntryRead f q) s =
      .next (entryOutcome s f q (loaderChecks s (s.nextEntry f q) f q (s.nextSerial f q) s.nextId)) :=
  congrArg Host.Outcome.next ((if_neg (by simp [ha, hp])).trans rfl)

end

/-! ## Placement and retirement (R26, R274, R288) -/

/-- The highest PRIO among the heads that can be placed (R274). -/
def State.topPrio (s : State) : Nat := s.placeable.foldl (fun m x => max m x.1.prio) 0

theorem placement_of_find {s : State} {x : Launch} {r : Except Nat State}
    (h : s.placeable.find? (fun x => x.1.prio == s.topPrio) = some (x, r)) :
    exec .placement s = .next (placed s x r) := by
  show execPlacement s = _
  rw [execPlacement]
  have hfind : s.placeable.find? (fun x => x.1.prio == s.placeable.foldl (fun m x => max m x.1.prio) 0) = some (x, r) := h
  dsimp only
  rw [hfind]

theorem placement_of_nil {s : State} (h : s.placeable = []) : exec .placement s = .next s := by
  show execPlacement s = _
  rw [execPlacement]
  dsimp only
  rw [h]
  rfl

section
variable {s : State} {i : Nat} {l : Launch} (hl : s.launch? i = some l)
include hl

theorem launchRetire_waits (h : l.state ≠ .placed ∨ s.alive i = true ∨ s.hasCmds i = true) :
    exec (.launchRetire i) s = .next s := by
  show execLaunchRetire i s = _
  rw [execLaunchRetire, hl]
  refine congrArg Host.Outcome.next (if_pos ?_)
  rcases h with h | h | h
  · simp [h]
  · simp [h]
  · simp [h]

theorem launchRetire_retires (hp : l.state = .placed) (ha : s.alive i = false) (hc : s.hasCmds i = false) :
    let t := vacateAll s l
    let m := (t.launch? i).getD l
    exec (.launchRetire i) s =
      .next (writeRecord (removeLaunch (refundTo t m.fn m.purse) m) m (if m.esc = 0 then 0 else 1)) := by
  intro t m
  show execLaunchRetire i s = _
  rw [execLaunchRetire, hl]
  exact congrArg Host.Outcome.next (if_neg (by simp [hp, ha, hc]))

end

theorem sendVector_unmasked {s : State} {f v : Nat} (h : ((s.fn f).vector v).mask = false) :
    sendVector s f v = { s with msixSent := s.msixSent ++ [(f, v)] } := by
  unfold sendVector
  rw [h]
  rfl

end Sys2Proof.Machine

/-- Settles O57: queues, the reading of an entry by what its checks say, placement, retirement and coalescing. -/
theorem launches : Obligations.Launches := by
  intro s f q p
  refine ⟨?_, ?_, ?_, fun i l hl => ⟨launchRetire_waits hl, launchRetire_retires hl⟩, fun h => ?_, fun h hm => ?_⟩
  · intro t x past
    rw [exec_doorbell]
    exact ⟨fun h => congrArg _ (if_pos h), fun h => congrArg _ (if_neg h)⟩
  · intro x d n r u t refused bare l
    refine ⟨launchEntryRead_waits, fun ha hp => ?_, fun h => ?_⟩
    · have hr {v : Except LoadErr Launch} (h : r = v) : exec (.launchEntryRead f q) s = .next (entryOutcome s f q v) :=
        h ▸ launchEntryRead_reads ha hp
      refine ⟨fun l h => hr h, fun st h => hr h, fun rep h => hr h, fun g h => ⟨fun hg => ?_, fun hg => ?_⟩⟩
      · exact (hr h).trans (congrArg _ (if_pos hg))
      · exact (hr h).trans (congrArg _ (if_neg (by rw [show ((s.fn f).q q).refused.contains _ = false from hg]; simp)))
    · show readFor s d f q n s.nextId = s
      rw [readFor, h]
  · exact ⟨placement_of_nil, fun x t h => placement_of_find h, fun x st h => placement_of_find h⟩
  · exact congrArg Host.Outcome.next (if_pos (by rw [h]; rfl))
  · refine congrArg Host.Outcome.next ((if_neg (by rw [h]; decide)).trans ?_)
    exact (if_neg (by rw [hm]; decide)).trans (by rw [sendVector_unmasked hm])

end

section
/-!
PROOFS. Turns, saves, pre-emption, what is put aside and restored, the scrub of a quad (R264 to R270, R277, R278, R308).
-/
namespace Sys2Proof.Machine

/-! ## What changes one context (R265 to R267) -/

/-- A pass over slots whose step changes no other context: where the step takes `P` to `Q` in one context, every slot of the
pass has `Q` after it. -/
theorem foldl_ctx {g : State → Nat × Nat → State} {m n : Nat} {P Q : Ctx → Prop}
    (hother : ∀ t p, p ≠ (m, n) → (g t p).ctx m n = t.ctx m n) (hself : ∀ t, P (t.ctx m n) → Q ((g t (m, n)).ctx m n))
    (hQP : ∀ y, Q y → P y) : ∀ (l : List (Nat × Nat)) (t : State), P (t.ctx m n) →
      P ((l.foldl g t).ctx m n) ∧ ((m, n) ∈ l ∨ Q (t.ctx m n) → Q ((l.foldl g t).ctx m n))
  | [], t, h => ⟨h, fun hm => hm.elim nofun id⟩
  | p :: l, t, h => by
    by_cases hp : p = (m, n)
    · subst hp
      have hq := hself t h
      obtain ⟨h1, h2⟩ := foldl_ctx hother hself hQP l (g t (m, n)) (hQP _ hq)
      exact ⟨h1, fun _ => h2 (.inr hq)⟩
    · have he := hother t p hp
      obtain ⟨h1, h2⟩ := foldl_ctx hother hself hQP l (g t p) (he ▸ h)
      refine ⟨h1, fun hm => h2 ?_⟩
      rcases hm with hm | hm
      · exact .inl ((List.mem_cons.mp hm).resolve_left (fun e => hp e.symm))
      · exact .inr (he ▸ hm)

theorem foldl_ctx_of_not_mem {g : State → Nat × Nat → State} {m n : Nat}
    (hother : ∀ t p, p ≠ (m, n) → (g t p).ctx m n = t.ctx m n) : ∀ (l : List (Nat × Nat)) (t : State), (m, n) ∉ l →
      (l.foldl g t).ctx m n = t.ctx m n
  | [], _, _ => rfl
  | p :: l, t, h => (foldl_ctx_of_not_mem hother l (g t p) (fun hm => h (List.mem_cons_of_mem _ hm))).trans
      (hother t p (fun e => h (e ▸ List.mem_cons_self)))

theorem ctx_updCtx_other (s : State) {p : Nat × Nat} {m n : Nat} (h : p ≠ (m, n)) (f : Ctx → Ctx) :
    (s.updCtx p.1 p.2 f).ctx m n = s.ctx m n :=
  (State.ctx_updCtx ..).trans (if_neg (fun e => h (Prod.ext e.1.symm e.2.symm)))

theorem ctx_updCtx_self (s : State) (m n : Nat) (f : Ctx → Ctx) : (s.updCtx m n f).ctx m n = f (s.ctx m n) :=
  (State.ctx_updCtx ..).trans (if_pos ⟨rfl, rfl⟩)

/-- What a full save puts aside at once (R267). -/
def Ctx.saving (x : Ctx) (b : Saved) : Ctx :=
  { x with switch := .full, hold := if x.hold.isSome then x.hold else some b, flight := [], undo := none
           state := if x.state = .running then .ready else x.state }

theorem ctx_stopFetch (s : State) (k j m n : Nat) : (stopFetch s k j).ctx m n = if m = k ∧ n = j then
    (s.ctx k j).saving (saveBank s k j (s.core k).ic ((s.ctx k j).state != .running) (s.ctx k j).pc (s.ctx k j).rep)
    else s.ctx m n := by
  set y := (s.ctx k j).saving
    (saveBank s k j (s.core k).ic ((s.ctx k j).state != .running) (s.ctx k j).pc (s.ctx k j).rep)
  have heq : stopFetch s k j = if (s.ctx k j).state = .running then
      (s.setCtx k j y).updCore k (fun c => { c with latches := [] }) else s.setCtx k j y := rfl
  have hcore : ((s.setCtx k j y).updCore k (fun c => { c with latches := [] })).ctx m n = (s.setCtx k j y).ctx m n :=
    State.ctx_updCore_of_ctx rfl m n
  rw [heq, apply_ite (fun t : State => t.ctx m n), hcore, ite_self]
  exact State.ctx_setCtx s k j m n y

theorem ctx_stopFetch_other (s : State) {p : Nat × Nat} {m n : Nat} (h : p ≠ (m, n)) :
    (stopFetch s p.1 p.2).ctx m n = s.ctx m n :=
  (ctx_stopFetch ..).trans (if_neg (fun e => h (Prod.ext e.1.symm e.2.symm)))

/-! ## Beginning a switch (R267) -/

/-- A context whose count of the turn begins again. -/
def Ctx.recount (x : Ctx) : Ctx := { x with sinceTurn := 0, ranTurn := 0 }

/-- The contexts of a function that begin a switch. -/
def State.switching (s : State) (f : Nat) : List (Nat × Nat) := (s.live f).filter (fun p => !(s.ctx p.1 p.2).out)

/-- The state in which every context of a function counts its turn from now. -/
def State.recounted (s : State) (f : Nat) : State :=
  (s.switching f).foldl (fun s p => s.updCtx p.1 p.2 Ctx.recount) s

/-- One context begins its switch: a full save or a safe-point switch. -/
def beginOne (s : State) (t : State) (p : Nat × Nat) : State :=
  if (s.gangSlots p.1 p.2).any (fun m => (s.ctx m.1 m.2).mustSave) then stopFetch t p.1 p.2
  else t.updCtx p.1 p.2 (fun x => { x with switch := .safePoint })

theorem beginSwitch_eq (s : State) (f : Nat) :
    beginSwitch s f = (s.switching f).foldl (beginOne (s.recounted f)) (s.recounted f) := rfl

theorem ctx_beginOne_other (s t : State) {p : Nat × Nat} {m n : Nat} (h : p ≠ (m, n)) :
    (beginOne s t p).ctx m n = t.ctx m n := by
  unfold beginOne
  split
  · exact ctx_stopFetch_other t h
  · exact ctx_updCtx_other t h _

theorem ctx_recounted (s : State) {f m n : Nat} (h : (m, n) ∈ s.switching f) :
    (s.recounted f).ctx m n = (s.ctx m n).recount :=
  (foldl_ctx (P := fun y => y.recount = (s.ctx m n).recount) (Q := fun y => y = (s.ctx m n).recount)
    (fun t p hp => ctx_updCtx_other t hp _) (fun t ht => (ctx_updCtx_self ..).trans ht) (fun y hy => by rw [hy]; rfl)
    (s.switching f) s rfl).2 (.inl h)

theorem gangSlots_recounted (s : State) (f k j : Nat) : (s.recounted f).gangSlots k j = s.gangSlots k j := by
  have hg : ∀ (l : List (Nat × Nat)) (t : State) (m : Nat),
      ((l.foldl (fun s p => s.updCtx p.1 p.2 Ctx.recount) t).core m).gang = (t.core m).gang := fun l => by
    induction l with
    | nil => exact fun t m => rfl
    | cons p l ih => exact fun t m => (ih _ m).trans (State.gang_updCtx ..)
  simp only [State.gangSlots, State.gangOf, State.recounted, hg]

/-- What a switch leaves of a context, and how far it has come with it (R267). -/
def Begun (x : Ctx) (full : Bool) (y : Ctx) : Prop :=
  (y.sinceTurn = 0 ∧ y.ranTurn = 0 ∧ y.out = x.out ∧ y.bank = x.bank ∧ y.pc = x.pc) ∧
  (full = true → y.switch = .full ∧ y.flight = [] ∧ y.hold.isSome = true) ∧
  (full = false → y.switch = .safePoint ∧ y.flight = x.flight ∧ y.hold = x.hold)

theorem begun_beginSwitch (s : State) {f m n : Nat} (hl : (m, n) ∈ s.live f) (ho : (s.ctx m n).out = false)
    (hg : s.gangSlots m n = [(m, n)]) :
    Begun (s.ctx m n) ((s.ctx m n).state == .waiting || (s.ctx m n).blocked) ((beginSwitch s f).ctx m n) := by
  have hmem : (m, n) ∈ s.switching f := List.mem_filter.mpr ⟨hl, by rw [ho]; rfl⟩
  have hfull : ((s.recounted f).gangSlots m n).any (fun q => ((s.recounted f).ctx q.1 q.2).mustSave) =
      ((s.ctx m n).state == .waiting || (s.ctx m n).blocked) := by
    rw [gangSlots_recounted, hg]
    simp [ctx_recounted s hmem, Ctx.mustSave, Ctx.recount]
  rw [beginSwitch_eq]
  refine (foldl_ctx (P := fun y => (y.sinceTurn = 0 ∧ y.ranTurn = 0 ∧ y.out = (s.ctx m n).out ∧ y.bank = (s.ctx m n).bank ∧
      y.pc = (s.ctx m n).pc) ∧ (((s.ctx m n).state == .waiting || (s.ctx m n).blocked) = false →
        y.flight = (s.ctx m n).flight ∧ y.hold = (s.ctx m n).hold)) (Q := Begun (s.ctx m n) _)
    (fun t p hp => ctx_beginOne_other _ t hp) (fun t ht => ?_) (fun y hy => ⟨hy.1, fun h => (hy.2.2 h).2⟩)
    (s.switching f) (s.recounted f) ?_).2 (.inl hmem)
  · obtain ⟨hbase, hkeep⟩ := ht
    rw [beginOne, hfull]
    split
    · next h =>
      rw [ctx_stopFetch, if_pos ⟨rfl, rfl⟩]
      refine ⟨hbase, fun _ => ⟨rfl, rfl, ?_⟩, fun h' => absurd (h.symm.trans h') (by decide)⟩
      show (if (t.ctx m n).hold.isSome then (t.ctx m n).hold else some _).isSome = true
      split
      · assumption
      · rfl
    · next h =>
      rw [ctx_updCtx_self]
      exact ⟨hbase, fun h' => absurd h' h, fun h' => ⟨rfl, hkeep h'⟩⟩
  · rw [ctx_recounted s hmem]
    exact ⟨⟨rfl, rfl, rfl, rfl, rfl⟩, fun _ => ⟨rfl, rfl⟩⟩

theorem ctx_beginSwitch_other (s : State) {f m n : Nat} (h : (m, n) ∉ s.live f) : (beginSwitch s f).ctx m n = s.ctx m n := by
  have hno : (m, n) ∉ s.switching f := fun hm => h (List.mem_filter.mp hm).1
  rw [beginSwitch_eq]
  exact (foldl_ctx_of_not_mem (fun t p hp => ctx_beginOne_other _ t hp) _ _ hno).trans
    (foldl_ctx_of_not_mem (fun t p hp => ctx_updCtx_other t hp _) _ _ hno)

end Sys2Proof.Machine
open Sys2Proof Sys2Proof.Machine

namespace Sys2Proof.Machine

/-! ## Stopping a context (R31, R289) -/

/-- A context that has stopped. -/
def Ctx.halted (x : Ctx) : Ctx :=
  { x with out := true, switch := .none, undo := none, state := if x.state = .running then .ready else x.state }

/-- What a stop does to its core: LASTSW where it is for a turn end, and the latches of a Running context (R31, R289). -/
def CoreSt.halted (c : CoreSt) (x : Ctx) (preempting : Bool) : CoreSt :=
  { c with latches := if x.state = .running then [] else c.latches
           swstat := if preempting then c.swstat else setField c.swstat 16 16 (min 0xFFFF x.sinceTurn) }

/-- The state of a core before its context is marked. -/
def haltCore (s : State) (k j : Nat) : State :=
  let x := s.ctx k j
  let s := if s.preempting x.launch then s
    else s.updCore k (fun c => { c with swstat := setField c.swstat 16 16 (min 0xFFFF x.sinceTurn) })
  if x.state = .running then s.updCore k (fun c => { c with latches := [] }) else s

theorem stopped_eq (s : State) (k j : Nat) : stopped s k j = (haltCore s k j).updCtx k j Ctx.halted := rfl

theorem core_haltCore (s : State) (k j : Nat) :
    (haltCore s k j).core k = (s.core k).halted (s.ctx k j) (s.preempting (s.ctx k j).launch) := by
  unfold haltCore CoreSt.halted
  dsimp only
  by_cases hr : (s.ctx k j).state = .running
  · rw [if_pos hr, if_pos hr]
    cases s.preempting (s.ctx k j).launch <;> simp [State.core_updCore]
  · rw [if_neg hr, if_neg hr]
    cases s.preempting (s.ctx k j).launch <;> simp [State.core_updCore]

theorem ctx_haltCore (s : State) (k j m n : Nat) : (haltCore s k j).ctx m n = s.ctx m n := by
  have hsw : (if s.preempting (s.ctx k j).launch then s
      else s.updCore k (fun c => { c with swstat := setField c.swstat 16 16 (min 0xFFFF (s.ctx k j).sinceTurn) })).ctx m n =
      s.ctx m n := by
    split
    · rfl
    · exact State.ctx_updCore_of_ctx rfl m n
  unfold haltCore
  dsimp only
  by_cases hr : (s.ctx k j).state = .running
  · rw [if_pos hr]
    exact (State.ctx_updCore_of_ctx rfl m n).trans hsw
  · rw [if_neg hr]
    exact hsw

theorem ctx_stopped (s : State) (k j : Nat) : (stopped s k j).ctx k j = (s.ctx k j).halted := by
  rw [stopped_eq, ctx_updCtx_self, ctx_haltCore]

theorem ctx_stopped_other (s : State) {k j m n : Nat} (h : m ≠ k ∨ n ≠ j) : (stopped s k j).ctx m n = s.ctx m n := by
  have hp : (k, j) ≠ (m, n) := fun e => by simp_all
  rw [stopped_eq, ctx_updCtx_other _ hp, ctx_haltCore]

theorem latches_stopped (s : State) (k j : Nat) : ((stopped s k j).core k).latches =
    if (s.ctx k j).state = .running then [] else (s.core k).latches := by
  have h : ((stopped s k j).core k).latches = ((haltCore s k j).core k).latches :=
    (congrArg CoreSt.latches (State.core_updCtx_but_ctx (haltCore s k j) k j k Ctx.halted) :)
  rw [h, core_haltCore]
  rfl

theorem swstat_stopped (s : State) (k j : Nat) : ((stopped s k j).core k).swstat =
    if s.preempting (s.ctx k j).launch then (s.core k).swstat
    else setField (s.core k).swstat 16 16 (min 0xFFFF (s.ctx k j).sinceTurn) := by
  have h : ((stopped s k j).core k).swstat = ((haltCore s k j).core k).swstat :=
    (congrArg CoreSt.swstat (State.core_updCtx_but_ctx (haltCore s k j) k j k Ctx.halted) :)
  rw [h, core_haltCore]
  rfl

/-! ## Putting a core's part of a launch aside (R268, R269) -/

theorem Tbl.getD_eq_find {α : Type} (k : Nat) (d : α) : ∀ t : Tbl α, Tbl.getD t k d = (Tbl.find t k).getD d
  | [] => rfl
  | (j, x) :: r => by
    rw [Tbl.getD, Tbl.find]
    split
    · rfl
    · exact Tbl.getD_eq_find k d r

theorem Tbl.find_map {α β : Type} (f : α → β) (k : Nat) :
    ∀ t : Tbl α, Tbl.find (t.map (fun x => (x.1, f x.2))) k = (Tbl.find t k).map f
  | [] => rfl
  | (j, x) :: r => by
    rw [List.map_cons, Tbl.find, Tbl.find]
    split
    · rfl
    · exact Tbl.find_map f k r

theorem parkKey_ne {i k m : Nat} (hm : m < 1024) : parkKey i k ≠ m := by
  unfold parkKey
  omega

/-- What a core has put aside of launch `i` (R268). -/
def CoreSt.aside (c : CoreSt) (i : Nat) : CoreSt :=
  { ctx := c.ctx, chan := c.chan, ring := c.ring, bankfmt := c.bankfmt, gang := c.gang, lastGang := c.lastGang
    xview := c.xview, launch := some i }

theorem core_park (s : State) (i k m : Nat) : (park s i k).core m =
    if m = k then { (s.core k).freed with chan := [], ring := [], bankfmt := [] }
    else if m = parkKey i k then (s.core k).aside i else s.core m := by
  show (((s.setCore (parkKey i k) ((s.core k).aside i)).setCore k _).core m) = _
  rw [State.core_setCore, State.core_setCore]

/-- The core of what comes back of launch `i` from `p` (R269). -/
def CoreSt.back (c p : CoreSt) (i : Nat) : CoreSt :=
  { c with ctx := p.ctx.map (fun x => (x.1, x.2.restored c.ic)), chan := p.chan, ring := p.ring, bankfmt := p.bankfmt
           gang := p.gang, lastGang := p.lastGang, xview := p.xview, launch := some i }

theorem core_endLate_but_ctx (s : State) (k j m : Nat) : ∃ t, (endLate s k j).core m = { s.core m with ctx := t } := by
  have hself : s.core m = { s.core m with ctx := (s.core m).ctx } := rfl
  unfold endLate wakeWatch
  dsimp only
  split
  · split
    · split
      · rw [State.core_setCtx]
        split
        · next h => exact ⟨_, by rw [h]; rfl⟩
        · exact ⟨_, rfl⟩
      · exact ⟨_, rfl⟩
    · exact ⟨_, rfl⟩
  · exact ⟨_, rfl⟩

theorem ctx_endLate_other (s : State) (k : Nat) {j n : Nat} (h : n ≠ j) : (endLate s k j).ctx k n = s.ctx k n := by
  unfold endLate wakeWatch
  dsimp only
  split
  · split
    · split
      · rw [State.ctx_setCtx, if_neg (fun e => h e.2)]
      · rfl
    · rfl
  · rfl

end Sys2Proof.Machine

namespace Sys2Proof.Machine

/-! ## What comes back of a launch (R269) -/

/-- The state in which what was put aside of launch `i` is back on its core, before late watches end. -/
def broughtBack (s : State) (i k : Nat) (p : CoreSt) : State :=
  let s := { s with cores := Tbl.erase s.cores (parkKey i k) }
  moveMembers (s.updCore k (fun c => c.back p i)) (parkKey i k) k

theorem unpark_eq {s : State} {i k : Nat} {p : CoreSt} (h : Tbl.find s.cores (parkKey i k) = some p) :
    unpark s i k = [0, 1, 2, 3].foldl (fun s j => endLate s k j) (broughtBack s i k p) := by
  unfold unpark
  rw [h]
  rfl

theorem core_broughtBack (s : State) {i k : Nat} (p : CoreSt) (hk : k < 1024) :
    (broughtBack s i k p).core k = (s.core k).back p i := by
  have hc : ({ s with cores := Tbl.erase s.cores (parkKey i k) } : State).core k = s.core k :=
    (Tbl.getD_erase ..).trans (if_neg (Ne.symm (parkKey_ne hk)))
  show (({ s with cores := Tbl.erase s.cores (parkKey i k) } : State).updCore k (fun c => c.back p i)).core k = _
  rw [State.core_updCore, if_pos rfl, hc]

theorem core_endLates_but_ctx (k m : Nat) : ∀ (l : List Nat) (s : State),
    ∃ t, (l.foldl (fun s j => endLate s k j) s).core m = { s.core m with ctx := t }
  | [], _ => ⟨_, rfl⟩
  | j :: l, s => by
    obtain ⟨t, ht⟩ := core_endLate_but_ctx s k j m
    obtain ⟨t', ht'⟩ := core_endLates_but_ctx k m l (endLate s k j)
    exact ⟨t', by rw [List.foldl_cons, ht', ht]⟩

theorem endLate_now (s : State) (k j : Nat) : (endLate s k j).now = s.now := by
  unfold endLate wakeWatch
  dsimp only
  split
  · split
    · split <;> rfl
    · rfl
  · rfl

theorem endLate_fns (s : State) (k j : Nat) : (endLate s k j).fns = s.fns := by
  unfold endLate wakeWatch
  dsimp only
  split
  · split
    · split <;> rfl
    · rfl
  · rfl

theorem endLates_fns (k : Nat) : ∀ (l : List Nat) (s : State), (l.foldl (fun s j => endLate s k j) s).fns = s.fns
  | [], _ => rfl
  | j :: l, s => (endLates_fns k l _).trans (endLate_fns s k j)

theorem unpark_fns (s : State) (i k : Nat) : (unpark s i k).fns = s.fns := by
  cases h : Tbl.find s.cores (parkKey i k) with
  | none => rw [unpark, h]
  | some p => exact (congrArg State.fns (unpark_eq h)).trans ((endLates_fns k _ _).trans rfl)

/-- A context whose watch has not run out comes back as it was put aside (R269). -/
theorem ctx_endLates {s : State} {k n : Nat} (h : (s.ctx k n).timedOut s.now = false) : ∀ l : List Nat,
    (l.foldl (fun s j => endLate s k j) s).ctx k n = s.ctx k n
  | [] => rfl
  | j :: l => by
    have hn := endLate_now s k j
    have hctx : (endLate s k j).ctx k n = s.ctx k n := by
      by_cases hj : n = j
      · subst hj
        rw [endLate, h, if_neg Bool.false_ne_true]
      · exact ctx_endLate_other s k hj
    exact (ctx_endLates (s := endLate s k j) (by rw [hctx, hn]; exact h) l).trans hctx

theorem ctx_unpark {s : State} {i k n : Nat} {p : CoreSt} {x : Ctx} (hk : k < 1024)
    (h : Tbl.find s.cores (parkKey i k) = some p) (hx : Tbl.find p.ctx n = some x)
    (ht : (x.restored (s.core k).ic).timedOut s.now = false) : (unpark s i k).ctx k n = x.restored (s.core k).ic := by
  have hctx : (broughtBack s i k p).ctx k n = x.restored (s.core k).ic := by
    rw [State.ctx, core_broughtBack s p hk, CoreSt.slot, Tbl.getD_eq_find]
    show (Tbl.find (p.ctx.map (fun x => (x.1, x.2.restored (s.core k).ic))) n).getD {} = _
    rw [Tbl.find_map (Ctx.restored · (s.core k).ic), hx]
    rfl
  rw [unpark_eq h]
  exact (ctx_endLates (by rw [hctx]; exact ht) _).trans hctx

/-! ## The scrub of a quad (R264) -/

/-- Nothing of a context, a launch or a latch is on a core. -/
def CoreSt.IsBare (c : CoreSt) : Prop := c.ctx = [] ∧ c.launch = none ∧ c.latches = []

/-- A core whose view notes of `n` bytes from `a` are gone. -/
def CoreSt.unnoted (a n : Nat) (c : CoreSt) : CoreSt :=
  { c with xview := c.xview.filter (fun e => !(decide (a ≤ e.unit) && decide (e.unit < a + n))) }

theorem scrub_cores (s : State) (a n : Nat) :
    (s.scrub a n).cores = s.cores ∨ ∃ h, (s.scrub a n).cores = (s.updCore h (CoreSt.unnoted a n)).cores := by
  unfold State.scrub
  dsimp only
  split
  · exact .inr ⟨_, rfl⟩
  · exact .inl rfl

theorem core_scrub_but_view (s : State) (a n m : Nat) : ∃ v, (s.scrub a n).core m = { s.core m with xview := v } := by
  have hcore {t : State} (h : (s.scrub a n).cores = t.cores) : (s.scrub a n).core m = t.core m := by
    rw [State.core, h]
    rfl
  rcases scrub_cores s a n with h | ⟨k, h⟩
  · exact ⟨_, hcore h⟩
  · rw [hcore h, State.core_updCore]
    split
    · next hm => exact ⟨_, by rw [hm]; rfl⟩
    · exact ⟨_, rfl⟩

theorem scrub_quads (s : State) (a n : Nat) : (s.scrub a n).quads = s.quads := by
  unfold State.scrub
  dsimp only
  split <;> rfl

/-- The tiers 0 and 1 of a core are scrubbed (R67). -/
def scrubTiers (s : State) (k : Nat) : State :=
  [0, 1].foldl (fun (s : State) t => s.scrub (Config.tierBase t k) (Config.tierSize t)) s

theorem scrubTiers_eq (s : State) (k : Nat) : scrubTiers s k =
    (s.scrub (Config.tierBase 0 k) (Config.tierSize 0)).scrub (Config.tierBase 1 k) (Config.tierSize 1) := by
  have hpair (f : State → Nat → State) (s : State) : [0, 1].foldl f s = f (f s 0) 1 := rfl
  exact hpair (fun s t => s.scrub (Config.tierBase t k) (Config.tierSize t)) s

/-- One core of a quad is scrubbed (R264). -/
def scrubCore (s : State) (k : Nat) : State :=
  if (Tbl.find (scrubTiers s k).cores k).isSome then (scrubTiers s k).updCore k CoreSt.scrubbed else scrubTiers s k

theorem exec_quadScrubComplete {s : State} {q : Nat} (h : (s.quad q).scrub = true) : exec (.quadScrubComplete q) s =
    .next ((quadCores q).foldl scrubCore (s.updQuad q (fun q => { q with scrub := false }))) := by
  show execQuadScrubComplete q s = _
  rw [execQuadScrubComplete, h]
  rfl

theorem scrubTiers_bare {s : State} {m : Nat} (h : (s.core m).IsBare) (k : Nat) : ((scrubTiers s k).core m).IsBare := by
  obtain ⟨v, hv⟩ := core_scrub_but_view s (Config.tierBase 0 k) (Config.tierSize 0) m
  obtain ⟨w, hw⟩ := core_scrub_but_view (s.scrub (Config.tierBase 0 k) (Config.tierSize 0)) (Config.tierBase 1 k)
    (Config.tierSize 1) m
  rw [scrubTiers_eq, hw, hv]
  exact h

theorem scrubCore_bare (s : State) (k m : Nat) (h : k = m ∨ (s.core m).IsBare) : ((scrubCore s k).core m).IsBare := by
  by_cases hm : m = k
  · subst hm
    unfold scrubCore
    cases hf : Tbl.find (scrubTiers s m).cores m with
    | none =>
      rw [Option.isSome_none, if_neg Bool.false_ne_true, State.core, Tbl.getD_eq_find, hf]
      exact ⟨rfl, rfl, rfl⟩
    | some c =>
      rw [Option.isSome_some, if_pos rfl, State.core_updCore, if_pos rfl]
      exact ⟨rfl, rfl, rfl⟩
  · have hb := scrubTiers_bare (h.resolve_left (Ne.symm hm)) k
    unfold scrubCore
    split
    · rw [State.core_updCore, if_neg hm]
      exact hb
    · exact hb

theorem foldl_scrubCore_bare (m : Nat) : ∀ (l : List Nat) (s : State), m ∈ l ∨ (s.core m).IsBare →
    ((l.foldl scrubCore s).core m).IsBare
  | [], _, h => h.resolve_left nofun
  | k :: l, s, h => by
    refine foldl_scrubCore_bare m l (scrubCore s k) ?_
    rcases h with h | h
    · rcases List.mem_cons.mp h with rfl | h
      · exact .inr (scrubCore_bare s m m (.inl rfl))
      · exact .inl h
    · exact .inr (scrubCore_bare s k m (.inr h))

theorem scrubCore_mem (s : State) (k : Nat) : (scrubCore s k).mem =
    ((s.scrub (Config.tierBase 0 k) (Config.tierSize 0)).scrub (Config.tierBase 1 k) (Config.tierSize 1)).mem := by
  rw [← scrubTiers_eq, scrubCore, apply_ite State.mem, State.updCore_mem, ite_self]

theorem scrubCore_quads (s : State) (k : Nat) : (scrubCore s k).quads = s.quads := by
  have h : (scrubTiers s k).quads = s.quads := by rw [scrubTiers_eq, scrub_quads, scrub_quads]
  rw [scrubCore, apply_ite State.quads, State.updCore_quads, ite_self, h]

theorem foldl_scrubCore_quads : ∀ (l : List Nat) (s : State), (l.foldl scrubCore s).quads = s.quads
  | [], _ => rfl
  | k :: l, s => (foldl_scrubCore_quads l _).trans (scrubCore_quads s k)

/-- The stretches of tiers 0 and 1 of cores. -/
def tierRanges (l : List Nat) : List (Nat × Nat) :=
  l.flatMap (fun k => [(Config.tierBase 0 k, Config.tierSize 0), (Config.tierBase 1 k, Config.tierSize 1)])

theorem foldl_scrubCore_mem : ∀ (l : List Nat) (s t : State), s.mem = t.mem →
    (l.foldl scrubCore s).mem = ((tierRanges l).foldl (fun s p => s.scrub p.1 p.2) t).mem
  | [], _, _, h => h
  | k :: l, s, t, h => by
    show (l.foldl scrubCore (scrubCore s k)).mem = ((tierRanges l).foldl (fun s p => s.scrub p.1 p.2)
      ((t.scrub (Config.tierBase 0 k) (Config.tierSize 0)).scrub (Config.tierBase 1 k) (Config.tierSize 1))).mem
    refine foldl_scrubCore_mem l _ _ ?_
    rw [scrubCore_mem, scrub_mem, scrub_mem, scrub_mem, scrub_mem, h]

theorem read_scrubbed {l : List Nat} {k tier a : Nat} (s : State) (hk : k ∈ l) (ht : tier < 2)
    (hlo : Config.tierBase tier k ≤ a) (hhi : a < Config.tierBase tier k + Config.tierSize tier) :
    Memory.read (l.foldl scrubCore s).mem a = 0 := by
  refine read_of_no_cell (fun c hc e => ?_)
  rw [foldl_scrubCore_mem l s s rfl] at hc
  have hr : (Config.tierBase tier k, Config.tierSize tier) ∈ tierRanges l := by
    refine List.mem_flatMap.mpr ⟨k, hk, ?_⟩
    obtain rfl | rfl : tier = 0 ∨ tier = 1 := by omega
    · exact List.mem_cons_self
    · exact List.mem_cons_of_mem _ List.mem_cons_self
  exact (mem_scrubs _ _ _ hc).2 _ hr (by rw [e]; exact ⟨hlo, hhi⟩)

end Sys2Proof.Machine

namespace Sys2Proof.Machine

/-! ## Turns (R265) -/

section
variable {s : State} {p : Nat} {t : Turn} (ht : Tbl.find s.turns p = some t)
include ht

theorem turnEnd_switches (hn : t.next = none) (hm : 1 < (s.tenants p).length) (hd : t.began + t.len ≤ s.now) :
    exec (.turnEnd p) s = .next (beginSwitch
      { s with turns := Tbl.set s.turns p { t with next := some (s.nextTenant p t.fn) } } t.fn) := by
  show execTurnEnd p s = _
  rw [execTurnEnd, ht]
  exact congrArg Host.Outcome.next (if_neg (by simp [hn, Nat.not_le.mpr hm, Nat.not_lt.mpr hd]))

theorem turnEnd_waits (h : t.next ≠ none ∨ (s.tenants p).length ≤ 1 ∨ s.now < t.began + t.len) :
    exec (.turnEnd p) s = .next s := by
  show execTurnEnd p s = _
  rw [execTurnEnd, ht]
  refine congrArg Host.Outcome.next (if_pos ?_)
  rw [Bool.or_eq_true, Bool.or_eq_true, decide_eq_true_eq, decide_eq_true_eq, Option.isSome_iff_ne_none, or_assoc]
  exact h

theorem turnBegin_next {g : Nat} (hm : 1 < (s.tenants p).length) (hg : t.next = some g) :
    (s.allOut t.fn = false → exec (.turnBegin p) s = .next s) ∧
    (s.allOut t.fn = true →
      let u := (s.partCores p).foldl (fun s k => s.countSw k 0) (parkAll s t.fn)
      exec (.turnBegin p) s =
        .next (unparkAll { u with turns := Tbl.set u.turns p { fn := g, began := u.now, len := (u.fn g).turn } } g)) := by
  have hb : exec (.turnBegin p) s = .next (
      if !s.allOut t.fn then s
      else
        let s := (s.partCores p).foldl (fun s k => s.countSw k 0) (parkAll s t.fn)
        unparkAll { s with turns := Tbl.set s.turns p (s.turnOf g) } g) := by
    show execTurnBegin p s = _
    rw [execTurnBegin, ht]
    dsimp only
    rw [decide_eq_true hm, hg]
    rfl
  rw [hb]
  exact ⟨fun h => congrArg _ (if_pos (by rw [h]; rfl)), fun h => congrArg _ (if_neg (by rw [h]; decide))⟩

theorem turnBegin_alone (hm : (s.tenants p).length ≤ 1) :
    let u := { s with turns := Tbl.erase s.turns p }
    exec (.turnBegin p) s = .next ((u.tenants p).foldl (fun s f => unparkAll (callOff s f) f) u) := by
  show execTurnBegin p s = _
  rw [execTurnBegin, ht]
  dsimp only
  rw [decide_eq_false (Nat.not_lt.mpr hm)]
  rfl

end

/-! ## Saves, pre-emption and resumption (R267, R277, R278) -/

theorem safePointSwitch_alone {s : State} {k j : Nat} (ho : (s.ctx k j).out = false) (hs : (s.ctx k j).switch = .safePoint)
    (hg : s.gangSlots k j = [(k, j)]) (ha : s.atSafePoint k j = true) :
    exec (.safePointSwitch k j) s = .next (stopped (s.setCtx k j { s.ctx k j with
      bank := keepLive (s.ctx k j).bank (s.safeAt (s.ctx k j).launch (s.ctx k j).pc), sticky := [] }) k j) := by
  have hempty : (s.ctx k j).flight.isEmpty = true ∧ (s.ctx k j).queue.isEmpty = true := by
    simp only [State.atSafePoint, Bool.and_eq_true] at ha
    exact ha.1.1
  show execSafePointSwitch k j s = _
  rw [execSafePointSwitch, hg]
  exact congrArg Host.Outcome.next (if_pos (by simp [ho, hs, ha, hempty]))

theorem fullSave_alone {s : State} {k j : Nat} (ho : (s.ctx k j).out = false) (hs : (s.ctx k j).switch = .full)
    (hg : s.gangSlots k j = [(k, j)]) (he : s.enginesQuiet k j = true) :
    exec (.fullSave k j) s = .next (settlePreempt ((stopped (stopFetch s k j) k j).countSw k
      (if s.preempting (s.ctx k j).launch then 32 else 48)) (s.ctx k j).launch) := by
  show execFullSave k j s = _
  rw [execFullSave, hg]
  exact congrArg Host.Outcome.next (if_pos (by simp [ho, hs, he]))

theorem settlePreempt_stopped {s : State} {i k : Nat} {l : Launch} (hl : s.launch? i = some l) (hp : l.state = .preempted)
    (hc : l.cores = [k]) (hk : (s.core k).launch = some i)
    (ho : ∀ m ∈ s.slots, (s.ctx m.1 m.2).launch = i → (s.ctx m.1 m.2).out = true) :
    settlePreempt s i = match l.by_.bind (park s i k).launch? with
      | some p => placeHead (park s i k) p
      | none => park s i k := by
  have hall : s.slots.all (fun p => (s.ctx p.1 p.2).launch != i || (s.ctx p.1 p.2).out) = true := by
    rw [List.all_eq_true]
    intro m hm
    by_cases h : (s.ctx m.1 m.2).launch = i
    · simp [ho m hm h]
    · simp [h]
  have hf : (l.cores.filter (fun k => (s.core k).launch == some i)).foldl (fun s k => park s i k) s = park s i k := by
    rw [hc, List.filter_cons_of_pos (by rw [hk]; exact beq_self_eq_true _)]
    rfl
  unfold settlePreempt
  rw [hl]
  dsimp only
  rw [hp, hall, hf]
  rfl

theorem takeAnswers_of_nil {s : State} {f : Nat} (h : (s.fn f).answers = []) :
    takeAnswers s f = s.updFn f (fun d => { d with answers := [] }) := by
  unfold takeAnswers
  rw [h]
  rfl

end Sys2Proof.Machine

/-- Settles O58: turns by their events, what begins and ends a switch by the lemmas of a slot, what is put aside and comes back
by those of a core, and the scrub of a quad by the cells it leaves. -/
theorem scheduling : Obligations.Scheduling := by
  intro s p f q k j i
  refine ⟨fun t ht => ⟨turnEnd_switches ht, turnEnd_waits ht, fun g hm hg => turnBegin_next ht hm hg, turnBegin_alone ht⟩,
    fun ht hm => ?_, rfl, ⟨beginSwitch_memories s f, fun m n h => ctx_beginSwitch_other s h, fun m n hl ho hg => ?_⟩,
    ⟨ctx_stopped s k j, fun m n h => ctx_stopped_other s h, stopped_memories s k j, latches_stopped s k j,
      swstat_stopped s k j⟩,
    fun hk => ⟨?_, ?_, ?_, ?_⟩, safePointSwitch_alone, fun h => ?_, fun h => ?_, fullSave_alone, ?_, ?_, ?_, ?_, fun h => ?_,
    fun h => ?_, fun h => ?_, fun h ht => ?_, fun h => ⟨?_, ?_⟩⟩
  · show execTurnBegin p s = _
    rw [execTurnBegin, ht]
    dsimp only
    rw [decide_eq_true hm]
    rfl
  · intro x y
    obtain ⟨⟨hst, hrt, hout, hbank, hpc⟩, hfull, hsafe⟩ := begun_beginSwitch s hl ho hg
    exact ⟨hst, hrt, hout.trans ho, hbank, hpc, fun h => hfull (by rcases h with h | h <;> simp [x] at h <;> simp [h]),
      fun hw hb => hsafe (by simp [x] at hw hb; simp [hw, hb])⟩
  · intro c t a
    have ha : a = c.aside i :=
      (core_park s i k (parkKey i k)).trans ((if_neg (parkKey_ne hk)).trans (if_pos rfl))
    rw [ha]
    exact ⟨rfl, rfl, rfl, rfl, rfl, rfl, rfl, (core_park s i k k).trans (if_pos rfl),
      fun m h1 h2 => (core_park s i k m).trans ((if_neg h1).trans (if_neg h2)), park_memories s i k⟩
  · intro c hc ic t
    obtain ⟨x, hx⟩ := core_endLates_but_ctx k k [0, 1, 2, 3] (broughtBack s i k c)
    have hcore : t.core k = { (s.core k).back c i with ctx := x } := by
      rw [show t = _ from unpark_eq hc, hx, core_broughtBack s c hk]
    rw [hcore]
    exact ⟨rfl, rfl, rfl, rfl, rfl, unpark_memories s i k, fun n x hn hy => ctx_unpark hk hc hn hy⟩
  · intro l hl hf hc hk
    simp [parkAll, hl, hf, hc, hk]
  · intro l hl hc hn
    have hfn : ((unpark s l.id k).fn f).answers = [] := by rw [State.fn, unpark_fns]; exact hn
    rw [unparkAll, hl]
    show takeAnswers (l.cores.foldl (fun s k => unpark s l.id k) s) f = _
    rw [hc]
    exact takeAnswers_of_nil hfn
  · exact congrArg Host.Outcome.next (if_neg (by simp [h]))
  · exact congrArg Host.Outcome.next (if_neg (by simp [h]))
  · intro l v hl hpre hmay hpick hruns hv u
    show execPriorityPreemption f q s = _
    rw [execPriorityPreemption, hl]
    dsimp only
    rw [hpre, hmay, hpick, hruns, hv]
    rfl
  · intro l hl h
    show execPriorityPreemption f q s = _
    rw [execPriorityPreemption, hl]
    dsimp only
    rcases h with h | h
    · rw [h]
      rfl
    · rw [h, ite_self]
  · intro l hl hr
    show execPreemptedResume i s = _
    rw [execPreemptedResume, hl]
    exact congrArg Host.Outcome.next (if_pos hr)
  · intro l b hl hp hc hk ho
    rw [settlePreempt_stopped hl hp hc hk ho]
    refine ⟨fun h => by rw [h]; rfl, fun h hb => ?_⟩
    rw [h]
    dsimp only [Option.bind]
    rw [hb]
  · exact congrArg Host.Outcome.next (if_pos (by rw [h]; rfl))
  · refine ⟨_, exec_quadScrubComplete h, ?_, fun c hc tier htier a hlo hhi => read_scrubbed _ hc htier hlo hhi,
      fun c hc => foldl_scrubCore_bare c _ _ (.inl hc)⟩
    rw [State.quad, foldl_scrubCore_quads]
    exact (State.quad_updQuad s q q _).trans (if_pos rfl)
  · exact congrArg Host.Outcome.next (if_pos h)
  · refine congrArg Host.Outcome.next ((if_neg (by rw [h]; decide)).trans ?_)
    rw [ht]
  · exact congrArg Host.Outcome.next (if_neg (by rw [h]; decide))
  · exact congrArg Host.Outcome.next (if_pos (by rw [h]; rfl))

end

section
/-!
PROOFS. The board, the patrol and the management registers with a row of their own (R276, R289, R291, R323, R325, R330,
R342).
-/
namespace Sys2Proof.Machine

/-! ## Management registers that land (R289, R352) -/

theorem mtsMgmt_refused {s : State} {m : Nat} {v : Word} (h : mtsMgmtOk s m v = false) : mtsMgmt s m v = s := by
  rw [mtsMgmt, h]
  rfl

/-! ## Updates of several cores -/

section
variable {α : Type} (key : α → Nat) (f : α → CoreSt → CoreSt)

theorem foldl_updCore_fns : ∀ (l : List α) (s : State), (l.foldl (fun s a => s.updCore (key a) (f a)) s).fns = s.fns
  | [], _ => rfl
  | a :: l, s => (foldl_updCore_fns l (s.updCore (key a) (f a))).trans rfl

theorem core_foldl_of_not_mem {m : Nat} : ∀ (l : List α) (s : State), m ∉ l.map key →
    (l.foldl (fun s a => s.updCore (key a) (f a)) s).core m = s.core m
  | [], _, _ => rfl
  | a :: l, s, h => by
    rw [List.map_cons, List.mem_cons, not_or] at h
    exact (core_foldl_of_not_mem l _ h.2).trans ((State.core_updCore ..).trans (if_neg h.1))

theorem core_foldl_of_mem {a : α} : ∀ (l : List α) (s : State), a ∈ l → (l.map key).Nodup →
    (l.foldl (fun s a => s.updCore (key a) (f a)) s).core (key a) = f a (s.core (key a))
  | [], _, h, _ => nomatch h
  | b :: l, s, h, hn => by
    rw [List.map_cons, List.nodup_cons] at hn
    rcases List.mem_cons.mp h with rfl | h
    · exact (core_foldl_of_not_mem key f l _ hn.1).trans ((State.core_updCore ..).trans (if_pos rfl))
    · have hne : key a ≠ key b := fun e => hn.1 (e ▸ List.mem_map_of_mem h)
      exact (core_foldl_of_mem l _ h hn.2).trans (congrArg (f a) ((State.core_updCore ..).trans (if_neg hne)))

end

theorem quadCores_nodup (q : Nat) : (quadCores q).Nodup := by simp [quadCores]

/-! ## LQ, TBKT and LMAP (R289, R323, R343) -/

/-- A launch queue after a write of LQ. -/
def Queue.lq (q : Queue) (v : Word) : Queue :=
  { q with ldepth := field v 0 5, en := bit v 5, ovr := q.ovr && !bit v 7, stop := q.stop && !bit v 7 }

theorem Fn.q_upd (d : Fn) (n m : Nat) (g : Queue → Queue) :
    ({ d with queues := Tbl.upd d.queues n {} g } : Fn).q m = if m = n then g (d.q n) else d.q m := Tbl.getD_set ..

/-- A function after a write of LQ that names its queue `n`. -/
def Fn.lq (d : Fn) (n : Nat) (v : Word) : Fn := { d with queues := Tbl.upd d.queues n {} (Queue.lq · v) }

theorem writeLq_eq (s : State) (v : Word) : writeLq s v =
    { s.updFn s.selFunc (Fn.lq · s.selQueue v) with
      agenda := if bit v 5 && !((s.fn s.selFunc).q s.selQueue).en then
        .doorbell s.selFunc s.selQueue ((s.fn s.selFunc).q s.selQueue).wptr :: s.agenda else s.agenda } := by
  unfold writeLq
  dsimp only
  split <;> rfl

theorem fn_writeLq (s : State) (v : Word) (g : Nat) :
    (writeLq s v).fn g = if g = s.selFunc then (s.fn s.selFunc).lq s.selQueue v else s.fn g :=
  (congrArg (State.fn · g) (writeLq_eq s v)).trans (State.fn_updFn s s.selFunc g (Fn.lq · s.selQueue v))

/-- What a write of TBKT does at one core of the quad (R342). -/
def filled (s : State) (v : Word) (k : Nat) (c : CoreSt) : CoreSt :=
  { c with tokens := Tbl.set c.tokens s.selFunc { s.bucket s.selFunc k with
      tokens := (field v 16 16 : Int) + (if s.tokenRate s.selFunc k = 0 ∨ field v 0 16 = 0 then 0
        else min (s.bucket s.selFunc k).tokens 0) } }

theorem writeTbkt_eq (s : State) (v : Word) : writeTbkt s v = (quadCores s.selQuad).foldl
    (fun t k => t.updCore (id k) (filled s v k))
    (s.updFn s.selFunc (fun d => { d with tbkt := Tbl.set d.tbkt s.selQuad (field v 16 16, field v 0 16) })) := rfl

/-- What a write of LMAP does at the core of an index in its quad (R323). -/
def forced (v : Word) (p : Nat × Nat) (c : CoreSt) : CoreSt :=
  { c with force := BitVec.ofNat 4 (field v (16 * p.2 + 8) 4) }

theorem writeLmap_eq (s : State) (v : Word) : writeLmap s v =
    (quadCores s.selQuad).zipIdx.foldl (fun t p => t.updCore (Prod.fst p) (forced v p)) s := rfl

theorem zipIdx_quadCores_fst (q : Nat) : (quadCores q).zipIdx.map Prod.fst = quadCores q := rfl

theorem mem_zipIdx_quadCores {q i : Nat} (h : i < 4) : (4 * q + i, i) ∈ (quadCores q).zipIdx := by
  obtain rfl | rfl | rfl | rfl : i = 0 ∨ i = 1 ∨ i = 2 ∨ i = 3 := by omega
  all_goals simp [quadCores, List.zipIdx_cons]

end Sys2Proof.Machine
open Sys2Proof Sys2Proof.Machine

namespace Sys2Proof.Machine

/-! ## MWDATA (R291) -/

/-- What MWDATA reads of an item of a context that is no user register. -/
def itemRead (it w : Nat) (x : Ctx) : Option Word :=
  if 0x1000 ≤ it ∧ it < 0x1040 then (if w = 0 then some (x.bank.getS (it - 0x1000)) else none)
  else if 0x1100 ≤ it ∧ it < 0x1140 then
    (if w < 16 then some (vecWord (x.bank.physV (it - 0x1100)) w) else none)
  else if 0x1200 ≤ it ∧ it < 0x1210 then
    (if w < 2 then some ((x.bank.physP (it - 0x1200)).extractLsb' (64 * w) 64) else none)
  else if 0x1300 ≤ it ∧ it < 0x1308 then
    (if w < 512 then some (vecWord (x.bank.row (it - 0x1300) (w / 16)) (w % 16)) else none)
  else if it = 0x1400 then (if w = 0 then some x.pc else none)
  else if it = 0x1401 then
    (if w = 0 then some (put [(2, b2n x.stopped), (0, stateCode x.state)]) else none)
  else none

/-- A predicate with one of its two words replaced. -/
def setPredWord (p : Pred) (w : Nat) (v : Word) : Pred :=
  if w = 0 then p.extractLsb' 64 64 ++ v else v ++ p.extractLsb' 0 64

/-- A table of rows with one word of one row replaced. -/
def setRowWord (t : Tbl Vec) (key w : Nat) (v : Word) : Tbl Vec :=
  Tbl.set t key (setVecWord (Tbl.getD t key 0) w v)

/-- A bank after a write of MWDATA to one of its registers. -/
def bankWrite (it w : Nat) (v : Word) (b : Bank) : Bank :=
  if it < 0x1100 then b.setS (it - 0x1000) v
  else if it < 0x1200 then { b with v := setRowWord b.v (it - 0x1100) w v }
  else if it < 0x1300 then b.setP (it - 0x1200) (setPredWord (b.physP (it - 0x1200)) w v)
  else { b with t := setRowWord b.t (32 * (it - 0x1300) + w / 16) (w % 16) v }

/-- A context after a write of MWDATA to an item that is no user register. -/
def itemWrite (it w : Nat) (v : Word) (x : Ctx) : Ctx :=
  if it < 0x1400 then { x with bank := bankWrite it w v x.bank } else { x with pc := v, rep := 0, bpSkip := false }

section
variable {s : State} {k j : Nat} (ht : s.target = some (k, j))
include ht

theorem mwRead_eq : mwRead s = if field s.mwsel 16 16 < 0x6A then
      (if field s.mwsel 32 16 = 0 then mfsUser s k j (field s.mwsel 16 16) else none)
    else itemRead (field s.mwsel 16 16) (field s.mwsel 32 16) (s.ctx k j) := by
  rw [mwRead, ht]
  rfl

theorem mwWrite_eq (v : Word) : mwWrite s v = if field s.mwsel 16 16 < 0x6A then mtsUser s k j (field s.mwsel 16 16) v
    else s.updCtx k j (itemWrite (field s.mwsel 16 16) (field s.mwsel 32 16) v) := by
  rw [mwWrite, ht]
  generalize field s.mwsel 16 16 = it, field s.mwsel 32 16 = w
  dsimp only
  refine if_congr Iff.rfl rfl ?_
  unfold itemWrite bankWrite
  by_cases h1 : it < 0x1100
  · simp only [if_pos h1, if_pos (show it < 0x1400 by omega)]
  by_cases h2 : it < 0x1200
  · simp only [if_neg h1, if_pos h2, if_pos (show it < 0x1400 by omega), Bank.physV, setRowWord]
  by_cases h3 : it < 0x1300
  · simp only [if_neg h1, if_neg h2, if_pos h3, if_pos (show it < 0x1400 by omega), setPredWord]
  by_cases h4 : it < 0x1400
  · simp only [if_neg h1, if_neg h2, if_neg h3, if_pos h4, setRowWord]
  · simp only [if_neg h1, if_neg h2, if_neg h3, if_neg h4]

theorem mwWriteOk_spec {v : Word} (h : mtsMgmtOk s 0x832 v = true) : (mwRead s).isSome = true ∧
    field s.mwsel 16 16 ≠ 0x1401 ∧ (field s.mwsel 16 16 < 0x6A → mtsUserOk (field s.mwsel 16 16) v = true) := by
  have hok : mwWriteOk s v = true := h
  rw [mwWriteOk, ht] at hok
  simp only [Bool.and_eq_true, bne_iff_ne, ne_eq, Bool.or_eq_true, decide_eq_true_eq] at hok
  obtain ⟨⟨⟨-, hsome⟩, h1401⟩, huser⟩ := hok
  exact ⟨hsome, h1401, fun h => huser.resolve_left (by omega)⟩

end

theorem vecWord_setVecWord (v : Vec) {w : Nat} (x : Word) (hw : w < 16) : vecWord (setVecWord v w x) w = x := by
  refine BitVec.eq_of_getLsbD_eq fun i hi => ?_
  have h1 : 64 * w + i < 1024 := by omega
  have hm : (BitVec.ofNat 1024 (2 ^ 64 - 1)).getLsbD i = true := by
    rw [BitVec.getLsbD_ofNat, Nat.testBit_two_pow_sub_one]
    simp only [hi, decide_true, Bool.and_true, decide_eq_true_eq]
    omega
  have hsub : 64 * w + i - 64 * w = i := by omega
  have hlt : ¬ 64 * w + i < 64 * w := by omega
  simp only [vecWord, setVecWord, BitVec.getLsbD_extractLsb', BitVec.getLsbD_or, BitVec.getLsbD_and, BitVec.getLsbD_not,
    BitVec.getLsbD_shiftLeft, BitVec.getLsbD_setWidth, hsub, hm, hi, h1, hlt]
  simp
  omega

theorem extract_setPredWord (p : Pred) {w : Nat} (v : Word) (hw : w < 2) :
    (setPredWord p w v).extractLsb' (64 * w) 64 = v := by
  obtain rfl | rfl : w = 0 ∨ w = 1 := by omega
  · exact BitVec.extractLsb'_append_eq_right
  · exact BitVec.extractLsb'_append_eq_left

theorem getD_setRowWord (t : Tbl Vec) (key : Nat) {w : Nat} (v : Word) (hw : w < 16) :
    vecWord (Tbl.getD (setRowWord t key w v) key 0) w = v := by
  rw [setRowWord, Tbl.getD_set, if_pos rfl, vecWord_setVecWord _ _ hw]

theorem itemWrite_bank {it : Nat} (w : Nat) (v : Word) (x : Ctx) (h : it < 0x1400) :
    (itemWrite it w v x).bank = bankWrite it w v x.bank := by
  rw [itemWrite, if_pos h]

/-- A writable item reads as what was written, but s0, p0 and p1. -/
theorem itemRead_itemWrite {it w : Nat} {x : Ctx} (v : Word) (hs : (itemRead it w x).isSome = true) (h1401 : it ≠ 0x1401)
    (hs0 : it ≠ 0x1000) (hp0 : it ≠ 0x1200) (hp1 : it ≠ 0x1201) : itemRead it w (itemWrite it w v x) = some v := by
  unfold itemRead at hs ⊢
  by_cases hS : 0x1000 ≤ it ∧ it < 0x1040
  · rw [if_pos hS] at hs ⊢
    rw [if_pos (Option.isSome_ite.mp hs), itemWrite_bank _ _ _ (by omega), bankWrite, if_pos (by omega), Bank.getS_setS,
      if_pos ⟨rfl, by omega⟩]
  rw [if_neg hS] at hs ⊢
  by_cases hV : 0x1100 ≤ it ∧ it < 0x1140
  · rw [if_pos hV] at hs ⊢
    have hw := Option.isSome_ite.mp hs
    rw [if_pos hw, itemWrite_bank _ _ _ (by omega), bankWrite, if_neg (by omega), if_pos (by omega)]
    exact congrArg some (getD_setRowWord _ _ v hw)
  rw [if_neg hV] at hs ⊢
  by_cases hP : 0x1200 ≤ it ∧ it < 0x1210
  · rw [if_pos hP] at hs ⊢
    have hw := Option.isSome_ite.mp hs
    rw [if_pos hw, itemWrite_bank _ _ _ (by omega), bankWrite, if_neg (by omega), if_neg (by omega), if_pos (by omega),
      Bank.physP_setP, if_pos ⟨rfl, by omega⟩, extract_setPredWord _ _ hw]
  rw [if_neg hP] at hs ⊢
  by_cases hT : 0x1300 ≤ it ∧ it < 0x1308
  · rw [if_pos hT] at hs ⊢
    have hw := Option.isSome_ite.mp hs
    rw [if_pos hw, itemWrite_bank _ _ _ (by omega), bankWrite, if_neg (by omega), if_neg (by omega), if_neg (by omega)]
    exact congrArg some (getD_setRowWord _ _ v (by omega))
  rw [if_neg hT] at hs ⊢
  by_cases hpc : it = 0x1400
  · rw [if_pos hpc] at hs ⊢
    rw [if_pos (Option.isSome_ite.mp hs), itemWrite, if_neg (by omega)]
  · rw [if_neg hpc, if_neg h1401] at hs
    exact absurd hs Bool.false_ne_true

/-- A write of s0, p0 or p1 is discarded. -/
theorem itemWrite_hardwired {it : Nat} (w : Nat) (v : Word) (x : Ctx) (h : it = 0x1000 ∨ it = 0x1200 ∨ it = 0x1201) :
    itemWrite it w v x = x := by
  have hb : bankWrite it w v x.bank = x.bank := by
    obtain rfl | rfl | rfl := h
    · exact (if_pos (by omega)).trans (if_pos rfl)
    · exact (if_neg (by omega)).trans <| (if_neg (by omega)).trans <| (if_pos (by omega)).trans (if_pos (.inl rfl))
    · exact (if_neg (by omega)).trans <| (if_neg (by omega)).trans <| (if_pos (by omega)).trans (if_pos (.inr rfl))
  rw [itemWrite, if_pos (by omega), hb]

end Sys2Proof.Machine

namespace Sys2Proof.Machine

theorem mwRead_mwWrite {s : State} {k j : Nat} {v : Word} (ht : s.target = some (k, j)) (h : mtsMgmtOk s 0x832 v = true)
    (h12 : field s.mwsel 16 16 ≠ 0x012) (hs0 : field s.mwsel 16 16 ≠ 0x1000) (hp0 : field s.mwsel 16 16 ≠ 0x1200)
    (hp1 : field s.mwsel 16 16 ≠ 0x1201) : mwRead (mwWrite s v) = some v := by
  obtain ⟨hsome, h1401, huser⟩ := mwWriteOk_spec ht h
  rw [mwRead_eq ht] at hsome
  by_cases hu : field s.mwsel 16 16 < 0x6A
  · rw [if_pos hu] at hsome
    have hf : UserFrame s k j _ (mtsUser s k j (field s.mwsel 16 16) v) := mtsUser_frame s k j _ v
    have hsel : (mtsUser s k j (field s.mwsel 16 16) v).mwsel = s.mwsel := (congrArg State.mwsel hf.rest :)
    have ht' : (mtsUser s k j (field s.mwsel 16 16) v).target = some (k, j) := by rw [State.target, hsel]; exact ht
    have hw : field s.mwsel 32 16 = 0 := by
      by_contra hw
      rw [if_neg hw] at hsome
      exact absurd hsome Bool.false_ne_true
    rw [mwWrite_eq ht, if_pos hu, mwRead_eq ht', hsel, if_pos hu, if_pos hw]
    exact hf.mfsUser_of_read (UserRegs.read_write_same (huser hu) h12)
  · rw [if_neg hu] at hsome
    rw [mwWrite_eq ht, if_neg hu]
    refine (mwRead_eq (s := s.updCtx k j _) ht).trans ((if_neg hu).trans ?_)
    rw [ctx_updCtx_self]
    exact itemRead_itemWrite v hsome h1401 hs0 hp0 hp1

/-- A write of s0, p0 or p1 leaves what MWDATA reads. -/
theorem mwRead_mwWrite_hardwired {s : State} {k j : Nat} (v : Word) (ht : s.target = some (k, j))
    (h : field s.mwsel 16 16 = 0x1000 ∨ field s.mwsel 16 16 = 0x1200 ∨ field s.mwsel 16 16 = 0x1201) :
    mwRead (mwWrite s v) = mwRead s := by
  have hu : ¬ field s.mwsel 16 16 < 0x6A := by omega
  rw [mwWrite_eq ht, if_neg hu, mwRead_eq ht, if_neg hu]
  refine (mwRead_eq (s := s.updCtx k j _) ht).trans ((if_neg hu).trans ?_)
  rw [ctx_updCtx_self, itemWrite_hardwired _ _ _ h]
  rfl

theorem ctx_mwWrite_other {s : State} {k j : Nat} (v : Word) (ht : s.target = some (k, j)) {m n : Nat}
    (h : m ≠ k ∨ n ≠ j) : (mwWrite s v).ctx m n = s.ctx m n := by
  rw [mwWrite_eq ht]
  split
  · exact (mtsUser_frame s k j _ v).others m n h
  · exact ctx_updCtx_other s (p := (k, j)) (fun e => h.elim (fun hk => hk (congrArg Prod.fst e).symm)
      fun hj => hj (congrArg Prod.snd e).symm) _

end Sys2Proof.Machine

namespace Sys2Proof.Machine

/-! ## The columns of the board and the patrol (R276, R330) -/

theorem heatColumn_hot (s : State) {c : CoreSt} (he : c.excluded = false) (hf : c.fused ≠ 15) :
    (heatColumn s c).hot = (decide (s.heatHigh < c.columnTemp) || (c.hot && decide (s.heatLow ≤ c.columnTemp))) := by
  have hf' : (c.fused == 15) = false := beq_eq_false_iff_ne.mpr hf
  show (c.excluded || c.fused == 15 || _ || _) = _
  rw [he, hf', Bool.false_or, Bool.false_or]

/-- HOT rises above the high threshold, falls below the low one and stays between them. -/
theorem heatColumn_bounds (s : State) {c : CoreSt} (he : c.excluded = false) (hf : c.fused ≠ 15) :
    (s.heatHigh < c.columnTemp → (heatColumn s c).hot = true) ∧
    (c.columnTemp ≤ s.heatHigh → c.columnTemp < s.heatLow → (heatColumn s c).hot = false) ∧
    (c.columnTemp ≤ s.heatHigh → s.heatLow ≤ c.columnTemp → (heatColumn s c).hot = c.hot) := by
  rw [heatColumn_hot s he hf]
  refine ⟨fun h => ?_, fun h1 h2 => ?_, fun h1 h2 => ?_⟩
  · rw [decide_eq_true h, Bool.true_or]
  · rw [decide_eq_false (Nat.not_lt.mpr h1), decide_eq_false (Nat.not_le.mpr h2), Bool.and_false, Bool.or_false]
  · rw [decide_eq_false (Nat.not_lt.mpr h1), decide_eq_true h2, Bool.and_true, Bool.false_or]

theorem execPatrol_cases (u n : Nat) (s : State) : execPatrol u n s = .next
    (if s.patrolled (u / 64 * 64) = false then s
     else if 2 ≤ max n (s.symbolsWrong (u / 64 * 64)) then foundBad s (u / 64 * 64)
     else if max n (s.symbolsWrong (u / 64 * 64)) = 1 then
       { s.countCe with wrong := Tbl.erase s.wrong (u / 64 * 64) }
     else s) := by
  unfold execPatrol
  simp only [Bool.not_eq_true']

/-- Marking a unit poisoned and counting it moves no block. -/
theorem foundBad_none {s : State} {u : Nat} (h : s.blockOf u = none) : foundBad s u =
    (({ s with wrong := Tbl.erase s.wrong u } : State).addPoison [u] |>.countUe u) := by
  have h' : (({ s with wrong := Tbl.erase s.wrong u } : State).addPoison [u] |>.countUe u).blockOf u = none := h
  rw [foundBad, h']

theorem foundBad_some {s : State} {u : Nat} {b : Nat × Nat} (h : s.blockOf u = some b) : foundBad s u =
    foundPoison (({ s with wrong := Tbl.erase s.wrong u } : State).addPoison [u] |>.countUe u) b.1 b.2 := by
  have h' : (({ s with wrong := Tbl.erase s.wrong u } : State).addPoison [u] |>.countUe u).blockOf u = some b := h
  rw [foundBad, h']

/-! ## What TBKT and LMAP leave -/

theorem find_tbkt_writeTbkt (s : State) (v : Word) :
    Tbl.find ((writeTbkt s v).fn s.selFunc).tbkt s.selQuad = some (field v 16 16, field v 0 16) := by
  show Tbl.find (Tbl.getD (writeTbkt s v).fns s.selFunc {}).tbkt s.selQuad = _
  rw [writeTbkt_eq, foldl_updCore_fns]
  refine (congrArg (fun d => Tbl.find d.tbkt s.selQuad) ((State.fn_updFn ..).trans (if_pos rfl))).trans ?_
  exact Tbl.find_set_same ..

theorem fn_writeTbkt_other (s : State) (v : Word) {g : Nat} (hg : g ≠ s.selFunc) : (writeTbkt s v).fn g = s.fn g := by
  show Tbl.getD (writeTbkt s v).fns g {} = _
  rw [writeTbkt_eq, foldl_updCore_fns]
  exact (State.fn_updFn ..).trans (if_neg hg)

theorem core_writeTbkt (s : State) (v : Word) {k : Nat} (hk : k ∈ quadCores s.selQuad) :
    (writeTbkt s v).core k = filled s v k (s.core k) := by
  rw [writeTbkt_eq]
  exact core_foldl_of_mem id (fun k => filled s v k) _ _ hk (by rw [List.map_id]; exact quadCores_nodup _)

theorem core_writeTbkt_other (s : State) (v : Word) {k : Nat} (hk : k ∉ quadCores s.selQuad) :
    (writeTbkt s v).core k = s.core k := by
  rw [writeTbkt_eq]
  exact core_foldl_of_not_mem id (fun k => filled s v k) _ _ (by rwa [List.map_id])

/-- A bucket no unit waits for takes the burst. -/
theorem find_tokens_filled (s : State) (v : Word) {k : Nat} (h : 0 ≤ (s.bucket s.selFunc k).tokens) (c : CoreSt) :
    Tbl.find (filled s v k c).tokens s.selFunc =
      some { s.bucket s.selFunc k with tokens := (field v 16 16 : Int) } := by
  have hw : (if s.tokenRate s.selFunc k = 0 ∨ field v 0 16 = 0 then (0 : Int)
      else min (s.bucket s.selFunc k).tokens 0) = 0 := by rw [min_eq_right h, ite_self]
  rw [filled, hw, add_zero]
  exact Tbl.find_set_same ..

theorem core_writeLmap (s : State) (v : Word) {i : Nat} (hi : i < 4) : (writeLmap s v).core (4 * s.selQuad + i) =
    { s.core (4 * s.selQuad + i) with force := BitVec.ofNat 4 (field v (16 * i + 8) 4) } := by
  rw [writeLmap_eq]
  exact core_foldl_of_mem Prod.fst (forced v) _ s (mem_zipIdx_quadCores hi)
    (by rw [zipIdx_quadCores_fst]; exact quadCores_nodup _)

theorem core_writeLmap_other (s : State) (v : Word) {k : Nat} (hk : k ∉ quadCores s.selQuad) :
    (writeLmap s v).core k = s.core k := by
  rw [writeLmap_eq]
  exact core_foldl_of_not_mem Prod.fst (forced v) _ s (by rwa [zipIdx_quadCores_fst])

theorem fns_writeLmap (s : State) (v : Word) : (writeLmap s v).fns = s.fns := by
  rw [writeLmap_eq, foldl_updCore_fns]

end Sys2Proof.Machine

namespace Sys2Proof.Machine

theorem mtsMgmt_qpart {s : State} {v : Word} (h : mtsMgmtOk s 0x801 v = true) :
    mtsMgmt s 0x801 v = s.updQuad s.selQuad (fun q => { q with
      part := field v 0 6, valid := bit v 6
      scrub := q.scrub || bit v 6 != (s.quad s.selQuad).valid || field v 0 6 != (s.quad s.selQuad).part }) := by
  have hq : mtsMgmt s 0x801 v = writeQpart s v := by rw [mtsMgmt, h]; rfl
  rw [hq, writeQpart]
  simp only [Bool.or_assoc]

theorem mtsMgmt_fctl {s : State} {v : Word} (h : mtsMgmtOk s 0x802 v = true) : mtsMgmt s 0x802 v = writeFctl s v := by
  rw [mtsMgmt, h]
  rfl

theorem mtsMgmt_lq {s : State} {v : Word} (h : mtsMgmtOk s 0x804 v = true) : mtsMgmt s 0x804 v = writeLq s v := by
  rw [mtsMgmt, h]
  rfl

theorem mtsMgmt_tbkt {s : State} {v : Word} (h : mtsMgmtOk s 0x824 v = true) : mtsMgmt s 0x824 v = writeTbkt s v := by
  rw [mtsMgmt, h]
  rfl

theorem mtsMgmt_lmap {s : State} {v : Word} (h : mtsMgmtOk s 0x820 v = true) : mtsMgmt s 0x820 v = writeLmap s v := by
  rw [mtsMgmt, h]
  rfl

theorem mtsMgmt_mwdata {s : State} {v : Word} (h : mtsMgmtOk s 0x832 v = true) : mtsMgmt s 0x832 v = mwWrite s v := by
  rw [mtsMgmt, h]
  rfl

end Sys2Proof.Machine

/-- Settles O59: the board's events by their definitions, and each register write by what it does to its function, its
quad's cores or the item it names. -/
theorem boardAndManagement : Obligations.BoardAndManagement := by
  unfold Obligations.BoardAndManagement
  intro s v u n
  have ho {t t' : State} (h : t = t') : Host.Outcome.next t = (.next t' : Host.Outcome State Fault Refusal) :=
    congrArg _ h
  refine ⟨rfl, fun c he hf => heatColumn_bounds s he hf, ho (if_congr decide_eq_true_iff rfl rfl), rfl, rfl,
    ⟨fun h => ?p0, fun hp hm hb => ?pn, fun b hp hm hb => ?pb, fun hp hm => ?p1⟩, fun h => ho (mtsMgmt_qpart h),
    fun h => ho (mtsMgmt_fctl h), fun h => ho (mtsMgmt_lq h), fun h => ho (mtsMgmt_tbkt h), fun h => ho (mtsMgmt_lmap h),
    fun h => ho (mtsMgmt_mwdata h), rfl, ?lq, ?tbkt, ?lmap,
    fun k j ht h => ?mw, fun m h => mtsMgmt_refused h⟩
  case lq =>
    have hf : (writeLq s v).fn s.selFunc = (s.fn s.selFunc).lq s.selQueue v := (fn_writeLq ..).trans (if_pos rfl)
    refine ⟨?_, fun m hm => ?_, fun g hg => (fn_writeLq ..).trans (if_neg hg), ?_, ?_, writeLq_memories s v⟩
    · rw [hf]
      exact (Fn.q_upd ..).trans (if_pos rfl)
    · rw [hf]
      exact (Fn.q_upd ..).trans (if_neg hm)
    · rw [writeLq_eq]
    · rw [writeLq_eq]
      rfl
  case tbkt =>
    refine ⟨find_tbkt_writeTbkt s v, fun g hg => fn_writeTbkt_other s v hg, fun k hk h => ?_,
      fun k hk => core_writeTbkt_other s v hk, writeTbkt_memories s v⟩
    rw [core_writeTbkt s v hk]
    exact find_tokens_filled s v h _
  case lmap =>
    exact ⟨fun i hi => core_writeLmap s v hi, fun k hk => core_writeLmap_other s v hk, fns_writeLmap s v,
      writeLmap_memories s v⟩
  case mw =>
    exact ⟨mwRead_mwWrite ht h, mwRead_mwWrite_hardwired v ht, fun m n hmn => ctx_mwWrite_other v ht hmn,
      mwWrite_memories s v⟩
  all_goals show execPatrol u n s = _; rw [execPatrol_cases]
  case p0 =>
    by_cases hp : s.patrolled (u / 64 * 64) = false
    · rw [if_pos hp]
    · have hm := h.resolve_left hp
      rw [if_neg hp, if_neg (by omega), if_neg (by omega)]
  case pn => rw [if_neg (by simp [hp]), if_pos hm, foundBad_none hb]
  case pb => rw [if_neg (by simp [hp]), if_pos hm, foundBad_some hb]
  case p1 => rw [if_neg (by simp [hp]), if_neg (by omega), if_pos hm]; rfl

end

section
/-!
PROOFS. The host and the pod: service requests, resets, bring-up, attestation and flits (R337 to R351, R344, R346).
-/
namespace Sys2Proof.Machine

/-! ## What Function Level Reset stops and ends (R341) -/

theorem scrub_standing (s : State) (a n : Nat) : (s.scrub a n).standing = s.standing := by
  unfold State.scrub
  dsimp only
  split <;> rfl

theorem scrub_fns (s : State) (a n : Nat) : (s.scrub a n).fns = s.fns := by
  unfold State.scrub
  dsimp only
  split <;> rfl

theorem scrubPieces_standing (s : State) (tier : Nat) (ps : List (Nat × Nat)) :
    (scrubPieces s tier ps).standing = s.standing :=
  (foldl_standing (g := fun (s : State) (p : Nat × Nat) => s.scrub p.1 p.2) (fun s _ => scrub_standing s ..) ps _).trans rfl

theorem freeCode_standing (s : State) (l : Launch) : (freeCode s l).standing = s.standing :=
  ite_standing rfl (scrub_standing ..)

theorem freeCode_fns (s : State) (l : Launch) : (freeCode s l).fns = s.fns := by
  unfold freeCode
  split
  · rfl
  · exact scrub_fns ..

/-- A launch as a reset of its function leaves it. -/
def Launch.stoppedByReset (x : Launch) : Launch :=
  { x with state := .retired, silent := true, purse := 0, code := (0, 0, 0), img := {}, safe := [] }

theorem stopLaunch_launches (s : State) (l : Launch) :
    (stopLaunch s l).launches = s.launches.map (fun x => if x.id == l.id then x.stoppedByReset else x) := by
  have hl : (freeCode s l).launches = s.launches :=
    congrArg (fun p : List Region × List Launch × List PodWait => p.2.1) (freeCode_standing s l)
  rw [← hl]
  rfl

theorem stopLaunch_asks (s : State) (l : Launch) : (stopLaunch s l).asks = s.asks :=
  congrArg (fun p : List Region × List Launch × List PodWait => p.2.2) (freeCode_standing s l)

/-- What a function admits of other packages' accesses stands through the stop of a launch. -/
theorem stopLaunch_admits (s : State) (l : Launch) (g : Nat) :
    ((stopLaunch s l).fn g).en = (s.fn g).en ∧ ((stopLaunch s l).fn g).podId = (s.fn g).podId := by
  have hfn : (stopLaunch s l).fn g = if g = l.fn then
      { s.fn l.fn with allowance := (s.fn l.fn).allowance + l.purse } else s.fn g := by
    have hf : (stopLaunch s l).fn g = (refundTo (freeCode s l) l.fn l.purse).fn g := rfl
    have hs : ∀ m, (freeCode s l).fn m = s.fn m := fun m => congrArg (fun t : Tbl Fn => Tbl.getD t m {}) (freeCode_fns s l)
    rw [hf, refundTo, State.fn_updFn, hs, hs]
  rw [hfn]
  split
  · next h => exact h ▸ ⟨rfl, rfl⟩
  · exact ⟨rfl, rfl⟩

theorem stopLaunch_tenantFn (s : State) (l : Launch) (a : Config.PodAsk) : (stopLaunch s l).tenantFn a = s.tenantFn a := by
  refine congrArg (List.find? · _) (funext fun g => ?_)
  obtain ⟨he, hp⟩ := stopLaunch_admits s l g
  rw [he, hp]

theorem stopLaunches_asks : ∀ (ls : List Launch) (s : State), (ls.foldl stopLaunch s).asks = s.asks ∧
    ∀ a, (ls.foldl stopLaunch s).tenantFn a = s.tenantFn a
  | [], _ => ⟨rfl, fun _ => rfl⟩
  | l :: ls, s => by
    obtain ⟨ha, ht⟩ := stopLaunches_asks ls (stopLaunch s l)
    exact ⟨ha.trans (stopLaunch_asks s l), fun a => (ht a).trans (stopLaunch_tenantFn s l a)⟩

/-- A launch after the stop of some: it is retired, or it stood so before and none of them has its number. -/
theorem mem_stopLaunches {x : Launch} : ∀ {ls : List Launch} {s : State}, x ∈ (ls.foldl stopLaunch s).launches →
    x.state = .retired ∨ (x ∈ s.launches ∧ ∀ l ∈ ls, l.id ≠ x.id)
  | [], _, h => .inr ⟨h, fun _ hl => nomatch hl⟩
  | l :: ls, s, h => by
    rcases mem_stopLaunches (ls := ls) h with hr | ⟨hx, hne⟩
    · exact .inl hr
    · rw [stopLaunch_launches, List.mem_map] at hx
      obtain ⟨y, hy, rfl⟩ := hx
      by_cases he : y.id == l.id
      · exact .inl (congrArg Launch.state (if_pos he))
      · rw [if_neg he] at hne ⊢
        exact .inr ⟨hy, List.forall_mem_cons.mpr ⟨fun e => he (beq_iff_eq.mpr e.symm), hne⟩⟩

/-- Once the launches of a function that are not retired are stopped, all of them are retired. -/
theorem retired_of_stopLaunches {s : State} {f : Nat} {x : Launch} (hf : x.fn = f)
    (h : x ∈ ((s.launches.filter (fun l => l.fn == f && l.state != .retired)).foldl stopLaunch s).launches) :
    x.state = .retired := by
  rcases mem_stopLaunches h with hr | ⟨hx, hne⟩
  · exact hr
  · by_contra hs
    exact hne x (List.mem_filter.mpr ⟨hx, by simp [hf, hs]⟩) rfl

/-! ## The regions a reset ends -/

theorem endRegion_standing (s : State) (r : Region) : (endRegion s r).standing =
    (s.regions.filter (fun x => x.id != r.id), s.launches, s.asks) := by
  have h : (scrubPieces (settleHeld (endRange s r r.base r.len) r.pieces false) r.tier r.pieces).standing = s.standing :=
    (scrubPieces_standing ..).trans ((settleHeld_standing ..).trans (endRange_standing ..))
  exact congrArg (fun p : List Region × List Launch × List PodWait => (p.1.filter (fun x => x.id != r.id), p.2)) h

/-- The region of a number ends, if there is one. -/
def endOne (s : State) (r : Region) : State :=
  match s.region? r.id with
  | some q => endRegion s q
  | none => s

theorem endOne_standing (s : State) (r : Region) : (endOne s r).standing.2 = s.standing.2 ∧
    ∀ x ∈ (endOne s r).regions, x ∈ s.regions ∧ r.id ≠ x.id := by
  unfold endOne
  split
  · next q hr =>
    have hq : q.id = r.id := beq_iff_eq.mp (List.find?_some (p := fun x : Region => x.id == r.id) hr)
    have he := endRegion_standing s q
    refine ⟨(congrArg Prod.snd he :), fun x hx => ?_⟩
    rw [show (endRegion s q).regions = _ from congrArg Prod.fst he, List.mem_filter, bne_iff_ne, hq] at hx
    exact ⟨hx.1, hx.2.symm⟩
  · next hr => exact ⟨rfl, fun x hx => ⟨hx, fun e => List.find?_eq_none.mp hr x hx (beq_iff_eq.mpr e.symm)⟩⟩

theorem endOnes_standing : ∀ (rs : List Region) (s : State), (rs.foldl endOne s).standing.2 = s.standing.2 ∧
    ∀ x ∈ (rs.foldl endOne s).regions, x ∈ s.regions ∧ ∀ r ∈ rs, r.id ≠ x.id
  | [], _ => ⟨rfl, fun _ hx => ⟨hx, fun _ hr => nomatch hr⟩⟩
  | r :: rs, s => by
    obtain ⟨hkept, hgone⟩ := endOne_standing s r
    obtain ⟨hk, hg⟩ := endOnes_standing rs (endOne s r)
    refine ⟨hk.trans hkept, fun x hx => ?_⟩
    obtain ⟨hx, hne⟩ := hg x hx
    obtain ⟨hx, hr⟩ := hgone x hx
    exact ⟨hx, List.forall_mem_cons.mpr ⟨hr, hne⟩⟩

theorem endBlock_standing (s : State) (f g : Nat) : (endBlock s f g).standing = s.standing := by
  unfold endBlock
  split
  · rfl
  · refine (Eq.trans rfl (scrubPieces_standing ..)).trans ?_
    refine foldl_standing (fun s k => foldl_standing (fun s ch => foldl_standing (fun s c => ?_) _ _) _ _) _ s
    exact ite_standing (endCmd_standing ..) rfl

/-- The registers of a function after a reset of it. -/
def Fn.flr (d : Fn) : Fn := { d with
  queues := d.queues.map (fun q => (q.1, q.2.flr)), s1root := 0, s1inv := 0, s1invBusy := false, causeR := 0
  coal := 0, coalP := 0, coalF := 0, mreq := 0, mreqBusy := false, msix := [], pba := 0, reqs := []
  answers := [], rctxInuse := 0 }

theorem Fn.q_flr (d : Fn) (n : Nat) : (d.flr).q n = (d.q n).flr := by
  show Tbl.getD (d.queues.map (fun q => (q.1, q.2.flr))) n {} = (Tbl.getD d.queues n {}).flr
  rw [Tbl.getD_eq_find, Tbl.find_map, Tbl.getD_eq_find]
  cases Tbl.find d.queues n <;> rfl

/-- The launches of a function stopped, and its collectives and the accesses for it gone. -/
def stopFn (s : State) (f : Nat) : State :=
  let t := (s.launches.filter (fun l => l.fn == f && l.state != .retired)).foldl stopLaunch s
  { t with colls := t.colls.filter (fun y => y.fn != f), asks := t.asks.filter (fun a => t.tenantFn a.ask != some f) }

/-- A function's regions ended, and its blocks. -/
def endFn (s : State) (f : Nat) : State :=
  let t := (s.regions.filter (fun r => r.fn == f)).foldl endOne s
  ((t.store f).blocks.map (·.1)).foldl (fun s g => endBlock s f g) t

theorem execFunctionLevelReset_eq (s : State) (f : Nat) :
    execFunctionLevelReset f s = .next ((endFn (stopFn s f) f).updFn f Fn.flr) := rfl

theorem endFn_standing (s : State) (f : Nat) : (endFn s f).standing.2 = s.standing.2 ∧
    ∀ r ∈ (endFn s f).regions, r.fn ≠ f := by
  obtain ⟨hk, hg⟩ := endOnes_standing (s.regions.filter (fun r => r.fn == f)) s
  have hb : (endFn s f).standing = ((s.regions.filter (fun r => r.fn == f)).foldl endOne s).standing :=
    foldl_standing (fun s g => endBlock_standing s f g) _ _
  refine ⟨(congrArg Prod.snd hb).trans hk, fun r hr hf => ?_⟩
  rw [show (endFn s f).regions = _ from congrArg Prod.fst hb] at hr
  obtain ⟨hr, hne⟩ := hg r hr
  exact hne r (List.mem_filter.mpr ⟨hr, beq_iff_eq.mpr hf⟩) rfl

/-- What a reset of a function leaves: its launches retired, none of its regions, and only what others ask. -/
theorem flr_leaves (s : State) (f : Nat) :
    (∀ l ∈ (endFn (stopFn s f) f).launches, l.fn = f → l.state = .retired) ∧
    (∀ r ∈ (endFn (stopFn s f) f).regions, r.fn ≠ f) ∧
    ∀ a ∈ (endFn (stopFn s f) f).asks, a ∈ s.asks ∧ s.tenantFn a.ask ≠ some f := by
  obtain ⟨hk, hg⟩ := endFn_standing (stopFn s f) f
  have hl : (endFn (stopFn s f) f).launches = (stopFn s f).launches := congrArg Prod.fst hk
  have ha : (endFn (stopFn s f) f).asks = (stopFn s f).asks := congrArg Prod.snd hk
  refine ⟨fun l h hf => retired_of_stopLaunches hf (hl ▸ h), hg, fun a h => ?_⟩
  obtain ⟨hasks, htenant⟩ := stopLaunches_asks (s.launches.filter (fun l => l.fn == f && l.state != .retired)) s
  rw [ha, show (stopFn s f).asks = List.filter _ _ from rfl, List.mem_filter, hasks, htenant, bne_iff_ne] at h
  exact h

end Sys2Proof.Machine
open Sys2Proof Sys2Proof.Machine

namespace Sys2Proof.Machine

/-! ## Service requests (R337) -/

section
variable {s : State} {f : Nat}

theorem execSetlayer_none (h : s.request? f (· == 1) = none) : execSetlayer f s = .next s := by
  rw [execSetlayer, h]

theorem execSetlayer_some {b : List Byte} (h : s.request? f (· == 1) = some b) : execSetlayer f s = .next
    (if !allZero (part b 0x18 40) then answer s f 3 []
     else if !(s.fn f).en then answer s f 4 []
     else if s.layerUsed f (numAt b 2 1) then answer s f 1 []
     else if field (BitVec.ofNat 128 (numAt b 8 16)) 48 8 ≠ 0 ∧ layerOf (BitVec.ofNat 128 (numAt b 8 16)) = none then
       answer s f 2 []
     else answer (s.updStore f (fun t => { t with
       layers := Tbl.set t.layers (numAt b 2 1) (BitVec.ofNat 128 (numAt b 8 16)) })) f 0 []) := by
  rw [execSetlayer, h]

theorem execGetlayer_some {b : List Byte} (h : s.request? f (· == 2) = some b) : execGetlayer f s = .next
    (if !allZero (part b 0x18 40) then answer s f 3 []
     else if !(s.fn f).en then answer s f 4 []
     else answer s f 0 [(8, toBytes 16 (Tbl.getD (s.store f).layers (numAt b 2 1) 0).toNat)]) := by
  rw [execGetlayer, h]

theorem execGetwindow_some {b : List Byte} (h : s.request? f (fun o => o != 1 && o != 2) = some b) :
    execGetwindow f s = .next
      (if numAt b 0 2 ≠ 3 ∨ numAt b 2 1 ≠ 0 ∨ !allZero (part b 0x18 40) then answer s f 3 []
       else if !(s.fn f).en then answer s f 4 []
       else answer s f 0
         [(8, toBytes 8 (field (s.fn f).window 0 24)), (0x10, toBytes 8 (field (s.fn f).window 24 24)),
           (0x18, toBytes 24 (s.quadMap (s.fn f).part)), (0x30, List.replicate 16 0)]) := by
  rw [execGetwindow, h]

end

/-! ## Bring-up (R349, R350) -/

section
variable {s : State} (hh : s.boot.halted = false)

theorem repeats_of_oracle {r : List Nat} (go : State → State) (h : s.oracle = 1 :: r) :
    s.repeats go = { s with oracle := r } := by
  rw [State.repeats, State.choose, h]
  rfl

theorem repeats_of_no_oracle (go : State → State) (h : s.oracle = []) : s.repeats go = go s := by
  rw [State.repeats, State.choose, h]
  rfl

/-- A boot that has halted, or has passed its stages, goes on no more. -/
theorem bringUp_over (h : s.boot.halted = true ∨ 8 ≤ s.boot.stage) : bringUp s = s := by
  unfold bringUp
  split
  · rfl
  · next hn =>
    have h8 := h.resolve_left hn
    split
    any_goals omega
    rfl

include hh

theorem bringUp_stage1 (h : s.boot.stage = 1) :
    bringUp s = s.repeats (fun s => { s with boot := { s.boot with stage := 2, rom := true } }) := by
  rw [bringUp, if_neg (by simp [hh]), h]
  rfl

theorem bringUp_stage2 (h : s.boot.stage = 2) : bringUp s = if s.fuses.readable then
    (bootCores { s with boot := { s.boot with fsvn := s.fuses.fsvn } } []).atStage 3 else s.haltBoot := by
  rw [bringUp, if_neg (by simp [hh]), h]
  rfl

theorem bringUp_stage4 (h : s.boot.stage = 4) : bringUp s = verifySlots s := by
  rw [bringUp, if_neg (by simp [hh]), h]
  rfl

theorem bringUp_stage6 (h : s.boot.stage = 6) : bringUp s = (scrubAll s).atStage 7 := by
  rw [bringUp, if_neg (by simp [hh]), h]
  rfl

theorem bringUp_stage7 (h : s.boot.stage = 7) : bringUp s = s.repeats State.ready := by
  rw [bringUp, if_neg (by simp [hh]), h]
  rfl

end

section
variable {s : State} {i : Image}

theorem verifySlots_of_slotA (ha : s.fuses.slotCode s.fuses.slotA = 0) (hi : s.fuses.slotA = some i) :
    verifySlots s = ({ s with boot := { s.boot with failA := 0 } } : State).loadHitik 0 i := by
  unfold verifySlots
  dsimp only
  rw [ha, hi]
  rfl

theorem verifySlots_of_slotB (ha : s.fuses.slotCode s.fuses.slotA ≠ 0) (hb : s.fuses.slotCode s.fuses.slotB = 0)
    (hi : s.fuses.slotB = some i) : verifySlots s = ({ s with boot := { s.boot with
      failA := s.fuses.slotCode s.fuses.slotA, failB := 0 } } : State).loadHitik 1 i := by
  unfold verifySlots
  dsimp only
  rw [hb, hi]
  cases hA : s.fuses.slotA with
  | none => rfl
  | some _ => exact if_neg (hA ▸ ha)

theorem verifySlots_of_neither (ha : s.fuses.slotCode s.fuses.slotA ≠ 0) (hb : s.fuses.slotCode s.fuses.slotB ≠ 0) :
    verifySlots s = ({ s with boot := { s.boot with
      failA := s.fuses.slotCode s.fuses.slotA, failB := s.fuses.slotCode s.fuses.slotB } } : State).haltBoot := by
  unfold verifySlots
  dsimp only
  split
  · rw [if_neg ha]
    split
    · exact if_neg hb
    · rfl
  · exact if_neg hb
  · rfl

end

/-- Only Hitik's image is left in memory by the scrub of bring-up. -/
theorem read_scrubAll (s : State) {x : Nat}
    (h : within x Config.hitikBase ((s.booted.map Image.length).getD 0) = false) : Memory.read (scrubAll s).mem x = 0 := by
  refine read_of_no_cell (fun c hc e => ?_)
  have hw := (List.mem_filter.mp hc).2
  subst e
  exact absurd (h.symm.trans hw) Bool.false_ne_true

end Sys2Proof.Machine

namespace Sys2Proof.Machine

/-! ## Flits and what they ask (R344, R346) -/

section
variable {s : State} {p : Nat} {bytes : List Byte}

/-- An answer to a flit: an ack or a nak on its lane. -/
def flitReply (s : State) (bytes : List Byte) (t n : Nat) : List Byte :=
  let h := flitHead (Config.flitCorrect bytes)
  mkFlit { dst := h.src, src := s.pkg, vl := h.vl, type := t, seq := n } noPayload

/-- What matters of a change of a port is what it makes of the port as it stands. -/
theorem State.updPort_congr {s : State} {p : Nat} {g g' : Port → Port} (h : g (s.port p) = g' (s.port p)) :
    s.updPort p g = s.updPort p g' :=
  congrArg (fun x => { s with ports := Tbl.set s.ports p x }) h

theorem receiveFlit_bad (h : crcOk (Config.flitCorrect bytes) = false) : execReceiveFlit p bytes s =
    .next (s.updPort p (fun x => { x with out := x.out ++ [flitReply s bytes 3 (s.port p).expect] })) := by
  have he : execReceiveFlit p bytes s =
      .next (s.updPort p (fun x => { x with out := x.out ++ [flitReply s bytes 3 x.expect] })) := by
    unfold execReceiveFlit
    dsimp only
    rw [h]
    rfl
  exact he.trans (congrArg Host.Outcome.next (State.updPort_congr rfl))

variable (hc : crcOk (Config.flitCorrect bytes) = true)
include hc

theorem receiveFlit_data (ht : (flitHead (Config.flitCorrect bytes)).type = 1 ∨
      (flitHead (Config.flitCorrect bytes)).type = 4) : execReceiveFlit p bytes s =
    .next (if (flitHead (Config.flitCorrect bytes)).seq = (s.port p).expect then
      takeAsk (s.updPort p (fun x => { x with
        expect := (x.expect + 1) % 4096
        out := x.out ++ [flitReply s bytes 2 (flitHead (Config.flitCorrect bytes)).seq] }))
        p (flitHead (Config.flitCorrect bytes)) (part (Config.flitCorrect bytes) 8 232) else s) := by
  unfold execReceiveFlit
  dsimp only
  rw [hc]
  rcases ht with ht | ht <;> rw [ht] <;> rfl

theorem receiveFlit_ack (ht : (flitHead (Config.flitCorrect bytes)).type = 2) : execReceiveFlit p bytes s =
    .next (if (s.port p).sent.any (fun x => x.1 == (flitHead (Config.flitCorrect bytes)).seq) then
      s.updPort p (fun x => { x with
        sent := (x.sent.dropWhile (fun y => y.1 != (flitHead (Config.flitCorrect bytes)).seq)).drop 1 }) else s) := by
  unfold execReceiveFlit
  dsimp only
  rw [hc, ht]
  rfl

theorem receiveFlit_nak (ht : (flitHead (Config.flitCorrect bytes)).type = 3) : execReceiveFlit p bytes s =
    .next (s.push [.nak p (flitHead (Config.flitCorrect bytes)).seq]) := by
  unfold execReceiveFlit
  dsimp only
  rw [hc, ht]
  rfl

end

section
variable {s : State} {a : PodWait}

theorem serveAsk_nobody (h : s.tenantFn a.ask = none) : serveAsk s a = (podReply s a 3 [], none) := by
  rw [serveAsk, h]
  rfl

variable {g : Nat} (hg : s.tenantFn a.ask = some g) (hb : a.bad = false) (hr : a.req = none) (hd : a.due = [])
include hg hb hr hd

theorem serveAsk_stop {st : Status} {rep : Option (Nat × Nat × Nat)} (h : podReach s g a.ask.op = .stop st rep) :
    serveAsk s a = (podReply (s.report rep) a st [], none) := by
  rw [serveAsk, hg]
  dsimp only
  rw [hb, hr, hd, h]
  rfl

theorem serveAsk_miss {b x : Nat} {w : Bool} (h : podReach s g a.ask.op = .miss b x w) :
    serveAsk s a = ((requestPage s b x w).1, some { a with req := some ((requestPage s b x w).2, w) }) := by
  rw [serveAsk, hg]
  dsimp only
  rw [hb, hr, hd, h]
  rfl

theorem serveAsk_reached {segs : List (Nat × Hit × Nat)} (h : podReach s g a.ask.op = .ok segs) (hp : a.paid = true) :
    serveAsk s a = (podReply (podEffect s g a.vl a.ask.op segs).1 a (podEffect s g a.vl a.ask.op segs).2.1
      (podEffect s g a.vl a.ask.op segs).2.2, none) := by
  rw [serveAsk, hg]
  dsimp only
  rw [hb, hr, hd, h, hp]
  rfl

end

end Sys2Proof.Machine

namespace Sys2Proof.Machine

/-! ## The stages of bring-up that the boot slots and the oracle decide (R349, R350) -/

section
variable {s : State} (hh : s.boot.halted = false)
include hh

theorem bringUp_repeats {r : List Nat} (h : s.boot.stage = 1 ∨ s.boot.stage = 7) (ho : s.oracle = 1 :: r) :
    bringUp s = { s with oracle := r } := by
  rcases h with h | h
  · exact (bringUp_stage1 hh h).trans (repeats_of_oracle _ ho)
  · exact (bringUp_stage7 hh h).trans (repeats_of_oracle _ ho)

theorem bringUp_unreadable (h : s.boot.stage = 2) (hr : s.fuses.readable = false) :
    (bringUp s).boot = { s.boot with halted := true } := by
  rw [bringUp_stage2 hh h, hr]
  rfl

theorem bringUp_readable (h : s.boot.stage = 2) (hr : s.fuses.readable = true) :
    (bringUp s).boot = { s.boot with stage := 3, excl := 0, fsvn := s.fuses.fsvn } := by
  rw [bringUp_stage2 hh h, hr]
  rfl

theorem bringUp_ready {i : Image} (h : s.boot.stage = 7) (ho : s.oracle = []) (hi : s.booted = some i) :
    (bringUp s).boot = { s.boot with stage := 8, meas := measure s.fuses i } := by
  rw [bringUp_stage7 hh h, repeats_of_no_oracle _ ho, State.ready, hi]

end

/-! ## Attestation (R350, R351) -/

theorem execGetMeasurements_one {s : State} {i : Nat} {m : BitVec 256} (h1 : 1 ≤ i) (h4 : i ≤ 4)
    (hm : s.boot.meas[i - 1]? = some m) :
    execGetMeasurements i s = .next (s.spdmReply (Config.spdmBody 0xE0 (bytes256 m))) := by
  rw [execGetMeasurements, if_pos ⟨h1, h4⟩, hm]
  rfl

/-- A vendor request raises FSVN to the running image's SVN, at stage 8 alone. -/
theorem vendorDefinedRequest_fsvn (s : State) : ∃ t, execVendorDefinedRequest s = .next t ∧ s.boot.fsvn ≤ t.boot.fsvn ∧
    (s.boot.stage = 8 → t.fuses.fsvn = max s.boot.fsvn s.boot.svn ∧ t.boot.fsvn = t.fuses.fsvn) ∧
    (s.boot.stage ≠ 8 → t.fuses = s.fuses) := by
  refine ⟨_, rfl, ?_⟩
  split
  · next h => exact ⟨le_max_left .., fun _ => ⟨rfl, rfl⟩, fun h' => absurd h h'⟩
  · next h => exact ⟨le_refl _, fun h' => absurd h' h, fun _ => rfl⟩


end Sys2Proof.Machine

/-- Settles O60: each request, stage, flit and access by the branch it takes, and the reset of a function by what its
loops leave of the launches, the regions and the accesses that wait. -/
theorem hostAndPod : Obligations.HostAndPod := by
  unfold Obligations.HostAndPod
  intro s f p
  have ho {t t' : State} (h : t = t') : Host.Outcome.next t = (.next t' : Host.Outcome State Fault Refusal) :=
    congrArg _ h
  refine ⟨execSetlayer_none, fun b h => ?setlayer, fun b h h0 he => (execGetlayer_some h).trans (ho ?_), fun b h => ?getwindow,
    ⟨_, execFunctionLevelReset_eq s f, ?flr⟩, ⟨rfl, rfl, rfl, rfl, rfl, rfl⟩, fun hh => ?bringUp, bringUp_over, rfl, ?spdm,
    fun bytes => ?flit, fun a => ⟨serveAsk_nobody, fun g hg hb hr hd => ⟨fun st rep => serveAsk_stop hg hb hr hd,
      fun b x w => serveAsk_miss hg hb hr hd, fun segs => serveAsk_reached hg hb hr hd⟩⟩, fun _ => rfl⟩
  case setlayer =>
    refine ⟨fun h0 => ?_, fun ⟨h0, he, hu, hl⟩ => ?_⟩ <;> refine (execSetlayer_some h).trans (ho ?_)
    · rw [if_pos (by simp [h0])]
    · rw [if_neg (by simp [h0]), if_neg (by simp [he]), if_neg (by simp [hu]), if_neg hl]
  case getwindow =>
    refine ⟨fun h3 hn h0 he => ?_, fun h3 => ?_⟩ <;> refine (execGetwindow_some h).trans (ho ?_)
    · rw [if_neg (by simp [h3, hn, h0]), if_neg (by simp [he])]
    · rw [if_pos (.inl h3)]
  case flr =>
    obtain ⟨hl, hr, ha⟩ := flr_leaves s f
    have hf : ((endFn (stopFn s f) f).updFn f Fn.flr).fn f = ((endFn (stopFn s f) f).fn f).flr :=
      (State.fn_updFn ..).trans (if_pos rfl)
    rw [hf]
    exact ⟨hl, hr, rfl, rfl, rfl, rfl, rfl, rfl, ha, fun n => by rw [Fn.q_flr]; exact ⟨rfl, rfl⟩⟩
  case bringUp =>
    refine ⟨fun h hor => (bringUp_stage1 hh h).trans (repeats_of_no_oracle _ hor), fun h r hor => bringUp_repeats hh h hor,
      bringUp_unreadable hh, bringUp_readable hh, fun i h ha hi => ?_, fun i h ha hb hi => ?_, fun h ha hb => ?_, fun h => ?_,
      fun i h hor hi => bringUp_ready hh h hor hi⟩
    · rw [bringUp_stage4 hh h, verifySlots_of_slotA ha hi]
      exact ⟨rfl, rfl⟩
    · rw [bringUp_stage4 hh h, verifySlots_of_slotB ha hb hi]
      exact ⟨rfl, rfl⟩
    · rw [bringUp_stage4 hh h, verifySlots_of_neither ha hb]
      rfl
    · rw [bringUp_stage6 hh h]
      exact ⟨rfl, rfl, fun x hx => read_scrubAll s hx⟩
  case spdm =>
    refine ⟨rfl, rfl, fun _ => rfl, rfl, fun _ _ => rfl, fun _ => rfl, fun i m h1 h4 hm => execGetMeasurements_one h1 h4 hm,
      vendorDefinedRequest_fsvn s⟩
  case flit =>
    refine ⟨fun hc => receiveFlit_bad hc, fun hc ht hs => ⟨fun ha => ?_, fun ha => ?_⟩, fun hc ht hs => ?_,
      fun hc ht hany => ?_, fun hc ht => receiveFlit_nak hc ht⟩
    · exact (receiveFlit_data hc ht).trans (ho ((if_pos hs).trans (if_pos ha)))
    · exact (receiveFlit_data hc ht).trans (ho ((if_pos hs).trans (if_neg ha)))
    · exact (receiveFlit_data hc ht).trans (ho (if_neg hs))
    · exact (receiveFlit_ack hc ht).trans (ho (if_pos hany))
  case _ =>
    rw [if_neg (by simp [h0]), if_neg (by simp [he])]

end
